-- ==== Sys2Proof/Word.lean ====
section
/-! DEFINITION. The word types of the part (R5, R16): a byte, and register words of 32 and 64 bits. -/

namespace Sys2Proof

/-- A byte of memory. -/
abbrev Byte := BitVec 8

/-- A 32-bit word. -/
abbrev Word32 := BitVec 32

/-- A 64-bit word: a general register, a 64-bit BAR0 register, a hitch. -/
abbrev Word := BitVec 64

/-- A 256-byte line read from host memory, with the poison of its 32 words (R328). -/
abbrev HostLine := BitVec 2048 × Word32

/-- A byte read from host memory, and whether its data came with poison (R328). -/
abbrev HostByte := Byte × Bool

/-- A v register of a core: 256 bytes, lane 0 lowest (R343). -/
abbrev VReg := BitVec 2048

end Sys2Proof
end

