-- ==== Sys2Proof/Kinds.lean ====
section
/-! DEFINITION. The small types that the commands' operands and the state share: which image, what a host asks of a
line, what a host answers to a snoop, and the like. -/

namespace Sys2Proof

/-- A 64-byte CXL.mem line. -/
abbrev Line64 := BitVec 512

/-- A 256-byte device line. -/
abbrev Line256 := BitVec 2048

/-- The two firmware images (section 5 of spec/02_stages_and_firmware.md). -/
inductive ImageKind where
  | mgmt | ctrl
deriving DecidableEq, Repr

/-- A firmware image in flash: the fields of its header that the device uses, and what the Glovebox's checks of it
give (R60, R61). -/
structure Image where
  sigOk    : Bool
  typ      : BitVec 8
  resvZero : Bool
  version  : Nat
  svn      : Nat
  prov     : List (BitVec 8)
  min      : List (BitVec 8)
  max      : List (BitVec 8)
deriving DecidableEq, Repr

/-- MetaValue of an M2S request (R147). -/
inductive MetaValue where
  | invalid | shared | any
deriving DecidableEq, Repr

/-- A host's answer to a back-invalidate snoop (R147). -/
inductive BiRsp where
  | i | s | e
deriving DecidableEq, Repr

/-- A back-invalidate snoop, single-line forms only (R149). -/
inductive BiSnp where
  | cur | data | inv
deriving DecidableEq, Repr

/-- One issue of a scalar context: the core, the context, and the instruction word it fetched, word 0 in [31:0] and
word 1 in [63:32] (zero for a 32-bit instruction). `meet` says whether its core-memory access, if it makes one, falls
in the CCLK of the accesses that the core's other ports made last (R248): timing that the card's surroundings decide. -/
structure Issue where
  core : Nat
  ctx  : Nat
  word : Word
  meet : Bool
deriving DecidableEq, Repr

/-- A slot of a Rein flit (R642). -/
abbrev Slot := BitVec 128

/-- A received DATA flit as the link layer hands it on (R642, R643): its sequence number, ACK, credit fields, credit
epoch, slots, and the SOP and PSN masks. -/
structure Flit where
  fseq   : Nat
  ack    : Nat
  creds  : List Nat
  cepoch : Bool
  slots  : List Slot
  sop    : Nat
  psn    : Nat
deriving DecidableEq, Repr

/-- A request that waits at a configurable arbiter (R623, R628, R629, R630): its source (0 to 31 a core, 32 CP, 33 KVU,
34 Ostler, 35 and 36 Rein ports, 37 fill engine, 38 bulk engine, 39 patrol, from 40 on host requesters), class,
priority, task and stall; what it may not pass (an earlier request of the same `order` that `holds`); its beats, and for
a DRAM write its physical offset; and the NCLK at which it reached the arbiter. -/
structure BReq where
  src   : Nat
  cls   : Nat
  prio  : Nat
  task  : Option Nat
  stall : Option Nat
  order : Option Nat
  holds : Bool
  beats : Nat
  write : Option Nat
  since : Nat
deriving DecidableEq, Repr

/-- Whose read of host memory fails (R133): a task's, or that of the command an SQ runs, with the lines it read before. -/
inductive HostReader
  | task (id : Nat)
  | command (sq : Nat) (before : List HostLine)
deriving DecidableEq, Repr

end Sys2Proof
end

