-- ==== Sys2Proof/Syntax.lean ====
section
/-! DEFINITION. The commands of the block: one constructor for each row of spec/opcode_table.json, in the table's
order, with the operands the row's rule gives the event. An operand carries what comes from outside the card (an
address, a value, a message's content, what a sensor or a host answers); everything else is State's. -/

namespace Sys2Proof

/-- The commands (spec/opcode_table.json). -/
inductive Instr where
  /-- REGISTER_WRITE (R780). A BAR0 write to a register with no row of its own applies its RW, RWO and W1C fields under the access codes, half-register holding and refusal rules. -/
  | registerWrite (req off size : Nat) (val : Word) (sigOk : Bool) (host : List Line64)
  /-- REGISTER_READ_CAPTURE (R779). A read that clears RC fields, or a low-half read that captures the high half for the requester's next high-half read. -/
  | registerReadCapture (req off size : Nat)
  /-- CONFIG_REQUEST (R43). A configuration request to F0 or F1 completes normally from 100 ms after PERST# deasserts, and with Request Retry Status before then. -/
  | configRequest (req fn : Nat)
  /-- COLD_POWER_ON (R791). Valid slot inputs raise rails 1 to 7 in order, release cold reset at VDD_SOC power-good and read LINK_MODE. -/
  | coldPowerOn
  /-- SUPPLY_DROP (R792). Slot 12 V or 3.3 V held below threshold for 50 µs removes VDD_CORE and then rails 7 to 1. -/
  | supplyDrop
  /-- TAMPER (R202). A supply, XO or ACLK glitch outside limits zeroizes every key and raises class A fault TAMPER. -/
  | tamper (monitor : Nat)
  /-- AUX_DETECT (R789). The AUX input becomes present after 10 ms of valid voltage and sense, or absent after 100 µs of failure. -/
  | auxDetect (present : Bool)
  /-- V12B_UNDERVOLTAGE (R788). 12V_B falling below 9.0 V stops every phase, which resumes above 9.5 V. -/
  | v12bUndervoltage (low : Bool)
  /-- PERST_ASSERT (R76). PERST# resets link, F0, F1, CP, core complex and queues, replaces all DRAM keys and ends Owner sessions. -/
  | perstAssert (pin1 : Bool)
  /-- PERST_DEASSERT (R42). PERST# deasserting starts the stage deadlines and the boot ROMs, or leaves a trip when every sensor reads below 100 °C. -/
  | perstDeassert (pin1 : Bool)
  /-- WALK_ENTRY (R44). Restored or full DRAM training passes, refresh, ECC and encryption are enabled, and F0 reports Memory_Active. -/
  | walkEntry (restored : Bool) (failed : Option Nat)
  /-- IMAGE_VERIFY (R61). The Glovebox completes verification of an MGMT or CTRL image and the epoch pairs are evaluated. -/
  | imageVerify (img : ImageKind)
  /-- MGMT_START_TIMEOUT (R53). The MGMT image has not reported running within 1.5 s, so it is treated as failed. -/
  | mgmtStartTimeout
  /-- CTRL_START_TIMEOUT (R55). The CTRL image has not reported running within 2 s, so it is treated as failed. -/
  | ctrlStartTimeout
  /-- VR_NOT_READY (R83). VDD_CORE power-good is not reached within 500 ms of MGMT running, so the device holds at Trot. -/
  | vrNotReady
  /-- TROT_ENTRY (R51). The device enters Trot once all five conditions hold. -/
  | trotEntry
  /-- BIST_COMPLETE (R56). Core BIST completes, and failing cores are power-gated and marked in STAGE_BIST. -/
  | bistComplete (failMask : Word32)
  /-- CANTER_ENTRY (R54). The device enters Canter once the CTRL image, the epochs, a handshake and BIST all succeed. -/
  | canterEntry
  /-- RESTAGE (R57). An Owner write of STAGE_CTL.RESTAGE fences compute, drops to Trot and restarts MGMT and CTRL from PAIR. -/
  | restage (req : Nat) (val : Word)
  /-- DRV_HANDSHAKE (R69). A write to the requester's STAGE_DRV_HANDSHAKE bank is evaluated and sets ACCEPTED or REJECTED. -/
  | drvHandshake (req size : Nat) (high : Bool) (val : Word)
  /-- F1_FLR (R77). A function-level reset of F1 aborts tasks, restarts the CP and clears queues, slots, Paddock, hitches and handshakes. -/
  | f1Flr
  /-- F0_FLR (R127). A function-level reset of F0 resets the mailbox and background commands without touching CXL.mem. -/
  | f0Flr (req : Nat)
  /-- F1_D3HOT (R136). Entry of F1 to D3hot imposes a compute fence with cause F1_D3. -/
  | f1D3hot
  /-- F1_D0_RETURN (R136). Return of F1 to D0 acts as a function-level reset of F1. -/
  | f1D0Return
  /-- F0_D3HOT (R135). An attempt to place F0 in D3hot completes and F0 stays in D0. -/
  | f0D3hot (req : Nat)
  /-- REQUESTER_RESET (R129). A hot reset, link down, head PERST#, or LD reset or unbind resets one requester in seven ordered steps. -/
  | requesterReset (req : Nat)
  /-- LD_BIND (R109). An LD that becomes bound is treated as a requester leaving requester reset. -/
  | ldBind (ld : Nat)
  /-- MEM_RD (R147). A host CXL.mem read is served in order at its DCOH slice with any snoops, then from DRAM. -/
  | memRd (req dpa : Nat) (mv : MetaValue)
  /-- MEM_WR (R147). A host CXL.mem write or writeback is served at its DCOH slice with any snoops and written to DRAM. -/
  | memWr (req dpa : Nat) (mv : MetaValue) (data : Line64) (poison : Bool)
  /-- DCOH_REQUEST_SERVE (R151). A request queued for a line is served once the previous request for that line has completed. -/
  | dcohRequestServe (line : Nat)
  /-- BIRSP (R147). A host's answer to a back-invalidate snoop updates the line state, with writeback data if any. -/
  | birsp (req line : Nat) (rsp : BiRsp) (wb : Option Line64)
  /-- BICONFLICT (R150). A host BIConflict is answered with BIConflictAck after the completion of its earlier request. -/
  | biconflict (req line : Nat)
  /-- BI_TIMEOUT (R165). An unanswered snoop past BI_TIMEOUT poisons the line and serves the queued requests. -/
  | biTimeout (req line : Nat)
  /-- IDE_INTEGRITY_FAIL (R121). An IDE check failure discards the flit and makes the stream Insecure, poisoning that head's CXL.mem. -/
  | ideIntegrityFail (req : Nat)
  /-- IDE_KM (R120). IDE keys are exchanged with IDE_KM over a secured SPDM session with the Glovebox. -/
  | ideKm (req : Nat)
  /-- BAR2_PADDOCK_ACCESS (R98). A host BAR2 access to the Paddock aperture is performed, untagged, if it lies in a window of a bound stall. -/
  | bar2PaddockAccess (req off size : Nat) (write : Option Line64)
  /-- RSLOT_ACK (R548). A matching 4-byte ACK write to a READY result slot sets it CONSUMED. -/
  | rslotAck (req off size : Nat) (val : Word)
  /-- HOST_READ_ERROR (R133). A host-memory read that fails or times out raises HOST_LINK_DOWN in the issuing task. -/
  | hostReadError (who : HostReader)
  /-- INITIATE_DYNAMIC_CAPACITY_ADD (R112). An FM API add of extents zero-fills the blocks before they are offered. -/
  | initiateDynamicCapacityAdd (agent : Nat) (blocks : List Nat) (region : Nat) (reqs : List Nat) (share : Option Nat)
  /-- EXTENT_OFFER (R112). Zero fill of an extent completes and the Dynamic Capacity event offering it is posted. -/
  | extentOffer (ext : Nat)
  /-- INITIATE_DYNAMIC_CAPACITY_RELEASE (R115). An FM API release of an extent, including a forced removal. -/
  | initiateDynamicCapacityRelease (agent ext req : Nat) (forced : Bool)
  /-- ADD_DYNAMIC_CAPACITY_RESPONSE (R111). A mailbox command by which the host accepts offered extents. -/
  | addDynamicCapacityResponse (req ext : Nat) (accept : Bool)
  /-- RELEASE_DYNAMIC_CAPACITY (R162). A mailbox command whose acceptance snoops the releasing host's lines, then removes the extent. -/
  | releaseDynamicCapacity (req ext : Nat)
  /-- GET_DYNAMIC_CAPACITY_CONFIGURATION (R123). A mailbox command that returns the DC region configuration. -/
  | getDynamicCapacityConfiguration (req : Nat)
  /-- GET_DYNAMIC_CAPACITY_EXTENT_LIST (R123). A mailbox command that returns the requester's extent list. -/
  | getDynamicCapacityExtentList (req : Nat)
  /-- GET_EVENT_RECORDS (R123). A mailbox command that returns event records from the requester's logs. -/
  | getEventRecords (req log : Nat)
  /-- CLEAR_EVENT_RECORDS (R123). A mailbox command that clears event records. -/
  | clearEventRecords (req log n : Nat)
  /-- GET_EVENT_INTERRUPT_POLICY (R123). A mailbox command that returns the event interrupt policy. -/
  | getEventInterruptPolicy (req : Nat)
  /-- SET_EVENT_INTERRUPT_POLICY (R123). A mailbox command that sets the event interrupt policy, MSI-X only. -/
  | setEventInterruptPolicy (req : Nat) (policy : Word32)
  /-- GET_TIMESTAMP (R123). A mailbox command that returns the per-requester timestamp. -/
  | getTimestamp (req : Nat)
  /-- SET_TIMESTAMP (R123). A mailbox command that sets the per-requester timestamp. -/
  | setTimestamp (req : Nat) (stamp : Word)
  /-- GET_SUPPORTED_LOGS (R123). A mailbox command that reports the Command Effects Log only. -/
  | getSupportedLogs (req : Nat)
  /-- GET_LOG (R123). A mailbox command that returns the Command Effects Log. -/
  | getLog (req : Nat) (effects : Bool)
  /-- GET_FW_INFO (R123). A mailbox command that reports the active slot pair and the image versions. -/
  | getFwInfo (req : Nat)
  /-- TRANSFER_FW (R123). A mailbox command that returns Unsupported, because update is by PLDM. -/
  | transferFw (req : Nat)
  /-- ACTIVATE_FW (R123). A mailbox command that returns Unsupported. -/
  | activateFw (req : Nat)
  /-- IDENTIFY_MEMORY_DEVICE (R123). A mailbox command that reports volatile capacity only. -/
  | identifyMemoryDevice (req : Nat)
  /-- GET_HEALTH_INFO (R123). A mailbox command that returns health information, with temperature from the die sensors. -/
  | getHealthInfo (req : Nat)
  /-- GET_ALERT_CONFIGURATION (R123). A mailbox command that returns the alert configuration. -/
  | getAlertConfiguration (req : Nat)
  /-- SET_ALERT_CONFIGURATION (R123). A mailbox command that sets the alert configuration. -/
  | setAlertConfiguration (req : Nat) (cfg : Word)
  /-- GET_POISON_LIST (R123). A mailbox command that returns the poison list. -/
  | getPoisonList (req dpa len : Nat)
  /-- INJECT_POISON (R123). A mailbox command that injects poison, refused without an Owner session. -/
  | injectPoison (req dpa : Nat)
  /-- CLEAR_POISON (R123). A mailbox command that clears poison, refused without an Owner session. -/
  | clearPoison (req dpa : Nat) (data : Line64)
  /-- SCAN_MEDIA (R123). A mailbox command that starts a media scan. -/
  | scanMedia (req dpa len : Nat)
  /-- GET_SCAN_MEDIA_RESULTS (R123). A mailbox command that returns the scan results. -/
  | getScanMediaResults (req : Nat)
  /-- SANITIZE (R124). A mailbox command that aborts overlapping tasks, replaces the key and zeroes the scope in the background. -/
  | sanitize (req : Nat)
  /-- SANITIZE_DONE (R124). The background zero-write of a Sanitize completes. -/
  | sanitizeDone (req : Nat)
  /-- SECURE_ERASE (R124). A mailbox command that has the Glovebox replace the scope's DRAM key within 10 ms. -/
  | secureErase (req : Nat)
  /-- UNSUPPORTED_MAILBOX_COMMAND (R123). Any other mailbox command returns Unsupported. -/
  | unsupportedMailboxCommand (req opcode : Nat)
  /-- OWNER_CLAIM (R176). On an unclaimed card, the SPDM vendor request writes the requester's root key to the Owner record. -/
  | ownerClaim (req sid : Nat)
  /-- KEY_EXCHANGE (R180). An SPDM KEY_EXCHANGE opens a session, refused with Busy for a second Owner-rooted session. -/
  | keyExchange (req sid key : Nat) (mutualAuth : Bool)
  /-- END_SESSION (R181). An SPDM END_SESSION ends the session, and the Owner session with it where it is one. -/
  | endSession (req sid : Nat)
  /-- HEARTBEAT (R181). An SPDM heartbeat keeps a session alive. -/
  | heartbeat (req sid : Nat)
  /-- OWNER_SESSION_TIMEOUT (R181). Two heartbeat periods without a message end the session. -/
  | ownerSessionTimeout (sid : Nat)
  /-- GET_MEASUREMENTS (R755). An SPDM request that returns the signed measurement blocks. -/
  | getMeasurements (req : Nat)
  /-- SPDM_REQUEST (R754). Any other SPDM 1.3 request answered by the Glovebox within its capabilities. -/
  | spdmRequest (req code : Nat)
  /-- OWNER_RELEASE (R178). GLOVEBOX_OWNER_CFG.RELEASE empties the Owner record, ends sessions and invalidates every stall by an implicit commit. -/
  | ownerRelease (req : Nat) (val : Word)
  /-- CAP_ASSIGN (R183). STALL_CAP_ASSIGN.GO reassigns capacity blocks, or refuses the command. -/
  | capAssign (req : Nat) (val : Word)
  /-- EDIT_TAKE (R186). STALL_EDIT.TAKE acquires the staged-copy hold if no one holds it. -/
  | editTake (req : Nat)
  /-- EDIT_DROP (R187). STALL_EDIT.DROP reloads the staged copy and releases the hold. -/
  | editDrop (req : Nat)
  /-- STALL_DISCARD (R187). STALL_COMMIT.DISCARD reloads the staged copy from the active copy. -/
  | stallDiscard (req : Nat)
  /-- STALL_COMMIT (R189). STALL_COMMIT.COMMIT runs the stall tack check and, if it accepts, aborts, clears and rekeys what moves. -/
  | stallCommit (req : Nat)
  /-- COMMIT_COMPLETE (R189). Once clearing and zero fill end, the new active table takes effect in one NCLK and dispatch resumes. -/
  | commitComplete
  /-- STALL_RESET (R196). STALL_RESET.MASK resets the named stalls by steps 2 to 5 of a commit. -/
  | stallReset (req : Nat) (val : Word)
  /-- DEBUG_SUBMIT (R207). GLOVEBOX_DEBUG_CTL.SUBMIT checks the token, replaces the nonce and, if valid, rekeys and opens debug. -/
  | debugSubmit (req : Nat) (sigOk : Bool) (conn : Option (List Word))
  /-- SQ_ENABLE (R212). Setting SQ_CTL.ENABLE starts the block 0x02 tack check. -/
  | sqEnable (req n : Nat) (val : Word)
  /-- SQ_DISABLE (R214). Clearing SQ_CTL.ENABLE stops fetching; commands already accepted complete. -/
  | sqDisable (req n : Nat) (val : Word)
  /-- CQ_ENABLE (R212). Setting CQ_CTL.ENABLE starts the check and sets HEAD and TAIL to zero. -/
  | cqEnable (req n : Nat) (val : Word)
  /-- CQ_DISABLE (R541). Disabling a CQ stops fetch from its SQs and drops their pending completions. -/
  | cqDisable (req n : Nat) (val : Word)
  /-- STREAM_Q_ENABLE (R212). Setting STREAM_Q_CTL.ENABLE starts the block 0x03 tack check. -/
  | streamQEnable (req n : Nat) (val : Word)
  /-- STREAM_Q_DISABLE (R500). Disabling a stream queue cancels its streams and faults their tasks with STREAM_DISABLED. -/
  | streamQDisable (req n : Nat) (val : Word)
  /-- RING_ENABLE (R288). Setting RING_CTL.ENABLE checks the ring, zeroes RESV and HEAD and sets every slot EMPTY. -/
  | ringEnable (req n : Nat) (val : Word)
  /-- RING_DISABLE (R296). Clearing RING_CTL.ENABLE ends waiting operations with RING_DISABLED and voids credits. -/
  | ringDisable (req n : Nat) (val : Word)
  /-- BARRIER_ENABLE (R462). Setting BARRIER_CTL.ENABLE checks the barrier and zeroes its counter hitch. -/
  | barrierEnable (req n : Nat) (val : Word)
  /-- BARRIER_DISABLE (R468). Clearing BARRIER_CTL.ENABLE ends every wait on the barrier with BARRIER_DISABLED. -/
  | barrierDisable (req n : Nat) (val : Word)
  /-- HITCH_CFG_ENABLE (R479). Setting HITCH_CFG.ENABLE checks the stall's limits and applies them. -/
  | hitchCfgEnable (req n : Nat) (val : Word)
  /-- KV_POOL_ENABLE (R575). Setting KV_POOL_CTL.ENABLE checks the pool and writes the free list. -/
  | kvPoolEnable (req n : Nat) (val : Word)
  /-- KV_POOL_DISABLE (R614). Clearing KV_POOL_CTL.ENABLE invalidates every sequence of the pool. -/
  | kvPoolDisable (req n : Nat) (val : Word)
  /-- HRN_ENABLE (R568). Setting HRN_CTL.ENABLE runs the block 0x0B check on the loaded harness copy. -/
  | hrnEnable (req n : Nat) (val : Word)
  /-- BRIDLE_ENABLE (R639). Setting BRIDLE_CTL.ENABLE checks and applies the arbiter's floors, ceilings and thresholds. -/
  | bridleEnable (req n : Nat) (val : Word)
  /-- REIN_PORT_ENABLE (R674). Setting REIN_PORT_CTL.ENABLE checks the port and starts training. -/
  | reinPortEnable (req n : Nat) (val : Word)
  /-- REIN_PORT_DISABLE (R672). Clearing REIN_PORT_CTL.ENABLE sends DOWN and performs the link-down actions with cause 7. -/
  | reinPortDisable (req n : Nat) (val : Word)
  /-- VR_ENABLE (R744). Setting VR_CTL.ENABLE checks the regulator settings and ramps to the set-point. -/
  | vrEnable (req : Nat) (val : Word)
  /-- VR_DISABLE (R720). Clearing VR_CTL.ENABLE ramps VDD_CORE down and fences compute with cause CORE_POWER_GOOD. -/
  | vrDisable (req : Nat) (val : Word)
  /-- FAN_ENABLE (R745). Setting FAN_CTL.ENABLE checks the fan settings and starts the fan. -/
  | fanEnable (req : Nat) (val : Word)
  /-- THERM_ENABLE (R745). Setting THERM_CTL.ENABLE checks and applies the thermal limits and the power limit. -/
  | thermEnable (req : Nat) (val : Word)
  /-- TACK_CHECK_COMPLETE (R212). A running tack check completes, setting ENABLE and TACK_STATUS to accepted or refused. -/
  | tackCheckComplete (block : Nat)
  /-- TACK_AUDIT (R230). TACK_AUDIT.GO starts an audit of every enabled instance. -/
  | tackAudit (req : Nat)
  /-- AUDIT_COMPLETE (R230). A running audit completes, setting FOUND, CODE, FIELD, INSTANCE and FOUND_COUNT. -/
  | auditComplete
  /-- DMA_SLOT_ACCESS (R482). In a DMA slot the DMA-in port serves one access per region: Carousel, remote and poison fills, then own transfers. -/
  | dmaSlotAccess (core : Nat) (host : List HostLine)
  /-- CMDMA_TAKE_EFFECT (R246). A CMDMA change takes effect at the first later CCLK whose stamp is a multiple of 16. -/
  | cmdmaTakeEffect (core : Nat)
  /-- PADDOCK_BANK_ACCESS (R268). A Paddock bank performs one request per NCLK: the lowest index arriving, or the oldest queued. -/
  | paddockBankAccess (slice bank : Nat)
  /-- TAG_RETRY (R281). After a CM slot's tag changes, the blocked access is attempted again, or the blocked context becomes ready. -/
  | tagRetry (core unit ctx : Nat) (meet : Bool)
  /-- TAG_WAIT_REJOIN (R282). Parked Paddock requests rejoin the pending queue in the NCLK after their slot's tag changes. -/
  | tagWaitRejoin (slice : Nat)
  /-- TAG_WAIT_RETURN (R283). A tagged request returned from a full tag-wait table is presented to the slice again 32 NCLK later. -/
  | tagWaitReturn (slice : Nat)
  /-- TAG_TIMEOUT (R284). A tagged access blocked past TAG_WAIT_LIMIT ends with class C fault TAG_TIMEOUT. -/
  | tagTimeout (core unit ctx : Nat)
  /-- CREDIT_TIMEOUT (R292). A ring reservation waiting past TAG_WAIT_LIMIT ends with CREDIT_TIMEOUT. -/
  | creditTimeout (core unit ctx : Nat)
  /-- RING_RESV_GRANT (R290). A waiting reservation is granted once credits allow, one per cycle, in arrival order. -/
  | ringResvGrant (ring : Nat)
  /-- ECC_WRITEBACK (R323). A corrected codeword is written back when its bank, queue or channel is free. -/
  | eccWriteback (mem who addr finder : Nat) (bad : Bool) (staged : Option (Nat × Nat × Nat × Nat))
  /-- ONCHIP_SCRUB (R337). An on-chip scrubber reads, corrects or marks its next line in a free bank cycle. -/
  | onchipScrub (unit : Nat) (found : List (Nat × Bool))
  /-- DRAM_PATROL (R340). A channel controller's patrol reads, corrects or marks its next line. -/
  | dramPatrol (ch : Nat) (found : List (Nat × Bool))
  /-- SCRUB_LATE (R339). An on-chip scrub pass not completed within twice its interval sets ONCHIP_LATE. -/
  | scrubLate (unit : Nat)
  /-- DRAM_PATROL_LATE (R341). A DRAM patrol pass not completed within twice its interval sets DRAM_LATE. -/
  | dramPatrolLate (ch : Nat)
  /-- ENGINE_ISSUE (R392). A 64-bit engine instruction captures its operands at issue and enters its engine queue. -/
  | engineIssue (i : Issue)
  /-- ADD (R361). rd := rs1 + rs2. -/
  | add (i : Issue)
  /-- SUB (R361). rd := rs1 - rs2. -/
  | sub (i : Issue)
  /-- AND (R361). rd := rs1 AND rs2. -/
  | and (i : Issue)
  /-- OR (R361). rd := rs1 OR rs2. -/
  | or (i : Issue)
  /-- XOR (R361). rd := rs1 XOR rs2. -/
  | xor (i : Issue)
  /-- ANDN (R361). rd := rs1 AND NOT rs2. -/
  | andn (i : Issue)
  /-- SLL (R361). Logical shift left. -/
  | sll (i : Issue)
  /-- SRL (R361). Logical shift right. -/
  | srl (i : Issue)
  /-- SRA (R361). Arithmetic shift right. -/
  | sra (i : Issue)
  /-- ROR (R361). Rotate right. -/
  | ror (i : Issue)
  /-- MUL (R361). Low 64 bits of the product. -/
  | mul (i : Issue)
  /-- MULHU (R361). High 64 bits of the unsigned product. -/
  | mulhu (i : Issue)
  /-- MULHS (R361). High 64 bits of the signed product. -/
  | mulhs (i : Issue)
  /-- DIVU (R362). Unsigned quotient; division by zero gives all-ones. -/
  | divu (i : Issue)
  /-- DIVS (R362). Signed quotient rounded toward zero. -/
  | divs (i : Issue)
  /-- REMU (R362). Unsigned remainder. -/
  | remu (i : Issue)
  /-- REMS (R362). Signed remainder. -/
  | rems (i : Issue)
  /-- MIN (R361). Signed minimum. -/
  | min (i : Issue)
  /-- MAX (R361). Signed maximum. -/
  | max (i : Issue)
  /-- MINU (R361). Unsigned minimum. -/
  | minu (i : Issue)
  /-- MAXU (R361). Unsigned maximum. -/
  | maxu (i : Issue)
  /-- CLZ (R361). Leading zeros of rs1. -/
  | clz (i : Issue)
  /-- CTZ (R361). Trailing zeros of rs1. -/
  | ctz (i : Issue)
  /-- POPC (R361). Set bits of rs1. -/
  | popc (i : Issue)
  /-- SEXTB (R361). Sign-extend rs1[7:0]. -/
  | sextb (i : Issue)
  /-- SEXTH (R361). Sign-extend rs1[15:0]. -/
  | sexth (i : Issue)
  /-- SEXTW (R361). Sign-extend rs1[31:0]. -/
  | sextw (i : Issue)
  /-- ZEXTW (R361). Zero-extend rs1[31:0]. -/
  | zextw (i : Issue)
  /-- ADDW (R361). 32-bit add, sign-extended. -/
  | addw (i : Issue)
  /-- SUBW (R361). 32-bit subtract, sign-extended. -/
  | subw (i : Issue)
  /-- SLT (R361). 1 if rs1 < rs2 signed, else 0. -/
  | slt (i : Issue)
  /-- SLTU (R361). 1 if rs1 < rs2 unsigned, else 0. -/
  | sltu (i : Issue)
  /-- ADDI (R363). rd := rs1 + IMM12. -/
  | addi (i : Issue)
  /-- ANDI (R363). rd := rs1 AND IMM12. -/
  | andi (i : Issue)
  /-- ORI (R363). rd := rs1 OR IMM12. -/
  | ori (i : Issue)
  /-- XORI (R363). rd := rs1 XOR IMM12. -/
  | xori (i : Issue)
  /-- SHI (R363). Shift or rotate by an immediate count. -/
  | shi (i : Issue)
  /-- MOVW (R364). Insert a 16-bit constant into rd. -/
  | movw (i : Issue)
  /-- CMP (R365). Compare two registers and combine the result into a predicate. -/
  | cmp (i : Issue)
  /-- CMPI (R365). Compare a register with IMM9 and combine the result into a predicate. -/
  | cmpi (i : Issue)
  /-- PLOG (R365). Predicate logic: PD := pa op pb. -/
  | plog (i : Issue)
  /-- PRD (R365). Read p0 to p7 into a g register. -/
  | prd (i : Issue)
  /-- PWR (R365). Write p1 to p7 from a g register. -/
  | pwr (i : Issue)
  /-- BR (R366). Branch by OFF16 if the predicate holds. -/
  | br (i : Issue)
  /-- BAL (R366). Branch and link. -/
  | bal (i : Issue)
  /-- JR (R367). Jump to rs1[13:0]. -/
  | jr (i : Issue)
  /-- JALR (R367). Jump to rs1[13:0] and link. -/
  | jalr (i : Issue)
  /-- LD (R368). Load SZ bytes; reads of the Paddock, DRAM or host window deschedule the context. -/
  | ld (i : Issue)
  /-- ST (R368). Store the low SZ bytes of a register. -/
  | st (i : Issue)
  /-- LDX (R369). Indexed load. -/
  | ldx (i : Issue)
  /-- STX (R369). Indexed store. -/
  | stx (i : Issue)
  /-- AADD_W (R370). INT32 atomic add without return. -/
  | aaddW (i : Issue)
  /-- AADD_W_R (R370). INT32 atomic add returning the old value. -/
  | aaddWR (i : Issue)
  /-- AADD_D (R370). INT64 atomic add without return. -/
  | aaddD (i : Issue)
  /-- AADD_D_R (R370). INT64 atomic add returning the old value. -/
  | aaddDR (i : Issue)
  /-- AFADD_S (R370). FP32 atomic add at the Paddock without return. -/
  | afaddS (i : Issue)
  /-- AFADD_S_R (R370). FP32 atomic add at the Paddock returning the old value. -/
  | afaddSR (i : Issue)
  /-- AFXADD_D (R370). FX96 add of an INT64 operand. -/
  | afxaddD (i : Issue)
  /-- AFXADD_S (R370). FX96 add of an FP32 operand. -/
  | afxaddS (i : Issue)
  /-- ASWAP_W (R370). 32-bit atomic swap. -/
  | aswapW (i : Issue)
  /-- ASWAP_D (R370). 64-bit atomic swap. -/
  | aswapD (i : Issue)
  /-- VGET (R371). g := lane of a v register, with its poison. -/
  | vget (i : Issue)
  /-- VPUT (R371). Lane of a v register := g, with its poison. -/
  | vput (i : Issue)
  /-- PTST (R371). pd := poison of a g register, without consuming it. -/
  | ptst (i : Issue)
  /-- VPMASK (R371). g := the 32 lane poison bits of a v register. -/
  | vpmask (i : Issue)
  /-- CRR (R372). Read a control register. -/
  | crr (i : Issue)
  /-- CRW (R350). Write a control register; RO and Reserved targets fault. -/
  | crw (i : Issue)
  /-- YIELD (R384). Park the context at a yield point if a preemption is requested. -/
  | yield (i : Issue)
  /-- CTXGO (R373). Start another context at an entry word with an argument. -/
  | ctxgo (i : Issue)
  /-- CTXEND (R374). End the issuing context; its queued engine instructions continue. -/
  | ctxend (i : Issue)
  /-- DRAIN (R375). Deschedule the context until the selected queues and writes have completed. -/
  | drain (i : Issue)
  /-- ABORT (R372). End the task with class C fault HARNESS_ABORT carrying the code. -/
  | abort (i : Issue)
  /-- TLD (R376). Tagged load: consume or peek. -/
  | tld (i : Issue)
  /-- TST (R376). Tagged store: fill. -/
  | tst (i : Issue)
  /-- TSET (R376). Set a slot's tag FULL. -/
  | tset (i : Issue)
  /-- TCLR (R376). Clear a slot's tag to EMPTY. -/
  | tclr (i : Issue)
  /-- TPROBE (R376). Read a slot's tag into rd. -/
  | tprobe (i : Issue)
  /-- RING_RESV (R289). Reserve n slots of a ring as credits. -/
  | ringResv (i : Issue)
  /-- RING_FILL (R294). Fill a credited ring slot, locally or in another core's or chip's memory. -/
  | ringFill (i : Issue)
  /-- RING_PUSH (R289). Reserve one slot and fill it. -/
  | ringPush (i : Issue)
  /-- RING_POP (R291). Consume the slot at HEAD and advance HEAD. -/
  | ringPop (i : Issue)
  /-- RING_PEEK (R289). Peek the slot at HEAD + j. -/
  | ringPeek (i : Issue)
  /-- RING_STATE (R289). Return RESV and HEAD. -/
  | ringState (i : Issue)
  /-- HRD (R379). Read a hitch. -/
  | hrd (i : Issue)
  /-- HWR (R380). Write a hitch once earlier writes of the context are visible. -/
  | hwr (i : Issue)
  /-- HADD (R379). Add to a hitch and return the old value. -/
  | hadd (i : Issue)
  /-- HADDN (R379). Add to a hitch without return. -/
  | haddn (i : Issue)
  /-- HWAIT_GE (R456). Wait until the hitch is at least rs2 unsigned. -/
  | hwaitGe (i : Issue)
  /-- HWAIT_EQ (R456). Wait until the hitch equals rs2. -/
  | hwaitEq (i : Issue)
  /-- HWAIT_NE (R456). Wait until the hitch differs from rs2. -/
  | hwaitNe (i : Issue)
  /-- HMON (R458). Read a hitch and arm a monitor on it. -/
  | hmon (i : Issue)
  /-- HMWAIT (R459). Wait until a monitored hitch fires. -/
  | hmwait (i : Issue)
  /-- HMCLR (R459). Disarm every monitor of the context. -/
  | hmclr (i : Issue)
  /-- HITCH_RELEASE_SEEN (R456). A release-bus message reaches a core and satisfies waits, fires monitors, or faults waiters with the ABORTED marker. -/
  | hitchReleaseSeen (core : Nat)
  /-- CONTEXT_WAKE (R346). A descheduled context's condition ends, such as returned read data, and it becomes ready in the next CCLK. -/
  | contextWake (core ctx : Nat) (data : Word) (poison : Bool)
  /-- MX_LDA (R401). Copy CM lines into OB-A. -/
  | mxLda (core : Nat) (meet : Bool)
  /-- MX_LDB (R401). Copy CM lines into OB-B. -/
  | mxLdb (core : Nat) (meet : Bool)
  /-- MX_LDC (R401). Copy CM lines into ACC. -/
  | mxLdc (core : Nat) (meet : Bool)
  /-- MX_MMA (R403). Multiply-accumulate a tile in fixed chunk order. -/
  | mxMma (core : Nat)
  /-- MX_DRAIN (R407). Convert tile rows and write them to CM. -/
  | mxDrain (core : Nat) (meet : Bool)
  /-- MX_ZERO (R408). Zero accumulator tiles. -/
  | mxZero (core : Nat)
  /-- VADD (R410). Lane add. -/
  | vadd (core : Nat)
  /-- VSUB (R410). Lane subtract. -/
  | vsub (core : Nat)
  /-- VMUL (R410). Lane multiply. -/
  | vmul (core : Nat)
  /-- VMIN (R411). Lane minimum. -/
  | vmin (core : Nat)
  /-- VMAX (R411). Lane maximum. -/
  | vmax (core : Nat)
  /-- VAND (R410). Lane bitwise AND. -/
  | vand (core : Nat)
  /-- VOR (R410). Lane bitwise OR. -/
  | vor (core : Nat)
  /-- VXOR (R410). Lane bitwise XOR. -/
  | vxor (core : Nat)
  /-- VSLL (R410). Lane shift left. -/
  | vsll (core : Nat)
  /-- VSRL (R410). Lane logical shift right. -/
  | vsrl (core : Nat)
  /-- VSRA (R410). Lane arithmetic shift right. -/
  | vsra (core : Nat)
  /-- VABS (R411). Lane absolute value. -/
  | vabs (core : Nat)
  /-- VNEG (R411). Lane negate. -/
  | vneg (core : Nat)
  /-- VMOV (R410). Copy a v register. -/
  | vmov (core : Nat)
  /-- VSPLAT (R410). Broadcast g[GA][31:0] to every lane. -/
  | vsplat (core : Nat)
  /-- VIOTA (R410). Lane n := n + immediate. -/
  | viota (core : Nat)
  /-- VCMPEQ (R410). Lane compare equal. -/
  | vcmpeq (core : Nat)
  /-- VCMPLT (R410). Lane compare less than. -/
  | vcmplt (core : Nat)
  /-- VCMPLE (R410). Lane compare less or equal. -/
  | vcmple (core : Nat)
  /-- VSEL (R410). Lane select by mask. -/
  | vsel (core : Nat)
  /-- VFMA (R411). Fused a × b + c. -/
  | vfma (core : Nat)
  /-- VFMS (R411). Fused a × b - c. -/
  | vfms (core : Nat)
  /-- VFNMA (R411). Fused c - a × b. -/
  | vfnma (core : Nat)
  /-- VRSUM (R412). Segment sum by the fixed tree. -/
  | vrsum (core : Nat)
  /-- VRMAX (R412). Segment maximum by the fixed tree. -/
  | vrmax (core : Nat)
  /-- VRMIN (R412). Segment minimum by the fixed tree. -/
  | vrmin (core : Nat)
  /-- VEXP2 (R413). Lane 2^x. -/
  | vexp2 (core : Nat)
  /-- VLOG2 (R413). Lane log2. -/
  | vlog2 (core : Nat)
  /-- VRCP (R413). Lane reciprocal. -/
  | vrcp (core : Nat)
  /-- VRSQRT (R413). Lane reciprocal square root. -/
  | vrsqrt (core : Nat)
  /-- VSQRT (R413). Lane square root. -/
  | vsqrt (core : Nat)
  /-- VLD (R414). Untagged load of a line group, converted to lanes. -/
  | vld (core : Nat) (meet : Bool)
  /-- VLD_C (R414). Consuming load. -/
  | vldC (core : Nat) (meet : Bool)
  /-- VLD_P (R414). Peeking load. -/
  | vldP (core : Nat) (meet : Bool)
  /-- VST (R415). Untagged store of a whole line. -/
  | vst (core : Nat) (meet : Bool)
  /-- VST_F (R415). Filling store of a whole line. -/
  | vstF (core : Nat) (meet : Bool)
  /-- VCVT (R416). Convert lanes to type T. -/
  | vcvt (core : Nat)
  /-- VMXQ (R430). Quantise FP32 lanes into an MX format with block scales. -/
  | vmxq (core : Nat)
  /-- VSLIDE (R416). Byte slide of a v register. -/
  | vslide (core : Nat)
  /-- VBEXP (R416). Expand the bits of g into lane masks. -/
  | vbexp (core : Nat)
  /-- VPSCORE (R599). Sum the lanes and post the mass to the KVU for the referenced page. -/
  | vpscore (core : Nat)
  /-- VAADD_W (R417). INT32 line atomic add to the P-region. -/
  | vaaddW (core : Nat) (meet : Bool)
  /-- VAADD_W_R (R417). INT32 line atomic add with return. -/
  | vaaddWR (core : Nat) (meet : Bool)
  /-- VAADD_D (R417). INT64 line atomic add. -/
  | vaaddD (core : Nat) (meet : Bool)
  /-- VAADD_D_R (R417). INT64 line atomic add with return. -/
  | vaaddDR (core : Nat) (meet : Bool)
  /-- VFXADD (R417). FX96 line add. -/
  | vfxadd (core : Nat) (meet : Bool)
  /-- VFXADD_R (R417). FX96 line add with return. -/
  | vfxaddR (core : Nat) (meet : Bool)
  /-- CAROUSEL_STEP (R421). Send W-region lines to the successor team core over the core ring. -/
  | carouselStep (core : Nat)
  /-- BAR_ARRIVE (R464). Count an arrival and release the barrier when the count is met. -/
  | barArrive (i : Issue) (eng : Nat)
  /-- BAR_WAIT (R466). Wait for the release of the joined generation. -/
  | barWait (i : Issue) (eng : Nat)
  /-- BAR_SYNC (R466). Arrive and then wait. -/
  | barSync (i : Issue) (eng : Nat)
  /-- BARRIER_WAKE (R466). A waiter sees a GEN differing from its joined record and completes. -/
  | barrierWake (core unit ctx : Nat)
  /-- STREAM_GO (R484). Hand a block-list stream to a stream queue. -/
  | streamGo (core : Nat)
  /-- STREAM_CANCEL (R499). End the task's streams and walks on a queue and poison their unfilled credits. -/
  | streamCancel (core : Nat)
  /-- MSET (R297). Constant fill of lines. -/
  | mset (core : Nat)
  /-- MCOPY (R297). Copy of lines. -/
  | mcopy (core : Nat)
  /-- KV_WALK (R591). Walk a sequence's pages into ring slots with headers. -/
  | kvWalk (core q : Nat)
  /-- KV_APPEND (R585). Append tokens to a sequence, allocating pages as needed. -/
  | kvAppend (core : Nat) (src pos : List HostByte)
  /-- STREAM_RUN (R495). The next stream of a queue becomes running when the previous completes or overlap allows. -/
  | streamRun (core q : Nat)
  /-- BLOCK_LIST_ENTRY_READ (R494). A stream queue reads and checks its next block-list entry. -/
  | blockListEntryRead (core q : Nat)
  /-- TRANSFER_ISSUE (R481). The DMA engine issues one transfer per CCLK by its fixed choice order. -/
  | transferIssue (core : Nat)
  /-- DMA_TRANSFER_COMPLETE (R496). A transfer's last destination write is performed, completing the stream when it was the last. -/
  | dmaTransferComplete (core id : Nat) (host : List HostLine)
  /-- PREFETCH_COMMIT (R506). A prefetched transfer's reservation is granted and its staged lines are filled to their slots. -/
  | prefetchCommit (core q : Nat)
  /-- CP_FETCH (R521). The CP reads pending SQ records by priority and round-robin, discarding orphans. -/
  | cpFetch (host : List Line64)
  /-- COMMAND_ACCEPT (R526). A whole well-formed command is accepted with its CQ place reserved, checking SEQ for duplicates. -/
  | commandAccept (sq : Nat)
  /-- SQ_DOORBELL (R519). A write to SQ_TAIL sets TAIL and records the requester. -/
  | sqDoorbell (req n : Nat) (val : Word)
  /-- CQ_HEAD_WRITE (R535). A write to CQ_HEAD frees completion places. -/
  | cqHeadWrite (req n : Nat) (val : Word)
  /-- SQ_FLUSH (R533). SQ_CTL.FLUSH discards pending records and posts FLUSH_DONE. -/
  | sqFlush (req n : Nat) (val : Word) (host : List Line64)
  /-- CQ_IRQ_TIMER (R540). The coalescing time after the first unsignalled record expires and the MSI-X is sent. -/
  | cqIrqTimer (cq : Nat)
  /-- NOP (R528). A command that does nothing and completes. -/
  | nop (sq : Nat)
  /-- MEM_FILL (R530). Fill a range with a 64-bit pattern. -/
  | memFill (sq : Nat)
  /-- MEM_COPY (R530). Copy a range. -/
  | memCopy (sq : Nat) (host : List HostLine)
  /-- HRN_LOAD (R566). Copy a harness into a table entry and check it. -/
  | hrnLoad (sq : Nat) (host : List Byte)
  /-- HRN_UNLOAD (R567). Disable and unload a harness-table entry. -/
  | hrnUnload (sq : Nat)
  /-- TASK_RUN (R552). Accept a task, assign its identifier and reserve its result slot. -/
  | taskRun (sq : Nat)
  /-- TASK_START (R553). When the team cores are free, the CP loads the task and starts ctx0. -/
  | taskStart (sq : Nat)
  /-- TASK_END (R556). Every core part and stream has ended, so the result slot and completion are posted. -/
  | taskEnd (task : Nat) (host : List Byte) (ep : Bool)
  /-- TASK_PREEMPT (R559). Request a preemption of a running task. -/
  | taskPreempt (sq : Nat)
  /-- TASK_SAVE (R559). Once every context has parked and the engines are idle, the CP saves the task and frees its cores. -/
  | taskSave (task : Nat)
  /-- TASK_RESUME (R562). Restore a saved task on its team and continue it. -/
  | taskResume (sq : Nat)
  /-- TASK_KILL (R563). Abort a running, parking or saved task with status KILLED. -/
  | taskKill (sq : Nat)
  /-- TASK_TIMEOUT (R558). The task watchdog expires and the task is aborted with TASK_TIMEOUT. -/
  | taskTimeout (task : Nat)
  /-- KV_SEQ_OPEN (R581). Open a sequence-table entry. -/
  | kvSeqOpen (sq : Nat)
  /-- KV_SEQ_CLOSE (R582). Close a sequence, once holds and commits are done, and free its pages. -/
  | kvSeqClose (sq : Nat)
  /-- KV_SEQ_SET (R579). Replace a sequence's BUDGET, ANCHOR and RECENT. -/
  | kvSeqSet (sq : Nat)
  /-- KV_COMMIT (R602). Commit the listed sequences in order, skipping invalid ones. -/
  | kvCommit (sq : Nat) (host : List Byte)
  /-- KV_COMMIT_PROCEED (R604). With HOLDS at 0, commit a sequence: fold scores, evict and compact. -/
  | kvCommitProceed (sq : Nat)
  /-- KV_BATCH (R610). Write the indices of sequences in the selected buckets. -/
  | kvBatch (sq : Nat)
  /-- KV_DROP (R608). Mark a position for eviction at the next commit. -/
  | kvDrop (sq : Nat)
  /-- KV_SEQ_READ (R579). Copy entry bytes 0x00 to 0x2F to the result slot. -/
  | kvSeqRead (sq : Nat)
  /-- BRIDLE_GRANT (R627). An arbiter grants one burst per NCLK: floored requests first, then by class, priority and round-robin. -/
  | bridleGrant (arb occ : Nat) (room supply : Bool) (reqs : List BReq)
  /-- BRIDLE_HOLD_LIMIT (R620). A burst held for 4,096 NCLK is ended with its remaining beats poisoned. -/
  | bridleHoldLimit (arb : Nat)
  /-- LD_QOS_INTERVAL (R633). A 10,000 NCLK LD QoS interval ends and the per-LD counts restart. -/
  | ldQosInterval
  /-- BRIDLE_COUNTER_CLEAR (R638). BRIDLE_CNT_CTL.CLEAR zeroes every Bridle counter in one NCLK. -/
  | bridleCounterClear (req : Nat) (val : Word)
  /-- DATA_FLIT (R645). A received DATA flit is accepted in FSEQ order, or discarded with or without a NAK. -/
  | dataFlit (port : Nat) (crcOk : Bool) (f : Flit)
  /-- IDLE_FLIT (R643). A received IDLE flit carries acknowledgement and credits only. -/
  | idleFlit (port : Nat) (crcOk : Bool) (f : Flit)
  /-- NAK (R646). A received NAK replays every DATA flit after its ACK. -/
  | nak (port : Nat) (crcOk : Bool) (f : Flit)
  /-- REPLAY_TIMEOUT (R646). An unacknowledged flit after 2 µs triggers a replay, and a retrain after 4 replays. -/
  | replayTimeout (port : Nat)
  /-- INIT (R648). A received INIT is checked and brings the port UP or holds it down. -/
  | init (port chip topo : Nat) (dateline fresh : Bool) (rev ack : Nat) (free : List Nat)
  /-- INIT_RESEND (R648). INIT is resent every 1 µs until a valid INIT has been received. -/
  | initResend (port : Nat)
  /-- REIN_TRAIN_TIMEOUT (R641). A port not at L0 within 100 ms of starting training begins training again. -/
  | reinTrainTimeout (port : Nat)
  /-- CRED_SYNC (R671). A received CRED_SYNC resets ORD credits and is answered with SYNC_ACK. -/
  | credSync (port fseq free0 free1 : Nat) (epoch : Bool)
  /-- SYNC_ACK (R670). A received SYNC_ACK ends a credit rebuild. -/
  | syncAck (port : Nat) (epoch : Bool)
  /-- CRED_SYNC_RESEND (R670). CRED_SYNC is repeated every 10 µs until SYNC_ACK arrives. -/
  | credSyncResend (port : Nat)
  /-- DOWN (R672). A received DOWN message takes the port down with cause peer DOWN. -/
  | down (port : Nat)
  /-- CRED_REBUILD (R670). REIN_PORT_CTL.CRED_REBUILD starts an ORD credit rebuild. -/
  | credRebuild (req n : Nat) (val : Word)
  /-- RETRAIN (R668). A PHY recovery, replay limit or RETRAIN write starts a retrain that keeps the link-layer state. -/
  | retrain (port : Nat) (write : Option (Nat × Word))
  /-- REIN_DOWN_LIMIT (R668). A retrain not completed within DOWN_LIMIT goes to link-down with cause 6. -/
  | reinDownLimit (port : Nat)
  /-- REIN_LINK_DOWN (R672). The link-down actions discard replay state, fault outstanding requests and release remote credits. -/
  | reinLinkDown (port cause : Nat)
  /-- PACKET_FORWARD (R657). A packet for another chip is forwarded by the route table, or discarded as misrouted. -/
  | packetForward (port : Nat)
  /-- RFILL (R663). A remote ring fill is performed at the destination and answered with WACK. -/
  | rfill (port : Nat)
  /-- REMOTE_HWR (R665). A remote hitch write is performed after the earlier fills of its source unit. -/
  | remoteHwr (port : Nat)
  /-- REMOTE_HADD (R665). A remote hitch add is performed in ORD order. -/
  | remoteHadd (port : Nat)
  /-- RREL (R666). A received RREL removes waiting reservations of its source and poisons its unfilled slots. -/
  | rrel (port : Nat)
  /-- RD (R661). A remote read of DRAM or the Paddock at the destination, answered with RDATA. -/
  | rd (port : Nat)
  /-- RRESV (R662). A remote reservation request placed in the remote reservation table. -/
  | rresv (port : Nat)
  /-- RDATA (R653). Read data returned to the requesting unit. -/
  | rdata (port : Nat)
  /-- RGNT (R662). A reservation grant, or BUSY, returned to the requester. -/
  | rgnt (port : Nat)
  /-- WACK (R663). A fill acknowledgement that performs the remote write at the source. -/
  | wack (port : Nat)
  /-- RRESV_RETRY (R653). A BUSY reservation is sent again after 1 µs. -/
  | rresvRetry (unit tag : Nat)
  /-- REIN_TIMEOUT (R664). A tagged packet unanswered past REQ_LIMIT raises REIN_TIMEOUT. -/
  | reinTimeout (unit tag : Nat)
  /-- COMPUTE_FENCE (R23). Compute is cut off: dispatch stops, isolation closes, tasks are aborted and the fence is recorded. -/
  | computeFence (cause : Nat)
  /-- TASK_ABORT (R688). The abort sequencer quiesces a task and releases its bursts, credits and hitches in order. -/
  | taskAbort (task : Nat)
  /-- CLASS_A_FAULT (R676). Viral, a fatal event and a log entry, then an internal PERST#-scope reset. -/
  | classAFault (sf : Bool) (log0 log1 : Word)
  /-- STALL_FATAL (R677). A class B fault aborts every task of the stall and resets it. -/
  | stallFatal (st mem : Nat)
  /-- CP_RESET (R693). Ostler resets the CP on a trap, a memory error, missed liveness or an image reload. -/
  | cpReset (reason : Nat)
  /-- CP_LIVENESS_TIMEOUT (R692). The CTRL image has not reported liveness within RAS_CP_WDT.LIMIT. -/
  | cpLivenessTimeout
  /-- OSTLER_SELF_RESET (R695). The Ostler hardware watchdog expires after 500 ms without a kick. -/
  | ostlerSelfReset
  /-- CORE_RESET (R697). The CP resets a core that missed its quiesce limit or had a memory error. -/
  | coreReset (core reason : Nat)
  /-- PWM_PERIOD (R712). Each switching period, a phase computes its on-time with skipping, carry and clamping. -/
  | pwmPeriod (phase : Nat) (demand : Int)
  /-- OVERCURRENT_TRIP (R715). The cycle-by-cycle limit turns a leg off for the rest of the period. -/
  | overcurrentTrip (phase : Nat) (low : Bool)
  /-- HARD_SHORT (R716). The hard-short comparator turns a leg off within 15 ns. -/
  | hardShort (phase : Nat) (low : Bool)
  /-- POWER_GOOD_FAULT (R720). VDD_CORE stays outside the window for 10 µs or over 0.90 V for 1 µs, deasserting power-good. -/
  | powerGoodFault (high : Bool) (vout : Nat)
  /-- POWER_GOOD_RETRY (R720). 10 ms after a power-good fault, one ramp to the OP1 set-point. -/
  | powerGoodRetry
  /-- REMOTE_SENSE_LOST (R721). Bias probe or disagreement detects an open sense and the loop moves to local sense. -/
  | remoteSenseLost (probe : Bool) (remote loc : Nat)
  /-- ADC_FROZEN (R722). A stalled ADC ramps the duty to zero and fences compute. -/
  | adcFrozen (counter : Bool)
  /-- OP_CHANGE (R725). The VR controller changes OP, ordering voltage and CCLK as R39 requires. -/
  | opChange
  /-- ADAPT_TICK (R726). Every ms Ostler moves ADAPT by 5 mV according to core slack. -/
  | adaptTick (slack : Nat)
  /-- DROOP_ALARM (R727). A CPM reporting zero slack resets ADAPT to 0 within 2 µs. -/
  | droopAlarm
  /-- CLOCK_REF_CHECK (R729). Each 10 ms window checks REFCLK against XO and witness, warning, switching PLLs or fencing. -/
  | clockRefCheck (refXo refW xoW : Int)
  /-- REFCLK_LOSS (R730). REFCLK absent for 10 µs switches its PLLs to the XO at once. -/
  | refclkLoss
  /-- VREF_CHECK (R731). Every 1 ms the bandgaps are compared, adding a guard or fencing. -/
  | vrefCheck (diff : Nat)
  /-- THERMAL_TICK (R733). A sensor conversion updates the junction temperature, the thermal cap, warnings and the fence. -/
  | thermalTick (sensor : Nat) (temp : Int)
  /-- TEMP_SENSOR_FROZEN (R735). A sensor not converting for 10 ms is declared frozen, capping the OP and driving the fan at 100 %. -/
  | tempSensorFrozen (sensor : Nat) (counter : Bool)
  /-- THERMAL_TRIP (R736). A sensor at 120 °C removes VDD_CORE and the rails and takes the links down. -/
  | thermalTrip (sensor : Nat)
  /-- POWER_LIMIT_TICK (R737). Every 10 ms the average card power moves the power cap. -/
  | powerLimitTick (card core iout vout : Nat)
  /-- FAN_START (R739). The fan is driven at 100 % for 2 s. -/
  | fanStart
  /-- FAN_START_CHECK (R739). At the end of a start the speed is checked; a failed start retries after 5 s. -/
  | fanStartCheck (rpm : Nat)
  /-- FAN_CONTROL_TICK (R738). Once per second Ostler sets the fan duty. -/
  | fanControlTick (duty rpm : Nat)
  /-- TACH_LOST (R741). No tach edge for 1 s drives the fan at 100 % open-loop. -/
  | tachLost
  /-- SET_ENDPOINT_ID (R748). An MCTP control message that sets the endpoint's EID. -/
  | setEndpointId (ep eid : Nat)
  /-- GET_ENDPOINT_ID (R749). An MCTP control message that returns the EID. -/
  | getEndpointId (ep : Nat)
  /-- GET_ENDPOINT_UUID (R749). An MCTP control message that returns the UUID. -/
  | getEndpointUuid (ep : Nat)
  /-- GET_MCTP_VERSION_SUPPORT (R749). An MCTP control message that returns the supported versions. -/
  | getMctpVersionSupport (ep typ : Nat)
  /-- GET_MESSAGE_TYPE_SUPPORT (R749). An MCTP control message that reports the supported message types. -/
  | getMessageTypeSupport (ep : Nat)
  /-- GET_VENDOR_DEFINED_MESSAGE_SUPPORT (R749). An MCTP control message that reports vendor-defined support. -/
  | getVendorDefinedMessageSupport (ep : Nat)
  /-- GET_TID (R750). PLDM base command. -/
  | getTid (ep : Nat)
  /-- SET_TID (R750). PLDM base command. -/
  | setTid (ep tid : Nat)
  /-- GET_PLDM_VERSION (R750). PLDM base command. -/
  | getPldmVersion (ep typ : Nat)
  /-- GET_PLDM_TYPES (R750). PLDM base command. -/
  | getPldmTypes (ep : Nat)
  /-- GET_PLDM_COMMANDS (R750). PLDM base command. -/
  | getPldmCommands (ep typ : Nat)
  /-- GET_PDR_REPOSITORY_INFO (R750). PLDM monitoring command. -/
  | getPdrRepositoryInfo (ep : Nat)
  /-- GET_PDR (R750). PLDM monitoring command. -/
  | getPdr (ep n : Nat)
  /-- GET_SENSOR_READING (R757). Return a telemetry sensor reading. -/
  | getSensorReading (ep id : Nat)
  /-- GET_STATE_SENSOR_READINGS (R757). Return a state sensor reading. -/
  | getStateSensorReadings (ep id : Nat)
  /-- SET_EVENT_RECEIVER (R758). Set the PLDM event receiver. -/
  | setEventReceiver (ep : Nat) (on : Bool)
  /-- GET_EVENT_RECEIVER (R750). Return the event receiver. -/
  | getEventReceiver (ep : Nat)
  /-- PLATFORM_EVENT_MESSAGE (R758). Send an event on a threshold crossing or state change, resending every 1 s up to 3 times. -/
  | platformEventMessage (id : Nat) (ack : Bool)
  /-- QUERY_DEVICE_IDENTIFIERS (R750). PLDM firmware update command. -/
  | queryDeviceIdentifiers (ep : Nat)
  /-- GET_FIRMWARE_PARAMETERS (R750). PLDM firmware update command. -/
  | getFirmwareParameters (ep : Nat)
  /-- REQUEST_UPDATE (R751). Enter update mode if the message carries management authority. -/
  | requestUpdate (ep : Nat) (owner : Bool)
  /-- PASS_COMPONENT_TABLE (R750). PLDM firmware update command. -/
  | passComponentTable (ep : Nat) (comps : List Nat)
  /-- UPDATE_COMPONENT (R752). Start transfer of a component to the inactive pair. -/
  | updateComponent (ep comp : Nat)
  /-- REQUEST_FIRMWARE_DATA (R752). A firmware data transfer of up to 4 KiB written into the inactive slot. -/
  | requestFirmwareData (off len : Nat)
  /-- TRANSFER_COMPLETE (R750). The device reports the end of a component transfer. -/
  | transferComplete (img : Image)
  /-- VERIFY_COMPLETE (R752). Verification of the written images completes and its result is reported. -/
  | verifyComplete
  /-- APPLY_COMPLETE (R750). The device reports that the component has been applied. -/
  | applyComplete
  /-- ACTIVATE_FIRMWARE (R63). Set the boot pair record to the updated pair. -/
  | activateFirmware (ep : Nat)
  /-- GET_STATUS (R750). PLDM firmware update status. -/
  | getStatus (ep : Nat)
  /-- CANCEL_UPDATE_COMPONENT (R750). Cancel a component transfer. -/
  | cancelUpdateComponent (ep : Nat)
  /-- CANCEL_UPDATE (R753). Abandon the update without changing the boot pair. -/
  | cancelUpdate (ep : Nat)
  /-- UPDATE_TIMEOUT (R753). 60 s without an agent request abandons the update. -/
  | updateTimeout
  /-- IDENTIFY (R756). FM API information command. -/
  | identify (agent : Nat)
  /-- GET_LD_INFO (R756). FM API information command. -/
  | getLdInfo (agent : Nat)
  /-- GET_MULTI_HEADED_INFO (R756). FM API information command in 2 × x8 mode. -/
  | getMultiHeadedInfo (agent : Nat)
  /-- GET_LD_ALLOCATIONS (R756). FM API LD management command. -/
  | getLdAllocations (agent : Nat)
  /-- SET_LD_ALLOCATIONS (R104). Reassign capacity per LD, taking effect at the LD's next reset. -/
  | setLdAllocations (agent : Nat) (lds : List Nat) (alloc : List (Nat × Nat × Nat))
  /-- GET_QOS_CONTROL (R756). FM API QoS command. -/
  | getQosControl (agent : Nat)
  /-- SET_QOS_CONTROL (R756). FM API QoS command. -/
  | setQosControl (agent : Nat) (val : Word)
  /-- GET_QOS_STATUS (R756). FM API QoS command. -/
  | getQosStatus (agent : Nat)
  /-- GET_QOS_ALLOCATED_BW (R756). FM API QoS command. -/
  | getQosAllocatedBw (agent : Nat)
  /-- SET_QOS_ALLOCATED_BW (R633). Set the LD allocation fractions that the Bridle applies. -/
  | setQosAllocatedBw (agent : Nat) (fracs : List (Nat × Nat))
  /-- GET_QOS_BW_LIMIT (R756). FM API QoS command. -/
  | getQosBwLimit (agent : Nat)
  /-- SET_QOS_BW_LIMIT (R633). Set the LD limit fractions that the Bridle applies. -/
  | setQosBwLimit (agent : Nat) (fracs : List (Nat × Nat))
  /-- GET_DCD_INFO (R756). FM API dynamic capacity command. -/
  | getDcdInfo (agent : Nat)
  /-- GET_HOST_DC_REGION_CONFIGURATION (R756). FM API dynamic capacity command. -/
  | getHostDcRegionConfiguration (agent req : Nat)
  /-- GET_DC_REGION_EXTENT_LISTS (R756). FM API dynamic capacity command. -/
  | getDcRegionExtentLists (agent req : Nat)
  /-- TRACE_START (R763). TRACE_CTL.RUN starts the stall's trace if the ring is valid. -/
  | traceStart (req st : Nat) (val : Word)
  /-- DBG_SESSION_OPEN (R764). DBG_SESSION.OPEN opens or closes an Owner debug session for a stall. -/
  | dbgSessionOpen (req : Nat) (val : Word)
  /-- DBG_READ (R767). A debug read of a stall's memory, returning data and poison. -/
  | dbgRead (req : Nat) (sz : Option Nat)
  /-- DBG_WRITE (R767). A debug write of SZ bytes to a stall's memory. -/
  | dbgWrite (req : Nat) (sz : Option Nat)
  /-- DBG_TAG_READ (R765). A debug read of a slot's tag. -/
  | dbgTagRead (req : Nat) (sz : Option Nat)
  /-- DBG_ACCESS_TIMEOUT (R767). A debug access still incomplete after 1 ms ends with TIMEOUT. -/
  | dbgAccessTimeout
  /-- DBG_HALT (R769). Halt the selected cores at an issue boundary. -/
  | dbgHalt (req : Option Nat) (mask : Word)
  /-- DBG_STEP (R769). A halted core issues exactly one instruction. -/
  | dbgStep (req : Option Nat) (mask : Word)
  /-- HITCH_FORCE (R478). An Owner forced write of a hitch value, placed on the release bus and logged. -/
  | hitchForce (req : Nat) (val : Word)
  /-- HITCH_TIMEOUT (R460). A hitch, monitor or barrier wait that outlasts HITCH_WAIT_LIMIT ends with class C fault HITCH_TIMEOUT. -/
  | hitchTimeout (core unit ctx : Nat)
  /-- IMAGE_REPORTS_RUNNING (R51). The MGMT or CTRL image reports itself running, setting MGMT_UP or CTRL_UP, and after a CP reset the CTRL image posts the CP_RESET completions and fetch resumes. -/
  | imageReportsRunning (img : ImageKind)
  /-- HEAD_LINK_L0 (R131). A host head's link reaches L0, negotiating CXL or PCIe-only operation, after which it completes configuration requests and reports Memory_Active within 100 ms. -/
  | headLinkL0 (head rate width : Nat) (cxl mld flit256 : Bool)
  /-- REIN_PORT_L0 (R648). A Rein port's PHY reaches L0 at x8 and 64 GT/s and starts sending INIT. -/
  | reinPortL0 (port : Nat)
  /-- VDD_SOC_POWER_GOOD_LOSS (R809). VDD_SOC falling below 0.68 V for 10 µs deasserts its power-good, which zeroizes keys and removes VDD_CORE by a controlled ramp as a power loss. -/
  | vddSocPowerGoodLoss
  /-- POWER_GOOD_ASSERT (R720). VDD_CORE enters ±50 mV of the effective set-point after a ramp, asserting power-good, which enables Trot or lifts a CORE_POWER_GOOD fence. -/
  | powerGoodAssert (vout : Nat)
  /-- OP_CHANGE_COMPLETE (R725). An OP change finishes its voltage slew and CCLK change, updating OP_NOW and taking any request that arrived meanwhile. -/
  | opChangeComplete
  /-- INTERNAL_RESET_END (R676). The internal PERST#-scope reset of a class A fault ends within 10 ms, and the device starts again as after PERST# deasserts, with the R42 deadlines running from then. -/
  | internalResetEnd
  /-- HITCH_BANK_ACCESS (R448). A hitch-store bank performs one queued operation per NCLK in its fixed order, and each quadrant hitch port delivers queued core requests round-robin. -/
  | hitchBankAccess (bank : Nat)
deriving DecidableEq, Repr

end Sys2Proof
end

