-- ==== Sys2Proof/Decode.lean ====
section
/-! DEFINITION. The decoder the host asks. The block fetches no instruction: its commands are events with operands, and
no row of spec/opcode_table.json gives bits. -/

namespace Sys2Proof

/-- The command that a word spells by the table's bits: no row gives any, so none. -/
def decodeTableWord (_nbits _w : Nat) : Option Instr := none

end Sys2Proof
end

