-- ==== Sys2Proof/Machine/Numbers.lean ====
section
/-! DEFINITION. Exact numbers, the arithmetic formats and their conversions (chapter 12), and FP32 arithmetic with
one rounding. Every value is held exactly; nothing is approximated. -/

namespace Sys2Proof.Machine

open Sys2Proof

/-- An exact value: NaN, an infinity, or (−1)^neg × m × 2^e. -/
inductive Num where
  | nan
  | inf (neg : Bool)
  | fin (neg : Bool) (m : Nat) (e : Int)
deriving DecidableEq, Repr

/-- 2 to a non-negative integer exponent. -/
def pow2 (e : Int) : Nat := 2 ^ e.toNat

/-- Signed mantissa. -/
def sgn (neg : Bool) (m : Nat) : Int := if neg then -(m : Int) else m

/-- Zero of either sign. -/
def Num.isZero : Num → Bool
  | .fin _ m _ => m == 0
  | _ => false

/-- Sign of a number; NaN has none. -/
def Num.negative : Num → Bool
  | .nan => false
  | .inf n => n
  | .fin n _ _ => n

/-- The number with its sign turned over. -/
def Num.neg : Num → Num
  | .nan => .nan
  | .inf n => .inf !n
  | .fin n m e => .fin (!n) m e

/-- An integer, exactly; zero is +0 (R433). -/
def ofInt (i : Int) : Num := .fin (decide (i < 0)) i.natAbs 0

/-- Scaled by a power of two. -/
def Num.scale (k : Int) : Num → Num
  | .fin n m e => .fin n m (e + k)
  | x => x

/-- Product: zero times infinity is NaN. -/
def Num.mul : Num → Num → Num
  | .nan, _ => .nan
  | _, .nan => .nan
  | .inf a, .inf b => .inf (a != b)
  | .inf a, .fin b m _ => if m = 0 then .nan else .inf (a != b)
  | .fin a m _, .inf b => if m = 0 then .nan else .inf (a != b)
  | .fin a m e, .fin b n f => .fin (a != b) (m * n) (e + f)

/-- Exact sum: infinities of both signs give NaN; a sum that is exactly zero is +0 unless both terms are −0 (R433). -/
def Num.add : Num → Num → Num
  | .nan, _ => .nan
  | _, .nan => .nan
  | .inf a, .inf b => if a = b then .inf a else .nan
  | .inf a, .fin .. => .inf a
  | .fin .., .inf b => .inf b
  | .fin a m e, .fin b n f =>
    let q := min e f
    let t := sgn a (m * pow2 (e - q)) + sgn b (n * pow2 (f - q))
    if t = 0 then .fin (a && b && m == 0 && n == 0) 0 0 else .fin (decide (t < 0)) t.natAbs q

/-- Exact sum of the terms of a chunk (R403): in any order the same. -/
def sumNum : List Num → Num
  | [] => .fin false 0 0
  | [x] => x
  | x :: t => x.add (sumNum t)

/-- x < y; false with a NaN. -/
def Num.lt : Num → Num → Bool
  | .nan, _ => false
  | _, .nan => false
  | .inf a, .inf b => a && !b
  | .inf a, .fin .. => a
  | .fin .., .inf b => !b
  | .fin a m e, .fin b n f =>
    let q := min e f
    decide (sgn a (m * pow2 (e - q)) < sgn b (n * pow2 (f - q)))

/-- x = y; −0 equals +0; false with a NaN. -/
def Num.eq (x y : Num) : Bool :=
  match x, y with
  | .nan, _ => false
  | _, .nan => false
  | _, _ => !x.lt y && !y.lt x

/-! ## Rounding (R437 to R440) -/

/-- How the magnitude is chosen: to nearest even, or stochastically with the value r of R440. -/
inductive Rnd where
  | rne
  | sr (r : Nat)
deriving DecidableEq, Repr

/-- hi is chosen over lo = n, where the remainder is rem of 2^sh. -/
def Rnd.up (k : Rnd) (n rem sh : Nat) : Bool :=
  match k with
  | .rne => decide (2 ^ sh < 2 * rem) || (2 * rem == 2 ^ sh && n % 2 == 1)
  | .sr r => decide (r < 2 ^ 32 * rem / 2 ^ sh)

/-- m × 2^e rounded to a multiple of 2^q, as that multiple (steps 1 to 3 of R437). -/
def roundAt (k : Rnd) (m : Nat) (e q : Int) : Nat :=
  if q ≤ e then m * pow2 (e - q)
  else
    let sh := (q - e).toNat
    let n := m / 2 ^ sh
    if k.up n (m % 2 ^ sh) sh then n + 1 else n

/-! ## Formats (R426) -/

/-- A floating-point format: exponent and mantissa width, bias, the largest finite biased exponent and its largest
mantissa, whether it has infinities, and its canonical NaN. -/
structure FloatFmt where
  ew   : Nat
  mb   : Nat
  bias : Nat
  topE : Nat
  topM : Nat
  inf  : Bool
  nan  : Option Nat
deriving DecidableEq, Repr

def e4m3 : FloatFmt := ⟨4, 3, 7, 15, 6, false, some 0x7F⟩
def e5m2 : FloatFmt := ⟨5, 2, 15, 30, 3, true, some 0x7E⟩
def fp16 : FloatFmt := ⟨5, 10, 15, 30, 1023, true, some 0x7E00⟩
def bf16 : FloatFmt := ⟨8, 7, 127, 254, 127, true, some 0x7FC0⟩
def fp32 : FloatFmt := ⟨8, 23, 127, 254, 0x7FFFFF, true, some 0x7FC00000⟩
def e3m2 : FloatFmt := ⟨3, 2, 3, 7, 3, false, none⟩
def e2m3 : FloatFmt := ⟨2, 3, 1, 3, 7, false, none⟩
def e2m1 : FloatFmt := ⟨2, 1, 1, 3, 1, false, none⟩

/-- The value that bits hold (R426, R428). -/
def FloatFmt.decode (f : FloatFmt) (v : Nat) : Num :=
  let m := v % 2 ^ f.mb
  let e := v / 2 ^ f.mb % 2 ^ f.ew
  let s := v.testBit (f.mb + f.ew)
  if e = 0 then .fin s m (1 - (f.bias : Int) - f.mb)
  else if f.topE < e then (if m = 0 then .inf s else .nan)
  else if f.nan.isSome && !f.inf && e == f.topE && decide (f.topM < m) then .nan
  else .fin s (2 ^ f.mb + m) ((e : Int) - f.bias - f.mb)

/-- Sign bit of a format. -/
def FloatFmt.signBit (f : FloatFmt) (s : Bool) : Nat := if s then 2 ^ (f.mb + f.ew) else 0

/-- Largest finite magnitude, encoded. -/
def FloatFmt.maxBits (f : FloatFmt) : Nat := f.topE * 2 ^ f.mb + f.topM

/-- Infinity, encoded. -/
def FloatFmt.infBits (f : FloatFmt) : Nat := (2 ^ f.ew - 1) * 2 ^ f.mb

/-- The outcome of an overflow: with `ovf` the infinity, or the canonical NaN where the format has no infinity but
has a NaN; otherwise the largest finite value (step 4 of R437). -/
def FloatFmt.overflow (f : FloatFmt) (ovf s : Bool) : Nat :=
  if !ovf then f.signBit s + f.maxBits
  else if f.inf then f.signBit s + f.infBits
  else match f.nan with
    | some n => n
    | none => f.signBit s + f.maxBits

/-- An exact value rounded once to the format (R434, R437 to R439, R442 to R446). -/
def FloatFmt.encode (f : FloatFmt) (k : Rnd) (ovf : Bool) : Num → Nat
  | .nan => f.nan.getD 0
  | .inf s => if f.inf then f.signBit s + f.infBits else f.overflow ovf s
  | .fin s m e =>
    if m = 0 then f.signBit s
    else
      let top : Int := (f.topE : Int) - f.bias
      let low : Int := 1 - (f.bias : Int)
      let x : Int := (m.log2 : Int) + e
      let q := max low (min x top) - f.mb
      let n := roundAt k m e q
      -- biased exponent and mantissa follow by adding n to the place of the quantum
      let bits := if n = 0 then 0 else
        (if n < 2 ^ f.mb then n else (q + f.mb + f.bias).toNat * 2 ^ f.mb + (n - 2 ^ f.mb))
      if f.maxBits < bits then f.overflow ovf s else f.signBit s + bits

/-- An exact value rounded once to an n-bit integer, saturating; NaN gives 0 (R443). -/
def encodeInt (n : Nat) (k : Rnd) : Num → Int
  | .nan => 0
  | .inf s => if s then -(2 ^ (n - 1)) else 2 ^ (n - 1) - 1
  | .fin s m e =>
    let v := sgn s (roundAt k m e 0)
    if v < -(2 ^ (n - 1)) then -(2 ^ (n - 1)) else if 2 ^ (n - 1) - 1 < v then 2 ^ (n - 1) - 1 else v

/-- Value of an n-bit two's-complement integer. -/
def decodeInt (n v : Nat) : Int := if v % 2 ^ n < 2 ^ (n - 1) then (v % 2 ^ n : Int) else (v % 2 ^ n : Int) - 2 ^ n

/-- An integer as n bits. -/
def intBits (n : Nat) (i : Int) : Nat := (i % 2 ^ n).toNat

/-- Value of an element with a format code of R398 (codes 0 to 0xC). -/
def decodeFmt (c v : Nat) : Num :=
  match c with
  | 0x0 => ofInt (decodeInt 4 v)
  | 0x1 => ofInt (decodeInt 8 v)
  | 0x2 => ofInt (decodeInt 32 v)
  | 0x3 => e4m3.decode v
  | 0x4 => e5m2.decode v
  | 0x5 => fp16.decode v
  | 0x6 => bf16.decode v
  | 0x7 => fp32.decode v
  | 0x8 => (ofInt (decodeInt 8 v)).scale (-6)
  | 0x9 => e4m3.decode v
  | 0xA => e3m2.decode v
  | 0xB => e2m3.decode v
  | _ => e2m1.decode v

/-- Bits of a value converted to a format code of R398 (codes 0 to 7). -/
def encodeFmt (c : Nat) (k : Rnd) (ovf : Bool) (x : Num) : Nat :=
  match c with
  | 0x0 => intBits 4 (encodeInt 4 k x)
  | 0x1 => intBits 8 (encodeInt 8 k x)
  | 0x2 => intBits 32 (encodeInt 32 k x)
  | 0x3 => e4m3.encode k ovf x
  | 0x4 => e5m2.encode k ovf x
  | 0x5 => fp16.encode k ovf x
  | 0x6 => bf16.encode k ovf x
  | _ => fp32.encode k ovf x

/-- Element bits of a format code: 4, 6, 8, 16 or 32 (R398). -/
def fmtBits (c : Nat) : Nat :=
  match c with
  | 0x0 => 4 | 0x1 => 8 | 0x2 => 32 | 0x3 => 8 | 0x4 => 8 | 0x5 => 16 | 0x6 => 16 | 0x7 => 32
  | 0x8 => 8 | 0x9 => 8 | 0xA => 6 | 0xB => 6 | _ => 4

/-- An MX format code. -/
def isMx (c : Nat) : Bool := decide (8 ≤ c) && decide (c ≤ 0xC)

/-- Value of an element under an E8M0 scale byte; 0xFF is NaN (R429). -/
def scaled (s : Nat) (x : Num) : Num := if s = 0xFF then .nan else x.scale ((s : Int) - 127)

/-- The value r of R440. -/
def srValue (seed step : Word) (rank e : Nat) : Nat :=
  let ctr : Word := BitVec.ofNat 64 (rank * 2 ^ 32 + e)
  let z := seed ^^^ (step * 0x9E3779B97F4A7C15) ^^^ (ctr * 0xD1B54A32D192ED03)
  let z := (z ^^^ (z >>> 30)) * 0xBF58476D1CE4E5B9
  let z := (z ^^^ (z >>> 27)) * 0x94D049BB133111EB
  let z := z ^^^ (z >>> 31)
  (z >>> 32).toNat

/-! ## FP32 (R403, R411, R433, R435) -/

/-- Value of an FP32 word. -/
def ofF32 (v : Nat) : Num := fp32.decode v

/-- Rounded once to FP32, to nearest even; overflow gives an infinity (R435). -/
def toF32 (x : Num) : Nat := fp32.encode .rne true x

def f32Add (a b : Nat) : Nat := toF32 ((ofF32 a).add (ofF32 b))
def f32Sub (a b : Nat) : Nat := toF32 ((ofF32 a).add (ofF32 b).neg)
def f32Mul (a b : Nat) : Nat := toF32 ((ofF32 a).mul (ofF32 b))
/-- ±a × b ± c rounded once. -/
def f32Fma (na nc : Bool) (a b c : Nat) : Nat :=
  let p := (ofF32 a).mul (ofF32 b)
  toF32 ((if na then p.neg else p).add (if nc then (ofF32 c).neg else ofF32 c))

/-- Canonical NaN of FP32. -/
def nan32 : Nat := 0x7FC00000

/-- VMIN and VMAX of FP32: a NaN input gives the canonical NaN; −0 is below +0 (R411). -/
def f32Min (a b : Nat) : Nat :=
  let x := ofF32 a; let y := ofF32 b
  if x == .nan || y == .nan then nan32
  else if x.lt y then a else if y.lt x then b
  else if x.isZero then (if x.negative || y.negative then 0x80000000 else 0) else a
def f32Max (a b : Nat) : Nat :=
  let x := ofF32 a; let y := ofF32 b
  if x == .nan || y == .nan then nan32
  else if x.lt y then b else if y.lt x then a
  else if x.isZero then (if x.negative && y.negative then 0x80000000 else 0) else a

/-! ## VRCP, VSQRT, VRSQRT, VEXP2 and VLOG2 (R413), each the exact result rounded once

An irrational or inexact result is carried with at least 60 bits and an odd last bit below them, which decides every
rounding to 24 bits as the exact value does. -/

/-- Floor of the square root, by bits from the top. -/
def isqrtFrom (n : Nat) : (i r : Nat) → Nat
  | 0, r => r
  | i + 1, r => isqrtFrom n i (if (r + 2 ^ i) * (r + 2 ^ i) ≤ n then r + 2 ^ i else r)

/-- Floor of the square root. -/
def isqrt (n : Nat) : Nat := isqrtFrom n (n.log2 / 2 + 1) 0

/-- A quotient or root held as its floor with a sticky bit below. -/
def sticky (n : Nat) (exact : Bool) (e : Int) : Num := .fin false (2 * n + if exact then 0 else 1) (e - 1)

/-- 1 ÷ x. -/
def numRcp : Num → Num
  | .nan => .nan
  | .inf s => .fin s 0 0
  | .fin s m e =>
    if m = 0 then .inf s
    else
      let n := 2 ^ (m.log2 + 64)
      match sticky (n / m) (n % m == 0) (-e - (m.log2 + 64 : Nat)) with
      | .fin _ a b => .fin s a b
      | x => x

/-- √x; a negative input gives NaN, −0 gives −0. -/
def numSqrt : Num → Num
  | .nan => .nan
  | .inf s => if s then .nan else .inf false
  | .fin s m e =>
    if m = 0 then .fin s 0 0
    else if s then .nan
    else
      let k : Nat := if e % 2 = 0 then 128 else 129
      let n := m * 2 ^ k
      let r := isqrt n
      sticky r (r * r == n) ((e - k) / 2)

/-- 1 ÷ √x; +0 gives +∞, a negative input gives NaN. The spec states no result for −0 (R413): VRSQRT draws a free
value there and never reaches this case. -/
def numRsqrt : Num → Num
  | .nan => .nan
  | .inf s => if s then .nan else .fin false 0 0
  | .fin s m e =>
    if m = 0 then .inf s
    else if s then .nan
    else
      -- 1 ÷ (m × 2^e) = 2^k ÷ m × 2^(−e−k), with −e−k even
      let k0 : Nat := m.log2 + 140
      let k : Nat := if (e + k0) % 2 = 0 then k0 else k0 + 1
      let n : Nat := 2 ^ k
      let r := isqrt (n / m)
      sticky r (r * r * m == n) ((-e - k) / 2)

/-- Bits of the fixed point in which the transcendental functions are carried. -/
def fixBits : Nat := 320

/-- Σ 1 ÷ (k × 2^k) for k from n down to 1: ln 2 in fixed point. -/
def ln2Sum : Nat → Nat
  | 0 => 0
  | n + 1 => 2 ^ (fixBits + 32) / ((n + 1) * 2 ^ (n + 1)) + ln2Sum n

/-- ln 2 in fixed point. -/
def ln2Fix : Nat := ln2Sum (fixBits + 32) / 2 ^ 32

/-- Terms of e^y in fixed point: t is the n-th term. -/
def expTerms (y : Nat) : (fuel n t acc : Nat) → Nat
  | 0, _, _, acc => acc
  | f + 1, n, t, acc => expTerms y f (n + 1) (t * y / 2 ^ fixBits / n) (acc + t)

/-- 2^f in fixed point, f in fixed point below 1. -/
def exp2Fix (f : Nat) : Nat := expTerms (f * ln2Fix / 2 ^ fixBits) 90 1 (2 ^ fixBits) 0

/-- 2^x. -/
def numExp2 : Num → Num
  | .nan => .nan
  | .inf s => if s then .fin false 0 0 else .inf false
  | .fin s m e =>
    if m = 0 then .fin false 1 0
    else if 9 < (m.log2 : Int) + e then (if s then .fin false 1 (-1000) else .fin false 1 1000)
    else
      -- x in units of 2^−160, which every FP32 value is
      let x := sgn s (m * pow2 (e + 160))
      let i := x / 2 ^ 160
      let f := (x % 2 ^ 160).toNat
      if f = 0 then .fin false 1 i else sticky (exp2Fix (f * 2 ^ (fixBits - 160))) false (i - fixBits)

/-- Terms of artanh z: p is the odd power of z. -/
def atanhTerms (z2 : Nat) : (fuel n p acc : Nat) → Nat
  | 0, _, _, acc => acc
  | f + 1, n, p, acc => atanhTerms z2 f (n + 2) (p * z2 / 2 ^ fixBits) (acc + p / n)

/-- log2 of y in [1, 2), y and the result in fixed point. -/
def log2Fix (y : Nat) : Nat :=
  let one := 2 ^ fixBits
  let z := (y - one) * one / (y + one)
  2 * atanhTerms (z * z / one) 110 1 z 0 * one / ln2Fix

/-- log2 x; ±0 gives −∞, a negative input gives NaN. -/
def numLog2 : Num → Num
  | .nan => .nan
  | .inf s => if s then .nan else .inf false
  | .fin s m e =>
    if m = 0 then .inf true
    else if s then .nan
    else
      let k : Int := (m.log2 : Int) + e
      if m = 2 ^ m.log2 then ofInt k
      else
        let v := k * 2 ^ fixBits + log2Fix (m * 2 ^ (fixBits - m.log2))
        let v := 2 * v + 1
        .fin (decide (v < 0)) v.natAbs (-(fixBits : Int) - 1)

/-! ## FX96 (R308, R313, R314, R445) -/

/-- An operand converted at a scale: M modulo 2^96 and its SAT (R313). -/
def toFx (scale : Nat) : Num → Nat × Bool
  | .nan => (0, true)
  | .inf s => (intBits 96 (if s then -(2 ^ 95) else 2 ^ 95 - 1), true)
  | .fin s m e =>
    let v := sgn s (roundAt .rne m (e + 64 - scale) 0)
    if v < -(2 ^ 95) then (intBits 96 (-(2 ^ 95)), true)
    else if 2 ^ 95 - 1 < v then (2 ^ 95 - 1, true)
    else (intBits 96 v, false)

/-- The exact value of an FX96 value (R308). -/
def ofFx (scale n : Nat) : Num := (ofInt (decodeInt 96 n)).scale ((scale : Int) - 64)

end Sys2Proof.Machine
end

