-- ==== Sys2Proof/Config.lean ====
section
/-! DEFINITION. The free values: what the spec leaves open. Each is a constant with no body, so nothing is known of
its value and every claim holds whatever it is. -/

namespace Sys2Proof

/-- Byte at physical offset `a` of DRAM after key replacement `g`: "values with valid ECC that bear no recoverable
relation to data written before" (R76, R129, R201). -/
opaque Config.freeDram : (g a : Nat) → Byte

/-- Word `k` of the `gen`-th debug nonce, TRNG output (R207). -/
opaque Config.freeNonce : (gen k : Nat) → Word

/-- The n-th 64-bit value drawn where the spec leaves a value open: TRNG output, contents the spec calls undefined
or unspecified, and the like. -/
opaque Config.freeWord : (n : Nat) → Word

/-- The n-th choice drawn where the spec fixes no order among events. -/
opaque Config.freeChoice : (n : Nat) → Bool

/-- CODE of the class D fault that a debug unlock records (R207): R679 lists none for it. -/
opaque Config.debugUnlockCode : BitVec 16

end Sys2Proof
end

