-- ==== Sys2Proof/Machine/FaultCodes.lean ====
section
/-! DEFINITION. The fault codes and their classes (R675, R679). -/

namespace Sys2Proof.Machine

/-- Fault classes (R675). -/
inductive FaultClass where
  | a | b | c | d
deriving DecidableEq, Repr

/-- Fault codes by name (R679). -/
inductive FaultCode where
  | illegalOp | pcRange | misalignedAccess | windowViolation | cregAccess | undefOperand | harnessAbort
  | atomicRegion | fx96NoWindow | mopOverlap | cmConflict | cmBankOff | poisonConsumed | tagNoSlot
  | tagTimeout | noCredit | creditTimeout | ringDisabled | hitchTimeout | hitchAborted | barrierDisabled
  | blistFormat | streamDisabled | bridleHold | kvFormat | kvSeq | kvSeqPoisoned | kvStep | kvPosition
  | kvListFull | kvPoolExhausted | reinDown | reinTimeout | reinRefused | hostLinkDown | taskTimeout
  | contextLost | accessRefused | memAccessRefused | eccUe | latentError | eccCeAlert | scrubLate
  | deadlineMiss | biTimeout | hitchForced | remoteRefused | cqeDropped | handshakeRefused | reinLinkDown
  | ideFailure | fence | fenceLifted | cpReset | ostlerReset | coreReset | stallStateLost | sfLost
  | uncoreStateLost | tamper | vrSenseLost | vrPhaseShed | vrAdcFrozen | clkDriftWarn | vrefDriftWarn
  | thermalWarn | tempSensorFrozen | fanStall | tachLost
  /-- the class D fault of a debug unlock (R207), whose code R679 does not list -/
  | debugUnlock
deriving DecidableEq, Repr

/-- CODE of a fault (R679). -/
def FaultCode.code : FaultCode → Nat
  | .illegalOp => 0x0101
  | .pcRange => 0x0102
  | .misalignedAccess => 0x0103
  | .windowViolation => 0x0104
  | .cregAccess => 0x0105
  | .undefOperand => 0x0106
  | .harnessAbort => 0x0107
  | .atomicRegion => 0x0108
  | .fx96NoWindow => 0x0109
  | .mopOverlap => 0x010A
  | .cmConflict => 0x0201
  | .cmBankOff => 0x0202
  | .poisonConsumed => 0x0203
  | .tagNoSlot => 0x0204
  | .tagTimeout => 0x0205
  | .noCredit => 0x0206
  | .creditTimeout => 0x0207
  | .ringDisabled => 0x0208
  | .hitchTimeout => 0x0301
  | .hitchAborted => 0x0302
  | .barrierDisabled => 0x0303
  | .blistFormat => 0x0401
  | .streamDisabled => 0x0402
  | .bridleHold => 0x0403
  | .kvFormat => 0x0501
  | .kvSeq => 0x0502
  | .kvSeqPoisoned => 0x0503
  | .kvStep => 0x0504
  | .kvPosition => 0x0505
  | .kvListFull => 0x0506
  | .kvPoolExhausted => 0x0507
  | .reinDown => 0x0601
  | .reinTimeout => 0x0602
  | .reinRefused => 0x0603
  | .hostLinkDown => 0x0604
  | .taskTimeout => 0x0701
  | .contextLost => 0x0702
  | .accessRefused => 0x0801
  | .memAccessRefused => 0x0802
  | .eccUe => 0x0803
  | .latentError => 0x0804
  | .eccCeAlert => 0x0805
  | .scrubLate => 0x0806
  | .deadlineMiss => 0x0807
  | .biTimeout => 0x0808
  | .hitchForced => 0x0809
  | .remoteRefused => 0x080A
  | .cqeDropped => 0x080B
  | .handshakeRefused => 0x080C
  | .reinLinkDown => 0x080D
  | .ideFailure => 0x080E
  | .fence => 0x0901
  | .fenceLifted => 0x0902
  | .cpReset => 0x0903
  | .ostlerReset => 0x0904
  | .coreReset => 0x0905
  | .stallStateLost => 0x0906
  | .sfLost => 0x0907
  | .uncoreStateLost => 0x0908
  | .tamper => 0x0909
  | .vrSenseLost => 0x0A01
  | .vrPhaseShed => 0x0A02
  | .vrAdcFrozen => 0x0A03
  | .clkDriftWarn => 0x0A04
  | .vrefDriftWarn => 0x0A05
  | .thermalWarn => 0x0A06
  | .tempSensorFrozen => 0x0A07
  | .fanStall => 0x0A08
  | .tachLost => 0x0A09
  | .debugUnlock => Config.debugUnlockCode.toNat

/-- The class fixed by the code (R679); BRIDLE_HOLD of a task is class C and otherwise D (R620), decided where it
is raised. -/
def FaultCode.cls : FaultCode → FaultClass
  | .illegalOp => .c
  | .pcRange => .c
  | .misalignedAccess => .c
  | .windowViolation => .c
  | .cregAccess => .c
  | .undefOperand => .c
  | .harnessAbort => .c
  | .atomicRegion => .c
  | .fx96NoWindow => .c
  | .mopOverlap => .c
  | .cmConflict => .c
  | .cmBankOff => .c
  | .poisonConsumed => .c
  | .tagNoSlot => .c
  | .tagTimeout => .c
  | .noCredit => .c
  | .creditTimeout => .c
  | .ringDisabled => .c
  | .hitchTimeout => .c
  | .hitchAborted => .c
  | .barrierDisabled => .c
  | .blistFormat => .c
  | .streamDisabled => .c
  | .bridleHold => .c
  | .kvFormat => .c
  | .kvSeq => .c
  | .kvSeqPoisoned => .c
  | .kvStep => .c
  | .kvPosition => .c
  | .kvListFull => .c
  | .kvPoolExhausted => .c
  | .reinDown => .c
  | .reinTimeout => .c
  | .reinRefused => .c
  | .hostLinkDown => .c
  | .taskTimeout => .c
  | .contextLost => .c
  | .accessRefused => .d
  | .memAccessRefused => .d
  | .eccUe => .d
  | .latentError => .d
  | .eccCeAlert => .d
  | .scrubLate => .d
  | .deadlineMiss => .d
  | .biTimeout => .d
  | .hitchForced => .d
  | .remoteRefused => .d
  | .cqeDropped => .d
  | .handshakeRefused => .d
  | .reinLinkDown => .d
  | .ideFailure => .d
  | .fence => .d
  | .fenceLifted => .d
  | .cpReset => .d
  | .ostlerReset => .d
  | .coreReset => .d
  | .stallStateLost => .b
  | .sfLost => .a
  | .uncoreStateLost => .a
  | .tamper => .a
  | .vrSenseLost => .d
  | .vrPhaseShed => .d
  | .vrAdcFrozen => .d
  | .clkDriftWarn => .d
  | .vrefDriftWarn => .d
  | .thermalWarn => .d
  | .tempSensorFrozen => .d
  | .fanStall => .d
  | .tachLost => .d
  | .debugUnlock => .d

end Sys2Proof.Machine
end

