-- ==== Sys2Proof/Machine/Tables.lean ====
section
/-! DEFINITION. Sparse tables: plain lists of (key, entry) pairs with strictly rising keys, in which a key that is
not listed holds a default. Registers, memory bytes, contexts, queues and every other indexed piece of state are
held so; and finite sets of keys as strictly rising lists. -/

namespace Sys2Proof.Machine

variable {α : Type}

/-- The entry listed for a key, if one is. -/
def Tbl.find? (k : Nat) : List (Nat × α) → Option α
  | [] => none
  | (j, v) :: t => if j = k then some v else Tbl.find? k t

/-- The entry of a key: what is listed, or the default. -/
def Tbl.get (d : α) (t : List (Nat × α)) (k : Nat) : α :=
  match Tbl.find? k t with
  | some v => v
  | none => d

/-- The table without a key. -/
def Tbl.erase (k : Nat) : List (Nat × α) → List (Nat × α)
  | [] => []
  | (j, v) :: t => if k < j then (j, v) :: t else if j = k then t else (j, v) :: Tbl.erase k t

/-- The table with an entry listed for a key, in the key's place. -/
def Tbl.insert (k : Nat) (v : α) : List (Nat × α) → List (Nat × α)
  | [] => [(k, v)]
  | (j, w) :: t =>
    if k < j then (k, v) :: (j, w) :: t
    else if j = k then (k, v) :: t
    else (j, w) :: Tbl.insert k v t

/-- A write: an entry equal to the default is not listed. -/
def Tbl.put [DecidableEq α] (d : α) (t : List (Nat × α)) (k : Nat) (v : α) : List (Nat × α) :=
  if v = d then Tbl.erase k t else Tbl.insert k v t

/-- The entries whose keys satisfy a test. -/
def Tbl.keep (p : Nat → Bool) (t : List (Nat × α)) : List (Nat × α) :=
  t.filter fun e => p e.1

/-- Strictly rising keys, all above a bound. -/
def Tbl.risingFrom : Nat → List (Nat × α) → Bool
  | _, [] => true
  | b, (k, _) :: t => decide (b ≤ k) && Tbl.risingFrom (k + 1) t

/-- The canonical form: keys strictly rise and no entry equals what its key reads as unlisted. -/
def Tbl.wf [DecidableEq α] (d : Nat → α) (t : List (Nat × α)) : Bool :=
  Tbl.risingFrom 0 t && t.all fun e => decide (e.2 ≠ d e.1)

/-- Membership in a set of keys. -/
def KSet.has (s : List Nat) (k : Nat) : Bool := s.contains k

/-- A set with a key put in, in its place. -/
def KSet.add (k : Nat) : List Nat → List Nat
  | [] => [k]
  | j :: t => if k < j then k :: j :: t else if j = k then j :: t else j :: KSet.add k t

/-- A set with a key taken out. -/
def KSet.del (k : Nat) (s : List Nat) : List Nat := s.filter (· != k)

/-- Put a key in or take it out. -/
def KSet.set (b : Bool) (k : Nat) (s : List Nat) : List Nat := if b then KSet.add k s else KSet.del k s

/-- A set with every key of an interval [lo, lo + n) taken out. -/
def KSet.clear (lo n : Nat) (s : List Nat) : List Nat := s.filter fun k => decide (k < lo) || decide (lo + n ≤ k)

/-- Strictly rising keys, all at or above a bound. -/
def KSet.risingFrom : Nat → List Nat → Bool
  | _, [] => true
  | b, k :: t => decide (b ≤ k) && KSet.risingFrom (k + 1) t

/-- The first key at or after `from` within `n` keys that satisfies a test. -/
def firstFrom (p : Nat → Bool) : (from_ n : Nat) → Option Nat
  | _, 0 => none
  | k, n + 1 => if p k then some k else firstFrom p (k + 1) n

/-- The round-robin choice (R519, R521, R625): the first key after `last` in cyclic order below `n` that satisfies a
test. -/
def roundRobin (p : Nat → Bool) (last n : Nat) : Option Nat :=
  match firstFrom p (last + 1) (n - (last + 1)) with
  | some k => some k
  | none => firstFrom p 0 (min (last + 1) n)

end Sys2Proof.Machine
end

