-- ==== Sys2Proof/Machine/CoreState.lean ====
section
/-! DEFINITION. The state of the core complex beside its registers and memories: contexts, engine queues, streams,
rings, Paddock requests, hitch-store queues and the frames of saved tasks (chapters 7 to 16). -/

namespace Sys2Proof.Machine

open Sys2Proof

/-- Condition of a hitch wait (R456). -/
inductive HCond where
  | ge | eq | ne
deriving DecidableEq, Repr

/-- What a context that is not ready waits for (R346). -/
inductive Wait where
  | ready
  /-- an operation outside the scalar unit is outstanding; `Ctx.ret` holds its value once it is back; the value goes
  to register rd, if the instruction has one -/
  | result (rd : Option Nat)
  /-- a host memory read (R133): destination, size and sign extension -/
  | host (rd size : Nat) (sx : Bool)
  /-- a tagged access blocked on the slot with memory key a, since this time -/
  | tag (a since : Nat)
  /-- a pop of ring i that has not been performed -/
  | pop (ring since : Nat)
  /-- a reservation waits at ring i (from 4096 on: at a ring of another chip) -/
  | resv (ring since : Nat)
  /-- a hitch wait that the hitch did not meet when read (R456): the last value seen -/
  | hitch (c : HCond) (idx : Nat) (v : Word) (since : Nat) (seen : Word)
  /-- a monitor wait (R459) -/
  | monitor (since : Nat)
  /-- a barrier wait with ENG = 3 (R466): barrier, its counter hitch, the joined GEN -/
  | barrier (b idx gen since : Nat)
  | drain (mask : Nat)
  /-- parked at a yield point (R384) -/
  | parked (n : Nat)
deriving DecidableEq, Repr

/-- A monitor slot (R458): pool hitch and whether it fired. -/
structure Monitor where
  idx   : Nat
  fired : Bool
deriving DecidableEq, Repr

/-- A scalar context (R343 to R350). Registers not listed read zero; a listed poison bit is set. -/
structure Ctx where
  started : Bool
  pc      : Nat
  g       : List (Nat × Word)
  gp      : List Nat
  /-- p1 to p7 that are true -/
  p       : List Nat
  c4      : Word
  c5      : Word
  c6      : Word
  resumed : Bool
  yield_  : Nat
  v       : List (Nat × VReg)
  vp      : List (Nat × Word32)
  wait    : Wait
  ret     : Option (Word × Bool)
  /-- time at which the instruction that waits was first issued or first blocked (R284, R460) -/
  since   : Option Nat
  mon     : List (Nat × Monitor)
  /-- joined record: barrier and GEN (R466) -/
  joined  : Option (Nat × Nat)
  /-- ring and index that a RING.PUSH has reserved and not yet filled -/
  push    : Option (Nat × Nat)
deriving DecidableEq, Repr

/-- A context that has not been started: every register zero (R348, R373). -/
def Ctx.idle : Ctx :=
  { started := false, pc := 0, g := [], gp := [], p := [], c4 := 0, c5 := 0, c6 := 0, resumed := false, yield_ := 0
    v := [], vp := [], wait := .ready, ret := none, since := none, mon := [], joined := none, push := none }

/-- An engine instruction in a queue, with what it captured at issue (R391, R392). -/
structure EOp where
  ctx  : Nat
  pc   : Nat
  word : Word
  ga   : Word
  gb   : Word
  gc   : Word
  gap  : Bool
  gbp  : Bool
  gcp  : Bool
  /-- its place in the order of issue of engine instructions -/
  tick : Nat
  c4   : Word
  c5   : Word
  c6   : Word
  /-- lines already done, and the time since which the next one has been blocked -/
  done : Nat
  since : Option Nat
  /-- stream that a started STREAM.GO or KV.WALK waits on, an arrival performed, and the like -/
  began : Bool
deriving DecidableEq, Repr

/-- An engine spinning at a barrier (R422, R466). -/
structure Spin where
  b     : Nat
  idx   : Nat
  gen   : Nat
  since : Nat
  /-- the release has been seen -/
  woken : Bool
deriving DecidableEq, Repr

/-- A CM or operand-buffer access of the core's latest CCLK with an access (R236, R248): port, bank (16 + n for
operand buffer n), local address, write. -/
structure Acc where
  port  : Nat
  bank  : Nat
  addr  : Nat
  write : Bool
  /-- a loser has been recorded at this bank in this CCLK -/
  met   : Bool
deriving DecidableEq, Repr

/-- Who asks a ring: a context, a stream transfer of a core, or a remote chip's request (arrival port and header). -/
inductive RWho where
  | ctx (core ctx : Nat)
  | xfer (core q id : Nat)
  | remote (port : Nat) (hdr : Word)
deriving DecidableEq, Repr

/-- What another party asks of a core's CM through its DMA-in port (R295, R482, R815). -/
inductive InKind where
  /-- a credited fill: data, poison, the 64-bit words it writes, and for one from another chip its port and header,
  for the WACK (R663); the task, core and context that issued it, for a scalar fill; it spends the credit of the
  ring's index -/
  | fill (idx : Nat) (data : Line256) (pois words : Word32) (remote : Option (Nat × Word))
      (who : Option (Nat × Nat × Nat))
  /-- the consume of the ring's pop that stands first -/
  | pop
  /-- a peek of index k for a context of another core: its word `word` goes there -/
  | peek (core ctx task k word : Nat)
deriving DecidableEq, Repr

/-- A request on its way into a core's CM through its inbound buffer: ring, kind, and the time since which its tag has
been wrong. -/
structure Inbound where
  ring  : Nat
  kind  : InKind
  since : Option Nat
deriving DecidableEq, Repr

/-- A transfer of a stream (R480, R492). -/
structure Xfer where
  id     : Nat
  entry  : Nat
  op     : Nat
  smode  : Nat
  dmode  : Nat
  fence  : Bool
  /-- device addresses of the next byte to read and to write, and bytes left to read -/
  src    : Nat
  dst    : Nat
  left   : Nat
  /-- lines read and not yet written, oldest first: source address, bytes, data, poison -/
  buf    : List (Nat × Nat × Line256 × Word32)
  /-- destination lines and bytes performed -/
  done   : Nat
  put    : Nat
  /-- ring reference of a ring destination, the time at which its reservation was requested, and the first index
  granted -/
  ring   : Word
  asked  : Option Nat
  idx    : Option Nat
  issued : Bool
  /-- time since which its next line has been blocked on a tag -/
  since  : Option Nat
  /-- entries whose last block it holds, with the bytes at which they end and their DEADLINE (R501) -/
  ends   : List (Nat × Nat × Nat)
  /-- staging line of each prefetched line, in order, and whether it was filled or skipped (R505) -/
  staged : List (Nat × Bool)
  /-- 64-byte beats that have come from another chip, by device address / 64, with poison; whether its reads have
  been sent; and remote fills not yet acknowledged -/
  got    : List (Nat × Line64 × Bool)
  asking : Bool
  acks   : Nat
  /-- device address from which on a walk's source bytes are unspecified (R591) -/
  cut    : Option Nat
deriving DecidableEq, Repr

/-- A stream of a stream queue (R484, R495). -/
structure Stream where
  id    : Nat
  ctx   : Nat
  pc    : Nat
  word  : Word
  base  : Nat
  count : Nat
  /-- entries read so far -/
  read  : Nat
  /-- transfers expanded and not completed, in stream order -/
  xfers : List Xfer
  /-- time at which it became running -/
  runAt : Option Nat
  /-- a KV.WALK that has not started: its descriptor's address; and a KV.WALK's sequence once it has (R595) -/
  walk  : Option Nat
  seqn  : Option Nat
  /-- destination lines performed early under overlap (R512) -/
  early : Nat
  /-- place of its instruction in the order of issue -/
  tick  : Nat
deriving DecidableEq, Repr

/-- The Carousel unit (R421, R513): steps started, lines sent and received in the current step, the inbound buffer
(step, the sender's LINES, destination line offset, data, poison), and whether the last Carousel slot was a read. -/
structure Carousel where
  step   : Nat
  src    : Nat
  dst    : Nat
  lines  : Nat
  sent   : Nat
  got    : Nat
  active : Bool
  inbox  : List (Nat × Nat × Nat × Line256 × Word32)
  lastRead : Bool
deriving DecidableEq, Repr

/-- A Carousel unit at rest. -/
def Carousel.idle : Carousel :=
  { step := 0, src := 0, dst := 0, lines := 0, sent := 0, got := 0, active := false, inbox := [], lastRead := false }

/-- A core beside its registers and memories. -/
structure ShuzoCore where
  /-- task that runs on it, by identifier -/
  task    : Option Nat
  /-- context that issued last (R344) -/
  last    : Nat
  ctxs    : List (Nat × Ctx)
  /-- tiles of ACC whose latest MX.MMA accumulated INT32 -/
  intTiles : List Nat
  mxq     : List EOp
  vxq     : List EOp
  dmaq    : List EOp
  /-- engines spinning at a barrier, and joined records of engine queues (0 MXE, 1 VXE, 2 DMA) -/
  spins   : List (Nat × Spin)
  ejoined : List (Nat × Nat × Nat)
  accs    : List Acc
  /-- a CMDMA change that waits for its stamp (R246): DMA_PERIOD and DMA_BANKS -/
  cmdma   : Option (Nat × Nat)
  inbound : List Inbound
  /-- hitch-port requests live in State; release-bus messages not yet seen: pool index and value (R451) -/
  bus     : List (Nat × Word)
  streams : List (Nat × List Stream)
  /-- stream queue served last for demand and for prefetch (R481) -/
  lastQ   : Nat
  lastPf  : Nat
  nextId  : Nat
  carousel : Carousel
deriving DecidableEq, Repr

/-- A core with nothing on it. -/
def ShuzoCore.idle : ShuzoCore :=
  { task := none, last := 7, ctxs := [], intTiles := [], mxq := [], vxq := [], dmaq := [], spins := [], ejoined := [], accs := []
    cmdma := none, inbound := [], bus := [], streams := [], lastQ := 0, lastPf := 0, nextId := 0
    carousel := .idle }

/-! ## Paddock requests (R264 to R272, R282, R283) -/

/-- Element atomics (R370). -/
inductive Atom where
  | addW | addD | addS | fxD | fxS | swapW | swapD
deriving DecidableEq, Repr

/-- Operation of a Paddock request. -/
inductive PdOp where
  | load (n : Nat) (sx : Bool)
  | store (n : Nat) (data : Word) (poison : Bool)
  /-- tagged load: peek or consume -/
  | tagged (n : Nat) (sx peek : Bool)
  | fill (n : Nat) (data : Word) (poison : Bool)
  | tset | tclr | probe
  | atom (k : Atom) (data : Word) (poison : Bool)
  /-- the consume of the first pop of Paddock ring i (R291) -/
  | pop (ring : Nat)
  /-- a credited fill of index k of Paddock ring i (R294): data, poison, the words it writes, and for one from another
  chip its port and header, for the WACK -/
  | ringFill (ring k : Nat) (data : Line256) (pois words : Word32) (remote : Option (Nat × Word))
deriving DecidableEq, Repr

/-- A request at a Paddock bank: byte offset, operation, issuing core and context, task, arrival in NCLK, requester
index (R29), and the time since which its tag has been wrong. -/
structure PdReq where
  off     : Nat
  op      : PdOp
  core    : Nat
  ctx     : Nat
  task    : Option Nat
  arrival : Nat
  index   : Nat
  since   : Option Nat
deriving DecidableEq, Repr

/-- The Paddock's banks and tag-wait tables: requests queued at each bank, oldest first (R267, R268); requests
refused at the crossbar for it (R269); requests parked at each slice, in order, true once their slot's tag has
changed (R282); and requests returned from a full table, with the time of their return (R283). -/
structure Paddock where
  queues   : List (Nat × List PdReq)
  held     : List (Nat × List PdReq)
  parked   : List (Nat × List (PdReq × Bool))
  returned : List (Nat × List (PdReq × Nat))
deriving DecidableEq, Repr

/-! ## Hitches (chapter 13) -/

/-- An operation at a hitch (R379, R464). -/
inductive HOp where
  | read
  | write (v : Word)
  | add (v : Word) (ret : Bool)
  | wait (c : HCond) (v : Word)
  | mon
  /-- an arrival at barrier b by engine e (3: the context); true: then wait (BAR.SYNC) -/
  | arrive (b eng : Nat) (sync : Bool)
  /-- the read of BAR.WAIT with the joined GEN -/
  | bwait (b eng gen : Nat)
  /-- a write or add to a hitch of another chip (R381) -/
  | remote (chip : Nat) (add : Bool) (v : Word)
deriving DecidableEq, Repr

/-- A request in a core's hitch port: pool index (for another chip, the hitch's index there), operation, issuing core,
unit and context, task, and the instruction. -/
structure HReq where
  idx  : Nat
  op   : HOp
  core : Nat
  unit : Nat
  ctx  : Nat
  task : Nat
  pc   : Nat
  word : Word
deriving DecidableEq, Repr

/-- The hitch store (R447 to R449): hitches that are not zero, poisoned hitches, each core's requests in order,
the core each quadrant port served last, and each bank's queue. -/
structure HitchStore where
  val    : List (Nat × Word)
  poison : List Nat
  ports  : List (Nat × List HReq)
  served : List (Nat × Nat)
  banks  : List (Nat × List HReq)
deriving DecidableEq, Repr

/-! ## Rings (chapter 8) -/

/-- A waiting reservation (R290, R292): who, the task, its count, and since when. -/
structure RWait where
  who   : RWho
  task  : Option Nat
  n     : Nat
  since : Nat
deriving DecidableEq, Repr

/-- A pop that waits (R291): core, context, task, the word of the slot it returns, and whether its consume is under
way at the slot's bank or DMA-in port. -/
structure RPop where
  core : Nat
  ctx  : Nat
  task : Nat
  word : Nat
  sent : Bool
deriving DecidableEq, Repr

/-- A ring's ledger (R290, R291, R294): reserved and unfilled indices with the task that holds them (none: a remote
source, by chip × 2^8 + unit), waiting reservations in order of arrival, and pops in order of issue. -/
structure Ring where
  credits : List (Nat × Option Nat × Nat)
  waiters : List RWait
  pops    : List RPop
deriving DecidableEq, Repr

/-- A ring with no credits, waiters or pops. -/
def Ring.idle : Ring := { credits := [], waiters := [], pops := [] }

/-! ## Rein (chapter 18) -/

/-- A packet (R650): its header words and data slots with their poison; and for one that is passed on, the port and
VC whose receive buffer holds it (R655, R657). -/
structure Packet where
  w0    : Word
  w1    : Word
  slots : List (Slot × Bool)
  held  : Option (Nat × Nat)
deriving DecidableEq, Repr

/-- A Rein port beside its registers (R644 to R649, R655, R668 to R672). -/
structure ReinPort where
  /-- it holds no link-layer state -/
  fresh   : Bool
  /-- FSEQ of the next DATA flit, and the DATA flits not acknowledged, oldest first: FSEQ, VC, slots, flit -/
  txSeq   : Nat
  replay  : List (Nat × Nat × Nat × List Nat)
  /-- FSEQ of the last DATA flit accepted, if any was -/
  rxSeq   : Nat
  /-- credits held in each VC, and the peer's cumulative counts last seen -/
  credit  : List Nat
  base    : List Nat
  /-- slots freed in each VC since INIT, and slots whose freeing is not counted (R669) -/
  freed   : List Nat
  skip    : List Nat
  part    : Option Packet
  rx      : List Packet
  tx      : List Packet
  /-- hitch writes and releases in the ORD hold (R665) -/
  hold    : List Packet
  /-- its PHY has reached L0 -/
  l0      : Bool
  /-- last advance of ACK, and replays since -/
  ackAt   : Nat
  tries   : Nat
  /-- start of training or of a retrain -/
  since   : Nat
  /-- INIT sent last, and a valid INIT received -/
  initAt  : Nat
  initOk  : Bool
  /-- credit epochs: carried by this port's link fields, and adopted from the peer -/
  epoch   : Bool
  adopted : Bool
  syncAt  : Option Nat
deriving DecidableEq, Repr

/-- A port that holds nothing. -/
def ReinPort.idle : ReinPort :=
  { fresh := true, txSeq := 1, replay := [], rxSeq := 0, credit := [0, 0, 0, 0, 0, 0], base := [0, 0, 0, 0, 0, 0]
    freed := [0, 0, 0, 0, 0, 0], skip := [0, 0, 0, 0, 0, 0], part := none, rx := [], tx := [], hold := [], l0 := false, ackAt := 0, tries := 0, since := 0, initAt := 0
    initOk := false, epoch := false, adopted := false, syncAt := none }

/-- What a tagged packet was sent for. -/
inductive RFor where
  /-- a read of a stream transfer of a core: queue, transfer, and first beat (device address / 64) -/
  | read (core q xfer beat : Nat)
  | resv (who : RWho) (ring : Word) (n : Nat)
  /-- a fill, of a stream transfer of a core (queue and transfer) if it is one -/
  | fill (xfer : Option (Nat × Nat × Nat))
deriving DecidableEq, Repr

/-- A tagged packet outstanding (R664): its tag, port, destination, unit, task, purpose, header, and time sent; true
while a BUSY reservation waits to be sent again. -/
structure Tagged where
  tag  : Nat
  port : Nat
  chip : Nat
  unit : Nat
  task : Option Nat
  what : RFor
  w0   : Word
  w1   : Word
  sent : Nat
  busy : Bool
deriving DecidableEq, Repr

/-- Both ports and the tagged packets outstanding. -/
structure Rein where
  ports  : List (Nat × ReinPort)
  tagged : List Tagged
deriving DecidableEq, Repr

/-! ## Saved tasks (R561) -/

/-- What a save frame holds of a core ring: RESV, HEAD, and the task's unfilled reservations. -/
structure RingFrame where
  ring    : Nat
  resv    : Nat
  head    : Nat
  credits : List (Nat × Option Nat × Nat)
deriving DecidableEq, Repr

/-- What a save frame holds of one core. -/
structure CoreFrame where
  core   : Nat
  ctxs   : List (Nat × Ctx)
  ejoined : List (Nat × Nat × Nat)
  period : Nat
  banks  : Nat
  rings  : List RingFrame
  /-- live lines: local address, data, poison, tag -/
  lines  : List (Nat × Line256 × Word32 × Bool)
deriving DecidableEq, Repr

/-- A save frame. -/
structure Frame where
  cores   : List CoreFrame
  hitches : List (Nat × Word)
deriving DecidableEq, Repr

/-- The core complex. -/
structure Complex where
  cores  : List (Nat × ShuzoCore)
  pd     : Paddock
  hs     : HitchStore
  rings  : List (Nat × Ring)
  /-- halted cores owed one issue by DBG_STEP (R769) -/
  steps  : List Nat
  /-- engine instructions issued so far (R595) -/
  issued : Nat
  rein   : Rein
deriving DecidableEq, Repr

/-- The core complex with nothing on it. -/
def Complex.idle : Complex :=
  { cores := [], pd := { queues := [], held := [], parked := [], returned := [] }
    hs := { val := [], poison := [], ports := [], served := [], banks := [] }, rings := [], steps := [], issued := 0
    rein := { ports := [], tagged := [] } }

end Sys2Proof.Machine
end

