-- ==== Sys2Proof/Machine/RegMap.lean ====
section
/-! DEFINITION. The register map of F1 (spec/23_register_map.md section 3 and the field tables of every chapter):
one name per register, and for each its place in BAR0, its width, who may see it, which resets return it to its
reset value (R783), and the bits each access code of R13 covers. -/

namespace Sys2Proof.Machine

open Sys2Proof

/-- The registers of section 3 of spec/23_register_map.md, one name each; an indexed group is one name with an
index, and a register of n × 64 bits is n names (R10). -/
inductive Reg where
  | devIdent | devUid | devCapMem | devLink | devReq | devReqPresent | devDramCap | stageStatus | stageCtl
  | stageReason | stageTimes | stageEpochSil | stageBist | stageEpochMgmt | stageEpochCtrl
  | stageDrvHandshake | stageDrvSummary | tackLast | tackCount | tackAudit | stallCommit | stallEdit
  | stallTack | stallPolicy | stallCapAssign | stallCapStatus | stallReset | stagedCfg | stagedCores
  | stagedHitch | stagedBarrier | stagedPring | stagedSq | stagedCq | stagedRslot | stagedHostBase
  | stagedPwin | stagedDwin | activeCfg | activeCores | activeHitch | activeBarrier | activePring | activeSq
  | activeCq | activeRslot | activeHostBase | activePwin | activeDwin | stallState | sqTack | hrnTack | sqCtl
  | sqBase | sqTail | sqHead | sqSeq | sqStat | cqCtl | cqBase | cqHead | cqTail | cqIrq | hrnCtl | taskCfg
  | taskStat | hitchTack | hitchForce | hitchForceValue | hitchCfg | hitchStat | barrierCtl | barrierState
  | streamTack | streamQCtl | streamQStage | streamQStat | streamCause | streamOverlap | kvTack | kvPoolCtl
  | kvPoolPages | kvPoolCount | kvPoolSeq | kvPoolFree | kvPoolLimits | kvPoolStat | kvPoolStat2 | cmCfg
  | cmConflictLog | cmConflictStamp | cmConflictCount | cmEccCount | cmAccw | ringTack | bridleTack | pdAccw0
  | pdAccw1 | ringCtl | ringBase | ringPtr | ringStat | bridleCtl | bridleFloor | bridleCeil | bridleState
  | bridleL3 | bridleCntCtl | bridleHoldLog | bridleHoldCount | bridleLdq | bridleCls0 | bridleCls1
  | bridleDreq0 | bridleDreq1 | bridleDreq2 | bridlePreq0 | bridlePreq1 | bridlePreq2 | bridlePreq3
  | dcohBiCfg | dcohSfStatus | dcohBiCount | dcohRaceLog | eccCfg | eccStatus | scrubStatus | eccLog0
  | eccLog1 | dramChEcc | rasLogCtl | rasLogPtr | rasCount | rasCpWdt | rasRecovery | rasLogEntry | reinChip
  | reinTack | reinRoute | reinLimits | reinPortCtl | reinPortCred0 | reinPortCred1 | reinPortStat
  | reinPortErr | reinBind0 | reinBind1 | reinStallOut | vrCtl | fanCtl | vrTack | fanTack | thermCtl
  | powerLimit | vrOp | vrPwm | vrPhase | vrStatus | vrAdapt | vrStage | refCfg | refStatus | thermStatus
  | fanStatus | powerStatus | mgmtStatus | gbOwner | gbOwnerCfg | gbTack | gbNonce | gbDebugCtl | gbToken
  | dbgSession | dbgAddr | dbgData | dbgCmd | dbgStatus | dbgHalt | dbgStep | dbgHalted | perfSel | perfCnt
  | traceCtl | traceBase | tracePtr | traceStat
deriving DecidableEq, Repr

/-- Who sees a register (R6): stall-visible or Owner-only. -/
inductive Vis where
  | stall | owner
deriving DecidableEq, Repr

/-- The rows of R783: the resets that return a register to its reset value. -/
inductive Scope where
  /-- cold power-on only -/
  | cold
  /-- cold power-on, PERST# and a class A fault -/
  | perst
  /-- those and an F1 function-level reset -/
  | flr
deriving DecidableEq, Repr

/-- One row of the map. `dims` lists (stride, count) from the innermost index outwards; a mask names the bits of
the fields that have that access code; `rc` lists the (low bit, width) of each RC field. -/
structure RegRow where
  base   : Nat
  dims   : List (Nat × Nat)
  width  : Nat
  vis    : Vis
  banked : Bool
  scope  : Scope
  rw     : BitVec 64
  rwo    : BitVec 64
  w1c    : BitVec 64
  wo     : BitVec 64
  rc     : List (Nat × Nat)
  reset  : BitVec 64
deriving DecidableEq, Repr

/-- The map itself (R770, section 3). -/
def Reg.row : Reg → RegRow
  | .devIdent => ⟨0, [], 32, .stall, false, .perst, 0, 0, 0, 0, [], 0x48200221⟩
  | .devUid => ⟨0x10, [(0x8, 2)], 64, .owner, false, .perst, 0, 0, 0, 0, [], 0⟩
  | .devCapMem => ⟨0x40, [], 64, .stall, false, .perst, 0, 0, 0, 0, [], 0x874A091844D620⟩
  | .devLink => ⟨0x100, [], 32, .stall, false, .perst, 0, 0, 0, 0, [], 0⟩
  | .devReq => ⟨0x108, [], 32, .stall, true, .perst, 0, 0, 0, 0, [], 0⟩
  | .devReqPresent => ⟨0x10C, [], 32, .stall, false, .perst, 0, 0, 0, 0, [], 0⟩
  | .devDramCap => ⟨0x110, [], 64, .stall, false, .perst, 0, 0, 0, 0, [], 0x1C002003C0⟩
  | .stageStatus => ⟨0x10000, [], 32, .stall, false, .perst, 0, 0, 0, 0, [], 0⟩
  | .stageCtl => ⟨0x10004, [], 32, .owner, false, .perst, 0, 0x6, 0, 0x1, [], 0x4⟩
  | .stageReason => ⟨0x10008, [], 64, .stall, false, .perst, 0, 0, 0, 0, [], 0⟩
  | .stageTimes => ⟨0x10010, [], 64, .stall, false, .perst, 0, 0, 0, 0, [], 0⟩
  | .stageEpochSil => ⟨0x10018, [], 32, .stall, false, .perst, 0, 0, 0, 0, [], 0x3⟩
  | .stageBist => ⟨0x1001C, [], 32, .stall, false, .perst, 0, 0, 0, 0, [], 0⟩
  | .stageEpochMgmt => ⟨0x10020, [], 64, .stall, false, .perst, 0, 0, 0, 0, [], 0⟩
  | .stageEpochCtrl => ⟨0x10028, [], 64, .stall, false, .perst, 0, 0, 0, 0, [], 0⟩
  | .stageDrvHandshake => ⟨0x10030, [], 64, .stall, true, .flr, 0xFFFFFFFF00FF, 0, 0, 0, [], 0⟩
  | .stageDrvSummary => ⟨0x10038, [], 32, .owner, false, .flr, 0, 0, 0, 0, [], 0⟩
  | .tackLast => ⟨0x20000, [], 64, .owner, false, .perst, 0, 0, 0x8000000000000000, 0, [], 0⟩
  | .tackCount => ⟨0x20008, [], 64, .owner, false, .perst, 0, 0, 0, 0, [(0, 32), (32, 32)], 0⟩
  | .tackAudit => ⟨0x20010, [], 64, .owner, false, .perst, 0, 0, 0, 0x1, [], 0⟩
  | .stallCommit => ⟨0x100000, [], 32, .owner, false, .perst, 0, 0, 0, 0x5, [], 0⟩
  | .stallEdit => ⟨0x100004, [], 32, .owner, false, .perst, 0, 0, 0, 0x60, [], 0x1F⟩
  | .stallTack => ⟨0x100008, [], 32, .owner, true, .flr, 0, 0, 0, 0, [], 0⟩
  | .stallPolicy => ⟨0x100010, [], 32, .owner, false, .perst, 0xFFFF, 0, 0, 0, [], 0⟩
  | .stallCapAssign => ⟨0x100020, [], 64, .owner, false, .perst, 0x3F03FF03FF, 0, 0, 0x8000000000000000, [], 0⟩
  | .stallCapStatus => ⟨0x100028, [], 32, .owner, false, .perst, 0, 0, 0x6, 0, [], 0⟩
  | .stallReset => ⟨0x100030, [], 32, .owner, false, .perst, 0, 0, 0, 0xFFFF, [], 0⟩
  | .stagedCfg => ⟨0x101000, [(0x100, 16)], 32, .owner, false, .perst, 0xF07, 0, 0, 0, [], 0⟩
  | .stagedCores => ⟨0x101004, [(0x100, 16)], 32, .owner, false, .perst, 0xFFFFFFFF, 0, 0, 0, [], 0⟩
  | .stagedHitch => ⟨0x101008, [(0x100, 16)], 32, .owner, false, .perst, 0x7FFF3FFF, 0, 0, 0, [], 0⟩
  | .stagedBarrier => ⟨0x10100C, [(0x100, 16)], 32, .owner, false, .perst, 0x3FF01FF, 0, 0, 0, [], 0⟩
  | .stagedPring => ⟨0x101010, [(0x100, 16)], 32, .owner, false, .perst, 0x1FF00FF, 0, 0, 0, [], 0⟩
  | .stagedSq => ⟨0x101014, [(0x100, 16)], 32, .owner, false, .perst, 0x7F03FF, 0, 0, 0, [], 0⟩
  | .stagedCq => ⟨0x101018, [(0x100, 16)], 32, .owner, false, .perst, 0x7F03FF, 0, 0, 0, [], 0⟩
  | .stagedRslot => ⟨0x10101C, [(0x100, 16)], 32, .owner, false, .perst, 0x7FF03FF, 0, 0, 0, [], 0⟩
  | .stagedHostBase => ⟨0x101020, [(0x100, 16)], 64, .owner, false, .perst, 0xFFFFFFFFFFFFF000, 0, 0, 0, [], 0⟩
  | .stagedPwin => ⟨0x101040, [(0x8, 4), (0x100, 16)], 64, .owner, false, .perst, 0x3FF01FF0001, 0, 0, 0, [], 0⟩
  | .stagedDwin => ⟨0x101060, [(0x8, 8), (0x100, 16)], 64, .owner, false, .perst, 0x3FF03FF03FF0003, 0, 0, 0, [], 0⟩
  | .activeCfg => ⟨0x102000, [(0x100, 16)], 32, .stall, false, .perst, 0, 0, 0, 0, [], 0⟩
  | .activeCores => ⟨0x102004, [(0x100, 16)], 32, .stall, false, .perst, 0, 0, 0, 0, [], 0⟩
  | .activeHitch => ⟨0x102008, [(0x100, 16)], 32, .stall, false, .perst, 0, 0, 0, 0, [], 0⟩
  | .activeBarrier => ⟨0x10200C, [(0x100, 16)], 32, .stall, false, .perst, 0, 0, 0, 0, [], 0⟩
  | .activePring => ⟨0x102010, [(0x100, 16)], 32, .stall, false, .perst, 0, 0, 0, 0, [], 0⟩
  | .activeSq => ⟨0x102014, [(0x100, 16)], 32, .stall, false, .perst, 0, 0, 0, 0, [], 0⟩
  | .activeCq => ⟨0x102018, [(0x100, 16)], 32, .stall, false, .perst, 0, 0, 0, 0, [], 0⟩
  | .activeRslot => ⟨0x10201C, [(0x100, 16)], 32, .stall, false, .perst, 0, 0, 0, 0, [], 0⟩
  | .activeHostBase => ⟨0x102020, [(0x100, 16)], 64, .stall, false, .perst, 0, 0, 0, 0, [], 0⟩
  | .activePwin => ⟨0x102040, [(0x8, 4), (0x100, 16)], 64, .stall, false, .perst, 0, 0, 0, 0, [], 0⟩
  | .activeDwin => ⟨0x102060, [(0x8, 8), (0x100, 16)], 64, .stall, false, .perst, 0, 0, 0, 0, [], 0⟩
  | .stallState => ⟨0x1020A0, [(0x100, 16)], 32, .stall, false, .perst, 0, 0, 0, 0, [], 0⟩
  | .sqTack => ⟨0x200008, [], 32, .stall, true, .flr, 0, 0, 0, 0, [], 0⟩
  | .hrnTack => ⟨0x20000C, [], 32, .stall, true, .flr, 0, 0, 0, 0, [], 0⟩
  | .sqCtl => ⟨0x210000, [(0x40, 1024)], 32, .stall, false, .flr, 0x3FF1F1D, 0, 0, 0x2, [], 0⟩
  | .sqBase => ⟨0x210008, [(0x40, 1024)], 64, .stall, false, .flr, 0xFFFFFFFFF000, 0, 0, 0, [], 0⟩
  | .sqTail => ⟨0x210010, [(0x40, 1024)], 32, .stall, false, .flr, 0xFFFF, 0, 0, 0, [], 0⟩
  | .sqHead => ⟨0x210014, [(0x40, 1024)], 32, .stall, false, .flr, 0, 0, 0, 0, [], 0⟩
  | .sqSeq => ⟨0x210018, [(0x40, 1024)], 64, .stall, false, .flr, 0xFFFFFFFFFFFFFFFF, 0, 0, 0, [], 0⟩
  | .sqStat => ⟨0x210020, [(0x40, 1024)], 64, .stall, false, .flr, 0, 0, 0, 0, [(0, 16), (16, 16), (32, 16)], 0⟩
  | .cqCtl => ⟨0x220000, [(0x40, 1024)], 32, .stall, false, .flr, 0x7FFF1F03, 0, 0, 0, [], 0⟩
  | .cqBase => ⟨0x220008, [(0x40, 1024)], 64, .stall, false, .flr, 0xFFFFFFFFF000, 0, 0, 0, [], 0⟩
  | .cqHead => ⟨0x220010, [(0x40, 1024)], 32, .stall, false, .flr, 0xFFFF, 0, 0, 0, [], 0⟩
  | .cqTail => ⟨0x220014, [(0x40, 1024)], 32, .stall, false, .flr, 0, 0, 0, 0, [], 0x10000⟩
  | .cqIrq => ⟨0x220018, [(0x40, 1024)], 32, .stall, false, .flr, 0xFFFFFFFF, 0, 0, 0, [], 0x1⟩
  | .hrnCtl => ⟨0x230000, [(0x20, 256)], 64, .stall, false, .perst, 0x1, 0, 0, 0, [], 0⟩
  | .taskCfg => ⟨0x240000, [(0x10, 16)], 64, .stall, false, .perst, 0xFFFF, 0, 0, 0, [], 0x10000002710⟩
  | .taskStat => ⟨0x240008, [(0x10, 16)], 64, .stall, false, .flr, 0, 0, 0, 0, [(32, 16)], 0⟩
  | .hitchTack => ⟨0x400008, [], 32, .stall, true, .flr, 0, 0, 0, 0, [], 0⟩
  | .hitchForce => ⟨0x400010, [], 32, .owner, false, .flr, 0x3FFF, 0, 0, 0x10000, [], 0⟩
  | .hitchForceValue => ⟨0x400018, [], 64, .owner, false, .flr, 0xFFFFFFFFFFFFFFFF, 0, 0, 0, [], 0⟩
  | .hitchCfg => ⟨0x401000, [(0x10, 16)], 64, .stall, false, .perst, 0xFFFFFFFFFFFF0001, 0, 0, 0, [], 0x271000FA0000⟩
  | .hitchStat => ⟨0x401008, [(0x10, 16)], 64, .stall, false, .flr, 0, 0, 0, 0, [(16, 16), (32, 16)], 0⟩
  | .barrierCtl => ⟨0x410000, [(0x10, 512)], 64, .stall, false, .flr, 0x3FFF03FF0001, 0, 0, 0, [], 0⟩
  | .barrierState => ⟨0x410008, [(0x10, 512)], 64, .stall, false, .flr, 0, 0, 0, 0, [], 0⟩
  | .streamTack => ⟨0x800008, [], 32, .stall, true, .flr, 0, 0, 0, 0, [], 0⟩
  | .streamQCtl => ⟨0x810000, [(0x10, 256)], 32, .stall, false, .flr, 0xFFFF0707, 0, 0, 0, [], 0⟩
  | .streamQStage => ⟨0x810004, [(0x10, 256)], 32, .stall, false, .flr, 0xFFF0FFF, 0, 0, 0, [], 0⟩
  | .streamQStat => ⟨0x810008, [(0x10, 256)], 64, .stall, false, .flr, 0, 0, 0x1000000000000, 0, [(16, 16)], 0⟩
  | .streamCause => ⟨0x820000, [(0x8, 8), (0x40, 32)], 64, .stall, false, .flr, 0, 0, 0, 0, [(0, 48)], 0⟩
  | .streamOverlap => ⟨0x820800, [(0x4, 32)], 32, .stall, false, .flr, 0, 0, 0, 0, [], 0⟩
  | .kvTack => ⟨0xC00008, [], 32, .stall, true, .flr, 0, 0, 0, 0, [], 0⟩
  | .kvPoolCtl => ⟨0xC10000, [(0x40, 16)], 64, .stall, false, .perst, 0x1FFFFFFFFF01, 0x1E, 0, 0, [], 0⟩
  | .kvPoolPages => ⟨0xC10008, [(0x40, 16)], 64, .stall, false, .perst, 0xFFFFFFFFFF00, 0, 0, 0, [], 0⟩
  | .kvPoolCount => ⟨0xC10010, [(0x40, 16)], 64, .stall, false, .perst, 0x1FFFF00FFFFFF, 0, 0, 0, [], 0⟩
  | .kvPoolSeq => ⟨0xC10018, [(0x40, 16)], 32, .stall, false, .perst, 0x3FFFF, 0, 0, 0, [], 0⟩
  | .kvPoolFree => ⟨0xC10020, [(0x40, 16)], 64, .stall, false, .perst, 0xFFFFFFFFFF00, 0, 0, 0, [], 0⟩
  | .kvPoolLimits => ⟨0xC10028, [(0x40, 16)], 64, .stall, false, .perst, 0xFFFFFFFF00FFFFFF, 0, 0, 0, [], 0⟩
  | .kvPoolStat => ⟨0xC10030, [(0x40, 16)], 64, .stall, false, .perst, 0, 0, 0, 0, [(32, 24)], 0⟩
  | .kvPoolStat2 => ⟨0xC10038, [(0x40, 16)], 64, .stall, false, .perst, 0, 0, 0, 0, [(0, 16), (16, 16)], 0⟩
  | .cmCfg => ⟨0x1000000, [(0x10000, 32)], 64, .stall, false, .flr, 0, 0x2, 0, 0, [], 0x4⟩
  | .cmConflictLog => ⟨0x1000010, [(0x10000, 32)], 64, .stall, false, .flr, 0, 0, 0x8000000000000000, 0, [], 0⟩
  | .cmConflictStamp => ⟨0x1000018, [(0x10000, 32)], 64, .stall, false, .flr, 0, 0, 0, 0, [], 0⟩
  | .cmConflictCount => ⟨0x1000020, [(0x10000, 32)], 32, .stall, false, .flr, 0, 0, 0, 0, [(0, 32)], 0⟩
  | .cmEccCount => ⟨0x1000030, [(0x10000, 32)], 32, .stall, false, .flr, 0, 0, 0, 0, [(0, 16), (16, 16)], 0⟩
  | .cmAccw => ⟨0x1000040, [(0x8, 4), (0x10000, 32)], 64, .stall, false, .flr, 0, 0, 0, 0, [], 0⟩
  | .ringTack => ⟨0x1800008, [], 32, .stall, true, .flr, 0, 0, 0, 0, [], 0⟩
  | .bridleTack => ⟨0x180000C, [], 32, .owner, true, .flr, 0, 0, 0, 0, [], 0⟩
  | .pdAccw0 => ⟨0x1801000, [(0x10, 64)], 64, .stall, false, .flr, 0, 0, 0, 0, [], 0⟩
  | .pdAccw1 => ⟨0x1801008, [(0x10, 64)], 64, .stall, false, .flr, 0, 0, 0, 0, [], 0⟩
  | .ringCtl => ⟨0x1810000, [(0x20, 2304)], 32, .stall, false, .flr, 0x1FFF0001, 0, 0, 0, [], 0⟩
  | .ringBase => ⟨0x1810008, [(0x20, 2304)], 64, .stall, false, .flr, 0xFFFFFF00, 0, 0, 0, [], 0⟩
  | .ringPtr => ⟨0x1810010, [(0x20, 2304)], 64, .stall, false, .flr, 0, 0, 0, 0, [], 0⟩
  | .ringStat => ⟨0x1810018, [(0x20, 2304)], 32, .stall, false, .flr, 0, 0, 0, 0, [(0, 13), (16, 16)], 0⟩
  | .bridleCtl => ⟨0x1840000, [(0x40, 36)], 32, .owner, false, .perst, 0x7F7F7F01, 0, 0, 0, [], 0⟩
  | .bridleFloor => ⟨0x1840008, [(0x40, 36)], 64, .owner, false, .perst, 0xFFFFFFFFFFFFFFFF, 0, 0, 0, [], 0⟩
  | .bridleCeil => ⟨0x1840010, [(0x40, 36)], 64, .owner, false, .perst, 0xFFFFFFFFFFFFFFFF, 0, 0, 0, [], 0⟩
  | .bridleState => ⟨0x1840018, [(0x40, 36)], 64, .owner, false, .perst, 0, 0, 0, 0, [], 0⟩
  | .bridleL3 => ⟨0x1840020, [(0x40, 36)], 64, .owner, false, .perst, 0, 0, 0, 0, [(0, 48)], 0⟩
  | .bridleCntCtl => ⟨0x1844000, [], 32, .owner, false, .perst, 0x1, 0, 0, 0x2, [], 0⟩
  | .bridleHoldLog => ⟨0x1844008, [], 64, .owner, false, .perst, 0, 0, 0x8000000000000000, 0, [], 0⟩
  | .bridleHoldCount => ⟨0x1844010, [], 32, .owner, false, .perst, 0, 0, 0, 0, [(0, 32)], 0⟩
  | .bridleLdq => ⟨0x1844020, [(0x4, 16)], 32, .owner, false, .perst, 0, 0, 0, 0, [], 0xFF00⟩
  | .bridleCls0 => ⟨0x1850000, [(0x10, 8), (0x100, 36)], 64, .owner, false, .perst, 0, 0, 0, 0, [(0, 48)], 0⟩
  | .bridleCls1 => ⟨0x1850008, [(0x10, 8), (0x100, 36)], 64, .owner, false, .perst, 0, 0, 0, 0, [(0, 32), (32, 32)], 0⟩
  | .bridleDreq0 => ⟨0x1858000, [(0x20, 87)], 64, .owner, false, .perst, 0, 0, 0, 0, [(0, 48)], 0⟩
  | .bridleDreq1 => ⟨0x1858008, [(0x20, 87)], 64, .owner, false, .perst, 0, 0, 0, 0, [(0, 48)], 0⟩
  | .bridleDreq2 => ⟨0x1858010, [(0x20, 87)], 64, .owner, false, .perst, 0, 0, 0, 0, [(0, 32), (32, 32)], 0⟩
  | .bridlePreq0 => ⟨0x185C000, [(0x20, 12), (0x200, 4)], 64, .owner, false, .perst, 0, 0, 0, 0, [(0, 48)], 0⟩
  | .bridlePreq1 => ⟨0x185C008, [(0x20, 12), (0x200, 4)], 64, .owner, false, .perst, 0, 0, 0, 0, [(0, 48)], 0⟩
  | .bridlePreq2 => ⟨0x185C010, [(0x20, 12), (0x200, 4)], 64, .owner, false, .perst, 0, 0, 0, 0, [(0, 32), (32, 32)], 0⟩
  | .bridlePreq3 => ⟨0x185C018, [(0x20, 12), (0x200, 4)], 64, .owner, false, .perst, 0, 0, 0, 0, [(0, 32)], 0⟩
  | .dcohBiCfg => ⟨0x1C04000, [], 32, .owner, false, .perst, 0x3FF, 0, 0, 0, [], 0x14⟩
  | .dcohSfStatus => ⟨0x1C04008, [], 64, .owner, false, .perst, 0, 0, 0, 0, [(32, 16)], 0⟩
  | .dcohBiCount => ⟨0x1C04010, [], 64, .owner, false, .perst, 0, 0, 0, 0, [(0, 32), (32, 32)], 0⟩
  | .dcohRaceLog => ⟨0x1C04018, [], 64, .owner, false, .perst, 0, 0, 0x2000, 0, [], 0⟩
  | .eccCfg => ⟨0x1C06000, [], 64, .owner, false, .perst, 0xFFFF00FFFFFF0003, 0, 0, 0, [], 0x400001801900003⟩
  | .eccStatus => ⟨0x1C06008, [], 64, .owner, false, .perst, 0, 0, 0, 0, [(0, 16), (16, 16), (32, 16), (48, 16)], 0⟩
  | .scrubStatus => ⟨0x1C06010, [], 64, .owner, false, .perst, 0, 0, 0x3000000000000, 0, [], 0⟩
  | .eccLog0 => ⟨0x1C06018, [], 64, .owner, false, .perst, 0, 0, 0x8000000000000000, 0, [], 0⟩
  | .eccLog1 => ⟨0x1C06020, [], 64, .owner, false, .perst, 0, 0, 0, 0, [], 0⟩
  | .dramChEcc => ⟨0x1C06100, [(0x8, 32)], 64, .owner, false, .perst, 0, 0, 0x1000000000000, 0, [(0, 32), (32, 16)], 0⟩
  | .rasLogCtl => ⟨0x2000000, [], 32, .owner, false, .perst, 0x7FFF7, 0, 0, 0, [], 0x4⟩
  | .rasLogPtr => ⟨0x2000008, [], 64, .stall, false, .cold, 0, 0, 0, 0, [], 0⟩
  | .rasCount => ⟨0x2000010, [], 64, .owner, false, .perst, 0, 0, 0, 0, [(0, 16), (16, 16), (32, 16), (48, 16)], 0⟩
  | .rasCpWdt => ⟨0x2000018, [], 32, .owner, false, .perst, 0xFFFF, 0, 0, 0, [], 0x64⟩
  | .rasRecovery => ⟨0x2000020, [], 64, .owner, false, .perst, 0, 0, 0, 0, [(0, 16), (16, 16), (32, 16), (48, 16)], 0⟩
  | .rasLogEntry => ⟨0x2001000, [(0x8, 8), (0x40, 1024)], 64, .stall, false, .cold, 0, 0, 0, 0, [], 0⟩
  | .reinChip => ⟨0x2100000, [], 32, .owner, false, .perst, 0xF, 0, 0, 0, [], 0⟩
  | .reinTack => ⟨0x2100008, [], 32, .owner, true, .flr, 0, 0, 0, 0, [], 0⟩
  | .reinRoute => ⟨0x2100010, [], 32, .owner, false, .perst, 0xFFFFFFFF, 0, 0, 0, [], 0⟩
  | .reinLimits => ⟨0x2100018, [], 32, .owner, false, .perst, 0xFFFFFFFF, 0, 0, 0, [], 0xA03E8⟩
  | .reinPortCtl => ⟨0x2100100, [(0x80, 2)], 32, .owner, false, .perst, 0xF, 0, 0, 0x30, [], 0⟩
  | .reinPortCred0 => ⟨0x2100108, [(0x80, 2)], 64, .owner, false, .perst, 0x1FFF1FFF1FFF, 0, 0, 0, [], 0xC0001000C00⟩
  | .reinPortCred1 => ⟨0x2100110, [(0x80, 2)], 64, .owner, false, .perst, 0x1FFF1FFF1FFF, 0, 0, 0, [], 0x30001000300⟩
  | .reinPortStat => ⟨0x2100118, [(0x80, 2)], 64, .owner, false, .perst, 0, 0, 0, 0, [(16, 16)], 0⟩
  | .reinPortErr => ⟨0x2100120, [(0x80, 2)], 64, .owner, false, .perst, 0, 0, 0, 0, [(0, 24), (24, 16), (40, 12), (52, 12)], 0⟩
  | .reinBind0 => ⟨0x2100400, [(0x10, 16)], 64, .owner, false, .perst, 0xFFFFFFFFFFFFFFFF, 0, 0, 0, [], 0⟩
  | .reinBind1 => ⟨0x2100408, [(0x10, 16)], 32, .owner, false, .perst, 0xFFFF, 0, 0, 0, [], 0⟩
  | .reinStallOut => ⟨0x2100600, [(0x4, 16)], 32, .owner, false, .perst, 0xFFFF, 0, 0, 0, [], 0⟩
  | .vrCtl => ⟨0x2200000, [], 32, .owner, false, .cold, 0x7, 0, 0, 0, [], 0x6A⟩
  | .fanCtl => ⟨0x2200004, [], 32, .owner, false, .cold, 0xFFFF03, 0, 0, 0, [], 0x551E00⟩
  | .vrTack => ⟨0x2200008, [], 32, .owner, true, .flr, 0, 0, 0, 0, [], 0⟩
  | .fanTack => ⟨0x220000C, [], 32, .owner, true, .flr, 0, 0, 0, 0, [], 0⟩
  | .thermCtl => ⟨0x2200010, [], 32, .owner, false, .cold, 0xFFFF01, 0, 0, 0, [], 0x6E6400⟩
  | .powerLimit => ⟨0x2200014, [], 32, .owner, false, .cold, 0xFFFF, 0, 0, 0, [], 0x4B78⟩
  | .vrOp => ⟨0x2200020, [(0x4, 4)], 32, .owner, false, .cold, 0x7FF03FF, 0, 0, 0, [], 0⟩
  | .vrPwm => ⟨0x2200030, [], 64, .owner, false, .cold, 0xFF007FFFFFFF7F, 0, 0, 0, [], 0x280028F0282814⟩
  | .vrPhase => ⟨0x2200038, [], 32, .owner, false, .cold, 0x3F, 0, 0, 0, [], 0x3F⟩
  | .vrStatus => ⟨0x2200040, [], 64, .stall, false, .perst, 0, 0, 0, 0, [(48, 16)], 0⟩
  | .vrAdapt => ⟨0x2200048, [], 32, .owner, false, .cold, 0xFFFFFF01, 0, 0, 0, [], 0xC063C01⟩
  | .vrStage => ⟨0x2200050, [], 32, .stall, false, .perst, 0, 0, 0, 0, [], 0⟩
  | .refCfg => ⟨0x2200060, [], 32, .owner, false, .cold, 0xFFF, 0, 0, 0, [], 0⟩
  | .refStatus => ⟨0x2200068, [], 64, .stall, false, .perst, 0, 0, 0, 0, [], 0⟩
  | .thermStatus => ⟨0x2200070, [], 64, .stall, false, .perst, 0, 0, 0, 0, [], 0⟩
  | .fanStatus => ⟨0x2200078, [], 32, .stall, false, .perst, 0, 0, 0x80000, 0, [], 0⟩
  | .powerStatus => ⟨0x2200080, [], 64, .stall, false, .perst, 0, 0, 0, 0, [], 0⟩
  | .mgmtStatus => ⟨0x2200100, [], 64, .owner, false, .cold, 0, 0, 0, 0, [], 0x64⟩
  | .gbOwner => ⟨0x2300000, [], 32, .stall, false, .perst, 0, 0, 0, 0, [], 0⟩
  | .gbOwnerCfg => ⟨0x2300004, [], 32, .owner, false, .cold, 0x3, 0, 0, 0x4, [], 0x1⟩
  | .gbTack => ⟨0x2300008, [], 32, .owner, true, .flr, 0, 0, 0, 0, [], 0⟩
  | .gbNonce => ⟨0x2300020, [(0x8, 4)], 64, .owner, false, .perst, 0, 0, 0, 0, [], 0⟩
  | .gbDebugCtl => ⟨0x2300040, [], 32, .owner, false, .perst, 0, 0, 0, 0x1, [], 0⟩
  | .gbToken => ⟨0x2300100, [(0x8, 20)], 64, .owner, false, .perst, 0, 0, 0, 0xFFFFFFFFFFFFFFFF, [], 0⟩
  | .dbgSession => ⟨0x2400000, [], 32, .owner, false, .flr, 0xF1, 0, 0, 0, [], 0⟩
  | .dbgAddr => ⟨0x2400008, [], 64, .owner, false, .perst, 0xFFFFFFFFFFFF, 0, 0, 0, [], 0⟩
  | .dbgData => ⟨0x2400010, [], 64, .owner, false, .perst, 0xFFFFFFFFFFFFFFFF, 0, 0, 0, [], 0⟩
  | .dbgCmd => ⟨0x2400018, [], 32, .owner, false, .perst, 0, 0, 0, 0xF, [], 0⟩
  | .dbgStatus => ⟨0x240001C, [], 32, .owner, false, .perst, 0, 0, 0, 0, [], 0⟩
  | .dbgHalt => ⟨0x2400020, [], 32, .owner, false, .perst, 0xFFFFFFFF, 0, 0, 0, [], 0⟩
  | .dbgStep => ⟨0x2400024, [], 32, .owner, false, .perst, 0, 0, 0, 0xFFFFFFFF, [], 0⟩
  | .dbgHalted => ⟨0x2400028, [], 32, .owner, false, .perst, 0, 0, 0, 0, [], 0⟩
  | .perfSel => ⟨0x2410000, [(0x40, 32)], 32, .stall, false, .flr, 0xFFFFFFFF, 0, 0, 0, [], 0⟩
  | .perfCnt => ⟨0x2410008, [(0x8, 4), (0x40, 32)], 64, .stall, false, .flr, 0, 0, 0, 0, [(0, 48)], 0⟩
  | .traceCtl => ⟨0x2420000, [(0x40, 16)], 32, .stall, false, .flr, 0x7FF1F01, 0, 0, 0, [], 0⟩
  | .traceBase => ⟨0x2420008, [(0x40, 16)], 64, .stall, false, .flr, 0xFFFFFFFFF000, 0, 0, 0, [], 0⟩
  | .tracePtr => ⟨0x2420010, [(0x40, 16)], 64, .stall, false, .flr, 0xFFFFFFFF, 0, 0, 0, [], 0⟩
  | .traceStat => ⟨0x2420018, [(0x40, 16)], 32, .stall, false, .flr, 0, 0, 0x10000, 0, [(0, 16)], 0⟩

/-- Names 0 to 47 of the map, in its order. -/
def Reg.all0 : List Reg :=
  [.devIdent, .devUid, .devCapMem, .devLink, .devReq, .devReqPresent, .devDramCap, .stageStatus, .stageCtl,
   .stageReason, .stageTimes, .stageEpochSil, .stageBist, .stageEpochMgmt, .stageEpochCtrl, .stageDrvHandshake,
   .stageDrvSummary, .tackLast, .tackCount, .tackAudit, .stallCommit, .stallEdit, .stallTack, .stallPolicy,
   .stallCapAssign, .stallCapStatus, .stallReset, .stagedCfg, .stagedCores, .stagedHitch, .stagedBarrier,
   .stagedPring, .stagedSq, .stagedCq, .stagedRslot, .stagedHostBase, .stagedPwin, .stagedDwin, .activeCfg,
   .activeCores, .activeHitch, .activeBarrier, .activePring, .activeSq, .activeCq, .activeRslot,
   .activeHostBase, .activePwin]

/-- Names 48 to 95 of the map, in its order. -/
def Reg.all1 : List Reg :=
  [.activeDwin, .stallState, .sqTack, .hrnTack, .sqCtl, .sqBase, .sqTail, .sqHead, .sqSeq, .sqStat, .cqCtl,
   .cqBase, .cqHead, .cqTail, .cqIrq, .hrnCtl, .taskCfg, .taskStat, .hitchTack, .hitchForce, .hitchForceValue,
   .hitchCfg, .hitchStat, .barrierCtl, .barrierState, .streamTack, .streamQCtl, .streamQStage, .streamQStat,
   .streamCause, .streamOverlap, .kvTack, .kvPoolCtl, .kvPoolPages, .kvPoolCount, .kvPoolSeq, .kvPoolFree,
   .kvPoolLimits, .kvPoolStat, .kvPoolStat2, .cmCfg, .cmConflictLog, .cmConflictStamp, .cmConflictCount,
   .cmEccCount, .cmAccw, .ringTack, .bridleTack]

/-- Names 96 to 143 of the map, in its order. -/
def Reg.all2 : List Reg :=
  [.pdAccw0, .pdAccw1, .ringCtl, .ringBase, .ringPtr, .ringStat, .bridleCtl, .bridleFloor, .bridleCeil,
   .bridleState, .bridleL3, .bridleCntCtl, .bridleHoldLog, .bridleHoldCount, .bridleLdq, .bridleCls0,
   .bridleCls1, .bridleDreq0, .bridleDreq1, .bridleDreq2, .bridlePreq0, .bridlePreq1, .bridlePreq2,
   .bridlePreq3, .dcohBiCfg, .dcohSfStatus, .dcohBiCount, .dcohRaceLog, .eccCfg, .eccStatus, .scrubStatus,
   .eccLog0, .eccLog1, .dramChEcc, .rasLogCtl, .rasLogPtr, .rasCount, .rasCpWdt, .rasRecovery, .rasLogEntry,
   .reinChip, .reinTack, .reinRoute, .reinLimits, .reinPortCtl, .reinPortCred0, .reinPortCred1, .reinPortStat]

/-- Names 144 to 185 of the map, in its order. -/
def Reg.all3 : List Reg :=
  [.reinPortErr, .reinBind0, .reinBind1, .reinStallOut, .vrCtl, .fanCtl, .vrTack, .fanTack, .thermCtl,
   .powerLimit, .vrOp, .vrPwm, .vrPhase, .vrStatus, .vrAdapt, .vrStage, .refCfg, .refStatus, .thermStatus,
   .fanStatus, .powerStatus, .mgmtStatus, .gbOwner, .gbOwnerCfg, .gbTack, .gbNonce, .gbDebugCtl, .gbToken,
   .dbgSession, .dbgAddr, .dbgData, .dbgCmd, .dbgStatus, .dbgHalt, .dbgStep, .dbgHalted, .perfSel, .perfCnt,
   .traceCtl, .traceBase, .tracePtr, .traceStat]

/-- Every register of the map. -/
def Reg.all : List Reg := Reg.all0 ++ Reg.all1 ++ Reg.all2 ++ Reg.all3

/-- The BAR0 offset of instance `i` of a register; a two-dimensional group counts its inner index first. -/
def Reg.off (r : Reg) (i : Nat) : Nat :=
  match r.row.dims with
  | [] => r.row.base
  | [(s, _)] => r.row.base + s * i
  | (s, c) :: (t, _) :: _ => r.row.base + s * (i % c) + t * (i / c)

/-- Instance index of the register `r` that byte offset `o` lies in, if it lies in `r`. -/
def Reg.index? (r : Reg) (o : Nat) : Option Nat :=
  let w := r.row.width / 8
  if o < r.row.base then none else
  let d := o - r.row.base
  match r.row.dims with
  | [] => if d < w then some 0 else none
  | [(s, c)] => if d / s < c && d % s < w then some (d / s) else none
  | (s, c) :: (t, e) :: _ =>
    let m := d % t
    if d / t < e && m / s < c && m % s < w then some (m / s + c * (d / t)) else none

/-- The register (and its index) in which a BAR0 byte offset lies; none: reserved space (R771). -/
def regAt (o : Nat) : Option (Reg × Nat) :=
  Reg.all.findSome? fun r => (r.index? o).map fun i => (r, i)

/-- The three order codes of R1. -/
inductive OrderCode where
  | p256 | a256 | p128
deriving DecidableEq, Repr

/-- Reset value of instance `i` of a register on a card (the whole-register column of section 3): the card's order
code and fused identity decide the registers marked "per card" and "fused". -/
def Reg.resetOn (order : OrderCode) (uid : BitVec 128) (r : Reg) (i : Nat) : BitVec 64 :=
  match r with
  | .devIdent =>
    match order with
    | .p256 => 0x48200121 | .a256 => 0x48200221 | .p128 => 0x48200321
  | .devUid => (uid >>> (64 * i)).setWidth 64
  | .devDramCap => if order = .p128 then 0x0000001C001001E0 else 0x0000001C002003C0
  | .taskCfg => if order = .p128 then 0x0000008000002710 else 0x0000010000002710
  | .ringCtl => if i < 2048 then 0 else 2
  | .bridleCtl => if i < 32 then 0x36261000 else 0
  | .bridleFloor =>
    if i < 32 then 0x0104040810207938 else if i < 34 then 0x0000000810204040 else 0x0004000810200840
  | .bridleCeil => if 32 ≤ i && i < 34 then 0 else 0x0080000000000000
  | .vrOp => match i with
    | 0 => 0x01900226 | 1 => 0x028A026C | 2 => 0x038402D0 | _ => 0x044C0320
  | _ => r.row.reset

end Sys2Proof.Machine
end

