-- ==== Sys2Proof/Machine/State.lean ====
section
/-! DEFINITION. The state of the GJ-4820 card as plain data: every register, memory, queue, counter, mode and
environment fact the spec gives the block, and the queue of waiting commands. Sparse tables (Machine/Tables.lean)
list only what differs from its default. -/

namespace Sys2Proof.Machine

open Sys2Proof

/-- What the card is: its order code (R1), fused identity (section 4 of spec/23_register_map.md) and card
configuration record (R786). Nothing changes it. -/
structure Card where
  order   : OrderCode
  uid     : BitVec 128
  /-- VR_STAGE.DT_FLOOR of the card configuration record -/
  dtFloor : BitVec 7
  /-- MGMT_STATUS.SMB_ADDR of the card configuration record -/
  smbAddr : BitVec 7
  /-- fused minimum SVN of MGMT and of CTRL images (R61) -/
  svnMgmt : Nat
  svnCtrl : Nat
deriving DecidableEq, Repr

/-- The fault machinery beside the RAS registers (R681 to R698). -/
structure Ras where
  /-- PERST# and class A resets since cold power-on (R682 RESETS) -/
  resets     : Nat
  /-- log slots read since they were written (RAS_LOG_PTR.OVERWRITTEN) -/
  readSlots  : List Nat
  /-- the latest class D entry: slot, and its (code, stall, addr, time in µs) for R684 -/
  lastD      : Option (Nat × Nat × Option Nat × Nat × Nat)
  /-- recent times in ns of core resets (core, time), CP resets, Ostler self-resets and class A resets (R698) -/
  coreTimes  : List (Nat × Nat)
  cpTimes    : List Nat
  ostTimes   : List Nat
  aTimes     : List Nat
  /-- a class A fault has begun its internal reset, at this time (R676) -/
  internalReset : Option Nat
  /-- the CP is held in reset until the CTRL image runs again (R693), with commands owed CP_RESET -/
  cpInReset  : Bool
  /-- a CP reset waits for the MGMT image (R694), with its reason -/
  cpWaiting  : Option Nat
  /-- last liveness report of the CTRL image, and last kick of the Ostler watchdog, in ns -/
  cpAlive    : Nat
  ostAlive   : Nat
  /-- Ostler restarts (R696) -/
  ostlerDown : Bool
  /-- Ostler stays in its boot ROM (R698) -/
  ostlerHeld : Bool
deriving DecidableEq, Repr

/-- The start-up machinery beside the STAGE registers (chapter 2). -/
structure Stage where
  /-- images of slot pairs A and B in flash (R59) -/
  mgmtA : Image
  ctrlA : Image
  mgmtB : Image
  ctrlB : Image
  /-- boot pair record: pair (true: B) and sequence number (R63) -/
  bootB   : Bool
  bootSeq : Nat
  /-- the stored DRAM training record passes its check (R44, R45), and a channel that fails training (R46) -/
  trainValid : Bool
  trainFail  : Option Nat
  /-- PERST# asserted, and the time it last deasserted -/
  perst   : Bool
  perst1  : Bool
  perstAt : Nat
  /-- time that full training took beyond the restore (R45), ns -/
  trainExtra : Nat
  /-- MGMT and CTRL images verified, and the times they were started -/
  mgmtVerified : Bool
  mgmtStart    : Option Nat
  ctrlVerified : Bool
  ctrlStart    : Option Nat
  /-- the CTRL image has been copied into device-reserved DRAM (R51) -/
  ctrlCopied : Bool
  bistDone   : Bool
  /-- reasons outstanding, (CODE, DETAIL): MGMT, VR, CTRL and driver codes of R81 -/
  mgmtReason : Option (Nat × Nat)
  vrReason   : Option Nat
  ctrlReason : Option (Nat × Nat)
  drvReason  : Option (Nat × Nat)
  /-- a fallback is in progress (R73); the device holds after a failed fallback (R74) -/
  fallback   : Bool
  heldFailed : Bool
  /-- an Owner restage is in progress -/
  restaging  : Bool
  /-- compute-fence causes in force (R23, R680), strictly rising -/
  fences     : List Nat
  /-- requesters whose handshake copy has been written (R69) -/
  hsWritten  : List Nat
  /-- an F1 function-level reset has not ended: the CTRL image does not run yet (R77) -/
  flr        : Bool
  /-- when the MGMT image last reported itself running -/
  mgmtUpAt   : Nat
deriving DecidableEq, Repr

/-! ## Host link (chapter 3) -/

/-- A region-0 or region-1 extent (R110). -/
structure Extent where
  id      : Nat
  blocks  : List Nat
  region  : Nat
  /-- requesters it is or will be offered to, and those that hold it -/
  offered : List Nat
  holders : List Nat
  /-- zero fill done, and the offering event posted (R112) -/
  posted  : Bool
  /-- key slot of a region 1 extent (R199) -/
  slot    : Nat
deriving DecidableEq, Repr

/-- Kinds of CXL event record (R126). -/
inductive EventKind where
  | generalMedia | dram | memoryModule | dynamicCapacity
deriving DecidableEq, Repr

/-- An event record: its kind and the physical offset, extent or fault code it concerns. -/
structure EventRec where
  kind  : EventKind
  about : Nat
deriving DecidableEq, Repr

/-- The mailbox of one requester (R123): four logs of at most 32 records (Informational 0, Warning 1, Failure 2,
Fatal 3), oldest first, with overflow counts. -/
structure Mailbox where
  logs      : List (Nat × List EventRec)
  overflow  : List (Nat × Nat)
  policy    : Word32
  /-- timestamp offset in ns against the card's time, once set -/
  stampSet  : Option (Nat × Nat)
  alert     : Word
  /-- a Sanitize in progress in the background -/
  sanitize  : Bool
  /-- results of the last media scan: poisoned physical offsets -/
  scan      : Option (List Nat)
deriving DecidableEq, Repr

/-- A mailbox after reset. -/
def Mailbox.reset : Mailbox :=
  { logs := [], overflow := [], policy := 0, stampSet := none, alert := 0, sanitize := false, scan := none }

/-- The host side of the card beside the DEV registers. -/
structure Link where
  /-- the LINK_MODE jumper selects 2 × x8 (R85); the link partner is a switch port that negotiates MLD (R86);
  REFCLK1 is present (R87) -/
  jumper2x8  : Bool
  partnerMld : Bool
  refclk1    : Bool
  /-- LDs bound in MLD mode -/
  bound      : List Nat
  /-- static capacity: (first block, count, holder); the first matching row decides; none: device-only (R103) -/
  held       : List (Nat × Nat × Option Nat)
  /-- static capacity as assigned for the next requester resets (R104) -/
  assigned   : List (Nat × Nat × Option Nat)
  extents    : List Extent
  nextExtent : Nat
  /-- mailboxes by requester -/
  mbox       : List (Nat × Mailbox)
  /-- requesters whose CXL.cachemem IDE stream is secure, and those whose stream is Insecure (R121) -/
  ideSecure  : List Nat
  ideFailed  : List Nat
  /-- requesters whose BI decoder is committed and enabled (R141) -/
  biEnabled  : List Nat
  /-- F1 is in D3hot (R136) -/
  f1D3       : Bool
  /-- per-LD QoS allocation and limit fractions and the QoS control word (R118, R756) -/
  qosCtl     : Word
deriving DecidableEq, Repr

/-! ## Coherence (chapter 4) -/

/-- A snoop-filter entry (section 2.1): the line (physical offset / 64), its state (E or S), holders, POISON_PEND,
its way and the order of its allocation. -/
structure SfEntry where
  line    : Nat
  excl    : Bool
  present : List Nat
  poison  : Bool
  slice   : Nat
  set     : Nat
  way     : Nat
  born    : Nat
deriving DecidableEq, Repr

/-- A scalar access to DRAM that waits in the order stage: core, context, task, physical offset, bytes; the data of a
store, or sign extension of a load. -/
structure DevAcc where
  core : Nat
  ctx  : Nat
  task : Option Nat
  a    : Nat
  n    : Nat
  data : Word
  poison : Bool
  sx   : Bool
  store : Bool
deriving DecidableEq, Repr

/-- What waits in the order stage for a line (R151). -/
inductive DReqKind where
  | hostRd (req dpa : Nat) (mv : MetaValue)
  | hostWr (req dpa : Nat) (mv : MetaValue) (data : Line64) (poison : Bool)
  /-- a device-engine access of the line by fabric port `sub`: a scalar access with its operation, or a bulk access
  that waits for the line only -/
  | dev (sub : Nat) (write : Bool) (acc : Option DevAcc)
  /-- snoops of a requester's lines before a release takes effect (R162) -/
  | release (req ext : Nat)
deriving DecidableEq, Repr

/-- A queued request: its kind, arrival in NCLK, and tie key (R152). -/
structure DReq where
  kind    : DReqKind
  arrival : Nat
  ingress : Nat
  sub     : Nat
deriving DecidableEq, Repr

/-- A line tracker: its queue in service order, the snoops still unanswered (requester, kind, time sent), whether the
snoops of the request at its head have all been answered, whether the snoops are a capacity eviction's, and the
requesters whose BIConflict waits for the completion of their own request (R150). -/
structure Tracker where
  queue    : List DReq
  snoops   : List (Nat × BiSnp × Nat)
  asked    : Bool
  evict    : Bool
  conflict : List Nat
deriving DecidableEq, Repr

/-- A tracker with nothing in it. -/
def Tracker.idle : Tracker := { queue := [], snoops := [], asked := false, evict := false, conflict := [] }

/-- DCOH beside its registers. -/
structure Dcoh where
  filter   : List SfEntry
  born     : Nat
  trackers : List (Nat × Tracker)
  /-- the line whose eviction a line's first request waits for (R145) -/
  waitsFor : List (Nat × Nat)
  /-- timed-out snoops whose late answers are ignored (requester, line) (R166) -/
  late     : List (Nat × Nat)
  /-- line and time of the latest writeback by an E holder (DCOH_RACE_LOG.WRITEBACK) -/
  lastWb   : Option (Nat × Nat)
deriving DecidableEq, Repr

/-! ## Stalls and the Glovebox (chapter 5) -/

/-- An SPDM session of a requester: its identifier, its requester root key, whether it is the host Owner session, and the
time of the last message. -/
structure Session where
  id     : Nat
  req    : Nat
  key    : Nat
  mutual_ : Bool
  owner  : Bool
  last   : Nat
deriving DecidableEq, Repr

/-- A commit whose tack check accepted (R189): the staged copy it applies (by offset in the copy), the stalls whose
key is renewed, the stalls that lose something, and its start. -/
structure Commit where
  next  : List (Nat × Word)
  rekey : List Nat
  losing : List Nat
  since : Nat
deriving DecidableEq, Repr

/-- The Glovebox and the stall table's machinery beside their registers. -/
structure Glovebox where
  /-- Owner record: the Owner root key, none while unclaimed (R175) -/
  ownerKey   : Option Nat
  sessions   : List Session
  /-- key generation of each key slot (R198) -/
  keyGen     : List (Nat × Nat)
  /-- debug nonces drawn from the TRNG (R207) -/
  draws      : Nat
  commit     : Option Commit
  /-- stall resets that wait for a commit (R197) -/
  resetWait  : List Nat
  /-- the TRNG has passed its start-up health tests (R226) -/
  trngOk     : Bool
deriving DecidableEq, Repr

/-! ## The tack check (chapter 6) -/

/-- A check waiting or running in a block (R219): instance, bank, and whether a write of 0 to ENABLE waits for its
end (R214). The state it examines is that at its start, in `code` and `field`, worked out there (R213). -/
structure Check where
  inst    : Nat
  bank    : Nat
  started : Bool
  code    : Nat
  field   : Nat
  off     : Bool
deriving DecidableEq, Repr

/-- The checks of each block by block code, in order, and the audit in progress (R230). -/
structure Tack where
  queues : List (Nat × List Check)
  audit  : Option Nat
deriving DecidableEq, Repr

/-! ## Queues, results and tasks (chapter 15) -/

/-- A completion (R536), as retained and as posted. -/
structure Cpl where
  seq    : Nat
  status : Nat
  detail : Nat
  task   : Nat
  result : Nat
  rslot  : Bool
deriving DecidableEq, Repr

/-- Where a KV_COMMIT stands (R602): indices left, sequences committed and skipped, pages evicted, the first skipped
index, and the sequence being committed. -/
structure KvRun where
  todo    : List Nat
  done    : Nat
  skipped : Nat
  evicted : Nat
  first   : Option Nat
  cur     : Option Nat
deriving DecidableEq, Repr

/-- An accepted command (R526) that has not completed. -/
structure Cmd where
  seq     : Nat
  op      : Nat
  fence   : Bool
  first   : Line64
  inline_ : List (BitVec 384)
  req     : Nat
  started : Bool
  /-- the absolute result slot assigned to it (R546) -/
  slot    : Option Nat
  /-- the task it started or names; for HRN_LOAD, the entry whose check it waits for -/
  task    : Option Nat
  run     : Option KvRun
deriving DecidableEq, Repr

/-- The CP's side of an SQ. -/
structure Sq where
  /-- records of the command being assembled, oldest first, and the requester of its doorbell (R529) -/
  asm      : List Line64
  asmReq   : Nat
  accepted : List Cmd
  /-- retention window, newest first, at most 256 (R532) -/
  retained : List Cpl
  /-- duplicates to re-post after their original (R532) -/
  dups     : List Nat
  /-- flushes whose FLUSH_DONE waits for a place: count, highest and lowest SEQ (R533, R538) -/
  flushes  : List (Nat × Nat × Nat)
  /-- its CQE_DROPPED entry has been made (R541) -/
  dropped  : Bool
deriving DecidableEq, Repr

/-- An SQ just enabled. -/
def Sq.reset : Sq :=
  { asm := [], asmReq := 0, accepted := [], retained := [], dups := [], flushes := [], dropped := false }

/-- The CP's side of a CQ: records since the last interrupt, and the time of the first (R540). -/
structure Cq where
  since    : Nat
  firstAt  : Option Nat
deriving DecidableEq, Repr

/-- A CQ just enabled. -/
def Cq.reset : Cq := { since := 0, firstAt := none }

/-- What a task is doing (R552 to R563). -/
inductive TaskPhase where
  /-- accepted, waiting for its cores -/
  | waiting
  | running
  /-- asked to park (R559) -/
  | parking
  | saved
  /-- faulted or cut off; the abort sequencer has not finished (R688) -/
  | aborting
deriving DecidableEq, Repr

/-- A task (R551). -/
structure Task where
  id       : Nat
  stall    : Nat
  sq       : Nat
  seq      : Nat
  entry    : Nat
  team     : List Nat
  phase    : TaskPhase
  args     : Nat
  resAddr  : Nat
  limitMs  : Nat
  /-- ns run before the current run, and the start of the current run -/
  ranNs    : Nat
  startNs  : Nat
  /-- status it will complete with when aborted, and its fault-log entry -/
  abort    : Option (Nat × Nat)
  /-- resumed at least once (c8.RESUMED) -/
  resumed  : Bool
  /-- hitch set: pool hitches its operations named (R473) -/
  hitches  : List Nat
  /-- bytes of its save frame -/
  frame    : Nat
  /-- SQ and SEQ of each TASK_RESUME that has restarted it -/
  resume   : List (Nat × Nat)
  /-- SQ and SEQ of the TASK_PREEMPT outstanding, and of a TASK_KILL -/
  preempt  : Option (Nat × Nat)
  kill     : Option (Nat × Nat)
  /-- what was saved of it; and whether a commit has taken a core from it since -/
  saved    : Option Frame
  cut      : Bool
  /-- Paddock accumulator-window entries it uses -/
  accw     : List Nat
  /-- (core, chip) pairs that reserved at a remote chip since dispatch (R666) -/
  remote   : List (Nat × Nat)
  /-- inline arguments owed at the start (R534) -/
  inline_  : List (BitVec 384)
deriving DecidableEq, Repr

/-- Queues and tasks beside their registers. -/
structure Queues where
  sqs     : List (Nat × Sq)
  cqs     : List (Nat × Cq)
  /-- the SQ served last in each priority (R521) -/
  last    : List (Nat × Nat)
  /-- TASK_RUN commands accepted by each stall since it became valid (R551) -/
  counts  : List (Nat × Nat)
  tasks   : List Task
  /-- result slots: STATE, STATUS, GEN, SEQ of each slot; its DATA is in memory (R543) -/
  slots   : List (Nat × Word × Word)
deriving DecidableEq, Repr

/-! ## The KV store (chapter 16) -/

/-- A sequence-table entry (R577); HOLDS as the tasks that hold it, and the positions of the step's first append. -/
structure KSeq where
  length   : Nat
  pages    : Nat
  tailFill : Nat
  pending  : Nat
  list     : Nat
  pool     : Nat
  stall    : Nat
  bucket   : Nat
  valid    : Bool
  poisoned : Bool
  committing : Bool
  cap      : Nat
  anchor   : Nat
  recent   : Nat
  budget   : Nat
  holders  : List Nat
  step     : Nat
  lastpos  : Nat
  /-- layers that have appended, ascending -/
  appended : List Nat
  pendlast : Nat
  pendPos  : List Nat
deriving DecidableEq, Repr

/-- An entry of zeros. -/
def KSeq.closed : KSeq :=
  { length := 0, pages := 0, tailFill := 0, pending := 0, list := 0, pool := 0, stall := 0, bucket := 0, valid := false
    poisoned := false, committing := false, cap := 0, anchor := 0, recent := 0, budget := 0, holders := [], step := 0
    lastpos := 0, appended := [], pendlast := 0, pendPos := [] }

/-- The KVU beside its registers: the sequence table, and the position of each pool's free-list head. -/
structure Kv where
  seqs  : List (Nat × KSeq)
  heads : List (Nat × Nat)
deriving DecidableEq, Repr

/-! ## The Bridle (chapter 17) and the scrubbers (chapter 9) -/

/-- A burst that holds an arbiter (R618): its source, task and stall, beats that have not passed, the DRAM offset of the
next beat of a write, and the NCLK of its grant. -/
structure Burst where
  src   : Nat
  task  : Option Nat
  stall : Option Nat
  left  : Nat
  write : Option Nat
  since : Nat
deriving DecidableEq, Repr

/-- The arbiters beside their registers: held bursts by arbiter; beats granted in the current window by arbiter × 8 +
class; the source granted last by arbiter × 64 + class × 8 + priority; beats granted to each LD in the current interval
by channel × 16 + LD; and the start of that interval. -/
structure Bridle where
  held : List (Nat × Burst)
  wins : List (Nat × Nat)
  last : List (Nat × Nat)
  ld   : List (Nat × Nat)
  ldAt : Nat
deriving DecidableEq, Repr

/-- An uncorrectable error that a prefetch met, not recorded yet (R327): queue (core × 8 + queue), staging line, memory
(as ECC_LOG.MEM), core and address. -/
structure StagedErr where
  q    : Nat
  line : Nat
  mem  : Nat
  who  : Nat
  addr : Nat
deriving DecidableEq, Repr

/-- The scrubbers (R337, R340): 0 to 31 a core's, 32 to 35 a Paddock slice's, 36 the hitch store's, 64 + c channel c's
patrol. Next line, passes completed, start of the current pass, and those whose pass has been reported late. -/
structure Scrub where
  pos    : List (Nat × Nat)
  passes : List (Nat × Nat)
  began  : List (Nat × Nat)
  late   : List Nat
  /-- errors that wait for their staged data to be committed or discarded -/
  held   : List StagedErr
deriving DecidableEq, Repr

/-! ## Power, references, thermal and fan (chapters 21 and 24) -/

/-- A phase of the VDD_CORE regulator: carry in delay-line steps, periods skipped in a row and the latest on-time
(R712); periods in a row in which the cycle-by-cycle limit acted on its high-side and on its low-side leg, and whether
it has acted in the current one (R715, R717). -/
structure Phase where
  carry : Int
  skips : Nat
  on    : Nat
  hs    : Nat
  ls    : Nat
  hsNow : Bool
  lsNow : Bool
deriving DecidableEq, Repr

/-- A phase at rest. -/
def Phase.idle : Phase := { carry := 0, skips := 0, on := 0, hs := 0, ls := 0, hsNow := false, lsNow := false }

/-- The POWER functions beside their registers. Times are in ns. -/
structure Power where
  /-- rails up, in the order of R790: 0 the card is off, 3 only the Ostler island's, 7 all -/
  rails      : Nat
  /-- 12V_B is below its threshold (R788) -/
  undervolt  : Bool
  /-- VDD_CORE stays off until RESTAGE or PERST# (R719, R720, R722) -/
  latched    : Bool
  /-- a power-good fault that waits for its ramp, and whether the ramp has been made (R720) -/
  pgFaultAt  : Option Nat
  retried    : Bool
  phases     : List (Nat × Phase)
  /-- leg faults: phase and time (R719) -/
  legFaults  : List (Nat × Nat)
  /-- an OP change in progress: its target and the earliest time at which it completes (R725) -/
  target     : Option (Nat × Nat)
  /-- thermal and power caps, 3 none; the last change of the thermal cap (R733, R737) -/
  capThermal : Nat
  capPower   : Nat
  capAt      : Nat
  /-- since when the junction has been below WARN − 5 °C -/
  coolAt     : Option Nat
  /-- frozen sensors that convert again, and since when (R735) -/
  thaw       : List (Nat × Nat)
  /-- since when card power has been below the effective limit − 10 W, and the latest average's time (R737) -/
  lowAt      : Option Nat
  powerAt    : Option Nat
  /-- the latest step of ADAPT, and the latest droop alarm (R726, R727) -/
  adaptAt    : Option Nat
  droopAt    : Option Nat
  /-- since when the deviation and the disagreement have been within their removal limits (R729, R731) -/
  clkOkAt    : Option Nat
  vrefWarnOk : Option Nat
  vrefFenceOk : Option Nat
  /-- the fan is to start; the time its state was entered or its duty last set; tach edges are back since (R739, R741) -/
  fanWant    : Bool
  fanAt      : Nat
  tachBackAt : Option Nat
  /-- what the LEDs showed when Ostler began to restart (R801) -/
  leds       : List Nat
deriving DecidableEq, Repr

/-- The POWER functions at cold power-on, every rail good. -/
def Power.cold : Power :=
  { rails := 7, undervolt := false, latched := false, pgFaultAt := none, retried := false, phases := [], legFaults := []
    target := none, capThermal := 3, capPower := 3, capAt := 0, coolAt := none, thaw := [], lowAt := none, powerAt := none
    adaptAt := none, droopAt := none, clkOkAt := none, vrefWarnOk := none, vrefFenceOk := none, fanWant := false, fanAt := 0
    tachBackAt := none, leds := [] }

/-! ## Management and debug (chapter 22) -/

/-- A PLDM firmware update in progress (R752, R753): the pair it writes (true: B), the components of its package, the
component being transferred, those written, and the time of the agent's latest request. -/
structure Update where
  pairB  : Bool
  comps  : List Nat
  cur    : Option Nat
  done   : List Nat
  last   : Nat
deriving DecidableEq, Repr

/-- Ostler's endpoints and an Owner debug access in progress. -/
structure Mgmt where
  tid     : Nat
  update  : Option Update
  /-- what was last reported of each event source: sensor and value; and events not acknowledged: sensor, times sent and
  time of the latest (R758) -/
  seen    : List (Nat × Nat)
  unacked : List (Nat × Nat × Nat)
  /-- a debug access that has not been performed: DBG_CMD, its address and its start (R767) -/
  dbg     : Option (Nat × Nat × Nat)
deriving DecidableEq, Repr

/-- Nothing in progress. -/
def Mgmt.idle : Mgmt := { tid := 0, update := none, seen := [], unacked := [], dbg := none }

/-! ## What the card shows outside -/

/-- Return codes of the mailbox and of the FM API (R123, R141, R182, R200). -/
inductive RetCode where
  | success | background | unsupported | invalidInput | invalidSecurityState | resourcesExhausted | busy | retryRequired
deriving DecidableEq, Repr

/-- What leaves the card: completions, responses, messages, interrupts, link events. -/
inductive Out where
  /-- a BAR read's completion, with its data and its EP bit -/
  | read (req off size : Nat) (val : Nat) (ep : Bool)
  /-- a configuration completion: normal, or Request Retry Status (R43) -/
  | config (req fn : Nat) (retry : Bool)
  /-- an S2M response (R147): data, poison, and the Cmp form granted -/
  | memData (req dpa : Nat) (data : Line64) (poison : Bool) (granted : MetaValue)
  | memCmp (req dpa : Nat)
  | bisnp (req line : Nat) (kind : BiSnp)
  | biConflictAck (req line : Nat)
  /-- a write to, or read request of, host memory through a requester's link (R132) -/
  | hostWrite (req addr : Nat) (data : List Byte) (ep : Bool)
  | hostRead (req addr len : Nat)
  | msix (req vec : Nat)
  | mailbox (req : Nat) (ret : RetCode) (data : List Nat)
  | event (req log : Nat) (rec : EventRec)
  /-- an answer of the Glovebox's SPDM responder: accepted, or an SPDM error by name -/
  | spdm (req : Nat) (ok : Bool) (data : List Nat)
  | fmApi (ret : RetCode) (data : List Nat)
  /-- an MCTP control or PLDM response: message code, completion code, data -/
  | mgmt (code cc : Nat) (data : List Nat)
  | viral (head : Nat)
  | aer (head : Nat)
  | linkDown (head : Nat)
  /-- a Rein flit or message sent at a port -/
  | rein (port kind : Nat) (data : List Nat)
  /-- an arbiter supplied the remaining beats of a burst as poison (R619) -/
  | burstEnded (arb left : Nat)
deriving DecidableEq, Repr

/-- Why a step stops. The card itself never stops on a command: a command that finds nothing to do leaves the state
as it is, and every error the spec describes is recorded by the card. -/
inductive Fault where
  /-- raised by no meaning; safe -/
  | none_
deriving DecidableEq, Repr

/-- Why a command is turned away by the model. -/
inductive Refusal where
  /-- the model gives the command no meaning yet; raised by the dispatch table only; safe -/
  | notModelled (mnemonic : String)
deriving DecidableEq, Repr

/-- The whole card. -/
structure State where
  card    : Card
  /-- NCLK (ns) since cold power-on -/
  now     : Nat
  /-- commands waiting, first in, first out -/
  pending : List Instr
  /-- registers by BAR0 offset, banked copies at bank × 2^32 above (R221); unlisted: the reset value -/
  regs    : List (Nat × Word)
  /-- held low halves (requester, offset, value) and captures (requester, offset, high half) (R8, R9, R779) -/
  lows    : List (Nat × Nat × Word32)
  caps    : List (Nat × Nat × Word32)
  /-- every byte memory of the card, by the map of Machine/Ops.lean -/
  mem     : List Host.Cell
  /-- poisoned 64-bit words of on-chip memory (byte address / 8), poisoned codewords of DRAM (physical offset / 64),
  and the full slots of A-regions and Paddock (byte address / 256) -/
  poison  : List Nat
  dpoison : List Nat
  full    : List Nat
  /-- what DRAM reads as where nothing is listed: (first block, count, 0: zeros, g + 1: free values of generation g) -/
  dbase   : List (Nat × Nat × Nat)
  /-- free values drawn (the model's own counter) -/
  free    : Nat
  /-- what left the card, newest first -/
  out     : List Out
  ras     : Ras
  stage   : Stage
  link    : Link
  dcoh    : Dcoh
  gb      : Glovebox
  tack    : Tack
  q       : Queues
  kv      : Kv
  bridle  : Bridle
  scrub   : Scrub
  pw      : Power
  mgmt    : Mgmt
  cx      : Complex
deriving DecidableEq, Repr

/-! ## Cold power-on -/

/-- The fault machinery at cold power-on. -/
def Ras.cold : Ras :=
  { resets := 0, readSlots := [], lastD := none, coreTimes := [], cpTimes := [], ostTimes := [], aTimes := []
    internalReset := none, cpInReset := false, cpWaiting := none, cpAlive := 0, ostAlive := 0, ostlerDown := false
    ostlerHeld := false }

/-- The start-up machinery before any image is verified, PERST# asserted. -/
def Stage.cold (mgmtA ctrlA mgmtB ctrlB : Image) (bootB : Bool) (bootSeq : Nat) (trainValid : Bool) : Stage :=
  { mgmtA := mgmtA, ctrlA := ctrlA, mgmtB := mgmtB, ctrlB := ctrlB, bootB := bootB, bootSeq := bootSeq
    trainValid := trainValid, trainFail := none, perst := true, perst1 := true, perstAt := 0, trainExtra := 0
    mgmtVerified := false, mgmtStart := none, ctrlVerified := false, ctrlStart := none, ctrlCopied := false
    bistDone := false, mgmtReason := none, vrReason := none, ctrlReason := none, drvReason := none, fallback := false
    heldFailed := false, restaging := false, fences := [], hsWritten := [], flr := false, mgmtUpAt := 0 }

/-- Static capacity at cold power-on (R103). -/
def coldHeld (order : OrderCode) (jumper2x8 mld : Bool) : List (Nat × Nat × Option Nat) :=
  let n := if order = .p128 then 464 else 928
  if jumper2x8 then [(0, n / 2, some 0), (n / 2, n / 2, some 1)]
  else if mld then []
  else [(0, n, some 0)]

/-- The host side at cold power-on. -/
def Link.cold (order : OrderCode) (jumper2x8 partnerMld refclk1 : Bool) : Link :=
  { jumper2x8 := jumper2x8, partnerMld := partnerMld, refclk1 := refclk1, bound := []
    held := coldHeld order jumper2x8 partnerMld, assigned := coldHeld order jumper2x8 partnerMld, extents := []
    nextExtent := 0, mbox := [], ideSecure := [], ideFailed := [], biEnabled := [], f1D3 := false, qosCtl := 0 }

/-- DCOH with nothing tracked. -/
def Dcoh.idle : Dcoh := { filter := [], born := 0, trackers := [], waitsFor := [], late := [], lastWb := none }

/-- The Glovebox with no session, for an Owner record. -/
def Glovebox.cold (ownerKey : Option Nat) (draws : Nat) : Glovebox :=
  { ownerKey := ownerKey, sessions := [], keyGen := [], draws := draws, commit := none, resetWait := [], trngOk := true }

/-- No check waits or runs. -/
def Tack.idle : Tack := { queues := [], audit := none }

/-- No queue holds a command and no task exists. -/
def Queues.idle : Queues := { sqs := [], cqs := [], last := [], counts := [], tasks := [], slots := [] }

/-- No burst is held. -/
def Bridle.idle : Bridle := { held := [], wins := [], last := [], ld := [], ldAt := 0 }

/-- No pass of a scrubber has begun. -/
def Scrub.idle : Scrub := { pos := [], passes := [], began := [], late := [], held := [] }

/-- Blocks of device DRAM after inline ECC (DEV_DRAM_CAP.BLOCKS_USABLE). -/
def dramBlocks (order : OrderCode) : Nat := if order = .p128 then 480 else 960

/-- The card right after the release of cold reset (R791): every register at its reset value, but for the fields that
come from the Owner record, the boot pair record and the jumper; on-chip memory zero; DRAM free values under new keys
(R76, R201). -/
def State.cold (card : Card) (stage : Stage) (link : Link) (ownerKey : Option Nat) (fmTrust vendorDebug : Bool)
    (free draws : Nat) (pending : List Instr) (out : List Out) : State :=
  { card := card, now := 0, pending := pending
    regs := (if link.jumper2x8 then [(0x100, 2)] else if link.partnerMld then [(0x100, 1)] else [])
      ++ (if stage.bootB then [(0x10000, 0x10), (0x10004, 6)] else [])
      ++ (if ownerKey.isSome then [(0x2300000, 1)] else [])
      ++ (if fmTrust && !vendorDebug then [] else
          [(0x2300004, (if fmTrust then 1 else 0) + (if vendorDebug then 2 else 0))])
    lows := [], caps := [], mem := [], poison := [], dpoison := [], full := []
    dbase := [(0, dramBlocks card.order, free + 1)], free := free + 1, out := out, ras := Ras.cold, stage := stage
    link := link, dcoh := Dcoh.idle, gb := Glovebox.cold ownerKey draws, tack := Tack.idle, q := Queues.idle
    kv := { seqs := [], heads := [] }, bridle := Bridle.idle, scrub := Scrub.idle, pw := Power.cold, mgmt := Mgmt.idle
    cx := Complex.idle }

/-- An image whose signature, type and security version pass, of the worked example of chapter 2. -/
def Image.sample (typ : BitVec 8) (prov min max : List (BitVec 8)) : Image :=
  { sigOk := true, typ := typ, resvZero := true, version := 1, svn := 0, prov := prov, min := min, max := max }

/-- The card right after reset: a GJ-4820-A256 with the images of the worked example of chapter 2 (section 13) in both
pairs of slots, valid stored training, no Owner record, the x16 jumper and a direct host; PERST# is asserted. -/
def State.reset : State :=
  State.cold { order := .a256, uid := 0, dtFloor := 8, smbAddr := 0x64, svnMgmt := 0, svnCtrl := 0 }
    (Stage.cold (Image.sample 1 [0, 4, 0, 2, 0] [3, 0, 0, 0, 0] [3, 0, 0, 0, 0])
      (Image.sample 2 [0, 0, 4, 0, 0] [3, 4, 0, 0, 2] [3, 4, 0, 0, 3])
      (Image.sample 1 [0, 5, 0, 2, 0] [3, 0, 0, 0, 0] [3, 0, 0, 0, 0])
      (Image.sample 2 [0, 0, 6, 0, 0] [3, 5, 0, 0, 2] [3, 5, 0, 0, 4]) false 0 true)
    (Link.cold .a256 false false false) none true false 0 0 [] []

end Sys2Proof.Machine
end

