-- ==== Sys2Proof/Machine/Ops.lean ====
section
/-! DEFINITION. The named operations over registers and memories, the fault log, events and interrupts. -/

namespace Sys2Proof.Machine

open Sys2Proof

/-- The answer of a command that goes on. -/
abbrev Res := Host.Outcome State Fault Refusal

/-! ## Bit fields -/

/-- Bits [lo + n - 1 : lo] of a word, as a number. -/
def fld (w : Word) (lo n : Nat) : Nat := (w.toNat >>> lo) % 2 ^ n

/-- A word with bits [lo + n - 1 : lo] set to a number's low n bits. -/
def setFld (w : Word) (lo n v : Nat) : Word :=
  let m : Word := BitVec.ofNat 64 (2 ^ n - 1) <<< lo
  (w &&& ~~~m) ||| (BitVec.ofNat 64 (v % 2 ^ n) <<< lo)

/-- A flag as a number. -/
def bit (b : Bool) : Nat := if b then 1 else 0

/-- Bit i of a word. -/
def bitAt (w : Word) (i : Nat) : Bool := w.toNat.testBit i

/-- Sign extension of an n-bit number. -/
def signed (n v : Nat) : Int := if v % 2 ^ n < 2 ^ (n - 1) then (v % 2 ^ n : Int) else (v % 2 ^ n : Int) - 2 ^ n

/-! ## Registers -/

/-- What a register holds where nothing is listed: its reset value on this card. -/
def State.regReset (s : State) (r : Reg) (i : Nat) : Word :=
  match r with
  | .vrStage => BitVec.ofNat 64 s.card.dtFloor.toNat
  | .mgmtStatus => BitVec.ofNat 64 s.card.smbAddr.toNat
  | _ => r.resetOn s.card.order s.card.uid i

/-- A register's value. -/
def State.reg (s : State) (r : Reg) (i : Nat) : Word := Tbl.get (s.regReset r i) s.regs (r.off i)

/-- Write a register's value. -/
def State.setReg (s : State) (r : Reg) (i : Nat) (v : Word) : State :=
  { s with regs := Tbl.put (s.regReset r i) s.regs (r.off i) v }

/-- Key of a bank of a banked register (R775). -/
def bankKey (r : Reg) (bank : Nat) : Nat := r.off 0 + bank * 2 ^ 32

/-- A bank of a banked register; bank 0 is the register itself. -/
def State.regB (s : State) (r : Reg) (bank : Nat) : Word := Tbl.get (s.regReset r 0) s.regs (bankKey r bank)

/-- Write a bank of a banked register. -/
def State.setRegB (s : State) (r : Reg) (bank : Nat) (v : Word) : State :=
  { s with regs := Tbl.put (s.regReset r 0) s.regs (bankKey r bank) v }

/-- A field of a register. -/
def State.f (s : State) (r : Reg) (i lo n : Nat) : Nat := fld (s.reg r i) lo n

/-- Set a field of a register. -/
def State.setF (s : State) (r : Reg) (i lo n v : Nat) : State := s.setReg r i (setFld (s.reg r i) lo n v)

/-- Add to a saturating count field. -/
def State.addF (s : State) (r : Reg) (i lo n v : Nat) : State :=
  s.setF r i lo n (min (s.f r i lo n + v) (2 ^ n - 1))

/-- Raise a high-water field. -/
def State.maxF (s : State) (r : Reg) (i lo n v : Nat) : State := s.setF r i lo n (max (s.f r i lo n) v)

/-- Clear a list of field widths of a register to its reset value (RC fields read). -/
def clearFields (rst w : Word) (fs : List (Nat × Nat)) : Word :=
  fs.foldl (fun w e => setFld w e.1 e.2 (fld rst e.1 e.2)) w

/-- Drop the listed registers whose scope satisfies a test: they return to their reset values (R783). The keys of a
register lie in its own offsets, in any bank. -/
def State.resetScopes (s : State) (p : Scope → Bool) : State :=
  { s with regs := Tbl.keep (fun k => match regAt (k % 2 ^ 32) with
      | some (r, _) => !p r.row.scope
      | none => false) s.regs }

/-! ## Outputs and free values -/

/-- Something leaves the card. -/
def State.emit (s : State) (o : Out) : State := { s with out := o :: s.out }

/-- Draw a free 64-bit value. -/
def State.draw (s : State) : Word × State := (Config.freeWord s.free, { s with free := s.free + 1 })

/-- Draw a free choice. -/
def State.choose (s : State) : Bool × State := (Config.freeChoice s.free, { s with free := s.free + 1 })

/-- µs since cold power-on (R682 TIME). -/
def State.us (s : State) : Nat := s.now / 1000

/-- ms since cold power-on. -/
def State.ms (s : State) : Nat := s.now / 1000000

/-! ## Memory

One byte table holds every byte memory. Keys: DRAM by physical offset from 0; and above it Paddock, each core's
memory, each core's instruction store, the result slots' DATA and the harness copies. -/

/-- First key of the Paddock. -/
def pdBase : Nat := 2 ^ 40
/-- First key of core c's local memory (W, A, P at their local addresses; OB-A, OB-B, ACC likewise, R232). -/
def cmBase (c : Nat) : Nat := 2 ^ 41 + c * 2 ^ 24
/-- First key of core c's instruction store (R347). -/
def isBase (c : Nat) : Nat := 2 ^ 42 + c * 2 ^ 16
/-- First key of result slot k. -/
def rslotBase (k : Nat) : Nat := 2 ^ 43 + 64 * k
/-- First key of the copy in harness-table entry e. -/
def hrnBase (e : Nat) : Nat := 2 ^ 44 + e * 2 ^ 17

/-- Keys below this are DRAM. -/
def dramTop : Nat := 2 ^ 40

/-- Bytes of a capacity block (R102). -/
def blockSize : Nat := 2 ^ 28

/-- What block b of DRAM reads as where nothing is listed (0: zeros). -/
def baseOf (dbase : List (Nat × Nat × Nat)) (b : Nat) : Nat :=
  match dbase.find? fun e => decide (e.1 ≤ b) && decide (b < e.1 + e.2.1) with
  | some e => e.2.2
  | none => 0

/-- What a byte of memory reads as where nothing is listed. -/
def memDefault (dbase : List (Nat × Nat × Nat)) (a : Nat) : Byte :=
  if a < dramTop then
    match baseOf dbase (a / blockSize) with
    | 0 => 0
    | g + 1 => Config.freeDram g a
  else 0

/-- Read a byte. -/
def State.rdByte (s : State) (a : Nat) : Byte := Tbl.get (memDefault s.dbase a) s.mem a

/-- Write a byte. -/
def State.wrByte (s : State) (a : Nat) (v : Byte) : State :=
  { s with mem := Tbl.put (memDefault s.dbase a) s.mem a v }

/-- The canonical form of memory: rising keys, no entry equal to what its key reads as unlisted. -/
def State.memWf (s : State) : Bool := Tbl.wf (memDefault s.dbase) s.mem

/-- n bytes from a, lowest address first. -/
def State.rdBytes (s : State) (a n : Nat) : List Byte := (List.range n).map fun i => s.rdByte (a + i)

/-- Write bytes from a upwards. -/
def State.wrBytes (s : State) (a : Nat) : List Byte → State
  | [] => s
  | v :: t => (s.wrByte a v).wrBytes (a + 1) t

/-- Little-endian value of bytes. -/
def leNat : List Byte → Nat
  | [] => 0
  | v :: t => v.toNat + 256 * leNat t

/-- Little-endian bytes of a number. -/
def leBytes : (n v : Nat) → List Byte
  | 0, _ => []
  | n + 1, v => BitVec.ofNat 8 (v % 256) :: leBytes n (v / 256)

/-- n bytes from a as a little-endian number. -/
def State.rdNat (s : State) (a n : Nat) : Nat := leNat (s.rdBytes a n)

/-- Write a number's low n bytes at a. -/
def State.wrNat (s : State) (a n v : Nat) : State := s.wrBytes a (leBytes n v)

/-- A memory range [lo, lo + n) set to what unlisted bytes read as; on-chip that is zeros. -/
def State.dropRange (s : State) (lo n : Nat) : State :=
  { s with mem := Tbl.keep (fun k => decide (k < lo) || decide (lo + n ≤ k)) s.mem }

/-- On-chip range [lo, lo + n) cleared to zeros with valid check bits and EMPTY tags (R192). -/
def State.clearOnChip (s : State) (lo n : Nat) : State :=
  { s.dropRange lo n with
    poison := KSet.clear (lo / 8) (n / 8) s.poison
    full   := KSet.clear (lo / 256) (n / 256) s.full }

/-- Poison mark of the 64-bit word (on-chip) or 64-byte codeword (DRAM) that a byte lies in. -/
def State.poisonAt (s : State) (a : Nat) : Bool :=
  if a < dramTop then KSet.has s.dpoison (a / 64) else KSet.has s.poison (a / 8)

/-- Set or clear that mark. -/
def State.setPoison (s : State) (a : Nat) (b : Bool) : State :=
  if a < dramTop then { s with dpoison := KSet.set b (a / 64) s.dpoison }
  else { s with poison := KSet.set b (a / 8) s.poison }

/-- Poison of any word or codeword of [a, a + n), n > 0. -/
def State.poisonIn (s : State) (a n : Nat) : Bool :=
  let u := if a < dramTop then 64 else 8
  (List.range ((a + n - 1) / u - a / u + 1)).any fun i => s.poisonAt ((a / u + i) * u)

/-- Tag of the slot a byte lies in: true FULL (R274). -/
def State.tagAt (s : State) (a : Nat) : Bool := KSet.has s.full (a / 256)

/-- Set a slot's tag. -/
def State.setTag (s : State) (a : Nat) (b : Bool) : State := { s with full := KSet.set b (a / 256) s.full }

/-- A 256-byte line with the poison of its 32 words. -/
def State.rdLine (s : State) (a : Nat) : Line256 × Word32 :=
  (BitVec.ofNat 2048 (s.rdNat a 256),
   (List.range 32).foldl (fun m i => if s.poisonAt (a + 8 * i) then m ||| (1 <<< i : Word32) else m) 0)

/-- Write a whole line; each word takes its poison bit. In DRAM a codeword is poisoned if one of its words is. -/
def State.wrLine (s : State) (a : Nat) (d : Line256) (p : Word32) : State :=
  let s := s.wrNat a 256 d.toNat
  if a < dramTop then
    (List.range 4).foldl (fun s i => s.setPoison (a + 64 * i) (((p.toNat >>> (8 * i)) % 256) != 0)) s
  else
    (List.range 32).foldl (fun s i => s.setPoison (a + 8 * i) (p.toNat.testBit i)) s

/-- DRAM blocks [b, b + n) filled with zeros (R112, R192): no free base, no poison. -/
def State.zeroBlocks (s : State) (b n : Nat) : State :=
  let t := s.dropRange (b * blockSize) (n * blockSize)
  { t with
    dbase := (b, n, 0) :: t.dbase
    dpoison := KSet.clear (b * blockSize / 64) (n * blockSize / 64) t.dpoison }

/-- DRAM blocks [b, b + n) after a key replacement: free values with valid ECC (R76, R129). -/
def State.rekeyBlocks (s : State) (b n : Nat) : State :=
  let t := s.dropRange (b * blockSize) (n * blockSize)
  { t with
    dbase := (b, n, s.free + 1) :: t.dbase
    free := s.free + 1
    dpoison := KSet.clear (b * blockSize / 64) (n * blockSize / 64) t.dpoison }

/-! ## Requesters, presence and Owner authority -/

/-- Agent numbers: requesters 0 to 15; 16 an FM API message; 17 the MGMT image. -/
def fmAgent : Nat := 16
/-- The MGMT image as a register agent. -/
def mgmtAgent : Nat := 17

/-- Bank of an agent (R221). -/
def bankOf (agent : Nat) : Nat := min agent 16

/-- Requester present (DEV_REQ_PRESENT.PRESENT). -/
def State.present (s : State) (req : Nat) : Bool := decide (req < 16) && bitAt (s.reg .devReqPresent 0) req

/-- Requesters present, ascending. -/
def State.presentReqs (s : State) : List Nat := (List.range 16).filter s.present

/-- Owner authority of an agent's access or message (R179). -/
def State.hasOwner (s : State) (agent : Nat) : Bool :=
  if agent < 16 then s.f .gbOwner 0 1 1 = 1 && s.f .gbOwner 0 2 4 = agent
  else agent = fmAgent && s.f .gbOwnerCfg 0 0 1 = 1

/-- An interrupt: sent only to a requester present (R540, R686). -/
def State.msix (s : State) (req vec : Nat) : State := if s.present req then s.emit (.msix req vec) else s

/-! ## The fault log (R681 to R686) -/

/-- What a fault-log entry is made from (R682); fields left at their defaults read zero. -/
structure Entry where
  code   : FaultCode
  cls    : FaultClass
  stall  : Option Nat := none
  task   : Option Nat := none
  ctx    : Option Nat := none
  unit   : Nat
  core   : Option Nat := none
  pc     : Nat := 0
  insn   : Word := 0
  addr   : Nat := 0
  detail : Nat := 0
deriving DecidableEq, Repr

/-- CLASS of an entry as a number. -/
def FaultClass.num : FaultClass → Nat
  | .a => 0 | .b => 1 | .c => 2 | .d => 3

/-- The eight words of an entry (R682). -/
def Entry.words (e : Entry) (seq time resets : Nat) : List Word :=
  let opt := fun (o : Option Nat) => o.getD 0
  [ BitVec.ofNat 64 (seq % 2 ^ 32 + e.code.code * 2 ^ 32 + e.cls.num * 2 ^ 48 + bit e.stall.isSome * 2 ^ 50
      + bit e.task.isSome * 2 ^ 51 + (opt e.stall % 16) * 2 ^ 52 + (opt e.ctx % 8) * 2 ^ 56
      + bit e.ctx.isSome * 2 ^ 59 + (e.unit % 8) * 2 ^ 60),
    BitVec.ofNat 64 (time % 2 ^ 48 + (resets % 2 ^ 16) * 2 ^ 48),
    BitVec.ofNat 64 (opt e.task % 2 ^ 32 + (e.core.getD 255 % 256) * 2 ^ 32),
    BitVec.ofNat 64 (e.pc % 2 ^ 16),
    e.insn,
    BitVec.ofNat 64 e.addr,
    BitVec.ofNat 64 e.detail,
    BitVec.ofNat 64 (e.detail / 2 ^ 64) ]

/-- Write the words of log slot k. -/
def State.putLog (s : State) (k : Nat) : (w : Nat) → List Word → State
  | _, [] => s
  | w, v :: t => (s.setReg .rasLogEntry (w + 8 * k) v).putLog k (w + 1) t

/-- Count a fault in RAS_COUNT. -/
def State.countClass (s : State) (c : FaultClass) : State := s.addF .rasCount 0 (16 * c.num) 16 1

/-- Add n to the COUNT of log slot k (R388, R684). -/
def State.addLogCount (s : State) (k n : Nat) : State := s.addF .rasLogEntry (2 + 8 * k) 48 16 n

/-- A new entry (R681, R686), with its SEQ. -/
def State.newEntry (s : State) (e : Entry) : State :=
  let seq := s.f .rasLogPtr 0 0 32
  let k := seq % 1024
  let s := if seq ≥ 1024 && !KSet.has s.ras.readSlots k then s.addF .rasLogPtr 0 32 16 1 else s
  let s := s.putLog k 0 (e.words seq s.us s.ras.resets)
  let s := s.setF .rasLogPtr 0 0 32 (seq + 1)
  let s := { s with ras := { s.ras with
    readSlots := KSet.del k s.ras.readSlots
    lastD := if e.cls = .d then some (k, e.code.code, e.stall, e.addr, s.us) else s.ras.lastD } }
  if s.f .rasLogCtl 0 0 1 = 1 && e.cls.num ≤ s.f .rasLogCtl 0 1 2 then
    s.msix (s.f .rasLogCtl 0 4 4) (s.f .rasLogCtl 0 8 11) else s

/-- SEQ that the next entry takes; what a completion's DETAIL carries (R681). -/
def State.nextSeq (s : State) : Nat := s.f .rasLogPtr 0 0 32

/-- Record a fault: counted by class; a class D fault like the latest class D entry within 1 ms only counts in that
entry (R684). -/
def State.logFault (s : State) (e : Entry) : State :=
  let s := s.countClass e.cls
  match e.cls, s.ras.lastD with
  | .d, some (k, c, st, a, t) =>
    if c = e.code.code && st = e.stall && a = e.addr && s.us ≤ t + 1000 then s.addLogCount k 1 else s.newEntry e
  | _, _ => s.newEntry e

/-- A class D entry of a unit, of no stall. -/
def State.advise (s : State) (code : FaultCode) (unit : Nat) (detail : Nat := 0) (addr : Nat := 0) : State :=
  s.logFault { code := code, cls := .d, unit := unit, detail := detail, addr := addr }

/-- ACCESS_REFUSED of a register or BAR2 access (R679, R816). -/
def State.refuseAccess (s : State) (agent off : Nat) (bar2 write : Bool) : State :=
  let proxy := decide (16 ≤ agent)
  s.advise .accessRefused (if proxy then 6 else 7)
    (off % 2 ^ 26 + bit bar2 * 2 ^ 26 + bit write * 2 ^ 27 + (if proxy then 0 else agent) * 2 ^ 28
      + bit proxy * 2 ^ 32)
    (off % 2 ^ 26)

/-! ## Performance counters (R759) -/

/-- An event of a core is counted n times by the counters that select it. -/
def State.perf (s : State) (core event n : Nat) : State :=
  (List.range 4).foldl (fun s k =>
    if core < 32 ∧ s.f .perfSel core (8 * k) 8 = event then s.addF .perfCnt (4 * core + k) 0 48 n else s) s

/-! ## Event records (R126) -/

/-- The mailbox of a requester. -/
def State.mbox (s : State) (req : Nat) : Mailbox := Tbl.get Mailbox.reset s.link.mbox req

/-- Replace a requester's mailbox. -/
def State.setMbox (s : State) (req : Nat) (m : Mailbox) : State :=
  { s with link := { s.link with mbox := Tbl.put Mailbox.reset s.link.mbox req m } }

/-- Post an event record in a log of each requester: 32 records a log, then the overflow count (R123). -/
def State.postEvent (s : State) (log : Nat) (rec : EventRec) : List Nat → State
  | [] => s
  | r :: t =>
    let m := s.mbox r
    let l := Tbl.get [] m.logs log
    let m := if l.length < 32 then { m with logs := Tbl.insert log (l ++ [rec]) m.logs }
      else { m with overflow := Tbl.insert log (Tbl.get 0 m.overflow log + 1) m.overflow }
    ((s.setMbox r m).emit (.event r log rec)).postEvent log rec t

/-- A Memory Module event to every requester present. -/
def State.moduleEvent (s : State) (log about : Nat) : State :=
  s.postEvent log ⟨.memoryModule, about⟩ s.presentReqs

end Sys2Proof.Machine
end

