-- ==== Sys2Proof/Machine/Stall.lean ====
section
/-! DEFINITION. The stall table as accesses are checked against it: entries, the view that remains while a commit is
in progress, windows and translation (R168 to R174, R189). -/

namespace Sys2Proof.Machine

open Sys2Proof

/-- Word at offset `o` of the active entry of stall `st`. -/
def State.activeWord (s : State) (st o : Nat) : Word := Tbl.get 0 s.regs (0x102000 + 0x100 * st + o)

/-- Word at offset `o` of stall `st`'s entry in the copy that a commit in progress applies. -/
def Commit.word (c : Commit) (st o : Nat) : Word := Tbl.get 0 c.next (0x100 * st + o)

/-- A copy of the stall table, as a function of stall and offset within its entry. -/
abbrev Copy := Nat → Nat → Word

/-- STALL_CFG.VALID, HOST_EN and HOST_REQ in a copy. -/
def Copy.valid (t : Copy) (st : Nat) : Bool := bitAt (t st 0) 0
def Copy.hostEn (t : Copy) (st : Nat) : Bool := bitAt (t st 0) 2
def Copy.hostReq (t : Copy) (st : Nat) : Nat := fld (t st 0) 8 4

/-- Core n in STALL_CORES.MASK of a valid entry. -/
def Copy.hasCore (t : Copy) (st c : Nat) : Bool := decide (c < 32) && t.valid st && bitAt (t st 4) c

/-- BASE and COUNT of the hitch, barrier, Paddock-ring, SQ, CQ and result-slot ranges. -/
def Copy.hitch (t : Copy) (st : Nat) : Nat × Nat := (fld (t st 8) 0 14, fld (t st 8) 16 15)
def Copy.barrier (t : Copy) (st : Nat) : Nat × Nat := (fld (t st 0xC) 0 9, fld (t st 0xC) 16 10)
def Copy.pring (t : Copy) (st : Nat) : Nat × Nat := (fld (t st 0x10) 0 8, fld (t st 0x10) 16 9)
def Copy.sq (t : Copy) (st : Nat) : Nat × Nat := (fld (t st 0x14) 0 10, fld (t st 0x14) 16 7)
def Copy.cq (t : Copy) (st : Nat) : Nat × Nat := (fld (t st 0x18) 0 10, fld (t st 0x18) 16 7)
/-- Result slots in slots, not in units of 256. -/
def Copy.rslot (t : Copy) (st : Nat) : Nat × Nat := (256 * fld (t st 0x1C) 0 10, 256 * fld (t st 0x1C) 16 11)

/-- An index lies in a range of a valid entry. -/
def Copy.inRange (t : Copy) (r : Copy → Nat → Nat × Nat) (st i : Nat) : Bool :=
  t.valid st && decide ((r t st).1 ≤ i) && decide (i < (r t st).1 + (r t st).2)

/-- Paddock window w: first byte and size, if enabled. -/
def Copy.pwin (t : Copy) (st w : Nat) : Option (Nat × Nat) :=
  let v := t st (0x40 + 8 * w)
  if bitAt v 0 then some (65536 * fld v 16 9, 65536 * fld v 32 10) else none

/-- Paddock byte o lies in an enabled window of the stall. -/
def Copy.inPaddock (t : Copy) (st o : Nat) : Bool :=
  t.valid st && (List.range 4).any fun w =>
    match t.pwin st w with
    | some (b, n) => decide (b ≤ o) && decide (o < b + n)
    | none => false

/-- DRAM window w: DEV_BLOCK, PHYS_BLOCK, COUNT and WP, if enabled. -/
def Copy.dwin (t : Copy) (st w : Nat) : Option (Nat × Nat × Nat × Bool) :=
  let v := t st (0x60 + 8 * w)
  if bitAt v 0 then some (fld v 16 10, fld v 32 10, fld v 48 10, bitAt v 1) else none

/-- Translation of DRAM window offset d by the lowest window that covers it (R171, R174), with its WP. -/
def Copy.translate (t : Copy) (st d : Nat) : Option (Nat × Bool) :=
  if !t.valid st then none else
  (List.range 8).findSome? fun w =>
    match t.dwin st w with
    | some (dev, phys, n, wp) =>
      if dev * blockSize ≤ d && d < (dev + n) * blockSize then
        some (phys * blockSize + d - dev * blockSize, wp) else none
    | none => none

/-- An enabled DRAM window of the valid entry covers physical block b. -/
def Copy.coversBlock (t : Copy) (st b : Nat) : Bool :=
  t.valid st && (List.range 8).any fun w =>
    match t.dwin st w with
    | some (_, phys, n, _) => decide (phys ≤ b) && decide (b < phys + n)
    | none => false

/-- The active copy. -/
def State.active (s : State) : Copy := s.activeWord

/-- The staged copy. -/
def State.staged (s : State) : Copy := fun st o => Tbl.get 0 s.regs (0x101000 + 0x100 * st + o)

/-- A resource that the active copy gives the stall is in its view: while a commit is in progress, only if the next
copy gives it too (R189 step 2). -/
def State.inView (s : State) (p : Copy → Bool) : Bool :=
  p s.active && match s.gb.commit with
    | some c => p c.word
    | none => true

/-- The stall is valid in view. -/
def State.stallValid (s : State) (st : Nat) : Bool := decide (st < 16) && s.inView fun t => t.valid st

/-- First stall of 0 to 15 that satisfies a test. -/
def stallWhere (p : Nat → Bool) : Option Nat := firstFrom p 0 16

/-- The stall that holds a core, hitch, barrier, Paddock ring, SQ, CQ or result slot, in view. -/
def State.stallOfCore (s : State) (c : Nat) : Option Nat := stallWhere fun st => s.inView fun t => t.hasCore st c
def State.stallOfHitch (s : State) (i : Nat) : Option Nat :=
  stallWhere fun st => s.inView fun t => t.inRange Copy.hitch st i
def State.stallOfBarrier (s : State) (i : Nat) : Option Nat :=
  stallWhere fun st => s.inView fun t => t.inRange Copy.barrier st i
def State.stallOfPring (s : State) (i : Nat) : Option Nat :=
  stallWhere fun st => s.inView fun t => t.inRange Copy.pring st i
def State.stallOfSq (s : State) (i : Nat) : Option Nat :=
  stallWhere fun st => s.inView fun t => t.inRange Copy.sq st i
def State.stallOfCq (s : State) (i : Nat) : Option Nat :=
  stallWhere fun st => s.inView fun t => t.inRange Copy.cq st i
def State.stallOfRslot (s : State) (i : Nat) : Option Nat :=
  stallWhere fun st => s.inView fun t => t.inRange Copy.rslot st i
/-- The stall whose Paddock windows hold byte o. -/
def State.stallOfPaddock (s : State) (o : Nat) : Option Nat :=
  stallWhere fun st => s.inView fun t => t.inPaddock st o
/-- The lowest valid stall with a window over physical block b. -/
def State.stallOfBlock (s : State) (b : Nat) : Option Nat :=
  stallWhere fun st => s.inView fun t => t.coversBlock st b

/-- An agent acts for a stall (R772): Owner authority acts for every stall. -/
def State.actsFor (s : State) (agent st : Nat) : Bool :=
  s.hasOwner agent ||
    (decide (agent < 16) && s.active.valid st && s.active.hostEn st && s.active.hostReq st == agent)

/-! ## Device addresses of a stall (R171) -/

/-- What a device address names, once checked and translated. -/
inductive Place where
  /-- local CM or operand buffer of the issuing core, at a local address -/
  | local_ (a : Nat)
  /-- another core's CM -/
  | core (c a : Nat)
  /-- Paddock byte -/
  | paddock (o : Nat)
  /-- pool hitch -/
  | hitch (i : Nat)
  /-- DRAM physical offset -/
  | dram (p : Nat)
  /-- host bus address, on a requester's link -/
  | host (req a : Nat)
  /-- an address of another chip -/
  | remote (chip a : Nat)
deriving DecidableEq, Repr

/-- A local address that is decoded (R232): W, A and P regions, OB-A, OB-B, ACC. -/
def localDecoded (a : Nat) : Bool := a < 0x200000 || (0x800000 ≤ a && a < 0x840000)

/-- First address of each region of the device address map (R353). -/
def coreSpace : Nat := 0x000100000000
def paddockSpace : Nat := 0x001000000000
def hitchSpace : Nat := 0x002000000000
def dramSpace : Nat := 0x100000000000
def hostSpace : Nat := 0x200000000000
def remoteSpace : Nat := 0x400000000000

/-- The check and translation of one byte of a device address for stall `st` (R171 to R174, R233, R353); none: the
access fails its check. -/
def State.place (s : State) (st a : Nat) (write : Bool) : Option Place :=
  if a < 0x1000000 then
    if localDecoded a then some (.local_ a) else none
  else if coreSpace ≤ a && a < coreSpace + 0x20000000 then
    let c := (a - coreSpace) / 0x1000000
    let o := (a - coreSpace) % 0x1000000
    if o < 0x200000 && s.inView (fun t => t.hasCore st c) then some (.core c o) else none
  else if paddockSpace ≤ a && a < paddockSpace + 0x2000000 then
    let o := a - paddockSpace
    if s.inView (fun t => t.inPaddock st o) then some (.paddock o) else none
  else if hitchSpace ≤ a && a < hitchSpace + 8 * 16384 then
    let i := (a - hitchSpace) / 8
    let h := (s.active.hitch st).1 + i
    if i < (s.active.hitch st).2 && s.inView (fun t => t.inRange Copy.hitch st h) then some (.hitch h) else none
  else if dramSpace ≤ a && a < hostSpace then
    match s.active.translate st (a - dramSpace) with
    | some (p, wp) =>
      if (write && wp) || !(s.inView fun t => t.coversBlock st (p / blockSize)) then none
      else match s.gb.commit with
        | some c => if c.rekey.contains st then none else some (.dram p)
        | none => some (.dram p)
    | none => none
  else if hostSpace ≤ a && a < remoteSpace then
    if s.inView (fun t => t.valid st && t.hostEn st) then
      some (.host (s.active.hostReq st) ((s.activeWord st 0x20).toNat / 4096 * 4096 + (a - hostSpace)))
    else none
  else if remoteSpace ≤ a && a < remoteSpace + 16 * 2 ^ 40 then
    some (.remote ((a - remoteSpace) / 2 ^ 40) (a % 2 ^ 40))
  else none

/-- Memory key of a place that is byte memory, for an access of core c. -/
def Place.key (c : Nat) : Place → Option Nat
  | .local_ a => some (cmBase c + a)
  | .core d a => some (cmBase d + a)
  | .paddock o => some (pdBase + o)
  | .dram p => some p
  | _ => none

/-! ## Trace (R761, R762) -/

/-- CORE of a trace record of an event of no core. -/
def noCore : Nat := 0x1F

/-- An event of a stall is traced: its number, core and context or stream queue, task and argument. A record that the
ring has no place for is dropped. -/
def State.trace (s : State) (st event core sub task arg : Nat) : State :=
  if s.f .traceCtl st 0 1 = 0 || !bitAt (s.reg .traceCtl st) (15 + event) then s else
  let tail := s.f .tracePtr st 32 32
  let size := 2 ^ s.f .traceCtl st 8 5
  if size ≤ (tail + 2 ^ 32 - s.f .tracePtr st 0 32) % 2 ^ 32 then s.addF .traceStat st 0 16 1 else
  match s.place st (4096 * s.f .traceBase st 12 36 + 32 * (tail % size)) true with
  | some (.dram p) =>
    (s.wrBytes p (leBytes 2 (event + 2 ^ 8 * (core % 32) + 2 ^ 13 * (sub % 8)) ++ leBytes 2 0 ++ leBytes 4 task
      ++ leBytes 8 (s.now - s.stage.perstAt) ++ leBytes 8 arg ++ leBytes 8 0)).setF .tracePtr st 32 32 (tail + 1)
  | _ => s

/-- An event of a task. -/
def State.traceTask (s : State) (event core sub : Nat) (t : Task) (arg : Nat := 0) : State :=
  s.trace t.stall event core sub t.id arg

end Sys2Proof.Machine
end

