-- ==== Sys2Proof/Machine/Contexts.lean ====
section
/-! DEFINITION. Reading and updating cores, contexts and tasks, the harness header a task runs under, and the record
of a task's class C fault (R343 to R350, R386 to R389, R424). -/

namespace Sys2Proof.Machine

open Sys2Proof

/-! ## Cores and contexts -/

/-- A core. -/
def State.core (s : State) (c : Nat) : ShuzoCore := Tbl.get ShuzoCore.idle s.cx.cores c

/-- Replace a core. -/
def State.setCore (s : State) (c : Nat) (k : ShuzoCore) : State :=
  { s with cx := { s.cx with cores := Tbl.put ShuzoCore.idle s.cx.cores c k } }

/-- A context of a core. -/
def ShuzoCore.ctx (k : ShuzoCore) (x : Nat) : Ctx := Tbl.get Ctx.idle k.ctxs x

/-- Replace a context of a core. -/
def ShuzoCore.setCtx (k : ShuzoCore) (x : Nat) (c : Ctx) : ShuzoCore := { k with ctxs := Tbl.put Ctx.idle k.ctxs x c }

/-- A context. -/
def State.ctx (s : State) (c x : Nat) : Ctx := (s.core c).ctx x

/-- Replace a context. -/
def State.setCtx (s : State) (c x : Nat) (k : Ctx) : State := s.setCore c ((s.core c).setCtx x k)

/-- Update a context. -/
def State.updCtx (s : State) (c x : Nat) (f : Ctx → Ctx) : State := s.setCtx c x (f (s.ctx c x))

/-- Update a core. -/
def State.updCore (s : State) (c : Nat) (f : ShuzoCore → ShuzoCore) : State := s.setCore c (f (s.core c))

/-- A g register with its poison; g0 reads zero without poison (R349). -/
def Ctx.rg (k : Ctx) (n : Nat) : Word × Bool := if n = 0 then (0, false) else (Tbl.get 0 k.g n, KSet.has k.gp n)

/-- Write a g register; a write to g0 has no effect (R349). -/
def Ctx.wg (k : Ctx) (n : Nat) (v : Word) (poison : Bool) : Ctx :=
  if n = 0 then k else { k with g := Tbl.put 0 k.g n v, gp := KSet.set poison n k.gp }

/-- A predicate; p0 reads true (R349). -/
def Ctx.rp (k : Ctx) (n : Nat) : Bool := n == 0 || KSet.has k.p n

/-- Write a predicate; a write to p0 has no effect (R349). -/
def Ctx.wp (k : Ctx) (n : Nat) (b : Bool) : Ctx := if n = 0 then k else { k with p := KSet.set b n k.p }

/-- A v register and the poison of its 32 eight-byte lanes (R328). -/
def Ctx.rv (k : Ctx) (n : Nat) : VReg × Word32 := (Tbl.get 0 k.v n, Tbl.get 0 k.vp n)

/-- Write a v register. -/
def Ctx.wv (k : Ctx) (n : Nat) (v : VReg) (poison : Word32) : Ctx :=
  { k with v := Tbl.put 0 k.v n v, vp := Tbl.put 0 k.vp n poison }

/-! ## Tasks -/

/-- The task with an identifier. -/
def State.task? (s : State) (id : Nat) : Option Task := s.q.tasks.find? fun t => t.id == id

/-- Update the task with an identifier. -/
def State.updTask (s : State) (id : Nat) (f : Task → Task) : State :=
  { s with q := { s.q with tasks := s.q.tasks.map fun t => if t.id = id then f t else t } }

/-- The task that runs on a core. -/
def State.taskOn (s : State) (c : Nat) : Option Task := (s.core c).task.bind s.task?

/-- A task issues instructions: running, or parking. -/
def TaskPhase.live : TaskPhase → Bool
  | .running | .parking => true
  | _ => false

/-- n bytes at offset o of the harness header in table entry e (R389). -/
def State.hdr (s : State) (e o n : Nat) : Nat := s.rdNat (hrnBase e + o) n

/-- Team rank of a core (R554). -/
def Task.rank (t : Task) (c : Nat) : Nat := (t.team.filter (· < c)).length

/-- Put a hitch in the task's hitch set (R473). -/
def State.inHitchSet (s : State) (id : Option Nat) (h : Nat) : State :=
  match id with
  | some id => s.updTask id fun t => { t with hitches := KSet.add h t.hitches }
  | none => s

/-! ## Completion statuses (R542) -/

def stSuccess : Nat := 0x00
def stNotReady : Nat := 0x01
def stEpoch : Nat := 0x02
def stFenced : Nat := 0x03
def stMalformed : Nat := 0x04
def stBadOpcode : Nat := 0x05
def stBadAddress : Nat := 0x06
def stBadEntry : Nat := 0x07
def stRslotBusy : Nat := 0x08
def stDupStale : Nat := 0x09
def stTackRefused : Nat := 0x0A
def stAccwConflict : Nat := 0x0B
def stAccwExhausted : Nat := 0x0C
def stBadTeam : Nat := 0x0D
def stNoSave : Nat := 0x0E
def stBadTask : Nat := 0x0F
def stEntryBusy : Nat := 0x10
def stFault : Nat := 0x20
def stTimeout : Nat := 0x21
def stKilled : Nat := 0x22
def stProtection : Nat := 0x23
def stHostReset : Nat := 0x24
def stStallAbort : Nat := 0x25
def stCpReset : Nat := 0x26
def stFlushDone : Nat := 0x30

/-! ## Class C faults -/

/-- A class C fault of a task: its first is recorded and begins the abort; later ones only count in that entry
(R386, R388, R424, R678). TASK_TIMEOUT gives status TIMEOUT (R675). -/
def State.taskFault (s : State) (id : Nat) (code : FaultCode) (unit core : Nat) (ctx : Option Nat) (pc : Nat := 0)
    (insn : Word := 0) (addr detail : Nat := 0) : State :=
  match s.task? id with
  | none => s
  | some t =>
    if t.phase.live then
      let seq := s.nextSeq
      let s := s.logFault { code := code, cls := .c, stall := some t.stall, task := some id, ctx := ctx, unit := unit
                            core := some core, pc := pc, insn := insn, addr := addr, detail := detail }
      let s := s.traceTask 6 (if core < 32 then core else noCore) (ctx.getD 0) t seq
      s.updTask id fun t => { t with
        phase := .aborting, ranNs := t.ranNs + (s.now - t.startNs), startNs := s.now
        abort := some (if code = .taskTimeout then stTimeout else stFault, seq) }
    else
      match t.phase, t.abort with
      | .aborting, some (_, seq) =>
        let s := s.countClass .c
        if (s.reg .rasLogEntry (8 * (seq % 1024))).toNat % 2 ^ 32 = seq then s.addLogCount (seq % 1024) 1 else s
      | _, _ => s

/-! ## Time -/

/-- Time moves up to at least an instant: a time-driven command comes no earlier than its rule allows. -/
def State.notBefore (s : State) (t : Nat) : State := { s with now := max s.now t }

/-- HITCH_WAIT_LIMIT in force for a stall, in ns (R460, R479). -/
def State.hitchLimit (s : State) (st : Nat) : Nat :=
  1000000 * (if s.f .hitchCfg st 0 1 = 1 then s.f .hitchCfg st 16 16 else 250)

/-- TAG_WAIT_LIMIT in force for a stall, in ns (R284, R479). -/
def State.tagLimit (s : State) (st : Nat) : Nat :=
  1000 * (if s.f .hitchCfg st 0 1 = 1 then s.f .hitchCfg st 32 32 else 10000)

/-- CCLK period numbers: CCLK in MHz at operating points OP0 to OP3 (R36, chapter 1). -/
def cclkMHz : Nat → Nat
  | 0 => 400
  | 1 => 650
  | 2 => 900
  | _ => 1100

/-- The CCLK stamp of now, counted at OP1 (c3, R242). -/
def State.stamp (s : State) : Nat := s.now * 650 / 1000 % 2 ^ 48

end Sys2Proof.Machine
end

