-- ==== Sys2Proof/Machine/ReinLink.lean ====
section
/-! DEFINITION. The transmit side of the Rein ports: packet headers (R650 to R652), routes and permission (R657, R659),
virtual-channel credits and the replay buffer (R644, R646, R655), and tagged packets (R664). -/

namespace Sys2Proof.Machine

open Sys2Proof

/-- A Rein port beside its registers. -/
def State.port (s : State) (p : Nat) : ReinPort := Tbl.get ReinPort.idle s.cx.rein.ports p

/-- Replace it. -/
def State.setPort (s : State) (p : Nat) (q : ReinPort) : State :=
  { s with cx := { s.cx with rein := { s.cx.rein with ports := Tbl.put ReinPort.idle s.cx.rein.ports p q } } }

/-- Update it. -/
def State.updPort (s : State) (p : Nat) (f : ReinPort → ReinPort) : State := s.setPort p (f (s.port p))

/-- REIN_PORT_STAT.STATE. -/
def State.portState (s : State) (p : Nat) : Nat := s.f .reinPortStat p 0 3

/-- The port is UP. -/
def State.portUp (s : State) (p : Nat) : Bool := s.portState p == 3

/-- This chip's id. -/
def State.chipId (s : State) : Nat := s.f .reinChip 0 0 4

/-- The port that REIN_ROUTE names for a chip (R657). -/
def State.route (s : State) (chip : Nat) : Option Nat :=
  match s.f .reinRoute 0 (2 * chip) 2 with
  | 1 => some 0
  | 2 => some 1
  | _ => none

/-! ## Headers (R651) -/

/-- Word 0 of a header: TYPE, CLS, DST, SRC, UNIT, SSTALL, BCLS, PRIO, DSLOTS, TAG, IDX. -/
def header0 (typ cls dst src unit st bcls prio dslots tag idx : Nat) : Word :=
  BitVec.ofNat 64 (typ + cls * 2 ^ 4 + dst * 2 ^ 8 + src * 2 ^ 12 + unit * 2 ^ 16 + st * 2 ^ 22 + bcls * 2 ^ 26
    + prio * 2 ^ 29 + dslots * 2 ^ 32 + tag * 2 ^ 40 + idx * 2 ^ 50)

def hType (w : Word) : Nat := fld w 0 4
def hCls (w : Word) : Nat := fld w 4 2
def hDl (w : Word) : Nat := fld w 6 1
def hDst (w : Word) : Nat := fld w 8 4
def hSrc (w : Word) : Nat := fld w 12 4
def hUnit (w : Word) : Nat := fld w 16 6
def hStall (w : Word) : Nat := fld w 22 4
def hBcls (w : Word) : Nat := fld w 26 3
def hPrio (w : Word) : Nat := fld w 29 3
def hDslots (w : Word) : Nat := fld w 32 5
def hTag (w : Word) : Nat := fld w 40 10
def hIdx (w : Word) : Nat := fld w 50 14

/-- Virtual channel of a packet (R655). -/
def Packet.vc (k : Packet) : Nat := 2 * hCls k.w0 + hDl k.w0

/-- Slots a packet takes. -/
def Packet.size (k : Packet) : Nat := 1 + hDslots k.w0

/-- TYPE values (R652). -/
def tRfill : Nat := 0x1
def tHwr : Nat := 0x2
def tHadd : Nat := 0x3
def tRrel : Nat := 0x4
def tRd : Nat := 0x5
def tRresv : Nat := 0x6
def tRdata : Nat := 0x8
def tRgnt : Nat := 0x9
def tWack : Nat := 0xA

/-- Word 0 of the response to a request: DST and SRC change places; UNIT, SSTALL, BCLS, PRIO and TAG are the request's
(R652). -/
def answer0 (req : Word) (typ dslots : Nat) : Word :=
  header0 typ 2 (hSrc req) (hDst req) (hUnit req) (hStall req) (hBcls req) (hPrio req) dslots (hTag req) 0

/-! ## Transmission -/

/-- Update one entry of a list by position. -/
def bump (l : List Nat) (i : Nat) (f : Nat → Nat) : List Nat := l.mapIdx fun j v => if j = i then f v else v

/-- An entry of a list, 0 beyond its end. -/
def nth (l : List Nat) (i : Nat) : Nat := l.getD i 0

/-- The DATA flits that carry a packet that starts a flit: SOP, PSN and 14 slots each (R642, R650). -/
def flitsOf : (fuel : Nat) → (first : Bool) → List (Slot × Bool) → List (List Nat)
  | 0, _, _ => []
  | n + 1, first, l =>
    if l.isEmpty then [] else
    let part := l.take 14
    let psn := (part.zipIdx.foldl (fun a e => a + bit e.1.2 * 2 ^ e.2) 0)
    ([bit first, psn] ++ part.map (fun e => e.1.toNat) ++ List.replicate (14 - part.length) 0) :: flitsOf n false (l.drop 14)

/-- A packet as its slots, the header first: word 0 in the low half of its slot. -/
def Packet.allSlots (k : Packet) : List (Slot × Bool) :=
  ((k.w1.setWidth 128 <<< 64) ||| k.w0.setWidth 128, false) :: k.slots

/-- The link field that every flit of a port carries: ACK, CRED0 to CRED5, CEPOCH (R643, R645). -/
def State.linkField (s : State) (p : Nat) : List Nat :=
  let q := s.port p
  [q.rxSeq] ++ q.freed.map (· % 8192) ++ [bit q.epoch]

/-- A DATA flit leaves a port: FSEQ, the link field, then SOP, PSN and slots. -/
def State.sendData (s : State) (p fseq : Nat) (body : List Nat) : State :=
  s.emit (.rein p 0 ([fseq] ++ s.linkField p ++ body))

/-- A flit that is no DATA flit: KIND 1 IDLE, 2 NAK, 3 CTRL with its message (R643, R647). -/
def State.sendOther (s : State) (p kind : Nat) (msg : List Nat) : State :=
  s.emit (.rein p kind ([((s.port p).txSeq + 4095) % 4096] ++ s.linkField p ++ msg))

/-- Slots of a VC of the receive buffer are free again; those held at a retrain's INIT are not counted (R669). -/
def State.freeSlots (s : State) (p vc n : Nat) : State :=
  s.updPort p fun q =>
    let k := min n (nth q.skip vc)
    { q with freed := bump q.freed vc (fun v => (v + (n - k)) % 8192), skip := bump q.skip vc fun v => v - k }

/-- One packet is transmitted: its flits enter the replay buffer, its credits are spent, and a packet that was passed
on frees the slots it held (R644, R655). -/
def State.transmit (s : State) (p : Nat) (k : Packet) : State :=
  let fs := (flitsOf 2 true k.allSlots).zipIdx
  let s := fs.foldl (fun s e =>
    let q := s.port p
    (s.sendData p q.txSeq e.1).setPort p { q with
      txSeq := (q.txSeq + 1) % 4096
      replay := q.replay ++ [(q.txSeq, k.vc, min 14 (k.size - 14 * e.2), e.1)]
      ackAt := if q.replay.isEmpty then s.now else q.ackAt }) s
  let s := s.updPort p fun q => { q with credit := bump q.credit k.vc (fun v => v - k.size) }
  match k.held with
  | some (r, vc) => s.freeSlots r vc k.size
  | none => s

/-- The first waiting packet that may go: the first of its VC, with its credits held and places in the replay buffer
of 256 flits (R644, R655). -/
def ReinPort.ready? (q : ReinPort) : Option (Nat × Packet) :=
  (q.tx.zipIdx.find? fun e =>
    decide (e.1.size ≤ nth q.credit e.1.vc) && decide (q.replay.length + (e.1.size + 13) / 14 ≤ 256)
      && (q.tx.take e.2).all fun o => o.vc != e.1.vc).map fun e => (e.2, e.1)

/-- Packets that wait at a port go while it is UP. -/
def State.pumpN (s : State) (p : Nat) : Nat → State
  | 0 => s
  | n + 1 =>
    if !s.portUp p then s else
    match (s.port p).ready? with
    | none => s
    | some (i, k) => ((s.updPort p fun q => { q with tx := q.tx.eraseIdx i }).transmit p k).pumpN p n

def State.pump (s : State) (p : Nat) : State := s.pumpN p (s.port p).tx.length

/-- A packet is handed to a port; leaving a dateline port it carries DL = 1 (R656). -/
def State.sendVia (s : State) (p : Nat) (k : Packet) : State :=
  let k := if s.f .reinPortCtl p 3 1 = 1 then { k with w0 := setFld k.w0 6 1 1 } else k
  (s.updPort p fun q => { q with tx := q.tx ++ [k] }).pump p

/-- A packet this chip creates goes through the port routed for its DST (R657). -/
def State.sendPacket (s : State) (w0 w1 : Word) (slots : List (Slot × Bool)) : State :=
  match s.route (hDst w0) with
  | some p => s.sendVia p ⟨w0, w1, slots, none⟩
  | none => s

/-! ## Tagged packets (R664) -/

/-- The lowest tag that a unit does not use; none: it has 1,024 packets outstanding. -/
def State.freeTag (s : State) (unit : Nat) : Option Nat :=
  firstFrom (fun t => s.cx.rein.tagged.all fun e => e.unit != unit || e.tag != t) 0 1024

/-- Replace the tagged packets outstanding. -/
def State.setTagged (s : State) (l : List Tagged) : State :=
  { s with cx := { s.cx with rein := { s.cx.rein with tagged := l } } }

/-- Send a tagged request of a task and keep its record. Its tag field of `w0` is filled in. -/
def State.sendTagged (s : State) (unit chip : Nat) (task : Option Nat) (what : RFor) (w0 w1 : Word)
    (slots : List (Slot × Bool)) : State :=
  match s.freeTag unit, s.route chip with
  | some t, some p =>
    let w0 := setFld w0 40 10 t
    let r : Tagged := { tag := t, port := p, chip := chip, unit := unit, task := task, what := what, w0 := w0, w1 := w1
                        sent := s.now, busy := false }
    (s.setTagged (s.cx.rein.tagged ++ [r])).sendPacket w0 w1 slots
  | _, _ => s

/-- Whether a task of stall `st` may reach a chip now (R659): the fault it takes otherwise. -/
def State.reinCheck (s : State) (st chip : Nat) : Option FaultCode :=
  if !bitAt (s.reg .reinStallOut st) chip || chip == s.chipId then some .windowViolation
  else match s.route chip with
    | none => some .windowViolation
    | some p => if s.portUp p then none else some .reinDown

/-- A task's core has reserved at a chip (R666). -/
def State.notedRemote (s : State) (id core chip : Nat) : State :=
  s.updTask id fun t => if t.remote.contains (core, chip) then t else { t with remote := (core, chip) :: t.remote }

end Sys2Proof.Machine
end

