-- ==== Sys2Proof/Machine/Rings.lean ====
section
/-! DEFINITION. Rings: counters, credits and their ledger (R286 to R296), and the ring references that name them
(R377). -/

namespace Sys2Proof.Machine

open Sys2Proof

/-- First Paddock ring index. -/
def pringBase : Nat := 2048

/-- A ring's ledger. -/
def State.ring (s : State) (i : Nat) : Ring := Tbl.get Ring.idle s.cx.rings i

/-- Replace it. -/
def State.setRing (s : State) (i : Nat) (r : Ring) : State :=
  { s with cx := { s.cx with rings := Tbl.put Ring.idle s.cx.rings i r } }

/-- RING_CTL.ENABLE and SLOTS; RING_PTR.HEAD and RESV (R287). -/
def State.ringOn (s : State) (i : Nat) : Bool := s.f .ringCtl i 0 1 == 1
def State.ringSlots (s : State) (i : Nat) : Nat := s.f .ringCtl i 16 13
def State.ringHead (s : State) (i : Nat) : Nat := s.f .ringPtr i 0 32
def State.ringResv (s : State) (i : Nat) : Nat := s.f .ringPtr i 32 32

/-- Free credits: SLOTS − (RESV − HEAD), modulo 2^32 (R287). -/
def State.ringCredits (s : State) (i : Nat) : Nat :=
  (2 ^ 32 + s.ringSlots i - (2 ^ 32 + s.ringResv i - s.ringHead i) % 2 ^ 32) % 2 ^ 32

/-- Byte address of index k within its core's CM or the Paddock (R286, R287). -/
def State.ringAddr (s : State) (i k : Nat) : Nat :=
  256 * s.f .ringBase i 8 24 + 256 * (k % max 1 (s.ringSlots i))

/-- Memory key of index k. -/
def State.ringKey (s : State) (i k : Nat) : Nat :=
  (if i < pringBase then cmBase (i / 64) else pdBase) + s.ringAddr i k

/-- RESV grows by n: those indices become credits of a holder (R289, R290). The first index is the old RESV. -/
def State.grantCredits (s : State) (i n : Nat) (task : Option Nat) (src : Nat) : State :=
  let first := s.ringResv i
  let r := s.ring i
  let s := s.setRing i { r with
    credits := r.credits ++ (List.range n).map fun j => ((first + j) % 2 ^ 32, task, src) }
  let s := s.setF .ringPtr i 32 32 (first + n)
  s.maxF .ringStat i 0 13 ((2 ^ 32 + s.ringResv i - s.ringHead i) % 2 ^ 32)

/-- Index k is reserved by a holder and not yet filled (R294). -/
def State.holdsCredit (s : State) (i k : Nat) (task : Option Nat) (src : Nat) : Bool :=
  (s.ring i).credits.any fun e => e.1 == k && e.2.1 == task && e.2.2 == src

/-- Any holder's. -/
def State.reserved (s : State) (i k : Nat) : Bool := (s.ring i).credits.any fun e => e.1 == k

/-- A fill of index k is performed: its credit is spent (R294). -/
def State.spendCredit (s : State) (i k : Nat) : State :=
  let r := s.ring i
  s.setRing i { r with credits := r.credits.filter fun e => e.1 != k }

/-- A consume of the slot at HEAD is performed: HEAD advances (R291). -/
def State.advanceHead (s : State) (i : Nat) : State := s.setF .ringPtr i 0 32 (s.ringHead i + 1)

/-- The WACK of a remote fill, whose slots are free once it is done with (R655, R663). -/
def State.wackFill (s : State) (remote : Option (Nat × Word)) (status : Nat) : State :=
  match remote with
  | some (p, h) =>
    (s.freeSlots p (2 * hCls h + hDl h) (1 + hDslots h)).sendPacket (answer0 h tWack 0) (BitVec.ofNat 64 status) []
  | none => s

/-- A request enters a core's inbound buffer (R482). -/
def State.inject (s : State) (core : Nat) (r : Inbound) : State :=
  s.updCore core fun k => { k with inbound := k.inbound ++ [r] }

/-- Write the words of a line that a mask names, with their poison. -/
def State.wrWords (s : State) (key : Nat) (d : Line256) (pois words : Word32) : State :=
  (List.range 32).foldl (fun s i =>
    if words.toNat.testBit i then
      (s.wrNat (key + 8 * i) 8 (d.toNat >>> (64 * i))).setPoison (key + 8 * i) (pois.toNat.testBit i)
    else s) s

/-- A line whose only meaningful word is `word`. -/
def oneWord (word : Nat) (v : Word) (poison : Bool) : Line256 × Word32 × Word32 :=
  (v.setWidth 2048 <<< (64 * word), if poison then 1 <<< word else 0, 1 <<< word)

/-! ## Ring references (R377) -/

/-- What a ring reference names. -/
inductive RingRef where
  /-- a bit outside its fields set, or no such core ring -/
  | bad
  /-- a ring outside the stall -/
  | outside
  | ring (i : Nat)
  | remote (chip : Nat) (ref : Word)
deriving DecidableEq, Repr

/-- Ring reference of a task of stall `st` on a core (R377). -/
def State.ringRef (s : State) (core st : Nat) (v : Word) : RingRef :=
  if v.toNat / 2 ^ 21 ≠ 0 || bitAt v 15 || (fld v 13 1 == 0 && decide (63 < fld v 0 8)) then .bad
  else if bitAt v 20 then .remote (fld v 16 4) (v &&& 0xFFFF)
  else if bitAt v 13 then
    let i := (s.active.pring st).1 + fld v 0 8
    if fld v 0 8 < (s.active.pring st).2 && s.inView (fun t => t.inRange Copy.pring st i) then .ring (pringBase + i)
    else .outside
  else
    let c := if bitAt v 14 then core else fld v 8 5
    if s.inView (fun t => t.hasCore st c) then .ring (64 * c + fld v 0 8) else .outside

/-- The core whose ring unit keeps a ring; none: a Paddock ring. -/
def ringCore (i : Nat) : Option Nat := if i < pringBase then some (i / 64) else none

end Sys2Proof.Machine
end

