-- ==== Sys2Proof/Machine/Encoding.lean ====
section
/-! DEFINITION. The encodings of the core's instructions (R355 to R360, R361 to R379, R397 to R422, R483): which
instruction a word spells, and the zero fields of R357. -/

namespace Sys2Proof.Machine

open Sys2Proof

/-- The instructions of a core. -/
inductive Op where
  | add | sub | and | or | xor | andn | sll | srl | sra | ror | mul | mulhu | mulhs | divu | divs | remu | rems
  | min | max | minu | maxu | clz | ctz | popc | sextb | sexth | sextw | zextw | addw | subw | slt | sltu
  | addi | andi | ori | xori | shi | movw | cmp | cmpi | plog | prd | pwr | br | bal | jr | jalr
  | ld | st | ldx | stx | aaddW | aaddWR | aaddD | aaddDR | afaddS | afaddSR | afxaddD | afxaddS | aswapW | aswapD
  | vget | vput | ptst | vpmask | crr | crw | yield | ctxgo | ctxend | drain | abort
  | tld | tst | tset | tclr | tprobe
  | ringResv | ringFill | ringPush | ringPop | ringPeek | ringState
  | hrd | hwr | hadd | haddn | hwaitGe | hwaitEq | hwaitNe | hmon | hmwait | hmclr
  | mxLda | mxLdb | mxLdc | mxMma | mxDrain | mxZero
  | vadd | vsub | vmul | vmin | vmax | vand | vor | vxor | vsll | vsrl | vsra | vabs | vneg | vmov | vsplat | viota
  | vcmpeq | vcmplt | vcmple | vsel | vfma | vfms | vfnma | vrsum | vrmax | vrmin
  | vexp2 | vlog2 | vrcp | vrsqrt | vsqrt | vld | vldC | vldP | vst | vstF | vcvt | vmxq | vslide | vbexp | vpscore
  | vaaddW | vaaddWR | vaaddD | vaaddDR | vfxadd | vfxaddR
  | streamGo | streamCancel | mset | mcopy | kvWalk | kvAppend
  | carouselStep | barArrive | barWait | barSync
deriving DecidableEq, Repr

/-- Bits [lo + n - 1 : lo] of an instruction, word 0 at bits 31 to 0 and word 1 at bits 63 to 32. -/
def ib (w : Word) (lo n : Nat) : Nat := fld w lo n

/-- Fields of the 32-bit forms (R355). -/
def iMajor (w : Word) : Nat := ib w 26 6
def iPred (w : Word) : Nat := ib w 23 3
def iPneg (w : Word) : Bool := bitAt w 22
def iRd (w : Word) : Nat := ib w 17 5
def iRs1 (w : Word) : Nat := ib w 12 5
def iRs2 (w : Word) : Nat := ib w 7 5
def iMinor (w : Word) : Nat := ib w 0 7
/-- MINOR of a 64-bit instruction (R397). -/
def iWide (w : Word) : Nat := ib w 16 6
/-- Engine operand fields (R409, R483). -/
def iGA (w : Word) : Nat := ib w 59 5
def iGB (w : Word) : Nat := ib w 54 5
def iGC (w : Word) : Nat := ib w 49 5
def iVD (w : Word) : Nat := ib w 12 3
def iVA (w : Word) : Nat := ib w 9 3
def iVB (w : Word) : Nat := ib w 6 3
def iVC (w : Word) : Nat := ib w 3 3
def iT (w : Word) : Bool := bitAt w 15
def iImm22 (w : Word) : Nat := ib w 32 22

/-- Every bit outside the mask of fields that the instruction uses is zero (R357). -/
def within (w : Word) (mask : Nat) : Bool := w.toNat &&& (2 ^ 64 - 1 - mask) == 0

/-- The instruction if the zero fields are zero: `mask` gives the bits it uses below its major, PRED and PNEG. -/
def used (w : Word) (mask : Nat) (o : Op) : Option Op := if within w (0xFFC00000 ||| mask) then some o else none

/-- Masks of the fields of the 32-bit forms. -/
def mRd : Nat := 0x3E0000
def mRs1 : Nat := 0x1F000
def mRs2 : Nat := 0xF80
def mMinor : Nat := 0x7F
/-- RD[2:0], RS1[2:0], RS2[2:0]. -/
def mRd3 : Nat := 0xE0000
def mRs13 : Nat := 0x7000
def mRs23 : Nat := 0x380

/-- Major 0x00 (R361). -/
def decodeAlu (w : Word) : Option Op :=
  let r := used w (mRd ||| mRs1 ||| mRs2 ||| mMinor)
  let u := used w (mRd ||| mRs1 ||| mMinor)
  match iMinor w with
  | 0x00 => r .add | 0x01 => r .sub | 0x02 => r .and | 0x03 => r .or | 0x04 => r .xor | 0x05 => r .andn
  | 0x06 => r .sll | 0x07 => r .srl | 0x08 => r .sra | 0x09 => r .ror | 0x0A => r .mul | 0x0B => r .mulhu
  | 0x0C => r .mulhs | 0x0D => r .divu | 0x0E => r .divs | 0x0F => r .remu | 0x10 => r .rems | 0x11 => r .min
  | 0x12 => r .max | 0x13 => r .minu | 0x14 => r .maxu | 0x15 => u .clz | 0x16 => u .ctz | 0x17 => u .popc
  | 0x18 => u .sextb | 0x19 => u .sexth | 0x1A => u .sextw | 0x1B => u .zextw | 0x1C => r .addw | 0x1D => r .subw
  | 0x1E => r .slt | 0x1F => r .sltu
  | _ => none

/-- Major 0x07 (R365); MINOR[2:0] of PRD and PWR zero. -/
def decodeCmp (w : Word) : Option Op :=
  match iMinor w / 8, iMinor w % 8 with
  | 0, c => if c = 7 then none else used w (mRd ||| mRs1 ||| mRs2 ||| mMinor) .cmp
  | 1, o => if 3 < o then none else used w (mRd3 ||| mRs13 ||| mRs23 ||| mMinor) .plog
  | 2, 0 => used w (mRs2 ||| mMinor) .prd
  | 3, 0 => used w (mRs1 ||| mMinor) .pwr
  | _, _ => none

/-- Major 0x0C (R367, R369). -/
def decodeMemx (w : Word) : Option Op :=
  let m := iMinor w
  if m < 7 then used w (mRd ||| mRs1 ||| mRs2 ||| mMinor) .ldx
  else if 0x10 ≤ m ∧ m < 0x14 then used w (mRd ||| mRs1 ||| mRs2 ||| mMinor) .stx
  else if m = 0x20 then used w (mRs1 ||| mMinor) .jr
  else if m = 0x21 then used w (mRd ||| mRs1 ||| mMinor) .jalr
  else none

/-- Major 0x0D (R370). -/
def decodeAtom (w : Word) : Option Op :=
  let r := used w (mRd ||| mRs1 ||| mRs2 ||| mMinor)
  let n := used w (mRs1 ||| mRs2 ||| mMinor)
  match iMinor w with
  | 0x00 => n .aaddW | 0x01 => r .aaddWR | 0x02 => n .aaddD | 0x03 => r .aaddDR | 0x04 => n .afaddS
  | 0x05 => r .afaddSR | 0x06 => n .afxaddD | 0x08 => n .afxaddS | 0x0A => r .aswapW | 0x0B => r .aswapD
  | _ => none

/-- Major 0x0E (R371). -/
def decodeVmisc (w : Word) : Option Op :=
  match iMinor w with
  | 0x00 => used w (mRd ||| mRs13 ||| mRs2 ||| mMinor) .vget
  | 0x01 => used w (mRd3 ||| mRs1 ||| mRs2 ||| mMinor) .vput
  | 0x02 => used w (mRd3 ||| mRs1 ||| mMinor) .ptst
  | 0x03 => used w (mRd ||| mRs13 ||| mMinor) .vpmask
  | _ => none

/-- Major 0x1A (R376). -/
def decodeTag (w : Word) : Option Op :=
  match iMinor w with
  | 0 => used w (mRs1 ||| mMinor) .tset
  | 1 => used w (mRs1 ||| mMinor) .tclr
  | 2 => used w (mRd ||| mRs1 ||| mMinor) .tprobe
  | _ => none

/-- Major 0x1B (R378). -/
def decodeRing (w : Word) : Option Op :=
  match ib w 4 3 with
  | 0 => used w (mRd ||| mRs1 ||| mMinor) .ringResv
  | 1 => used w (mRd ||| mRs1 ||| mRs2 ||| mMinor) .ringFill
  | 2 => used w (mRd ||| mRs1 ||| mRs2 ||| mMinor) .ringPush
  | 3 => used w (mRd ||| mRs1 ||| mMinor) .ringPop
  | 4 => used w (mRd ||| mRs1 ||| mRs2 ||| mMinor) .ringPeek
  | 5 => used w (mRd ||| mRs1 ||| 0x70) .ringState
  | _ => none

/-- Major 0x1C (R379). -/
def decodeHitch (w : Word) : Option Op :=
  let r := used w (mRd ||| mRs1 ||| mRs2 ||| mMinor)
  match iMinor w with
  | 0x00 => used w (mRd ||| mRs1 ||| mMinor) .hrd
  | 0x01 => used w (mRs1 ||| mRs2 ||| mMinor) .hwr
  | 0x02 => r .hadd
  | 0x03 => used w (mRs1 ||| mRs2 ||| mMinor) .haddn
  | 0x04 => r .hwaitGe
  | 0x05 => r .hwaitEq
  | 0x06 => r .hwaitNe
  | 0x08 => used w (mRd ||| mRs1 ||| mMinor) .hmon
  | 0x09 => used w (mRd ||| mMinor) .hmwait
  | 0x0A => used w mMinor .hmclr
  | _ => none

/-- A 32-bit instruction (R360). -/
def decode32 (w : Word) : Option Op :=
  match iMajor w with
  | 0x00 => decodeAlu w
  | 0x01 => some .addi
  | 0x02 => some .andi
  | 0x03 => some .ori
  | 0x04 => some .xori
  | 0x05 => if ib w 8 4 = 0 then some .shi else none
  | 0x06 => if ib w 16 2 = 0 then some .movw else none
  | 0x07 => decodeCmp w
  | 0x08 => used w 0xFFFF .br
  | 0x09 => used w (mRd ||| 0xFFFF) .bal
  | 0x0A => if ib w 9 3 = 7 then none else some .ld
  | 0x0B => if bitAt w 9 then none else some .st
  | 0x0C => decodeMemx w
  | 0x0D => decodeAtom w
  | 0x0E => decodeVmisc w
  | 0x0F => if ib w 9 3 = 7 then none else some .cmpi
  | 0x10 => used w (mRd ||| 0xF) .crr
  | 0x11 => used w (mRs1 ||| 0xF) .crw
  | 0x12 => used w 0xFFF .yield
  | 0x13 => used w (mRd3 ||| mRs1 ||| mRs2) .ctxgo
  | 0x14 => used w 0 .ctxend
  | 0x15 => used w 0xF .drain
  | 0x16 => used w 0xFFF .abort
  | 0x18 => if ib w 9 3 = 7 then none else some .tld
  | 0x19 => if bitAt w 9 then none else some .tst
  | 0x1A => decodeTag w
  | 0x1B => decodeRing w
  | 0x1C => decodeHitch w
  | _ => none

/-- The 64-bit instruction if the fields it does not use are zero: masks of word 0 [15:0] and of word 1. -/
def usedW (w : Word) (m0 m1 : Nat) (o : Op) : Option Op := used w (0x3F0000 ||| m0 ||| m1 <<< 32) o

/-- Fields of the VXE's word 0 and of word 1 (R409). -/
def mT : Nat := 0x8000
def mVD : Nat := 0x7000
def mVA : Nat := 0xE00
def mVB : Nat := 0x1C0
def mVC : Nat := 0x38
def mGA : Nat := 0xF8000000
def mGB : Nat := 0x7C00000
def mGC : Nat := 0x3E0000

/-- Majors 0x30 to 0x37 (R410 to R418). -/
def decodeVxe (w : Word) : Option Op :=
  let bin := usedW w (mT ||| mVD ||| mVA ||| mVB) 0
  let bits := usedW w (mVD ||| mVA ||| mVB) 0
  let una := usedW w (mT ||| mVD ||| mVA) 0
  let tri := usedW w (mT ||| mVD ||| mVA ||| mVB ||| mVC) 0
  match iMajor w, iWide w with
  | 0x30, 0x00 => bin .vadd | 0x30, 0x01 => bin .vsub | 0x30, 0x02 => bin .vmul | 0x30, 0x03 => bin .vmin
  | 0x30, 0x04 => bin .vmax | 0x30, 0x05 => bits .vand | 0x30, 0x06 => bits .vor | 0x30, 0x07 => bits .vxor
  | 0x30, 0x08 => bits .vsll | 0x30, 0x09 => bits .vsrl | 0x30, 0x0A => bits .vsra
  | 0x30, 0x0B => una .vabs | 0x30, 0x0C => una .vneg
  | 0x30, 0x0D => usedW w (mVD ||| mVA) 0 .vmov
  | 0x30, 0x0E => usedW w mVD mGA .vsplat
  | 0x30, 0x0F => usedW w mVD 0xFFFF .viota
  | 0x30, 0x10 => bin .vcmpeq | 0x30, 0x11 => bin .vcmplt | 0x30, 0x12 => bin .vcmple
  | 0x30, 0x13 => usedW w (mVD ||| mVA ||| mVB ||| mVC) 0 .vsel
  | 0x31, 0x00 => tri .vfma | 0x31, 0x01 => tri .vfms | 0x31, 0x02 => tri .vfnma
  | 0x32, 0x00 => usedW w (mT ||| mVD ||| mVA) 7 .vrsum
  | 0x32, 0x01 => usedW w (mT ||| mVD ||| mVA) 7 .vrmax
  | 0x32, 0x02 => usedW w (mT ||| mVD ||| mVA) 7 .vrmin
  | 0x33, 0x00 => una .vexp2 | 0x33, 0x01 => una .vlog2 | 0x33, 0x02 => una .vrcp | 0x33, 0x03 => una .vrsqrt
  | 0x33, 0x04 => una .vsqrt
  | 0x34, m =>
    let mx := decide (8 ≤ ib w 50 4) && decide (ib w 50 4 ≤ 0xC)
    let k := mGA ||| (if mx then mGB else 0) ||| 0x3FFFFF
    match m with
    | 0 => usedW w (mT ||| mVD) k .vld
    | 1 => usedW w (mT ||| mVD) k .vldC
    | 2 => usedW w (mT ||| mVD) k .vldP
    | _ => none
  | 0x35, 0x00 => usedW w (mT ||| mVA) (mGA ||| 0x3C7FFF) .vst
  | 0x35, 0x01 => usedW w (mT ||| mVA) (mGA ||| 0x3C7FFF) .vstF
  | 0x36, 0x00 => una .vcvt
  | 0x36, 0x01 => usedW w (mT ||| mVD ||| mVA) 0x3C0000 .vmxq
  | 0x36, 0x02 => usedW w (mVD ||| mVA) 0xFF .vslide
  | 0x36, 0x03 => usedW w mVD mGA .vbexp
  | 0x36, 0x04 => usedW w mVA mGA .vpscore
  | 0x37, 0x00 => usedW w mVA (mGA ||| 0x7FFF) .vaaddW
  | 0x37, 0x01 => usedW w (mVD ||| mVA) (mGA ||| 0x7FFF) .vaaddWR
  | 0x37, 0x02 => usedW w mVA (mGA ||| 0x7FFF) .vaaddD
  | 0x37, 0x03 => usedW w (mVD ||| mVA) (mGA ||| 0x7FFF) .vaaddDR
  | 0x37, 0x04 => usedW w (mT ||| mVA) (mGA ||| 0x1FFFF) .vfxadd
  | 0x37, 0x05 => usedW w (mT ||| mVD ||| mVA) (mGA ||| 0x1FFFF) .vfxaddR
  | _, _ => none

/-- Majors 0x38 to 0x3E (R400, R420, R483). -/
def decodeOther (w : Word) : Option Op :=
  match iMajor w, iWide w with
  | 0x38, 0 => usedW w 0x8000 (mGA ||| 0x7FC03FF) .mxLda
  | 0x38, 1 => usedW w 0x8000 (mGA ||| 0x7FC03FF) .mxLdb
  | 0x38, 2 => usedW w 0x8000 (mGA ||| 0x7FC03FF) .mxLdc
  | 0x39, 0 => usedW w 0xFFF8 0xFFFFFFFF .mxMma
  | 0x3A, 0 => usedW w 0xF0FC 0xFFFF0000 .mxDrain
  | 0x3B, 0 => usedW w 0xF0 0xF .mxZero
  | 0x3C, 0 => usedW w 7 (mGA ||| mGB) .streamGo
  | 0x3C, 1 => usedW w 7 0 .streamCancel
  | 0x3C, 2 => usedW w 3 (mGA ||| mGB ||| mGC) .mset
  | 0x3C, 3 => usedW w 3 (mGA ||| mGB ||| mGC) .mcopy
  | 0x3D, 0 => usedW w 7 mGA .kvWalk
  | 0x3D, 1 => usedW w 0 mGA .kvAppend
  | 0x3E, 0 => usedW w 0x1FFF 0xFFFFFF00 .carouselStep
  | 0x3E, 1 => usedW w 0xC000 0x1FF .barArrive
  | 0x3E, 2 => usedW w 0xC000 0x1FF .barWait
  | 0x3E, 3 => usedW w 0xC000 0x1FF .barSync
  | _, _ => none

/-- A word of major 0x30 to 0x3F begins a 64-bit instruction (R354). -/
def isWide (w : Word) : Bool := 0x30 ≤ iMajor w

/-- The instruction that the words at a PC spell; none: ILLEGAL_OP (R357). -/
def decodeOp (w : Word) : Option Op :=
  if isWide w then (if iMajor w < 0x38 then decodeVxe w else decodeOther w) else decode32 w

/-- The queue an engine instruction enters: 0 MXE, 1 VXE, 2 DMA; 3 the context itself (R396, R422). -/
def queueOf (w : Word) : Nat :=
  if iMajor w < 0x38 then 1
  else if iMajor w < 0x3C then 0
  else if iMajor w < 0x3E then 2
  else if iWide w = 0 then 2
  else ib w 14 2

/-- Form W instructions always execute (R356). -/
def unconditional (w : Word) : Bool := iMajor w == 6

/-- The predicate of R356 holds. -/
def Ctx.executes (k : Ctx) (w : Word) : Bool := unconditional w || (k.rp (iPred w) != iPneg w)

/-- Sign extension to 64 bits of an n-bit field. -/
def sext (n v : Nat) : Word := BitVec.ofInt 64 (signed n v)

end Sys2Proof.Machine
end

