-- ==== Sys2Proof/Machine/IssueOps.lean ====
section
/-! DEFINITION. One issue of a scalar context: fetch, the word checks of R357 and R359, the predicate of R356, and the
record of a precise exception (R386). -/

namespace Sys2Proof.Machine

open Sys2Proof

/-- What an instruction that executes works with: its core and context, its words, its PC, its task, and the context
as it stands at issue. -/
structure X where
  core : Nat
  ctx  : Nat
  w    : Word
  pc   : Nat
  t    : Task
  k    : Ctx
  meet : Bool

/-- Source registers named by the fields RD, RS1 and RS2. -/
def X.rd (x : X) : Word × Bool := x.k.rg (iRd x.w)
def X.a (x : X) : Word × Bool := x.k.rg (iRs1 x.w)
def X.b (x : X) : Word × Bool := x.k.rg (iRs2 x.w)

/-- A precise exception of this instruction: the class C fault, nothing else (R386). -/
def X.fault (x : X) (s : State) (code : FaultCode) (addr : Nat := 0) (detail : Nat := 0) : State :=
  s.taskFault x.t.id code 0 x.core (some x.ctx) x.pc x.w addr detail

/-- Words the instruction occupies (R358). -/
def X.words (x : X) : Nat := if isWide x.w then 2 else 1

/-- The context's update with the PC advanced past the instruction (R358). -/
def X.next (x : X) (s : State) (f : Ctx → Ctx) : State :=
  s.updCtx x.core x.ctx fun k => { f k with pc := (x.pc + x.words) % 65536, since := none }

/-- Write rd and advance. -/
def X.ret (x : X) (s : State) (v : Word) (poison : Bool) : State := x.next s fun k => k.wg (iRd x.w) v poison

/-- Deschedule the context (R346). The PC stays at the instruction; `since` is the time of its first issue. -/
def X.wait (x : X) (s : State) (w : Wait) : State :=
  let s := match w with
    | .tag .. => if x.k.since.isNone then s.perf x.core 0x0C 1 else s
    | _ => s
  s.updCtx x.core x.ctx fun k => { k with wait := w, ret := none, since := some (k.since.getD s.now) }

/-- The core may issue: not halted by a debug session, or owed one step (R769). -/
def State.mayIssue (s : State) (c : Nat) : Bool :=
  !bitAt (s.reg .dbgHalted 0) c || KSet.has s.cx.steps c

/-- One issue takes the step owed to a halted core, and the context becomes the last to issue (R344). -/
def State.tookIssue (s : State) (c x : Nat) : State :=
  let s := { s with cx := { s.cx with steps := KSet.del c s.cx.steps } }
  (s.updCore c fun k => { k with last := x }).perf c 0x02 1

/-- The word or words at a context's PC. -/
def State.fetch (s : State) (c pc : Nat) : Word :=
  let w := s.rdNat (isBase c + 4 * pc) 4
  let w0 : Word := BitVec.ofNat 64 w
  if isWide w0 then BitVec.ofNat 64 (w + 2 ^ 32 * s.rdNat (isBase c + 4 * (pc + 1)) 4) else w0

/-- The issue of an instruction by a ready context (R343): the context must be ready and the words at its PC must be
those given, or nothing issues. A fetch beyond CODE_WORDS raises PC_RANGE (R359), words that spell nothing raise
ILLEGAL_OP whatever the predicate (R357), and an instruction whose predicate is false only advances the PC (R356). -/
def issueOf (i : Issue) (o : Op) (run : X → State → State) (s : State) : State :=
  match s.taskOn i.core with
  | none => s
  | some t =>
    let k := s.ctx i.core i.ctx
    if !(decide (i.core < 32) && decide (i.ctx < 8) && t.phase.live && k.started && k.wait == .ready
        && s.mayIssue i.core) then s
    else
      let x : X := ⟨i.core, i.ctx, i.word, k.pc, t, k, i.meet⟩
      let n := s.hdr t.entry 0x0A 2
      let wide := isWide (BitVec.ofNat 64 (s.rdNat (isBase i.core + 4 * k.pc) 4))
      let f := { x with w := 0 }
      if n ≤ k.pc || (wide && decide (n ≤ k.pc + 1)) then f.fault (s.tookIssue i.core i.ctx) .pcRange
      else if s.fetch i.core k.pc ≠ i.word then s
      else match decodeOp i.word with
        | none => x.fault (s.tookIssue i.core i.ctx) .illegalOp
        | some o' =>
          if o' ≠ o then s
          else if !k.executes i.word then x.next (s.tookIssue i.core i.ctx) id
          else run x (s.tookIssue i.core i.ctx)

/-- An instruction whose scalar ALU result goes to rd, poisoned by any poisoned source (R330). -/
def alu (i : Issue) (o : Op) (f : Word → Word → Word) (s : State) : State :=
  issueOf i o (fun x s => x.ret s (f x.a.1 x.b.1) (x.a.2 || x.b.2)) s

/-- The same for an instruction with an immediate: f of rs1 and the word. -/
def aluImm (i : Issue) (o : Op) (f : Word → Word → Word) (s : State) : State :=
  issueOf i o (fun x s => x.ret s (f x.a.1 x.w) x.a.2) s

end Sys2Proof.Machine
end

