-- ==== Sys2Proof/Machine/ScalarControl.lean ====
section
/-! DEFINITION. Compares, predicates, branches, v-register moves, control registers, contexts, DRAIN and wake-up
(R346, R350, R365 to R367, R371 to R375, R384). -/

namespace Sys2Proof.Machine

open Sys2Proof

/-! ## Compares and predicates (R365) -/

/-- The condition with a code. -/
def condition (c : Nat) (a b : Word) : Bool :=
  match c with
  | 0 => a == b
  | 1 => a != b
  | 2 => decide (a.toInt < b.toInt)
  | 3 => decide (b.toInt ≤ a.toInt)
  | 4 => decide (a.toNat < b.toNat)
  | 5 => decide (b.toNat ≤ a.toNat)
  | _ => a &&& b == 0

/-- PD combined with a condition as COMB directs. -/
def combine (comb : Nat) (pd c : Bool) : Bool :=
  match comb with
  | 0 => c
  | 1 => pd && c
  | 2 => pd || c
  | _ => pd && !c

/-- PD := combination of PD and c; a poisoned source is consumed (R333). -/
def X.compare (x : X) (s : State) (poison c : Bool) : State :=
  if poison then x.fault s .poisonConsumed
  else
    let pd := ib x.w 17 3
    x.next s fun k => k.wp pd (combine (ib x.w 20 2) (k.rp pd) c)

/-- CMP: compare two registers (R365). -/
def execCmp (i : Issue) (s : State) : Res :=
  .next (issueOf i .cmp (fun x s => x.compare s (x.a.2 || x.b.2) (condition (ib x.w 0 3) x.a.1 x.b.1)) s)

/-- CMPI: compare a register with IMM9 (R365). -/
def execCmpi (i : Issue) (s : State) : Res :=
  .next (issueOf i .cmpi (fun x s => x.compare s x.a.2 (condition (ib x.w 9 3) x.a.1 (sext 9 (ib x.w 0 9)))) s)

/-- pa op pb of PLOG. -/
def predOp (o : Nat) (a b : Bool) : Bool :=
  match o with
  | 0 => a && b
  | 1 => a || b
  | 2 => a != b
  | _ => a && !b

/-- PLOG: PD := pa op pb (R365). -/
def execPlog (i : Issue) (s : State) : Res :=
  .next (issueOf i .plog (fun x s => x.next s fun k =>
    k.wp (ib x.w 17 3) (predOp (ib x.w 0 3) (k.rp (ib x.w 12 3)) (k.rp (ib x.w 7 3)))) s)

/-- p7 to p0 as bits [7:0]. -/
def Ctx.preds (k : Ctx) : Nat := (List.range 8).foldl (fun n j => n + bit (k.rp j) * 2 ^ j) 0

/-- PRD: g register RS2 := p7…p0 (R365). -/
def execPrd (i : Issue) (s : State) : Res :=
  .next (issueOf i .prd (fun x s => x.next s fun k => k.wg (iRs2 x.w) (BitVec.ofNat 64 k.preds) false) s)

/-- PWR: p1…p7 := rs1[7:1] (R365). -/
def execPwr (i : Issue) (s : State) : Res :=
  .next (issueOf i .pwr (fun x s =>
    if x.a.2 then x.fault s .poisonConsumed
    else x.next s fun k => (List.range 8).foldl (fun k j => k.wp j (bitAt x.a.1 j)) k) s)

/-! ## Branches (R366, R367) -/

/-- Set the PC. -/
def X.jump (x : X) (s : State) (pc : Nat) (f : Ctx → Ctx) : State :=
  s.updCtx x.core x.ctx fun k => { f k with pc := pc % 65536, since := none }

/-- PC + OFF16. -/
def X.target (x : X) : Nat := (((x.pc : Int) + signed 16 (ib x.w 0 16)) % 65536).toNat

/-- BR: PC := PC + OFF16 (R366). -/
def execBr (i : Issue) (s : State) : Res := .next (issueOf i .br (fun x s => x.jump s x.target id) s)

/-- BAL: the same, with rd := PC + 1 (R366). -/
def execBal (i : Issue) (s : State) : Res :=
  .next (issueOf i .bal (fun x s => x.jump s x.target fun k => k.wg (iRd x.w) (BitVec.ofNat 64 (x.pc + 1)) false) s)

/-- A register jump: poison is consumed, and bits [63:14] must be zero (R367). -/
def X.jumpReg (x : X) (s : State) (f : Ctx → Ctx) : State :=
  if x.a.2 then x.fault s .poisonConsumed
  else if x.a.1.toNat / 2 ^ 14 ≠ 0 then x.fault s .pcRange
  else x.jump s x.a.1.toNat f

/-- JR: PC := rs1[13:0] (R367). -/
def execJr (i : Issue) (s : State) : Res := .next (issueOf i .jr (fun x s => x.jumpReg s id) s)

/-- JALR: rd := PC + 1, then PC := rs1[13:0] (R367). -/
def execJalr (i : Issue) (s : State) : Res :=
  .next (issueOf i .jalr (fun x s => x.jumpReg s fun k => k.wg (iRd x.w) (BitVec.ofNat 64 (x.pc + 1)) false) s)

/-! ## v registers (R371) -/

/-- The VXE instruction in a queue entry writes register v n. -/
def EOp.writesV (e : EOp) (n : Nat) : Bool :=
  match decodeOp e.word with
  | some .vst | some .vstF | some .vpscore | some .vaaddW | some .vaaddD | some .vfxadd => false
  | some .barArrive | some .barWait | some .barSync | none => false
  | some _ => iVD e.word == n

/-- An earlier VXE instruction of the context that writes v n is still queued. -/
def State.vBusy (s : State) (core ctx n : Nat) : Bool := (s.core core).vxq.any fun e => e.ctx == ctx && e.writesV n

/-- Lane n of a v register. -/
def laneD (v : VReg) (n : Nat) : Word := (v >>> (64 * n)).setWidth 64

/-- A v register with lane n replaced. -/
def setLaneD (v : VReg) (n : Nat) (d : Word) : VReg :=
  let m : VReg := (BitVec.allOnes 64).setWidth 2048 <<< (64 * n)
  (v &&& ~~~m) ||| (d.setWidth 2048 <<< (64 * n))

/-- Bit n of a poison mask set to b. -/
def setBit32 (m : Word32) (n : Nat) (b : Bool) : Word32 :=
  let k : Word32 := 1 <<< n
  if b then m ||| k else m &&& ~~~k

/-- VGET: g := lane, with its poison (R371). -/
def execVget (i : Issue) (s : State) : Res :=
  .next (issueOf i .vget (fun x s' =>
    let n := ib x.w 12 3
    if s.vBusy x.core x.ctx n then s
    else
      let v := x.k.rv n
      x.ret s' (laneD v.1 (iRs2 x.w)) (v.2.toNat.testBit (iRs2 x.w))) s)

/-- VPUT: lane := g, with the register's poison (R371). -/
def execVput (i : Issue) (s : State) : Res :=
  .next (issueOf i .vput (fun x s' =>
    let n := ib x.w 17 3
    if s.vBusy x.core x.ctx n then s
    else
      let v := x.k.rv n
      x.next s' fun k => k.wv n (setLaneD v.1 (iRs2 x.w) x.a.1) (setBit32 v.2 (iRs2 x.w) x.a.2)) s)

/-- PTST: pd := poison of g, not consumed (R371). -/
def execPtst (i : Issue) (s : State) : Res :=
  .next (issueOf i .ptst (fun x s => x.next s fun k => k.wp (ib x.w 17 3) x.a.2) s)

/-- VPMASK: g := the 32 lane poison bits, without poison (R371). -/
def execVpmask (i : Issue) (s : State) : Res :=
  .next (issueOf i .vpmask (fun x s' =>
    let n := ib x.w 12 3
    if s.vBusy x.core x.ctx n then s else x.ret s' ((x.k.rv n).2.setWidth 64) false) s)

/-! ## Control registers (R350, R351) -/

/-- Queue places taken by instructions that have not started (c10). -/
def depth (q : List EOp) : Nat := (q.filter fun e => !e.began).length

/-- The value of control register n (R350). -/
def State.creg (s : State) (x : X) (n : Nat) : Word :=
  let k := s.core x.core
  match n with
  | 0 => BitVec.ofNat 64 (x.ctx + 8 * x.core + 2 ^ 8 * x.t.stall + 2 ^ 12 * s.f .reinChip 0 0 4
      + 2 ^ 16 * x.t.rank x.core + 2 ^ 21 * x.t.team.length)
  | 1 => BitVec.ofNat 64 x.t.id
  | 2 => BitVec.ofNat 64 x.t.args
  | 3 => BitVec.ofNat 64 s.stamp
  | 4 => x.k.c4
  | 5 => x.k.c5
  | 6 => x.k.c6
  | 7 => BitVec.ofNat 64 (s.f .cmCfg x.core 2 2 + 2 ^ 16 * s.f .cmCfg x.core 16 16)
  | 8 => BitVec.ofNat 64 (bit (x.t.phase == .parking) + 2 * bit x.t.resumed + 2 ^ 16 * x.k.yield_)
  | 9 => BitVec.ofNat 64 ((List.range 32).foldl (fun a j => a + bit (x.k.rg j).2 * 2 ^ j) 0)
  | 10 => BitVec.ofNat 64 (depth k.mxq + 2 ^ 8 * depth k.vxq + 2 ^ 16 * depth k.dmaq)
  | _ => 0

/-- CRR: rd := cn (R372). -/
def execCrr (i : Issue) (s : State) : Res :=
  .next (issueOf i .crr (fun x s => x.ret s (s.creg x (ib x.w 0 4)) false) s)

/-- CRW: cn := rs1; an RO or Reserved register raises CREG_ACCESS and poison is consumed (R350, R351, R372). A write
to c7 waits for its stamp (R246). -/
def execCrw (i : Issue) (s : State) : Res :=
  .next (issueOf i .crw (fun x s =>
    let n := ib x.w 0 4
    if !(n == 4 || n == 5 || n == 6 || n == 7) then x.fault s .cregAccess
    else if x.a.2 then x.fault s .poisonConsumed
    else match n with
      | 4 => x.next s fun k => { k with c4 := x.a.1 }
      | 5 => x.next s fun k => { k with c5 := x.a.1 }
      | 6 => x.next s fun k => { k with c6 := x.a.1 }
      | _ => x.next (s.updCore x.core fun k => { k with cmdma := some (fld x.a.1 0 2, fld x.a.1 16 16) }) id) s)

/-- CMDMA_TAKE_EFFECT: the change of c7 reaches CM_CFG at its stamp (R246, R272). -/
def execCmdmaTakeEffect (core : Nat) (s : State) : Res :=
  .next (match (s.core core).cmdma with
    | some (p, b) =>
      let s := (s.setF .cmCfg core 2 2 p).setF .cmCfg core 16 16 b
      s.updCore core fun k => { k with cmdma := none }
    | none => s)

/-! ## Contexts (R373, R374, R384) -/

/-- YIELD: a number not below YIELD_COUNT raises UNDEF_OPERAND; with a preemption requested the context parks and
continues after its YIELD on resume (R384). -/
def execYield (i : Issue) (s : State) : Res :=
  .next (issueOf i .yield (fun x s =>
    let n := ib x.w 0 12
    if s.hdr x.t.entry 0x12 2 ≤ n then x.fault s .undefOperand
    else if x.t.phase = .parking then x.next s fun k => { k with wait := .parked n, ret := none }
    else x.next s id) s)

/-- CTXGO: start the target context (R373). The entry word forms an address, so its poison is consumed (R333). -/
def execCtxgo (i : Issue) (s : State) : Res :=
  .next (issueOf i .ctxgo (fun x s =>
    let n := ib x.w 17 3
    let t := s.ctx x.core n
    if x.a.2 then x.fault s .poisonConsumed
    else if n = x.ctx || t.started then x.fault s .undefOperand
    else if x.a.1.toNat / 2 ^ 14 ≠ 0 then x.fault s .pcRange
    else
      let new := { Ctx.idle with started := true, pc := x.a.1.toNat, mon := t.mon, joined := t.joined }
      x.next (s.setCtx x.core n (new.wg 1 x.b.1 x.b.2)) id) s)

/-- CTXEND: the context ends (R374). -/
def execCtxend (i : Issue) (s : State) : Res :=
  .next (issueOf i .ctxend (fun x s => x.next s fun k => { k with started := false }) s)

/-- Scalar writes of a context not yet visible: requests at Paddock banks and lines waiting in DCOH (R375). -/
def State.writesPending (s : State) (core ctx : Nat) : Bool :=
  let mine := fun (r : PdReq) => r.core == core && r.ctx == ctx && match r.op with
    | .store .. | .fill .. | .atom .. | .tset | .tclr | .ringFill .. => true
    | _ => false
  s.cx.pd.queues.any (fun e => e.2.any mine) || s.cx.pd.held.any (fun e => e.2.any mine)
    || s.cx.pd.parked.any (fun e => e.2.any fun p => mine p.1)
    || s.cx.pd.returned.any (fun e => e.2.any fun p => mine p.1)
    || s.dcoh.trackers.any fun e => e.2.queue.any fun q => match q.kind with
        | .dev _ _ (some a) => a.store && a.core == core && a.ctx == ctx
        | _ => false

/-- The conditions that a DRAIN mask selects hold (R375). -/
def State.drained (s : State) (core ctx mask : Nat) : Bool :=
  let k := s.core core
  let none_ := fun (q : List EOp) => q.all fun e => e.ctx != ctx
  (!mask.testBit 0 || none_ k.mxq) && (!mask.testBit 1 || none_ k.vxq)
    && (!mask.testBit 2 || (none_ k.dmaq && k.streams.all fun e => e.2.all fun t => t.ctx != ctx))
    && (!mask.testBit 3 || !s.writesPending core ctx)

/-- DRAIN: deschedule until the selected conditions hold (R375). -/
def execDrain (i : Issue) (s : State) : Res :=
  .next (issueOf i .drain (fun x s =>
    let m := ib x.w 0 4
    if s.drained x.core x.ctx m then x.next s id else x.wait s (.drain m)) s)

/-- ABORT: end the task with HARNESS_ABORT carrying the code (R372). -/
def execAbort (i : Issue) (s : State) : Res :=
  .next (issueOf i .abort (fun x s => x.fault s .harnessAbort 0 (ib x.w 0 12)) s)

/-! ## Wake-up (R346) -/

/-- The instruction that waited completes: its result is written and the PC moves past it. -/
def State.complete (s : State) (core ctx : Nat) (rd : Option Nat) (v : Word) (poison : Bool) : State :=
  s.updCtx core ctx fun k =>
    let k := match rd with
      | some r => k.wg r v poison
      | none => k
    { k with pc := (k.pc + (if isWide (s.fetch core k.pc) then 2 else 1)) % 65536, wait := .ready, ret := none, since := none }

/-- A narrow value as a load delivers it (R368). -/
def extend (n : Nat) (sx : Bool) (v : Word) : Word := if sx then sext (8 * n) v.toNat else BitVec.ofNat 64 (fld v 0 (8 * n))

/-- CONTEXT_WAKE: a descheduled context whose condition has ended completes the instruction that waited (R346): data
returned (host data comes with the command, R133), a drain satisfied, or a monitor fired (R459). -/
def execContextWake (core ctx : Nat) (data : Word) (poison : Bool) (s : State) : Res :=
  let k := s.ctx core ctx
  let live := match s.taskOn core with
    | some t => t.phase.live
    | none => false
  .next (if !(live && k.started) then s else
    match k.wait, k.ret with
    | .result rd, some (v, p) => s.complete core ctx rd v p
    | .pop .., some (v, p) | .resv .., some (v, p) | .hitch .., some (v, p) | .monitor _, some (v, p) =>
      s.complete core ctx (some (iRd (s.fetch core k.pc))) v p
    | .host rd n sx, _ =>
      if (s.taskOn core).all fun t => s.present (s.active.hostReq t.stall) then
        s.complete core ctx (some rd) (extend n sx data) poison
      else s
    | .drain m, _ => if s.drained core ctx m then s.complete core ctx none 0 false else s
    | _, _ => s)

end Sys2Proof.Machine
end

