-- ==== Sys2Proof/Machine/CoreMem.lean ====
section
/-! DEFINITION. Core memory and operand buffers: regions and banks (R232 to R234), the four ports and their conflicts
(R236, R248 to R254), narrow and wide accesses with poison (R238 to R241, R329), tags (R274 to R279), accumulator
windows (R310, R311) and the element atomics (R303 to R307). -/

namespace Sys2Proof.Machine

open Sys2Proof

/-! ## Regions and banks -/

/-- What a device address lies in, before any stall check (R232, R353). -/
inductive Region where
  | w | a | p
  /-- OB-A, OB-B, ACC: 0, 1, 2 -/
  | ob (n : Nat)
  | core | paddock | hitch | dram | host | remote | none_
deriving DecidableEq, Repr

/-- Region of a 48-bit device address. -/
def regionOf (a : Nat) : Region :=
  if a < 0x100000 then .w
  else if a < 0x1A0000 then .a
  else if a < 0x200000 then .p
  else if 0x800000 ≤ a ∧ a < 0x810000 then .ob 0
  else if 0x810000 ≤ a ∧ a < 0x820000 then .ob 1
  else if 0x820000 ≤ a ∧ a < 0x840000 then .ob 2
  else if coreSpace ≤ a ∧ a < coreSpace + 0x20000000 then .core
  else if paddockSpace ≤ a ∧ a < paddockSpace + 0x2000000 then .paddock
  else if hitchSpace ≤ a ∧ a < hitchSpace + 0x20000 then .hitch
  else if dramSpace ≤ a ∧ a < hostSpace then .dram
  else if hostSpace ≤ a ∧ a < remoteSpace then .host
  else if remoteSpace ≤ a ∧ a < 0x500000000000 then .remote
  else .none_

/-- In local CM. -/
def Region.isCm : Region → Bool
  | .w | .a | .p => true
  | _ => false

/-- In an operand buffer. -/
def Region.isOb : Region → Bool
  | .ob _ => true
  | _ => false

/-- Global bank of a local CM address (R234); operand buffer n counts as bank 16 + n. -/
def bankAt (a : Nat) : Nat :=
  match regionOf a with
  | .w => a / 256 % 8
  | .a => 8 + (a - 0x100000) / 256 % 5
  | .p => 13 + (a - 0x1A0000) / 256 % 3
  | .ob n => 16 + n
  | _ => 19

/-- Base of an operand buffer. -/
def obBase (n : Nat) : Nat := if n = 0 then 0x800000 else if n = 1 then 0x810000 else 0x820000

/-- Ports of CM in order of priority (R236). -/
def portDma : Nat := 0
def portMxe : Nat := 1
def portVxe : Nat := 2
def portScalar : Nat := 3

/-! ## Conflicts -/

/-- How a CM access ends: performed, lost in a conflict, or not performed because its bank is powered down. -/
inductive CmEnd where
  | ok | lost | off
deriving DecidableEq, Repr

/-- Byte address of an access as CM_CONFLICT_LOG gives it: in CM, or within its operand buffer (R257). -/
def logAddr (a : Nat) : Nat :=
  match regionOf a with
  | .ob n => a - obBase n
  | _ => a

/-- CM_CONFLICT_LOG of a conflict: the winner, the losing port's access and every losing port. -/
def conflictLog (win : Acc) (lose : Nat) (a : Nat) (write : Bool) (ctx : Nat) : Nat :=
  let ob := 16 ≤ win.bank
  win.port + 2 ^ (2 + lose) + (if ob then 0 else win.bank * 2 ^ 6) + bit win.write * 2 ^ 10 + bit write * 2 ^ 11
    + bit (win.addr / 8 == a / 8) * 2 ^ 12 + (if ob then (win.bank - 15) * 2 ^ 13 else 0)
    + logAddr a * 2 ^ 16 + (if lose = portScalar then ctx * 2 ^ 37 else 0) + logAddr win.addr * 2 ^ 40 + 2 ^ 63

/-- The effective conflict mode is LOG (R251). -/
def State.logMode (s : State) (core : Nat) : Bool := s.f .cmCfg core 0 1 = 1 || s.f .cmCfg core 1 1 = 1

/-- Unit code of the fault log for a port. -/
def portUnit (p : Nat) : Nat :=
  match p with
  | 0 => 3
  | 1 => 1
  | 2 => 2
  | _ => 0

/-- A CM or operand-buffer access by a port (R235, R248 to R254, R257). `meet`: it falls in the CCLK of the accesses
last recorded; otherwise it has a CCLK of its own. A port that outranks one recorded there likewise takes a CCLK of
its own. -/
def State.cmTouch (s : State) (core port a : Nat) (write meet : Bool) (ctx pc : Nat) (insn : Word) : CmEnd × State :=
  let b := bankAt a
  if b < 16 && bitAt (s.reg .cmCfg core) (32 + b) then (.off, s) else
  let s := if port = portDma then s.perf core 0x07 1 else s
  let k := s.core core
  let me : Acc := ⟨port, b, a, write, false⟩
  -- in a DMA slot an access to a bank of DMA_BANKS takes the next CCLK (R244)
  let held := b < 16 && (k.accs.any fun e => e.port == portDma) && bitAt (s.reg .cmCfg core) (16 + b)
  if !(meet && !held && k.accs.all fun e => e.port < port) then (.ok, s.setCore core { k with accs := [me] }) else
  match k.accs.find? fun e => e.bank == b with
  | none => (.ok, s.setCore core { k with accs := k.accs ++ [me] })
  | some w =>
    let rec_ := conflictLog w port a write ctx
    let s := s.setCore core { k with accs := k.accs.map fun e => if e.bank = b then { e with met := true } else e }
    -- a further loser at this bank in this CCLK belongs to the conflict already counted
    if w.met then
      (.lost, s.setF .cmConflictLog core (2 + port) 1 1)
    else
      let s := (s.addF .cmConflictCount core 0 32 1).perf core 0x09 1
      let s := if bitAt (s.reg .cmConflictLog core) 63 then s
        else (s.setReg .cmConflictLog core (BitVec.ofNat 64 rec_)).setReg .cmConflictStamp core (BitVec.ofNat 64 s.stamp)
      let s := match s.logMode core, (s.core core).task with
        | false, some id =>
          s.taskFault id .cmConflict (portUnit port) core (some ctx) pc insn a (rec_ + 2 ^ 64 * s.stamp)
        | _, _ => s
      (.lost, s)

/-! ## Narrow accesses -/

/-- The value of n bytes at a key, with the poison of the word or codeword it lies in. -/
def State.narrowRead (s : State) (key n : Nat) : Word × Bool := (BitVec.ofNat 64 (s.rdNat key n), s.poisonAt key)

/-- Write n bytes at a key (R241, R329): poisoned data poisons the word; a whole unpoisoned word clears its poison. -/
def State.narrowWrite (s : State) (key n : Nat) (v : Word) (poison : Bool) : State :=
  let t := s.wrNat key n v.toNat
  if poison then t.setPoison key true
  else if n = 8 && decide (dramTop ≤ key) then t.setPoison key false
  else t

/-! ## Tags (R274 to R279) -/

/-- The local address carries a tag: it lies in the A-region. -/
def tagged (a : Nat) : Bool := regionOf a == .a

/-- Set a slot's tag; requests parked on a Paddock slot whose tag changes rejoin its bank (R282). -/
def State.putTag (s : State) (key : Nat) (full : Bool) : State :=
  if s.tagAt key = full then s
  else
    let s := s.setTag key full
    if pdBase ≤ key && key < pdBase + 0x2000000 then
      let slice := (key - pdBase) / 2 ^ 23
      let l := Tbl.get [] s.cx.pd.parked slice
      let l := l.map fun e => if e.1.off / 256 = (key - pdBase) / 256 then (e.1, true) else e
      { s with cx := { s.cx with pd := { s.cx.pd with parked := Tbl.put [] s.cx.pd.parked slice l } } }
    else s

/-! ## Accumulator windows (R310, R311) -/

/-- SCALE of the lowest enabled P-region window of a core over a local address. -/
def State.cmScale (s : State) (core a : Nat) : Option Nat :=
  (List.range 4).findSome? fun w =>
    let r := s.reg .cmAccw (4 * core + w)
    let line := (a - 0x1A0000) / 256
    if bitAt r 0 && decide (fld r 16 11 ≤ line) && decide (line < fld r 16 11 + fld r 32 11) then some (fld r 8 7)
    else none

/-- SCALE of a Paddock window entry of the stall over a Paddock offset. -/
def State.pdScale (s : State) (st o : Nat) : Option Nat :=
  (List.range 64).findSome? fun w =>
    let r := s.reg .pdAccw0 w
    let q := s.reg .pdAccw1 w
    if bitAt r 0 && fld r 1 4 == st && decide (fld q 0 17 ≤ o / 256) && decide (o / 256 < fld q 0 17 + fld q 32 18)
    then some (fld r 8 7) else none

/-! ## Element atomics (R303 to R307, R331) -/

/-- Bytes of an element. -/
def Atom.size : Atom → Nat
  | .addW | .addS | .swapW => 4
  | .addD | .swapD => 8
  | .fxD | .fxS => 12

/-- An FX96 atomic. -/
def Atom.isFx : Atom → Bool
  | .fxD | .fxS => true
  | _ => false

/-- Alignment of an element atomic (R304). -/
def Atom.aligned (k : Atom) (a : Nat) : Bool :=
  if k.isFx then a % 256 % 12 == 0 && decide (a % 256 / 12 ≤ 20) else a % k.size == 0

/-- FX96 add of (M, SAT) to the value at a key (R314); poison poisons both words that hold its bytes and leaves SAT. -/
def State.fxAdd (s : State) (key : Nat) (m : Nat × Bool) (poison : Bool) : State :=
  let n := s.rdNat key 12
  let j := key % 256 / 12
  let p := poison || s.poisonAt key || s.poisonAt (key + 11)
  let t := s.wrNat key 12 ((n + m.1) % 2 ^ 96)
  if p then (t.setPoison key true).setPoison (key + 11) true
  else if m.2 then
    let st := key / 256 * 256 + 252
    t.wrNat st 4 (t.rdNat st 4 % 2 ^ 21 ||| 2 ^ j)
  else t.wrNat (key / 256 * 256 + 252) 4 (t.rdNat (key / 256 * 256 + 252) 4 % 2 ^ 21)

/-- An element atomic at a key: the old value as it is returned, its poison, and the state (R306, R307, R331, R370).
`scale` is that of the accumulator window for an FX96 add. -/
def State.atomic (s : State) (key : Nat) (k : Atom) (v : Word) (poison : Bool) (scale : Nat) : Word × Bool × State :=
  let n := s.rdNat key k.size
  let p := poison || s.poisonAt key
  let put := fun (w : Nat) (ret : Word) =>
    let t := s.wrNat key k.size w
    (ret, p, if p then t.setPoison key true else t)
  match k with
  | .addW => put ((n + v.toNat) % 2 ^ 32) (sext 32 n)
  | .addD => put ((n + v.toNat) % 2 ^ 64) (BitVec.ofNat 64 n)
  | .addS => put (f32Add n (v.toNat % 2 ^ 32)) (BitVec.ofNat 64 n)
  | .swapW => put (v.toNat % 2 ^ 32) (BitVec.ofNat 64 n)
  | .swapD => put v.toNat (BitVec.ofNat 64 n)
  | .fxD => (0, p, s.fxAdd key (toFx scale (ofInt v.toInt)) poison)
  | .fxS => (0, p, s.fxAdd key (toFx scale (ofF32 (v.toNat % 2 ^ 32))) poison)

end Sys2Proof.Machine
end

