-- ==== Sys2Proof/Machine/Paddock.lean ====
section
/-! DEFINITION. The Paddock's banks, pending queues and tag-wait tables (R262 to R271, R279, R282 to R285). -/

namespace Sys2Proof.Machine

open Sys2Proof

/-- Slice of a Paddock offset (R262). -/
def pdSlice (o : Nat) : Nat := o / 2 ^ 23 % 4

/-- Bank of an offset within its slice (R262). -/
def pdBankIn (o : Nat) : Nat := (o / 2 ^ 8 % 32) ^^^ (o / 2 ^ 13 % 32) ^^^ (o / 2 ^ 18 % 32)

/-- Bank of an offset among the 128 of the chip. -/
def pdBank (o : Nat) : Nat := 32 * pdSlice o + pdBankIn o

/-- Requester index of a core at a slice (R29, R30). -/
def pdIndex (core slice : Nat) : Nat :=
  let q := core / 8
  if q = slice then 2 + core % 8
  else
    let d := (slice + 4 - q) % 4
    -- one hop ascending, one hop descending, or two hops in the direction of the source's parity
    if d = 1 then 10 else if d = 3 then 11 else if q % 2 = 0 then 10 else 11

/-- Put a request in its place among those that wait: by arrival, then by requester index (R267, R268). -/
def queueIn (r : PdReq) : List PdReq → List PdReq
  | [] => [r]
  | h :: t => if r.arrival < h.arrival ∨ (r.arrival = h.arrival ∧ r.index < h.index) then r :: h :: t else h :: queueIn r t

/-- Requests waiting at a bank. -/
def State.pdQueue (s : State) (b : Nat) : List PdReq := Tbl.get [] s.cx.pd.queues b

/-- Replace the requests waiting at a bank. -/
def State.setPdQueue (s : State) (b : Nat) (l : List PdReq) : State :=
  { s with cx := { s.cx with pd := { s.cx.pd with queues := Tbl.put [] s.cx.pd.queues b l } } }

/-- Requests refused at the crossbar for a bank. -/
def State.pdHeld (s : State) (b : Nat) : List PdReq := Tbl.get [] s.cx.pd.held b

/-- Replace them. -/
def State.setPdHeld (s : State) (b : Nat) (l : List PdReq) : State :=
  { s with cx := { s.cx with pd := { s.cx.pd with held := Tbl.put [] s.cx.pd.held b l } } }

/-- Bridle counters change only while BRIDLE_CNT_CTL.FREEZE = 0 (R638). -/
def State.bridleCount (s : State) (f : State → State) : State := if s.f .bridleCntCtl 0 0 1 = 1 then s else f s

/-- A Paddock request is performed after waiting `wait` NCLK (R636). -/
def State.pdCount (s : State) (off index wait : Nat) : State :=
  let i := 12 * pdSlice off + index
  s.bridleCount fun s => ((s.addF .bridlePreq0 i 0 48 1).addF .bridlePreq1 i 0 48 wait).maxF .bridlePreq2 i 0 32 wait

/-- A request reaches its bank: it joins the pending queue, or is refused while 16 requests wait (R269); a request of
the same NCLK and a lower index goes before it (R267). -/
def State.pdSend (s : State) (r : PdReq) : State :=
  let b := pdBank r.off
  let i := 12 * pdSlice r.off + r.index
  let s := if (s.pdQueue b).any fun q => q.arrival == r.arrival && decide (q.index < r.index) then
    s.bridleCount fun s => s.addF .bridlePreq2 i 32 32 1 else s
  let s := if (s.pdQueue b).length < 16 && (s.pdHeld b).isEmpty then s
    else s.bridleCount fun s => s.addF .bridlePreq3 i 0 32 1
  if (s.pdQueue b).length < 16 && (s.pdHeld b).isEmpty then s.setPdQueue b (queueIn r (s.pdQueue b))
  else s.setPdHeld b (s.pdHeld b ++ [r])

/-- A value comes back to the context that waits for it, if its task still runs there. -/
def State.deliver (s : State) (core ctx : Nat) (task : Option Nat) (v : Word) (poison : Bool) : State :=
  if task.isSome && (s.core core).task = task then
    s.updCtx core ctx fun k => match k.wait with
      | .result _ | .pop .. => { k with ret := some (v, poison) }
      | .tag .. => { k with wait := .result none, ret := some (v, poison) }
      | _ => k
  else s

/-- The tag state a request waits for, if it waits for one (R275). -/
def PdOp.wants : PdOp → Option Bool
  | .tagged .. | .pop .. => some true
  | .fill .. | .ringFill .. => some false
  | _ => none

/-- The pop that stands first at a Paddock ring is given index HEAD and its consume goes to the slot's bank (R291). -/
def State.startPop (s : State) (i : Nat) : State :=
  match (s.ring i).pops with
  | p :: rest =>
    if p.sent then s
    else
      let r := s.ring i
      let o := s.ringAddr i (s.ringHead i)
      (s.setRing i { r with pops := { p with sent := true } :: rest }).pdSend
        { off := o, op := .pop i, core := p.core, ctx := p.ctx, task := some p.task, arrival := s.now
          index := pdIndex p.core (pdSlice o), since := none }
  | [] => s

/-- A credited fill is performed if its index is still a credit (R294); another chip's is answered (R653, R663). -/
def State.landFill (s : State) (key ring k : Nat) (d : Line256) (pois words : Word32) (remote : Option (Nat × Word)) :
    State :=
  (((s.wrWords key d pois words).putTag key true).spendCredit ring k).wackFill remote 0

/-- A request whose tag is as it wants is performed (R265, R275, R291). -/
def State.pdPerform (s : State) (r : PdReq) : State :=
  let key := pdBase + r.off
  let back := fun (s : State) (v : Word) (p : Bool) => s.deliver r.core r.ctx r.task v p
  match r.op with
  | .load n sx =>
    let v := s.narrowRead key n
    back s (extend n sx v.1) v.2
  | .store n d p => s.narrowWrite key n d p
  | .tagged n sx peek =>
    let v := s.narrowRead key n
    let s := if peek then s else s.putTag key false
    back s (extend n sx v.1) v.2
  | .fill n d p => back ((s.narrowWrite key n d p).putTag key true) 0 false
  | .tset => s.putTag key true
  | .tclr => s.putTag key false
  | .probe => back s (if s.tagAt key then 1 else 0) false
  | .atom k d p =>
    let a := s.atomic key k d p ((s.pdScale ((r.task.bind s.task?).elim 0 fun t => t.stall) r.off).getD 0)
    back a.2.2 a.1 a.2.1
  | .pop ring =>
    match (s.ring ring).pops with
    | [] => s
    | p :: rest =>
      let v := s.narrowRead (key / 256 * 256 + 8 * p.word) 8
      let rg := s.ring ring
      let s := ((s.putTag key false).advanceHead ring).setRing ring { rg with pops := rest }
      (back s v.1 v.2).startPop ring
  | .ringFill ring k d pois words remote =>
    if s.reserved ring k then s.landFill (key / 256 * 256) ring k d pois words remote
    else match remote, r.task with
      | some _, _ => s.wackFill remote 3
      | none, some id => s.taskFault id .noCredit 0 r.core (some r.ctx)
      | none, none => s

/-- A request whose tag is not as it wants is parked in its slice's table of 64, or returned when the table is full;
its wait runs from its first test (R282 to R284). -/
def State.pdPark (s : State) (r : PdReq) : State :=
  let s := if r.since.isNone then s.perf r.core 0x0C 1 else s
  let r := { r with since := some (r.since.getD s.now) }
  let sl := pdSlice r.off
  let l := Tbl.get [] s.cx.pd.parked sl
  let pd := s.cx.pd
  if l.length < 64 then { s with cx := { s.cx with pd := { pd with parked := Tbl.put [] pd.parked sl (l ++ [(r, false)]) } } }
  else
    let m := Tbl.get [] pd.returned sl
    { s with cx := { s.cx with pd := { pd with returned := Tbl.put [] pd.returned sl (m ++ [(r, s.now)]) } } }

/-- One bank's NCLK: its oldest request is performed, or parked (R265, R268, R282); then a place is offered to the
crossbar (R269). -/
def State.pdStep (s : State) (b : Nat) : State :=
  match s.pdQueue b with
  | [] =>
    match s.pdHeld b with
    | [] => s
    | h :: t => (s.setPdHeld b t).setPdQueue b [h]
  | r :: rest =>
    let s := (s.setPdQueue b rest).pdCount r.off r.index (s.now - r.arrival)
    let s := match r.op.wants with
      | some f => if s.tagAt (pdBase + r.off) = f then s.pdPerform r else s.pdPark r
      | none => s.pdPerform r
    match s.pdHeld b with
    | h :: t => if (s.pdQueue b).length < 16 then (s.setPdHeld b t).setPdQueue b (queueIn h (s.pdQueue b)) else s
    | [] => s

/-- Every request waiting at a bank is performed in its order: what a later request at the bank finds done. -/
def State.pdDrainN (s : State) (b : Nat) : Nat → State
  | 0 => s
  | n + 1 => (s.pdStep b).pdDrainN b n

/-- The bank of an offset with every earlier request performed. -/
def State.pdSettle (s : State) (o : Nat) : State :=
  let b := pdBank o
  s.pdDrainN b ((s.pdQueue b).length + (s.pdHeld b).length)

/-- PADDOCK_BANK_ACCESS: a bank's oldest request is performed (R268). -/
def execPaddockBankAccess (slice bank : Nat) (s : State) : Res := .next (s.pdStep (32 * (slice % 4) + bank % 32))

/-- TAG_WAIT_REJOIN: requests parked on a slot whose tag has changed join the end of their bank's queue, whatever its
count, in the order in which they were parked (R282). -/
def execTagWaitRejoin (slice : Nat) (s : State) : Res :=
  let l := Tbl.get [] s.cx.pd.parked slice
  let woken := l.filter fun e => e.2
  let s := { s with cx := { s.cx with pd := { s.cx.pd with
    parked := Tbl.put [] s.cx.pd.parked slice (l.filter fun e => !e.2) } } }
  .next (woken.foldl (fun s e => s.setPdQueue (pdBank e.1.off) (s.pdQueue (pdBank e.1.off) ++
    [{ e.1 with arrival := s.now }])) s)

/-- TAG_WAIT_RETURN: the request longest returned from a slice's full table is presented to its bank again, at least
32 NCLK after its return (R283). -/
def execTagWaitReturn (slice : Nat) (s : State) : Res :=
  .next (match Tbl.get [] s.cx.pd.returned slice with
    | [] => s
    | (r, t) :: rest =>
      let s := s.notBefore (t + 32)
      let s := { s with cx := { s.cx with pd := { s.cx.pd with returned := Tbl.put [] s.cx.pd.returned slice rest } } }
      s.pdSend { r with arrival := s.now })

/-- A request of a scalar context to the Paddock. -/
def X.pdReq (x : X) (s : State) (o : Nat) (op : PdOp) : PdReq :=
  { off := o, op := op, core := x.core, ctx := x.ctx, task := some x.t.id, arrival := s.now
    index := pdIndex x.core (pdSlice o), since := none }

end Sys2Proof.Machine
end

