-- ==== Sys2Proof/Machine/Coherence.lean ====
section
/-! DEFINITION. Host-visible capacity as requesters and device engines see it (R101 to R105, R110, R138 to R141), and
the device coherence engine: snoop filter, order stage, snoops, evictions and timeouts (chapter 4). -/

namespace Sys2Proof.Machine

open Sys2Proof

/-! ## Capacity -/

/-- Usable and device-reserved blocks of the card (R101, R102). -/
def State.usableBlocks (s : State) : Nat := s.f .devDramCap 0 0 16
def State.hostBlocks (s : State) : Nat := if s.card.order = .a256 ∨ s.card.order = .p256 then 928 else 464

/-- Holder of a block as static capacity, by the first row of an assignment that covers it. -/
def holderIn (t : List (Nat × Nat × Option Nat)) (b : Nat) : Option Nat :=
  match t.find? fun e => decide (e.1 ≤ b) && decide (b < e.1 + e.2.1) with
  | some e => e.2.2
  | none => none

/-- Static capacity of a requester in force, as ascending blocks (R102, R104). -/
def State.staticBlocks (s : State) (req : Nat) : List Nat :=
  (List.range s.hostBlocks).filter fun b => holderIn s.link.held b == some req

/-- The extent that a block belongs to. -/
def State.extentOf (s : State) (b : Nat) : Option Extent := s.link.extents.find? fun e => e.blocks.contains b

/-- A physical offset lies in HDM-DB capacity: a region 1 extent (R138). -/
def State.hdmDb (s : State) (p : Nat) : Bool :=
  match s.extentOf (p / blockSize) with
  | some e => e.region == 1
  | none => false

/-- First DPA of DC region r; an extent's blocks keep their physical offset within it. -/
def dcBase (r : Nat) : Nat := 2 ^ 40 * (1 + r)

/-- What a DPA of a requester maps to: a physical offset (R102, R105, R114). -/
def State.hostMap (s : State) (req dpa : Nat) : Option Nat :=
  if dpa < dcBase 0 then
    ((s.staticBlocks req)[dpa / blockSize]?).map fun b => b * blockSize + dpa % blockSize
  else
    let r := dpa / 2 ^ 40 - 1
    let p := dpa % 2 ^ 40
    match s.extentOf (p / blockSize) with
    | some e => if e.region = r && e.holders.contains req then some p else none
    | none => none

/-- Requesters that hold a physical offset (R126). -/
def State.ownersOf (s : State) (p : Nat) : List Nat :=
  match s.extentOf (p / blockSize) with
  | some e => e.holders
  | none => (holderIn s.link.held (p / blockSize)).toList

/-- A General Media event record about a codeword, to every requester that holds it (R126). -/
def State.mediaEvent (s : State) (log p : Nat) : State :=
  s.postEvent log ⟨.generalMedia, p / 64 * 64⟩ (s.ownersOf p)

/-! ## The snoop filter (R142 to R146) -/

/-- DRAM channel of a physical offset (R28). -/
def dramChannel (a : Nat) : Nat := (a / 2 ^ 8 % 32) ^^^ (a / 2 ^ 13 % 32) ^^^ (a / 2 ^ 18 % 32)

/-- DCOH slice of a line (R138). -/
def lineSlice (line : Nat) : Nat := dramChannel (64 * line) / 8

/-- Set of a line within its slice (R142). -/
def lineSet (line : Nat) : Nat := (line * 64 / 2 ^ 8 % 2 ^ 14) ^^^ (line * 64 / 2 ^ 22 % 2 ^ 14)

/-- Entry of a line. -/
def State.sf (s : State) (line : Nat) : Option SfEntry := s.dcoh.filter.find? fun e => e.line == line

/-- Holders of a line. -/
def State.holders (s : State) (line : Nat) : List Nat := ((s.sf line).map SfEntry.present).getD []

/-- A line is in state E. -/
def State.lineE (s : State) (line : Nat) : Bool := ((s.sf line).map SfEntry.excl).getD false

/-- Replace the filter, with DCOH_SF_STATUS.USED. -/
def State.setFilter (s : State) (l : List SfEntry) : State :=
  { s with dcoh := { s.dcoh with filter := l } }.setF .dcohSfStatus 0 0 21 l.length

/-- Entries of the set of a line. -/
def State.setOf (s : State) (line : Nat) : List SfEntry :=
  s.dcoh.filter.filter fun e => e.slice == lineSlice line && e.set == lineSet line

/-- Lowest free way of a line's set (R142). -/
def State.freeWay (s : State) (line : Nat) : Option Nat :=
  (List.range 16).find? fun w => (s.setOf line).all fun e => e.way != w

/-- The entry of a full set allocated earliest (R142). -/
def State.victim (s : State) (line : Nat) : Option SfEntry :=
  (s.setOf line).foldl (fun a e => match a with
    | none => some e
    | some v => if e.born < v.born then some e else some v) none

/-- Set a line's holders; no holder frees the entry (state I), a new holder of an untracked line takes a way. -/
def State.setHolders (s : State) (line : Nat) (excl : Bool) (present : List Nat) : State :=
  let rest := s.dcoh.filter.filter fun e => e.line != line
  if present.isEmpty then s.setFilter rest else
  match s.sf line with
  | some e => s.setFilter ({ e with excl := excl, present := present } :: rest)
  | none =>
    let e : SfEntry := { line := line, excl := excl, present := present, poison := false, slice := lineSlice line
                         set := lineSet line, way := (s.freeWay line).getD 0, born := s.dcoh.born }
    { s with dcoh := { s.dcoh with born := s.dcoh.born + 1 } }.setFilter (e :: rest)

/-! ## Trackers -/

/-- Tracker of a line. -/
def State.tracker (s : State) (line : Nat) : Tracker := Tbl.get Tracker.idle s.dcoh.trackers line

/-- Replace a tracker. -/
def State.setTracker (s : State) (line : Nat) (t : Tracker) : State :=
  { s with dcoh := { s.dcoh with trackers := Tbl.put Tracker.idle s.dcoh.trackers line t } }

/-- Ingress and sub of a requester (R152). -/
def State.tieKey (s : State) (req : Nat) : Nat × Nat :=
  match s.f .devLink 0 0 2 with
  | 1 => (0, req)
  | 2 => (req, 0)
  | _ => (0, 0)

/-- Put a request in service order: by arrival, then by tie key (R151, R152). -/
def orderIn (r : DReq) : List DReq → List DReq
  | [] => [r]
  | h :: t =>
    if r.arrival < h.arrival ∨ (r.arrival = h.arrival ∧ (r.ingress < h.ingress ∨ (r.ingress = h.ingress ∧ r.sub < h.sub)))
    then r :: h :: t else h :: orderIn r t

/-- Record the first tie (R156). -/
def State.recordTie (s : State) (line : Nat) (r : DReq) : State :=
  if bitAt (s.reg .dcohRaceLog 0) 13 then s else
  match (s.tracker line).queue.filter fun q => q.arrival == r.arrival with
  | [] => s
  | q :: _ =>
    let first := q.ingress < r.ingress ∨ (q.ingress = r.ingress ∧ q.sub < r.sub)
    let w := if first then q else r
    let l := if first then r else q
    let wb := s.dcoh.lastWb == some (line, s.now)
    s.setReg .dcohRaceLog 0 (BitVec.ofNat 64 (w.ingress + 4 * w.sub + 2 ^ 6 * l.ingress + 2 ^ 8 * l.sub + 2 ^ 12 * bit wb
      + 2 ^ 13 + 2 ^ 16 * (line % 2 ^ 32)))

/-- Most requests a tracker queue holds (section 4.1). -/
def trackerPlaces : Nat := 32

/-- A request enters the order stage; with its queue full it is not accepted (R151, R155). -/
def State.enterOrder (s : State) (line : Nat) (kind : DReqKind) (ingress sub : Nat) : State :=
  let t := s.tracker line
  if trackerPlaces ≤ t.queue.length then s
  else
    let r : DReq := ⟨kind, s.now, ingress, sub⟩
    -- a request whose snoops are out is being served; none is ordered before it
    let q := match t.queue with
      | h :: rest => if t.asked || !t.snoops.isEmpty then h :: orderIn r rest else orderIn r t.queue
      | [] => [r]
    (s.recordTie line r).setTracker line { t with queue := q }

/-- Send snoops of one kind to requesters (R149). -/
def State.snoop (s : State) (line : Nat) (kind : BiSnp) (reqs : List Nat) : State :=
  let t := s.tracker line
  let s := s.setTracker line { t with snoops := t.snoops ++ reqs.map fun r => (r, kind, s.now) }
  reqs.foldl (fun s r => (s.emit (.bisnp r line kind)).addF .dcohBiCount 0 0 32 1) s

/-- A 64-byte line of DRAM with its poison. -/
def State.readLine64 (s : State) (line : Nat) : Line64 × Bool :=
  (BitVec.ofNat 512 (s.rdNat (64 * line) 64), KSet.has s.dpoison line)

/-- Write a whole line; its poison follows the data (R167). -/
def State.writeLine64 (s : State) (line : Nat) (d : Line64) (poison : Bool) : State :=
  (s.wrNat (64 * line) 64 d.toNat).setPoison (64 * line) poison

/-- The snoops a request needs in the state it sees (R147). -/
def State.snoopsFor (s : State) (line : Nat) : DReqKind → Option (BiSnp × List Nat)
  | .hostRd req _ mv =>
    let others := (s.holders line).filter (· != req)
    match mv with
    | .invalid => if s.lineE line && !others.isEmpty then some (.cur, others) else none
    | .shared => if s.lineE line && !others.isEmpty then some (.data, others) else none
    | .any => if others.isEmpty then none else some (.inv, others)
  | .hostWr req _ _ _ _ =>
    let others := (s.holders line).filter (· != req)
    if others.isEmpty then none else some (.inv, others)
  | .dev _ write _ =>
    let all := s.holders line
    if write then (if all.isEmpty then none else some (.inv, all))
    else if s.lineE line then some (.cur, all) else none
  | .release req _ => if (s.holders line).contains req then some (.inv, [req]) else none

/-- The request leaves its requester holding the line, which then needs an entry. -/
def DReqKind.allocates : DReqKind → Bool
  | .hostRd _ _ mv => mv != .invalid
  | .hostWr _ _ mv _ _ => mv != .invalid
  | _ => false

/-- State of a line after a write by a requester (R147). -/
def State.afterWrite (s : State) (line req : Nat) (mv : MetaValue) : State :=
  match mv with
  | .invalid => s.setHolders line false []
  | .shared => s.setHolders line false [req]
  | .any => s.setHolders line true [req]

/-- A scalar access to DRAM is performed, and a load's value returns (R147, R354). -/
def State.devAccess (s : State) (d : DevAcc) : State :=
  if d.store then s.narrowWrite d.a d.n d.data d.poison
  else
    let v := s.narrowRead d.a d.n
    s.deliver d.core d.ctx d.task (extend d.n d.sx v.1) v.2

/-- An extent that a requester no longer holds and is no longer offered. -/
def Extent.without (req : Nat) (e : Extent) : Extent :=
  { e with holders := e.holders.filter (· != req), offered := e.offered.filter (· != req) }

/-- Update an extent. -/
def State.updExtent (s : State) (id : Nat) (f : Extent → Extent) : State :=
  { s with link := { s.link with extents := s.link.extents.map fun e => if e.id = id then f e else e } }

/-- A requester or a stall holds an extent, or it is on offer (R116). -/
def State.extentHeld (s : State) (e : Extent) : Bool :=
  !e.holders.isEmpty || !e.offered.isEmpty || e.blocks.any fun b => (stallWhere fun st => s.active.coversBlock st b).isSome

/-- Extents that nothing holds any longer return to device-only capacity (R116). -/
def State.sweepExtents (s : State) : State :=
  { s with link := { s.link with extents := s.link.extents.filter s.extentHeld } }

/-- Once a requester's last line of an extent is given back, its release takes effect (R115, R162). -/
def State.finishRelease (s : State) (req ext : Nat) : State :=
  let waiting := s.dcoh.trackers.any fun e => e.2.queue.any fun q => q.kind == .release req ext
  if waiting then s else (s.updExtent ext (Extent.without req)).sweepExtents

/-- The access itself and its response, once its snoops are done (R147, R151, R154). -/
def State.performReq (s : State) (line : Nat) (r : DReq) : State :=
  match r.kind with
  | .hostRd req dpa mv =>
    let d := s.readLine64 line
    let s := s.emit (.memData req dpa d.1 d.2 mv)
    let s := if d.2 then s.mediaEvent 2 (64 * line) else s
    match mv with
    | .invalid => s
    | .shared => s.setHolders line false (KSet.add req (s.holders line))
    | .any => s.setHolders line true [req]
  | .hostWr req dpa mv data poison =>
    ((s.writeLine64 line data poison).emit (.memCmp req dpa)).afterWrite line req mv
  | .dev _ _ acc =>
    match acc with
    | some d => s.devAccess d
    | none => s
  | .release req ext => (s.setHolders line false ((s.holders line).filter (· != req))).finishRelease req ext

/-- The requester that made a request. -/
def DReqKind.requester : DReqKind → Option Nat
  | .hostRd r .. => some r
  | .hostWr r .. => some r
  | _ => none

/-- Serve the request at the head of a line's queue as far as it goes: send its snoops, evict a victim first where its
entry needs a way, or perform it and answer (R145 to R151). -/
def State.serveLine (s : State) (line : Nat) : State :=
  let t := s.tracker line
  match t.queue with
  | [] => s
  | r :: rest =>
    if !t.snoops.isEmpty then s
    else match (if t.asked then none else s.snoopsFor line r.kind) with
      | some (k, reqs) => s.snoop line k reqs
      | none =>
        let full := r.kind.allocates && (s.sf line).isNone && (s.freeWay line).isNone
        match full, s.victim line with
        | true, some v =>
          if (s.tracker v.line).evict then s
          else
            let s := s.setTracker line { t with asked := true }
            let s := { s with dcoh := { s.dcoh with waitsFor := (line, v.line) :: s.dcoh.waitsFor } }
            let s := s.addF .dcohBiCount 0 32 32 1
            let u := s.tracker v.line
            (s.setTracker v.line { u with evict := true }).snoop v.line .inv
              (v.present.filter fun p => u.snoops.all fun e => e.1 != p)
        | _, _ =>
          let s := s.setTracker line { t with queue := rest, asked := false }
          let s := s.performReq line r
          -- a BIConflict of the requester just answered is acknowledged (R150)
          match r.kind.requester with
          | some q =>
            let t := s.tracker line
            if t.conflict.contains q then
              (s.setTracker line { t with conflict := t.conflict.filter (· != q) }).emit (.biConflictAck q line)
            else s
          | none => s

/-- Every snoop of a line has been answered: an eviction frees the entry and the request that caused it goes on;
otherwise the request at the head completes (R145, R147). -/
def State.snoopsDone (s : State) (line : Nat) : State :=
  let t := s.tracker line
  if !t.snoops.isEmpty then s
  else if t.evict then
    let s := (s.setTracker line { t with evict := false }).setHolders line false []
    let ws := s.dcoh.waitsFor.filter fun e => e.2 == line
    let s := { s with dcoh := { s.dcoh with waitsFor := s.dcoh.waitsFor.filter fun e => e.2 != line } }
    ws.foldl (fun s e => s.serveLine e.1) s
  else (s.setTracker line { t with asked := true }).serveLine line

/-- DCOH_REQUEST_SERVE: the next request queued for a line is served (R151). -/
def execDcohRequestServe (line : Nat) (s : State) : Res := .next (s.serveLine line)

/-- The state a snoop's answer leaves its holder in (R147, R148). -/
def afterAnswer (k : BiSnp) (rsp : BiRsp) (e : SfEntry) (req : Nat) : Bool × List Nat :=
  let out := e.present.filter (· != req)
  match k, rsp with
  | .inv, _ => (e.excl && !out.isEmpty, out)
  | .data, .i => (false, out)
  | .data, _ => (false, e.present)
  | .cur, .e => (e.excl, e.present)
  | .cur, .s => (false, e.present)
  | .cur, .i => (false, out)

/-- BIRSP: a host's answer to a snoop, with its writeback if any (R147, R153). A late answer to a timed-out snoop has
no effect (R166), and a writeback to an extent that its requester no longer holds is discarded (R163). -/
def execBirsp (req line : Nat) (rsp : BiRsp) (wb : Option Line64) (s : State) : Res :=
  .next (
    if s.dcoh.late.contains (req, line) then
      { s with dcoh := { s.dcoh with late := s.dcoh.late.erase (req, line) } }
    else
      let t := s.tracker line
      match t.snoops.find? fun e => e.1 == req with
      | none => s
      | some (_, k, _) =>
        let holds := (s.extentOf (64 * line / blockSize)).any fun e => e.holders.contains req
        let s := match wb with
          | some d => if holds then s.writeLine64 line d false else s
          | none => s
        let s := match s.sf line with
          | some e => let p := afterAnswer k rsp e req; s.setHolders line p.1 p.2
          | none => s
        (s.setTracker line { t with snoops := t.snoops.filter fun e => e.1 != req }).snoopsDone line)

/-- BICONFLICT: answered once the completion of the host's earlier request to the line has been sent (R150). -/
def execBiconflict (req line : Nat) (s : State) : Res :=
  .next (
    let t := s.tracker line
    if !(t.snoops.any fun e => e.1 == req) then s
    else if t.queue.any fun q => q.kind.requester == some req then
      s.setTracker line { t with conflict := KSet.add req t.conflict }
    else s.emit (.biConflictAck req line))

/-- Limit of an unanswered snoop, in ns (DCOH_BI_CFG.BI_TIMEOUT). -/
def State.biLimit (s : State) : Nat := 100000 * max 1 (s.f .dcohBiCfg 0 0 10)

/-- BI_TIMEOUT: a snoop still unanswered at its limit (R165). -/
def execBiTimeout (req line : Nat) (s : State) : Res :=
  .next (
    let t := s.tracker line
    match t.snoops.find? fun e => e.1 == req with
    | none => s
    | some (_, _, sent) =>
      let s := s.notBefore (sent + s.biLimit)
      let s := match s.sf line with
        | some e =>
          let s := s.setFilter ({ e with poison := true } :: s.dcoh.filter.filter fun f => f.line != line)
          s.setHolders line e.excl (e.present.filter (· != req))
        | none => s
      let s := s.setPoison (64 * line) true
      let s := { s with dcoh := { s.dcoh with late := (req, line) :: s.dcoh.late } }
      let hs := ((s.extentOf (64 * line / blockSize)).map Extent.holders).getD []
      let s := s.postEvent 2 ⟨.generalMedia, 64 * line⟩ hs
      let s := s.advise .biTimeout 7 req (64 * line)
      let s := s.addF .dcohSfStatus 0 32 16 1
      (s.setTracker line { t with snoops := t.snoops.filter fun e => e.1 != req }).snoopsDone line)

/-! ## Host CXL.mem (R106, R114, R121, R139, R147) -/

/-- CXL.mem of a requester is answered from memory: the device is at Walk or beyond, its stream is not Insecure, and it
is secure where IDE is required (R47, R121, R122). -/
def State.memOpen (s : State) (req : Nat) : Bool :=
  decide (0 < s.f .stageStatus 0 0 2) && !s.link.ideFailed.contains req
    && !(bitAt (s.reg .stallPolicy 0) req && decide (req < 16) && !s.link.ideSecure.contains req)

/-- The record of a CXL.mem access that finds nothing (R47, R114, R121). -/
def State.refuseMem (s : State) (req dpa : Nat) : State := s.advise .memAccessRefused 7 req dpa

/-- MEM_RD: a host read. HDM-DB lines enter the order stage; HDM-H is read at once, its MetaValue ignored (R139, R147).
An unmapped DPA, the time before Walk and an Insecure stream give poison (R47, R114, R121). -/
def execMemRd (req dpa : Nat) (mv : MetaValue) (s : State) : Res :=
  .next (
    let refused := (s.emit (.memData req dpa 0 true .invalid)).refuseMem req dpa
    if !s.present req then s
    else if !s.memOpen req then refused
    else match s.hostMap req dpa with
      | none => refused
      | some p =>
        if s.hdmDb p then
          let k := s.tieKey req
          s.enterOrder (p / 64) (.hostRd req dpa mv) k.1 k.2
        else
          let d := s.readLine64 (p / 64)
          let s := s.emit (.memData req dpa d.1 d.2 .invalid)
          if d.2 then s.mediaEvent 2 p else s)

/-- The requester holds the line in state E: its write is a writeback, served at once (R153). -/
def State.isWriteback (s : State) (req line : Nat) : Bool := s.lineE line && s.holders line == [req]

/-- MEM_WR: a host write or writeback (R147, R153, R154); a writeback by a requester whose snoop timed out is discarded
(R166), and one to an unmapped DPA has no effect (R114). -/
def execMemWr (req dpa : Nat) (mv : MetaValue) (data : Line64) (poison : Bool) (s : State) : Res :=
  .next (
    let refused := (s.emit (.memCmp req dpa)).refuseMem req dpa
    if !s.present req then s
    else if !s.memOpen req then refused
    else match s.hostMap req dpa with
      | none => refused
      | some p =>
        let line := p / 64
        if !s.hdmDb p then (s.writeLine64 line data poison).emit (.memCmp req dpa)
        else if s.dcoh.late.contains (req, line) then s.emit (.memCmp req dpa)
        else if s.isWriteback req line then
          let s := ((s.writeLine64 line data poison).emit (.memCmp req dpa)).afterWrite line req mv
          { s with dcoh := { s.dcoh with lastWb := some (line, s.now) } }
        else
          let k := s.tieKey req
          s.enterOrder line (.hostWr req dpa mv data poison) k.1 k.2)

/-! ## Device engines (R157, R158) -/

/-- A device engine may access a line now: no holder stands in its way and nothing is queued for it. -/
def State.lineFree (s : State) (line : Nat) (write : Bool) : Bool :=
  (s.tracker line).queue.isEmpty && (s.tracker line).snoops.isEmpty
    && (if write then (s.holders line).isEmpty else !s.lineE line)

/-- Lines of [p, p + n). -/
def linesOf (p n : Nat) : List Nat := (List.range ((p + n + 63) / 64 - p / 64)).map fun i => p / 64 + i

/-- A bulk device access to [p, p + n) of DRAM may go on; where a shared line stands in its way, its request for that
line enters the order stage instead (R157). -/
def State.devReady (s : State) (p n : Nat) (write : Bool) (sub : Nat) : Bool × State :=
  match (linesOf p n).find? fun l => s.hdmDb (64 * l) && !s.lineFree l write with
  | none => (true, s)
  | some l =>
    let asked := (s.tracker l).queue.any fun q => q.kind == .dev sub write none
    (false, if asked then s else s.enterOrder l (.dev sub write none) 2 sub)

/-- Fabric-port sub of a core (R152). -/
def subOfCore (core : Nat) : Nat := core / 8

end Sys2Proof.Machine
end

