-- ==== Sys2Proof/Machine/RegOps.lean ====
section
/-! DEFINITION. BAR0 accesses (R5 to R15, R770 to R783): decoding, permission, the access codes, half accesses and
captures. What a write triggers beyond its fields is each block's. -/

namespace Sys2Proof.Machine

open Sys2Proof

/-! ## Whose register it is (R6, R7, R773, R774) -/

/-- Who may access an instance of a register. -/
inductive Owner where
  | everyone | ownerOnly | stall (st : Nat)
deriving DecidableEq, Repr

/-- A group that belongs to no stall behaves as Owner-only (R773). -/
def ofStall : Option Nat → Owner
  | some st => .stall st
  | none => .ownerOnly

/-- The stall of ring i: core rings by their core, Paddock rings by STALL_PRING (R773). -/
def State.stallOfRing (s : State) (i : Nat) : Option Nat :=
  if i < 2048 then s.stallOfCore (i / 64) else s.stallOfPring (i - 2048)

/-- Who may access instance i of a register (R6, R683, R773, R774). -/
def State.ownerOf (s : State) (r : Reg) (i : Nat) : Owner :=
  match r with
  | .devIdent | .devCapMem | .devLink | .devReq | .devReqPresent | .devDramCap
  | .stageStatus | .stageReason | .stageTimes | .stageEpochSil | .stageBist | .stageEpochMgmt | .stageEpochCtrl
  | .stageDrvHandshake | .rasLogPtr | .gbOwner
  | .sqTack | .hrnTack | .hitchTack | .streamTack | .kvTack | .ringTack
  | .vrStatus | .vrStage | .refStatus | .thermStatus | .fanStatus | .powerStatus => .everyone
  | .activeCfg | .activeCores | .activeHitch | .activeBarrier | .activePring | .activeSq | .activeCq | .activeRslot
  | .activeHostBase | .stallState | .hitchCfg | .hitchStat | .taskCfg | .taskStat
  | .traceCtl | .traceBase | .tracePtr | .traceStat => .stall i
  | .activePwin => .stall (i / 4)
  | .activeDwin => .stall (i / 8)
  | .sqCtl | .sqBase | .sqTail | .sqHead | .sqSeq | .sqStat => ofStall (s.stallOfSq i)
  | .cqCtl | .cqBase | .cqHead | .cqTail | .cqIrq => ofStall (s.stallOfCq i)
  | .barrierCtl | .barrierState => ofStall (s.stallOfBarrier i)
  | .hrnCtl => if s.f .hrnCtl i 5 1 = 1 then .stall (s.f .hrnCtl i 1 4) else .ownerOnly
  | .streamQCtl | .streamQStage | .streamQStat => ofStall (s.stallOfCore (i / 8))
  | .streamCause => ofStall (s.stallOfCore (i / 8))
  | .streamOverlap | .perfSel | .cmCfg | .cmConflictLog | .cmConflictStamp | .cmConflictCount | .cmEccCount =>
    ofStall (s.stallOfCore i)
  | .perfCnt | .cmAccw => ofStall (s.stallOfCore (i / 4))
  | .kvPoolCtl | .kvPoolPages | .kvPoolCount | .kvPoolSeq | .kvPoolFree | .kvPoolLimits | .kvPoolStat
  | .kvPoolStat2 => .stall (s.f .kvPoolCtl i 1 4)
  | .pdAccw0 | .pdAccw1 => if s.f .pdAccw0 i 0 1 = 1 then .stall (s.f .pdAccw0 i 1 4) else .ownerOnly
  | .ringCtl | .ringBase | .ringPtr | .ringStat => ofStall (s.stallOfRing i)
  | .bridleDreq0 | .bridleDreq1 | .bridleDreq2 =>
    if 16 ≤ i && i < 80 then ofStall (s.stallOfCore ((i - 16) % 32)) else .ownerOnly
  | .rasLogEntry =>
    let w := s.reg .rasLogEntry (i / 8 * 8)
    if bitAt w 50 then .stall (fld w 52 4) else .ownerOnly
  | _ => .ownerOnly

/-- The POWER range (R770), served by Ostler. -/
def inPower (off : Nat) : Bool := 0x2200000 ≤ off && off < 0x2300000

/-- The access is permitted (R6); the MGMT image reaches the POWER registers, which Ostler serves (R21, R51). -/
def State.permits (s : State) (agent : Nat) (r : Reg) (i : Nat) : Bool :=
  (agent == mgmtAgent && inPower (r.off i)) || match s.ownerOf r i with
  | .everyone => true
  | .ownerOnly => s.hasOwner agent
  | .stall st => s.actsFor agent st

/-- The agent reaches F1's registers: a requester that is present while F1 is in D0, or through Ostler while the MGMT
image runs (R136, R746). -/
def State.reaches (s : State) (agent : Nat) : Bool :=
  if agent < 16 then s.present agent && !s.link.f1D3 else agent ≤ mgmtAgent && s.f .stageStatus 0 6 1 == 1

/-! ## Decoding an access -/

/-- What a BAR0 access meets before permission (R10, R771). -/
inductive Target where
  | misaligned
  | reserved
  /-- a register, whole or (for a 64-bit register) its low or high half -/
  | whole (r : Reg) (i : Nat)
  | low (r : Reg) (i : Nat)
  | high (r : Reg) (i : Nat)
deriving DecidableEq, Repr

/-- Decode an access of `size` bytes at a BAR0 offset (R5, R8, R10, R771). -/
def target (off size : Nat) : Target :=
  if !(size == 1 || size == 2 || size == 4 || size == 8) || off % size != 0 then .misaligned else
  if size < 4 then
    match regAt off with
    | some _ => .misaligned
    | none => .reserved
  else if size = 4 then
    match regAt off with
    | none => .reserved
    | some (r, i) =>
      if r.row.width = 32 then .whole r i
      else if off = r.off i then .low r i else .high r i
  else
    match regAt off with
    | some (r, i) => if r.row.width = 64 then .whole r i else .misaligned
    | none => match regAt (off + 4) with
      | some _ => .misaligned
      | none => .reserved

/-! ## The effect of a write on its fields (R13, R780 step 1) -/

/-- ENABLE fields whose change is step 2 of R780: a write's step 1 leaves them. -/
def enableReg : Reg → Bool
  | .sqCtl | .cqCtl | .hrnCtl | .hitchCfg | .barrierCtl | .streamQCtl | .kvPoolCtl | .ringCtl | .bridleCtl
  | .reinPortCtl | .vrCtl | .fanCtl | .thermCtl => true
  | _ => false

/-- Block code of R216 and instance number of the check that an ENABLE register starts. -/
def checkOf (r : Reg) (i : Nat) : Option (Nat × Nat) :=
  match r with
  | .sqCtl => some (2, i)
  | .cqCtl => some (2, 1024 + i)
  | .streamQCtl => some (3, i)
  | .ringCtl => some (4, i)
  | .barrierCtl => some (5, i)
  | .hitchCfg => some (5, 512 + i)
  | .kvPoolCtl => some (6, i)
  | .reinPortCtl => some (7, i)
  | .vrCtl => some (8, 0)
  | .fanCtl => some (9, 0)
  | .thermCtl => some (9, 1)
  | .bridleCtl => some (0xA, i)
  | .hrnCtl => some (0xB, i)
  | _ => none

/-- Checks waiting or running in a block. -/
def State.checks (s : State) (block : Nat) : List Check := Tbl.get [] s.tack.queues block

/-- A check of an instance is waiting or running. -/
def State.checking (s : State) (block inst : Nat) : Bool := (s.checks block).any fun c => c.inst == inst

/-- The enabling register of the instance that a register's examined fields belong to, and the examined bits (R215).
The stall block's are the staged copy's. -/
def examined (r : Reg) (i : Nat) : Option (Reg × Nat × Word) :=
  match r with
  | .sqCtl => some (.sqCtl, i, 0x03FF1F00)
  | .sqBase => some (.sqCtl, i, 0x0000FFFFFFFFF000)
  | .sqSeq => some (.sqCtl, i, 0xFFFFFFFFFFFFFFFF)
  | .cqCtl => some (.cqCtl, i, 0x00001F00)
  | .cqBase => some (.cqCtl, i, 0x0000FFFFFFFFF000)
  | .streamQCtl => some (.streamQCtl, i, 0xFFFF0002)
  | .streamQStage => some (.streamQCtl, i, 0x0FFF0FFF)
  | .ringCtl => some (.ringCtl, i, 0x1FFF0000)
  | .ringBase => some (.ringCtl, i, 0xFFFFFF00)
  | .barrierCtl => some (.barrierCtl, i, 0x00003FFF03FF0000)
  | .hitchCfg => some (.hitchCfg, i, 0xFFFFFFFFFFFF0000)
  | .kvPoolCtl => some (.kvPoolCtl, i, 0x00001FFFFFFFFF1E)
  | .kvPoolPages => some (.kvPoolCtl, i, 0x0000FFFFFFFFFF00)
  | .kvPoolCount => some (.kvPoolCtl, i, 0x0001FFFF00FFFFFF)
  | .kvPoolSeq => some (.kvPoolCtl, i, 0x0003FFFF)
  | .kvPoolFree => some (.kvPoolCtl, i, 0x0000FFFFFFFFFF00)
  | .kvPoolLimits => some (.kvPoolCtl, i, 0xFFFFFFFF00FFFFFF)
  | .bridleCtl => some (.bridleCtl, i, 0x7F7F7F00)
  | .bridleFloor => some (.bridleCtl, i, 0xFFFFFFFFFFFFFFFF)
  | .bridleCeil => some (.bridleCtl, i, 0xFFFFFFFFFFFFFFFF)
  | .reinPortCtl => some (.reinPortCtl, i, 0x0000000E)
  | .reinPortCred0 => some (.reinPortCtl, i, 0x00001FFF1FFF1FFF)
  | .reinPortCred1 => some (.reinPortCtl, i, 0x00001FFF1FFF1FFF)
  | .vrOp => some (.vrCtl, 0, 0x07FF03FF)
  | .vrPwm => some (.vrCtl, 0, 0x00FF007FFFFFFF7F)
  | .vrPhase => some (.vrCtl, 0, 0x3F)
  | .fanCtl => some (.fanCtl, 0, 0x00FFFF02)
  | .thermCtl => some (.thermCtl, 0, 0x00FFFF00)
  | .powerLimit => some (.thermCtl, 0, 0x0000FFFF)
  | _ => none

/-- A staged-copy register. -/
def stagedReg : Reg → Bool
  | .stagedCfg | .stagedCores | .stagedHitch | .stagedBarrier | .stagedPring | .stagedSq | .stagedCq | .stagedRslot
  | .stagedHostBase | .stagedPwin | .stagedDwin => true
  | _ => false

/-- Bits that a write cannot change now (R215, R673). -/
def State.locked (s : State) (r : Reg) (i : Nat) : Word :=
  if stagedReg r then (if s.gb.commit.isSome || s.checking 1 0 then r.row.rw else 0) else
  if r = .reinChip then
    (if s.f .reinPortCtl 0 0 1 = 1 || s.f .reinPortCtl 1 0 1 = 1 then r.row.rw else 0) else
  match examined r i with
  | none => 0
  | some (e, j, m) =>
    if s.f e j 0 1 = 1 then m else
    match checkOf e j with
    | some (b, k) => if s.checking b k then m else 0
    | none => 0

/-- HOLDER code of an agent (STALL_EDIT). -/
def holderCode (agent : Nat) : Nat := if agent < 16 then agent else 0x10

/-- The bits of a written word that are carried by the access: all, or a half (R8). -/
def lowMask : Word := 0x00000000FFFFFFFF
def highMask : Word := 0xFFFFFFFF00000000

/-- FLOOR_1 of a DRAM arbiter is fixed (BRIDLE_FLOOR). -/
def rwOf (r : Reg) (i : Nat) : Word :=
  if r = .bridleFloor ∧ i < 32 then r.row.rw &&& 0xFFFFFFFFFFFF00FF
  else if enableReg r then r.row.rw &&& ~~~1
  else r.row.rw

/-- Step 1 of R780 on one register value: RW, RWO and W1C fields among the carried bits; with whether a field was
refused (R13, R215). -/
def fieldWrite (cur val carried rw rwo w1c lock : Word) (owner : Bool) : Word × Bool :=
  let settable := (rw ||| (if owner then rwo else 0)) &&& carried
  let free := settable &&& ~~~lock
  let new := (cur &&& ~~~free) ||| (val &&& free)
  let new := new &&& ~~~(w1c &&& carried &&& val)
  let barred := (settable &&& lock) ||| (if owner then 0 else rwo &&& carried)
  (new, ((cur ^^^ val) &&& barred) != 0)

/-- A write that reached a register: what steps 2 and 3 of R780 act on. `val` holds the written value with the bits
of `carried` meaningful; `old` is the register before the write. -/
structure Written where
  agent   : Nat
  reg     : Reg
  idx     : Nat
  old     : Word
  val     : Word
  carried : Word
deriving DecidableEq, Repr

/-- Bit i was written 1. -/
def Written.set (w : Written) (i : Nat) : Bool := bitAt (w.val &&& w.carried) i

/-- Bit i was written 0. -/
def Written.clr (w : Written) (i : Nat) : Bool := bitAt w.carried i && !bitAt w.val i

/-- Read or write one instance, in the agent's bank where it is banked. -/
def State.regOf (s : State) (agent : Nat) (r : Reg) (i : Nat) : Word :=
  if r.row.banked then s.regB r (bankOf agent) else s.reg r i
def State.setRegOf (s : State) (agent : Nat) (r : Reg) (i : Nat) (v : Word) : State :=
  if r.row.banked then s.setRegB r (bankOf agent) v else s.setReg r i v

/-- Pairs of WO bits that one write may not set together (R781). -/
def pairRefused (r : Reg) (v : Word) : Bool :=
  match r with
  | .stallCommit => bitAt v 0 && bitAt v 2
  | .stallEdit => bitAt v 5 && bitAt v 6
  | .reinPortCtl => bitAt v 4 && bitAt v 5
  | _ => false

/-- The writable doorbells whose whole effect is their own row (R519, R535). -/
def doorbell : Reg → Bool
  | .sqTail | .cqHead => true
  | _ => false

/-- Step 1 of R780 for a write that is permitted: the fields change, and a refused field is recorded once. -/
def State.writeFields (s : State) (w : Written) (off : Nat) : State :=
  let lock := s.locked w.reg w.idx
  let own := s.hasOwner w.agent
  let staged := stagedReg w.reg && s.f .stallEdit 0 0 5 != holderCode w.agent
  if staged then s.refuseAccess w.agent off false true else
  let p := fieldWrite w.old w.val w.carried (if doorbell w.reg then 0 else rwOf w.reg w.idx) w.reg.row.rwo
    w.reg.row.w1c lock own
  let s := s.setRegOf w.agent w.reg w.idx p.1
  if p.2 then s.refuseAccess w.agent off false true else s

/-- Held low half of an agent. -/
def State.heldLow (s : State) (agent off : Nat) : Option Word32 :=
  (s.lows.find? fun e => e.1 == agent && e.2.1 == off).map fun e => e.2.2

/-- Drop an agent's held low half (R8). -/
def State.dropLow (s : State) (agent : Nat) : State := { s with lows := s.lows.filter fun e => e.1 != agent }

/-- What a write access comes to: refused (with the state after it is recorded), held, or a write of a register. -/
inductive WriteStep where
  | done (s : State)
  | write (w : Written) (off : Nat) (s : State)

/-- A BAR0 write up to step 1 of R780 (R7, R8, R10, R696, R771, R777, R778, R781). -/
def State.beginWrite (s : State) (agent off size : Nat) (val : Word) : WriteStep :=
  let refuse := fun (s : State) => WriteStep.done ((s.dropLow agent).refuseAccess agent off false true)
  if !s.reaches agent then .done s else
  match target off size with
  | .misaligned => refuse s
  | .reserved => refuse s
  | .low r i =>
    if s.f .stageStatus 0 0 2 = 0 || !s.permits agent r i || (inPower off && s.f .stageStatus 0 6 1 = 0) then refuse s
    else
      let t := s.dropLow agent
      .done { t with lows := (agent, off, val.setWidth 32) :: t.lows }
  | .whole r i =>
    if s.f .stageStatus 0 0 2 = 0 || !s.permits agent r i || (inPower off && s.f .stageStatus 0 6 1 = 0) ||
        pairRefused r val then refuse s
    else
      let c : Word := if r.row.width = 32 then lowMask else allOnes
      .write ⟨agent, r, i, s.regOf agent r i, val &&& c, c⟩ off (s.dropLow agent)
  | .high r i =>
    if s.f .stageStatus 0 0 2 = 0 || !s.permits agent r i || (inPower off && s.f .stageStatus 0 6 1 = 0) then refuse s
    else
      let hi : Word := (val &&& lowMask) <<< 32
      match s.heldLow agent (off - 4) with
      | some l => .write ⟨agent, r, i, s.regOf agent r i, hi ||| l.setWidth 64, allOnes⟩ (off - 4) (s.dropLow agent)
      | none => .write ⟨agent, r, i, s.regOf agent r i, hi, highMask⟩ off (s.dropLow agent)
where allOnes : Word := 0xFFFFFFFFFFFFFFFF

/-- A BAR0 write with the block's own steps 2 and 3. -/
def State.busWrite (s : State) (agent off size : Nat) (val : Word) (act : Written → State → State) : State :=
  match s.beginWrite agent off size val with
  | .done s => s
  | .write w off s => act w (s.writeFields w off)

/-- A whole-register write of instance i. -/
def State.regWrite (s : State) (agent : Nat) (r : Reg) (i : Nat) (val : Word) (act : Written → State → State) :
    State :=
  s.busWrite agent (r.off i) (r.row.width / 8) val act

end Sys2Proof.Machine
end

