-- ==== Sys2Proof/Machine/Bridle.lean ====
section
/-! DEFINITION. The configurable arbiters of the Bridle: windows, floors, ceilings, levels, the choice of a burst, held
bursts and what ends them, LD fractions and counters (R616 to R639). The requests that wait at an arbiter come with
the command. -/

namespace Sys2Proof.Machine

open Sys2Proof

/-! ## Configuration in use (R639) -/

/-- A field of an arbiter's group: as written while it is enabled, else its reset value. -/
def State.arbField (s : State) (a : Nat) (r : Reg) (lo n : Nat) : Nat :=
  fld (if s.f .bridleCtl a 0 1 = 1 then s.reg r a else s.regReset r a) lo n

/-- FLOOR and CEIL of a class, in beats of a window. -/
def State.floorOf (s : State) (a k : Nat) : Nat := s.arbField a .bridleFloor (8 * k) 8
def State.ceilOf (s : State) (a k : Nat) : Nat := s.arbField a .bridleCeil (8 * k) 8

/-- A DRAM channel arbiter (R616). -/
def isDramArb (a : Nat) : Bool := decide (a < 32)

/-- The level of an occupancy (R631). -/
def State.levelOf (s : State) (a occ : Nat) : Nat :=
  if !isDramArb a then 0
  else if occ < s.arbField a .bridleCtl 8 7 then 0
  else if occ < s.arbField a .bridleCtl 16 7 then 1
  else if occ < s.arbField a .bridleCtl 24 7 then 2
  else 3

/-- How a class is admitted at a level: full (true), or as floor only (R632). -/
def admitFull (level k : Nat) : Bool :=
  match k with
  | 0 | 2 => true
  | 1 | 3 | 4 => level < 3
  | 5 => level < 2
  | _ => level < 1

/-! ## Windows (R625, R626) -/

/-- Beats granted to a class in the current window. -/
def State.winBeats (s : State) (a k : Nat) : Nat := Tbl.get 0 s.bridle.wins (8 * a + k)

/-- A class is floored. -/
def State.floored (s : State) (a k : Nat) : Bool := decide (s.winBeats a k < s.floorOf a k)

/-- A class is below its ceiling. -/
def State.underCeil (s : State) (a k : Nat) : Bool :=
  s.ceilOf a k == 0 || decide (s.winBeats a k < s.ceilOf a k)

/-- A window closes with the grant that brings its count to 256 or more. -/
def State.countWindow (s : State) (a k beats : Nat) : State :=
  let total := s.f .bridleState a 16 8 + beats
  let w := Tbl.put 0 s.bridle.wins (8 * a + k) (s.winBeats a k + beats)
  if 256 ≤ total then
    { s with bridle := { s.bridle with wins := Tbl.keep (fun i => i / 8 != a) w } }.setF .bridleState a 16 8 0
  else { s with bridle := { s.bridle with wins := w } }.setF .bridleState a 16 8 total

/-! ## LD fractions (R633) -/

/-- Peak beats of a channel in an interval, at 8533 MT/s. -/
def chBeats : Nat := 2666

/-- The LD of a request in x16 MLD mode. -/
def State.ldOf (s : State) (a : Nat) (r : BReq) : Option Nat :=
  if isDramArb a && s.f .devLink 0 0 2 == 1 && r.cls == 0 && decide (40 ≤ r.src) then some (r.src - 40) else none

/-- Beats granted to an LD in the interval. -/
def State.ldBeats (s : State) (a l : Nat) : Nat := Tbl.get 0 s.bridle.ld (16 * a + l)

/-- The LD is floored within HOST; the LD has reached its limit. -/
def State.ldFloored (s : State) (a l : Nat) : Bool := decide (s.ldBeats a l < s.f .bridleLdq l 0 8 * chBeats / 256)
def State.ldSpent (s : State) (a l : Nat) : Bool := decide ((s.f .bridleLdq l 8 8 + 1) * chBeats / 256 ≤ s.ldBeats a l)

/-! ## The choice (R627 to R630) -/

/-- A request is not held back by an earlier one. -/
def frontOf (before : List BReq) (r : BReq) : Bool :=
  r.order.isNone || before.all fun e => !(e.holds && e.order == r.order)

/-- Place in the order of R627 of a request by its own class, if it is eligible: floored 0 to 7, others 8 to 15. -/
def State.ownRank (s : State) (a level : Nat) (r : BReq) : Option Nat :=
  let fl := s.floored a r.cls
  let lim := match s.ldOf a r with
    | some l => s.ldSpent a l
    | none => false
  if lim || !s.underCeil a r.cls || (isDramArb a && !admitFull level r.cls && !fl) then none
  else some (r.cls + if fl then 0 else 8)

/-- The better of two places. -/
def better : Option Nat → Option Nat → Option Nat
  | some x, some y => some (min x y)
  | some x, none => some x
  | none, y => y

/-- Its place with promotion to that of later requests that it holds back (R629, R630). -/
def State.rankOf (s : State) (a level : Nat) (r : BReq) (after : List BReq) : Option Nat :=
  after.foldl (fun m e => if r.holds && r.order.isSome && e.order == r.order then better m (s.ownRank a level e) else m)
    (s.ownRank a level r)

/-- Priority in force (R628). -/
def State.prioOf (s : State) (r : BReq) : Nat :=
  if r.cls = 2 ∨ r.cls = 3 then (if r.since + 1024 ≤ s.now then 7 else r.prio % 8) else 0

/-- Requests that may be granted, with their places. -/
def State.candidates (s : State) (a level : Nat) : List BReq → List BReq → List (BReq × Nat)
  | _, [] => []
  | before, r :: rest =>
    let tail := s.candidates a level (before ++ [r]) rest
    match frontOf before r, s.rankOf a level r rest with
    | true, some k => (r, k) :: tail
    | _, _ => tail

/-- Sources, numbered for round-robin. -/
def sourceCount : Nat := 56

/-- The request that an arbiter grants, and its place. -/
def State.chooseReq (s : State) (a level : Nat) (reqs : List BReq) : Option (BReq × Nat) :=
  let l := s.candidates a level [] reqs
  match l.foldl (fun m e => better m (some e.2)) none with
  | none => none
  | some top =>
    let l := l.filter fun e => e.2 == top
    let fl := l.filter fun e => match s.ldOf a e.1 with
      | some d => s.ldFloored a d
      | none => false
    let l := if fl.isEmpty then l else fl
    let p := l.foldl (fun m e => max m (s.prioOf e.1)) 0
    let l := l.filter fun e => s.prioOf e.1 == p
    let last := Tbl.get (sourceCount - 1) s.bridle.last (64 * a + 8 * (top % 8) + p)
    match roundRobin (fun x => l.any fun e => e.1.src == x) last sourceCount with
    | some x => l.find? fun e => e.1.src == x
    | none => none

/-! ## Counters (R636) -/

/-- Row of BRIDLE_DREQ of a source. -/
def dreqRow (src cls : Nat) : Nat :=
  if src < 32 then (if cls = 5 then 48 + src else 16 + src)
  else match src with
    | 32 => 80 | 33 => 81 | 34 => 86 | 35 => 82 | 36 => 83 | 37 => 84 | 38 => 84 | 39 => 85
    | n => n - 40

/-- A grant in the counters. -/
def State.countGrant (s : State) (a : Nat) (r : BReq) (rank : Nat) : State :=
  let i := 8 * a + rank % 8
  let wait := s.now - r.since
  let d := dreqRow r.src r.cls
  s.bridleCount fun s =>
    let s := (s.addF .bridleCls0 i 0 48 r.beats).maxF .bridleCls1 i 0 32 wait
    let s := if rank < 8 then s.addF .bridleCls1 i 32 32 1 else s
    if isDramArb a then ((s.addF .bridleDreq0 d 0 48 r.beats).addF .bridleDreq1 d 0 48 wait).maxF .bridleDreq2 d 0 32 wait
    else s

/-! ## Held bursts (R618 to R620) -/

/-- The burst that holds an arbiter. -/
def State.heldBurst (s : State) (a : Nat) : Option Burst := Tbl.find? a s.bridle.held

/-- Put or remove it. -/
def State.setHeld (s : State) (a : Nat) (b : Option Burst) : State :=
  { s with bridle := { s.bridle with held := match b with
    | some b => Tbl.insert a b s.bridle.held
    | none => Tbl.erase a s.bridle.held } }

/-- A whole codeword of DRAM written as all ones with the poison bit set (R322). -/
def State.poisonCodeword (s : State) (p : Nat) : State :=
  ((s.wrBytes (p / 64 * 64) (List.replicate 64 0xFF)).setPoison p true).mediaEvent 1 p

/-- A burst ends: the arbiter supplies the beats not yet passed as poison and releases the hold (R619). -/
def State.endBurst (s : State) (a : Nat) (b : Burst) : State :=
  let s := s.setHeld a none
  match b.write with
  | some p => (List.range b.left).foldl (fun s j => s.poisonCodeword (p + 64 * j)) s
  | none => s.emit (.burstEnded a b.left)

/-- Every held burst for which a test holds ends (R688 step 2, R693). -/
def State.endBursts (s : State) (p : Burst → Bool) : State :=
  s.bridle.held.foldl (fun s e => if p e.2 then s.endBurst e.1 e.2 else s) s

/-- A beat of the held burst passes. -/
def State.passBeat (s : State) (a : Nat) (b : Burst) : State :=
  if b.left ≤ 1 then s.setHeld a none
  else s.setHeld a (some { b with left := b.left - 1, write := b.write.map (· + 64) })

/-- BRIDLE_GRANT: one NCLK of an arbiter. `occ` is the occupancy that the channel controller reported for it; `room`:
the request queue, or the link layer, can take a burst (R617, R635); `supply`: the source of the burst supplies a
beat. -/
def execBridleGrant (arb occ : Nat) (room supply : Bool) (reqs : List BReq) (s : State) : Res :=
  .next (if 36 ≤ arb then s else
    let level := s.levelOf arb occ
    let s := if isDramArb arb then (s.setF .bridleState arb 0 2 level).setF .bridleState arb 8 7 (min occ 64) else s
    let s := if level = 3 then s.bridleCount fun s => s.addF .bridleL3 arb 0 48 1 else s
    match s.heldBurst arb with
    | some b => if supply then s.passBeat arb b else s
    | none =>
      if !room then s else
      match s.chooseReq arb level reqs with
      | none => s
      | some (r, rank) =>
        let beats := max 1 r.beats
        let k := rank % 8
        let s := s.countGrant arb { r with beats := beats } rank
        let s := match s.ldOf arb r with
          | some l => { s with bridle := { s.bridle with
              ld := Tbl.put 0 s.bridle.ld (16 * arb + l) (s.ldBeats arb l + beats) } }
          | none => s
        let s := s.countWindow arb k beats
        let s := { s with bridle := { s.bridle with
          last := Tbl.insert (64 * arb + 8 * k + s.prioOf r) r.src s.bridle.last } }
        let b : Burst := ⟨r.src, r.task, r.stall, beats, if isDramArb arb then r.write else none, s.now⟩
        if supply then s.passBeat arb b else s.setHeld arb (some b))

/-- BRIDLE_HOLD_LOG as a record. -/
def holdRecord (a : Nat) (b : Burst) : Nat :=
  a + b.src * 2 ^ 6 + b.stall.getD 0 * 2 ^ 13 + bit b.stall.isSome * 2 ^ 17 + b.left * 2 ^ 32 + 2 ^ 63

/-- BRIDLE_HOLD_LIMIT: a burst that has held its arbiter for 4,096 NCLK is ended (R620). -/
def execBridleHoldLimit (arb : Nat) (s : State) : Res :=
  .next (match s.heldBurst arb with
    | none => s
    | some b =>
      let s := (s.notBefore (b.since + 4096)).endBurst arb b
      let rec_ := holdRecord arb b
      let s := if s.f .bridleHoldLog 0 63 1 = 1 then s else s.setReg .bridleHoldLog 0 (BitVec.ofNat 64 rec_)
      let s := s.addF .bridleHoldCount 0 0 32 1
      match b.task with
      | some id => s.taskFault id .bridleHold 4 (if b.src < 32 then b.src else 255) none 0 0 0 rec_
      | none => s.logFault { code := .bridleHold, cls := .d, stall := b.stall, unit := 4, detail := rec_ })

/-- Length of an LD QoS interval, in NCLK. -/
def ldInterval : Nat := 10000

/-- LD_QOS_INTERVAL: an interval ends (R633). -/
def execLdQosInterval (s : State) : Res :=
  let s := s.notBefore (s.bridle.ldAt + ldInterval)
  .next { s with bridle := { s.bridle with ld := [], ldAt := s.bridle.ldAt + ldInterval } }

/-- A counter of section 9 of chapter 17. -/
def bridleCounter : Reg → Bool
  | .bridleCls0 | .bridleCls1 | .bridleDreq0 | .bridleDreq1 | .bridleDreq2 | .bridlePreq0 | .bridlePreq1
  | .bridlePreq2 | .bridlePreq3 | .bridleL3 | .bridleHoldCount => true
  | _ => false

/-- BRIDLE_CNT_CTL.CLEAR (R638). -/
def State.bridleCntAct (w : Written) (s : State) : State :=
  if w.set 1 then
    { s with regs := Tbl.keep (fun k => match regAt (k % 2 ^ 32) with
        | some (r, _) => !bridleCounter r
        | none => true) s.regs }
  else s

/-- BRIDLE_COUNTER_CLEAR: a write of BRIDLE_CNT_CTL with CLEAR = 1. -/
def execBridleCounterClear (req : Nat) (val : Word) (s : State) : Res :=
  .next (if bitAt val 1 then s.regWrite req .bridleCntCtl 0 val State.bridleCntAct else s)

end Sys2Proof.Machine
end

