-- ==== Sys2Proof/Machine/Completions.lean ====
section
/-! DEFINITION. Completion queues, result slots and the end of a command (R526, R532, R535 to R541, R543 to R549). -/

namespace Sys2Proof.Machine

open Sys2Proof

/-! ## Queues beside their registers -/

/-- The CP's side of an SQ. -/
def State.sq (s : State) (n : Nat) : Sq := Tbl.get Sq.reset s.q.sqs n

/-- Replace it. -/
def State.setSq (s : State) (n : Nat) (q : Sq) : State := { s with q := { s.q with sqs := Tbl.put Sq.reset s.q.sqs n q } }

/-- Update it. -/
def State.updSq (s : State) (n : Nat) (f : Sq → Sq) : State := s.setSq n (f (s.sq n))

/-- The CP's side of a CQ. -/
def State.cq (s : State) (n : Nat) : Cq := Tbl.get Cq.reset s.q.cqs n

/-- Replace it. -/
def State.setCq (s : State) (n : Nat) (q : Cq) : State := { s with q := { s.q with cqs := Tbl.put Cq.reset s.q.cqs n q } }

/-- The stall of an SQ in the active copy. -/
def State.sqStall (s : State) (n : Nat) : Option Nat := stallWhere fun st => s.active.inRange Copy.sq st n

/-- SQ_CTL.ENABLE, and CQ, DEPTH and BASE of a queue (R517, R535). -/
def State.sqOn (s : State) (n : Nat) : Bool := s.f .sqCtl n 0 1 == 1
def State.sqCq (s : State) (n : Nat) : Nat := s.f .sqCtl n 16 10
def State.sqDepth (s : State) (n : Nat) : Nat := 2 ^ s.f .sqCtl n 8 5
def State.sqBase (s : State) (n : Nat) : Nat := 4096 * s.f .sqBase n 12 36
def State.cqOn (s : State) (n : Nat) : Bool := s.f .cqCtl n 0 1 == 1
def State.cqDepth (s : State) (n : Nat) : Nat := 2 ^ s.f .cqCtl n 8 5
def State.cqBase (s : State) (n : Nat) : Nat := 4096 * s.f .cqBase n 12 36

/-- Pending records of an SQ (R518), and records of a CQ that the host has not read. -/
def State.sqPending (s : State) (n : Nat) : Nat :=
  (s.f .sqTail n 0 16 + s.sqDepth n - s.f .sqHead n 0 16) % s.sqDepth n
def State.cqUnread (s : State) (n : Nat) : Nat :=
  (s.f .cqTail n 0 16 + s.cqDepth n - s.f .cqHead n 0 16) % s.cqDepth n

/-- Places of a CQ in use: records not read, and places reserved for accepted commands and duplicates (R538). -/
def State.cqPlaces (s : State) (n : Nat) : Nat :=
  s.cqUnread n + s.q.sqs.foldl (fun k e =>
    if s.sqCq e.1 = n then k + e.2.accepted.length + e.2.dups.length else k) 0

/-- A CQ is enabled and has a free place; one place stays free, so that HEAD = TAIL means empty. -/
def State.cqRoom (s : State) (n : Nat) : Bool := s.cqOn n && decide (s.cqPlaces n + 1 < s.cqDepth n)

/-! ## What the CP writes in memory -/

/-- The CP writes bytes at a device address of a stall: DRAM, the Paddock, or the host window (R517, R535); nothing if
the address fails its check. Data with poison goes to the host with EP. -/
def State.cpWrite (s : State) (st a : Nat) (d : List Byte) (poison : Bool := false) : State :=
  match s.place st a true with
  | some (.dram p) => (s.wrBytes p d).setPoison p (poison || (s.poisonAt p && decide (d.length < 64)))
  | some (.paddock o) => (List.range ((d.length + 7) / 8)).foldl (fun s j => s.setPoison (pdBase + o + 8 * j) poison)
      (s.wrBytes (pdBase + o) d)
  | some (.host req b) => s.emit (.hostWrite req b d poison)
  | _ => s

/-- A place to read is not in the memory of a requester that is absent (R133). -/
def State.hostThere (s : State) (st a : Nat) : Bool :=
  match s.place st a false with
  | some (.host req _) => s.present req
  | _ => true

/-- The CP reads n bytes at a device address; `host` answers for the host window, with poison if `ep` (R328). -/
def State.cpRead (s : State) (st a n : Nat) (host : List Byte) (ep : Bool := false) : Option (List Byte × Bool × State) :=
  match s.place st a false with
  | some (.dram p) => some (s.rdBytes p n, s.poisonIn p n, s)
  | some (.paddock o) => some (s.rdBytes (pdBase + o) n, s.poisonIn (pdBase + o) n, s)
  | some (.host req b) => some (((host ++ List.replicate n 0).take n), ep, s.emit (.hostRead req b n))
  | _ => none

/-- Every byte of [a, a + n) passes its check for the stall and lies in DRAM, the Paddock or the host window; `paddock`
admits the Paddock, `host` the host window. Windows are whole 64 KiB, so every 64 KiB boundary is looked at. -/
def State.cpRange (s : State) (st a n : Nat) (write paddock host : Bool) : Bool :=
  let ok := fun b => match s.place st b write with
    | some (.dram _) => true
    | some (.paddock _) => paddock
    | some (.host ..) => host
    | _ => false
  decide (0 < n) && ok a && ok (a + n - 1)
    && (List.range (n / 65536 + 1)).all fun j => let b := (a / 65536 + 1 + j) * 65536; decide (a + n ≤ b) || ok b

/-! ## Completion records (R536 to R541) -/

/-- CQ_IRQ.COUNT (R540). -/
def State.irqCount (s : State) (n : Nat) : Nat := max 1 (s.f .cqIrq n 0 16)

/-- The coalesced interrupt of a CQ is sent. -/
def State.cqInterrupt (s : State) (n : Nat) : State :=
  (s.msix (s.f .cqCtl n 16 4) (s.f .cqCtl n 20 11)).setCq n { since := 0, firstAt := none }

/-- A record has been written. -/
def State.cqCount (s : State) (n : Nat) : State :=
  let q := s.cq n
  let s := s.setCq n { since := q.since + 1, firstAt := some (q.firstAt.getD s.now) }
  if s.f .cqCtl n 1 1 = 1 && s.irqCount n ≤ q.since + 1 then s.cqInterrupt n else s

/-- A completion record is written to a CQ: its 32 bytes, TAIL and PHASE (R536, R537). -/
def State.cqWrite (s : State) (cq sq : Nat) (c : Cpl) (dup : Bool) : State :=
  let tail := s.f .cqTail cq 0 16
  let phase := s.f .cqTail cq 16 1
  let flags := phase + 2 * bit dup + 4 * bit c.rslot
  let w1 := sq + 2 ^ 16 * s.f .sqHead sq 0 16 + 2 ^ 32 * c.status + 2 ^ 40 * flags
  let d := leBytes 8 c.seq ++ leBytes 8 w1 ++ leBytes 4 c.detail ++ leBytes 4 c.task ++ leBytes 8 c.result
  let s := s.cpWrite ((s.sqStall sq).getD 16) (s.cqBase cq + 32 * tail) d
  let s := if tail + 1 = s.cqDepth cq then (s.setF .cqTail cq 0 16 0).setF .cqTail cq 16 1 (1 - phase)
    else s.setF .cqTail cq 0 16 (tail + 1)
  s.cqCount cq

/-- A completion is posted, or discarded where its CQ is disabled: counted, with one entry for the SQ (R541). -/
def State.post (s : State) (sq : Nat) (c : Cpl) (dup : Bool) : State :=
  let cq := s.sqCq sq
  if s.cqOn cq then s.cqWrite cq sq c dup
  else
    let s := s.addF .sqStat sq 32 16 1
    if (s.sq sq).dropped then s
    else (s.updSq sq fun q => { q with dropped := true }).logFault
      { code := .cqeDropped, cls := .d, stall := s.sqStall sq, unit := 5, detail := sq }

/-! ## Result slots (R543 to R549) -/

/-- The first word (STATE, STATUS, GEN) and SEQ of a slot. -/
def State.slotWords (s : State) (k : Nat) : Word × Word := Tbl.get (0, 0) s.q.slots k

/-- Replace them. -/
def State.setSlot (s : State) (k : Nat) (w seq : Word) : State :=
  { s with q := { s.q with slots := Tbl.put (0, 0) s.q.slots k (w, seq) } }

/-- STATE of a slot. -/
def State.slotState (s : State) (k : Nat) : Nat := fld (s.slotWords k).1 0 2

/-- A slot is assigned to a command (R546): BUSY, the next GEN, its SEQ, STATUS and DATA zero. -/
def State.assignSlot (s : State) (k seq : Nat) : State :=
  let gen := (fld (s.slotWords k).1 16 16 + 1) % 2 ^ 16
  (s.setSlot k (BitVec.ofNat 64 (1 + gen * 2 ^ 16)) (BitVec.ofNat 64 seq)).wrBytes (rslotBase k) (List.replicate 48 0)

/-- A command's slot becomes READY with its status; DATA is what it delivers, or zero (R547). -/
def State.readySlot (s : State) (k status : Nat) (d : List Byte) : State :=
  let w := setFld (setFld (s.slotWords k).1 0 2 2) 8 8 status
  (s.setSlot k w (s.slotWords k).2).wrBytes (rslotBase k) ((d ++ List.replicate 48 0).take 48)

/-! ## The end of a command -/

/-- Most completions that an SQ retains (R532). -/
def retention : Nat := 256

/-- A completion enters the retention window. -/
def State.retain (s : State) (sq : Nat) (c : Cpl) : State :=
  s.updSq sq fun q => { q with retained := (c :: q.retained).take retention }

/-- An accepted command of an SQ. -/
def State.cmd? (s : State) (sq seq : Nat) : Option Cmd := (s.sq sq).accepted.find? fun c => c.seq == seq

/-- Update an accepted command. -/
def State.updCmd (s : State) (sq seq : Nat) (f : Cmd → Cmd) : State :=
  s.updSq sq fun q => { q with accepted := q.accepted.map fun c => if c.seq = seq then f c else c }

/-- An accepted command completes: its result slot first, then its record (R539), then the duplicates that waited for
it (R532). -/
def State.completeCmd (s : State) (sq seq status : Nat) (detail task result : Nat := 0) (data : List Byte := []) : State :=
  match s.cmd? sq seq with
  | none => s
  | some c =>
    let s := match c.slot with
      | some k => s.readySlot k status data
      | none => s
    let r : Cpl := { seq := seq, status := status, detail := detail, task := task, result := result, rslot := c.slot.isSome }
    let n := ((s.sq sq).dups.filter (· == seq)).length
    let s := s.updSq sq fun q => { q with
      accepted := q.accepted.filter fun e => e.seq != seq
      dups := q.dups.filter (· != seq) }
    let s := (s.post sq r false).retain sq r
    (List.range n).foldl (fun s _ => s.post sq { r with rslot := false } true) s

/-- A command that is refused when it is read completes at once (R524, R528, R531); it has consumed its SEQ. -/
def State.refuseCmd (s : State) (sq seq status : Nat) : State :=
  let r : Cpl := { seq := seq, status := status, detail := 0, task := 0, result := 0, rslot := false }
  (s.post sq r false).retain sq r

/-- Accepted commands of an SQ that a test selects and that have not started are discarded, each with a completion
(R129, R189 step 4). -/
def State.discardWaiting (s : State) (sq status : Nat) : State :=
  ((s.sq sq).accepted.filter fun c => !c.started).foldl (fun s c => s.completeCmd sq c.seq status 0 (c.task.getD 0)) s

end Sys2Proof.Machine
end

