-- ==== Sys2Proof/Machine/ScalarMem.lean ====
section
/-! DEFINITION. Scalar loads, stores, atomics and tagged accesses (R352 to R354, R368 to R370, R376). -/

namespace Sys2Proof.Machine

open Sys2Proof

/-- Checks of an address before its region is looked at: poison used to form it is consumed (R333), alignment (R239,
R304), and bits [63:48] (R352). -/
def X.withAddr (x : X) (s : State) (a : Word) (poison aligned : Bool) (go : Nat → State) : State :=
  if poison then x.fault s .poisonConsumed
  else if !aligned then x.fault s .misalignedAccess a.toNat
  else if a.toNat / 2 ^ 48 ≠ 0 then x.fault s .windowViolation a.toNat
  else go a.toNat

/-- The MXE is idle and its queue is empty, so other parties may reach the operand buffers (R256). -/
def State.mxeIdle (s : State) (core : Nat) : Bool := (s.core core).mxq.isEmpty

/-- A scalar access to local CM or an operand buffer by R235 to R257. -/
def X.touch (x : X) (s : State) (a : Nat) (write : Bool) : CmEnd × State :=
  s.cmTouch x.core portScalar a write x.meet x.ctx x.pc x.w

/-- A value of all ones with poison: what a read that is not performed returns (R233, R248, R254). -/
def lostValue (n : Nat) (sx : Bool) : Word := extend n sx (BitVec.allOnes 64)

/-- A scalar read of local memory. -/
def X.localLoad (x : X) (s : State) (a n : Nat) (sx : Bool) (after : State → State) : State :=
  match x.touch s a false with
  | (.off, s) => x.fault s .cmBankOff a (bankAt a)
  | (.lost, s) => x.ret s (lostValue n sx) true
  | (.ok, s) =>
    let v := s.narrowRead (cmBase x.core + a) n
    x.ret (after s) (extend n sx v.1) v.2

/-- A scalar write of local memory. -/
def X.localStore (x : X) (s : State) (a n : Nat) (v : Word) (poison : Bool) (after : State → State) : State :=
  match x.touch s a true with
  | (.off, s) => x.fault s .cmBankOff a (bankAt a)
  | (.lost, s) => x.next s id
  | (.ok, s) => x.next (after (s.narrowWrite (cmBase x.core + a) n v poison)) id

/-- The order stage of a line has a place. -/
def State.orderRoom (s : State) (line : Nat) : Bool := decide ((s.tracker line).queue.length < trackerPlaces)

/-- A load of n bytes at a checked device address (R353, R354, R368). `s0` is the state with the access held. -/
def X.load (x : X) (s0 s : State) (a n : Nat) (sx : Bool) : State :=
  let rd := iRd x.w
  match regionOf a with
  | .w | .a | .p => x.localLoad s a n sx id
  | .ob _ => if s.mxeIdle x.core then x.localLoad s a n sx id else s0
  | .paddock =>
    match s.place x.t.stall a false with
    | some (.paddock o) => x.wait (s.pdSend (x.pdReq s o (.load n sx))) (.result (some rd))
    | _ => x.fault s .windowViolation a
  | .dram =>
    match s.place x.t.stall a false with
    | some (.dram p) =>
      if s.hdmDb p && !s.lineFree (p / 64) false then
        if s.orderRoom (p / 64) then
          let d : DevAcc := ⟨x.core, x.ctx, some x.t.id, p, n, 0, false, sx, false⟩
          x.wait (s.enterOrder (p / 64) (.dev (subOfCore x.core) false (some d)) 2 (subOfCore x.core)) (.result (some rd))
        else s0
      else
        let v := s.narrowRead p n
        (x.wait s (.result (some rd))).deliver x.core x.ctx (some x.t.id) (extend n sx v.1) v.2
    | _ => x.fault s .windowViolation a
  | .host =>
    match s.place x.t.stall a false with
    | some (.host req b) => x.wait (s.emit (.hostRead req b n)) (.host rd n sx)
    | _ => x.fault s .windowViolation a
  | .core | .hitch | .remote | .none_ => x.fault s .windowViolation a

/-- A store of n bytes at a checked device address (R353, R354, R368); poison written to host memory leaves with EP set
and is then consumed (R333, R334). -/
def X.store (x : X) (s0 s : State) (a n : Nat) (v : Word) (poison : Bool) : State :=
  match regionOf a with
  | .w | .a | .p => x.localStore s a n v poison id
  | .ob _ => if s.mxeIdle x.core then x.localStore s a n v poison id else s0
  | .paddock =>
    match s.place x.t.stall a true with
    | some (.paddock o) => x.next (s.pdSend (x.pdReq s o (.store n v poison))) id
    | _ => x.fault s .windowViolation a
  | .dram =>
    match s.place x.t.stall a true with
    | some (.dram p) =>
      if s.hdmDb p && !s.lineFree (p / 64) true then
        if s.orderRoom (p / 64) then
          let d : DevAcc := ⟨x.core, x.ctx, some x.t.id, p, n, v, poison, false, true⟩
          x.next (s.enterOrder (p / 64) (.dev (subOfCore x.core) true (some d)) 2 (subOfCore x.core)) id
        else s0
      else x.next (s.narrowWrite p n v poison) id
    | _ => x.fault s .windowViolation a
  | .host =>
    match s.place x.t.stall a true with
    | some (.host req b) =>
      let s := s.emit (.hostWrite req b (leBytes n v.toNat) poison)
      if poison then x.fault s .poisonConsumed a else x.next s id
    | _ => x.fault s .windowViolation a
  | .core | .remote => x.fault s .noCredit a
  | .hitch | .none_ => x.fault s .windowViolation a

/-- Access size and offset of form M (R355, R368). -/
def X.size (x : X) : Nat := 2 ^ ib x.w 10 2
def X.addrM (x : X) (off : Word) : Word := x.a.1 + off * BitVec.ofNat 64 x.size

/-- LD (R368). -/
def execLd (i : Issue) (s : State) : Res :=
  .next (issueOf i .ld (fun x t =>
    let a := x.addrM (sext 9 (ib x.w 0 9))
    x.withAddr t a x.a.2 (a.toNat % x.size == 0) fun a => x.load s t a x.size (bitAt x.w 9)) s)

/-- ST (R368). -/
def execSt (i : Issue) (s : State) : Res :=
  .next (issueOf i .st (fun x t =>
    let a := x.addrM (sext 9 (ib x.w 0 9))
    x.withAddr t a x.a.2 (a.toNat % x.size == 0) fun a => x.store s t a x.size x.rd.1 x.rd.2) s)

/-- Size and address of the indexed forms (R369). -/
def X.sizeX (x : X) : Nat := 2 ^ ib x.w 0 2
def X.addrX (x : X) : Word := x.a.1 + x.b.1 * BitVec.ofNat 64 x.sizeX

/-- LDX (R369). -/
def execLdx (i : Issue) (s : State) : Res :=
  .next (issueOf i .ldx (fun x t =>
    x.withAddr t x.addrX (x.a.2 || x.b.2) (x.addrX.toNat % x.sizeX == 0) fun a => x.load s t a x.sizeX (bitAt x.w 2)) s)

/-- STX (R369). -/
def execStx (i : Issue) (s : State) : Res :=
  .next (issueOf i .stx (fun x t =>
    x.withAddr t x.addrX (x.a.2 || x.b.2) (x.addrX.toNat % x.sizeX == 0) fun a => x.store s t a x.sizeX x.rd.1 x.rd.2) s)

/-! ## Atomics (R303 to R307, R370) -/

/-- An element atomic at rs1 with operand rs2; `ret` for a form that returns the old value. -/
def X.atom (x : X) (t : State) (k : Atom) (ret : Bool) : State :=
  x.withAddr t x.a.1 x.a.2 (k.aligned x.a.1.toNat) fun a =>
    match regionOf a with
    | .p =>
      if k = .addS then x.fault t .atomicRegion a
      else match (if k.isFx then t.cmScale x.core a else some 0) with
        | none => x.fault t .fx96NoWindow a
        | some sc =>
          match x.touch t a true with
          | (.off, t) => x.fault t .cmBankOff a (bankAt a)
          | (.lost, t) => if ret then x.ret t (lostValue k.size true) true else x.next t id
          | (.ok, t) =>
            let r := t.atomic (cmBase x.core + a) k x.b.1 x.b.2 sc
            if ret then x.ret r.2.2 r.1 r.2.1 else x.next r.2.2 id
    | .paddock =>
      match t.place x.t.stall a true with
      | some (.paddock o) =>
        if k.isFx && (t.pdScale x.t.stall o).isNone then x.fault t .fx96NoWindow a
        else
          let t := t.pdSend (x.pdReq t o (.atom k x.b.1 x.b.2))
          if ret then x.wait t (.result (some (iRd x.w))) else x.next t id
      | _ => x.fault t .windowViolation a
    | .w | .a | .ob _ | .core | .hitch | .dram | .host | .remote | .none_ => x.fault t .atomicRegion a

/-- AADD.W (R370). -/
def execAaddW (i : Issue) (s : State) : Res := .next (issueOf i .aaddW (fun x t => x.atom t .addW false) s)
/-- AADD.W.R (R370). -/
def execAaddWR (i : Issue) (s : State) : Res := .next (issueOf i .aaddWR (fun x t => x.atom t .addW true) s)
/-- AADD.D (R370). -/
def execAaddD (i : Issue) (s : State) : Res := .next (issueOf i .aaddD (fun x t => x.atom t .addD false) s)
/-- AADD.D.R (R370). -/
def execAaddDR (i : Issue) (s : State) : Res := .next (issueOf i .aaddDR (fun x t => x.atom t .addD true) s)
/-- AFADD.S, Paddock only (R303, R370). -/
def execAfaddS (i : Issue) (s : State) : Res := .next (issueOf i .afaddS (fun x t => x.atom t .addS false) s)
/-- AFADD.S.R (R370). -/
def execAfaddSR (i : Issue) (s : State) : Res := .next (issueOf i .afaddSR (fun x t => x.atom t .addS true) s)
/-- AFXADD.D (R313, R370). -/
def execAfxaddD (i : Issue) (s : State) : Res := .next (issueOf i .afxaddD (fun x t => x.atom t .fxD false) s)
/-- AFXADD.S (R313, R370). -/
def execAfxaddS (i : Issue) (s : State) : Res := .next (issueOf i .afxaddS (fun x t => x.atom t .fxS false) s)
/-- ASWAP.W (R370). -/
def execAswapW (i : Issue) (s : State) : Res := .next (issueOf i .aswapW (fun x t => x.atom t .swapW true) s)
/-- ASWAP.D (R370). -/
def execAswapD (i : Issue) (s : State) : Res := .next (issueOf i .aswapD (fun x t => x.atom t .swapD true) s)

/-! ## Tagged accesses (R275 to R280, R376) -/

/-- The fault of a tagged access outside the slots: by its kind, then by its address (R277, R353). -/
def noSlot (a : Nat) (write : Bool) : FaultCode :=
  match regionOf a with
  | .w | .p | .ob _ | .dram | .host => .tagNoSlot
  | .core | .remote => if write then .noCredit else .windowViolation
  | _ => .windowViolation

/-- TLD: consume or peek (R275, R376). -/
def execTld (i : Issue) (s : State) : Res :=
  .next (issueOf i .tld (fun x t =>
    let a := x.addrM (sext 8 (ib x.w 0 8))
    let peek := bitAt x.w 8
    let sx := bitAt x.w 9
    x.withAddr t a x.a.2 (a.toNat % x.size == 0) fun a =>
      let key := cmBase x.core + a
      match regionOf a with
      | .a =>
        if !t.tagAt key then x.wait t (.tag key ((t.ctx x.core x.ctx).since.getD t.now))
        else x.localLoad t a x.size sx fun u => if peek then u else u.putTag key false
      | .paddock =>
        match t.place x.t.stall a true with
        | some (.paddock o) => x.wait (t.pdSend (x.pdReq t o (.tagged x.size sx peek))) (.result (some (iRd x.w)))
        | _ => x.fault t .windowViolation a
      | _ => x.fault t (noSlot a false) a) s)

/-- TST: fill (R275, R376). -/
def execTst (i : Issue) (s : State) : Res :=
  .next (issueOf i .tst (fun x t =>
    let a := x.addrM (sext 9 (ib x.w 0 9))
    x.withAddr t a x.a.2 (a.toNat % x.size == 0) fun a =>
      let key := cmBase x.core + a
      match regionOf a with
      | .a =>
        if t.tagAt key then x.wait t (.tag key ((t.ctx x.core x.ctx).since.getD t.now))
        else x.localStore t a x.size x.rd.1 x.rd.2 fun u => u.putTag key true
      | .paddock =>
        match t.place x.t.stall a true with
        | some (.paddock o) => x.wait (t.pdSend (x.pdReq t o (.fill x.size x.rd.1 x.rd.2))) (.result none)
        | _ => x.fault t .windowViolation a
      | _ => x.fault t (noSlot a true) a) s)

/-- A tag-only access to the slot containing rs1: at once in the tag array of CM, as a bank request in the Paddock
(R254, R279). -/
def X.tagOnly (x : X) (t : State) (write : Bool) (op : PdOp) (cm : State → Nat → State) : State :=
  x.withAddr t x.a.1 x.a.2 true fun a =>
    match regionOf a with
    | .a =>
      if bitAt (t.reg .cmCfg x.core) (32 + bankAt a) then x.fault t .cmBankOff a (bankAt a)
      else cm t (cmBase x.core + a)
    | .paddock =>
      match t.place x.t.stall a write with
      | some (.paddock o) =>
        let t := t.pdSend (x.pdReq t o op)
        if write then x.next t id else x.wait t (.result (some (iRd x.w)))
      | _ => x.fault t .windowViolation a
    | _ => x.fault t (noSlot a write) a

/-- TSET (R275, R376). -/
def execTset (i : Issue) (s : State) : Res :=
  .next (issueOf i .tset (fun x t => x.tagOnly t true .tset fun u key => x.next (u.putTag key true) id) s)

/-- TCLR (R275, R376). -/
def execTclr (i : Issue) (s : State) : Res :=
  .next (issueOf i .tclr (fun x t => x.tagOnly t true .tclr fun u key => x.next (u.putTag key false) id) s)

/-- TPROBE: rd := the tag (R275, R376). -/
def execTprobe (i : Issue) (s : State) : Res :=
  .next (issueOf i .tprobe (fun x t => x.tagOnly t false .probe fun u key =>
    x.ret u (if u.tagAt key then 1 else 0) false) s)

end Sys2Proof.Machine
end

