-- ==== Sys2Proof/Machine/HitchStore.lean ====
section
/-! DEFINITION. The hitch store: banks, ports, release bus, waits, monitors and barriers (chapter 13; R379 to R381). -/

namespace Sys2Proof.Machine

open Sys2Proof

/-! ## The store -/

/-- A hitch. -/
def State.hitch (s : State) (i : Nat) : Word := Tbl.get 0 s.cx.hs.val i

/-- It holds poison (R336). -/
def State.hitchPoison (s : State) (i : Nat) : Bool := KSet.has s.cx.hs.poison i

/-- Replace the hitch store. -/
def State.setHs (s : State) (h : HitchStore) : State := { s with cx := { s.cx with hs := h } }

/-- Cores of the chip. -/
def coreCount : Nat := 32

/-- A message of the release bus goes to every core; only a core with a task on it can have a waiter (R451). -/
def State.broadcast (s : State) (i : Nat) (v : Word) : State :=
  (List.range coreCount).foldl (fun s c =>
    if (s.core c).task.isSome then s.updCore c fun k => { k with bus := k.bus ++ [(i, v)] } else s) s

/-- A performed write or add: the new value, unpoisoned, on the release bus (R336, R451). -/
def State.hitchWrite (s : State) (i : Nat) (v : Word) : State :=
  (s.setHs { s.cx.hs with val := Tbl.put 0 s.cx.hs.val i v, poison := KSet.del i s.cx.hs.poison }).broadcast i v

/-- The ABORTED marker (R453, R476). -/
def abortedMark : Word := 0x8000000000000000

/-- ARRIVED and GEN of a counter hitch (section 5.1). -/
def arrivedOf (v : Word) : Nat := fld v 0 32
def genOf (v : Word) : Nat := fld v 32 31

/-- A value meets a condition (R456). -/
def HCond.met (c : HCond) (v w : Word) : Bool :=
  match c with
  | .ge => decide (w.toNat ≤ v.toNat)
  | .eq => v == w
  | .ne => v != w

/-- Device address of a pool hitch for a stall. -/
def State.hitchAddr (s : State) (st i : Nat) : Nat := hitchSpace + 8 * (i - (s.active.hitch st).1)

/-- Stall of a task. -/
def State.stallOfTask (s : State) (id : Nat) : Nat := ((s.task? id).map Task.stall).getD 0

/-! ## Engine queues -/

/-- Queue of an engine: 0 MXE, 1 VXE, 2 DMA. -/
def ShuzoCore.queue (k : ShuzoCore) (e : Nat) : List EOp :=
  match e with
  | 0 => k.mxq
  | 1 => k.vxq
  | _ => k.dmaq

/-- Replace it. -/
def ShuzoCore.setQueue (k : ShuzoCore) (e : Nat) (q : List EOp) : ShuzoCore :=
  match e with
  | 0 => { k with mxq := q }
  | 1 => { k with vxq := q }
  | _ => { k with dmaq := q }

/-- Unit code of the fault log for an engine (R682). -/
def engineUnit (e : Nat) : Nat := e + 1

/-- The instruction at the head of an engine's queue leaves it. -/
def State.popQueue (s : State) (core e : Nat) : State :=
  s.updCore core fun k => k.setQueue e (k.queue e).tail

/-- The instruction at the head of an engine's queue has been started and waits. -/
def State.beginHead (s : State) (core e : Nat) : State :=
  s.updCore core fun k => match k.queue e with
    | o :: q => k.setQueue e ({ o with began := true } :: q)
    | [] => k

/-- Joined record of an engine queue (R466). -/
def ShuzoCore.joinedOf (k : ShuzoCore) (e : Nat) : Option (Nat × Nat) :=
  (k.ejoined.find? fun r => r.1 == e).map fun r => r.2

/-! ## Faults and completion of an operation -/

/-- The class C fault of a hitch operation. -/
def HReq.fault (r : HReq) (s : State) (code : FaultCode) (detail : Nat := 0) : State :=
  s.taskFault r.task code r.unit r.core (some r.ctx) r.pc r.word (s.hitchAddr (s.stallOfTask r.task) r.idx) detail

/-- HITCH_STAT counts a wait ended by HITCH_ABORTED. -/
def State.countAborted (s : State) (st : Nat) : State := s.addF .hitchStat st 32 16 1

/-- A request enters its core's hitch port, behind the core's earlier ones (R449). -/
def State.hitchQueued (s : State) (r : HReq) : State :=
  let h := s.cx.hs
  s.setHs { h with ports := Tbl.put [] h.ports r.core (Tbl.get [] h.ports r.core ++ [r]) }

/-- A hitch operation is issued. -/
def State.hitchSend (s : State) (r : HReq) : State := (s.hitchQueued r).perf r.core 0x0B 1

/-- A barrier instruction of a unit is over: a context's value is back, an engine's queue moves on. -/
def HReq.finish (r : HReq) (s : State) (v : Word) : State :=
  if r.unit = 0 then s.deliver r.core r.ctx (some r.task) v false else s.popQueue r.core (r.unit - 1)

/-- The unit that waits at a barrier begins to spin, or its context stays descheduled (R422, R466). -/
def HReq.await (r : HReq) (s : State) (b gen : Nat) : State :=
  if r.unit = 0 then
    s.updCtx r.core r.ctx fun k => { k with wait := .barrier b r.idx gen (k.since.getD s.now) }
  else
    let p : Spin := ⟨b, r.idx, gen, s.now, false⟩
    s.updCore r.core fun k => { k with spins := Tbl.insert (r.unit - 1) p k.spins }

/-- Keep the joined record of the arrival (R466). -/
def HReq.join (r : HReq) (s : State) (b gen : Nat) : State :=
  if r.unit = 0 then s.updCtx r.core r.ctx fun k => { k with joined := some (b, gen) }
  else s.updCore r.core fun k => { k with
    ejoined := (r.unit - 1, b, gen) :: k.ejoined.filter fun e => e.1 != r.unit - 1 }

/-! ## Performing an operation at its bank -/

/-- An operation is performed (R448, R453, R456, R458, R464, R466). -/
def State.hitchDo (s : State) (r : HReq) : State :=
  let v := s.hitch r.idx
  let marked := bitAt v 63
  let st := s.stallOfTask r.task
  let back := fun (s : State) (v : Word) => s.deliver r.core r.ctx (some r.task) v false
  match r.op with
  | .write w => s.hitchWrite r.idx w
  | .read => if s.hitchPoison r.idx then r.fault s .poisonConsumed else back s v
  | .add w ret =>
    if s.hitchPoison r.idx then r.fault s .poisonConsumed
    else if marked then r.fault s .hitchAborted
    else
      let s := s.hitchWrite r.idx (v + w)
      if ret then back s v else s
  | .wait c w =>
    if s.hitchPoison r.idx then r.fault s .poisonConsumed
    else if marked then r.fault (s.countAborted st) .hitchAborted
    else if c.met v w then back s v
    else s.updCtx r.core r.ctx fun k => { k with wait := .hitch c r.idx w (k.since.getD s.now) v }
  | .mon =>
    if s.hitchPoison r.idx then r.fault s .poisonConsumed
    else if marked then r.fault (s.countAborted st) .hitchAborted
    else
      let k := s.ctx r.core r.ctx
      let slot := match (List.range 4).find? fun n => (Tbl.find? n k.mon).any fun m => m.idx == r.idx with
        | some n => some n
        | none => (List.range 4).find? fun n => (Tbl.find? n k.mon).isNone
      let s := match slot with
        | some n => s.setCtx r.core r.ctx { k with mon := Tbl.insert n ⟨r.idx, false⟩ k.mon }
        | none => s
      back s v
  | .arrive b _ sync =>
    if s.f .barrierCtl b 0 1 = 0 then r.fault s .barrierDisabled b
    else if s.hitchPoison r.idx then r.fault s .poisonConsumed
    else if marked then r.fault s .hitchAborted
    else
      let g := genOf v
      let new : Nat := if s.f .barrierCtl b 16 10 ≤ arrivedOf v + 1 then (g + 1) % 2 ^ 31 * 2 ^ 32
        else arrivedOf v + 1 + g * 2 ^ 32
      let s := r.join (s.hitchWrite r.idx (BitVec.ofNat 64 new)) b g
      let s := if s.f .barrierCtl b 16 10 ≤ arrivedOf v + 1 then s.trace (s.stallOfTask r.task) 7 noCore 0 r.task b else s
      if sync then s.hitchQueued { r with op := .bwait b (r.unit - 1) g }
      else r.finish s (BitVec.ofNat 64 g)
  | .bwait b _ g =>
    if s.f .barrierCtl b 0 1 = 0 then r.fault s .barrierDisabled b
    else if s.hitchPoison r.idx then r.fault s .poisonConsumed
    else if marked then r.fault (s.countAborted st) .hitchAborted
    else if genOf v ≠ g then r.finish s 0
    else r.await s b g
  | .remote .. => s

/-- Bank of a hitch (R447). -/
def hitchBank (i : Nat) : Nat := i % 16

/-- A bank's queue. -/
def State.hitchQueue (s : State) (b : Nat) : List HReq := Tbl.get [] s.cx.hs.banks b

/-- Replace it. -/
def State.setHitchQueue (s : State) (b : Nat) (l : List HReq) : State :=
  s.setHs { s.cx.hs with banks := Tbl.put [] s.cx.hs.banks b l }

/-- The oldest operation queued at a bank is performed; one of a task that no longer issues is performed for its
effect, and its value discarded (R448, R688 step 1). -/
def State.hitchBankStep (s : State) (b : Nat) : State :=
  match s.hitchQueue b with
  | [] => s
  | r :: rest => (s.setHitchQueue b rest).hitchDo r

/-- Every operation queued at a bank is performed: the CP, the fabric port, the abort sequencer and HITCH_FORCE come
after the quadrant ports (R448). -/
def State.hitchBankDrain (s : State) (b : Nat) : Nat → State
  | 0 => s
  | n + 1 => (s.hitchBankStep b).hitchBankDrain b n

/-- A write by another port than the quadrants': behind what is queued at the bank. -/
def State.hitchPoke (s : State) (i : Nat) (f : Word → Word) : State :=
  let t := s.hitchBankDrain (hitchBank i) (s.hitchQueue (hitchBank i)).length
  t.hitchWrite i (f (t.hitch i))

/-! ## The quadrant ports -/

/-- Streams and DMA instructions of a context still move data to another chip: transfers to a ring of that chip
whose writes have not all been placed in ORD (R469). -/
def State.sendingTo (s : State) (core ctx chip : Nat) : Bool :=
  (s.core core).streams.any fun e => e.2.any fun t =>
    t.ctx == ctx && (t.read < t.count || t.xfers.any fun x => x.dmode == 2 && bitAt x.ring 20 && fld x.ring 16 4 == chip)

/-- Scalar fills of a context that wait at another core's DMA-in port. -/
def State.fillsPending (s : State) (core ctx : Nat) : Bool :=
  (List.range coreCount).any fun c => (s.core c).inbound.any fun r => match r.kind with
    | .fill _ _ _ _ _ (some w) => w.2 == (core, ctx)
    | _ => false

/-- Earlier writes of the context are visible (R380). -/
def State.visible (s : State) (core ctx : Nat) : Bool := !s.writesPending core ctx && !s.fillsPending core ctx

/-- The request at the head of a core's port may go (R380, R465, R469). -/
def State.portReady (s : State) (r : HReq) : Bool :=
  match r.op with
  | .write _ | .add .. => s.visible r.core r.ctx
  | .arrive .. => r.unit != 0 || s.visible r.core r.ctx
  | .remote chip _ _ => s.visible r.core r.ctx && !s.sendingTo r.core r.ctx chip
  | _ => true

/-- Head of a core's port, if it may go. -/
def State.portHead (s : State) (core : Nat) : Option HReq :=
  match Tbl.get [] s.cx.hs.ports core with
  | r :: _ => if s.portReady r then some r else none
  | [] => none

/-- A core's port without its head, and the core as the one its quadrant served last. -/
def State.portPop (s : State) (core : Nat) : State :=
  let h := s.cx.hs
  s.setHs { h with
    ports := Tbl.put [] h.ports core (Tbl.get [] h.ports core).tail
    served := Tbl.put 7 h.served (core / 8) (core % 8) }

/-- A hitch write or add to another chip leaves in the ORD class (R381, R469, R652). -/
def State.sendHitch (s : State) (r : HReq) (chip : Nat) (add : Bool) (v : Word) : State :=
  s.sendPacket (header0 (if add then tHadd else tHwr) 0 chip s.chipId r.core (s.stallOfTask r.task) 3 0 0 0 r.idx) v []

/-- The core that a quadrant's hitch port serves next (R449). -/
def State.portChoice (s : State) (q : Nat) : Option Nat :=
  (roundRobin (fun c => (s.portHead (8 * q + c)).isSome) (Tbl.get 7 s.cx.hs.served q) 8).map fun c => 8 * q + c

/-- One quadrant's delivery: its chosen request goes to another chip, or to its bank if that is `b`. -/
def State.deliverPort (s : State) (b q : Nat) : State :=
  match s.portChoice q with
  | none => s
  | some c =>
    match s.portHead c with
    | none => s
    | some r =>
      match r.op with
      | .remote chip add v => (s.portPop c).sendHitch r chip add v
      | _ =>
        if hitchBank r.idx = b then
          let s := s.portPop c
          s.setHitchQueue b (s.hitchQueue b ++ [r])
        else s

/-- HITCH_BANK_ACCESS: the quadrant ports deliver, Q0 to Q3, and the bank performs its oldest operation (R448,
R449). -/
def execHitchBankAccess (bank : Nat) (s : State) : Res :=
  let b := bank % 16
  .next (((List.range 4).foldl (fun s q => s.deliverPort b q) s).hitchBankStep b)

/-! ## Messages seen at a core (R454, R456, R459, R466) -/

/-- The fault of a unit that waits, raised by what its core sees. -/
def State.waiterFault (s : State) (core unit ctx : Nat) (code : FaultCode) (idx : Nat) (detail : Nat := 0) : State :=
  match s.taskOn core with
  | none => s
  | some t =>
    let k := s.core core
    let pcw := if unit = 0 then ((k.ctx ctx).pc, s.fetch core (k.ctx ctx).pc)
      else match k.queue (unit - 1) with
        | e :: _ => (e.pc, e.word)
        | [] => (0, 0)
    s.taskFault t.id code unit core (some ctx) pcw.1 pcw.2 (s.hitchAddr t.stall idx) detail

/-- The lowest monitor slot that has fired. -/
def Ctx.firedSlot (k : Ctx) : Option (Nat × Nat) :=
  (List.range 4).findSome? fun n => match Tbl.find? n k.mon with
    | some m => if m.fired then some (n, m.idx) else none
    | none => none

/-- A context sees a value of a hitch. -/
def State.ctxSees (s : State) (core st i : Nat) (v : Word) (x : Nat) : State :=
  let k := s.ctx core x
  let waits := match k.wait with
    | .hitch _ j _ _ _ => j == i && k.ret.isNone
    | .barrier _ j _ _ => j == i && k.ret.isNone
    | _ => false
  if bitAt v 63 && (waits || k.mon.any fun m => m.2.idx == i) then
    (if waits || k.wait == .monitor (k.since.getD 0) then s.countAborted st else s).waiterFault core 0 x .hitchAborted i
  else
    let fire := fun (m : Nat × Monitor) => if m.2.idx = i then (m.1, { m.2 with fired := true }) else m
    let k := { k with mon := k.mon.map fire }
    s.setCtx core x (match k.wait with
      | .hitch c j w t _ =>
        if j ≠ i || k.ret.isSome then k
        else if c.met v w then { k with ret := some (v, false) }
        else { k with wait := .hitch c j w t v }
      | .barrier _ j g _ => if j = i && genOf v ≠ g && k.ret.isNone then { k with ret := some (v, false) } else k
      | .monitor _ =>
        match k.firedSlot, k.ret with
        | some (n, j), none =>
          { k with mon := Tbl.erase n k.mon, ret := some (BitVec.ofNat 64 (s.hitchAddr st j), false) }
        | _, _ => k
      | _ => k)

/-- A spinning engine sees a value of a hitch. -/
def State.spinSees (s : State) (core st i : Nat) (v : Word) (e : Nat) : State :=
  match Tbl.find? e (s.core core).spins with
  | none => s
  | some p =>
    if p.idx ≠ i || p.woken then s
    else if bitAt v 63 then
      let ctx := match (s.core core).queue e with
        | o :: _ => o.ctx
        | [] => 0
      (s.countAborted st).waiterFault core (engineUnit e) ctx .hitchAborted i
    else if genOf v ≠ p.gen then
      s.updCore core fun k => { k with spins := Tbl.insert e { p with woken := true } k.spins }
    else s

/-- HITCH_RELEASE_SEEN: a core sees the oldest release-bus message on its way to it (R454, R456, R458, R459). -/
def execHitchReleaseSeen (core : Nat) (s : State) : Res :=
  .next (match (s.core core).bus with
    | [] => s
    | (i, v) :: rest =>
      let s := s.updCore core fun k => { k with bus := rest }
      match s.taskOn core with
      | none => s
      | some t =>
        if !t.phase.live then s else
        let s := (List.range 8).foldl (fun s x => s.ctxSees core t.stall i v x) s
        (List.range 3).foldl (fun s e => s.spinSees core t.stall i v e) s)

/-- BARRIER_WAKE: a waiter that has seen a GEN other than the joined one completes (R422, R466). -/
def execBarrierWake (core unit ctx : Nat) (s : State) : Res :=
  .next (
    let k := s.core core
    if unit = 0 then
      match (k.ctx ctx).wait, (k.ctx ctx).ret with
      | .barrier .., some _ => s.complete core ctx none 0 false
      | _, _ => s
    else match Tbl.find? (unit - 1) k.spins with
      | some p =>
        if p.woken then
          (s.updCore core fun k => { k with spins := Tbl.erase (unit - 1) k.spins }).popQueue core (unit - 1)
        else s
      | none => s)

/-! ## Scalar hitch instructions (R379 to R381) -/

/-- A request of a context. -/
def X.hreq (x : X) (idx : Nat) (op : HOp) : HReq :=
  { idx := idx, op := op, core := x.core, unit := 0, ctx := x.ctx, task := x.t.id, pc := x.pc, word := x.w }

/-- The hitch addressed by rs1: poison (R333), alignment, bits [63:48] and the stall's range; `far` for the forms that
may name another chip (R381). -/
def X.hitchAt (x : X) (s : State) (operand far : Bool) (go : Nat → State) (remote : Nat → Nat → State) : State :=
  if x.a.2 || operand then x.fault s .poisonConsumed
  else if x.a.1.toNat % 8 ≠ 0 then x.fault s .misalignedAccess x.a.1.toNat
  else if x.a.1.toNat / 2 ^ 48 ≠ 0 then x.fault s .windowViolation x.a.1.toNat
  else
    let a := x.a.1.toNat
    match regionOf a with
    | .hitch =>
      match s.place x.t.stall a true with
      | some (.hitch i) => go i
      | _ => x.fault s .windowViolation a
    | .remote =>
      let chip := (a - remoteSpace) / 2 ^ 40
      let o := a % 2 ^ 40
      if !far || o < 0xC000000000 || 0xC000020000 ≤ o then x.fault s .windowViolation a
      else match s.reinCheck x.t.stall chip with
        | some c => x.fault s c a (if c = .reinDown then chip else 0)
        | none => remote chip ((o - 0xC000000000) / 8)
    | _ => x.fault s .windowViolation a

/-- An operation whose value returns to rd. -/
def X.hitchRet (x : X) (s : State) (operand : Bool) (op : HOp) : State :=
  x.hitchAt s operand false
    (fun i => (x.wait (s.inHitchSet (some x.t.id) i) (.result (some (iRd x.w)))).hitchSend (x.hreq i op))
    fun _ _ => s

/-- An operation that returns nothing: the context goes on (R380). -/
def X.hitchGo (x : X) (s : State) (op : HOp) (add : Bool) : State :=
  x.hitchAt s x.b.2 true
    (fun i => (x.next (s.inHitchSet (some x.t.id) i) id).hitchSend (x.hreq i op))
    fun chip j => (x.next s id).hitchSend (x.hreq j (.remote chip add x.b.1))

/-- HRD (R379). -/
def execHrd (i : Issue) (s : State) : Res := .next (issueOf i .hrd (fun x t => x.hitchRet t false .read) s)
/-- HWR (R379, R380). -/
def execHwr (i : Issue) (s : State) : Res := .next (issueOf i .hwr (fun x t => x.hitchGo t (.write x.b.1) false) s)
/-- HADD (R379). -/
def execHadd (i : Issue) (s : State) : Res :=
  .next (issueOf i .hadd (fun x t => x.hitchRet t x.b.2 (.add x.b.1 true)) s)
/-- HADDN (R379, R380). -/
def execHaddn (i : Issue) (s : State) : Res :=
  .next (issueOf i .haddn (fun x t => x.hitchGo t (.add x.b.1 false) true) s)
/-- HWAIT.GE (R456). -/
def execHwaitGe (i : Issue) (s : State) : Res :=
  .next (issueOf i .hwaitGe (fun x t => x.hitchRet t x.b.2 (.wait .ge x.b.1)) s)
/-- HWAIT.EQ (R456). -/
def execHwaitEq (i : Issue) (s : State) : Res :=
  .next (issueOf i .hwaitEq (fun x t => x.hitchRet t x.b.2 (.wait .eq x.b.1)) s)
/-- HWAIT.NE (R456). -/
def execHwaitNe (i : Issue) (s : State) : Res :=
  .next (issueOf i .hwaitNe (fun x t => x.hitchRet t x.b.2 (.wait .ne x.b.1)) s)

/-- HMON: an HMON when all four slots hold other hitches raises UNDEF_OPERAND (R458). -/
def execHmon (i : Issue) (s : State) : Res :=
  .next (issueOf i .hmon (fun x t =>
    x.hitchAt t false false
      (fun h =>
        if 4 ≤ x.k.mon.length && x.k.mon.all fun m => m.2.idx != h then x.fault t .undefOperand
        else (x.wait (t.inHitchSet (some x.t.id) h) (.result (some (iRd x.w)))).hitchSend (x.hreq h .mon))
      fun _ _ => t) s)

/-- HMWAIT: the device address of the fired hitch in the lowest fired slot, which is disarmed (R459). -/
def execHmwait (i : Issue) (s : State) : Res :=
  .next (issueOf i .hmwait (fun x t =>
    if x.k.mon.isEmpty then x.fault t .undefOperand
    else match x.k.firedSlot with
      | some (n, j) =>
        x.next t fun k => { k with mon := Tbl.erase n k.mon }.wg (iRd x.w)
          (BitVec.ofNat 64 (t.hitchAddr x.t.stall j)) false
      | none => x.wait t (.monitor ((t.ctx x.core x.ctx).since.getD t.now))) s)

/-- HMCLR: every slot is disarmed (R459). -/
def execHmclr (i : Issue) (s : State) : Res :=
  .next (issueOf i .hmclr (fun x t => x.next t fun k => { k with mon := [] }) s)

/-! ## Barrier instructions (R422, R464 to R468) -/

/-- What starts a barrier instruction: the unit (0: the context), where it stands, and what becomes of it. -/
structure BarStart where
  core : Nat
  unit : Nat
  ctx  : Nat
  task : Task
  pc   : Nat
  word : Word

/-- The fault of a barrier instruction that its unit starts. -/
def BarStart.fault (b : BarStart) (s : State) (code : FaultCode) : State :=
  s.taskFault b.task.id code b.unit b.core (some b.ctx) b.pc b.word

/-- The checks of R422 and R468, then the operation at the counter hitch; `pre` marks the unit as waiting for it. -/
def BarStart.go (b : BarStart) (s : State) (pre : State → State) (op : Nat → Option HOp) : State :=
  let st := b.task.stall
  let idx := fld b.word 32 9
  let d := (s.active.barrier st).1 + idx
  if !(decide (idx < (s.active.barrier st).2) && s.inView fun t => t.inRange Copy.barrier st d) then
    b.fault s .windowViolation
  else if s.f .barrierCtl d 0 1 = 0 then b.fault s .undefOperand
  else match op d with
    | none => b.fault s .undefOperand
    | some o =>
      let h := (s.active.hitch st).1 + s.f .barrierCtl d 32 14
      (pre (s.inHitchSet (some b.task.id) h)).hitchSend ⟨h, o, b.core, b.unit, b.ctx, b.task.id, b.pc, b.word⟩

/-- Every earlier instruction of a queue has completed and its writes are performed (R465): for the DMA queue, the
streams handed to stream queues too. -/
def State.queueQuiet (s : State) (core e : Nat) : Bool :=
  e != 2 || (s.core core).streams.all fun q => q.2.isEmpty

/-- A barrier instruction of operation `o` by engine `eng`, or by the issuing context with eng = 3 (R422). The
joined record decides a wait (R466). -/
def barrier (i : Issue) (eng : Nat) (o : Op) (op : (joined : Option (Nat × Nat)) → Nat → Option HOp) (quiet : Bool)
    (s : State) : State :=
  if eng = 3 then
    issueOf i o (fun x t =>
      if queueOf x.w ≠ 3 then s
      else
        let b : BarStart := ⟨x.core, 0, x.ctx, x.t, x.pc, x.w⟩
        b.go t (fun t => x.wait t (.result none)) (op x.k.joined)) s
  else
    match s.taskOn i.core, (s.core i.core).queue eng with
    | some t, e :: _ =>
      if decodeOp e.word ≠ some o || e.began || !t.phase.live || (quiet && !s.queueQuiet i.core eng) then s
      else
        let b : BarStart := ⟨i.core, engineUnit eng, e.ctx, t, e.pc, e.word⟩
        b.go s (fun s => s.beginHead i.core eng) (op ((s.core i.core).joinedOf eng))
    | _, _ => s

/-- BAR.ARRIVE (R464). -/
def execBarArrive (i : Issue) (eng : Nat) (s : State) : Res :=
  .next (barrier i eng .barArrive (fun _ d => some (.arrive d eng false)) true s)

/-- BAR.WAIT: a joined record that is empty or names another barrier raises UNDEF_OPERAND (R466). -/
def execBarWait (i : Issue) (eng : Nat) (s : State) : Res :=
  .next (barrier i eng .barWait (fun j d => match j with
    | some (b, g) => if b = d then some (.bwait d eng g) else none
    | none => none) false s)

/-- BAR.SYNC: BAR.ARRIVE, then BAR.WAIT (R466). -/
def execBarSync (i : Issue) (eng : Nat) (s : State) : Res :=
  .next (barrier i eng .barSync (fun _ d => some (.arrive d eng true)) true s)

/-! ## Limits and force -/

/-- HITCH_TIMEOUT: a hitch, monitor or barrier wait that outlasts its limit (R460). -/
def execHitchTimeout (core unit ctx : Nat) (s : State) : Res :=
  .next (match s.taskOn core with
    | none => s
    | some t =>
      if !t.phase.live then s else
      let lim := s.hitchLimit t.stall
      let fire := fun (since idx : Nat) (cond seen : Word) =>
        ((s.notBefore (since + lim)).addF .hitchStat t.stall 16 16 1).waiterFault core unit ctx .hitchTimeout idx
          (cond.toNat + 2 ^ 64 * seen.toNat)
      if unit = 0 then
        let k := s.ctx core ctx
        if k.ret.isSome then s else
        match k.wait with
        | .hitch _ i w since v => fire since i w v
        | .monitor since => fire since (match k.mon with | m :: _ => m.2.idx | [] => 0) 0 0
        | .barrier _ i g since => fire since i (BitVec.ofNat 64 g) (s.hitch i)
        | _ => s
      else match Tbl.find? (unit - 1) (s.core core).spins with
        | some p => if p.woken then s else fire p.since p.idx (BitVec.ofNat 64 p.gen) (s.hitch p.idx)
        | none => s)

/-- A write of HITCH_FORCE: with GO, the Owner's write of a hitch, after every other of its moment, and its record
(R448, R478). -/
def State.hitchForceAct (w : Written) (s : State) : State :=
  if !w.set 16 then s
  else
    let i := s.f .hitchForce 0 0 14
    let t := s.hitchBankDrain (hitchBank i) (s.hitchQueue (hitchBank i)).length
    let old := t.hitch i
    let new := s.reg .hitchForceValue 0
    (t.hitchWrite i new).logFault { code := .hitchForced, cls := .d, unit := 4, addr := i,
                                    detail := old.toNat + 2 ^ 64 * new.toNat }

/-- HITCH_FORCE. -/
def execHitchForce (req : Nat) (val : Word) (s : State) : Res := .next (s.regWrite req .hitchForce 0 val State.hitchForceAct)

end Sys2Proof.Machine
end

