-- ==== Sys2Proof/Machine/RingExec.lean ====
section
/-! DEFINITION. Ring instructions, grants of waiting reservations, and the limits of tag and credit waits (R284, R289 to
R296, R378). -/

namespace Sys2Proof.Machine

open Sys2Proof

/-! ## Resolving the ring -/

/-- The ring that rs1 names (R377): poison is consumed (R333), a ring that is not enabled ends the operation (R296),
and a ring of another chip is for RESV, PUSH and FILL only (R662, R663). -/
def X.ringAt (x : X) (s : State) (poison far : Bool) (go : Nat → State) (remote : Nat → Word → State) : State :=
  if x.a.2 || poison then x.fault s .poisonConsumed
  else match s.ringRef x.core x.t.stall x.a.1 with
    | .bad => x.fault s .undefOperand
    | .outside => x.fault s .windowViolation
    | .ring i => if s.ringOn i then go i else x.fault s .ringDisabled 0 x.a.1.toNat
    | .remote chip ref =>
      if !far then x.fault s .windowViolation
      else match s.reinCheck x.t.stall chip with
        | some c => x.fault s c 0 (if c = .reinDown then chip else 0)
        | none => remote chip ref

/-- The ring is one of the issuing core's own. -/
def X.ownRing (x : X) (i : Nat) : Bool := ringCore i == some x.core

/-- A value that a ring outside the core returns at once. -/
def X.farRet (x : X) (s : State) (v : Word) (poison : Bool) : State :=
  (x.wait s (.result (some (iRd x.w)))).deliver x.core x.ctx (some x.t.id) v poison

/-- IMM4: the word of the slot, or n − 1 (R378). -/
def X.imm4 (x : X) : Nat := ib x.w 0 4

/-- Key from which rings of other chips are numbered in a wait. -/
def farRing (chip : Nat) : Nat := 4096 + chip

/-! ## Reservations -/

/-- A reservation of n slots that cannot be granted now waits (R290). -/
def State.waitResv (s : State) (i n : Nat) (who : RWho) (task : Option Nat) : State :=
  let r := s.ring i
  (s.setRing i { r with waiters := r.waiters ++ [⟨who, task, n, s.now⟩] }).addF .ringStat i 16 16 1

/-- A reservation can be granted now: none waits before it, and credits suffice (R290). -/
def State.canGrant (s : State) (i n : Nat) : Bool := (s.ring i).waiters.isEmpty && decide (n ≤ s.ringCredits i)

/-- Ask another chip for n slots (R662). -/
def X.askRemote (x : X) (s : State) (chip : Nat) (ref : Word) (n : Nat) : State :=
  let w0 := header0 tRresv 1 chip s.chipId x.core x.t.stall 3 0 0 0 0
  let w1 : Word := ref ||| BitVec.ofNat 64 ((n - 1) * 2 ^ 21)
  let s := s.notedRemote x.t.id x.core chip
  (x.wait s (.resv (farRing chip) ((s.ctx x.core x.ctx).since.getD s.now))).sendTagged x.core chip (some x.t.id)
    (.resv (.ctx x.core x.ctx) x.a.1 n) w0 w1 []

/-- RING.RESV n (R289, R290). -/
def execRingResv (i : Issue) (s : State) : Res :=
  .next (issueOf i .ringResv (fun x t =>
    let n := x.imm4 + 1
    x.ringAt t false true
      (fun r =>
        if t.canGrant r n then
          let first := BitVec.ofNat 64 (t.ringResv r)
          let t := t.grantCredits r n (some x.t.id) 0
          if x.ownRing r then x.ret t first false else x.farRet t first false
        else (x.wait t (.resv r ((t.ctx x.core x.ctx).since.getD t.now))).waitResv r n (.ctx x.core x.ctx) (some x.t.id))
      fun chip ref => if (t.freeTag x.core).isNone then s else x.askRemote t chip ref n) s)

/-! ## Fills -/

/-- Fill word IMM4 of index k of a ring with a value (R289, R293, R294). `done` advances the context. -/
def X.fillRing (x : X) (s : State) (r k : Nat) (v : Word) (poison : Bool) (done : State → State) : State :=
  if !s.holdsCredit r k (some x.t.id) 0 then x.fault s .noCredit
  else
    let o := s.ringAddr r k
    let line := oneWord x.imm4 v poison
    match ringCore r with
    | none =>
      done (s.pdSend (x.pdReq s o (.ringFill r k line.1 line.2.1 line.2.2 none)))
    | some c =>
      if c ≠ x.core then
        done (s.inject c ⟨r, .fill k line.1 line.2.1 line.2.2 none (some (x.t.id, x.core, x.ctx)), none⟩)
      else
        let key := cmBase c + o
        let a := o + 8 * x.imm4
        if s.tagAt key then x.wait s (.tag key ((s.ctx x.core x.ctx).since.getD s.now))
        else match x.touch s a true with
          | (.off, s) => x.fault s .cmBankOff a (bankAt a)
          | (.lost, s) => done s
          | (.ok, s) => done (((s.narrowWrite (cmBase c + a) 8 v poison).putTag key true).spendCredit r k)

/-- Fill word IMM4 of index k of a ring of another chip: a narrow RFILL (R652, R663). -/
def X.fillRemote (x : X) (s : State) (chip : Nat) (ref : Word) (k : Nat) (v : Word) (poison : Bool)
    (done : State → State) : State :=
  let w0 := header0 tRfill 0 chip s.chipId x.core x.t.stall 3 0 1 0 0
  let w1 : Word := ref ||| BitVec.ofNat 64 (k * 2 ^ 21 + x.imm4 * 2 ^ 53 + 2 ^ 57)
  done (s.sendTagged x.core chip (some x.t.id) (.fill none) w0 w1 [(v.setWidth 128, poison)])

/-- RING.FILL k (R289, R294). -/
def execRingFill (i : Issue) (s : State) : Res :=
  .next (issueOf i .ringFill (fun x t =>
    let k := x.b.1.toNat
    x.ringAt t x.b.2 true
      (fun r => x.fillRing t r k x.rd.1 x.rd.2 fun t => x.next t id)
      fun chip ref =>
        if (t.freeTag x.core).isNone then s
        else if 2 ^ 32 ≤ k then x.fault t .noCredit
        else x.fillRemote t chip ref k x.rd.1 x.rd.2 fun t => x.next t id) s)

/-- RING.PUSH: reserve one index, then fill it (R289). A push whose index has been granted fills it when it is
issued again. -/
def execRingPush (i : Issue) (s : State) : Res :=
  .next (issueOf i .ringPush (fun x t =>
    let after := fun (k : Nat) (far : Bool) (t : State) =>
      let t := t.updCtx x.core x.ctx fun c => { c with push := none }
      if far then x.farRet t (BitVec.ofNat 64 k) false else x.ret t (BitVec.ofNat 64 k) false
    x.ringAt t false true
      (fun r =>
        match x.k.push with
        | some (_, k) => x.fillRing t r k x.b.1 x.b.2 (after k !(x.ownRing r))
        | none =>
          if t.canGrant r 1 then
            let k := t.ringResv r
            let t := t.grantCredits r 1 (some x.t.id) 0
            let t := t.updCtx x.core x.ctx fun c => { c with push := some (r, k) }
            x.fillRing t r k x.b.1 x.b.2 (after k !(x.ownRing r))
          else (x.wait t (.resv r ((t.ctx x.core x.ctx).since.getD t.now))).waitResv r 1 (.ctx x.core x.ctx) (some x.t.id))
      fun chip ref =>
        if (t.freeTag x.core).isNone then s
        else match x.k.push with
          | some (_, k) => x.fillRemote t chip ref k x.b.1 x.b.2 (after k true)
          | none => x.askRemote t chip ref 1) s)

/-! ## Pops, peeks and state -/

/-- A pop of a context stands first at its ring or is alone there. -/
def State.firstPop (s : State) (i core ctx : Nat) : Bool :=
  match (s.ring i).pops with
  | [] => true
  | p :: _ => p.core == core && p.ctx == ctx

/-- A pop is over: it leaves its ring's order. -/
def State.dropPop (s : State) (i core ctx : Nat) : State :=
  let r := s.ring i
  s.setRing i { r with pops := r.pops.filter fun p => !(p.core == core && p.ctx == ctx) }

/-- A pop takes its place in its ring's order (R291). -/
def State.addPop (s : State) (i : Nat) (p : RPop) : State :=
  let r := s.ring i
  if r.pops.any fun q => q.core == p.core && q.ctx == p.ctx then s else s.setRing i { r with pops := r.pops ++ [p] }

/-- RING.POP: consume of the slot at HEAD (R289, R291). -/
def execRingPop (i : Issue) (s : State) : Res :=
  .next (issueOf i .ringPop (fun x t =>
    x.ringAt t false false
      (fun r =>
        let me : RPop := ⟨x.core, x.ctx, x.t.id, x.imm4, false⟩
        let wait := fun (t : State) => x.wait t (.pop r ((t.ctx x.core x.ctx).since.getD t.now))
        match ringCore r with
        | none => wait ((t.addPop r me).startPop r)
        | some c =>
          if c ≠ x.core then wait ((t.addPop r me).inject c ⟨r, .pop, none⟩)
          else
            let key := t.ringKey r (t.ringHead r)
            if t.firstPop r x.core x.ctx && t.tagAt key then
              x.localLoad (t.dropPop r x.core x.ctx) (t.ringAddr r (t.ringHead r) + 8 * x.imm4) 8 false
                fun u => (u.putTag key false).advanceHead r
            else wait (t.addPop r me))
      fun _ _ => t) s)

/-- RING.PEEK j (R289). -/
def execRingPeek (i : Issue) (s : State) : Res :=
  .next (issueOf i .ringPeek (fun x t =>
    let j := x.b.1.toNat % 16
    x.ringAt t x.b.2 false
      (fun r =>
        let k := (t.ringHead r + j) % 2 ^ 32
        let o := t.ringAddr r k
        match ringCore r with
        | none =>
          x.wait (t.pdSend (x.pdReq t (o + 8 * x.imm4) (.tagged 8 false true))) (.result (some (iRd x.w)))
        | some c =>
          if c ≠ x.core then
            x.wait (t.inject c ⟨r, .peek x.core x.ctx x.t.id k x.imm4, none⟩) (.result (some (iRd x.w)))
          else if t.tagAt (cmBase c + o) then x.localLoad t (o + 8 * x.imm4) 8 false id
          else x.wait t (.tag (cmBase c + o) ((t.ctx x.core x.ctx).since.getD t.now)))
      fun _ _ => t) s)

/-- RING.STATE: RESV × 2^32 + HEAD (R289, R378). -/
def execRingState (i : Issue) (s : State) : Res :=
  .next (issueOf i .ringState (fun x t =>
    x.ringAt t false false
      (fun r =>
        let v := BitVec.ofNat 64 (t.ringResv r * 2 ^ 32 + t.ringHead r)
        if x.ownRing r then x.ret t v false else x.farRet t v false)
      fun _ _ => t) s)

/-! ## Grants (R290) -/

/-- The indices from `first` go to the one who waited for them. -/
def State.granted (s : State) (w : RWait) (i first : Nat) : State :=
  match w.who with
  | .ctx core ctx =>
    s.updCtx core ctx fun k =>
      if decodeOp (s.fetch core k.pc) = some .ringPush then { k with push := some (i, first), wait := .ready }
      else { k with ret := some (BitVec.ofNat 64 first, false) }
  | .xfer core q id =>
    s.updCore core fun k => { k with streams := k.streams.map fun e =>
      if e.1 = q then (e.1, e.2.map fun t => { t with xfers := t.xfers.map fun x =>
        if x.id = id then { x with idx := some first } else x }) else e }
  | .remote _ h => s.sendPacket (answer0 h tRgnt 0) (BitVec.ofNat 64 (first * 2 ^ 32)) []

/-- Holder key of a remote source (R663). -/
def remoteKey (h : Word) : Nat := hSrc h * 2 ^ 8 + hUnit h

/-- Grant the oldest waiting reservation of a ring if credits allow. -/
def State.grantNext (s : State) (i : Nat) : State :=
  let r := s.ring i
  match r.waiters with
  | [] => s
  | w :: rest =>
    if s.ringCredits i < w.n || !s.ringOn i then s
    else
      let first := s.ringResv i
      let src := match w.who with
        | .remote _ h => remoteKey h
        | _ => 0
      ((s.setRing i { r with waiters := rest }).grantCredits i w.n w.task src).granted w i first

/-- RING_RESV_GRANT: a ring grants its oldest waiting reservation once credits allow (R290). -/
def execRingResvGrant (ring : Nat) (s : State) : Res := .next (s.grantNext ring)

/-! ## Limits (R284, R285, R292) -/

/-- A waiting reservation of a context or transfer, and its ring. -/
def State.findResv (s : State) (who : RWho) : Option (Nat × RWait) :=
  s.cx.rings.findSome? fun e => (e.2.waiters.find? fun w => w.who == who).map fun w => (e.1, w)

/-- Take a waiting reservation away. -/
def State.dropResv (s : State) (i : Nat) (who : RWho) : State :=
  let r := s.ring i
  s.setRing i { r with waiters := r.waiters.filter fun w => w.who != who }

/-- A waiting RRESV of this chip's: its record. -/
def State.findRresv (s : State) (who : RWho) : Option Tagged :=
  s.cx.rein.tagged.find? fun e => match e.what with
    | .resv w _ _ => w == who
    | _ => false

/-- The stream transfers of a core that wait for a reservation, as (queue, id, since, ring reference). -/
def ShuzoCore.askingXfers (k : ShuzoCore) : List (Nat × Nat × Nat × Word × Stream) :=
  k.streams.flatMap fun e => e.2.flatMap fun t => t.xfers.filterMap fun x =>
    match x.asked, x.idx with
    | some a, none => some (e.1, x.id, a, x.ring, t)
    | _, _ => none

/-- The fault of a stream's transfer: the core, the queue, the PC of its STREAM.GO, the entry index and the address
that failed (R509). -/
def Stream.fault (t : Stream) (s : State) (core : Nat) (code : FaultCode) (addr detail : Nat) : State :=
  match (s.core core).task with
  | some id => s.taskFault id code 3 core (some t.ctx) t.pc t.word addr detail
  | none => s

/-- CREDIT_TIMEOUT: a reservation that has waited past TAG_WAIT_LIMIT; unit 0: a context's; unit 3: the first waiting
one of a transfer of the core's stream queue `ctx` (R292). -/
def execCreditTimeout (core unit ctx : Nat) (s : State) : Res :=
  .next (match s.taskOn core with
    | none => s
    | some t =>
      if !t.phase.live then s else
      let lim := s.tagLimit t.stall
      if unit = 0 then
        let k := s.ctx core ctx
        match k.wait, k.ret with
        | .resv i since, none =>
          let s := (s.notBefore (since + lim)).dropResv i (.ctx core ctx)
          s.taskFault t.id .creditTimeout 0 core (some ctx) k.pc (s.fetch core k.pc) 0
            (k.rg (iRs1 (s.fetch core k.pc))).1.toNat
        | _, _ => s
      else match (s.core core).askingXfers.find? fun e => e.1 == ctx with
        | some (q, id, since, ref, st) =>
          let s := s.notBefore (since + lim)
          let s := match s.findResv (.xfer core q id) with
            | some (i, w) => s.dropResv i w.who
            | none => s
          st.fault s core .creditTimeout 0 ref.toNat
        | none => s)

/-- A blocked Paddock request of a context, and since when it has been blocked (R284). -/
def State.blockedPd (s : State) (core ctx : Nat) : Option (PdReq × Nat) :=
  let mine := fun (r : PdReq) => if r.core == core && r.ctx == ctx then r.since.map fun t => (r, t) else none
  (s.cx.pd.parked.findSome? fun e => e.2.findSome? fun p => mine p.1).orElse fun _ =>
    (s.cx.pd.returned.findSome? fun e => e.2.findSome? fun p => mine p.1).orElse fun _ =>
      (s.cx.pd.queues.findSome? fun e => e.2.findSome? mine).orElse fun _ =>
        s.cx.pd.held.findSome? fun e => e.2.findSome? mine

/-- A Paddock request is taken out of every queue and table (R285). -/
def State.removePd (s : State) (p : PdReq → Bool) : State :=
  let pd := s.cx.pd
  let keep := fun (l : List PdReq) => l.filter fun r => !p r
  let tidy := fun {α : Type} (l : List (Nat × List α)) => l.filter fun e => !e.2.isEmpty
  { s with cx := { s.cx with pd :=
    { queues := tidy (pd.queues.map fun e => (e.1, keep e.2))
      held := tidy (pd.held.map fun e => (e.1, keep e.2))
      parked := tidy (pd.parked.map fun e => (e.1, e.2.filter fun r => !p r.1))
      returned := tidy (pd.returned.map fun e => (e.1, e.2.filter fun r => !p r.1)) } } }

/-- An inbound request of a context that waits at another core's CM, blocked (R284). -/
def State.blockedIn (s : State) (core ctx : Nat) : Option (Nat × Nat) :=
  (List.range coreCount).findSome? fun c => (s.core c).inbound.findSome? fun r => match r.kind with
    | .peek co cx _ k _ => if co == core && cx == ctx then r.since.map fun t => (t, s.ringKey r.ring k) else none
    | _ => none

/-- Address of a memory key as a device address seen from a core. -/
def devAddr (core key : Nat) : Nat :=
  if cmBase core ≤ key && key < cmBase core + 0x1000000 then key - cmBase core
  else if cmBase 0 ≤ key && key < cmBase 32 then coreSpace + (key - cmBase 0)
  else if pdBase ≤ key && key < pdBase + 0x2000000 then paddockSpace + (key - pdBase)
  else key

/-- TAG_TIMEOUT of a scalar context (R284, R285). -/
def State.ctxTagTimeout (s : State) (t : Task) (core ctx : Nat) : State :=
  let k := s.ctx core ctx
  let w := s.fetch core k.pc
  let fire := fun (s : State) (key : Nat) =>
    s.taskFault t.id .tagTimeout 0 core (some ctx) k.pc w (devAddr core key) (bit (s.tagAt key))
  let lim := s.tagLimit t.stall
  if k.ret.isSome then s else
  match k.wait with
  | .tag key since => fire (s.notBefore (since + lim)) key
  | .pop i since => fire ((s.notBefore (since + lim)).dropPop i core ctx) (s.ringKey i (s.ringHead i))
  | .result _ =>
    match s.blockedPd core ctx, s.blockedIn core ctx with
    | some (r, since), _ =>
      fire ((s.notBefore (since + lim)).removePd fun q => q.core == core && q.ctx == ctx && q.off == r.off
        && q.since == r.since) (pdBase + r.off)
    | none, some (since, key) => fire (s.notBefore (since + lim)) key
    | none, none => s
  | _ => s

end Sys2Proof.Machine
end

