-- ==== Sys2Proof/Machine/Engine.lean ====
section
/-! DEFINITION. Engine instructions: capture at issue and the engine queues (R391 to R396), the instruction at the head
of a queue, its faults (R424), and wide accesses to core memory (R238, R248 to R257, R275). -/

namespace Sys2Proof.Machine

open Sys2Proof

/-! ## Issue (R391, R392) -/

/-- The g operands that an instruction uses as an address or count (R391): GA, GB, GC. -/
def addressOperands (o : Op) (w : Word) : Bool × Bool × Bool :=
  match o with
  | .mxLda | .mxLdb | .mxLdc | .mxDrain | .vst | .vstF | .kvWalk | .kvAppend | .vpscore => (true, false, false)
  | .vaaddW | .vaaddWR | .vaaddD | .vaaddDR | .vfxadd | .vfxaddR => (true, false, false)
  | .vld | .vldC | .vldP => (true, isMx (ib w 50 4), false)
  | .streamGo | .mset => (true, true, false)
  | .mcopy => (true, true, true)
  | _ => (false, false, false)

/-- Places of an engine queue (R392). -/
def queuePlaces : Nat := 16

/-- ENGINE_ISSUE: an engine instruction captures its operands and enters its queue; with the queue full the context is
not eligible (R343, R391, R392). -/
def execEngineIssue (i : Issue) (s : State) : Res :=
  .next (match decodeOp i.word with
    | none => s
    | some o =>
      if !isWide i.word || queueOf i.word = 3 then s else
      issueOf i o (fun x t =>
        let e := queueOf x.w
        let k := t.core x.core
        if queuePlaces ≤ depth (k.queue e) then s
        else
          let a := x.k.rg (iGA x.w)
          let b := x.k.rg (iGB x.w)
          let c := x.k.rg (iGC x.w)
          let u := addressOperands o x.w
          if (u.1 && a.2) || (u.2.1 && b.2) || (u.2.2 && c.2) then x.fault t .poisonConsumed
          else
            let op : EOp := { ctx := x.ctx, pc := x.pc, word := x.w, ga := a.1, gb := b.1, gc := c.1, gap := a.2
                              gbp := b.2, gcp := c.2, tick := t.cx.issued, c4 := x.k.c4, c5 := x.k.c5, c6 := x.k.c6, done := 0
                              since := none, began := false }
            let t := t.setCore x.core (k.setQueue e (k.queue e ++ [op]))
            x.next { t with cx := { t.cx with issued := t.cx.issued + 1 } } id) s)

/-! ## The instruction at the head of a queue -/

/-- An engine instruction as its engine performs it. -/
structure E where
  core : Nat
  eng  : Nat
  o    : EOp
  t    : Task
  meet : Bool

/-- Its class C fault (R424). -/
def E.fault (e : E) (s : State) (code : FaultCode) (addr : Nat := 0) (detail : Nat := 0) : State :=
  s.taskFault e.t.id code (engineUnit e.eng) e.core (some e.o.ctx) e.o.pc e.o.word addr detail

/-- It leaves its queue. -/
def E.over (e : E) (s : State) : State := s.popQueue e.core e.eng

/-- It is held at line `done` by a tag, since its first try there (R280, R284). -/
def E.block (e : E) (s : State) (done : Nat) : State :=
  s.updCore e.core fun k => match k.queue e.eng with
    | o :: q =>
      let t := if o.done = done then o.since.getD s.now else s.now
      k.setQueue e.eng ({ o with done := done, since := some t } :: q)
    | [] => k

/-- The head of a queue, if it is `op` and has not been started; an instruction held by a tag is tried again by
TAG_RETRY alone. -/
def engineOp (core eng : Nat) (op : Op) (meet : Bool) (run : E → State → State) (s : State) : State :=
  match s.taskOn core, (s.core core).queue eng with
  | some t, o :: _ =>
    if decodeOp o.word = some op && t.phase.live && !o.began && o.since.isNone then
      run ⟨core, eng, o, t, meet⟩ (if eng = 1 then s.perf core 0x06 1 else s)
    else s
  | _, _ => s

/-- Its context. -/
def E.ctx (e : E) (s : State) : Ctx := s.ctx e.core e.o.ctx

/-- Rounding of one element under the captured c4 to c6 (R435, R436, R440). -/
def E.rnd (e : E) (idx : Nat) : Rnd :=
  if bitAt e.o.c6 0 then .sr (srValue e.o.c4 e.o.c5 (e.t.rank e.core) idx) else .rne

/-- c6.OVF. -/
def E.ovf (e : E) : Bool := bitAt e.o.c6 1

/-! ## Wide accesses (R238) -/

/-- Where a wide access may lie: local CM, with the operand buffers for VLD and VST (R353, R423). -/
inductive Reach where
  | cm | cmOb
deriving DecidableEq, Repr

/-- A line address is checked: alignment (R238), bits [63:48] and region (R423), tags (R277). -/
def lineCheck (a : Word) (r : Reach) (tag : Bool) : Option FaultCode :=
  if a.toNat % 256 ≠ 0 then some .misalignedAccess
  else if 2 ^ 48 ≤ a.toNat then some .windowViolation
  else
    let g := regionOf a.toNat
    if !(g.isCm || (r == .cmOb && g.isOb)) then some .windowViolation
    else if tag && g != .a then some .tagNoSlot
    else none

/-- What becomes of a line access. -/
inductive LineEnd where
  /-- performed; a read's data and poison -/
  | ok (d : Line256) (p : Word32) (s : State)
  /-- held by its tag -/
  | blocked (s : State)
  | fault (s : State)

/-- A line of all ones with poison: a read that lost a conflict (R248). -/
def lostLine : Line256 × Word32 := (BitVec.allOnes 2048, BitVec.allOnes 32)

/-- A line read by an engine port: untagged, peek or consume (R248, R254, R275, R279). -/
def E.readLine (e : E) (s : State) (port : Nat) (a : Nat) (meet tag consume : Bool) : LineEnd :=
  let key := cmBase e.core + a
  if tag && !s.tagAt key then .blocked s
  else match s.cmTouch e.core port a false meet e.o.ctx e.o.pc e.o.word with
    | (.off, s) => .fault (e.fault s .cmBankOff a (bankAt a))
    | (.lost, s) => .ok lostLine.1 lostLine.2 s
    | (.ok, s) =>
      let v := s.rdLine key
      .ok v.1 v.2 (if consume then s.putTag key false else s)

/-- A line written by an engine port: untagged or a fill (R248, R254, R275). -/
def E.writeLine (e : E) (s : State) (port : Nat) (a : Nat) (d : Line256) (p : Word32) (meet fill : Bool) : LineEnd :=
  let key := cmBase e.core + a
  if fill && s.tagAt key then .blocked s
  else match s.cmTouch e.core port a true meet e.o.ctx e.o.pc e.o.word with
    | (.off, s) => .fault (e.fault s .cmBankOff a (bankAt a))
    | (.lost, s) => .ok 0 0 s
    | (.ok, s) =>
      let t := s.wrLine key d p
      .ok 0 0 (if fill then t.putTag key true else t)

/-! ## Elements in memory -/

/-- Bits of element idx of format code c in an array at a key (R398, R427). -/
def State.elemBits (s : State) (key c idx : Nat) : Nat :=
  let pos := idx * fmtBits c
  let n := (pos % 8 + fmtBits c + 7) / 8
  s.rdNat (key + pos / 8) n >>> (pos % 8) % 2 ^ fmtBits c

/-- Poison of that element. -/
def State.elemPoison (s : State) (key c idx : Nat) : Bool :=
  let pos := idx * fmtBits c
  s.poisonIn (key + pos / 8) ((pos % 8 + fmtBits c + 7) / 8)

/-- The same element taken from the bits of a line. -/
def lineElem (d : Line256) (c bitpos : Nat) : Nat := d.toNat >>> bitpos % 2 ^ fmtBits c

/-- Poison of the 64-bit words that hold bits [pos, pos + n) of a line. -/
def linePoison (p : Word32) (pos n : Nat) : Bool :=
  (List.range ((pos + n - 1) / 64 - pos / 64 + 1)).any fun i => p.toNat.testBit (pos / 64 + i)

end Sys2Proof.Machine
end

