-- ==== Sys2Proof/Machine/Matrix.lean ====
section
/-! DEFINITION. The matrix engine (R399 to R408). -/

namespace Sys2Proof.Machine

open Sys2Proof

/-- Memory key of a buffer line of OB-A, OB-B or ACC (R399). -/
def obKey (core n line : Nat) : Nat := cmBase core + obBase n + 256 * line

/-- Lines of a buffer. -/
def obLines (n : Nat) : Nat := if n = 2 then 512 else 256

/-! ## Loads (R401) -/

/-- Lines r to LINES − 1 of an MX.LD into buffer n, from line `done` on. -/
def E.mxLoad (e : E) (n doff : Nat) : (fuel r : Nat) → State → State
  | 0, _, s => e.over s
  | f + 1, r, s =>
    let a : Word := e.o.ga + BitVec.ofNat 64 (256 * r)
    let tc := bitAt e.o.word 15
    match lineCheck a .cm tc with
    | some c => e.fault s c a.toNat
    | none =>
      match e.readLine s portMxe a.toNat (e.meet && r == e.o.done) tc tc with
      | .ok d p s => e.mxLoad n doff f (r + 1) (s.wrLine (obKey e.core n (doff + r)) d p)
      | .blocked s => e.block s r
      | .fault s => s

/-- MX.LDA, MX.LDB and MX.LDC by buffer. -/
def E.runMxLd (e : E) (n : Nat) (s : State) : State :=
  let lines := fld e.o.word 32 10
  let doff := fld e.o.word 50 9
  if lines = 0 || obLines n < doff + lines then e.fault s .undefOperand
  else e.mxLoad n doff (lines - e.o.done) e.o.done s

/-- MX.LDA (R401). -/
def execMxLda (core : Nat) (meet : Bool) (s : State) : Res := .next (engineOp core 0 .mxLda meet (fun e s => e.runMxLd 0 s) s)
/-- MX.LDB (R401). -/
def execMxLdb (core : Nat) (meet : Bool) (s : State) : Res := .next (engineOp core 0 .mxLdb meet (fun e s => e.runMxLd 1 s) s)
/-- MX.LDC (R401). -/
def execMxLdc (core : Nat) (meet : Bool) (s : State) : Res := .next (engineOp core 0 .mxLdc meet (fun e s => e.runMxLd 2 s) s)

/-! ## Multiply-accumulate (R402 to R404) -/

/-- A format pair's family: k per chunk, INT32 accumulators, MX scales (R402). -/
structure Family where
  r   : Nat
  int : Bool
  mx  : Bool
deriving DecidableEq, Repr

/-- The family of a pair of format codes. -/
def familyOf (a b : Nat) : Option Family :=
  if a = 0 ∧ b = 0 then some ⟨2, true, false⟩
  else if a ≤ 1 ∧ b ≤ 1 then some ⟨1, true, false⟩
  else if (a = 3 ∨ a = 4) ∧ (b = 3 ∨ b = 4) then some ⟨1, false, false⟩
  else if a = 0xC ∧ b = 0xC then some ⟨2, false, true⟩
  else if isMx a ∧ isMx b then some ⟨1, false, true⟩
  else if a = b ∧ (a = 5 ∨ a = 6 ∨ a = 7) then some ⟨1, false, false⟩
  else none

/-- Where the operands of an MX.MMA lie. -/
structure Panels where
  fa : Nat
  fb : Nat
  a  : Nat
  b  : Nat
  sa : Nat
  sb : Nat
  k  : Nat
  f  : Family

/-- Product of A (i, k) and B (k, j), exactly, with their scales (R403, R404). -/
def State.product (s : State) (p : Panels) (i j k : Nat) : Num :=
  let x := decodeFmt p.fa (s.elemBits p.a p.fa (32 * k + i))
  let y := decodeFmt p.fb (s.elemBits p.b p.fb (64 * k + j))
  if p.f.mx then
    (scaled (s.rdByte (p.sa + 32 * (k / 32) + i)).toNat x).mul (scaled (s.rdByte (p.sb + 64 * (k / 32) + j)).toNat y)
  else x.mul y

/-- The same product of integers. -/
def State.productInt (s : State) (p : Panels) (i j k : Nat) : Int :=
  decodeInt (fmtBits p.fa) (s.elemBits p.a p.fa (32 * k + i)) * decodeInt (fmtBits p.fb) (s.elemBits p.b p.fb (64 * k + j))

/-- An accumulator after every chunk in ascending k: one rounding a chunk (R403). -/
def State.accumulate (s : State) (p : Panels) (i j : Nat) (acc : Nat) : Nat :=
  if p.f.int then
    intBits 32 ((List.range p.k).foldl (fun a k => a + s.productInt p i j k) (acc : Int))
  else
    (List.range (p.k / p.f.r)).foldl (fun a c =>
      toF32 ((ofF32 a).add (sumNum ((List.range p.f.r).map fun q => s.product p i j (c * p.f.r + q))))) acc

/-- A poisoned element contributes to accumulator (i, j) (R330). -/
def State.productsPoison (s : State) (p : Panels) (i j : Nat) : Bool :=
  (List.range p.k).any fun k =>
    s.elemPoison p.a p.fa (32 * k + i) || s.elemPoison p.b p.fb (64 * k + j)
      || (p.f.mx && (s.poisonAt (p.sa + 32 * (k / 32) + i) || s.poisonAt (p.sb + 64 * (k / 32) + j)))

/-- Key of accumulator (i, j) of a tile (R399). -/
def accKey (core tile i j : Nat) : Nat := cmBase core + obBase 2 + 8192 * tile + 256 * i + 4 * j

/-- Row i of a tile after an MX.MMA. -/
def State.mmaRow (s : State) (p : Panels) (core tile : Nat) (accz : Bool) (i : Nat) : Line256 × Word32 :=
  (List.range 64).foldl (fun r j =>
    let key := accKey core tile i j
    let v := s.accumulate p i j (if accz then 0 else s.rdNat key 4)
    let bad := (!accz && s.poisonAt key) || s.productsPoison p i j
    (r.1 ||| ((BitVec.ofNat 2048 v) <<< (32 * j)), if bad then r.2 ||| (1 <<< (j / 2)) else r.2)) (0, 0)

/-- MX.MMA (R402 to R404). -/
def E.runMma (e : E) (s : State) : State :=
  let w := e.o.word
  let fa := fld w 12 4
  let fb := fld w 8 4
  let tile := fld w 4 4
  let accz := bitAt w 3
  let aoff := fld w 56 8
  let boff := fld w 48 8
  let soff := fld w 40 8
  let k := 8 * (fld w 32 8 + 1)
  match familyOf fa fb with
  | none => e.fault s .undefOperand
  | some f =>
    if (f.mx && k % 32 != 0) || 65536 * 8 < 2048 * aoff + 32 * k * fmtBits fa
        || 65536 * 8 < 2048 * boff + 64 * k * fmtBits fb
        || (f.mx && decide (65536 < 256 * soff + 64 * (k / 32))) then e.fault s .undefOperand
    else
      let p : Panels := ⟨fa, fb, obKey e.core 0 aoff, obKey e.core 1 boff, obKey e.core 0 soff, obKey e.core 1 soff, k, f⟩
      let t := (List.range 32).foldl (fun t i =>
        let r := s.mmaRow p e.core tile accz i
        t.wrLine (accKey e.core tile i 0) r.1 r.2) s
      e.over (t.updCore e.core fun c => { c with intTiles := KSet.set f.int tile c.intTiles })

def execMxMma (core : Nat) (s : State) : Res := .next (engineOp core 0 .mxMma false (fun e s => e.runMma s) s)

/-! ## Drain and zero (R407, R408) -/

/-- The value of an accumulator of a tile, by what the tile holds. -/
def accValue (int : Bool) (v : Nat) : Num := if int then ofInt (decodeInt 32 v) else ofF32 v

/-- Line n of a drain: its rows converted to format FMTO, with their poison (R330, R407, R441). -/
def E.drainLine (e : E) (s : State) (tile row0 fmt n : Nat) (int : Bool) : Line256 × Word32 :=
  let bits := fmtBits fmt
  let per := 2048 / bits
  let base := e.o.ga.toNat + 256 * n
  (List.range per).foldl (fun r q =>
    let el := n * per + q
    let key := accKey e.core tile (row0 + el / 64) (el % 64)
    let idx := 2 * (base + q * bits / 8) + (if bits = 4 then q % 2 else 0)
    let v := encodeFmt fmt (e.rnd idx) e.ovf (accValue int (s.rdNat key 4))
    (r.1 ||| (BitVec.ofNat 2048 v <<< (bits * q)), if s.poisonAt key then r.2 ||| (1 <<< (bits * q / 64)) else r.2)) (0, 0)

/-- Row i of a tile set to zero. -/
def State.zeroRow (s : State) (core tile i : Nat) : State := s.wrLine (accKey core tile i 0) 0 0

/-- Lines of a drain from line n on. -/
def E.drainFrom (e : E) (tile row0 fmt : Nat) (za tf int : Bool) : (fuel n : Nat) → State → State
  | 0, _, s => e.over s
  | f + 1, n, s =>
    let a : Word := e.o.ga + BitVec.ofNat 64 (256 * n)
    match lineCheck a .cm tf with
    | some c => e.fault s c a.toNat
    | none =>
      let l := e.drainLine s tile row0 fmt n int
      match e.writeLine s portMxe a.toNat l.1 l.2 (e.meet && n == e.o.done) tf with
      | .ok _ _ s =>
        let rows := 32 / fmtBits fmt
        let s := if za then (List.range rows).foldl (fun s q => s.zeroRow e.core tile (row0 + n * rows + q)) s else s
        e.drainFrom tile row0 fmt za tf int f (n + 1) s
      | .blocked s => e.block s n
      | .fault s => s

/-- MX.DRAIN (R407). -/
def E.runDrain (e : E) (s : State) : State :=
  let w := e.o.word
  let fmt := fld w 12 4
  let tile := fld w 4 4
  let row0 := fld w 54 5
  let rows := fld w 48 6
  if 7 < fmt || rows = 0 || 32 < row0 + rows || rows * 64 * fmtBits fmt % 2048 ≠ 0 then e.fault s .undefOperand
  else
    e.drainFrom tile row0 fmt (bitAt w 3) (bitAt w 2) (KSet.has (s.core e.core).intTiles tile)
      (rows * 64 * fmtBits fmt / 2048 - e.o.done) e.o.done s

def execMxDrain (core : Nat) (meet : Bool) (s : State) : Res := .next (engineOp core 0 .mxDrain meet (fun e s => e.runDrain s) s)

/-- MX.ZERO (R408). -/
def E.runZero (e : E) (s : State) : State :=
  let tile := fld e.o.word 4 4
  let n := fld e.o.word 32 4 + 1
  if 16 < tile + n then e.fault s .undefOperand
  else e.over ((List.range (32 * n)).foldl (fun s i => s.zeroRow e.core (tile + i / 32) (i % 32)) s)

def execMxZero (core : Nat) (s : State) : Res := .next (engineOp core 0 .mxZero false (fun e s => e.runZero s) s)

end Sys2Proof.Machine
end

