-- ==== Sys2Proof/Machine/Vector.lean ====
section
/-! DEFINITION. The vector engine (R409 to R417, R430). -/

namespace Sys2Proof.Machine

open Sys2Proof

/-! ## Lanes -/

/-- Lane n of a v register, 32 bits (R409). -/
def lane (v : VReg) (n : Nat) : Nat := v.toNat >>> (32 * n) % 2 ^ 32

/-- A v register from its 64 lanes. -/
def ofLanes (f : Nat → Nat) : VReg :=
  (List.range 64).foldl (fun v n => v ||| (BitVec.ofNat 2048 (f n % 2 ^ 32) <<< (32 * n))) 0

/-- A source register with its poison. -/
def E.va (e : E) (s : State) : VReg × Word32 := (e.ctx s).rv (iVA e.o.word)
def E.vb (e : E) (s : State) : VReg × Word32 := (e.ctx s).rv (iVB e.o.word)
def E.vc (e : E) (s : State) : VReg × Word32 := (e.ctx s).rv (iVC e.o.word)

/-- Write VD and leave the queue. -/
def E.put (e : E) (s : State) (v : VReg) (p : Word32) : State :=
  e.over (s.updCtx e.core e.o.ctx fun k => k.wv (iVD e.o.word) v p)

/-- A lane operation on VA and VB: f of the lane type and the lanes; a lane of VD is poisoned as its inputs are
(R409, R410). -/
def vBin (core : Nat) (o : Op) (f : Bool → Nat → Nat → Nat) (s : State) : State :=
  engineOp core 1 o false (fun e s =>
    let a := e.va s
    let b := e.vb s
    e.put s (ofLanes fun n => f (iT e.o.word) (lane a.1 n) (lane b.1 n)) (a.2 ||| b.2)) s

/-- A lane operation on VA. -/
def vUn (core : Nat) (o : Op) (f : Bool → Nat → Nat) (s : State) : State :=
  engineOp core 1 o false (fun e s =>
    let a := e.va s
    e.put s (ofLanes fun n => f (iT e.o.word) (lane a.1 n)) a.2) s

/-- A lane operation on VA, VB and VC. -/
def vTri (core : Nat) (o : Op) (f : Bool → Nat → Nat → Nat → Nat) (s : State) : State :=
  engineOp core 1 o false (fun e s =>
    let a := e.va s
    let b := e.vb s
    let c := e.vc s
    e.put s (ofLanes fun n => f (iT e.o.word) (lane a.1 n) (lane b.1 n) (lane c.1 n)) (a.2 ||| b.2 ||| c.2)) s

/-- INT32 lanes as integers, and back modulo 2^32 (R411). -/
def i32 (v : Nat) : Int := decodeInt 32 v
def w32 (i : Int) : Nat := intBits 32 i

/-- A result that is all ones if true. -/
def maskOf (b : Bool) : Nat := if b then 0xFFFFFFFF else 0

/-! ## Major 0x30 (R410, R411) -/

def addLane (t : Bool) (a b : Nat) : Nat := if t then f32Add a b else w32 (a + b)
def minLane (t : Bool) (a b : Nat) : Nat := if t then f32Min a b else if i32 a ≤ i32 b then a else b
def maxLane (t : Bool) (a b : Nat) : Nat := if t then f32Max a b else if i32 a ≤ i32 b then b else a

/-- VADD. -/
def execVadd (core : Nat) (s : State) : Res := .next (vBin core .vadd addLane s)
/-- VSUB. -/
def execVsub (core : Nat) (s : State) : Res :=
  .next (vBin core .vsub (fun t a b => if t then f32Sub a b else w32 (a - b)) s)
/-- VMUL. -/
def execVmul (core : Nat) (s : State) : Res :=
  .next (vBin core .vmul (fun t a b => if t then f32Mul a b else w32 (a * b)) s)
/-- VMIN. -/
def execVmin (core : Nat) (s : State) : Res := .next (vBin core .vmin minLane s)
/-- VMAX. -/
def execVmax (core : Nat) (s : State) : Res := .next (vBin core .vmax maxLane s)
/-- VAND. -/
def execVand (core : Nat) (s : State) : Res := .next (vBin core .vand (fun _ a b => a &&& b) s)
/-- VOR. -/
def execVor (core : Nat) (s : State) : Res := .next (vBin core .vor (fun _ a b => a ||| b) s)
/-- VXOR. -/
def execVxor (core : Nat) (s : State) : Res := .next (vBin core .vxor (fun _ a b => a ^^^ b) s)
/-- VSLL: shift a by b[4:0]. -/
def execVsll (core : Nat) (s : State) : Res := .next (vBin core .vsll (fun _ a b => a <<< (b % 32) % 2 ^ 32) s)
/-- VSRL. -/
def execVsrl (core : Nat) (s : State) : Res := .next (vBin core .vsrl (fun _ a b => a >>> (b % 32)) s)
/-- VSRA. -/
def execVsra (core : Nat) (s : State) : Res := .next (vBin core .vsra (fun _ a b => w32 (i32 a / 2 ^ (b % 32))) s)
/-- VABS: the sign bit alone for FP32 (R411). -/
def execVabs (core : Nat) (s : State) : Res :=
  .next (vUn core .vabs (fun t a => if t then a % 2 ^ 31 else if i32 a < 0 then w32 (-(i32 a)) else a) s)
/-- VNEG. -/
def execVneg (core : Nat) (s : State) : Res :=
  .next (vUn core .vneg (fun t a => if t then a ^^^ 2 ^ 31 else w32 (-(i32 a))) s)
/-- VMOV. -/
def execVmov (core : Nat) (s : State) : Res := .next (vUn core .vmov (fun _ a => a) s)

/-- Poison of a whole register. -/
def allPoison (b : Bool) : Word32 := if b then BitVec.allOnes 32 else 0

/-- VSPLAT: every lane := g[GA][31:0]. -/
def execVsplat (core : Nat) (s : State) : Res :=
  .next (engineOp core 1 .vsplat false (fun e s => e.put s (ofLanes fun _ => e.o.ga.toNat) (allPoison e.o.gap)) s)

/-- VIOTA: lane n := n + IMM22[15:0]. -/
def execViota (core : Nat) (s : State) : Res :=
  .next (engineOp core 1 .viota false (fun e s => e.put s (ofLanes fun n => n + iImm22 e.o.word % 2 ^ 16) 0) s)

/-- VCMPEQ. -/
def execVcmpeq (core : Nat) (s : State) : Res :=
  .next (vBin core .vcmpeq (fun t a b => maskOf (if t then (ofF32 a).eq (ofF32 b) else a == b)) s)
/-- VCMPLT. -/
def execVcmplt (core : Nat) (s : State) : Res :=
  .next (vBin core .vcmplt (fun t a b => maskOf (if t then (ofF32 a).lt (ofF32 b) else decide (i32 a < i32 b))) s)
/-- VCMPLE. -/
def execVcmple (core : Nat) (s : State) : Res :=
  .next (vBin core .vcmple (fun t a b =>
    maskOf (if t then (ofF32 a).lt (ofF32 b) || (ofF32 a).eq (ofF32 b) else decide (i32 a ≤ i32 b))) s)
/-- VSEL: a where c ≠ 0, else b. -/
def execVsel (core : Nat) (s : State) : Res := .next (vTri core .vsel (fun _ a b c => if c ≠ 0 then a else b) s)

/-! ## Major 0x31 (R410, R411) -/

/-- VFMA: a × b + c. -/
def execVfma (core : Nat) (s : State) : Res :=
  .next (vTri core .vfma (fun t a b c => if t then f32Fma false false a b c else w32 (a * b + c)) s)
/-- VFMS: a × b − c. -/
def execVfms (core : Nat) (s : State) : Res :=
  .next (vTri core .vfms (fun t a b c => if t then f32Fma false true a b c else w32 (a * b - c)) s)
/-- VFNMA: c − a × b. -/
def execVfnma (core : Nat) (s : State) : Res :=
  .next (vTri core .vfnma (fun t a b c => if t then f32Fma true false a b c else w32 (c - a * b)) s)

/-! ## Reductions (R412) -/

/-- One level of the fixed tree. -/
def treeLevel (op : Nat → Nat → Nat) : List Nat → List Nat
  | a :: b :: t => op a b :: treeLevel op t
  | l => l

/-- s levels of the fixed tree. -/
def tree (op : Nat → Nat → Nat) : Nat → List Nat → List Nat
  | 0, l => l
  | s + 1, l => tree op s (treeLevel op l)

/-- Poison of segments of 2^s lanes: every output of a segment that has a poisoned input (R330). -/
def segmentPoison (p : Word32) (s : Nat) : Word32 :=
  (List.range 32).foldl (fun m i =>
    let per := 2 ^ (s - 1)
    if (List.range per).any fun j => p.toNat.testBit (i / per * per + j) then m ||| (1 <<< i) else m) 0

/-- A reduction by the fixed tree. -/
def vReduce (core : Nat) (o : Op) (f : Bool → Nat → Nat → Nat) (s : State) : State :=
  engineOp core 1 o false (fun e s =>
    let n := iImm22 e.o.word % 8
    if n = 0 || n = 7 then e.fault s .undefOperand
    else
      let a := e.va s
      let r := tree (f (iT e.o.word)) n ((List.range 64).map (lane a.1))
      e.put s (ofLanes fun j => nth r (j / 2 ^ n)) (segmentPoison a.2 n)) s

/-- VRSUM. -/
def execVrsum (core : Nat) (s : State) : Res := .next (vReduce core .vrsum addLane s)
/-- VRMAX. -/
def execVrmax (core : Nat) (s : State) : Res := .next (vReduce core .vrmax maxLane s)
/-- VRMIN. -/
def execVrmin (core : Nat) (s : State) : Res := .next (vReduce core .vrmin minLane s)

/-! ## Functions (R413) -/

/-- A function of FP32 lanes; T = 0 raises UNDEF_OPERAND. -/
def vFun (core : Nat) (o : Op) (f : Num → Num) (s : State) : State :=
  engineOp core 1 o false (fun e s =>
    if !iT e.o.word then e.fault s .undefOperand
    else
      let a := e.va s
      e.put s (ofLanes fun n => toF32 (f (ofF32 (lane a.1 n)))) a.2) s

/-- VEXP2. -/
def execVexp2 (core : Nat) (s : State) : Res := .next (vFun core .vexp2 numExp2 s)
/-- VLOG2. -/
def execVlog2 (core : Nat) (s : State) : Res := .next (vFun core .vlog2 numLog2 s)
/-- VRCP. -/
def execVrcp (core : Nat) (s : State) : Res := .next (vFun core .vrcp numRcp s)
/-- VSQRT. -/
def execVsqrt (core : Nat) (s : State) : Res := .next (vFun core .vsqrt numSqrt s)

/-- −0 in FP32. -/
def negZero : Nat := 0x80000000

/-- VRSQRT. The spec states no result for −0: such a lane takes a free value, the same for every lane of one
instruction. -/
def execVrsqrt (core : Nat) (s : State) : Res :=
  .next (engineOp core 1 .vrsqrt false (fun e s =>
    if !iT e.o.word then e.fault s .undefOperand
    else
      let a := e.va s
      let open_ := (List.range 64).any fun n => lane a.1 n == negZero
      let d := s.draw
      let s := if open_ then d.2 else s
      e.put s (ofLanes fun n => if lane a.1 n = negZero then d.1.toNat else toF32 (numRsqrt (ofF32 (lane a.1 n)))) a.2) s)

/-! ## Loads (R414) -/

/-- Groups of a format: GSEL must be below this (R414). -/
def groups (fmt : Nat) : Nat := if fmt = 0xA ∨ fmt = 0xB then 5 else if fmt = 0xD then 1 else 128 / (4 * fmtBits fmt)

/-- Lane n of a loaded line: group GSEL of format FMT converted to the lane type (R414, R442 to R445). -/
def E.loadLane (e : E) (d : Line256) (scales : Nat × Nat) (scale n : Nat) : Nat :=
  let w := e.o.word
  let fmt := fld w 50 4
  let t := iT w
  let target := if t then 7 else 2
  let rnd := e.rnd (2 ^ 27 + 64 * iVD w + n)
  if fmt = 0xD then
    if 21 ≤ n then 0
    else if d.toNat.testBit (2016 + n) then (if t then nan32 else 0x80000000)
    else encodeFmt target rnd e.ovf (ofFx scale (d.toNat >>> (96 * n) % 2 ^ 96))
  else
    let v := decodeFmt fmt (lineElem d fmt ((64 * fld w 47 3 + n) * fmtBits fmt))
    encodeFmt target rnd e.ovf (if isMx fmt then scaled (if n < 32 then scales.1 else scales.2) v else v)

/-- Poison of the loaded lanes (R329, R330). -/
def E.loadPoison (e : E) (p : Word32) (scale : Bool) : Word32 :=
  let w := e.o.word
  let fmt := fld w 50 4
  (List.range 32).foldl (fun m i =>
    let bad := if fmt = 0xD then
        decide (2 * i < 21) && (p.toNat.testBit 31 || linePoison p (96 * (2 * i)) (if 2 * i + 1 < 21 then 192 else 96))
      else scale || linePoison p ((64 * fld w 47 3 + 2 * i) * fmtBits fmt) (2 * fmtBits fmt)
    if bad then m ||| (1 <<< i) else m) 0

/-- The operand checks of a VLD: its format, group and lane type (R398, R414). -/
def E.loadDefined (e : E) : Bool :=
  let fmt := fld e.o.word 50 4
  decide (fmt ≤ 0xD) && decide (fld e.o.word 47 3 < groups fmt) && (!isMx fmt || iT e.o.word)

/-- The address g[GA] + 256 × OFF (R414). -/
def E.lineAddr (e : E) : Word := e.o.ga + BitVec.ofInt 64 (256 * signed 15 (iImm22 e.o.word))

/-- VLD, VLD.C and VLD.P. An access to an operand buffer is held until the MXE is idle (R256). -/
def E.runVld (e : E) (tag consume : Bool) (s : State) : State :=
  let w := e.o.word
  let fmt := fld w 50 4
  let a := e.lineAddr
  let mx := isMx fmt
  let b : Word := e.o.gb + BitVec.ofNat 64 (2 * fld w 47 3)
  let bl := b.toNat / 256 * 256
  if !e.loadDefined then e.fault s .undefOperand
  else match lineCheck a .cmOb tag with
    | some c => e.fault s c a.toNat
    | none =>
      if mx && b.toNat % 2 == 1 then e.fault s .misalignedAccess b.toNat
      else match (if mx then lineCheck (BitVec.ofNat 64 bl) .cmOb false else none) with
        | some c => e.fault s c b.toNat
        | none =>
          let ob := (regionOf a.toNat).isOb || (mx && (regionOf bl).isOb)
          if ob && !s.mxeIdle e.core then s
          else match (if fmt = 0xD then s.cmScale e.core a.toNat else some 0) with
            | none => e.fault s .fx96NoWindow a.toNat
            | some sc =>
              match e.readLine s portVxe a.toNat e.meet tag consume with
              | .blocked s => e.block s 0
              | .fault s => s
              | .ok d p s =>
                if !mx then e.put s (ofLanes (e.loadLane d (0, 0) sc)) (e.loadPoison p false)
                else match e.readLine s portVxe bl false false false with
                  | .blocked s => s
                  | .fault s => s
                  | .ok sd sp s =>
                    let pos := 8 * (b.toNat % 256)
                    e.put s (ofLanes (e.loadLane d (sd.toNat >>> pos % 256, sd.toNat >>> (pos + 8) % 256) sc))
                      (e.loadPoison p (linePoison sp pos 16))

/-- VLD (R414). -/
def execVld (core : Nat) (meet : Bool) (s : State) : Res := .next (engineOp core 1 .vld meet (fun e s => e.runVld false false s) s)
/-- VLD.C (R414). -/
def execVldC (core : Nat) (meet : Bool) (s : State) : Res := .next (engineOp core 1 .vldC meet (fun e s => e.runVld true true s) s)
/-- VLD.P (R414). -/
def execVldP (core : Nat) (meet : Bool) (s : State) : Res := .next (engineOp core 1 .vldP meet (fun e s => e.runVld true false s) s)

/-! ## Stores (R415) -/

/-- The value of a lane of type T. -/
def laneValue (t : Bool) (v : Nat) : Num := if t then ofF32 v else ofInt (i32 v)

/-- The line that a VST writes. -/
def E.storeLine (e : E) (s : State) (fmt : Nat) (a : Nat) : Line256 × Word32 :=
  let bits := fmtBits fmt
  (List.range (2048 / bits)).foldl (fun r q =>
    let v := (e.ctx s).rv (iVA e.o.word + q / 64)
    let idx := 2 * (a + q * bits / 8) + (if bits = 4 then q % 2 else 0)
    let n := if fmt = 2 && !iT e.o.word then lane v.1 (q % 64)
      else encodeFmt fmt (e.rnd idx) e.ovf (laneValue (iT e.o.word) (lane v.1 (q % 64)))
    (r.1 ||| (BitVec.ofNat 2048 n <<< (bits * q)),
      if v.2.toNat.testBit (q % 64 / 2) then r.2 ||| (1 <<< (bits * q / 64)) else r.2)) (0, 0)

/-- VST and VST.F. -/
def E.runVst (e : E) (fill : Bool) (s : State) : State :=
  let fmt := fld e.o.word 50 4
  let a := e.lineAddr
  if 7 < fmt || 7 < iVA e.o.word + 32 / fmtBits fmt - 1 then e.fault s .undefOperand
  else match lineCheck a .cmOb fill with
    | some c => e.fault s c a.toNat
    | none =>
      if (regionOf a.toNat).isOb && !s.mxeIdle e.core then s
      else
        let l := e.storeLine s fmt a.toNat
        match e.writeLine s portVxe a.toNat l.1 l.2 e.meet fill with
        | .blocked s => e.block s 0
        | .fault s => s
        | .ok _ _ s => e.over s

/-- VST (R415). -/
def execVst (core : Nat) (meet : Bool) (s : State) : Res := .next (engineOp core 1 .vst meet (fun e s => e.runVst false s) s)
/-- VST.F (R415). -/
def execVstF (core : Nat) (meet : Bool) (s : State) : Res := .next (engineOp core 1 .vstF meet (fun e s => e.runVst true s) s)

/-! ## Conversion and rearrangement (R416, R430) -/

/-- VCVT: every lane to type T. The source type is the other one: FP32 to INT32 or INT32 to FP32. -/
def execVcvt (core : Nat) (s : State) : Res :=
  .next (engineOp core 1 .vcvt false (fun e s =>
    let t := iT e.o.word
    let a := e.va s
    e.put s (ofLanes fun n =>
      encodeFmt (if t then 7 else 2) (e.rnd (2 ^ 26 + 64 * iVD e.o.word + n)) e.ovf (laneValue (!t) (lane a.1 n))) a.2) s)

/-- Element format and emax of an MX format code (R430). -/
def mxEmax (c : Nat) : Int :=
  match c with
  | 0x8 => 0 | 0x9 => 8 | 0xA => 4 | _ => 2

/-- Magnitude of a finite number as exponent of its top bit; none for zero. -/
def topExp : Num → Option Int
  | .fin _ m e => if m = 0 then none else some ((m.log2 : Int) + e)
  | _ => none

/-- An element of an MX format, saturating at the format's maximum (R430 step 4). -/
def mxElement (c : Nat) (k : Rnd) (x : Num) : Nat :=
  match c with
  | 0x8 =>
    let v := encodeInt 8 k (x.scale 6)
    intBits 8 (if v < -127 then -127 else v)
  | 0x9 => e4m3.encode k false x
  | 0xA => e3m2.encode k false x
  | 0xB => e2m3.encode k false x
  | _ => e2m1.encode k false x

/-- A zero element with a sign. -/
def mxZero (c : Nat) (neg : Bool) : Nat := if c = 0x8 then 0 else if neg then 2 ^ (fmtBits c - 1) else 0

/-- Scale byte and elements of a block of 32 lanes whose first is lane n0 (R430). -/
def E.quantise (e : E) (c n0 : Nat) (v : VReg) : Nat × (Nat → Nat) :=
  let x := fun n => ofF32 (lane v (n0 + n))
  let ls := List.range 32
  if ls.any fun n => match x n with
      | .fin .. => false
      | _ => true
  then (0xFF, fun _ => 0)
  else match ls.foldl (fun (m : Option Int) n => match m, topExp (x n) with
      | some a, some b => some (max a b)
      | none, b => b
      | a, none => a) none with
    | none => (0, fun n => mxZero c (x n).negative)
    | some t =>
      let s := max 0 (min 254 (t - mxEmax c + 127))
      (s.toNat, fun n => mxElement c (e.rnd (2 ^ 28 + 64 * iVD e.o.word + n0 + n)) ((x n).scale (127 - s)))

/-- VMXQ: the 64 FP32 lanes quantised in two blocks (R416, R430). -/
def execVmxq (core : Nat) (s : State) : Res :=
  .next (engineOp core 1 .vmxq false (fun e s =>
    let c := fld e.o.word 50 4
    if !iT e.o.word || !isMx c then e.fault s .undefOperand
    else
      let a := e.va s
      let b0 := e.quantise c 0 a.1
      let b1 := e.quantise c 32 a.1
      let bits := fmtBits c
      let d : VReg := (List.range 64).foldl (fun v n =>
        v ||| (BitVec.ofNat 2048 (if n < 32 then b0.2 n else b1.2 (n - 32)) <<< (bits * n))) 0
      let d := d ||| (BitVec.ofNat 2048 (b0.1 + 256 * b1.1) <<< 2016)
      let p0 := a.2.toNat % 2 ^ 16 != 0
      let p1 := a.2.toNat / 2 ^ 16 != 0
      let half := 32 * bits / 64
      e.put s d ((List.range 32).foldl (fun m i =>
        if (i < half && p0) || (half ≤ i && i < 2 * half && p1) || (i = 31 && (p0 || p1)) then m ||| (1 <<< i) else m) 0)) s)

/-- VSLIDE: byte j := byte j − IMM22[7:0], or zero (R416). -/
def execVslide (core : Nat) (s : State) : Res :=
  .next (engineOp core 1 .vslide false (fun e s =>
    let n := iImm22 e.o.word % 256
    let a := e.va s
    e.put s (a.1 <<< (8 * n)) ((List.range 32).foldl (fun m i =>
      -- word i takes bytes 8i − n to 8i + 7 − n
      if (List.range 8).any (fun j => decide (n ≤ 8 * i + j) && a.2.toNat.testBit ((8 * i + j - n) / 8))
      then m ||| (1 <<< i) else m) 0)) s)

/-- VBEXP: lane n all ones where bit n of g[GA] is 1 (R416). -/
def execVbexp (core : Nat) (s : State) : Res :=
  .next (engineOp core 1 .vbexp false (fun e s =>
    e.put s (ofLanes fun n => maskOf (bitAt e.o.ga n)) (allPoison e.o.gap)) s)

/-! ## Line atomics (R303 to R306, R313, R417) -/

/-- Element-wise addition into a line of n-byte elements: the new line, and the poison of its words (R331). -/
def addLine (n : Nat) (old : Line256 × Word32) (v : Line256 × Word32) : Line256 × Word32 :=
  ((List.range (256 / n)).foldl (fun r j =>
    let b := 8 * n * j
    r ||| (BitVec.ofNat 2048 ((old.1.toNat >>> b % 2 ^ (8 * n) + v.1.toNat >>> b % 2 ^ (8 * n)) % 2 ^ (8 * n)) <<< b)) 0,
    old.2 ||| v.2)

/-- FP32 addition into a line (R307). -/
def addLineF32 (old : Line256 × Word32) (v : Line256 × Word32) : Line256 × Word32 :=
  (ofLanes fun j => f32Add (lane old.1 j) (lane v.1 j), old.2 ||| v.2)

/-- FX96 addition into a line of 21 operands (M, SAT) with their poison (R314, R331): poison of an operand or a stored
value poisons the words of that value and leaves its SAT. -/
def addLineFx (old : Line256 × Word32) (m : Nat → Nat × Bool) (bad : Nat → Bool) : Line256 × Word32 :=
  let sat0 := old.1.toNat >>> 2016 % 2 ^ 21
  let r := (List.range 21).foldl (fun (r : Line256 × Word32 × Nat) j =>
    let b := 96 * j
    let p := bad j || linePoison old.2 b 96
    let v := (old.1.toNat >>> b % 2 ^ 96 + (m j).1) % 2 ^ 96
    let words : Word32 := (1 <<< (b / 64)) ||| (1 <<< ((b + 95) / 64))
    (r.1 ||| (BitVec.ofNat 2048 v <<< b), if p then r.2.1 ||| words else r.2.1,
      if (m j).2 && !p then r.2.2 ||| 2 ^ j else r.2.2)) (0, old.2, sat0)
  (r.1 ||| (BitVec.ofNat 2048 r.2.2 <<< 2016), r.2.1)

/-- A line atomic of the VXE on the local P-region (R303, R304, R423): the checks, one bank access, and the line's
previous contents to VD for a returning form. -/
def vAtomic (core : Nat) (o : Op) (meet ret fx : Bool)
    (f : E → State → Line256 × Word32 → Nat → Line256 × Word32) (s : State) : State :=
  engineOp core 1 o meet (fun e s =>
    let a := e.lineAddr
    if fx && fld e.o.word 47 2 == 3 then e.fault s .undefOperand
    else if a.toNat % 256 ≠ 0 then e.fault s .misalignedAccess a.toNat
    else if 2 ^ 48 ≤ a.toNat then e.fault s .windowViolation a.toNat
    else
      match regionOf a.toNat with
      | .p =>
        match (if fx then s.cmScale e.core a.toNat else some 0) with
        | none => e.fault s .fx96NoWindow a.toNat
        | some sc =>
          match s.cmTouch e.core portVxe a.toNat true meet e.o.ctx e.o.pc e.o.word with
          | (.off, s) => e.fault s .cmBankOff a.toNat (bankAt a.toNat)
          | (.lost, s) => if ret then e.put s lostLine.1 lostLine.2 else e.over s
          | (.ok, s) =>
            let old := s.rdLine (cmBase e.core + a.toNat)
            let new := f e s old sc
            let s := s.wrLine (cmBase e.core + a.toNat) new.1 new.2
            if ret then e.put s old.1 new.2 else e.over s
      | .w | .a | .ob _ => e.fault s .atomicRegion a.toNat
      | _ => e.fault s .windowViolation a.toNat) s

/-- VAADD.W (R417). -/
def execVaaddW (core : Nat) (meet : Bool) (s : State) : Res :=
  .next (vAtomic core .vaaddW meet false false (fun e s old _ => addLine 4 old (e.va s)) s)
/-- VAADD.W.R (R417). -/
def execVaaddWR (core : Nat) (meet : Bool) (s : State) : Res :=
  .next (vAtomic core .vaaddWR meet true false (fun e s old _ => addLine 4 old (e.va s)) s)
/-- VAADD.D (R417). -/
def execVaaddD (core : Nat) (meet : Bool) (s : State) : Res :=
  .next (vAtomic core .vaaddD meet false false (fun e s old _ => addLine 8 old (e.va s)) s)
/-- VAADD.D.R (R417). -/
def execVaaddDR (core : Nat) (meet : Bool) (s : State) : Res :=
  .next (vAtomic core .vaaddDR meet true false (fun e s old _ => addLine 8 old (e.va s)) s)

/-- Lanes 21 × LSEL to 21 × LSEL + 20 converted under R313 and added. -/
def E.fxLanes (e : E) (s : State) (old : Line256 × Word32) (scale : Nat) : Line256 × Word32 :=
  let a := e.va s
  let l0 := 21 * fld e.o.word 47 2
  addLineFx old (fun j => toFx scale (laneValue (iT e.o.word) (lane a.1 (l0 + j)))) fun j => a.2.toNat.testBit ((l0 + j) / 2)

/-- VFXADD (R417). -/
def execVfxadd (core : Nat) (meet : Bool) (s : State) : Res :=
  .next (vAtomic core .vfxadd meet false true (fun e s old sc => e.fxLanes s old sc) s)
/-- VFXADD.R (R417). -/
def execVfxaddR (core : Nat) (meet : Bool) (s : State) : Res :=
  .next (vAtomic core .vfxaddR meet true true (fun e s old sc => e.fxLanes s old sc) s)

end Sys2Proof.Machine
end

