-- ==== Sys2Proof/Machine/Streams.lean ====
section
/-! DEFINITION. Block lists and stream queues: entries and their checks (R487 to R494), expansion and merging (R488,
R492), the order of streams and the issue of transfers (R480, R481, R484, R495, R497, R512), and cancelling (R499). -/

namespace Sys2Proof.Machine

open Sys2Proof

/-! ## Stream queues -/

/-- Register instance of queue q of a core. -/
def sqIdx (core q : Nat) : Nat := 8 * core + q

/-- The streams of a queue, in arrival order. -/
def State.streamQ (s : State) (core q : Nat) : List Stream := Tbl.get [] (s.core core).streams q

/-- Replace them, with STREAM_Q_STAT.PENDING. -/
def State.setStreamQ (s : State) (core q : Nat) (l : List Stream) : State :=
  (s.updCore core fun k => { k with streams := Tbl.put [] k.streams q l }).setF .streamQStat (sqIdx core q) 0 3 l.length

/-- Update a stream. -/
def State.updStream (s : State) (core q id : Nat) (f : Stream → Stream) : State :=
  s.setStreamQ core q ((s.streamQ core q).map fun t => if t.id = id then f t else t)

/-- Update a transfer of a queue. -/
def State.updXfer (s : State) (core q id : Nat) (f : Xfer → Xfer) : State :=
  s.setStreamQ core q ((s.streamQ core q).map fun t =>
    { t with xfers := t.xfers.map fun x => if x.id = id then f x else x })

/-- A transfer of a queue, with its stream. -/
def State.findXfer (s : State) (core q id : Nat) : Option (Stream × Xfer) :=
  (s.streamQ core q).findSome? fun t => (t.xfers.find? fun x => x.id == id).map fun x => (t, x)

/-- The queue is enabled. -/
def State.streamOn (s : State) (core q : Nat) : Bool := s.f .streamQCtl (sqIdx core q) 0 1 == 1

/-- STREAM_Q_CTL.PRIO. -/
def State.streamPrio (s : State) (core q : Nat) : Nat := s.f .streamQCtl (sqIdx core q) 8 3

/-- A fresh identifier of a core's DMA engine. -/
def State.freshId (s : State) (core : Nat) : Nat × State :=
  ((s.core core).nextId, s.updCore core fun k => { k with nextId := k.nextId + 1 })

/-! ## STREAM.GO (R484) -/

/-- The entry at a device address lies in local CM, the Paddock or device DRAM, within the stall's windows. -/
def State.listEntryOk (s : State) (st a : Nat) : Bool :=
  let g := regionOf a
  (g.isCm || g == .paddock || g == .dram) && (s.place st a false).isSome && (s.place st (a + 31) false).isSome

/-- STREAM.GO: checks, then the stream goes to its queue; with 4 streams there it holds the instruction queue. -/
def execStreamGo (core : Nat) (s : State) : Res :=
  .next (engineOp core 2 .streamGo false (fun e s =>
    let q := fld e.o.word 0 3
    let n := e.o.gb.toNat
    let a := e.o.ga.toNat
    if n = 0 || 65535 < n || !s.streamOn core q then e.fault s .undefOperand
    else if a % 32 ≠ 0 then e.fault s .misalignedAccess a
    else if 2 ^ 48 ≤ a || (List.range n).any fun j => !s.listEntryOk e.t.stall (a + 32 * j) then
      e.fault s .windowViolation a
    else if 4 ≤ (s.streamQ core q).length then s
    else
      let p := s.freshId core
      let st : Stream := { id := p.1, ctx := e.o.ctx, pc := e.o.pc, word := e.o.word, base := a, count := n, read := 0
                           xfers := [], runAt := none, walk := none, seqn := none, early := 0, tick := e.o.tick }
      e.over (p.2.setStreamQ core q (s.streamQ core q ++ [st]))) s)

/-! ## Entries (R487, R489 to R491) -/

/-- A block-list entry. -/
structure BEntry where
  src   : Nat
  op    : Nat
  smode : Nat
  fence : Bool
  rsv   : Bool
  dst   : Nat
  dmode : Nat
  len64 : Nat
  rows  : Nat
  planes : Nat
  deadline : Nat
  sstr1 : Int
  dstr1 : Int
  sstr2 : Int
  dstr2 : Int
deriving DecidableEq, Repr

/-- The fields of an entry's four words; `rsv`: a Reserved bit is set. -/
def BEntry.ofWords (a b c d : Word) : BEntry :=
  { src := fld a 0 48, op := fld a 48 4, smode := fld a 52 2, fence := bitAt a 54
    rsv := fld a 55 9 != 0 || fld b 50 14 != 0 || fld c 28 4 != 0 || fld c 44 4 != 0
    dst := fld b 0 48, dmode := fld b 48 2, len64 := fld c 0 16, rows := fld c 16 12 + 1, planes := fld c 32 12 + 1
    deadline := fld c 48 16, sstr1 := signed 16 (fld d 0 16), dstr1 := signed 16 (fld d 16 16)
    sstr2 := signed 16 (fld d 32 16), dstr2 := signed 16 (fld d 48 16) }

/-- A side in CM, the operand buffers, the Paddock or a ring has 256-byte alignment (R490). -/
def Region.lined : Region → Bool
  | .w | .a | .p | .ob _ | .core | .paddock => true
  | _ => false

/-- What R489 and R491 say of an entry's regions and modes: the fault, if any. A tagged mode in CM without tags, and a
region that R489 does not list, are found line by line at issue (R494). -/
def BEntry.badMode (b : BEntry) : Bool :=
  let g := regionOf b.src
  let h := regionOf b.dst
  let srcBad := b.smode ≠ 0 && !(g.isCm || g == .paddock || g == .hitch || g == .none_)
  let dstBad := b.dmode ≠ 2 && (h == .core || h == .remote || (b.dmode == 1 && (h.isOb || h == .dram || h == .host)))
  let opBad := b.op ≠ 0 && (b.dmode ≠ 0 || !(h == .p || h == .paddock) || ((b.op == 4 || b.op == 8) && h != .paddock)
    || (decide (5 ≤ b.op) && (b.smode ≠ 0 || !(g.isCm || g == .paddock))))
  srcBad || dstBad || opBad

/-- The check of an entry when it is read (R494). -/
def BEntry.check (b : BEntry) : Option FaultCode :=
  if 8 < b.op || b.smode = 3 || b.dmode = 3 || b.rsv || b.len64 = 0
      || (b.dmode == 2 && (decide (2 ^ 21 ≤ b.dst) || b.dstr1 != 0 || b.dstr2 != 0)) || b.badMode then some .blistFormat
  else
    let lined := fun (g : Region) (a : Nat) (str : Int) =>
      a % 64 ≠ 0 || (g.lined && (a % 256 ≠ 0 || b.len64 % 4 ≠ 0 || str % 4 ≠ 0))
    if lined (regionOf b.src) b.src b.sstr1 || (b.dmode ≠ 2 && lined (regionOf b.dst) b.dst b.dstr1)
        || (b.dmode = 2 && b.len64 % 4 ≠ 0) then some .misalignedAccess
    else none

/-- The blocks of an entry in stream order: source, destination, bytes (R488). -/
def BEntry.blocks (b : BEntry) : List (Nat × Nat × Nat) :=
  (List.range b.planes).flatMap fun p => (List.range b.rows).map fun r =>
    (((b.src + p * b.sstr2 * 4096 + r * b.sstr1 * 64) % 2 ^ 48).toNat,
     ((b.dst + p * b.dstr2 * 4096 + r * b.dstr1 * 64) % 2 ^ 48).toNat, 64 * b.len64)

/-! ## Transfers (R492) -/

/-- Bytes from an address to the end of its CM region, in the core's own CM or another core's; none outside CM. -/
def cmLeft (a : Nat) : Option Nat :=
  let o := if coreSpace ≤ a && a < coreSpace + 0x20000000 then (a - coreSpace) % 0x1000000 else a
  if o < 0x100000 then some (0x100000 - o)
  else if o < 0x1A0000 then some (0x1A0000 - o)
  else if o < 0x200000 then some (0x200000 - o)
  else none

/-- Longest transfer from a source to a destination. -/
def xferMax (src dst dmode : Nat) : Nat :=
  let m := if dmode = 2 then 4096 else 65536
  let m := match cmLeft src with
    | some n => min m n
    | none => m
  match dmode, cmLeft dst with
  | 2, _ => m
  | _, some n => min m n
  | _, none => m

/-- A block cut at the limits of a transfer, in ascending address order. -/
def cutBlock (dmode : Nat) : (fuel src dst len : Nat) → List (Nat × Nat × Nat)
  | 0, _, _, _ => []
  | n + 1, src, dst, len =>
    if len = 0 then [] else
    let k := min len (xferMax src dst dmode)
    (src, dst, k) :: cutBlock dmode n (src + k) (if dmode = 2 then dst else dst + k) (len - k)

/-- A new transfer. -/
def newXfer (id idx : Nat) (b : BEntry) (src dst len : Nat) : Xfer :=
  { id := id, entry := idx, op := b.op, smode := b.smode, dmode := b.dmode, fence := b.fence, src := src, dst := dst
    left := len, buf := [], done := 0, put := 0, ring := BitVec.ofNat 64 b.dst, asked := none, idx := none, issued := false, since := none
    ends := [], staged := [], got := [], asking := false, acks := 0, cut := none }

/-- A piece of a block merges into the transfer before it (R492). -/
def Xfer.takes (x : Xfer) (idx : Nat) (b : BEntry) (src dst len : Nat) : Bool :=
  !x.issued && x.asked.isNone && x.staged.isEmpty && x.op == b.op && x.smode == b.smode && x.dmode == b.dmode
    && (!b.fence || x.entry == idx) && x.src + x.left == src
    && (if b.dmode = 2 then x.ring == BitVec.ofNat 64 b.dst else x.dst + x.left == dst)
    && decide (x.left + len ≤ xferMax x.src x.dst b.dmode)

/-- Add a piece to a stream's transfers, merging it into the last where R492 allows. -/
def addPiece (idx : Nat) (b : BEntry) (p : Nat × Nat × Nat) (l : List Xfer) (id : Nat) : List Xfer :=
  match l.getLast? with
  | some x =>
    if x.takes idx b p.1 p.2.1 p.2.2 then l.dropLast ++ [{ x with left := x.left + p.2.2, entry := idx }]
    else l ++ [newXfer id idx b p.1 p.2.1 p.2.2]
  | none => l ++ [newXfer id idx b p.1 p.2.1 p.2.2]

/-- The entry's last block ends in the last transfer. -/
def markEnd (idx deadline : Nat) (l : List Xfer) : List Xfer :=
  match l.getLast? with
  | some x => l.dropLast ++ [{ x with ends := x.ends ++ [(idx, x.left, deadline)] }]
  | none => l

/-- The transfers of a stream after an entry is read. -/
def addEntry (idx : Nat) (b : BEntry) (l : List Xfer) (id : Nat) : List Xfer × Nat :=
  let pieces := b.blocks.flatMap fun k => cutBlock b.dmode (k.2.2 / 64) k.1 k.2.1 k.2.2
  let r := pieces.foldl (fun (a : List Xfer × Nat) p => (addPiece idx b p a.1 a.2, a.2 + 1)) (l, id)
  (markEnd idx b.deadline r.1, r.2)

/-! ## Faults of a stream (R509) -/

/-- DETAIL that names the queue and the entry (BLIST_FORMAT, DEADLINE_MISS). -/
def entryDetail (q idx : Nat) : Nat := q + 2 ^ 16 * idx

/-- An access of the DMA-in port (R243, R254): the bank is powered, and the access is one of its slot's. -/
def State.dmaTouch (s : State) (core a : Nat) (write : Bool) : Bool × State :=
  let b := bankAt a
  if b < 16 && bitAt (s.reg .cmCfg core) (32 + b) then (false, s)
  else (true, s.updCore core fun k => { k with
    accs := (k.accs.filter fun e => e.port == portDma) ++ [⟨portDma, b, a, write, false⟩] })

/-! ## Reading entries (R493, R494) -/

/-- The stream whose next entry is read: the first with entries left, at most 8 entries ahead of the one it issues. -/
def State.readingStream (s : State) (core q : Nat) : Option Stream :=
  match (s.streamQ core q).find? fun t => t.walk.isNone && decide (t.read < t.count) with
  | none => none
  | some t => match t.xfers.find? fun x => !x.issued with
    | some x => if t.read < x.entry + 9 then some t else none
    | none => some t

/-- The words of an entry with their poison; none: its bank is powered down. -/
def State.readEntry (s : State) (core : Nat) (p : Place) : Option (BEntry × Bool × State) :=
  match p.key core with
  | none => none
  | some key =>
    let t := match p with
      | .local_ a => s.dmaTouch core a false
      | .paddock o => (true, s.pdSettle o)
      | _ => (true, s)
    if !t.1 then none
    else
      let s := t.2
      let w := fun j => BitVec.ofNat 64 (s.rdNat (key + 8 * j) 8)
      some (BEntry.ofWords (w 0) (w 1) (w 2) (w 3), s.poisonIn key 32, s)

/-- BLOCK_LIST_ENTRY_READ: a queue reads, checks and expands its next entry. -/
def execBlockListEntryRead (core q : Nat) (s : State) : Res :=
  .next (match s.taskOn core, s.readingStream core q with
    | some t, some st =>
      if !t.phase.live then s else
      let a := st.base + 32 * st.read
      match s.place t.stall a false with
      | none => st.fault s core .windowViolation a 0
      | some p =>
        match s.readEntry core p with
        | none => st.fault s core .cmBankOff a (bankAt a)
        | some (b, poison, u) =>
          if poison then st.fault u core .poisonConsumed a 0
          else match b.check with
            | some c => st.fault u core c a (if c = .blistFormat then entryDetail q st.read else 0)
            | none =>
              let r := addEntry st.read b st.xfers (u.core core).nextId
              (u.updCore core fun k => { k with nextId := r.2 }).updStream core q st.id fun t =>
                { t with xfers := r.1, read := t.read + 1 }
    | _, _ => s)

/-! ## Running streams (R495, R512) -/

/-- Every transfer of the stream has issued. -/
def Stream.issuedAll (t : Stream) : Bool := t.read == t.count && t.walk.isNone && t.xfers.all fun x => x.issued

/-- STREAM_OVERLAP bit of a queue. -/
def State.overlaps (s : State) (core q : Nat) : Bool := bitAt (s.reg .streamOverlap core) q

/-- STREAM_RUN: the next stream of a queue becomes running when the one before it has completed, or has issued its last
transfer on a queue that overlaps. -/
def execStreamRun (core q : Nat) (s : State) : Res :=
  .next (match (s.streamQ core q).span fun t => t.runAt.isSome with
    | (run, t :: _) =>
      if run.isEmpty || (s.overlaps core q && (run.getLast?.map Stream.issuedAll).getD false) then
        s.updStream core q t.id fun t => { t with runAt := some s.now }
      else s
    | _ => s)

/-- The next demand transfer of a queue, its stream, and whether an earlier stream still runs. -/
def State.nextXfer (s : State) (core q : Nat) : Option (Stream × Xfer × Bool) :=
  let rec go : List Stream → Bool → Option (Stream × Xfer × Bool)
    | [], _ => none
    | t :: rest, later =>
      if t.runAt.isNone then none
      else match t.xfers.find? fun x => !x.issued with
        | some x => some (t, x, later)
        | none => if t.issuedAll then go rest true else none
  go (s.streamQ core q) false

/-- It may issue now (R487 FENCE, R497, R512). -/
def canIssue (t : Stream) (x : Xfer) (later : Bool) : Bool :=
  (x.dmode != 2 || x.idx.isSome) && !(x.fence && (later || (t.xfers.head?.map Xfer.id) != some x.id))
    && !(later && x.dmode == 0)

/-- Transfers outstanding (R480): issued ones, a Carousel step, and an MSET or MCOPY held by a tag. -/
def State.outstanding (s : State) (core : Nat) : Nat :=
  let k := s.core core
  (k.streams.foldl (fun n e => e.2.foldl (fun n t => n + (t.xfers.filter Xfer.issued).length) n) 0)
    + bit k.carousel.active + (match k.dmaq with | o :: _ => bit o.since.isSome | [] => 0)

/-- Most outstanding transfers of a DMA engine. -/
def outstandingMax : Nat := 8

/-! ## Lines of a transfer -/

/-- Device address at which the next line read will be written. -/
def Xfer.nextDst (x : Xfer) : Nat := x.buf.foldl (fun a b => a + b.2.1) x.dst

/-- Bytes of the next line to read: a ring slot's, or as far as no 256-byte boundary of either side is crossed. -/
def Xfer.chunk (x : Xfer) : Nat :=
  if x.dmode = 2 then min x.left 256 else min x.left (min (256 - x.src % 256) (256 - x.nextDst % 256))

/-- The lines of a transfer as (source, destination, bytes). A ring line takes 256 bytes whatever its source. -/
def xferLines (dmode : Nat) : (fuel src dst len : Nat) → List (Nat × Nat × Nat)
  | 0, _, _, _ => []
  | n + 1, src, dst, len =>
    if len = 0 then [] else
    let k := if dmode = 2 then min len 256 else min len (min (256 - src % 256) (256 - dst % 256))
    (src, dst, k) :: xferLines dmode n (src + k) (if dmode = 2 then dst else dst + k) (len - k)

/-- The check of one source line (R171, R489, R494). -/
def State.srcCheck (s : State) (st a n smode : Nat) : Option FaultCode :=
  let g := regionOf a
  if g = .remote then
    match s.reinCheck st ((a - remoteSpace) / 2 ^ 40) with
    | some c => some c
    | none => if a % 2 ^ 40 < 0x8002000000 then none else some .windowViolation
  else if g = .hitch || (s.place st a false).isNone || (s.place st (a + n - 1) false).isNone then some .windowViolation
  else if smode ≠ 0 && g ≠ .a && g ≠ .paddock then some .tagNoSlot
  else none

/-- The check of one destination line of a transfer that has no ring (R171, R303, R310, R489, R494). -/
def State.dstCheck (s : State) (core st a n dmode op : Nat) : Option FaultCode :=
  let g := regionOf a
  if g = .hitch || g = .core || g = .remote || (s.place st a true).isNone || (s.place st (a + n - 1) true).isNone then
    some .windowViolation
  else if dmode = 1 && g ≠ .a && g ≠ .paddock then some .tagNoSlot
  else if op ≠ 0 && g ≠ .p && g ≠ .paddock then some .atomicRegion
  else if (op = 3 || op = 7) && (if g = .p then (s.cmScale core a).isNone
      else (s.pdScale st (a - paddockSpace)).isNone) then some .fx96NoWindow
  else none

/-- The first line of a transfer that fails its check, with the address. -/
def State.xferCheck (s : State) (core st : Nat) (x : Xfer) : Option (FaultCode × Nat) :=
  (xferLines x.dmode (x.left / 64 + 1) x.src x.dst x.left).findSome? fun l =>
    match s.srcCheck st l.1 l.2.2 x.smode with
    | some c => some (c, l.1)
    | none =>
      if x.dmode = 2 then none
      else
        -- the source of a returning form is written too
        match s.dstCheck core st l.2.1 l.2.2 x.dmode x.op with
        | some c => some (c, l.2.1)
        | none => if 5 ≤ x.op && (s.place st l.1 true).isNone then some (.windowViolation, l.1) else none

/-- 256-byte lines that a ring-destination transfer has still to read. -/
def Xfer.lines (x : Xfer) : Nat := (x.left + 255) / 256

/-- Slots that it takes, or has left to fill: lines to read, and lines at hand. -/
def Xfer.slots (x : Xfer) : Nat := x.lines + x.buf.length

/-! ## Reservations of transfers (R497) -/

/-- The next demand transfer of a queue asks its ring for its slots. -/
def State.askRing (s : State) (core q : Nat) (t : Task) (st : Stream) (x : Xfer) : State :=
  let who : RWho := .xfer core q x.id
  let mark := fun (s : State) => s.updXfer core q x.id fun x => { x with asked := some s.now }
  match s.ringRef core t.stall x.ring with
  | .bad => st.fault s core .undefOperand 0 0
  | .outside => st.fault s core .windowViolation 0 0
  | .ring i =>
    if !s.ringOn i then st.fault s core .ringDisabled 0 x.ring.toNat
    else if s.canGrant i x.slots then
      let k := s.ringResv i
      (mark (s.grantCredits i x.slots (some t.id) 0)).updXfer core q x.id fun x => { x with idx := some k }
    else (mark s).waitResv i x.slots who (some t.id)
  | .remote chip ref =>
    match s.reinCheck t.stall chip with
    | some c => st.fault s core c 0 (if c = .reinDown then chip else 0)
    | none =>
      if (s.freeTag core).isNone then s
      else
        let w0 := header0 tRresv 1 chip s.chipId core t.stall 3 0 0 0 0
        ((mark s).notedRemote t.id core chip).sendTagged core chip (some t.id) (.resv who x.ring x.slots) w0
          (ref ||| BitVec.ofNat 64 ((x.slots - 1) * 2 ^ 21)) []

/-- Every queue's next demand transfer asks for its reservation as soon as it is next (R497). -/
def State.askRings (s : State) (core : Nat) (t : Task) : State :=
  (List.range 8).foldl (fun s q => match s.nextXfer core q with
    | some (st, x, later) =>
      if x.dmode = 2 && x.asked.isNone && !(x.fence && (later || (st.xfers.head?.map Xfer.id) != some x.id)) then
        s.askRing core q t st x
      else s
    | none => s) s

/-! ## Issue (R481) -/

/-- The reads of a remote source: one RD for each piece within a line (R661). -/
def State.sendReads (s : State) (core q : Nat) (t : Task) (x : Xfer) : State :=
  let chip := (x.src - remoteSpace) / 2 ^ 40
  let pieces := xferLines 2 (x.left / 64 + 1) 0 0 x.left
  let go := fun (s : State) (a n : Nat) =>
    let o := a % 2 ^ 40
    let dev := if o < 0x8000000000 then dramSpace + o else paddockSpace + (o - 0x8000000000)
    let w0 := header0 tRd 1 chip s.chipId core t.stall 3 (s.streamPrio core q) 0 0 0
    s.sendTagged core chip (some t.id) (.read core q x.id (a / 64)) w0 (BitVec.ofNat 64 (dev + 2 ^ 48 * (n / 64))) []
  pieces.foldl (fun s l =>
    let a := x.src + l.1
    let k := min l.2.2 (256 - a % 256)
    let s := go s a k
    if k < l.2.2 then go s (a + k) (l.2.2 - k) else s) s

/-- The queue served next: highest PRIO, then round-robin after the queue served last. -/
def State.pickQueue (s : State) (core : Nat) (ready : Nat → Bool) (last : Nat) : Option Nat :=
  let top := (List.range 8).foldl (fun m q => if ready q then max m (s.streamPrio core q) else m) 0
  roundRobin (fun q => ready q && s.streamPrio core q == top) last 8

/-! ## Prefetch (R504, R505) -/

/-- STREAM_Q_STAGE.FIRST and LINES. -/
def State.stage0 (s : State) (core q : Nat) : Nat := s.f .streamQStage (sqIdx core q) 0 12
def State.stageLines (s : State) (core q : Nat) : Nat := s.f .streamQStage (sqIdx core q) 16 12

/-- Staging lines in use, in stream order. -/
def State.stagedLines (s : State) (core q : Nat) : List Nat :=
  (s.streamQ core q).flatMap fun t => t.xfers.flatMap fun x => x.staged.map fun e => e.1

/-- The transfer a queue would prefetch next: from the one that waits for its reservation on, the first not staged that
R504 allows and whose lines fit. -/
def State.prefetchable (s : State) (core q : Nat) (t : Task) : Option (Stream × Xfer) :=
  if s.f .streamQCtl (sqIdx core q) 2 1 = 0 then none else
  match s.nextXfer core q with
  | none => none
  | some (st, x, _) =>
    if x.idx.isSome then none else
    match (st.xfers.dropWhile fun y => y.id != x.id).find? fun y => y.staged.isEmpty with
    | none => none
    | some y =>
      let g := regionOf y.src
      if y.dmode = 2 && decide (0 < y.left) && y.smode = 0 && y.op = 0 && (g.isCm || g == .paddock || g == .dram)
          && decide ((s.stagedLines core q).length + y.lines ≤ s.stageLines core q)
          && (s.xferCheck core t.stall y).isNone then some (st, y) else none

/-- Read [a, a + n) as a line of which n bytes are meaningful. -/
def State.rdPart (s : State) (key n : Nat) : Line256 × Word32 :=
  (BitVec.ofNat 2048 (s.rdNat key n),
    (List.range (n / 8)).foldl (fun m i => if s.poisonAt (key + 8 * i) then m ||| (1 <<< i : Word32) else m) 0)

/-- Write n bytes, a multiple of 64, with their poison. -/
def State.wrPart (s : State) (key n : Nat) (d : Line256) (p : Word32) : State :=
  let s := s.wrNat key n (d.toNat % 2 ^ (8 * n))
  if key < dramTop then
    (List.range (n / 64)).foldl (fun s i => s.setPoison (key + 64 * i) ((p.toNat >>> (8 * i)) % 256 != 0)) s
  else (List.range (n / 8)).foldl (fun s i => s.setPoison (key + 8 * i) (p.toNat.testBit i)) s

/-- A prefetch read of one 256-byte source range: its data, or none where a shared line in state E is skipped (R159). -/
def State.prefetchLine (s : State) (core st a : Nat) : Option (Line256 × Word32 × State) :=
  match s.place st a false with
  | some (.dram p) =>
    if (linesOf p 256).any fun l => s.hdmDb (64 * l) && s.lineE l then none
    else let v := s.rdPart p 256; some (v.1, v.2, s)
  | some (.paddock o) => let u := s.pdSettle o; let v := u.rdLine (pdBase + o); some (v.1, v.2, u)
  | some (.local_ b) =>
    let v := s.rdLine (cmBase core + b)
    some (v.1, v.2, (s.dmaTouch core b false).2)
  | _ => none

/-- A transfer is prefetched: its lines take the next places of the circular staging buffer (R504). -/
def State.prefetch (s : State) (core q : Nat) (t : Task) (y : Xfer) : State :=
  let n := s.stageLines core q
  let f0 := s.stage0 core q
  let start := match (s.stagedLines core q).getLast? with
    | some l => (l - f0 + 1) % n
    | none => 0
  let r := (List.range y.lines).foldl (fun (r : State × List (Nat × Bool)) j =>
    let place := f0 + (start + j) % n
    let a := 0x100000 + 256 * place
    match r.1.prefetchLine core t.stall (y.src + 256 * j) with
    | some (d, p, u) => (((u.dmaTouch core a true).2.wrLine (cmBase core + a) d p), r.2 ++ [(place, true)])
    | none => (r.1.bridleCount fun s => s.addF .bridleDreq2 (48 + core) 32 32 1, r.2 ++ [(place, false)])) (s, [])
  r.1.updXfer core q y.id fun x => { x with staged := r.2 }

/-- TRANSFER_ISSUE: reservations are asked for; then one transfer issues in the order of R481, a demand transfer after
the check of its every line (R494), or else one prefetch read. -/
def execTransferIssue (core : Nat) (s : State) : Res :=
  .next (match s.taskOn core with
    | none => s
    | some t =>
      if !t.phase.live then s else
      let s := s.askRings core t
      if outstandingMax ≤ s.outstanding core then s else
      let ready := fun q => match s.nextXfer core q with
        | some (st, x, later) => x.staged.isEmpty && canIssue st x later
        | none => false
      match s.pickQueue core ready (s.core core).lastQ with
      | some q =>
        match s.nextXfer core q with
        | none => s
        | some (st, x, _) =>
          match s.xferCheck core t.stall x with
          | some (c, a) => st.fault s core c a (if c = .reinDown then (x.src - remoteSpace) / 2 ^ 40 else 0)
          | none =>
            let s := s.updCore core fun k => { k with lastQ := q }
            let s := s.updXfer core q x.id fun x => { x with issued := true, asking := regionOf x.src == .remote }
            if regionOf x.src = .remote then s.sendReads core q t x else s
      | none =>
        match s.pickQueue core (fun q => (s.prefetchable core q t).isSome) (s.core core).lastPf with
        | some q =>
          match s.prefetchable core q t with
          | some (_, y) => (s.updCore core fun k => { k with lastPf := q }).prefetch core q t y
          | none => s
        | none => s)

/-! ## Poison fills and cancelling (R295, R499) -/

/-- Index k of ring i is filled with all-ones data carrying poison: through the DMA-in port of its core, or at its
Paddock bank with requester index 0 (R295). -/
def State.poisonFill (s : State) (i k : Nat) : State :=
  let ones := BitVec.allOnes 2048
  let all := BitVec.allOnes 32
  match ringCore i with
  | some c => s.inject c ⟨i, .fill k ones all all none none, none⟩
  | none =>
    s.pdSend { off := s.ringAddr i k, op := .ringFill i k ones all all none, core := 0, ctx := 8, task := none
               arrival := s.now, index := 0, since := none }

/-- The slots a cancelled transfer holds and has not filled. -/
def Xfer.unfilled (x : Xfer) : List Nat :=
  match x.idx with
  | some k => (List.range x.slots).map fun j => (k + x.done + j) % 2 ^ 32
  | none => []

/-- What a cancelled transfer leaves: its waiting reservation goes, and its unfilled slots are poisoned. -/
def State.dropXfer (s : State) (core q : Nat) (t : Task) (x : Xfer) : State :=
  let s := match s.findResv (.xfer core q x.id) with
    | some (i, w) => s.dropResv i w.who
    | none => s
  if x.dmode ≠ 2 then s else
  match s.ringRef core t.stall x.ring with
  | .ring i => x.unfilled.foldl (fun s k => s.poisonFill i k) s
  | .remote chip ref =>
    let ones : Slot := BitVec.allOnes 128
    x.unfilled.foldl (fun s k =>
      s.sendTagged core chip (some t.id) (.fill none) (header0 tRfill 0 chip s.chipId core t.stall 3 0 16 0 0)
        (ref ||| BitVec.ofNat 64 (k * 2 ^ 21)) (List.replicate 16 (ones, true))) s
  | _ => s

/-- Every stream and walk of a queue ends (R499): nothing further of them is performed. -/
def State.cancelQueue (s : State) (core q : Nat) (t : Task) : State :=
  let l := s.streamQ core q
  let s := l.foldl (fun s st => st.xfers.foldl (fun s x => s.dropXfer core q t x) s) s
  s.setStreamQ core q []

/-- A poison fill is still on its way. -/
def State.poisonPending (s : State) : Bool :=
  (s.cx.cores.any fun c => c.2.inbound.any fun r => match r.kind with
    | .fill _ _ _ _ none none => true
    | _ => false)
  || s.cx.pd.queues.any fun e => e.2.any fun r => match r.op, r.task with
    | .ringFill _ _ _ _ _ none, none => true
    | _, _ => false

end Sys2Proof.Machine
end

