-- ==== Sys2Proof/Machine/EccLog.lean ====
section
/-! DEFINITION. Errors in memories and their records (R323 to R327, R679): counts, ECC_LOG, fault-log entries and event
records, and the errors that prefetches met (R507). -/

namespace Sys2Proof.Machine

open Sys2Proof

/-- ECC_LOG.MEM of a local address of a core. -/
def memOfLocal (a : Nat) : Nat :=
  match regionOf a with
  | .w => 0
  | .a => 1
  | .p => 2
  | .ob n => 3 + n
  | _ => 15

/-- A codeword: its memory as ECC_LOG.MEM, the core for 0 to 5, and its address as ECC_LOG.ADDR. -/
structure Codeword where
  mem  : Nat
  who  : Nat
  addr : Nat
deriving DecidableEq, Repr

/-- Memory key of a codeword of byte memory. -/
def Codeword.key (c : Codeword) : Option Nat :=
  if c.mem < 6 then (if c.who < 32 && memOfLocal c.addr == c.mem then some (cmBase c.who + c.addr / 8 * 8) else none)
  else if c.mem = 6 then (if c.addr < 2 ^ 25 then some (pdBase + c.addr / 8 * 8) else none)
  else if c.mem = 7 then (if c.addr < dramTop then some (c.addr / 64 * 64) else none)
  else none

/-- Bytes of a codeword's data. -/
def Codeword.size (c : Codeword) : Nat := if c.mem = 7 then 64 else 8

/-- The stall that owns a codeword. -/
def State.stallOfWord (s : State) (c : Codeword) : Option Nat :=
  if c.mem < 6 then s.stallOfCore c.who
  else if c.mem = 6 then s.stallOfPaddock c.addr
  else if c.mem = 7 then s.stallOfBlock (c.addr / blockSize)
  else if c.mem = 8 then s.stallOfHitch c.addr
  else none

/-- ECC_LOG's two words, VALID set, as one number. -/
def State.eccWords (s : State) (c : Codeword) (finder : Nat) (latent : Bool) : Nat :=
  let st := s.stallOfWord c
  c.mem + bit latent * 2 ^ 4 + finder % 4 * 2 ^ 5 + (if c.mem < 6 then c.who % 32 * 2 ^ 8 else 0) + st.getD 0 * 2 ^ 13
    + bit st.isSome * 2 ^ 17 + 2 ^ 63 + c.addr % 2 ^ 48 * 2 ^ 64

/-- An uncorrectable error is counted. -/
def State.countUe (s : State) (c : Codeword) (latent : Bool) : State :=
  let s := if latent then s.addF .eccStatus 0 48 16 1 else s
  if c.mem = 7 then (s.addF .eccStatus 0 32 16 1).addF .dramChEcc (dramChannel c.addr) 32 16 1
  else
    let s := s.addF .eccStatus 0 16 16 1
    if c.mem < 6 then s.addF .cmEccCount c.who 16 16 1 else s

/-- An uncorrectable error is recorded once: counts, ECC_LOG if it is free, a class D entry, and for a latent one in
DRAM the General Media record (R325, R327). -/
def State.recordUe (s : State) (c : Codeword) (finder : Nat) (latent : Bool) : State :=
  let w := s.eccWords c finder latent
  let s := s.countUe c latent
  let s := if bitAt (s.reg .eccLog0 0) 63 then s
    else (s.setReg .eccLog0 0 (BitVec.ofNat 64 w)).setReg .eccLog1 0 (BitVec.ofNat 64 (w / 2 ^ 64))
  let s := s.logFault { code := if latent then .latentError else .eccUe, cls := .d, stall := s.stallOfWord c, unit := 4
                        core := if c.mem < 6 then some c.who else none, addr := c.addr, detail := w }
  if latent && c.mem == 7 then s.mediaEvent 1 c.addr else s

/-- A corrected error is counted (R324); a DRAM channel at its alert count raises the alert once. -/
def State.countCe (s : State) (c : Codeword) : State :=
  if c.mem = 7 then
    let ch := dramChannel c.addr
    let s := s.addF .dramChEcc ch 0 32 1
    let limit := s.f .eccCfg 0 48 16
    if limit = 0 || s.f .dramChEcc ch 0 32 < limit || s.f .dramChEcc ch 48 1 = 1 then s
    else ((s.setF .dramChEcc ch 48 1 1).postEvent 0 ⟨.dram, c.addr / 64 * 64⟩ (s.ownersOf c.addr)).advise .eccCeAlert 4 ch
  else
    let s := s.addF .eccStatus 0 0 16 1
    if c.mem < 6 then s.addF .cmEccCount c.who 0 16 1 else s

/-- Words of data as stored in error: free values. -/
def State.spoil (s : State) (key : Nat) : (n : Nat) → State
  | 0 => s
  | n + 1 => ((s.draw.2).wrNat (key + 8 * n) 8 s.draw.1.toNat).spoil key n

/-- The location reads back its data as stored in error, and is marked poisoned (R325). -/
def State.markWord (s : State) (c : Codeword) (key : Nat) : State :=
  let s := s.spoil key (c.size / 8)
  s.setPoison key true

/-- The record of an error that a prefetch met. -/
def State.recordStaged (s : State) (e : StagedErr) (latent : Bool) : State := s.recordUe ⟨e.mem, e.who, e.addr⟩ 2 latent

/-- Errors whose staged data has been discarded are recorded as latent (R327, R507). -/
def State.settleStaged (s : State) : State :=
  let gone := s.scrub.held.filter fun e => !(s.stagedLines (e.q / 8) (e.q % 8)).contains e.line
  let s := { s with scrub := { s.scrub with
    held := s.scrub.held.filter fun e => (s.stagedLines (e.q / 8) (e.q % 8)).contains e.line } }
  gone.foldl (fun s e => s.recordStaged e true) s

/-- Errors of a transfer that commits are recorded (R327). -/
def State.commitStaged (s : State) (q : Nat) (lines : List Nat) : State :=
  let mine := fun (e : StagedErr) => e.q == q && lines.contains e.line
  let done := s.scrub.held.filter mine
  let s := { s with scrub := { s.scrub with held := s.scrub.held.filter fun e => !mine e } }
  done.foldl (fun s e => s.recordStaged e false) s

/-- PREFETCH_COMMIT: the reservation of a prefetched transfer has been granted; it commits as an outstanding transfer,
whose lines come from staging, and a skipped one on demand (R506). -/
def execPrefetchCommit (core q : Nat) (s : State) : Res :=
  .next (match s.taskOn core, s.nextXfer core q with
    | some t, some (st, x, later) =>
      if t.phase.live && !x.staged.isEmpty && canIssue st x later && decide (s.outstanding core < outstandingMax) then
        (s.commitStaged (8 * core + q) (x.staged.map Prod.fst)).updXfer core q x.id fun x => { x with issued := true }
      else s
    | _, _ => s)

/-- STREAM.CANCEL: the streams end in the cycle in which it starts; it completes when their slots are filled (R499). -/
def execStreamCancel (core : Nat) (s : State) : Res :=
  .next (match s.taskOn core, (s.core core).dmaq with
    | some t, o :: _ =>
      if decodeOp o.word ≠ some .streamCancel || !t.phase.live then s
      else
        let q := fld o.word 0 3
        let u := if o.began then s else ((s.beginHead core 2).cancelQueue core q t).settleStaged
        if u.poisonPending then u else u.popQueue core 2
    | _, _ => s)

end Sys2Proof.Machine
end

