-- ==== Sys2Proof/Machine/Dma.lean ====
section
/-! DEFINITION. The transfer unit and the DMA-in port: lines of transfers (R482, R496 to R498, R506), inbound fills,
pops and peeks (R291, R295, R482), the Carousel (R421, R513, R514), MSET and MCOPY (R297 to R302, R485), and tag waits
that end (R281, R284). -/

namespace Sys2Proof.Machine

open Sys2Proof

/-! ## One line of a transfer -/

/-- A transfer at work: its core and queue, its task, its stream, and whether an earlier stream still runs. -/
structure T where
  core  : Nat
  q     : Nat
  t     : Task
  st    : Stream
  later : Bool

/-- A step of a transfer: the state, the host data not yet used, and whether a line moved. -/
structure Mv where
  s     : State
  host  : List HostLine
  moved : Bool

/-- Its class C fault. -/
def T.fault (m : T) (s : State) (c : FaultCode) (addr detail : Nat) : State := m.st.fault s m.core c addr detail

/-- Its line waits on a tag, since its first try (R284, R498). -/
def T.block (m : T) (s : State) (id : Nat) : State :=
  s.updXfer m.core m.q id fun x => { x with since := some (x.since.getD s.now) }

/-- A line of free values. -/
def State.freeLine (s : State) : Line256 × State :=
  (List.range 32).foldl (fun (r : Line256 × State) j =>
    let w := r.2.draw; (r.1 ||| (w.1.setWidth 2048 <<< (64 * j)), w.2)) (0, s)

/-- The bytes of a walk's line that the spec leaves unspecified, beyond the valid tokens, are free (R591). -/
def State.cutLine (s : State) (x : Xfer) (n : Nat) (d : Line256) : Line256 × State :=
  match x.cut with
  | some c =>
    if c < x.src + n then
      let r := s.freeLine
      let keep : Line256 := BitVec.ofNat 2048 (2 ^ (8 * (c - x.src)) - 1)
      ((d &&& keep) ||| (r.1 &&& ~~~keep), r.2)
    else (d, s)
  | none => (d, s)

/-- A line has been read: it waits in the transfer unit for its write. -/
def T.got (m : T) (s : State) (x : Xfer) (d : Line256) (p : Word32) : State :=
  let n := x.chunk
  let r := s.cutLine x n d
  let d := r.1
  let s := r.2
  s.updXfer m.core m.q x.id fun y => { y with
    src := y.src + n, left := y.left - n, buf := y.buf ++ [(x.src, n, d, p)], since := none, staged := y.staged.tail }

/-- The beats of a remote source that the next line needs, with poison; none: some have not come (R653, R661). -/
def Xfer.remoteLine (x : Xfer) : Option (Line256 × Word32) :=
  (List.range (x.chunk / 64)).foldl (fun r j => match r, x.got.find? fun b => b.1 == x.src / 64 + j with
    | some (d, p), some (_, v, bad) =>
      some (d ||| (v.setWidth 2048 <<< (512 * j)), if bad then p ||| (0xFF <<< (8 * j)) else p)
    | _, _ => none) (some (0, 0))

/-- The place of the next read: a staging line of a prefetched transfer, unless the line was skipped (R506), or the
source. -/
def Xfer.readAt (x : Xfer) : Nat :=
  match x.staged with
  | (l, true) :: _ => 0x100000 + 256 * l
  | _ => x.src

/-- The next line of a transfer is read (R489, R496 to R498, R506). -/
def T.read (m : T) (s : State) (x : Xfer) (host : List HostLine) : Mv :=
  let stuck : Mv := ⟨s, host, false⟩
  let n := x.chunk
  let a := x.readAt
  let take := fun (s : State) (key : Nat) => let v := s.rdPart key n; m.got s x v.1 v.2
  -- tagged reads of CM and the Paddock; a staged line is read untagged
  let tagged_ := x.smode ≠ 0 && x.staged.isEmpty
  let tagRead := fun (s : State) (key : Nat) (touch : State → Bool × State) =>
    if tagged_ && !s.tagAt key then (⟨m.block s x.id, host, false⟩ : Mv)
    else match touch s with
      | (false, s) => ⟨m.fault s .cmBankOff a (bankAt (a % 0x1000000)), host, false⟩
      | (true, s) =>
        let s := take s key
        ⟨if x.smode = 1 && tagged_ then s.putTag key false else s, host, true⟩
  match s.place m.t.stall a false with
  | some (.local_ b) =>
    if (regionOf b).isOb && !s.mxeIdle m.core then stuck
    else tagRead s (cmBase m.core + b) fun s => s.dmaTouch m.core b false
  | some (.core c b) => tagRead s (cmBase c + b) fun s => s.dmaTouch c b false
  | some (.paddock o) =>
    tagRead (s.pdSettle o) (pdBase + o) fun s => (true, s.pdCount o (pdIndex m.core (pdSlice o)) 0)
  | some (.dram p) =>
    match s.devReady p n false (subOfCore m.core) with
    | (true, s) => ⟨take s p, host, true⟩
    | (false, s) => ⟨s, host, false⟩
  | some (.host req b) =>
    if !s.present req then stuck else
    match host with
    | d :: rest => ⟨m.got (s.emit (.hostRead req b n)) x d.1 d.2, rest, true⟩
    | [] => stuck
  | some (.remote ..) =>
    match x.remoteLine with
    | some (d, p) => ⟨m.got s x d p, host, true⟩
    | none => stuck
  | _ => ⟨m.fault s .windowViolation a 0, host, false⟩

/-- A deadline miss of an entry (R501). -/
def T.miss (m : T) (s : State) (entry : Nat) : State :=
  let i := sqIdx m.core m.q
  let s := (s.addF .streamQStat i 16 16 1).traceTask 10 m.core m.q m.t entry
  if s.f .streamQStat i 48 1 = 1 then s
  else ((s.setF .streamQStat i 48 1 1).setF .streamQStat i 32 16 entry).logFault
    { code := .deadlineMiss, cls := .d, stall := some m.t.stall, task := some m.t.id, unit := 3, core := some m.core
      detail := entryDetail m.q entry }

/-- Entries whose last write has been performed are held to their deadlines. -/
def T.deadlines (m : T) (s : State) (x : Xfer) : State :=
  let i := sqIdx m.core m.q
  let over_ := x.ends.filter fun e => decide (e.2.1 ≤ x.put)
  let s := s.updXfer m.core m.q x.id fun y => { y with ends := y.ends.filter fun e => !decide (e.2.1 ≤ x.put) }
  if s.f .streamQCtl i 1 1 = 0 then s else
  over_.foldl (fun s e =>
    if e.2.2 ≠ 0 && decide (m.st.runAt.getD 0 + e.2.2 * s.f .streamQCtl i 16 16 < s.now) then m.miss s e.1 else s) s

/-- The oldest line read has been written. -/
def T.wrote (m : T) (s : State) (x : Xfer) (n acks : Nat) : State :=
  let x := { x with dst := if x.dmode = 2 then x.dst else x.dst + n, buf := x.buf.tail, done := x.done + 1
                    put := x.put + n, since := none, acks := x.acks + acks }
  let s := (s.updXfer m.core m.q x.id fun _ => x).perf m.core 0x08 ((n + 63) / 64)
  let s := if m.later then s.updStream m.core m.q m.st.id fun t => { t with early := t.early + 1 } else s
  if x.acks = 0 then m.deadlines s x else s

/-- A stream that runs ahead of another has used its window (R512). -/
def T.held (m : T) (s : State) (x : Xfer) : Bool :=
  m.later && (x.dmode == 0 || decide (s.f .streamOverlap m.core 8 16 ≤ m.st.early))

/-- An atomic line form: the new target line (R303, R306, R307, R313, R331). -/
def opLine (op : Nat) (old v : Line256 × Word32) : Line256 × Word32 :=
  match op with
  | 1 | 5 => addLine 4 old v
  | 2 | 6 => addLine 8 old v
  | 3 | 7 => addLineFx old (fun j => (v.1.toNat >>> (96 * j) % 2 ^ 96, v.1.toNat.testBit (2016 + j)))
      fun j => linePoison v.2 (96 * j) 96 || v.2.toNat.testBit 31
  | _ => addLineF32 old v

/-- A line written at a key: plain, fill or atomic (R275, R491). -/
def T.put (m : T) (s : State) (x : Xfer) (key src n : Nat) (d : Line256) (p : Word32) : State :=
  if x.op = 0 then
    let s := s.wrPart key n d p
    m.wrote (if x.dmode = 1 then s.putTag key true else s) x n 0
  else
    let old := s.rdLine key
    let new := opLine x.op old (d, p)
    let s := s.wrLine key new.1 new.2
    let s := if x.op < 5 then s
      else match (s.place m.t.stall src true).bind (Place.key m.core) with
        | some k => s.wrLine k old.1 old.2
        | none => s
    m.wrote s x n 0

/-- A line goes to its ring slot (R293, R294, R497). -/
def T.ringPut (m : T) (s : State) (x : Xfer) (n : Nat) (d : Line256) (p : Word32) : State × Bool :=
  let k := (x.idx.getD 0 + x.done) % 2 ^ 32
  match s.ringRef m.core m.t.stall x.ring with
  | .ring i =>
    let key := s.ringKey i k
    if !s.ringOn i then (m.fault s .ringDisabled 0 x.ring.toNat, false)
    else if !s.holdsCredit i k (some m.t.id) 0 then (m.fault s .noCredit 0 0, false)
    else
      let s := if i < pringBase then s else s.pdSettle (s.ringAddr i k)
      if s.tagAt key then (m.block s x.id, false)
      else match (match ringCore i with
          | some c => s.dmaTouch c (s.ringAddr i k) true
          | none => (true, s)) with
        | (false, s) => (m.fault s .cmBankOff (devAddr m.core key) (bankAt (s.ringAddr i k)), false)
        | (true, s) => (m.wrote (s.landFill key i k d p (BitVec.allOnes 32) none) x n 0, true)
  | .remote chip ref =>
    if (s.freeTag m.core).isNone then (s, false)
    else
      let slot := fun j => ((d >>> (128 * j)).setWidth 128, (p.toNat >>> (2 * j)) % 4 != 0)
      let s := s.sendTagged m.core chip (some m.t.id) (.fill (some (m.core, m.q, x.id)))
        (header0 tRfill 0 chip s.chipId m.core m.t.stall 3 (s.streamPrio m.core m.q) 16 0 0)
        (ref ||| BitVec.ofNat 64 (k * 2 ^ 21)) ((List.range 16).map slot)
      (m.wrote s x n 1, true)
  | _ => (m.fault s .windowViolation 0 0, false)

/-- The oldest line of a transfer that has been read is written (R496, R498). -/
def T.write (m : T) (s : State) (x : Xfer) : State × Bool :=
  match x.buf with
  | [] => (s, false)
  | (src, n, d, p) :: _ =>
    if m.held s x then (s, false)
    else if x.dmode = 2 then m.ringPut s x n d p
    else
      let fill := x.dmode = 1
      match s.place m.t.stall x.dst true with
      | some (.local_ b) =>
        if (regionOf b).isOb && !s.mxeIdle m.core then (s, false)
        else if fill && s.tagAt (cmBase m.core + b) then (m.block s x.id, false)
        else match s.dmaTouch m.core b true with
          | (false, s) => (m.fault s .cmBankOff b (bankAt b), false)
          | (true, s) => (m.put s x (cmBase m.core + b) src n d p, true)
      | some (.paddock o) =>
        let s := s.pdSettle o
        if fill && s.tagAt (pdBase + o) then (m.block s x.id, false)
        else (m.put (s.pdCount o (pdIndex m.core (pdSlice o)) 0) x (pdBase + o) src n d p, true)
      | some (.dram a) =>
        match s.devReady a n true (subOfCore m.core) with
        | (true, s) => (m.put s x a src n d p, true)
        | (false, s) => (s, false)
      | some (.host req a) =>
        let bad := p ≠ 0
        let s := s.emit (.hostWrite req a (leBytes n d.toNat) bad)
        (if bad then m.fault s .poisonConsumed x.dst 0 else m.wrote s x n 0, true)
      | _ => (m.fault s .windowViolation x.dst 0, false)

/-! ## Which region an access of a transfer falls in -/

/-- The CM region or operand buffer of the core whose DMA-in port serves the next read; none: another place. -/
def Xfer.readRegion (x : Xfer) : Option Region :=
  if x.left = 0 then none else
  let g := regionOf x.readAt
  if g.isCm || g.isOb then some g else none

/-- The same for the next write, of a line read or about to be read. -/
def State.writeRegion (s : State) (core st : Nat) (x : Xfer) : Option Region :=
  if x.dmode = 2 then
    match s.ringRef core st x.ring with
    | .ring i => if ringCore i = some core then some (regionOf (s.ringAddr i ((x.idx.getD 0 + x.done) % 2 ^ 32))) else none
    | _ => none
  else
    let g := regionOf x.dst
    if g.isCm || g.isOb then some g else none

/-- The transfer with its latest record. -/
def T.again (m : T) (s : State) (id : Nat) : Option (T × Xfer) :=
  (s.findXfer m.core m.q id).map fun e => ({ m with st := e.1 }, e.2)

/-- Its task still runs. -/
def State.taskLive (s : State) (id : Nat) : Bool := ((s.task? id).map fun t => t.phase.live).getD false

/-- The next access of a transfer in a region: a write of a line read, else a read; a source or destination outside the
core's own memory gives or takes its line in the same step. -/
def T.serve (m : T) (s : State) (x : Xfer) (g : Region) (host : List HostLine) : Mv :=
  let wr := s.writeRegion m.core m.t.stall x
  if wr = some g && (!x.buf.isEmpty || x.readRegion.isNone) then
    if !x.buf.isEmpty then
      let r := m.write s x
      ⟨r.1, host, r.2⟩
    else if x.left = 0 then ⟨s, host, false⟩
    else
      let r := m.read s x host
      if !r.moved then r
      else match m.again r.s x.id with
        | some (m, x) => let w := m.write r.s x; ⟨w.1, r.host, w.2⟩
        | none => r
  else if x.readRegion = some g then
    let r := m.read s x host
    if !r.moved || wr.isSome then r
    else match m.again r.s x.id with
      | some (m, x) => let w := m.write r.s x; ⟨w.1, r.host, true⟩
      | none => r
  else ⟨s, host, false⟩

/-- Issued transfers of a core in the order in which the DMA-in port takes them (R481, R482): by PRIO, then by queue,
then in stream order. -/
def State.issuedXfers (s : State) (core : Nat) (t : Task) : List (T × Nat) :=
  (List.range 8).flatMap fun p => (List.range 8).flatMap fun q =>
    if s.streamPrio core q = 7 - p then
      (s.streamQ core q).zipIdx.flatMap fun e =>
        (e.1.xfers.filter Xfer.issued).map fun x => (⟨core, q, t, e.1, decide (0 < e.2)⟩, x.id)
    else []

/-- The first of the core's transfers that has an access in a region and can make it. -/
def State.serveXfers (s : State) (g : Region) (host : List HostLine) : List (T × Nat) → Mv
  | [] => ⟨s, host, false⟩
  | (m, id) :: rest =>
    if !s.taskLive m.t.id then ⟨s, host, false⟩ else
    match m.again s id with
    | some (m, x) =>
      let r := m.serve s x g host
      if r.moved then r else r.s.serveXfers g r.host rest
    | none => s.serveXfers g host rest

/-! ## Inbound requests (R291, R295, R482, R815) -/

/-- Address in CM of an inbound request. -/
def State.inboundAddr (s : State) (r : Inbound) : Nat :=
  match r.kind with
  | .fill idx .. => s.ringAddr r.ring idx
  | .pop => s.ringAddr r.ring (s.ringHead r.ring)
  | .peek _ _ _ k _ => s.ringAddr r.ring k

/-- It writes. -/
def Inbound.isFill (r : Inbound) : Bool :=
  match r.kind with
  | .fill .. => true
  | _ => false

/-- An inbound request is performed; none: its tag is not as it wants. Its bank is powered. -/
def State.inboundDo (s : State) (core : Nat) (r : Inbound) : Option State :=
  let key := cmBase core + s.inboundAddr r
  match r.kind with
  | .fill k d pois words remote who =>
    if !s.reserved r.ring k then
      some (match remote, who with
        | some _, _ => s.wackFill remote 3
        | none, some (id, c, x) => s.taskFault id .noCredit 0 c (some x)
        | none, none => s)
    else if s.tagAt key then none
    else some (s.landFill key r.ring k d pois words remote)
  | .pop =>
    match (s.ring r.ring).pops with
    | [] => some s
    | p :: rest =>
      -- a pop of the ring's own core is its context's (R291)
      if !s.tagAt key || p.core = core then none
      else
        let v := s.narrowRead (key + 8 * p.word) 8
        let rg := s.ring r.ring
        some ((((s.putTag key false).advanceHead r.ring).setRing r.ring { rg with pops := rest }).deliver p.core p.ctx
          (some p.task) v.1 v.2)
  | .peek c x task _ w =>
    if !s.tagAt key then none
    else let v := s.narrowRead (key + 8 * w) 8; some (s.deliver c x (some task) v.1 v.2)

/-- The first inbound request of a region that can be performed is; those whose tag is wrong wait (R284). -/
def State.serveInbound (s : State) (core : Nat) (g : Region) : List Inbound → List Inbound → State × Bool
  | _, [] => (s, false)
  | before, r :: rest =>
    if regionOf (s.inboundAddr r) ≠ g then s.serveInbound core g (before ++ [r]) rest
    else
      let gone := fun (s : State) => s.updCore core fun k => { k with inbound := before ++ rest }
      match s.dmaTouch core (s.inboundAddr r) r.isFill with
      | (false, s) =>
        -- a powered-down bank: a chip's fill is answered WINDOW, and an own task's faults
        (gone (match r.kind with
          | .fill _ _ _ _ (some h) _ => s.wackFill (some h) 2
          | .fill _ _ _ _ none (some (id, c, x)) =>
            s.taskFault id .cmBankOff 0 c (some x) 0 0 (devAddr c (cmBase core + s.inboundAddr r))
              (bankAt (s.inboundAddr r))
          | .peek c x task _ _ => s.taskFault task .cmBankOff 0 c (some x) 0 0
              (devAddr c (cmBase core + s.inboundAddr r)) (bankAt (s.inboundAddr r))
          | .pop => match (s.ring r.ring).pops with
            | p :: _ => s.taskFault p.task .cmBankOff 0 p.core (some p.ctx) 0 0
                (devAddr p.core (cmBase core + s.inboundAddr r)) (bankAt (s.inboundAddr r))
            | [] => s
          | .fill _ _ _ _ none none => s), true)
      | (true, t) =>
        match t.inboundDo core r with
        | some u => (gone u, true)
        | none =>
          let r := { r with since := some (r.since.getD s.now) }
          (s.updCore core fun k => { k with inbound := before ++ [r] ++ rest }).serveInbound core g (before ++ [r]) rest

/-! ## The Carousel (R421, R513, R514) -/

/-- The next team core after a core, with wrap-around. -/
def Task.successor (t : Task) (core : Nat) : Nat :=
  match t.team.find? (fun c => decide (core < c)) with
  | some c => c
  | none => t.team.headD core

/-- Lines that wait in an inbound Carousel buffer at most. -/
def carouselPlaces : Nat := 16

/-- A fault of the core's CAROUSEL.STEP. -/
def State.carouselFault (s : State) (t : Task) (core : Nat) (c : FaultCode) (addr detail : Nat) : State :=
  match (s.core core).dmaq with
  | o :: _ => s.taskFault t.id c 3 core (some o.ctx) o.pc o.word addr detail
  | [] => s

/-- Update a core's Carousel. -/
def State.updCar (s : State) (core : Nat) (f : Carousel → Carousel) : State :=
  s.updCore core fun k => { k with carousel := f k.carousel }

/-- CAROUSEL.STEP starts: its checks, then its lines move slot by slot (R421, R481). -/
def execCarouselStep (core : Nat) (s : State) : Res :=
  .next (engineOp core 2 .carouselStep false (fun e s =>
    let n := fld e.o.word 0 13
    let src := fld e.o.word 52 12
    let dst := fld e.o.word 40 12
    if n = 0 || 4096 < n || 4096 < src + n || 4096 < dst + n || (decide (src < dst + n) && decide (dst < src + n)) then
      e.fault s .undefOperand
    else if outstandingMax ≤ s.outstanding core then s
    else (s.beginHead core 2).updCar core fun k => { k with
      step := k.step + 1, src := src, dst := dst, lines := n, sent := 0, got := 0, active := true, lastRead := false }) s)

/-- A step whose lines have all left and come is over. -/
def State.carouselEnd (s : State) (core : Nat) : State :=
  let k := (s.core core).carousel
  if k.active && k.sent == k.lines && k.got == k.lines then
    (s.updCar core fun k => { k with active := false }).popQueue core 2
  else s

/-- The W-region access of a DMA slot, if the Carousel has one ready (R513); true: it took the slot. -/
def State.serveCarousel (s : State) (t : Task) (core : Nat) : State × Bool :=
  let k := (s.core core).carousel
  let succ := t.successor core
  let rd := k.active && decide (k.sent < k.lines) && decide ((s.core succ).carousel.inbox.length < carouselPlaces)
  let inc := k.inbox.find? fun e => e.1 == k.step
  let wr := k.active && inc.isSome
  if rd && (!wr || !k.lastRead) then
    let a := 256 * (k.src + k.sent)
    match s.dmaTouch core a false with
    | (false, s) => (s.carouselFault t core .cmBankOff a (bankAt a), true)
    | (true, s) =>
      let v := s.rdLine (cmBase core + a)
      let s := (s.updCar core fun c => { c with sent := c.sent + 1, lastRead := true }).perf core 0x0A 1
      ((s.updCar succ fun c => { c with inbox := c.inbox ++ [(k.step, k.lines, k.sent, v.1, v.2)] }).carouselEnd core, true)
  else match wr, inc with
    | true, some (st, n, off, d, p) =>
      let a := 256 * (k.dst + off)
      if n ≠ k.lines then (s.carouselFault t core .undefOperand 0 0, true)
      else match s.dmaTouch core a true with
        | (false, s) => (s.carouselFault t core .cmBankOff a (bankAt a), true)
        | (true, s) =>
          let s := s.updCar core fun c => { c with
            got := c.got + 1, lastRead := false, inbox := c.inbox.erase (st, n, off, d, p) }
          ((s.wrLine (cmBase core + a) d p).carouselEnd core, true)
    | _, _ => (s, false)

/-! ## A DMA slot (R242, R482) -/

/-- One access of the DMA-in port in a region: the Carousel in W, then inbound requests, then the core's transfers. -/
def State.slotIn (s : State) (core : Nat) (g : Region) (host : List HostLine) : State × List HostLine :=
  let live := match s.taskOn core with
    | some t => if t.phase.live then some t else none
    | none => none
  let car := match live with
    | some t => if g = Region.w then s.serveCarousel t core else (s, false)
    | none => (s, false)
  if car.2 then (car.1, host) else
  let inb := car.1.serveInbound core g [] (car.1.core core).inbound
  if inb.2 then (inb.1, host) else
  match live with
  | some t => let r := inb.1.serveXfers g host (inb.1.issuedXfers core t); (r.s, r.host)
  | none => (inb.1, host)

/-- DMA_SLOT_ACCESS: one DMA slot of a core: one access in each CM region, and in each operand buffer while the MXE is
idle (R256). Host data for lines read from host memory comes with the command. -/
def execDmaSlotAccess (core : Nat) (host : List HostLine) (s : State) : Res :=
  let s := s.updCore core fun k => { k with accs := [] }
  .next ([Region.w, .a, .p, .ob 0, .ob 1, .ob 2].foldl (fun (r : State × List HostLine) g => r.1.slotIn core g r.2)
    (s, host)).1

/-! ## Completion (R496) -/

/-- The lines of a transfer that no DMA-in slot of its core moves: reads and writes outside the core's own memory. -/
def T.run (m : T) (id : Nat) : (fuel : Nat) → Mv → Mv
  | 0, r => r
  | n + 1, r =>
    if !r.s.taskLive m.t.id then r else
    match m.again r.s id with
    | none => r
    | some (m, x) =>
      let own := (r.s.writeRegion m.core m.t.stall x).isSome
      if !x.buf.isEmpty && !own then
        let w := m.write r.s x
        if w.2 then m.run id n ⟨w.1, r.host, true⟩ else ⟨w.1, r.host, r.moved⟩
      else if x.left ≠ 0 && x.readRegion.isNone && !own then
        let v := m.read r.s x r.host
        if v.moved then m.run id n v else ⟨v.s, v.host, r.moved⟩
      else r

/-- A transfer that has moved all its lines, with every remote write acknowledged, is complete; so is its stream when
that was its last (R496). -/
def State.finishXfer (s : State) (core q id : Nat) : State :=
  match s.findXfer core q id with
  | none => s
  | some (st, x) =>
    if x.left ≠ 0 || !x.buf.isEmpty || x.acks ≠ 0 then s
    else
      let s := match s.taskOn core with
        | some t => (⟨core, q, t, st, false⟩ : T).deadlines s x
        | none => s
      let l := (s.streamQ core q).map fun t => if t.id = st.id then { t with xfers := t.xfers.filter fun y => y.id != id } else t
      let s := match s.taskOn core with
        | some t => if l.any fun t => t.id == st.id && t.read == t.count && t.xfers.isEmpty && t.walk.isNone then
            s.traceTask 8 core q t else s
        | none => s
      s.setStreamQ core q (l.filter fun t => !(t.id == st.id && t.read == t.count && t.xfers.isEmpty && t.walk.isNone))

/-- DMA_TRANSFER_COMPLETE: what remains of an issued transfer outside the core's own memory is performed, and the
transfer, and its stream, complete when their last write is. -/
def execDmaTransferComplete (core id : Nat) (host : List HostLine) (s : State) : Res :=
  .next (match s.taskOn core with
    | none => s
    | some t =>
      if !t.phase.live then s else
      match (s.issuedXfers core t).find? fun e => e.2 == id with
      | none => s
      | some (m, _) =>
        match m.again s id with
        | none => s
        | some (m, x) =>
          ((m.run id (2 * (x.left / 64 + x.buf.length)) ⟨s, host, false⟩).s).finishXfer core m.q id)

/-! ## MSET and MCOPY (R297 to R302, R485) -/

/-- Region class of a line of an MSET or MCOPY: local CM (false) or the Paddock (true), in the stall's windows. -/
def State.mopLine (s : State) (st a : Nat) : Option Bool :=
  match s.place st a true with
  | some (.local_ b) => if (regionOf b).isCm then some false else none
  | some (.paddock _) => some true
  | _ => none

/-- Every line of n from a lies in one of the two, the same for all. -/
def State.mopRange (s : State) (st n : Nat) (a : Word) : Option Bool :=
  if 2 ^ 48 ≤ a.toNat + 256 * n then none
  else match s.mopLine st a.toNat with
    | none => none
    | some k => if (List.range n).all fun j => s.mopLine st (a.toNat + 256 * j) == some k then some k else none

/-- The first rule that an MSET (`src` none) or MCOPY breaks (R485). -/
def E.mopCheck (e : E) (s : State) (n : Nat) (src : Option Word) : Option (FaultCode × Nat) :=
  let dst := e.o.ga
  let mode := fld e.o.word 0 2
  if n = 0 || 131072 < n || mode = 3 then some (.undefOperand, 0)
  else if dst.toNat % 256 ≠ 0 then some (.misalignedAccess, dst.toNat)
  else if (src.getD 0).toNat % 256 ≠ 0 then some (.misalignedAccess, (src.getD 0).toNat)
  else match s.mopRange e.t.stall n dst with
    | none => some (.windowViolation, dst.toNat)
    | some k =>
      match src with
      | some a =>
        if s.mopRange e.t.stall n a ≠ some k then some (.windowViolation, a.toNat)
        else if a.toNat < dst.toNat + 256 * n && dst.toNat < a.toNat + 256 * n then some (.mopOverlap, dst.toNat)
        else tags k mode n dst.toNat
      | none => tags k mode n dst.toNat
where
  /-- A TAGMODE other than 0 needs tags on every destination line (R302). -/
  tags (k : Bool) (mode n dst : Nat) : Option (FaultCode × Nat) :=
    if mode = 0 || k then none
    else match (List.range n).find? fun j => regionOf (dst + 256 * j) != .a with
      | some j => some (.tagNoSlot, dst + 256 * j)
      | none => none

/-- Key of a line of an MSET or MCOPY once checked, its DMA-in access made. -/
def E.mopKey (e : E) (s : State) (a : Nat) (write : Bool) : Option (Nat × State) :=
  match s.place e.t.stall a write with
  | some (.local_ b) => match s.dmaTouch e.core b write with
    | (true, s) => some (cmBase e.core + b, s)
    | (false, _) => none
  | some (.paddock o) => some (pdBase + o, s.pdSettle o)
  | _ => none

/-- Lines `done` to n − 1 in ascending order, each visible when written (R301, R302). -/
def E.mopFrom (e : E) (src : Option Word) : (fuel j : Nat) → State → State
  | 0, _, s => e.over s
  | f + 1, j, s =>
    let mode := fld e.o.word 0 2
    let d := e.o.ga.toNat + 256 * j
    let read : Option (Line256 × Word32 × State) := match src with
      | none => some ((List.range 32).foldl (fun v i => v ||| (e.o.gc.setWidth 2048 <<< (64 * i))) 0,
          if e.o.gcp then BitVec.allOnes 32 else 0, s)
      | some a => (e.mopKey s (a.toNat + 256 * j) false).map fun k => let v := k.2.rdLine k.1; (v.1, v.2, k.2)
    match read with
    | none => e.fault s .cmBankOff ((src.getD 0).toNat + 256 * j) (bankAt ((src.getD 0).toNat + 256 * j))
    | some (v, p, s) =>
      match e.mopKey s d true with
      | none => e.fault s .cmBankOff d (bankAt d)
      | some (key, s) =>
        if mode = 1 && s.tagAt key then e.block s j
        else
          let t := s.wrLine key v p
          let t := if mode = 1 then t.putTag key true else if mode = 2 then t.putTag key false else t
          e.mopFrom src f (j + 1) t

/-- MSET or MCOPY of n lines; one that was held by a tag goes on where it stood. -/
def E.runMop (e : E) (n : Nat) (src : Option Word) (s : State) : State :=
  if e.o.since.isSome then e.mopFrom src (n - e.o.done) e.o.done s
  else match e.mopCheck s n src with
    | some (c, a) => e.fault s c a
    | none => if outstandingMax ≤ s.outstanding e.core then s else e.mopFrom src n 0 s

/-- Line count and source of each. -/
def E.runMset (e : E) (s : State) : State := e.runMop e.o.gb.toNat none s
def E.runMcopy (e : E) (s : State) : State := e.runMop e.o.gc.toNat (some e.o.gb) s

/-- MSET (R297, R485). -/
def execMset (core : Nat) (s : State) : Res := .next (engineOp core 2 .mset false (fun e s => e.runMset s) s)
/-- MCOPY (R297, R485). -/
def execMcopy (core : Nat) (s : State) : Res := .next (engineOp core 2 .mcopy false (fun e s => e.runMcopy s) s)

/-! ## Tag waits (R281, R284, R285) -/

/-- The blocked head of an engine queue tries its line again. -/
def E.retry (e : E) (s : State) : State :=
  match decodeOp e.o.word with
  | some .mxLda => e.runMxLd 0 s
  | some .mxLdb => e.runMxLd 1 s
  | some .mxLdc => e.runMxLd 2 s
  | some .mxDrain => e.runDrain s
  | some .vldC => e.runVld true true s
  | some .vldP => e.runVld true false s
  | some .vstF => e.runVst true s
  | some .mset => e.runMset s
  | some .mcopy => e.runMcopy s
  | _ => s

/-- TAG_RETRY: a blocked context (unit 0) becomes ready and its instruction is issued again; the blocked access of an
engine (1 MXE, 2 VXE, 3 DMA) is attempted again (R281). A pop of an own ring becomes ready when its turn and its slot
have come (R291). -/
def execTagRetry (core unit ctx : Nat) (meet : Bool) (s : State) : Res :=
  .next (match s.taskOn core with
    | none => s
    | some t =>
      if !t.phase.live then s
      else if unit = 0 then
        let k := s.ctx core ctx
        if k.ret.isSome then s else
        match k.wait with
        | .tag .. => s.setCtx core ctx { k with wait := .ready }
        | .pop i _ =>
          if ringCore i = some core && s.firstPop i core ctx && s.tagAt (s.ringKey i (s.ringHead i)) then
            s.setCtx core ctx { k with wait := .ready }
          else s
        | _ => s
      else match (s.core core).queue (unit - 1) with
        | o :: _ => if o.since.isSome then (⟨core, unit - 1, o, t, meet⟩ : E).retry s else s
        | [] => s)

/-- The slot an engine's blocked head waits for. -/
def E.blockedAt (e : E) : Nat :=
  match decodeOp e.o.word with
  | some .vldC | some .vldP | some .vstF => e.lineAddr.toNat
  | _ => e.o.ga.toNat + 256 * e.o.done

/-- The slot a transfer waits for: that of its next write, else of its next read. -/
def T.blockedAt (m : T) (s : State) (x : Xfer) : Nat :=
  if x.buf.isEmpty then x.readAt
  else if x.dmode = 2 then match s.ringRef m.core m.t.stall x.ring with
    | .ring i => devAddr m.core (s.ringKey i ((x.idx.getD 0 + x.done) % 2 ^ 32))
    | _ => 0
  else x.dst

/-- TAG_TIMEOUT: a tagged access blocked past TAG_WAIT_LIMIT: a context's (unit 0), the head of an engine queue (1, 2,
3), or for the DMA engine its first blocked transfer (R284, R285). -/
def execTagTimeout (core unit ctx : Nat) (s : State) : Res :=
  .next (match s.taskOn core with
    | none => s
    | some t =>
      if !t.phase.live then s
      else if unit = 0 then s.ctxTagTimeout t core ctx
      else
        let tag := fun (s : State) (a : Nat) =>
          bit (((s.place t.stall a false).bind (Place.key core)).any fun key => s.tagAt key)
        let head := match (s.core core).queue (unit - 1) with
          | o :: _ => o.since.map fun b => (o, b)
          | [] => none
        match head with
        | some (o, b) =>
          let e : E := ⟨core, unit - 1, o, t, false⟩
          e.fault (s.notBefore (b + s.tagLimit t.stall)) .tagTimeout e.blockedAt (tag s e.blockedAt)
        | none =>
          if unit ≠ 3 then s else
          match (s.issuedXfers core t).findSome? fun e => (e.1.again s e.2).bind fun r => r.2.since.map fun b => (r, b) with
          | some ((m, x), b) =>
            m.fault (s.notBefore (b + s.tagLimit t.stall)) .tagTimeout (m.blockedAt s x) (tag s (m.blockedAt s x))
          | none => s)

end Sys2Proof.Machine
end

