-- ==== Sys2Proof/Machine/Rein.lean ====
section
/-! DEFINITION. The receive side of the Rein ports: flits, acknowledgement and replay (R645, R646), training and INIT
(R641, R647 to R649), credits (R655, R669 to R671), retrain and link-down (R668, R672); and remote operations at the
destination and at the source (R653, R657 to R666). -/

namespace Sys2Proof.Machine

open Sys2Proof

/-! ## Port status -/

/-- STATE values of REIN_PORT_STAT. -/
def psTraining : Nat := 1
def psInit : Nat := 2
def psUp : Nat := 3
def psRetrain : Nat := 4
def psDown : Nat := 5

/-- Set REIN_PORT_STAT.STATE. -/
def State.setPortState (s : State) (p v : Nat) : State := s.setF .reinPortStat p 0 3 v

/-- Slots of VC v in the receive buffer of a port (REIN_PORT_CRED). -/
def State.vcSize (s : State) (p v : Nat) : Nat :=
  if v % 2 = 0 then s.f .reinPortCred0 p (16 * (v / 2)) 13 else s.f .reinPortCred1 p (16 * (v / 2)) 13

/-- Header and port of remote fills on their way into core memory or the Paddock. -/
def State.fillsInside (s : State) : List (Nat × Word) :=
  (s.cx.cores.flatMap fun c => c.2.inbound.filterMap fun r => match r.kind with
    | .fill _ _ _ _ rem _ => rem
    | _ => none)
  ++ (s.cx.pd.queues ++ s.cx.pd.held ++ (s.cx.pd.parked.map fun e => (e.1, e.2.map Prod.fst))
      ++ (s.cx.pd.returned.map fun e => (e.1, e.2.map Prod.fst))).flatMap fun e => e.2.filterMap fun r => match r.op with
    | .ringFill _ _ _ _ _ rem => rem
    | _ => none

/-- Slots of VC v that packets hold in a port's receive buffer: waiting, partly received, being forwarded, or fills
not yet performed (R655). -/
def State.vcUsed (s : State) (p v : Nat) : Nat :=
  let q := s.port p
  let sum := fun (l : List Nat) => l.foldl (· + ·) 0
  sum ((q.rx.filter fun k => k.vc == v).map Packet.size)
    + (match q.part with | some k => if k.vc = v then 1 + k.slots.length else 0 | none => 0)
    + sum ((s.cx.rein.ports.flatMap fun e => e.2.tx.filter fun k => k.held == some (p, v)).map Packet.size)
    + sum ((s.fillsInside.filter fun e => e.1 == p && 2 * hCls e.2 + hDl e.2 == v).map fun e => 1 + hDslots e.2)

/-- Free slots of VC v. -/
def State.vcFree (s : State) (p v : Nat) : Nat := s.vcSize p v - s.vcUsed p v

/-! ## Messages (R647) -/

/-- Send INIT. -/
def State.sendInit (s : State) (p : Nat) : State :=
  let q := s.port p
  (s.sendOther p 3 ([1, s.chipId, s.f .reinPortCtl p 1 2, s.f .reinPortCtl p 3 1, bit q.fresh, 1, q.rxSeq]
    ++ (List.range 6).map fun v => s.vcFree p v)).updPort p fun q => { q with initAt := s.now }

/-- Send CRED_SYNC, measured now (R670). -/
def State.sendCredSync (s : State) (p : Nat) : State :=
  let q := s.port p
  (s.sendOther p 3 [2, q.rxSeq, s.vcFree p 0, s.vcFree p 1, bit q.epoch]).updPort p fun q => { q with syncAt := some s.now }

/-! ## Acknowledgement, credits, replay (R645, R646) -/

/-- An ACK frees the replay buffer up to and including its flit (R646). -/
def State.takeAck (s : State) (p ack : Nat) : State :=
  let q := s.port p
  if q.replay.any fun e => e.1 == ack then
    s.setPort p { q with replay := (q.replay.dropWhile fun e => e.1 != ack).tail, ackAt := s.now, tries := 0 }
  else s

/-- Credit fields are cumulative; those of the ORD VCs count only in the adopted epoch (R643, R655, R671). -/
def State.takeCredits (s : State) (p : Nat) (creds : List Nat) (cepoch : Bool) : State :=
  s.updPort p fun q =>
    (List.range 6).foldl (fun q v =>
      if v < 2 && cepoch != q.adopted then q
      else { q with credit := bump q.credit v (fun c => c + (8192 + nth creds v - nth q.base v) % 8192)
                    base := bump q.base v fun _ => nth creds v }) q

/-- The link field of an accepted flit (R643, R646). -/
def State.takeLink (s : State) (p : Nat) (f : Flit) : State := ((s.takeAck p f.ack).takeCredits p f.creds f.cepoch).pump p

/-- Every unacknowledged DATA flit is sent again, in order (R646). -/
def State.resend (s : State) (p : Nat) : State :=
  let l := (s.port p).replay
  (l.foldl (fun s e => s.sendData p e.1 e.2.2.2) s).addF .reinPortErr p 0 24 l.length

/-- A retrain begins: the link-layer state is kept (R668). -/
def State.retrain (s : State) (p : Nat) : State :=
  (s.setPortState p psRetrain).updPort p fun q => { q with since := s.now, initOk := false, l0 := false }

/-- A replay; after 4 without an advance of ACK the link retrains (R646). -/
def State.replayNow (s : State) (p : Nat) : State :=
  let s := (s.resend p).updPort p fun q => { q with tries := q.tries + 1, ackAt := s.now }
  if 4 ≤ (s.port p).tries then s.retrain p else s

/-- A flit that fails its CRC is discarded and answered with NAK (R645). -/
def State.badFlit (s : State) (p : Nat) : State := (s.addF .reinPortErr p 24 16 1).sendOther p 2 []

/-! ## Releases (R666, R672) -/

/-- Remote sources for which a test holds lose their waiting reservations, and their unfilled slots are poisoned. -/
def State.releaseRemote (s : State) (p : Nat → Bool) : State :=
  let from_ := fun (w : RWait) => match w.who with
    | .remote _ h => p (remoteKey h)
    | _ => false
  let drop := s.cx.rings.map fun e => (e.1, { e.2 with waiters := e.2.waiters.filter fun w => !from_ w })
  let s := { s with cx := { s.cx with rings := drop } }
  s.cx.rings.foldl (fun s e => (e.2.credits.filter fun c => c.2.1.isNone && p c.2.2).foldl
    (fun s c => s.poisonFill e.1 c.1) s) s

/-! ## Faults of tagged packets (R653, R659, R664) -/

/-- The ring reference as the task named it. -/
def Tagged.ringName (g : Tagged) : Nat := (g.w1.toNat % 2 ^ 21) + 2 ^ 20 + g.chip * 2 ^ 16

/-- A class C fault in the task of a tagged packet. -/
def Tagged.fault (g : Tagged) (s : State) (c : FaultCode) (detail : Nat) : State :=
  match g.task with
  | none => s
  | some id =>
    let ofX := fun (core q x : Nat) => match s.findXfer core q x with
      | some (st, _) => s.taskFault id c 3 core (some st.ctx) st.pc st.word 0 detail
      | none => s.taskFault id c 3 core none 0 0 0 detail
    match g.what with
    | .read core q x _ => ofX core q x
    | .resv (.xfer core q x) _ _ => ofX core q x
    | .resv (.ctx core ctx) _ _ =>
      s.taskFault id c 0 core (some ctx) (s.ctx core ctx).pc (s.fetch core (s.ctx core ctx).pc) 0 detail
    | .fill (some (core, q, x)) => ofX core q x
    | _ => s.taskFault id c 0 g.unit none 0 0 0 detail

/-- What a STATUS other than OK and BUSY does at the source (R653). -/
def Tagged.refused (g : Tagged) (s : State) (status : Nat) : State :=
  match status with
  | 3 => g.fault s .noCredit 0
  | 4 => g.fault s .ringDisabled g.ringName
  | 6 => g.fault s .reinRefused g.chip
  | _ => g.fault s .windowViolation 0

/-! ## Link down (R672) -/

/-- The link-down actions of a port, with their cause. -/
def State.linkDown (s : State) (p cause : Nat) : State :=
  let s := (s.setPortState p psDown).setF .reinPortStat p 8 4 cause
  let s := s.updPort p fun q => { q with replay := [], part := none, fresh := true, initOk := false, l0 := false, syncAt := none }
  let through := fun (c : Nat) => s.route c == some p
  let out := s.cx.rein.tagged.filter fun g => through g.chip
  let s := s.setTagged (s.cx.rein.tagged.filter fun g => !through g.chip)
  let s := out.foldl (fun s g => g.fault s .reinDown g.chip) s
  let s := s.releaseRemote fun k => through (k / 2 ^ 8)
  let s := s.advise .reinLinkDown 4 (p + cause * 2 ^ 8)
  if s.f .reinPortCtl p 0 1 = 0 || (decide (2 ≤ cause) && decide (cause ≤ 5)) then s
  else (s.setPortState p psTraining).updPort p fun q => { q with since := s.now }

/-! ## DATA flits (R642, R645, R650 to R652) -/

/-- TYPE, CLS, DSLOTS, TAG and zero bits that R651 and R652 permit. -/
def headerOk (w0 w1 : Word) : Bool :=
  let d := hDslots w0
  let shape := fun (cls : Nat) (slots : Bool) (tag : Bool) (idx : Bool) (top : Bool) =>
    hCls w0 == cls && slots && (tag || hTag w0 == 0) && (idx || hIdx w0 == 0) && top
  fld w0 7 1 == 0 && fld w0 37 3 == 0 &&
  match hType w0 with
  | 0x1 => shape 0 (d == if bitAt w1 57 then 1 else 16) true false (fld w1 58 6 == 0)
  | 0x2 => shape 0 (d == 0) false true true
  | 0x3 => shape 0 (d == 0) false true true
  | 0x4 => shape 0 (d == 0) false false (w1 == 0)
  | 0x5 => shape 1 (d == 0) true false (fld w1 51 13 == 0 && decide (1 ≤ fld w1 48 3) && decide (fld w1 48 3 ≤ 4))
  | 0x6 => shape 1 (d == 0) true false (fld w1 25 39 == 0)
  | 0x8 => shape 2 (d % 4 == 0 && decide (4 ≤ d) && decide (d ≤ 16)) true false (fld w1 8 56 == 0)
  | 0x9 => shape 2 (d == 0) true false (fld w1 8 24 == 0)
  | 0xA => shape 2 (d == 0) true false (fld w1 8 56 == 0)
  | _ => false

/-- One slot of an accepted DATA flit; none: the layout of R650 is broken. -/
def takeSlot (q : ReinPort) (sop psn : Bool) (v : Slot) : Option ReinPort :=
  let done := fun (k : Packet) => if k.slots.length = hDslots k.w0 then { q with part := none, rx := q.rx ++ [k] }
    else { q with part := some k }
  match q.part with
  | some k => if sop then none else some (done { k with slots := k.slots ++ [(v, psn)] })
  | none =>
    if sop then
      let w0 : Word := v.setWidth 64
      let w1 : Word := (v >>> 64).setWidth 64
      if headerOk w0 w1 && !psn then some (done ⟨w0, w1, [], none⟩) else none
    else if v = 0 && !psn then some q else none

/-- The slots of a flit, in order. -/
def takeSlots (f : Flit) : List (Slot × Nat) → ReinPort → Option ReinPort
  | [], q => some q
  | (v, i) :: t, q => match takeSlot q (f.sop.testBit i) (f.psn.testBit i) v with
    | some q => takeSlots f t q
    | none => none

/-- DATA_FLIT: accepted in FSEQ order, or discarded with or without a NAK (R645); a broken layout takes the link down
with cause PROTOCOL (R650). -/
def execDataFlit (port : Nat) (crcOk : Bool) (f : Flit) (s : State) : Res :=
  .next (if !s.portUp port then s
    else if !crcOk then s.badFlit port
    else
      let q := s.port port
      let ahead := (f.fseq + 4096 - q.rxSeq) % 4096
      if ahead = 1 then
        match takeSlots f (f.slots.take 14).zipIdx q with
        | some q => (s.setPort port { q with rxSeq := f.fseq }).takeLink port f
        | none => s.linkDown port 9
      else if ahead = 0 || 2048 ≤ ahead then s
      else s.sendOther port 2 [])

/-- IDLE_FLIT: acknowledgement and credits only (R643, R645). -/
def execIdleFlit (port : Nat) (crcOk : Bool) (f : Flit) (s : State) : Res :=
  .next (if !s.portUp port then s else if crcOk then s.takeLink port f else s.badFlit port)

/-- NAK: every DATA flit after its ACK is sent again (R646). -/
def execNak (port : Nat) (crcOk : Bool) (f : Flit) (s : State) : Res :=
  .next (if !s.portUp port then s
    else if !crcOk then s.badFlit port
    else (s.takeLink port f).replayNow port)

/-- REPLAY_TIMEOUT: 2 µs without an advance of ACK (R646). -/
def execReplayTimeout (port : Nat) (s : State) : Res :=
  let q := s.port port
  .next (if !s.portUp port || q.replay.isEmpty then s else (s.notBefore (q.ackAt + 2000)).replayNow port)

/-! ## Training (R641, R648, R649) -/

/-- REIN_PORT_L0: the PHY reaches L0 and the port starts sending INIT. -/
def execReinPortL0 (port : Nat) (s : State) : Res :=
  let st := s.portState port
  .next (if st = psTraining || (st = psRetrain && !(s.port port).l0) then
      ((if st = psTraining then s.setPortState port psInit else s).updPort port fun q =>
        { q with l0 := true, initOk := false }).sendInit port
    else s)

/-- REIN_TRAIN_TIMEOUT: not at L0 within 100 ms, training begins again (R641). -/
def execReinTrainTimeout (port : Nat) (s : State) : Res :=
  .next (if s.portState port = psTraining then
      let t := s.notBefore ((s.port port).since + 100000000)
      t.updPort port fun q => { q with since := t.now }
    else s)

/-- INIT_RESEND: every 1 µs until a valid INIT has come (R648). -/
def execInitResend (port : Nat) (s : State) : Res :=
  let q := s.port port
  .next (if (s.portState port = psInit || s.portState port = psRetrain) && q.l0 && !q.initOk then
      (s.notBefore (q.initAt + 1000)).sendInit port
    else s)

/-- The first check that a received INIT fails (R648). -/
def State.initCheck (s : State) (p chip topo rev : Nat) (dateline : Bool) : Option Nat :=
  if rev ≠ 1 then some 5
  else if chip = s.chipId then some 2
  else if topo ≠ s.f .reinPortCtl p 1 2 then some 3
  else if bit dateline ≠ s.f .reinPortCtl p 3 1 then some 4
  else none

/-- Credits advertised by an INIT, less the slots of the flits that are sent again (R649). -/
def initCredit (replay : List (Nat × Nat × Nat × List Nat)) (free : List Nat) : List Nat :=
  (List.range 6).map fun v => replay.foldl (fun c e => if e.2.1 = v then c - e.2.2.1 else c) (nth free v)

/-- INIT: checked; the port becomes UP, or is held down with the cause and a DOWN message. A port that holds link-layer
state and receives FRESH = 1 goes down first; a repeated INIT of a link that has carried nothing changes nothing. -/
def execInit (port chip topo : Nat) (dateline fresh : Bool) (rev ack : Nat) (free : List Nat) (s : State) : Res :=
  let st := s.portState port
  let q := s.port port
  .next (
    if !(st = psInit || st = psUp || (st = psRetrain && q.l0)) then s else
    let s := (s.setF .reinPortStat port 3 1 1).setF .reinPortStat port 4 4 chip
    match s.initCheck port chip topo rev dateline with
    | some c => (s.linkDown port c).sendOther port 3 [4, c]
    | none =>
      if st = psUp then
        if fresh && !(q.rxSeq == 0 && q.txSeq == 1) then s.linkDown port 1 else s
      else if fresh then
        if !q.fresh then s.linkDown port 1
        else
          ((s.setPortState port psUp).setPort port { q with
            fresh := false, txSeq := 1, rxSeq := 0, replay := [], credit := free, base := [0, 0, 0, 0, 0, 0]
            freed := [0, 0, 0, 0, 0, 0], skip := [0, 0, 0, 0, 0, 0], initOk := true, epoch := false, adopted := false
            syncAt := none, ackAt := s.now, tries := 0 }).pump port
      else if q.fresh then s
      else
        let held := fun v => s.vcUsed port v
        let s := s.takeAck port ack
        let s := s.updPort port fun q => { q with
          credit := initCredit q.replay free, base := [0, 0, 0, 0, 0, 0], freed := [0, 0, 0, 0, 0, 0]
          skip := [held 0, held 1, 0, 0, 0, 0], initOk := true, ackAt := s.now, tries := 0 }
        let s := (s.setPortState port psUp).setF .reinPortStat port 32 13 (held 0 + held 1)
        ((s.addF .reinPortStat port 16 16 1).resend port).pump port)

/-- DOWN: the peer takes the port down (R672). -/
def execDown (port : Nat) (s : State) : Res :=
  .next (if s.portState port = 0 || s.portState port = psDown then s else s.linkDown port 8)

/-- REIN_DOWN_LIMIT: a retrain that did not complete in time (R668). -/
def execReinDownLimit (port : Nat) (s : State) : Res :=
  .next (if s.portState port = psRetrain then
      (s.notBefore ((s.port port).since + 1000000 * max 1 (s.f .reinLimits 0 16 16))).linkDown port 6
    else s)

/-- REIN_LINK_DOWN: the link is lost with a cause of REIN_PORT_STAT.DOWN_CAUSE (R672). -/
def execReinLinkDown (port cause : Nat) (s : State) : Res :=
  .next (if s.portState port = 0 || s.portState port = psDown then s else s.linkDown port cause)

/-! ## Credit rebuild (R670, R671) -/

/-- A rebuild starts: the epoch is inverted, and the ORD credit fields count from zero. -/
def State.credRebuild (s : State) (p : Nat) : State :=
  if !s.portUp p then s
  else
    ((s.updPort p fun q => { q with
        epoch := !q.epoch, freed := bump (bump q.freed 0 fun _ => 0) 1 fun _ => 0
        skip := bump (bump q.skip 0 fun _ => 0) 1 fun _ => 0 }).sendCredSync p).setF .reinPortStat p 12 1 1

/-- CRED_SYNC: the transmitter adopts the epoch and the measured free counts, and answers (R671). -/
def execCredSync (port fseq free0 free1 : Nat) (epoch : Bool) (s : State) : Res :=
  .next (if !s.portUp port then s
    else
      let after := fun (e : Nat × Nat × Nat × List Nat) => decide (1 ≤ (e.1 + 4096 - fseq) % 4096)
        && decide ((e.1 + 4096 - fseq) % 4096 < 2048)
      let left := fun (q : ReinPort) (v free : Nat) =>
        (q.replay.filter after).foldl (fun c e => if e.2.1 = v then c - e.2.2.1 else c) free
      ((s.updPort port fun q => { q with
          adopted := epoch, credit := bump (bump q.credit 0 fun _ => left q 0 free0) 1 fun _ => left q 1 free1
          base := bump (bump q.base 0 fun _ => 0) 1 fun _ => 0 }).sendOther port 3 [3, bit epoch]).pump port)

/-- SYNC_ACK: the rebuild ends (R670, R671). -/
def execSyncAck (port : Nat) (epoch : Bool) (s : State) : Res :=
  let q := s.port port
  .next (if q.syncAt.isSome && q.epoch == epoch then
      ((s.setPort port { q with syncAt := none }).setF .reinPortStat port 12 1 0).setF .reinPortStat port 32 13 0
    else s)

/-- CRED_SYNC_RESEND: every 10 µs until SYNC_ACK (R670). -/
def execCredSyncResend (port : Nat) (s : State) : Res :=
  .next (match (s.port port).syncAt with
    | some t => if s.portUp port then (s.notBefore (t + 10000)).sendCredSync port else s
    | none => s)

/-! ## Packets received -/

/-- The first packet of a port that satisfies a test, with none before it in its VC. -/
def ReinPort.next? (q : ReinPort) (p : Packet → Bool) : Option (Nat × Packet) :=
  (q.rx.zipIdx.find? fun e => p e.1 && (q.rx.take e.2).all fun o => o.vc != e.1.vc).map fun e => (e.2, e.1)

/-- The packet leaves the receive buffer's order, its slots still held. -/
def State.takeRx (s : State) (p i : Nat) : State := s.updPort p fun q => { q with rx := q.rx.eraseIdx i }

/-- It is performed: its slots are free. -/
def State.doneRx (s : State) (p i : Nat) (k : Packet) : State := (s.takeRx p i).freeSlots p k.vc k.size

/-- The next packet of a TYPE for this chip. -/
def State.nextOf (s : State) (p typ : Nat) : Option (Nat × Packet) :=
  (s.port p).next? fun k => hType k.w0 == typ && hDst k.w0 == s.chipId

/-- PACKET_FORWARD: a packet for another chip leaves by the port routed for its DST, or is discarded as misrouted
(R657). -/
def execPacketForward (port : Nat) (s : State) : Res :=
  .next (match (s.port port).next? fun k => hDst k.w0 != s.chipId with
    | none => s
    | some (i, k) =>
      match s.route (hDst k.w0) with
      | some r =>
        if r = port then (s.doneRx port i k).addF .reinPortErr port 40 12 1
        else (s.takeRx port i).sendVia r { k with held := some (port, k.vc) }
      | none => (s.doneRx port i k).addF .reinPortErr port 40 12 1)

/-- The bound stall of a packet (R660): its binding is valid and names a valid stall. -/
def State.bound (s : State) (w0 : Word) : Option Nat :=
  let st := s.f .reinBind0 (hSrc w0) (4 * hStall w0) 4
  if bitAt (s.reg .reinBind1 (hSrc w0)) (hStall w0) && s.stallValid st then some st else none

/-- Resolve a remote ring reference for a bound stall: the ring, or the STATUS that refuses it (R653, R660). -/
def State.remoteRing (s : State) (w0 w1 : Word) : Except Nat Nat :=
  match s.bound w0 with
  | none => .error 1
  | some st =>
    let v : Word := w1 &&& 0x1FFFFF
    if bitAt v 14 || bitAt v 20 then .error 2
    else match s.ringRef 0 st v with
      | .ring i =>
        if i < pringBase && !s.stage.fences.isEmpty then .error 6
        else if s.ringOn i then .ok i else .error 4
      | _ => .error 2

/-- Data and poison of a fill: poison extends to every 64-byte unit that contains a poisoned slot (R654). -/
def fillData (k : Packet) : Line256 × Word32 × Word32 :=
  if bitAt k.w1 57 then
    let w := fld k.w1 53 4
    let v := (k.slots.headD (0, false))
    oneWord w (v.1.setWidth 64) v.2
  else
    (k.slots.zipIdx.foldl (fun (d : Line256) (e : (Slot × Bool) × Nat) => d ||| (e.1.1.setWidth 2048 <<< (128 * e.2))) 0,
     k.slots.zipIdx.foldl (fun (m : Word32) (e : (Slot × Bool) × Nat) => if e.1.2 then m ||| (0xFF <<< (8 * (e.2 / 4))) else m) 0,
     BitVec.allOnes 32)

/-- RFILL: the fill goes to its ring's slot, and WACK answers it once performed or refused (R653, R663). -/
def execRfill (port : Nat) (s : State) : Res :=
  .next (match s.nextOf port tRfill with
    | none => s
    | some (i, k) =>
      let s := s.takeRx port i
      let rem := some (port, k.w0)
      let idx := fld k.w1 21 32
      match s.remoteRing k.w0 k.w1 with
      | .error c => s.wackFill rem c
      | .ok r =>
        if !s.holdsCredit r idx none (remoteKey k.w0) then s.wackFill rem 3
        else
          let d := fillData k
          match ringCore r with
          | some c => s.inject c ⟨r, .fill idx d.1 d.2.1 d.2.2 rem none, none⟩
          | none =>
            s.pdSend { off := s.ringAddr r idx, op := .ringFill r idx d.1 d.2.1 d.2.2 rem, core := 0, ctx := 8
                       task := none, arrival := s.now, index := 0, since := none })

/-- Fills of a source unit not yet performed (R665). -/
def State.fillsOf (s : State) (w0 : Word) : Bool := s.fillsInside.any fun e => remoteKey e.2 == remoteKey w0

/-- A task identifier that no task has: a remote operation belongs to none of this chip's. -/
def noTask : Nat := 2 ^ 32

/-- A hitch write or add of another chip is performed at its bank, or discarded and recorded (R472, R660, R665). -/
def State.remoteHitch (s : State) (w0 w1 : Word) (add : Bool) : State :=
  let refuse := s.advise .remoteRefused 4 (hSrc w0 + hStall w0 * 2 ^ 4) (hIdx w0)
  match s.bound w0 with
  | none => refuse
  | some st =>
    let h := (s.active.hitch st).1 + hIdx w0
    if hIdx w0 < (s.active.hitch st).2 && s.inView (fun t => t.inRange Copy.hitch st h) then
      let b := hitchBank h
      s.setHitchQueue b (s.hitchQueue b ++ [⟨h, if add then .add w1 false else .write w1, 0, 4, 8, noTask, 0, 0⟩])
    else refuse

/-- An ORD packet without data is performed: a hitch write, a hitch add or a release. -/
def State.ordDo (s : State) (k : Packet) : State :=
  match hType k.w0 with
  | 0x2 => s.remoteHitch k.w0 k.w1 false
  | 0x3 => s.remoteHitch k.w0 k.w1 true
  | _ => s.releaseRemote fun n => n == remoteKey k.w0

/-- Entries of the ORD hold. -/
def holdPlaces : Nat := 64

/-- The next ORD packet of a TYPE: one in the ORD hold whose source's fills are done, else the first received, which is
performed or goes to the hold (R665). -/
def State.ordNext (s : State) (p typ : Nat) : State :=
  let q := s.port p
  let free := fun (i : Nat) (k : Packet) => !s.fillsOf k.w0
    && (q.hold.take i).all fun o => remoteKey o.w0 != remoteKey k.w0
  match q.hold.zipIdx.find? fun e => hType e.1.w0 == typ && free e.2 e.1 with
  | some (k, i) => (s.setPort p { q with hold := q.hold.eraseIdx i }).ordDo k
  | none =>
    match s.nextOf p typ with
    | none => s
    | some (i, k) =>
      if free q.hold.length k then (s.doneRx p i k).ordDo k
      else if q.hold.length < holdPlaces then (s.doneRx p i k).updPort p fun q => { q with hold := q.hold ++ [k] }
      else s

/-- REMOTE_HWR (R665). -/
def execRemoteHwr (port : Nat) (s : State) : Res := .next (s.ordNext port tHwr)
/-- REMOTE_HADD (R665). -/
def execRemoteHadd (port : Nat) (s : State) : Res := .next (s.ordNext port tHadd)
/-- RREL (R666). -/
def execRrel (port : Nat) (s : State) : Res := .next (s.ordNext port tRrel)

/-- 64-byte beats of a byte range as slots with their poison. -/
def State.beatSlots (s : State) (key beats : Nat) : List (Slot × Bool) :=
  (List.range (4 * beats)).map fun j =>
    (BitVec.ofNat 128 (s.rdNat (key + 16 * j) 16), s.poisonIn (key + 64 * (j / 4)) 64)

/-- RD: a read of DRAM or the Paddock for another chip, answered with RDATA (R653, R661). A shared line in the way
holds it in the receive buffer. -/
def execRd (port : Nat) (s : State) : Res :=
  .next (match s.nextOf port tRd with
    | none => s
    | some (i, k) =>
      let a := fld k.w1 0 48
      let beats := fld k.w1 48 3
      let n := 64 * beats
      let bad := fun (c : Nat) => (s.doneRx port i k).sendPacket (answer0 k.w0 tRdata (4 * beats)) (BitVec.ofNat 64 c)
        (List.replicate (4 * beats) (BitVec.allOnes 128, true))
      let ok := fun (s : State) (key : Nat) => (s.doneRx port i k).sendPacket (answer0 k.w0 tRdata (4 * beats)) 0
        (s.beatSlots key beats)
      match s.bound k.w0 with
      | none => bad 1
      | some st =>
        if a % 64 ≠ 0 then bad 2 else
        match s.place st a false, s.place st (a + n - 1) false with
        | some (.paddock o), some _ => ok (s.pdSettle o) (pdBase + o)
        | some (.dram p), some _ =>
          match s.devReady p n false (6 + port) with
          | (true, s) => ok s p
          | (false, s) => s
        | _, _ => bad 2)

/-- Entries of the remote reservation table (R662). -/
def remoteTable : Nat := 64

/-- Reservations of other chips that wait. -/
def State.remoteWaiting (s : State) : Nat :=
  s.cx.rings.foldl (fun n e => n + (e.2.waiters.filter fun w => match w.who with
    | .remote .. => true
    | _ => false).length) 0

/-- RRESV: placed in the remote reservation table, or answered at once with BUSY or a refusal (R653, R662). -/
def execRresv (port : Nat) (s : State) : Res :=
  .next (match s.nextOf port tRresv with
    | none => s
    | some (i, k) =>
      let s := s.doneRx port i k
      let n := fld k.w1 21 4 + 1
      let say := fun (s : State) (c first : Nat) => s.sendPacket (answer0 k.w0 tRgnt 0) (BitVec.ofNat 64 (c + first * 2 ^ 32)) []
      if remoteTable ≤ s.remoteWaiting then say s 5 0
      else match s.remoteRing k.w0 k.w1 with
        | .error c => say s c 0
        | .ok r =>
          if s.canGrant r n then
            let first := s.ringResv r
            say (s.grantCredits r n none (remoteKey k.w0)) 0 first
          else s.waitResv r n (.remote port k.w0) none)

/-! ## Responses at the source (R653) -/

/-- The record of a response's request; none: it comes late (R664). -/
def State.tagOf (s : State) (w0 : Word) : Option Tagged :=
  s.cx.rein.tagged.find? fun g => g.tag == hTag w0 && g.unit == hUnit w0 && g.chip == hSrc w0

/-- The record is done with. -/
def State.endTag (s : State) (g : Tagged) : State := s.setTagged (s.cx.rein.tagged.filter fun o => !(o.tag == g.tag && o.unit == g.unit))

/-- The next response of a TYPE: a late one is counted and discarded. -/
def State.response (s : State) (p typ : Nat) (go : Tagged → Packet → State → State) : State :=
  match s.nextOf p typ with
  | none => s
  | some (i, k) =>
    let s := s.doneRx p i k
    match s.tagOf k.w0 with
    | none => s.addF .reinPortErr p 52 12 1
    | some g => go g k (s.endTag g)

/-- RDATA: beats reach the transfer that asked for them (R653, R661). -/
def execRdata (port : Nat) (s : State) : Res :=
  .next (s.response port tRdata fun g k s =>
    let status := fld k.w1 0 8
    if status ≠ 0 then g.refused s status
    else match g.what with
      | .read core q x beat =>
        let beats := (List.range (k.slots.length / 4)).map fun j =>
          let l := (k.slots.drop (4 * j)).take 4
          (beat + j, l.zipIdx.foldl (fun (d : Line64) (e : (Slot × Bool) × Nat) => d ||| (e.1.1.setWidth 512 <<< (128 * e.2))) 0, l.any Prod.snd)
        s.updXfer core q x fun x => { x with got := x.got ++ beats }
      | _ => s)

/-- RGNT: a grant goes to its requester; BUSY is tried again; a grant that nothing waits for any more is given back as
poison (R499, R653, R662). -/
def execRgnt (port : Nat) (s : State) : Res :=
  .next (s.response port tRgnt fun g k s =>
    let status := fld k.w1 0 8
    let first := fld k.w1 32 32
    match g.what with
    | .resv who ring n =>
      if status = 5 then s.setTagged (s.cx.rein.tagged ++ [{ g with busy := true, sent := s.now }])
      else if status ≠ 0 then g.refused s status
      else match who with
        | .xfer core q x =>
          if (s.findXfer core q x).isSome then s.granted ⟨who, g.task, n, g.sent⟩ (farRing g.chip) first
          else
            let ones : Slot := BitVec.allOnes 128
            (List.range n).foldl (fun s j =>
              s.sendTagged core g.chip g.task (.fill none)
                (header0 tRfill 0 g.chip s.chipId core (hStall g.w0) 3 0 16 0 0)
                ((ring &&& 0xFFFF) ||| BitVec.ofNat 64 ((first + j) % 2 ^ 32 * 2 ^ 21)) (List.replicate 16 (ones, true))) s
        | _ => s.granted ⟨who, g.task, n, g.sent⟩ (farRing g.chip) first
    | _ => s)

/-- WACK: a remote write is performed at the source (R496, R663). -/
def execWack (port : Nat) (s : State) : Res :=
  .next (s.response port tWack fun g k s =>
    let status := fld k.w1 0 8
    if status ≠ 0 then g.refused s status
    else match g.what with
      | .fill (some (core, q, x)) => s.updXfer core q x fun x => { x with acks := x.acks - 1 }
      | _ => s)

/-- RRESV_RETRY: a BUSY reservation is sent again 1 µs later (R653). -/
def execRresvRetry (unit tag : Nat) (s : State) : Res :=
  .next (match s.cx.rein.tagged.find? fun g => g.unit == unit && g.tag == tag && g.busy with
    | none => s
    | some g =>
      let s := s.notBefore (g.sent + 1000)
      (s.setTagged (s.cx.rein.tagged.map fun o =>
        if o.unit = unit ∧ o.tag = tag then { o with busy := false, sent := s.now } else o)).sendPacket g.w0 g.w1 [])

/-- REIN_TIMEOUT: a tagged packet unanswered for longer than REQ_LIMIT (R664). -/
def execReinTimeout (unit tag : Nat) (s : State) : Res :=
  .next (match s.cx.rein.tagged.find? fun g => g.unit == unit && g.tag == tag && !g.busy with
    | none => s
    | some g =>
      let s := s.notBefore (g.sent + 1000 * max 1 (s.f .reinLimits 0 0 16))
      g.fault (s.endTag g) .reinTimeout (g.chip + g.tag * 2 ^ 16))

/-! ## Register writes -/

/-- What a write of REIN_PORT_CTL does beyond its fields and ENABLE: a rebuild or a retrain (R668, R670). -/
def State.reinPortAct (w : Written) (s : State) : State :=
  let s := if w.set 4 then s.credRebuild w.idx else s
  if w.set 5 && s.portUp w.idx then s.retrain w.idx else s

end Sys2Proof.Machine
end

