-- ==== Sys2Proof/Machine/Abort.lean ====
section
/-! DEFINITION. Clearing between tenants (R192, R260), the abort order (R687 to R691), the end of a task (R556), stall
resets (R196), compute fences (R22 to R25, R58, R680) and core resets (R697, R698). -/

namespace Sys2Proof.Machine

open Sys2Proof

/-- Every value of a table, changed. -/
def mapVals {α : Type} (f : α → α) (l : List (Nat × α)) : List (Nat × α) := l.map fun e => (e.1, f e.2)

/-! ## Clearing -/

/-- Memory of [base, base + n) at the local addresses that a test selects becomes zeros, without poison, EMPTY. -/
def State.clearWhere (s : State) (base n : Nat) (p : Nat → Bool) : State :=
  let keep := fun (a : Nat) => !(decide (base ≤ a) && decide (a < base + n) && p (a - base))
  { s with
    mem := Tbl.keep keep s.mem
    poison := s.poison.filter fun k => keep (8 * k)
    full := s.full.filter fun k => keep (256 * k) }

/-- Powered-down banks of a core, by CM_CFG.BANK_OFF (R259). -/
def State.bankOff (s : State) (core b : Nat) : Bool := bitAt (s.reg .cmCfg core) (32 + b)

/-- The banks of a core that a task had powered down are powered up, with zeros (R260). -/
def State.banksOn (s : State) (core : Nat) : State :=
  (s.clearWhere (cmBase core) 0x200000 fun a => s.bankOff core (bankAt a)).setF .cmCfg core 32 16 0

/-- The fault of a context that waits. -/
def State.ctxFault (s : State) (id core ctx : Nat) (c : FaultCode) (addr detail : Nat) : State :=
  let pc := (s.ctx core ctx).pc
  s.taskFault id c 0 core (some ctx) pc (s.fetch core pc) addr detail

/-- The ring reference that the instruction of a waiting context holds in rs1. -/
def State.ctxRef (s : State) (core ctx : Nat) : Nat :=
  let k := s.ctx core ctx
  (k.rg (iRs1 (s.fetch core k.pc))).1.toNat

/-- A waiting reservation of a ring ends with RING_DISABLED (R296, R653). -/
def State.endWaiter (s : State) (w : RWait) : State :=
  match w.who, w.task with
  | .ctx core x, some id => s.ctxFault id core x .ringDisabled 0 (s.ctxRef core x)
  | .xfer core q id, _ => match s.findXfer core q id with
    | some (st, x) => st.fault s core .ringDisabled 0 x.ring.toNat
    | none => s
  | .remote _ h, _ => s.sendPacket (answer0 h tRgnt 0) 4 []
  | _, _ => s

/-- Requests on their way to slots of a ring for pops go. -/
def State.dropRingPops (s : State) (i : Nat) : State :=
  match ringCore i with
  | some c => s.updCore c fun k => { k with inbound := k.inbound.filter fun r => !(r.ring == i && r.kind == .pop) }
  | none => s.removePd fun r => r.op == .pop i

/-- A ring is disabled: waiting reservations and pops end with RING_DISABLED, and its credits are void (R296). -/
def State.ringOff (s : State) (i : Nat) : State :=
  let r := s.ring i
  let s := ((s.setF .ringCtl i 0 1 0).dropRingPops i).setRing i Ring.idle
  let s := r.waiters.foldl (fun s w => s.endWaiter w) s
  r.pops.foldl (fun s p => s.ctxFault p.task p.core p.ctx .ringDisabled 0 (s.ctxRef p.core p.ctx)) s

/-- A ring is cleared: disabled, RESV = HEAD = 0 (R192). -/
def State.clearRing (s : State) (i : Nat) : State := (s.ringOff i).setReg .ringPtr i 0

/-- A core is cleared (R192, R342, R347, R516, R760). -/
def State.clearCore (s : State) (c : Nat) : State :=
  let s := (List.range 64).foldl (fun s r => s.clearRing (64 * c + r)) s
  let s := (s.clearOnChip (cmBase c) (2 ^ 24)).clearOnChip (isBase c) (2 ^ 16)
  let s := (List.range 8).foldl (fun s q =>
    ((s.setF .streamQCtl (8 * c + q) 0 1 0).setReg .streamQStat (8 * c + q) 0).setReg .streamCause (8 * c + q) 0) s
  let s := (List.range 4).foldl (fun s k => s.setReg .perfCnt (4 * c + k) 0) (s.setReg .perfSel c 0)
  (((s.setF .cmCfg c 32 16 0).setReg .cmEccCount c 0).setReg .streamOverlap c 0).setCore c ShuzoCore.idle

/-- A hitch is cleared (R192). -/
def State.clearHitch (s : State) (i : Nat) : State :=
  s.setHs { s.cx.hs with val := Tbl.erase i s.cx.hs.val, poison := KSet.del i s.cx.hs.poison }

/-- A barrier descriptor is cleared (R192): disabled, count zero. -/
def State.clearBarrier (s : State) (b : Nat) : State := s.setReg .barrierCtl b 0

/-- An SQ is cleared: disabled, pointers zero (R192). -/
def State.clearSq (s : State) (n : Nat) : State :=
  (((s.setF .sqCtl n 0 1 0).setReg .sqTail n 0).setReg .sqHead n 0).setSq n Sq.reset

/-- A CQ is cleared. -/
def State.clearCq (s : State) (n : Nat) : State :=
  (((s.setF .cqCtl n 0 1 0).setReg .cqTail n 0x10000).setReg .cqHead n 0).setCq n Cq.reset

/-- Result slots [k, k + n) are cleared: EMPTY, data zero. -/
def State.clearSlots (s : State) (k n : Nat) : State :=
  let s := { s with q := { s.q with slots := s.q.slots.filter fun e => decide (e.1 < k) || decide (k + n ≤ e.1) } }
  s.clearOnChip (rslotBase k) (64 * n)

/-- A harness-table entry is disabled and emptied (R567, section 9 of chapter 15). -/
def State.unloadHrn (s : State) (e : Nat) : State :=
  ((s.setF .hrnCtl e 0 1 0).setF .hrnCtl e 5 1 0).clearOnChip (hrnBase e) (2 ^ 17)

/-! ## The abort order (R688) -/

/-- A Paddock request that step 1 ends without effect: a tagged access or a pop. -/
def PdOp.waits : PdOp → Bool
  | .tagged .. | .fill .. | .pop _ => true
  | _ => false

/-- Pops of a task leave their rings' orders; the next pop of such a ring goes on. -/
def State.dropTaskPops (s : State) (id : Nat) : State :=
  s.cx.rings.foldl (fun s e =>
    let i := e.1
    let r := s.ring i
    let rest := r.pops.filter fun p => p.task != id
    if rest.length = r.pops.length then s
    else match ringCore i with
      | some c =>
        let far := (rest.filter fun p => p.core != c).length
        let s := (s.dropRingPops i).setRing i { r with pops := rest }
        (List.range far).foldl (fun s _ => s.inject c ⟨i, .pop, none⟩) s
      | none =>
        let s := (s.dropRingPops i).setRing i { r with pops := rest.map fun p => { p with sent := false } }
        s.startPop i) s

/-- Peeks of a task leave a core's inbound buffer. -/
def ShuzoCore.dropPeeks (id : Nat) (k : ShuzoCore) : ShuzoCore :=
  { k with inbound := k.inbound.filter fun r => match r.kind with
      | .peek _ _ t _ _ => t != id
      | _ => true }

/-- Step 1 on a core: nothing of the task goes on there; inbound fills, which others issued, stay. -/
def ShuzoCore.quiet (k : ShuzoCore) (id : Nat) : ShuzoCore :=
  { ShuzoCore.idle with
    task := k.task, last := k.last, intTiles := k.intTiles, lastQ := k.lastQ, lastPf := k.lastPf, nextId := k.nextId
    inbound := (k.dropPeeks id).inbound }

/-- The loads of a task that wait in the order stage lose their issuer. -/
def DReq.orphan (id : Nat) (r : DReq) : DReq :=
  match r.kind with
  | .dev sub w (some a) => if a.task = some id && !a.store then { r with kind := .dev sub w none } else r
  | _ => r

/-- The same for the queue of a line. -/
def Tracker.orphan (id : Nat) (k : Tracker) : Tracker := { k with queue := k.queue.map (DReq.orphan id) }

/-- Step 1: quiesce. -/
def State.quiesce (s : State) (t : Task) : State :=
  let id := t.id
  let s := t.team.foldl (fun s c => if (s.core c).task = some id then s.updCore c fun k => k.quiet id else s) s
  let s := { s with cx := { s.cx with cores := mapVals (ShuzoCore.dropPeeks id) s.cx.cores } }
  let s := t.team.foldl (fun s c => (List.range 8).foldl (fun s q => s.setF .streamQStat (sqIdx c q) 0 3 0) s) s
  let s := (s.dropTaskPops id).removePd fun r => r.task == some id && r.op.waits
  let s := s.setHs { s.cx.hs with ports := mapVals (fun l : List HReq => l.filter fun r => r.task != id) s.cx.hs.ports }
  let s := { s with dcoh := { s.dcoh with trackers := mapVals (Tracker.orphan id) s.dcoh.trackers } }
  (s.setTagged (s.cx.rein.tagged.filter fun g => g.task != some id)).settleStaged

/-- Step 2: held bursts of the task are ended. -/
def State.endTaskBursts (s : State) (id : Nat) : State := s.endBursts fun b => b.task == some id

/-- A Paddock accumulator-window entry loses a user (R312). -/
def State.dropAccw (s : State) (e : Nat) : State :=
  let n := s.f .pdAccw0 e 16 16
  if n ≤ 1 then (s.setReg .pdAccw0 e 0).setReg .pdAccw1 e 0 else s.setF .pdAccw0 e 16 16 (n - 1)

/-- A task no longer holds a sequence. -/
def KSeq.unhold (id : Nat) (k : KSeq) : KSeq := { k with holders := k.holders.filter (· != id) }

/-- A task's holds of sequences end (R595). -/
def State.dropHolds (s : State) (id : Nat) : State :=
  { s with kv := { s.kv with seqs := mapVals (KSeq.unhold id) s.kv.seqs } }

/-- A task's waiting reservations leave a ring. -/
def Ring.unwait (id : Nat) (r : Ring) : Ring := { r with waiters := r.waiters.filter fun w => w.task != some id }

/-- Step 3: credits, holds, windows and the frame. -/
def State.releaseHeld (s : State) (t : Task) : State :=
  let id := t.id
  let s := { s with cx := { s.cx with rings := mapVals (Ring.unwait id) s.cx.rings } }
  let s := s.cx.rings.foldl (fun s e => (e.2.credits.filter fun c => c.2.1 == some id).foldl
    (fun s c => s.poisonFill e.1 c.1) s) s
  let s := t.remote.foldl (fun s p =>
    s.sendPacket (header0 tRrel 0 p.2 s.chipId p.1 t.stall 3 0 0 0 0) 0 []) s
  let s := t.accw.foldl (fun s e => s.dropAccw e) (s.dropHolds id)
  s.updTask id fun t => { t with remote := [], accw := [], frame := 0, saved := none }

/-- Step 4: the hitch set is marked (R476). -/
def State.markHitches (s : State) (t : Task) : State :=
  let s := t.hitches.foldl (fun s h => s.hitchPoke h fun _ => abortedMark) s
  s.updTask t.id fun t => { t with hitches := [] }

/-- A task holds its cores. -/
def State.onCores (s : State) (t : Task) : Bool := t.team.any fun c => (s.core c).task == some t.id

/-- The tasks with the given identifiers. -/
def State.tasksOf (s : State) (ids : List Nat) : List Task := ids.filterMap s.task?

/-- The abort order, each step for every task before the next (R688, R691). -/
def State.abortOrder (s : State) (ids : List Nat) : State :=
  let s := (s.tasksOf ids).foldl (fun s t => s.updTask t.id fun u => { u with
    phase := .aborting, ranNs := if t.phase.live then u.ranNs + (s.now - u.startNs) else u.ranNs, startNs := s.now }) s
  let s := (s.tasksOf ids).foldl State.quiesce s
  let s := ids.foldl State.endTaskBursts s
  let s := (s.tasksOf ids).foldl State.releaseHeld s
  (s.tasksOf ids).foldl State.markHitches s

/-! ## The end of a task (R556, R562, R690) -/

/-- µs that a task ran, time saved excluded. -/
def State.taskUs (s : State) (t : Task) : Nat := (if t.phase.live then t.ranNs + (s.now - t.startNs) else t.ranNs) / 1000

/-- The team cores return to the stall: banks are powered up, contexts are idle; fills still on their way stay. -/
def State.freeCores (s : State) (t : Task) : State :=
  t.team.foldl (fun s c =>
    if (s.core c).task = some t.id then
      (s.banksOn c).updCore c fun k => { k.quiet t.id with task := none, inbound := k.inbound }
    else s) s

/-- A task is over: its result slot and the completions of its TASK_RUN, of the TASK_RESUME that restarted it, and of a
TASK_PREEMPT or TASK_KILL that waits for it. -/
def State.endTask (s : State) (id status detail : Nat) (data : List Byte := []) : State :=
  match s.task? id with
  | none => s
  | some t =>
    let us := s.taskUs t
    let s := s.traceTask 2 noCore 0 t status
    let s := t.accw.foldl (fun s e => s.dropAccw e) ((s.freeCores t).dropHolds id)
    let s := { s with q := { s.q with tasks := s.q.tasks.filter fun u => u.id != id } }
    let s := s.completeCmd t.sq t.seq status detail id us data
    let s := t.resume.foldl (fun s e => s.completeCmd e.1 e.2 status detail id us) s
    let s := match t.preempt with
      | some (q, k) => s.completeCmd q k stBadTask 0 id
      | none => s
    match t.kill with
    | some (q, k) => s.completeCmd q k stSuccess 0 id
    | none => s

/-- Give tasks the status they will complete with; one whose own fault came first keeps it, unless `force`. -/
def State.sentence (s : State) (ids : List Nat) (status detail : Nat) (force : Bool) : State :=
  ids.foldl (fun s id => s.updTask id fun t => { t with
    abort := if t.phase = .aborting && t.abort.isSome && !force then t.abort else some (status, detail) }) s

/-- Abort tasks and complete them. -/
def State.abortTasks (s : State) (ids : List Nat) (status detail : Nat) (force : Bool := false) : State :=
  let s := (s.sentence ids status detail force).abortOrder ids
  ids.foldl (fun s id => match (s.task? id).bind Task.abort with
    | some (st, d) => s.endTask id st d
    | none => s.endTask id status detail) s

/-- TASK_ABORT: the abort sequencer and the CP finish the abort of a task that has faulted (R688 to R690). While the CP
is in reset its completion waits (R693). -/
def execTaskAbort (task : Nat) (s : State) : Res :=
  .next (match s.task? task with
    | none => s
    | some t =>
      if t.phase ≠ .aborting then s
      else if s.ras.cpInReset then s.abortOrder [task]
      else s.abortTasks [task] stFault 0)

/-- TASK_TIMEOUT: the task watchdog expires (R558, R814). -/
def execTaskTimeout (task : Nat) (s : State) : Res :=
  .next (match s.task? task with
    | none => s
    | some t =>
      if !t.phase.live then s
      else
        let s := s.notBefore (t.startNs + (1000000 * t.limitMs - t.ranNs))
        (s.addF .taskStat t.stall 32 16 1).taskFault task .taskTimeout 5 255 none 0 0 0 t.limitMs)

/-! ## Commands that have not started -/

/-- A command that has not started is dropped with a status; the task of a TASK_RUN goes. -/
def State.dropCmd (s : State) (sq : Nat) (c : Cmd) (status detail : Nat) : State :=
  let s := match c.task with
    | some id =>
      if c.op = 0x20 then { s with q := { s.q with tasks := s.q.tasks.filter fun t => t.id != id } }
      else s
    | none => s
  s.completeCmd sq c.seq status detail (c.task.getD 0)

/-- Accepted commands of an SQ that have not started and satisfy a test are dropped. -/
def State.dropWaiting (s : State) (sq status detail : Nat) (p : Cmd → Bool) : State :=
  ((s.sq sq).accepted.filter fun c => !c.started && p c).foldl (fun s c => s.dropCmd sq c status detail) s

/-- Opcodes that need cores (R528). -/
def needsCores (op : Nat) : Bool := op == 0x20 || op == 0x22

/-! ## Stall resets (R189 steps 2 to 5, R196, R677) -/

/-- Tasks of a stall that run, park or are saved. -/
def State.tasksOfStall (s : State) (st : Nat) : List Nat :=
  (s.q.tasks.filter fun t => t.stall == st && t.phase != .waiting).map Task.id

/-- Indices of a range of a stall's entry. -/
def rangeOf (r : Nat × Nat) : List Nat := (List.range r.2).map fun i => r.1 + i

/-- Everything of a stall but DRAM is cleared. -/
def State.clearStall (s : State) (st : Nat) : State :=
  let t := s.active
  let s := ((List.range 32).filter (t.hasCore st)).foldl State.clearCore s
  let s := (List.range 4).foldl (fun s w => match t.pwin st w with
    | some (b, n) => s.clearOnChip (pdBase + b) n
    | none => s) s
  let s := (rangeOf (t.hitch st)).foldl State.clearHitch s
  let s := (rangeOf (t.barrier st)).foldl State.clearBarrier s
  let s := (rangeOf (t.pring st)).foldl (fun s i => s.clearRing (pringBase + i)) s
  let s := (rangeOf (t.sq st)).foldl State.clearSq s
  let s := (rangeOf (t.cq st)).foldl State.clearCq s
  let s := s.clearSlots (t.rslot st).1 (t.rslot st).2
  ((List.range 256).filter fun e => s.f .hrnCtl e 5 1 == 1 && s.f .hrnCtl e 1 4 == st).foldl State.unloadHrn s

/-- A commit or a stall reset takes cores from saved tasks: TASK_RESUME will end them (R189, R196). -/
def State.cutSaved (s : State) (p : Task → Bool) : State :=
  { s with q := { s.q with tasks := s.q.tasks.map fun t => if t.phase = .saved && p t then { t with cut := true } else t } }

/-- Stall reset: tasks are aborted, saved ones too with `saved`; the stall's hitches take the marker, commands of its SQs
are discarded, and its resources are cleared; the stall table, its DRAM and its key stay. -/
def State.resetStall (s : State) (st status detail : Nat) (saved : Bool) : State :=
  if !s.active.valid st then s else
  let ids := (s.tasksOfStall st).filter fun id => saved || (s.task? id).any fun t => t.phase != .saved
  let s := s.abortTasks ids status detail
  let s := (rangeOf (s.active.hitch st)).foldl (fun s h => s.hitchPoke h fun _ => abortedMark) s
  let sqs := rangeOf (s.active.sq st)
  let s := sqs.foldl (fun s n => (s.setF .sqCtl n 0 1 0).dropWaiting n status detail fun _ => true) s
  let s := sqs.foldl (fun s n => (s.sq n).accepted.foldl (fun s c => s.completeCmd n c.seq status detail) s) s
  (s.cutSaved fun t => t.stall == st).clearStall st

/-- STALL_FATAL: a class B fault of a stall (R336, R677); `mem` is the memory kind as ECC_LOG.MEM. -/
def State.stallFatal (s : State) (st mem : Nat) : State :=
  let seq := s.nextSeq
  let s := s.logFault { code := .stallStateLost, cls := .b, stall := some st, unit := 4, detail := mem }
  s.resetStall st stStallAbort (seq % 2 ^ 32) true

/-- STALL_FATAL. -/
def execStallFatal (st mem : Nat) (s : State) : Res := .next (if s.active.valid st then s.stallFatal st (mem % 16) else s)

/-! ## Compute fences -/

/-- Stage numbers (section 9 of chapter 2). -/
def stTrot : Nat := 2
def stCanter : Nat := 3

/-- STAGE_STATUS.STAGE. -/
def State.stageNow (s : State) : Nat := s.f .stageStatus 0 0 2

/-- The device drops to Trot (R58). -/
def State.dropToTrot (s : State) : State := if s.stageNow = stCanter then s.setF .stageStatus 0 0 2 stTrot else s

/-- Tasks that run, park or abort on cores. -/
def State.tasksOnCores (s : State) : List Nat := (s.q.tasks.filter s.onCores).map Task.id

/-- Commands that need cores and wait for them complete FENCED (R25). -/
def State.fenceWaiting (s : State) : State :=
  s.q.sqs.foldl (fun s e => s.dropWaiting e.1 stFenced 0 fun c => needsCores c.op) s

/-- What the core complex held is lost (R24): its cores' memories and contexts. -/
def State.loseCores (s : State) : State :=
  (List.range coreCount).foldl (fun s c =>
    ((s.clearOnChip (cmBase c) (2 ^ 24)).clearOnChip (isBase c) (2 ^ 16)).updCore c fun k =>
      { ShuzoCore.idle with nextId := k.nextId, inbound := k.inbound }) s

/-- Held bursts whose source is a core end (R620). -/
def State.endCoreBursts (s : State) : State := s.endBursts fun b => decide (b.src < 32)

/-- A compute fence comes into force, or a further cause joins it (R22, R23, R58, R126). -/
def State.fenceOn (s : State) (cause : Nat) : State :=
  if s.stage.fences.contains cause then s else
  let first := s.stage.fences.isEmpty
  let s := { s with stage := { s.stage with fences := KSet.add cause s.stage.fences } }
  let s := s.dropToTrot
  let s := if first then
      let ids := s.tasksOnCores
      ((((s.abortTasks ids stFenced 0 true).endCoreBursts).fenceWaiting).loseCores)
    else s
  let s := (List.range 16).foldl (fun s st => s.trace st 11 noCore 0 0 cause) s
  (s.advise .fence 6 cause).moduleEvent 1 0x0901

/-- A fence cause is lifted (R58, R680). -/
def State.fenceOff (s : State) (cause : Nat) : State :=
  if !s.stage.fences.contains cause then s else
  { s with stage := { s.stage with fences := KSet.del cause s.stage.fences } }.advise .fenceLifted 6 cause

/-- COMPUTE_FENCE: a fence with one of the causes of R680. -/
def execComputeFence (cause : Nat) (s : State) : Res := .next (if 1 ≤ cause && cause ≤ 11 then s.fenceOn cause else s)

/-! ## Core resets (R697, R698) -/

/-- An occurrence joins a history, and whether it escalates: at least two earlier ones lie within the interval (R698). -/
def escalate (times : List Nat) (now interval : Nat) : List Nat × Bool :=
  let recent := times.filter fun t => decide (now ≤ t + interval)
  (now :: recent, decide (2 ≤ recent.length))

/-- 60 s and 600 s in ns. -/
def minute : Nat := 60 * 10 ^ 9

/-- The reset of a core: its task ends with its fault, then the core is cleared (R192); a third reset within 60 s sets it
in STAGE_BIST.FAIL_MASK. -/
def State.resetCore (s : State) (core reason : Nat) : State :=
  let s := match (s.core core).task with
    | some id =>
      let s := s.taskFault id .contextLost 5 core none
      if s.ras.cpInReset then s.abortOrder [id] else s.abortTasks [id] stFault 0
    | none => s
  let s := (s.clearCore core).addF .rasRecovery 0 32 16 1
  let s := s.logFault { code := .coreReset, cls := .d, unit := 5, core := some core, detail := reason }
  let mine := (s.ras.coreTimes.filter fun e => e.1 == core).map Prod.snd
  let r := escalate mine s.now minute
  let s := { s with ras := { s.ras with
    coreTimes := (s.ras.coreTimes.filter fun e => e.1 != core) ++ r.1.map fun t => (core, t) } }
  if r.2 && !bitAt (s.reg .stageBist 0) core then
    (s.setReg .stageBist 0 (s.reg .stageBist 0 ||| (1 <<< core : Word))).setF .stageStatus 0 16 6
      (s.f .stageStatus 0 16 6 - 1)
  else s

/-- CORE_RESET: reason 1, a core of an aborting task missed its quiesce limit; 2, a memory error of the core. -/
def execCoreReset (core reason : Nat) (s : State) : Res :=
  .next (
    let late := match s.taskOn core with
      | some t => t.phase == .aborting
      | none => false
    if core < 32 && ((reason == 1 && late) || reason == 2) then s.resetCore core reason else s)

end Sys2Proof.Machine
end

