-- ==== Sys2Proof/Machine/Queues.lean ====
section
/-! DEFINITION. Submission queues: doorbells, fetch, assembly, acceptance, duplicates, flush, and the commands that move
memory or harnesses (R517 to R541, R566, R567). -/

namespace Sys2Proof.Machine

open Sys2Proof

/-! ## Fields of a command -/

/-- n bytes at offset o of a record, as a number. -/
def recField (r : Line64) (o n : Nat) : Nat := r.toNat / 2 ^ (8 * o) % 2 ^ (8 * n)

/-- S, E, OPCODE, NREC or RIDX, and SEQ of a record (R522). -/
def recS (r : Line64) : Bool := r.toNat.testBit 0
def recE (r : Line64) : Bool := r.toNat.testBit 1
def recOp (r : Line64) : Nat := recField r 1 1
def recN (r : Line64) : Nat := recField r 2 1
def recSeq (r : Line64) : Nat := recField r 8 8

/-- The 48 body bytes. -/
def recBody (r : Line64) : BitVec 384 := (r >>> 128).setWidth 384

/-- A body field of a command's first record. -/
def Cmd.field (c : Cmd) (o n : Nat) : Nat := recField c.first o n

/-! ## Doorbells (R519, R535) -/

/-- A pointer write: a new value below the depth takes effect; an equal one does nothing; a greater one is recorded. -/
def State.pointerAct (ptr : Reg) (depth : State → Nat → Nat) (go : State → State) (w : Written) (s : State) : State :=
  let v := fld w.val 0 16
  if v = s.f ptr w.idx 0 16 then s
  else if depth s w.idx ≤ v then s.refuseAccess w.agent (ptr.off w.idx) false true
  else go (s.setF ptr w.idx 0 16 v)

/-- A write of SQ_TAIL: DB_REQ takes the requester. -/
def State.doorbellAct (w : Written) (s : State) : State :=
  State.pointerAct .sqTail State.sqDepth (fun s => s.setF .sqHead w.idx 16 4 (w.agent % 16)) w s

/-- SQ_DOORBELL: a write to SQ_TAIL. -/
def execSqDoorbell (req n : Nat) (val : Word) (s : State) : Res := .next (s.regWrite req .sqTail n val State.doorbellAct)

/-- A write of CQ_HEAD. -/
def State.headAct (w : Written) (s : State) : State := State.pointerAct .cqHead State.cqDepth id w s

/-- CQ_HEAD_WRITE: a write to CQ_HEAD. -/
def execCqHeadWrite (req n : Nat) (val : Word) (s : State) : Res := .next (s.regWrite req .cqHead n val State.headAct)

/-! ## Fetch (R521, R523 to R525, R527, R541) -/

/-- The CP runs: out of reset, with the boot ROM, the memory-operation executor or the CTRL image (R49, R52). -/
def State.cpRuns (s : State) : Bool := decide (0 < s.stageNow) && !s.ras.cpInReset

/-- Most accepted commands of an SQ that have not started. -/
def waitingMax : Nat := 16

/-- The CP may fetch from an SQ. -/
def State.fetchable (s : State) (n : Nat) : Bool :=
  s.sqOn n && decide (0 < s.sqPending n) && s.cqOn (s.sqCq n) && (s.sq n).asm.isEmpty
    && decide (((s.sq n).accepted.filter fun c => !c.started).length < waitingMax)

/-- SQ_CTL.PRIO. -/
def State.sqPrio (s : State) (n : Nat) : Nat := s.f .sqCtl n 2 3

/-- Number of SQs. -/
def sqCount : Nat := 1024

/-- A record at a ring position; none: its address fails its check, or its line is held by a host and is asked for. -/
def State.readRecord (s : State) (n i : Nat) (host : List Line64) : Option Line64 × List Line64 × State :=
  let a := s.sqBase n + 64 * (i % s.sqDepth n)
  match s.place ((s.sqStall n).getD 16) a false with
  | some (.dram p) => match s.devReady p 64 false 4 with
    | (true, s) => (some (BitVec.ofNat 512 (s.rdNat p 64)), host, s)
    | (false, s) => (none, host, s)
  | some (.host req b) => match host with
    | d :: rest => (some d, rest, s.emit (.hostRead req b 64))
    | [] => (none, host, s)
  | _ => (none, host, s)

/-- A record fits as record k of a command of NREC records with the given SEQ (R522, R523). -/
def fits (nrec k seq : Nat) (r : Line64) : Bool :=
  !recS r && recE r == (k + 1 == nrec) && !r.toNat.testBit 2 && decide (recField r 0 1 < 4) && recOp r == 0
    && recN r == k && recField r 3 5 == 0 && recSeq r == seq

/-- The records of a command after its START, from position i: read while they fit; the first that breaks is consumed
unless it begins another command (R524). None: a record could not be read. -/
def State.readRest (s : State) (n i nrec seq : Nat) (host : List Line64) :
    (k fuel : Nat) → Option (List Line64) × State
  | _, 0 => (some [], s)
  | k, m + 1 =>
    match s.readRecord n (i + k) host with
    | (none, _, s) => (none, s)
    | (some r, host, s) =>
      if fits nrec k seq r then
        match s.readRest n i nrec seq host (k + 1) m with
        | (some l, s) => (some (r :: l), s)
        | (none, s) => (none, s)
      else (some (if recS r then [] else [r]), s)

/-- The records of a command as far as its first says: 1 for an ONLY or an NREC that no START can have. -/
def recordsOf (r : Line64) : Nat := if recE r then 1 else if 2 ≤ recN r && recN r ≤ 8 then recN r else 1

/-- CP_FETCH: the CP reads the next command, or discards an orphan, of the SQ whose turn it is. `host` answers for a
ring in host memory, record by record. -/
def execCpFetch (host : List Line64) (s : State) : Res :=
  .next (if !s.cpRuns then s else
    let top := (List.range sqCount).foldl (fun m n => if s.fetchable n then max m (s.sqPrio n) else m) 0
    match roundRobin (fun n => s.fetchable n && s.sqPrio n == top) (Tbl.get (sqCount - 1) s.q.last top) sqCount with
    | none => s
    | some n =>
      let head := s.f .sqHead n 0 16
      match s.readRecord n head host with
      | (none, _, s) => s
      | (some r, host, s) =>
        let s := { s with q := { s.q with last := Tbl.insert top n s.q.last } }
        if !recS r then
          (s.setF .sqHead n 0 16 ((head + 1) % s.sqDepth n)).addF .sqStat n 0 16 1
        else
          let nrec := recordsOf r
          if s.sqPending n < nrec then s
          else match s.readRest n head nrec (recSeq r) host 1 (nrec - 1) with
            | (none, s) => s
            | (some l, s) => s.updSq n fun q => { q with asm := r :: l, asmReq := s.f .sqHead n 16 4 })

/-! ## Acceptance (R524, R526, R528, R529, R531, R532, R538) -/

/-- The records make a command of the layout of R522 and R523. -/
def wellFormed : List Line64 → Bool
  | [] => false
  | r :: rest =>
    let n := recN r
    recS r && decide (recField r 0 1 < 8) && recField r 3 5 == 0
      && (if recE r then n == 1 && rest.isEmpty
          else decide (2 ≤ n) && decide (n ≤ 8) && rest.length + 1 == n
            && rest.zipIdx.all fun e => fits n (e.2 + 1) (recSeq r) e.1)

/-- Bytes of a body that a command defines, as (offset, size) (R528, R534, R579); none: no such command. -/
def bodyOf : Nat → Option (List (Nat × Nat))
  | 0x00 => some []
  | 0x01 => some [(0x10, 8), (0x18, 8), (0x20, 8)]
  | 0x02 => some [(0x10, 8), (0x18, 8), (0x20, 8)]
  | 0x10 => some [(0x10, 2), (0x18, 8), (0x20, 4)]
  | 0x11 => some [(0x10, 2)]
  | 0x20 => some [(0x10, 2), (0x12, 2), (0x14, 4), (0x18, 8), (0x20, 8), (0x28, 4)]
  | 0x21 => some [(0x10, 4)]
  | 0x22 => some [(0x10, 4)]
  | 0x23 => some [(0x10, 4)]
  | 0x30 => some [(0x10, 4), (0x14, 2), (0x18, 8), (0x20, 2), (0x22, 1), (0x23, 1), (0x24, 1), (0x28, 4)]
  | 0x31 => some [(0x10, 4), (0x28, 4)]
  | 0x32 => some [(0x10, 4), (0x20, 2), (0x22, 1), (0x23, 1), (0x28, 4)]
  | 0x33 => some [(0x10, 4), (0x14, 4), (0x18, 8), (0x28, 4)]
  | 0x34 => some [(0x10, 1), (0x12, 2), (0x14, 4), (0x18, 8), (0x20, 4), (0x28, 4)]
  | 0x35 => some [(0x10, 4), (0x14, 4), (0x28, 4)]
  | 0x36 => some [(0x10, 4), (0x28, 4)]
  | _ => none

/-- Bits [30:18] of an RSLOT field are zero (R534). -/
def rslotOk (v : Nat) : Bool := v / 2 ^ 18 % 2 ^ 13 == 0

/-- A command's body is as its row gives it, and its NREC in range (R528); KV_BATCH with MAX = 0 is malformed (R610). -/
def bodyOk (op : Nat) (r : Line64) : Bool :=
  match bodyOf op with
  | none => false
  | some fs =>
    ((List.range 48).all fun j => (fs.any fun f => decide (f.1 ≤ 16 + j) && decide (16 + j < f.1 + f.2))
      || recField r (16 + j) 1 == 0)
      && (op == 0x20 || recN r == 1)
      && (if 0x30 ≤ op || op = 0x20 then rslotOk (recField r 0x28 4) else true)
      && (op != 0x34 || recField r 0x14 4 != 0)

/-- Memory-operation commands (R528). -/
def isMemOp (op : Nat) : Bool := op == 0x00 || op == 0x01 || op == 0x02

/-- The device is at Canter, or a fence alone keeps it from there (R25, R58). -/
def State.canterReady (s : State) : Bool :=
  s.stageNow == stCanter || (!s.stage.fences.isEmpty && s.stageNow == stTrot && s.f .stageStatus 0 7 1 == 1
    && s.f .stageDrvSummary 0 0 16 != 0 && s.f .stageStatus 0 16 6 != 0)

/-- The refusal of a new command by its form, its opcode, the stage and the handshake, in this order (R524, R528, R529);
none: it may be accepted. -/
def State.refusal (s : State) (req : Nat) (asm : List Line64) : Option Nat :=
  match asm with
  | [] => some stMalformed
  | r :: _ =>
    let op := recOp r
    if !wellFormed asm then some stMalformed
    else if (bodyOf op).isNone then some stBadOpcode
    else if !bodyOk op r then some stMalformed
    else if isMemOp op then (if s.stageNow < stTrot then some stNotReady else none)
    else if !s.canterReady then some stNotReady
    else if !bitAt (s.reg .stageDrvSummary 0) req then some stEpoch
    else none

/-- HEAD moves past the command's records, and nothing is being assembled (R526). -/
def State.consumeAsm (s : State) (n : Nat) : State :=
  let k := (s.sq n).asm.length
  (s.setF .sqHead n 0 16 ((s.f .sqHead n 0 16 + k) % s.sqDepth n)).updSq n fun q => { q with asm := [] }

/-- LAST of an SQ (R531). -/
def State.sqLast (s : State) (n : Nat) : Nat := (s.reg .sqSeq n).toNat

/-- A SEQ not greater than LAST: re-posted from the retention window, queued behind its original, or stale. -/
def State.duplicate (s : State) (n seq : Nat) : State :=
  let s := s.addF .sqStat n 16 16 1
  match (s.sq n).retained.find? fun c => c.seq == seq with
  | some c => s.post n { c with rslot := false } true
  | none =>
    if (s.cmd? n seq).isSome then s.updSq n fun q => { q with dups := q.dups ++ [seq] }
    else s.post n { seq := seq, status := stDupStale, detail := 0, task := 0, result := 0, rslot := false } true

/-- The absolute slot that an RSLOT field names, if EN is set; none inside: outside the stall's range (R534, R550). -/
def State.namedSlot (s : State) (st v : Nat) : Option (Option Nat) :=
  if v.testBit 31 then
    let k := v % 2 ^ 18
    some (if k < (s.active.rslot st).2 then some ((s.active.rslot st).1 + k) else none)
  else none

/-- The slot is outside the range, BUSY or READY (R550). -/
def State.slotBusy (s : State) (named : Option (Option Nat)) : Bool :=
  match named with
  | none => false
  | some none => true
  | some (some k) => s.slotState k == 1 || s.slotState k == 2

/-- A new command enters its SQ, with its slot assigned (R526, R546). -/
def State.accept (s : State) (n : Nat) (r : Line64) (rest : List Line64) (req : Nat) (task : Option Nat)
    (named : Option (Option Nat)) : State :=
  let slot := named.join
  let s := match slot with
    | some k => s.assignSlot k (recSeq r)
    | none => s
  let c : Cmd := { seq := recSeq r, op := recOp r, fence := r.toNat.testBit 2, first := r, inline_ := rest.map recBody
                   req := req, started := false, slot := slot, task := task, run := none }
  s.updSq n fun q => { q with accepted := q.accepted ++ [c] }

/-- COMMAND_ACCEPT: the command that has been read from an SQ is accepted, refused or found to be a duplicate, once its
CQ has a place. A TASK_RUN that may be accepted is left to its own command. -/
def execCommandAccept (sq : Nat) (s : State) : Res :=
  .next (
    let q := s.sq sq
    match q.asm with
    | [] => s
    | r :: rest =>
      if !s.cpRuns || !s.cqRoom (s.sqCq sq) then s
      else
        let seq := recSeq r
        if seq ≤ s.sqLast sq then (s.consumeAsm sq).duplicate sq seq
        else match s.refusal q.asmReq q.asm with
          | some st => ((s.consumeAsm sq).setReg .sqSeq sq (BitVec.ofNat 64 seq)).refuseCmd sq seq st
          | none =>
            if recOp r = 0x20 then s
            else
              let named := if 0x30 ≤ recOp r then s.namedSlot ((s.sqStall sq).getD 16) (recField r 0x28 4) else none
              let s := (s.consumeAsm sq).setReg .sqSeq sq (BitVec.ofNat 64 seq)
              if s.slotBusy named then s.refuseCmd sq seq stRslotBusy
              else s.accept sq r rest q.asmReq none named)

/-! ## Flush (R533) -/

/-- SEQs of the commands with a START or ONLY among the first k pending records that can be read. -/
def State.flushedSeqs (s : State) (n : Nat) (host : List Line64) : (i k : Nat) → List Nat × State
  | _, 0 => ([], s)
  | i, k + 1 =>
    match s.readRecord n i host with
    | (some r, host, s) =>
      let t := s.flushedSeqs n host (i + 1) k
      (if recS r then recSeq r :: t.1 else t.1, t.2)
    | (none, _, s) => s.flushedSeqs n host (i + 1) k

/-- FLUSH_DONE completions that wait are posted while their CQ has places (R538), or dropped with it (R541). -/
def State.postFlushes (s : State) (n : Nat) : State :=
  match (s.sq n).flushes with
  | [] => s
  | (count, hi, lo) :: rest =>
    if s.cqOn (s.sqCq n) && !s.cqRoom (s.sqCq n) then s
    else (s.updSq n fun q => { q with flushes := rest }).post n
      { seq := hi, status := stFlushDone, detail := count % 2 ^ 32, task := 0, result := lo, rslot := false } false

/-- What a write of SQ_CTL does beyond its fields and ENABLE. -/
def State.sqFlushAct (host : List Line64) (w : Written) (s : State) : State :=
  if !w.set 1 || !s.sqOn w.idx then s else
  let n := w.idx
  let r := s.flushedSeqs n host (s.f .sqHead n 0 16) (s.sqPending n)
  let hi := r.1.foldl max 0
  let lo := r.1.foldl min hi
  let s := r.2.setF .sqHead n 0 16 (s.f .sqTail n 0 16)
  (s.updSq n fun q => { q with asm := [], flushes := q.flushes ++ [(r.1.length, hi, lo)] }).postFlushes n

/-- CQ_IRQ_TIMER: TIME µs after the first record since the last interrupt (R540). -/
def execCqIrqTimer (cq : Nat) (s : State) : Res :=
  .next (match (s.cq cq).firstAt with
    | some t =>
      if s.cqOn cq && s.f .cqCtl cq 1 1 == 1 && s.f .cqIrq cq 16 16 != 0 then
        (s.notBefore (t + 1000 * s.f .cqIrq cq 16 16)).cqInterrupt cq
      else s
    | none => s)

/-! ## Commands that start (R526) -/

/-- The stall's SQs do not dispatch while a commit takes resources from it (R189 step 2). -/
def State.dispatches (s : State) (st : Nat) : Bool :=
  match s.gb.commit with
  | some c => !c.losing.contains st
  | none => true

/-- The next command of an SQ, if it has the opcode and may start: the earlier ones have started, and with FENCE have
completed. -/
def State.startable (s : State) (sq op : Nat) : Option Cmd :=
  let l := (s.sq sq).accepted
  match l.find? fun c => !c.started with
  | some c =>
    if c.op = op && s.cpRuns && s.dispatches ((s.sqStall sq).getD 16)
        && (!c.fence || (l.head?.map Cmd.seq) == some c.seq) then some c
    else none
  | none => none

/-- A command that takes effect and completes in one step. -/
def State.runCmd (s : State) (sq op : Nat) (f : Cmd → (st : Nat) → State → State) : State :=
  match s.startable sq op with
  | some c => (f c ((s.sqStall sq).getD 16) s).postFlushes sq
  | none => s

/-- NOP. -/
def execNop (sq : Nat) (s : State) : Res :=
  .next (s.runCmd sq 0x00 fun c _ s => s.completeCmd sq c.seq stSuccess)

/-! ## MEM_FILL and MEM_COPY (R530) -/

/-- The CP's fabric port. -/
def cpPort : Nat := 4

/-- A range of a memory-operation command: multiples of 256, in the stall's DRAM, Paddock or host window. -/
def State.memRange (s : State) (st a n : Nat) (write : Bool) : Bool := a % 256 == 0 && s.cpRange st a n write true true

/-- A length that R530 admits. -/
def memLenOk (n : Nat) : Bool := n % 256 == 0 && decide (256 ≤ n) && decide (n ≤ 2 ^ 40)

/-- A 256-byte line may be moved now: a shared line in the way is asked for. -/
def State.memLineReady (s : State) (st a : Nat) (write : Bool) : Bool × State :=
  match s.place st a write with
  | some (.dram p) => s.devReady p 256 write cpPort
  | _ => (true, s)

/-- A line is written: DRAM, the Paddock untagged, or host memory. -/
def State.memPut (s : State) (st a : Nat) (d : Line256) (p : Word32) : State :=
  match s.place st a true with
  | some (.dram q) => s.wrLine q d p
  | some (.paddock o) => (s.pdSettle o).wrLine (pdBase + o) d p
  | some (.host req b) => s.emit (.hostWrite req b (leBytes 256 d.toNat) (p != 0))
  | _ => s

/-- A line is read. -/
def State.memGet (s : State) (st a : Nat) (host : List HostLine) : Line256 × Word32 × List HostLine × State :=
  match s.place st a false with
  | some (.dram q) => let v := s.rdLine q; (v.1, v.2, host, s)
  | some (.paddock o) => let s := s.pdSettle o; let v := s.rdLine (pdBase + o); (v.1, v.2, host, s)
  | some (.host req b) => ((host.headD (0, 0)).1, (host.headD (0, 0)).2, host.tail, s.emit (.hostRead req b 256))
  | _ => (0, 0, host, s)

/-- Every line of n from a may be moved; the first that may not is asked for. -/
def State.memReady (s : State) (st a : Nat) (write : Bool) : (n : Nat) → Bool × State
  | 0 => (true, s)
  | n + 1 => match s.memLineReady st a write with
    | (true, s) => s.memReady st (a + 256) write n
    | (false, s) => (false, s)

/-- Fill n lines from a. -/
def State.memFill (s : State) (st a : Nat) (d : Line256) : (n : Nat) → State
  | 0 => s
  | n + 1 => (s.memPut st a d 0).memFill st (a + 256) d n

/-- Copy n lines. -/
def State.memCopy (s : State) (st dst src : Nat) (host : List HostLine) : (n : Nat) → State
  | 0 => s
  | n + 1 =>
    let r := s.memGet st src host
    (r.2.2.2.memPut st dst r.1 r.2.1).memCopy st (dst + 256) (src + 256) r.2.2.1 n

/-- MEM_FILL. -/
def execMemFill (sq : Nat) (s : State) : Res :=
  .next (s.runCmd sq 0x01 fun c st s =>
    let dst := c.field 0x10 8
    let n := c.field 0x18 8
    let pat := c.field 0x20 8
    let line : Line256 := (List.range 32).foldl (fun v j => v ||| (BitVec.ofNat 2048 pat <<< (64 * j))) 0
    if !memLenOk n || !s.memRange st dst n true then s.completeCmd sq c.seq stBadAddress
    else match s.memReady st dst true (n / 256) with
      | (false, s) => s
      | (true, s) => (s.memFill st dst line (n / 256)).completeCmd sq c.seq stSuccess)

/-- MEM_COPY: `host` holds the lines that are read from host memory. -/
def execMemCopy (sq : Nat) (host : List HostLine) (s : State) : Res :=
  .next (s.runCmd sq 0x02 fun c st s =>
    let dst := c.field 0x10 8
    let n := c.field 0x18 8
    let src := c.field 0x20 8
    if !memLenOk n || !s.memRange st dst n true || !s.memRange st src n false
        || (decide (dst < src + n) && decide (src < dst + n)) then s.completeCmd sq c.seq stBadAddress
    else if !s.hostThere st src then s
    else match s.memReady st src false (n / 256) with
      | (false, s) => s
      | (true, s) => match s.memReady st dst true (n / 256) with
        | (false, s) => s
        | (true, s) => (s.memCopy st dst src host (n / 256)).completeCmd sq c.seq stSuccess)

/-! ## Harness entries (R566, R567) -/

/-- HRN_CTL.ENABLE, STALL and LOADED. -/
def State.hrnOn (s : State) (e : Nat) : Bool := s.f .hrnCtl e 0 1 == 1
def State.hrnStall (s : State) (e : Nat) : Nat := s.f .hrnCtl e 1 4
def State.hrnLoaded (s : State) (e : Nat) : Bool := s.f .hrnCtl e 5 1 == 1

/-- Tasks that run or are saved from an entry (HRN_CTL.USERS). -/
def State.hrnUsers (s : State) (e : Nat) : Nat := (s.q.tasks.filter fun t => t.entry == e && t.phase != .waiting).length

/-- Bytes of an entry's copy at most. -/
def hrnMax : Nat := 65792

end Sys2Proof.Machine
end

