-- ==== Sys2Proof/Machine/Tasks.lean ====
section
/-! DEFINITION. Tasks: acceptance (R551, R552, R555), start (R311, R312, R347, R348, R553, R554), end (R511, R556,
R557), preemption, save and resume (R258, R384, R425, R474, R475, R510, R559 to R562), and kill (R563). -/

namespace Sys2Proof.Machine

open Sys2Proof

/-! ## The harness header (R389) -/

/-- TEAM, CODE_WORDS, ENTRY and HITCHES of an entry. -/
def State.hdrTeam (s : State) (e : Nat) : Nat := s.hdr e 0x08 1
def State.hdrWords (s : State) (e : Nat) : Nat := s.hdr e 0x0A 2
def State.hdrEntry (s : State) (e : Nat) : Nat := s.hdr e 0x0C 2
def State.hdrHitches (s : State) (e : Nat) : Nat := s.hdr e 0x18 2

/-- The declared live set: (first line, lines) of each range. -/
def State.liveRanges (s : State) (e : Nat) : List (Nat × Nat) :=
  (List.range (min 8 (s.hdr e 0x1C 1))).map fun j =>
    let v := s.hdr e (0x40 + 4 * j) 4
    (v % 2 ^ 13, v / 2 ^ 16 % 2 ^ 14)

/-- CM lines of the live set, ascending. -/
def State.liveLines (s : State) (e : Nat) : List Nat :=
  let r := s.liveRanges e
  (List.range 8192).filter fun l => r.any fun x => decide (x.1 ≤ l) && decide (l < x.1 + x.2)

/-- An accumulator window of a header: SCALE, first line and lines. -/
structure Window where
  scale : Nat
  first : Nat
  lines : Nat
deriving DecidableEq, Repr

/-- The enabled P-region windows by index. -/
def State.cmWindows (s : State) (e : Nat) : List (Nat × Window) :=
  (List.range 4).filterMap fun j =>
    let v := s.hdr e (0x60 + 4 * j) 4
    if v.testBit 0 then some (j, ⟨v / 2 % 2 ^ 7, v / 2 ^ 8 % 2 ^ 11, v / 2 ^ 19 % 2 ^ 11⟩) else none

/-- First Paddock line of a task of a stall: that of the stall's lowest enabled window. -/
def State.paddockLine (s : State) (st : Nat) : Nat :=
  (((List.range 4).findSome? fun w => s.active.pwin st w).map fun b => b.1 / 256).getD 0

/-- The enabled Paddock windows of a harness, in lines of the Paddock. -/
def State.pdWindows (s : State) (e st : Nat) : List Window :=
  (List.range 4).filterMap fun j =>
    let v := s.hdr e (0x70 + 8 * j) 8
    if v.testBit 0 then some ⟨v / 2 % 2 ^ 7, s.paddockLine st + v / 2 ^ 8 % 2 ^ 17, v / 2 ^ 25 % 2 ^ 18⟩ else none

/-! ## Acceptance (R534, R550 to R552, R555) -/

/-- The cores of a stall that passed BIST, ascending. -/
def State.goodCores (s : State) (st : Nat) : List Nat :=
  (List.range 32).filter fun c => s.active.hasCore st c && !bitAt (s.reg .stageBist 0) c

/-- The team that a TASK_RUN gets (R555); none: BAD_TEAM. -/
def State.teamFor (s : State) (st e mask : Nat) : Option (List Nat) :=
  let n := s.hdrTeam e
  let good := s.goodCores st
  if mask = 0 then (if n ≤ good.length then some (good.take n) else none)
  else
    let named := (List.range 32).filter fun c => mask.testBit c
    if named.length = n && named.all fun c => good.contains c then some named else none

/-- Bytes of inline arguments of a command of n records. -/
def inlineBytes (n : Nat) : Nat := 48 * (n - 1)

/-- ARGS and RES_ADDR lie in the stall's windows and are multiples of 64. -/
def State.runAddressesOk (s : State) (st : Nat) (r : Line64) (n : Nat) : Bool :=
  let args := recField r 0x18 8
  let res := recField r 0x20 8
  args % 64 == 0 && res % 64 == 0 && s.cpRange st args (max 1 (inlineBytes n)) (decide (1 < n)) true true
    && s.cpRange st res 48 true true true

/-- The first refusal of R552 that applies; none: accepted, with its team. -/
def State.runRefusal (s : State) (st : Nat) (asm : List Line64) (named : Option (Option Nat)) :
    Nat ⊕ List Nat :=
  let r := asm.headD 0
  let e := recField r 0x10 2
  if !s.stage.fences.isEmpty then .inl stFenced
  else if 256 ≤ e || !s.hrnOn e || s.hrnStall e != st then .inl stBadEntry
  else match s.teamFor st e (recField r 0x14 4) with
    | none => .inl stBadTeam
    | some team =>
      if !s.runAddressesOk st r asm.length then .inl stBadAddress
      else if s.slotBusy named then .inl stRslotBusy
      else .inr team

/-- An identifier is held by a task of the stall (R551). -/
def State.idHeld (s : State) (id : Nat) : Bool := s.q.tasks.any fun t => t.id == id

/-- The next count of a stall's TASK_RUNs: after k it takes k + 1, skipping zero and the values held (R551). -/
def State.nextCount (s : State) (st : Nat) : (k fuel : Nat) → Nat
  | k, 0 => (k + 1) % 2 ^ 28
  | k, n + 1 =>
    let j := (k + 1) % 2 ^ 28
    if j = 0 || s.idHeld (st * 2 ^ 28 + j) then s.nextCount st j n else j

/-- A task as accepted. -/
def newTask (id st sq : Nat) (r : Line64) (team : List Nat) (inl : List (BitVec 384)) : Task :=
  { id := id, stall := st, sq := sq, seq := recSeq r, entry := recField r 0x10 2, team := team, phase := .waiting
    args := recField r 0x18 8, resAddr := recField r 0x20 8, limitMs := recField r 0x12 2, ranNs := 0, startNs := 0
    abort := none, resumed := false, hitches := [], frame := 0, resume := [], preempt := none, kill := none
    saved := none, cut := false, accw := [], remote := [], inline_ := inl }

/-- TASK_RUN: the command that has been read from an SQ is accepted as a task, with its identifier and its result slot,
or refused (R524, R528, R551, R552). -/
def execTaskRun (sq : Nat) (s : State) : Res :=
  .next (
    let q := s.sq sq
    match q.asm with
    | [] => s
    | r :: rest =>
      let seq := recSeq r
      if recOp r ≠ 0x20 || !s.cpRuns || !s.cqRoom (s.sqCq sq) || decide (seq ≤ s.sqLast sq)
          || (s.refusal q.asmReq q.asm).isSome then s
      else
        let st := (s.sqStall sq).getD 16
        let named := s.namedSlot st (recField r 0x28 4)
        let t := (s.consumeAsm sq).setReg .sqSeq sq (BitVec.ofNat 64 seq)
        match s.runRefusal st q.asm named with
        | .inl status => t.refuseCmd sq seq status
        | .inr team =>
          let k := t.nextCount st (Tbl.get 0 t.q.counts st) (t.q.tasks.length + 2)
          let id := st * 2 ^ 28 + k
          let t := { t with q := { t.q with
            counts := Tbl.insert st k t.q.counts
            tasks := t.q.tasks ++ [newTask id st sq r team (rest.map recBody)] } }
          t.accept sq r rest q.asmReq (some id) named)

/-! ## Start (R311, R312, R347, R348, R553) -/

/-- Every core of a team is free. -/
def State.teamFree (s : State) (team : List Nat) : Bool := team.all fun c => (s.core c).task.isNone

/-- The team that the next command of an SQ waits for, if it is a TASK_RUN. -/
def State.teamWanted (s : State) (sq : Nat) : Option (List Nat) :=
  (((s.startable sq 0x20).bind Cmd.task).bind s.task?).map Task.team

/-- Of the SQs whose TASK_RUN could start and wants a core of the team, this one is first in the order of R521. -/
def State.firstInOrder (s : State) (sq : Nat) (team : List Nat) : Bool :=
  let rival := fun (n : Nat) => match s.teamWanted n with
    | some t => s.teamFree t && t.any fun c => team.contains c
    | none => false
  let sqs := (s.q.sqs.map Prod.fst).filter rival
  let top := sqs.foldl (fun m n => max m (s.sqPrio n)) 0
  roundRobin (fun n => sqs.contains n && s.sqPrio n == top) (Tbl.get (sqCount - 1) s.q.last top) sqCount == some sq

/-- What a Paddock window of a starting task gets: an entry in use that it shares, a new one, or neither. -/
inductive WinFit where
  | share (e : Nat)
  | new
  | conflict
deriving DecidableEq, Repr

/-- The fit of a declared window among the entries in use of a stall (R312). -/
def State.winFit (s : State) (st : Nat) (w : Window) : WinFit :=
  let used := (List.range 64).filter fun e => bitAt (s.reg .pdAccw0 e) 0 && s.f .pdAccw0 e 1 4 == st
  let same := fun (e : Nat) => s.f .pdAccw1 e 0 17 == w.first && s.f .pdAccw1 e 32 18 == w.lines && s.f .pdAccw0 e 8 7 == w.scale
  let meets := fun (e : Nat) => decide (s.f .pdAccw1 e 0 17 < w.first + w.lines)
    && decide (w.first < s.f .pdAccw1 e 0 17 + s.f .pdAccw1 e 32 18)
  match used.find? same with
  | some e => .share e
  | none => if used.any meets then .conflict else .new

/-- Entry e takes a window for a stall, with its first user. -/
def State.setAccw (s : State) (e st : Nat) (w : Window) : State :=
  (s.setReg .pdAccw0 e (BitVec.ofNat 64 (1 + 2 * st + 2 ^ 8 * w.scale + 2 ^ 16))).setReg .pdAccw1 e
    (BitVec.ofNat 64 (w.first + 2 ^ 32 * w.lines))

/-- The declared Paddock windows are allocated, with the fits found before the first: the entries used, or the status of
the refusal. -/
def State.takeAccw (s : State) (st : Nat) : List (Window × WinFit) → Nat ⊕ (List Nat × State)
  | [] => .inr ([], s)
  | (w, f) :: rest =>
    let entry : Option (Nat × State) := match f with
      | .share e => some (e, s.setF .pdAccw0 e 16 16 (s.f .pdAccw0 e 16 16 + 1))
      | _ => ((List.range 64).find? fun e => !bitAt (s.reg .pdAccw0 e) 0).map fun e => (e, s.setAccw e st w)
    match entry with
    | none => .inl stAccwExhausted
    | some (e, s) => match s.takeAccw st rest with
      | .inl v => .inl v
      | .inr (l, s) => .inr (e :: l, s)

/-- The Paddock windows of a dispatch (R311, R312). -/
def State.dispatchAccw (s : State) (st e : Nat) : Nat ⊕ (List Nat × State) :=
  let l := (s.pdWindows e st).map fun w => (w, s.winFit st w)
  if l.any fun x => x.2 == .conflict then .inl stAccwConflict else s.takeAccw st l

/-- A core is loaded for a harness: instruction store, CM_CFG, CM_ACCW, STREAM_OVERLAP and the declared power-down
(R259, R272, R311, R347, R512). -/
def State.loadCore (s : State) (e period banks c : Nat) : State :=
  let s := s.wrBytes (isBase c) (s.rdBytes (hrnBase e + 256) (4 * s.hdrWords e))
  let s := (((s.setF .cmCfg c 0 1 (s.hdr e 0x07 1)).setF .cmCfg c 2 2 period).setF .cmCfg c 16 16 banks).setF .cmCfg c
    32 16 (s.hdr e 0x10 2)
  let s := (List.range 4).foldl (fun s w => s.setReg .cmAccw (4 * c + w) 0) s
  let s := (s.cmWindows e).foldl (fun s w => s.setReg .cmAccw (4 * c + w.1)
    (BitVec.ofNat 64 (1 + 2 ^ 8 * w.2.scale + 2 ^ 16 * w.2.first + 2 ^ 32 * w.2.lines))) s
  s.setReg .streamOverlap c (BitVec.ofNat 64 (s.hdr e 0x24 4))

/-- A core as dispatch leaves it: ctx0 started at a PC, the others not (R348). -/
def ShuzoCore.dispatch (k : ShuzoCore) (id pc : Nat) : ShuzoCore :=
  { ShuzoCore.idle with
    task := some id, intTiles := k.intTiles, lastQ := k.lastQ, lastPf := k.lastPf, nextId := k.nextId
    inbound := k.inbound, ctxs := [(0, { Ctx.idle with started := true, pc := pc })] }

/-- The 16-byte pieces of the inline arguments, with the offset of each from ARGS. -/
def inlinePieces (l : List (BitVec 384)) : List (Nat × List Byte) :=
  l.zipIdx.flatMap fun e => (List.range 3).map fun j =>
    (48 * e.2 + 16 * j, leBytes 16 (e.1.toNat / 2 ^ (128 * j)))

/-- DRAM lines that the CP writes at ARGS may be written now; the first that may not is asked for. -/
def State.argsReady (s : State) (st a : Nat) : List (Nat × List Byte) → Bool × State
  | [] => (true, s)
  | (o, _) :: rest => match s.place st (a + o) true with
    | some (.dram p) => match s.devReady p 16 true cpPort with
      | (true, s) => s.argsReady st a rest
      | (false, s) => (false, s)
    | _ => s.argsReady st a rest

/-- TIME_LIMIT in force for a task (R558). -/
def State.timeLimit (s : State) (t : Task) : Nat :=
  if t.limitMs ≠ 0 then t.limitMs else max 1 (s.f .taskCfg t.stall 0 16)

/-- The task starts on its free team. -/
def State.startTask (s : State) (sq : Nat) (c : Cmd) (t : Task) (accw : List Nat) : State :=
  let s := (inlinePieces t.inline_).foldl (fun s p => s.cpWrite t.stall (t.args + p.1) p.2) s
  let e := t.entry
  let s := t.team.foldl (fun s k => (s.loadCore e (s.hdr e 0x09 1) (s.hdr e 0x0E 2) k).updCore k fun x =>
    x.dispatch t.id (s.hdrEntry e)) s
  let limit := s.timeLimit t
  let s := s.traceTask 1 noCore 0 t
  let s := s.updTask t.id fun t => { t with
    phase := .running, startNs := s.now, ranNs := 0, limitMs := limit, accw := accw, inline_ := [] }
  s.updCmd sq c.seq fun c => { c with started := true }

/-- TASK_START: the next command of an SQ is a TASK_RUN whose team is free. A team or an entry that the stall no longer has
is refused as at acceptance. -/
def execTaskStart (sq : Nat) (s : State) : Res :=
  .next (match s.startable sq 0x20 with
    | none => s
    | some c => match c.task.bind s.task? with
      | none => s
      | some t =>
        if !(t.team.all fun k => s.active.hasCore t.stall k && !bitAt (s.reg .stageBist 0) k) then s.dropCmd sq c stBadTeam 0
        else if !s.teamFree t.team || !s.firstInOrder sq t.team then s
        else if !(s.f .hrnCtl t.entry 0 1 == 1 && s.f .hrnCtl t.entry 1 4 == t.stall) then s.dropCmd sq c stBadEntry 0
        else match s.argsReady t.stall t.args (inlinePieces t.inline_) with
          | (false, s) => s
          | (true, s) => match s.dispatchAccw t.stall t.entry with
            | .inl status => s.dropCmd sq c status 0
            | .inr (l, s) => s.startTask sq c t l)

/-! ## End (R374, R511, R556, R557) -/

/-- A core's part of a task has ended and its streams have completed. -/
def ShuzoCore.partDone (k : ShuzoCore) : Bool :=
  k.ctxs.all (fun e => !e.2.started) && k.mxq.isEmpty && k.vxq.isEmpty && k.dmaq.isEmpty
    && k.streams.all fun e => e.2.isEmpty

/-- The result area may be read now: a line that a host holds is asked for. -/
def State.resultReady (s : State) (t : Task) : Bool × State :=
  match s.place t.stall t.resAddr false with
  | some (.dram p) => s.devReady p 48 false cpPort
  | some (.paddock o) => (true, s.pdSettle o)
  | _ => (true, s)

/-- TASK_END: every part has ended; the result area is read (`host` and `ep` answer for host memory) and the task completes, or
takes POISON_CONSUMED. -/
def execTaskEnd (task : Nat) (host : List Byte) (ep : Bool) (s : State) : Res :=
  .next (match s.task? task with
    | none => s
    | some t =>
      if !t.phase.live || s.ras.cpInReset || !(t.team.all fun c => (s.core c).partDone) || !s.hostThere t.stall t.resAddr then s
      else match s.resultReady t with
        | (false, s) => s
        | (true, s) => match s.cpRead t.stall t.resAddr 48 host ep with
          | some (d, false, s) => s.endTask task stSuccess 0 d
          | some (_, true, s) => s.taskFault task .poisonConsumed 5 255 none 0 0 t.resAddr
          | none => s.endTask task stSuccess 0)

/-! ## Preemption (R384, R559, R560) -/

/-- Bytes of a save frame of a harness (R560). -/
def State.frameBytes (s : State) (e : Nat) : Nat :=
  let l := (s.liveLines e).length
  let n := s.hdrTeam e * (8192 + 256 * l + 64 * ((l + 511) / 512)) + 8 * s.hdrHitches e
  (max (s.hdr e 0x20 4) n + 4095) / 4096 * 4096

/-- Bytes of a stall's context save area, and those held by save frames. -/
def State.saveBytes (s : State) (st : Nat) : Nat := 2 ^ 20 * s.f .taskCfg st 32 16
def State.saveUsed (s : State) (st : Nat) : Nat :=
  (s.q.tasks.filter fun t => t.stall == st).foldl (fun n t => n + t.frame) 0

/-- A context of the task has not ended. -/
def State.anyStarted (s : State) (t : Task) : Bool := t.team.any fun c => (s.core c).ctxs.any fun e => e.2.started

/-- The task of the stall that a command names, in one of the given phases. -/
def State.namedTask (s : State) (st id : Nat) (p : TaskPhase → Bool) : Option Task :=
  match s.task? id with
  | some t => if t.stall = st && p t.phase then some t else none
  | none => none

/-- TASK_PREEMPT: the running task is asked to park. -/
def execTaskPreempt (sq : Nat) (s : State) : Res :=
  .next (s.runCmd sq 0x21 fun c st s =>
    match s.namedTask st (c.field 0x10 4) (· == .running) with
    | none => s.completeCmd sq c.seq stBadTask 0 (c.field 0x10 4)
    | some t =>
      let f := s.frameBytes t.entry
      if !s.anyStarted t then s.completeCmd sq c.seq stBadTask 0 t.id
      else if s.saveBytes st < s.saveUsed st + f then s.completeCmd sq c.seq stNoSave 0 t.id
      else ((s.traceTask 3 noCore 0 t).updTask t.id fun t => { t with phase := .parking, frame := f, preempt := some (sq, c.seq) }).updCmd sq c.seq
        fun c => { c with started := true, task := some t.id })

/-! ## Save (R258, R425, R474, R510, R561) -/

/-- A context is parked or has ended. -/
def Ctx.resting (k : Ctx) : Bool :=
  !k.started || match k.wait with
    | .parked _ => true
    | _ => false

/-- A core may be saved: contexts at rest, queues and streams empty, no release-bus message unseen. -/
def ShuzoCore.savable (k : ShuzoCore) : Bool :=
  k.ctxs.all (fun e => e.2.resting) && k.mxq.isEmpty && k.vxq.isEmpty && k.dmaq.isEmpty
    && k.streams.all (fun e => e.2.isEmpty) && k.bus.isEmpty

/-- What the frame holds of a core. -/
def State.coreFrame (s : State) (e c : Nat) : CoreFrame :=
  let k := s.core c
  { core := c, ctxs := k.ctxs, ejoined := k.ejoined, period := s.f .cmCfg c 2 2, banks := s.f .cmCfg c 16 16
    rings := ((List.range 64).filter fun r => s.ringOn (64 * c + r)).map fun r =>
      { ring := 64 * c + r, resv := s.ringResv (64 * c + r), head := s.ringHead (64 * c + r)
        credits := (s.ring (64 * c + r)).credits }
    lines := (s.liveLines e).map fun l =>
      let a := cmBase c + 256 * l
      let v := s.rdLine a
      (256 * l, v.1, v.2, s.tagAt a) }

/-- Hitches of the set that no other running task of the stall has operated on, with their values (R474). -/
def State.ownHitches (s : State) (t : Task) : List (Nat × Word) :=
  let others := s.q.tasks.filter fun u => u.id != t.id && u.stall == t.stall && u.phase.live
  (t.hitches.filter fun h => !(others.any fun u => KSet.has u.hitches h)).map fun h => (h, s.hitch h)

/-- The words of OB-A, OB-B and ACC of a core take free values, with free poison (R258, R425). -/
def State.scramble (s : State) (c : Nat) : State :=
  let s := (List.range 32768).foldl (fun s j =>
    let a := cmBase c + 0x800000 + 8 * j
    let p := s.choose
    let w := p.2.draw
    (w.2.wrNat a 8 w.1.toNat).setPoison a p.1) s
  let p := s.draw
  p.2.updCore c fun k => { k with intTiles := (List.range 16).filter fun t => bitAt p.1 t }

/-- TASK_SAVE: the parked task is saved and its cores are freed. -/
def execTaskSave (task : Nat) (s : State) : Res :=
  .next (match s.task? task with
    | none => s
    | some t =>
      if t.phase ≠ .parking || s.ras.cpInReset || !s.anyStarted t || !(t.team.all fun c => (s.core c).savable) then s
      else
        let f : Frame := { cores := t.team.map (s.coreFrame t.entry), hitches := s.ownHitches t }
        let ran := t.ranNs + (s.now - t.startNs)
        let s := (t.team.foldl State.scramble (s.freeCores t)).traceTask 4 noCore 0 t
        let s := s.updTask task fun t => { t with phase := .saved, ranNs := ran, saved := some f, preempt := none }
        match t.preempt with
        | some (q, k) => s.completeCmd q k stSuccess 0 task
        | none => s)

/-! ## Resume (R475, R562) -/

/-- A context as it continues: after its YIELD, with that yield point's number. -/
def State.unpark (s : State) (c : Nat) (k : Ctx) : Ctx :=
  match k.wait with
  | .parked n => { k with
      pc := (k.pc + (if isWide (s.fetch c k.pc) then 2 else 1)) % 65536
      wait := .ready, ret := none, since := none, yield_ := n }
  | _ => k

/-- A line of the live set comes back, with its tag. -/
def State.restoreLine (s : State) (c : Nat) (l : Nat × Line256 × Word32 × Bool) : State :=
  (s.wrLine (cmBase c + l.1) l.2.1 l.2.2.1).setTag (cmBase c + l.1) (l.2.2.2 && tagged l.1)

/-- A ring's counters and unfilled reservations come back. -/
def State.restoreRing (s : State) (r : RingFrame) : State :=
  if s.ringOn r.ring then
    let s := s.setReg .ringPtr r.ring (BitVec.ofNat 64 (r.head + 2 ^ 32 * r.resv))
    s.setRing r.ring { s.ring r.ring with credits := r.credits }
  else s

/-- A core of the team is restored. -/
def State.restoreCore (s : State) (t : Task) (f : CoreFrame) : State :=
  let s := (s.scramble f.core).loadCore t.entry f.period f.banks f.core
  let s := f.lines.foldl (fun s l => s.restoreLine f.core l) s
  let s := f.rings.foldl State.restoreRing s
  let ctxs := mapVals (s.unpark f.core) f.ctxs
  s.updCore f.core fun k => { (k.dispatch t.id 0) with ctxs := ctxs, ejoined := f.ejoined }

/-- TASK_RESUME: the saved task continues on its team once that is free. -/
def execTaskResume (sq : Nat) (s : State) : Res :=
  .next (s.runCmd sq 0x22 fun c st s =>
    let id := c.field 0x10 4
    if !s.stage.fences.isEmpty then s.completeCmd sq c.seq stFenced 0 id
    else match s.namedTask st id (· == .saved) with
      | none => s.completeCmd sq c.seq stBadTask 0 id
      | some t =>
        let mine := fun (s : State) => (s.updTask id fun t => { t with resume := t.resume ++ [(sq, c.seq)] }).updCmd sq c.seq
          fun c => { c with started := true, task := some id }
        if t.cut || !(t.team.all fun k => s.active.hasCore st k) then (mine s).abortTasks [id] stProtection 0
        else if !s.teamFree t.team then s
        else match t.saved with
          | none => s
          | some f =>
            let s := f.cores.foldl (fun s k => s.restoreCore t k) s
            let s := f.hitches.foldl (fun s h => s.hitchPoke h.1 fun _ => h.2) s
            ((mine s).traceTask 5 noCore 0 t).updTask id fun t => { t with
              phase := .running, startNs := s.now, resumed := true, saved := none, frame := 0 })

/-! ## Kill (R563) -/

/-- TASK_KILL: the named task is aborted. -/
def execTaskKill (sq : Nat) (s : State) : Res :=
  .next (s.runCmd sq 0x23 fun c st s =>
    let id := c.field 0x10 4
    match s.namedTask st id (fun p => p.live || p == .saved) with
    | none => s.completeCmd sq c.seq stBadTask 0 id
    | some _ =>
      ((s.updTask id fun t => { t with kill := some (sq, c.seq) }).updCmd sq c.seq fun c =>
        { c with started := true, task := some id }).abortTasks [id] stKilled 0)

end Sys2Proof.Machine
end

