-- ==== Sys2Proof/Machine/Kv.lean ====
section
/-! DEFINITION. The KV store: the sequence table, pools, page lists and the free list (R570 to R578), appends (R583 to
R587), walks (R588 to R597), scores (R598 to R601), the KV commands and commits (R579 to R582, R602 to R611), and
damaged state (R612, R613). -/

namespace Sys2Proof.Machine

open Sys2Proof

/-! ## Sequences and pools -/

/-- A sequence-table entry. -/
def State.kseq (s : State) (i : Nat) : KSeq := Tbl.get KSeq.closed s.kv.seqs i

/-- Replace it. -/
def State.setKseq (s : State) (i : Nat) (k : KSeq) : State :=
  { s with kv := { s.kv with seqs := Tbl.put KSeq.closed s.kv.seqs i k } }

/-- Update it. -/
def State.updKseq (s : State) (i : Nat) (f : KSeq → KSeq) : State := s.setKseq i (f (s.kseq i))

/-- Fields of a pool: ENABLE, STALL, T, LAYERS, B, DECAY, MASS_SHIFT, page area, free list. -/
def State.poolOn (s : State) (p : Nat) : Bool := s.f .kvPoolCtl p 0 1 == 1
def State.poolStall (s : State) (p : Nat) : Nat := s.f .kvPoolCtl p 1 4
def State.poolT (s : State) (p : Nat) : Nat := s.f .kvPoolCtl p 8 8
def State.poolLayers (s : State) (p : Nat) : Nat := s.f .kvPoolCtl p 16 8
def State.poolB (s : State) (p : Nat) : Nat := 64 * s.f .kvPoolCtl p 24 8
def State.poolPages (s : State) (p : Nat) : Nat := 256 * s.f .kvPoolPages p 8 40
def State.poolFree (s : State) (p : Nat) : Nat := 256 * s.f .kvPoolFree p 8 40
def State.poolEntries (s : State) (p : Nat) : Nat := s.f .kvPoolLimits p 0 24
def State.freeNow (s : State) (p : Nat) : Nat := s.f .kvPoolStat p 0 24

/-- A sequence lies in the SEQ range of a pool. -/
def State.inPool (s : State) (p i : Nat) : Bool :=
  let b := s.f .kvPoolCount p 32 17
  decide (b ≤ i) && decide (i < b + s.f .kvPoolSeq p 0 18)

/-- An enabled pool of a stall. -/
def State.stallPool (s : State) (st p : Nat) : Bool := decide (p < 16) && s.poolOn p && s.poolStall p == st

/-- A sequence lies in the range of an enabled pool of a stall. -/
def State.seqInStall (s : State) (st i : Nat) : Bool := (List.range 16).any fun p => s.stallPool st p && s.inPool p i

/-- No page (R572). -/
def noPage : Nat := 0xFFFFFFFF

/-- Bucket of a number of positions (R609). -/
def bucketOf (pages : Nat) : Nat :=
  ((List.range 15).filter fun j => decide (2 ^ (j + 7) ≤ pages * pages)).length

/-- A provisional position exists (section 2): the step's pending tokens do not fit the committed tail. -/
def KSeq.provisional (k : KSeq) (t : Nat) : Bool := decide (0 < k.pending) && decide (t < k.tailFill + k.pending)

/-- The 48 bytes of an entry that KV_SEQ_READ copies (R577, R579). -/
def KSeq.bytes (k : KSeq) : List Byte :=
  leBytes 8 (k.length + k.pages * 2 ^ 32 + k.tailFill * 2 ^ 48 + k.pending * 2 ^ 56)
  ++ leBytes 8 (k.list + k.pool * 2 ^ 48 + k.stall * 2 ^ 52 + k.bucket * 2 ^ 56 + bit k.valid * 2 ^ 60
      + bit k.poisoned * 2 ^ 61 + bit k.committing * 2 ^ 62)
  ++ leBytes 8 (k.cap + k.anchor * 2 ^ 16 + k.recent * 2 ^ 24 + k.budget * 2 ^ 32 + k.holders.length * 2 ^ 48)
  ++ leBytes 4 k.step ++ leBytes 4 k.lastpos
  ++ leBytes 16 (k.appended.foldl (fun n l => n + 2 ^ l) 0)

/-! ## Memory of the KVU (R573, R575, R576) -/

/-- n bytes at a device address through the DRAM windows of a stall, with their poison; none: the access fails its
check. -/
def State.kvRead (s : State) (st a n : Nat) : Option (Nat × Bool) :=
  match s.place st a false with
  | some (.dram p) => some (s.rdNat p n, s.poisonIn p n)
  | _ => none

/-- Write n bytes; none: the access fails its check. -/
def State.kvWrite (s : State) (st a n v : Nat) : Option State :=
  match s.place st a true with
  | some (.dram p) => some (s.wrNat p n v)
  | _ => none

/-- Address of the page-number word of a position and layer, and of a position record (R573). -/
def State.wordAt (s : State) (k : KSeq) (pos l : Nat) : Nat := k.list + 4 * (pos * s.poolLayers k.pool + l)
def State.recordAt (s : State) (k : KSeq) (pos : Nat) : Nat :=
  k.list + 16 * ((k.cap * s.poolLayers k.pool + 3) / 4) + 16 * pos

/-- Bytes of a list area. -/
def listBytes (cap layers : Nat) : Nat := 16 * ((cap * layers + 3) / 4) + 16 * cap

/-- Fields of a position record: ACC, SCORE, DROP, BASEPOS. -/
def recAcc (r : Nat) : Nat := r % 2 ^ 32
def recScore (r : Nat) : Nat := r / 2 ^ 32 % 2 ^ 16
def recDrop (r : Nat) : Bool := r.testBit 48
def recBase (r : Nat) : Nat := r / 2 ^ 64 % 2 ^ 32

/-- Device address of a page. -/
def State.pageAt (s : State) (pool n : Nat) : Nat := s.poolPages pool + 32768 * n

/-- Set FREE_NOW. -/
def State.setFreeNow (s : State) (p n : Nat) : State := s.setF .kvPoolStat p 0 24 n

/-- Position of a pool's free-list head. -/
def State.freeHead (s : State) (p : Nat) : Nat := Tbl.get 0 s.kv.heads p

/-- The head of the free list moves past an entry. -/
def State.passHead (s : State) (p : Nat) : State :=
  { s with kv := { s.kv with heads := Tbl.put 0 s.kv.heads p ((s.freeHead p + 1) % max 1 (s.poolEntries p)) } }.setFreeNow p
    (s.freeNow p - 1)

/-- Poisoned entries at the head of the free list are skipped, each page counted in LEAKED (R612). -/
def State.skipPoisoned (s : State) (p : Nat) : (fuel : Nat) → State
  | 0 => s
  | n + 1 => match s.kvRead (s.poolStall p) (s.poolFree p + 4 * s.freeHead p) 4 with
    | some (_, true) => ((s.passHead p).addF .kvPoolStat2 p 32 24 1).skipPoisoned p n
    | _ => s

/-- The page at the head of the free list is allocated. -/
def State.takePage (s : State) (p : Nat) : Option (Nat × State) :=
  match s.kvRead (s.poolStall p) (s.poolFree p + 4 * s.freeHead p) 4 with
  | some (n, _) => some (n, s.passHead p)
  | none => none

/-- A page returns to the tail of the free list. -/
def State.givePage (s : State) (p n : Nat) : State :=
  let tail := (s.freeHead p + s.freeNow p) % max 1 (s.poolEntries p)
  match s.kvWrite (s.poolStall p) (s.poolFree p + 4 * tail) 4 n with
  | some s => s.setFreeNow p (s.freeNow p + 1)
  | none => s

/-! ## Damaged state (R612) -/

/-- Running walks of a sequence take a fault. -/
def State.faultWalks (s : State) (i : Nat) (c : FaultCode) : State :=
  (List.range coreCount).foldl (fun s core => (s.core core).streams.foldl (fun s e =>
    e.2.foldl (fun s st => if st.seqn = some i then st.fault s core c 0 i else s) s) s) s

/-- A sequence is marked POISONED. -/
def State.kvPoison (s : State) (i : Nat) : State :=
  (s.updKseq i fun k => { k with poisoned := true }).faultWalks i .kvSeqPoisoned

/-! ## Descriptors -/

/-- n bytes that an engine of a core reads at a device address, untagged: local CM, the Paddock, DRAM or (from `host`) the
host window. -/
inductive Got where
  | ok (v : Nat) (poison : Bool) (s : State)
  | fault (c : FaultCode) (detail : Nat) (s : State)
  /-- a line that a host holds has been asked for -/
  | wait (s : State)

/-- Read them. -/
def State.engineRead (s : State) (core st a n : Nat) (host : List HostByte) : Got :=
  if n = 0 then .ok 0 false s
  else if (s.place st (a + n - 1) false).isNone then .fault .windowViolation 0 s
  else match s.place st a false with
    | some (.local_ b) =>
      if (regionOf b).isOb then .fault .windowViolation 0 s
      else match (List.range ((b % 256 + n + 255) / 256)).find? fun j => s.bankOff core (bankAt (b + 256 * j)) with
        | some j => .fault .cmBankOff (bankAt (b + 256 * j)) s
        | none => .ok (s.rdNat (cmBase core + b) n) (s.poisonIn (cmBase core + b) n) (s.dmaTouch core b false).2
    | some (.paddock o) =>
      let s := (List.range ((o % 256 + n + 255) / 256)).foldl (fun s j => s.pdSettle (o + 256 * j)) s
      .ok (s.rdNat (pdBase + o) n) (s.poisonIn (pdBase + o) n) s
    | some (.dram p) => match s.devReady p n false (subOfCore core) with
      | (true, s) => .ok (s.rdNat p n) (s.poisonIn p n) s
      | (false, s) => .wait s
    | some (.host req b) => .ok (leNat (((host.map Prod.fst) ++ List.replicate n 0).take n)) ((host.take n).any Prod.snd)
        (s.emit (.hostRead req b n))
    | _ => .fault .windowViolation 0 s

/-- n bytes at byte o of a value. -/
def sub (v o n : Nat) : Nat := v / 2 ^ (8 * o) % 2 ^ (8 * n)

/-! ## KV.APPEND (R583 to R587) -/

/-- An append descriptor. -/
structure Append where
  seq   : Nat
  layer : Nat
  n     : Nat
  src   : Nat
  pos   : Nat
  rsv   : Bool
deriving DecidableEq, Repr

/-- Its fields. -/
def Append.of (v : Nat) : Append :=
  { seq := sub v 0 4, layer := sub v 4 1, n := sub v 5 1, src := sub v 8 8, pos := sub v 0x10 8
    rsv := sub v 6 2 != 0 || sub v 0x18 8 != 0 }

/-- Strictly ascending. -/
def ascending : List Nat → Bool
  | a :: b :: t => decide (a < b) && ascending (b :: t)
  | _ => true

/-- Committed positions of an entry. -/
def KSeq.committed (k : KSeq) (t : Nat) : Nat := if k.provisional t then k.pages - 1 else k.pages

/-- BASEPOS of a position; none: its record fails its check; true: its record is poisoned. -/
def State.basePos (s : State) (k : KSeq) (pos : Nat) : Option (Nat × Bool) :=
  (s.kvRead k.stall (s.recordAt k pos) 16).map fun r => (recBase r.1, r.2)

/-- What an append comes to once its descriptor and positions are known: a fault, or its plan. -/
inductive AppendPlan where
  | fault (c : FaultCode) (s : State)
  /-- the sequence is marked, then the fault -/
  | poisoned (s : State)
  /-- tokens that go to the committed tail, and whether the position and a page of the layer must be created -/
  | go (tail : Nat) (newPos newPage : Bool) (s : State)

/-- The checks of R587 from KV_STEP on. -/
def State.planAppend (s : State) (d : Append) (pos : List Nat) : AppendPlan :=
  let k := s.kseq d.seq
  let t := s.poolT k.pool
  let tail := min d.n (t - k.tailFill)
  let needs := decide (tail < d.n)
  let newPos := needs && !k.provisional t
  let prov := if k.provisional t then k.pages - 1 else k.pages
  let word := if needs && !newPos then s.kvRead k.stall (s.wordAt k prov d.layer) 4 else some (noPage, false)
  let tailBase := if 0 < tail then s.basePos k (k.committed t - 1) else some (0, false)
  let provBase := if needs && !newPos then s.basePos k prov else some (nth pos tail, false)
  if k.appended.contains d.layer || (k.pending ≠ 0 && k.pending ≠ d.n) then .fault .kvStep s
  else match word, tailBase, provBase with
    | some (page, b1), some (base0, b2), some (base1, b3) =>
      let far := (pos.take tail).any (fun p => decide (base0 + 2 ^ 16 ≤ p))
        || (pos.drop tail).any fun p => decide (base1 + 2 ^ 16 ≤ p)
      if b1 || b2 || b3 then .poisoned s
      else if !ascending pos || (k.lastpos ≠ noPage && decide (nth pos 0 ≤ k.lastpos))
          || pos.any (fun p => decide (2 ^ 32 ≤ p))
          || (k.pending ≠ 0 && d.pos ≠ 0 && pos ≠ k.pendPos) || far then .fault .kvPosition s
      else if newPos && k.pages = k.cap then .fault .kvListFull s
      else
        let newPage := needs && page == noPage
        let s := if newPage then s.skipPoisoned k.pool (s.freeNow k.pool) else s
        if newPage && s.freeNow k.pool = 0 then .fault .kvPoolExhausted (s.addF .kvPoolStat2 k.pool 16 16 1)
        else .go tail newPos newPage s
    | _, _, _ => .fault .windowViolation s

/-- The provisional position is created (R585 step 3, R609). -/
def State.newPosition (s : State) (i base : Nat) : Option State :=
  let k := s.kseq i
  let words := (List.range (s.poolLayers k.pool)).foldl (fun (r : Option State) l =>
    r.bind fun s => s.kvWrite k.stall (s.wordAt k k.pages l) 4 noPage) (some s)
  (words.bind fun s => s.kvWrite k.stall (s.recordAt k k.pages) 16 (base * 2 ^ 64)).map fun s =>
    s.setKseq i { k with pages := k.pages + 1, bucket := bucketOf (k.pages + 1) }

/-- A page is allocated for the layer, with zero positions (R585 step 4). -/
def State.newPage (s : State) (i pos layer : Nat) : Option State :=
  let k := s.kseq i
  let t := s.poolT k.pool
  (s.takePage k.pool).bind fun (n, s) =>
    (s.kvWrite k.stall (s.wordAt k pos layer) 4 n).bind fun s =>
      (List.range t).foldl (fun (r : Option State) j =>
        r.bind fun s => s.kvWrite k.stall (s.pageAt k.pool n + t * s.poolB k.pool + 2 * j) 2 0) (some s)

/-- Token record and position of token j of a page are written; bad 64-byte pieces keep their poison. -/
def State.putToken (s : State) (k : KSeq) (page j p : Nat) (d : Nat) (bad : Nat → Bool) : Option State :=
  let b := s.poolB k.pool
  let a := s.pageAt k.pool page
  match s.place k.stall (a + j * b) true with
  | some (.dram q) =>
    let s := s.wrNat q b d
    let s := (List.range (b / 64)).foldl (fun s m => s.setPoison (q + 64 * m) (bad m)) s
    s.kvWrite k.stall (a + s.poolT k.pool * b + 2 * j) 2 (p % 2 ^ 16)
  | _ => none

/-- Every token of an append, to the tail page or the provisional one. -/
def State.putTokens (s : State) (d : Append) (tail : Nat) (data : Nat) (bad : Nat → Bool) (pos : List Nat) :
    (k m : Nat) → Option State
  | _, 0 => some s
  | j, m + 1 =>
    let k := s.kseq d.seq
    let t := s.poolT k.pool
    let b := s.poolB k.pool
    let place := if j < tail then (k.committed t - 1, k.tailFill + j) else (k.pages - 1, k.tailFill + j - t)
    match s.kvRead k.stall (s.wordAt k place.1 d.layer) 4 with
    | some (page, _) =>
      match s.putToken k page place.2 (nth pos j) (sub data (j * b) b) (fun i => bad (j * b / 64 + i)) with
      | some s => s.putTokens d tail data bad pos (j + 1) m
      | none => none
    | none => none

/-- Lines of a page that an append touches may be written now. -/
def State.pageReady (s : State) (core : Nat) (k : KSeq) (layer pos : Nat) : Bool × State :=
  match s.kvRead k.stall (s.wordAt k pos layer) 4 with
  | some (n, _) =>
    if n = noPage then (true, s)
    else match s.place k.stall (s.pageAt k.pool n) true with
      | some (.dram q) => s.devReady q (s.poolT k.pool * s.poolB k.pool + 2 * s.poolT k.pool) true (subOfCore core)
      | _ => (true, s)
  | none => (true, s)

/-- An append whose checks have passed is performed. The pending tokens are those of the step's first append, so the
position arithmetic uses the entry before PENDING is set. -/
def State.append (s : State) (d : Append) (tail : Nat) (newPos newPage : Bool) (data : Nat)
    (bad : Nat → Bool) (pos : List Nat) : Option State :=
  let step1 := if newPos then s.newPosition d.seq (nth pos tail) else some s
  let step2 := step1.bind fun s =>
    let s := s.updKseq d.seq fun k => if k.pending = 0 then
        { k with pending := d.n, pendlast := nth pos (d.n - 1), pendPos := pos } else k
    if newPage then s.newPage d.seq ((s.kseq d.seq).pages - 1) d.layer else some s
  let step3 := step2.bind fun s => s.putTokens d tail data bad pos 0 d.n
  step3.map fun s => s.updKseq d.seq fun k => { k with appended := KSet.add d.layer k.appended }

/-- An append whose data and positions are read: it is planned, the pages it touches are made ready, and it is done. -/
def E.appendData (e : E) (d : Append) (src : List HostByte) (data pv : Nat) (pbad : Bool) (s : State) : State :=
  let core := e.core
  let k := s.kseq d.seq
  let t := s.poolT k.pool
  if pbad then e.fault s .poisonConsumed d.pos
  else
    let bad := fun (j : Nat) => match s.place e.t.stall (d.src + 64 * j) false with
      | some (.host ..) => ((src.drop (64 * j)).take 64).any Prod.snd
      | p => match p.bind (Place.key core) with
        | some key => s.poisonIn key 64
        | none => false
    let ps := (List.range d.n).map fun j => if d.pos = 0 then (k.lastpos + 1) % 2 ^ 32 + j else sub pv (4 * j) 4
    match s.planAppend d ps with
    | .fault c s => e.fault s c 0 (if c = .kvPoolExhausted then k.pool else d.seq)
    | .poisoned s => e.fault (s.kvPoison d.seq) .kvSeqPoisoned 0 d.seq
    | .go tail newPos newPage s =>
      match (if tail = 0 then (true, s) else s.pageReady core k d.layer (k.committed t - 1)) with
      | (false, s) => s
      | (true, s) => match (if newPage || tail = d.n then (true, s) else s.pageReady core k d.layer (k.pages - 1)) with
        | (false, s) => s
        | (true, s) => match s.append d tail newPos newPage data bad ps with
          | some s => e.over s
          | none => e.fault s .windowViolation 0 d.seq

/-- The same once the data are read: the positions are read after them. -/
def E.appendPos (e : E) (d : Append) (src pos : List HostByte) (data : Nat) (s : State) : State :=
  match (if d.pos = 0 then Got.ok 0 false s else s.engineRead e.core e.t.stall d.pos (4 * d.n) pos) with
  | .wait s => s
  | .fault c x s => e.fault s c d.pos x
  | .ok pv pbad s => e.appendData d src data pv pbad s

/-- KV_APPEND: the instruction at the head of the DMA queue; `host` answers for SRC and POS in host memory. -/
def execKvAppend (core : Nat) (src pos : List HostByte) (s : State) : Res :=
  .next (engineOp core 2 .kvAppend false (fun e s =>
    let a := e.o.ga.toNat
    let st := e.t.stall
    if outstandingMax ≤ s.outstanding core then s
    else if a % 32 ≠ 0 then e.fault s .misalignedAccess a
    else if 2 ^ 48 ≤ a || !s.listEntryOk st a then e.fault s .windowViolation a
    else match s.engineRead core st a 32 [] with
      | .wait s => s
      | .fault c x s => e.fault s c a x
      | .ok v bad s =>
        if bad then e.fault s .poisonConsumed a
        else
          let d := Append.of v
          let k := s.kseq d.seq
          let t := s.poolT k.pool
          if k.valid && k.committing && !k.holders.contains e.t.id then s
          else if d.rsv || d.n = 0 || d.src % 64 ≠ 0 || d.pos % 4 ≠ 0
              || (k.valid && (decide (s.poolLayers k.pool ≤ d.layer) || decide (t < d.n))) then e.fault s .kvFormat 0 d.seq
          else if !k.valid || k.stall ≠ st then e.fault s .kvSeq 0 d.seq
          else if k.poisoned then e.fault s .kvSeqPoisoned 0 d.seq
          else match s.engineRead core st d.src (d.n * s.poolB k.pool) src,
              (if d.pos = 0 then Got.ok 0 false s else s.engineRead core st d.pos (4 * d.n) pos) with
            | .wait s, _ => s
            | _, .wait s => s
            | .fault c x s, _ => e.fault s c d.src x
            | _, .fault c x s => e.fault s c d.pos x
            | .ok data _ s, .ok .. => e.appendPos d src pos data s) s)

/-! ## KV.WALK (R588 to R597) -/

/-- A walk descriptor. -/
structure Walk where
  seq   : Nat
  layer : Nat
  mask  : Bool
  skip  : Bool
  rel   : Bool
  first : Nat
  count : Nat
  dst   : Word
  at_   : Nat
  rsv   : Bool
deriving DecidableEq, Repr

/-- Its fields. -/
def Walk.of (v : Nat) : Walk :=
  let fl := sub v 5 1
  { seq := sub v 0 4, layer := sub v 4 1, mask := fl.testBit 0, skip := fl.testBit 1, rel := fl.testBit 2
    first := sub v 8 4, count := sub v 0xC 4, dst := BitVec.ofNat 64 (sub v 0x10 8), at_ := sub v 0x18 8
    rsv := fl / 8 != 0 || sub v 6 2 != 0 || (!fl.testBit 0 && sub v 0x18 8 != 0) }

/-- A mask descriptor (R589). -/
structure MaskD where
  base   : Nat
  pos    : Nat
  stride : Nat
  rows   : Nat
  rsv    : Bool
deriving DecidableEq, Repr

/-- Its fields. -/
def MaskD.of (v : Nat) : MaskD :=
  { base := sub v 0 8, pos := sub v 8 4, stride := sub v 12 2, rows := sub v 14 1, rsv := sub v 15 1 != 0 }

/-- It keeps R589. -/
def MaskD.ok (m : MaskD) : Bool :=
  !m.rsv && m.base % 8 == 0 && decide (dramSpace ≤ m.base) && decide (m.base < hostSpace) && decide (1 ≤ m.rows)
    && decide (m.rows ≤ 16)

/-- A position that a walk sees: its number, page, BASEPOS and valid tokens. -/
structure Seen where
  pos   : Nat
  page  : Nat
  base  : Nat
  valid : Nat
deriving DecidableEq, Repr

/-- What a walk's start comes to. -/
inductive WalkEnd (α : Type) where
  | ok (v : α)
  | fault (c : FaultCode) (addr : Nat)
  /-- a list word or record is poisoned: the sequence is marked -/
  | poisoned

/-- Valid tokens of a position in the snapshot (R590), before its page is known. -/
def KSeq.validAt (k : KSeq) (t n pos : Nat) : Nat :=
  let c := k.committed t
  if pos + 1 < c then t
  else if pos + 1 = c then min t (k.tailFill + n)
  else k.tailFill + n - t

/-- The position as the snapshot shows it; none inside: not visible. -/
def State.seen (s : State) (k : KSeq) (layer n pos : Nat) : WalkEnd (Option Seen) :=
  let t := s.poolT k.pool
  let v := k.validAt t n pos
  match s.kvRead k.stall (s.wordAt k pos layer) 4, s.kvRead k.stall (s.recordAt k pos) 16 with
  | some (page, b1), some (r, b2) =>
    if b1 || b2 then .poisoned
    else if k.committed t ≤ pos && (v = 0 || page = noPage) then .ok none
    else .ok (some ⟨pos, page, recBase r, v⟩)
  | none, _ => .fault .windowViolation (s.wordAt k pos layer)
  | _, none => .fault .windowViolation (s.recordAt k pos)

/-- Every visible position below a bound, ascending. -/
def State.seenAll (s : State) (k : KSeq) (layer n : Nat) : List Nat → WalkEnd (List Seen)
  | [] => .ok []
  | p :: rest => match s.seen k layer n p with
    | .fault c a => .fault c a
    | .poisoned => .poisoned
    | .ok v => match s.seenAll k layer n rest with
      | .ok l => .ok (v.toList ++ l)
      | e => e

/-- The original position of token j of a page (R574). -/
def fullPos (base e : Nat) : Nat := base + (e + 2 ^ 16 - base % 2 ^ 16) % 2 ^ 16

/-- One mask bit (R589), with its poison; none: the bitmap's byte fails its check. -/
def State.maskBit (s : State) (st : Nat) (m : MaskD) (r x : Nat) : Option (Bool × Bool) :=
  if x < m.pos || m.pos + 64 * m.stride ≤ x then some (false, false)
  else
    let i := r * 64 * m.stride + (x - m.pos)
    (s.kvRead st (m.base + i / 8) 1).map fun v => (v.1.testBit (i % 8), v.2)

/-- The mask line of a position (R593): its bits, and the poison of its words. -/
def State.maskLine (s : State) (k : KSeq) (m : MaskD) (p : Seen) : WalkEnd (Line256 × Word32) :=
  let t := s.poolT k.pool
  let a := s.pageAt k.pool p.page + t * s.poolB k.pool
  (List.range p.valid).foldl (fun r j => match r with
    | .ok (d, bad) => match s.kvRead k.stall (a + 2 * j) 2 with
      | none => .fault .windowViolation (a + 2 * j)
      | some (_, true) => .fault .poisonConsumed (a + 2 * j)
      | some (e, false) =>
        (List.range m.rows).foldl (fun r row => match r with
          | .ok (d, bad) => match s.maskBit k.stall m row (fullPos p.base e) with
            | none => .fault .windowViolation m.base
            | some (b, q) => .ok (if b then d ||| (1 <<< (128 * row + j)) else d,
                if q then bad ||| (1 <<< (2 * row + j / 64)) else bad)
          | e => e) (.ok (d, bad))
    | e => e) (.ok (0, 0))

/-- The mask lines of the positions of a range. -/
def State.maskLines (s : State) (k : KSeq) (m : MaskD) : List Seen → WalkEnd (List (Seen × Line256 × Word32))
  | [] => .ok []
  | p :: rest => match s.maskLine k m p with
    | .fault c a => .fault c a
    | .poisoned => .poisoned
    | .ok v => match s.maskLines k m rest with
      | .ok l => .ok ((p, v.1, v.2) :: l)
      | e => e

/-- The header slot of a position (R592). -/
def headerLine (k : KSeq) (seq : Nat) (mask tail last : Bool) (lines : Nat) (p : Seen) : Line256 :=
  let ref := seq + p.pos * 2 ^ 17 + (k.step % 256) * 2 ^ 40
  let fl := bit (decide (p.pos < k.anchor)) + 2 * bit (decide (k.pages ≤ p.pos + k.recent)) + 4 * bit tail + 8 * bit last
    + 16 * bit mask
  BitVec.ofNat 2048 (ref + p.page * 2 ^ 64 + p.base * 2 ^ 96 + p.valid * 2 ^ 128 + fl * 2 ^ 136 + lines * 2 ^ 144
    + p.pos * 2 ^ 160 + k.length * 2 ^ 192 + k.step * 2 ^ 224)

/-- The header of a range without a visible position (R593). -/
def emptyHeader : Line256 := BitVec.ofNat 2048 (8 * 2 ^ 136 + noPage * 2 ^ 160)

/-- A transfer of a walk: at most 16 slots, of which `buf` are generated and the rest read from a page. -/
def walkXfer (id : Nat) (ring : Word) (src len cut : Nat) (buf : List (Line256 × Word32)) : Xfer :=
  { id := id, entry := 0, op := 0, smode := 0, dmode := 2, fence := false, src := src, dst := ring.toNat, left := len
    buf := buf.map fun b => (src, 256, b.1, b.2)
    done := 0, put := 0, ring := ring, asked := none, idx := none, issued := false, since := none
    ends := [], staged := [], got := [], asking := false, acks := 0, cut := some cut }

/-- Further data lines of a page, 16 slots a transfer. -/
def dataXfers (ring : Word) (cut : Nat) : (fuel id src lines : Nat) → List Xfer
  | 0, _, _, _ => []
  | n + 1, id, src, lines =>
    if lines = 0 then [] else
    let m := min lines 16
    walkXfer id ring src (256 * m) cut [] :: dataXfers ring cut n (id + 1) (src + 256 * m) (lines - m)

/-- The transfers of one position (R591): header and mask with the first data lines, the other data lines, the position
lines. -/
def State.pageXfers (s : State) (k : KSeq) (ring : Word) (id : Nat) (p : Seen) (made : List (Line256 × Word32)) : List Xfer :=
  let t := s.poolT k.pool
  let b := s.poolB k.pool
  let a := s.pageAt k.pool p.page
  let lines := (p.valid * b + 255) / 256
  let m := min lines (16 - made.length)
  let cut := a + p.valid * b
  let l := walkXfer id ring a (256 * m) cut made :: dataXfers ring cut (lines / 16 + 1) (id + 1) (a + 256 * m) (lines - m)
  let posLen := min (256 * ((2 * t + 255) / 256)) (32768 - t * b)
  l ++ [walkXfer (id + l.length) ring (a + t * b) posLen (a + t * b + 2 * p.valid) []]

/-- The transfers of the delivered positions. -/
def State.walkXfers (s : State) (k : KSeq) (d : Walk) (tail : Option Nat) :
    (id : Nat) → List (Seen × Line256 × Word32) → List Xfer
  | _, [] => []
  | id, (p, m) :: rest =>
    let lines := (p.valid * s.poolB k.pool + 255) / 256
    let h := headerLine k d.seq d.mask (tail == some p.pos) rest.isEmpty lines p
    let l := s.pageXfers k d.dst id p ((h, 0) :: if d.mask then [m] else [])
    l ++ s.walkXfers k d tail (id + l.length) rest

/-- Positions that a walk delivers: with SKIP_MASKED, those whose mask line is not all zero, and the last. -/
def unmasked (skip : Bool) : List (Seen × Line256 × Word32) → List (Seen × Line256 × Word32)
  | [] => []
  | e :: rest => if skip && e.2.1 == 0 && !rest.isEmpty then unmasked skip rest else e :: unmasked skip rest

/-- Visible positions of the walk's range. -/
def Walk.inRange (d : Walk) (p : Seen) : Bool :=
  decide (d.first ≤ p.pos) && (d.count == 0 || decide (p.pos < d.first + d.count))

/-- The transfers of a walk (R590 to R593). -/
def State.expandWalk (s : State) (k : KSeq) (d : Walk) (m : Option MaskD) (id : Nat) : WalkEnd (List Xfer) :=
  let n := if k.appended.contains d.layer then k.pending else 0
  match s.seenAll k d.layer n (List.range k.pages) with
  | .fault c a => .fault c a
  | .poisoned => .poisoned
  | .ok all =>
    let tail := all.getLast?.map Seen.pos
    match all.filter d.inRange with
    | [] => .ok [walkXfer id d.dst 0 0 0 [(emptyHeader, 0)]]
    | l => match (match m with
        | some m => s.maskLines k m l
        | none => .ok (l.map fun p => (p, 0, 0))) with
      | .fault c a => .fault c a
      | .poisoned => .poisoned
      | .ok l =>
        if d.skip && d.mask && l.any fun e => e.2.2 != 0 then .fault .poisonConsumed 0
        else .ok (s.walkXfers k d tail id (unmasked (d.skip && d.mask) l))

/-- A VPSCORE of the task issued before an instruction waits in a queue (R595). -/
def State.scoresBefore (s : State) (t : Task) (tick : Nat) : Bool :=
  t.team.any fun c => (s.core c).vxq.any fun o => decide (o.tick < tick) && decodeOp o.word == some .vpscore

/-- A running walk of a queue starts: its checks, its hold and its transfers, or its release. -/
def State.startWalk (s : State) (core q : Nat) (t : Task) (st : Stream) (a : Nat) : State :=
  match s.engineRead core t.stall a 32 [] with
  | .wait s => s
  | .fault c x s => st.fault s core c a x
  | .ok v bad s =>
    if bad then st.fault s core .poisonConsumed a 0
    else
      let d := Walk.of v
      let k := s.kseq d.seq
      let md : Got := if d.mask && d.at_ % 16 = 0 then s.engineRead core t.stall d.at_ 16 [] else .ok 0 false s
      if k.valid && k.committing && !k.holders.contains t.id then s
      else match md with
        | .wait s => s
        | .fault c x s => st.fault s core c d.at_ x
        | .ok mv mbad s =>
          let m := MaskD.of mv
          if mbad then st.fault s core .poisonConsumed d.at_ 0
          else if d.rsv || (k.valid && decide (s.poolLayers k.pool ≤ d.layer)) || d.dst.toNat / 2 ^ 21 ≠ 0
              || s.ringRef core t.stall d.dst == .bad || (d.mask && (d.at_ % 16 ≠ 0 || !m.ok)) then
            st.fault s core .kvFormat 0 d.seq
          else if !k.valid || k.stall ≠ t.stall then st.fault s core .kvSeq 0 d.seq
          else if k.poisoned then st.fault s core .kvSeqPoisoned 0 d.seq
          else if d.rel then
            if s.scoresBefore t st.tick then s
            else (s.updKseq d.seq (KSeq.unhold t.id)).setStreamQ core q ((s.streamQ core q).filter fun x => x.id != st.id)
          else match s.expandWalk k d (if d.mask then some m else none) (s.core core).nextId with
            | .fault c x => st.fault s core c x 0
            | .poisoned => st.fault (s.kvPoison d.seq) core .kvSeqPoisoned 0 d.seq
            | .ok l =>
              let s := s.updKseq d.seq fun k => { k with holders := KSet.add t.id k.holders }
              let s := s.updCore core fun c => { c with nextId := c.nextId + l.length }
              s.updStream core q st.id fun x => { x with xfers := l, walk := none, seqn := some d.seq }

/-- KV_WALK: a running walk of queue q that has not started starts; else the instruction at the head of the DMA queue
hands its walk to its queue (R484, R486). -/
def execKvWalk (core q : Nat) (s : State) : Res :=
  .next (match s.taskOn core with
    | none => s
    | some t =>
      if !t.phase.live then s else
      match (s.streamQ core q).find? fun st => st.runAt.isSome && st.walk.isSome with
      | some st => s.startWalk core q t st (st.walk.getD 0)
      | none => engineOp core 2 .kvWalk false (fun e s =>
          let n := fld e.o.word 0 3
          let a := e.o.ga.toNat
          if !s.streamOn core n then e.fault s .undefOperand
          else if a % 32 ≠ 0 then e.fault s .misalignedAccess a
          else if 2 ^ 48 ≤ a || !s.listEntryOk e.t.stall a then e.fault s .windowViolation a
          else if 4 ≤ (s.streamQ core n).length then s
          else
            let p := s.freshId core
            let st : Stream := { id := p.1, ctx := e.o.ctx, pc := e.o.pc, word := e.o.word, base := a, count := 0, read := 0
                                 xfers := [], runAt := none, walk := some a, seqn := none, early := 0, tick := e.o.tick }
            e.over (p.2.setStreamQ core n (p.2.streamQ core n ++ [st]))) s)

/-! ## VPSCORE (R412, R418, R598 to R601) -/

/-- The integer that a sum posts (R599). -/
def scoreOf (v : Nat) : Nat :=
  match ofF32 v with
  | .nan => 0
  | .inf neg => if neg then 0 else 2 ^ 24 - 1
  | .fin neg m e => if neg then 0 else min (toFx 52 (.fin false m e)).1 (2 ^ 24 - 1)

/-- The KVU takes a post. -/
def State.postScore (s : State) (i pos step m : Nat) : Option State :=
  let k := s.kseq i
  if k.pages ≤ pos || k.step % 256 ≠ step then some (s.addF .kvPoolStat2 k.pool 0 16 1)
  else match s.kvRead k.stall (s.recordAt k pos) 16 with
    | some (r, false) => s.kvWrite k.stall (s.recordAt k pos) 4 (min (2 ^ 32 - 1) (recAcc r + m))
    | _ => none

/-- VPSCORE. -/
def execVpscore (core : Nat) (s : State) : Res :=
  .next (engineOp core 1 .vpscore false (fun e s =>
    let v := e.va s
    let sum := nth (tree (addLane true) 6 ((List.range 64).map (lane v.1))) 0
    let ref := e.o.ga
    let i := fld ref 0 17
    let k := s.kseq i
    if fld ref 48 16 ≠ 0 then e.fault s .undefOperand
    else if !k.valid || k.stall ≠ e.t.stall then e.fault s .windowViolation
    else if v.2 ≠ 0 then e.fault s .poisonConsumed
    else match s.postScore i (fld ref 17 23) (fld ref 40 8) (scoreOf sum) with
      | some s => e.over s
      | none => e.fault (s.kvPoison i) .kvSeqPoisoned 0 i) s)

/-! ## The KV commands (R579 to R582, R608, R610, R613) -/

/-- A KV command ends with an outcome and the DATA bytes after it. -/
def State.kvDone (s : State) (sq : Nat) (c : Cmd) (outcome : Nat) (data : List Byte := []) : State :=
  s.completeCmd sq c.seq stSuccess 0 0 0 (leBytes 4 outcome ++ data)

/-- Outcomes (R580). -/
def kvRange : Nat := 1
def kvState : Nat := 2
def kvLimits : Nat := 3
def kvPoisoned : Nat := 4
def kvPosRange : Nat := 5
def kvPartial : Nat := 6

/-- The limits of R580 fail. -/
def badLimits (budget anchor recent cap pages : Nat) : Bool :=
  recent == 0 || decide (budget ≤ anchor + recent) || decide (cap < budget + 1) || decide (cap < pages)

/-- KV_SEQ_OPEN. -/
def execKvSeqOpen (sq : Nat) (s : State) : Res :=
  .next (s.runCmd sq 0x30 fun c st s =>
    let i := c.field 0x10 4
    let cap := c.field 0x14 2
    let list := c.field 0x18 8
    let p := c.field 0x24 1
    let given := (c.field 0x20 2, c.field 0x22 1, c.field 0x23 1)
    let lim := if given = (0, 0, 0) then
        (s.f .kvPoolLimits p 48 16, s.f .kvPoolLimits p 32 8, s.f .kvPoolLimits p 40 8) else given
    let ok := s.stallPool st p
    if list % 256 ≠ 0 || !s.cpRange st list (if ok then max 1 (listBytes cap (s.poolLayers p)) else 1) true false false then
      s.completeCmd sq c.seq stBadAddress
    else if !ok || !s.inPool p i then s.kvDone sq c kvRange
    else if (s.kseq i).valid then s.kvDone sq c kvState
    else if badLimits lim.1 lim.2.1 lim.2.2 cap 0 then s.kvDone sq c kvLimits
    else (s.setKseq i { KSeq.closed with
      valid := true, pool := p, stall := st, list := list, cap := cap, tailFill := s.poolT p, lastpos := noPage
      budget := lim.1, anchor := lim.2.1, recent := lim.2.2 }).kvDone sq c 0)

/-- The refusal that every command on an open sequence shares (R580); KV_SEQ_CLOSE takes a poisoned one. -/
def State.kvRefusal (s : State) (st i : Nat) (close : Bool) : Option Nat :=
  let k := s.kseq i
  if !s.seqInStall st i then some kvRange
  else if !k.valid then some kvState
  else if k.poisoned && !close then some kvPoisoned
  else none

/-- The pages of a position go back, in ascending layer; one whose number is poisoned is leaked (R582, R607, R613). -/
def State.freePosition (s : State) (k : KSeq) (pos : Nat) : State :=
  (List.range (s.poolLayers k.pool)).foldl (fun s l => match s.kvRead k.stall (s.wordAt k pos l) 4 with
    | some (n, false) => if n = noPage then s else s.givePage k.pool n
    | some (_, true) => s.addF .kvPoolStat2 k.pool 32 24 1
    | none => s) s

/-- A sequence is closed: its pages return and its entry is zeroed. -/
def State.closeSeq (s : State) (i : Nat) : State :=
  let k := s.kseq i
  ((List.range (if k.valid then k.pages else 0)).foldl (fun s p => s.freePosition k p) s).setKseq i KSeq.closed

/-- A started command of an SQ that a test selects. -/
def State.startedCmd (s : State) (sq op : Nat) (p : Cmd → Bool) : Option Cmd :=
  (s.sq sq).accepted.find? fun c => c.started && c.op == op && p c

/-- KV_SEQ_CLOSE: a close that waited and whose sequence is free ends; else the next command of the SQ, if it is one,
begins. -/
def execKvSeqClose (sq : Nat) (s : State) : Res :=
  .next (
    let free := fun (i : Nat) => (s.kseq i).holders.isEmpty
    match s.startedCmd sq 0x31 fun c => c.run.isNone && free (c.field 0x10 4) with
    | some c => (s.closeSeq (c.field 0x10 4)).kvDone sq c 0
    | none => s.runCmd sq 0x31 fun c st s =>
        let i := c.field 0x10 4
        match s.kvRefusal st i true with
        | some r => s.kvDone sq c r
        | none =>
          let k := s.kseq i
          if k.committing then s
          else if k.holders.isEmpty then (s.closeSeq i).kvDone sq c 0
          else (s.setKseq i { k with committing := true }).updCmd sq c.seq fun c => { c with started := true })

/-- KV_SEQ_SET. -/
def execKvSeqSet (sq : Nat) (s : State) : Res :=
  .next (s.runCmd sq 0x32 fun c st s =>
    let i := c.field 0x10 4
    let k := s.kseq i
    let b := c.field 0x20 2
    let a := c.field 0x22 1
    let r := c.field 0x23 1
    match s.kvRefusal st i true with
    | some x => s.kvDone sq c x
    | none =>
      if badLimits b a r k.cap k.pages then s.kvDone sq c kvLimits
      else if k.poisoned then s.kvDone sq c kvPoisoned
      else (s.setKseq i { k with budget := b, anchor := a, recent := r }).kvDone sq c 0)

/-- KV_DROP. -/
def execKvDrop (sq : Nat) (s : State) : Res :=
  .next (s.runCmd sq 0x35 fun c st s =>
    let i := c.field 0x10 4
    let pos := c.field 0x14 4
    let k := s.kseq i
    match s.kvRefusal st i false with
    | some r => s.kvDone sq c r
    | none =>
      if k.pages ≤ pos + 1 then s.kvDone sq c kvPosRange
      else match s.kvRead k.stall (s.recordAt k pos) 16 with
        | some (r, false) => match s.kvWrite k.stall (s.recordAt k pos) 8 (r % 2 ^ 48 + 2 ^ 48) with
          | some s => s.kvDone sq c 0
          | none => s.completeCmd sq c.seq stBadAddress
        | some (_, true) => (s.kvPoison i).kvDone sq c kvPoisoned
        | none => s.completeCmd sq c.seq stBadAddress)

/-- KV_SEQ_READ. -/
def execKvSeqRead (sq : Nat) (s : State) : Res :=
  .next (s.runCmd sq 0x36 fun c st s =>
    let i := c.field 0x10 4
    match s.kvRefusal st i false with
    | some r => s.kvDone sq c r
    | none => s.completeCmd sq c.seq stSuccess 0 0 0 (s.kseq i).bytes)

/-- KV_BATCH. -/
def execKvBatch (sq : Nat) (s : State) : Res :=
  .next (s.runCmd sq 0x34 fun c st s =>
    let p := c.field 0x10 1
    let mask := c.field 0x12 2
    let most := c.field 0x14 4
    let dst := c.field 0x18 8
    let from_ := c.field 0x20 4
    let ok := s.stallPool st p
    let base := s.f .kvPoolCount p 32 17
    let count := s.f .kvPoolSeq p 0 18
    if dst % 256 ≠ 0 || !s.cpRange st dst (if ok then max 1 (4 * min most count) else 1) true true true then
      s.completeCmd sq c.seq stBadAddress
    else if !ok then s.kvDone sq c kvRange
    else
      let start := max from_ base
      let all := ((List.range (base + count - start)).map fun j => start + j).filter fun i =>
        let k := s.kseq i
        k.valid && !k.poisoned && mask.testBit k.bucket
      let l := all.take most
      let last := l.getLast?.getD 0
      let next := if l.length = most && decide (last + 1 < base + count) then last + 1 else noPage
      let s := l.zipIdx.foldl (fun s e => s.cpWrite st (dst + 4 * e.2) (leBytes 4 e.1)) s
      s.kvDone sq c 0 (leBytes 4 l.length ++ leBytes 4 next))

/-! ## Commit (R602 to R607, R609) -/

/-- A sequence that a commit skips (R602). -/
def State.commitSkips (s : State) (st i : Nat) : Bool :=
  let k := s.kseq i
  !k.valid || k.stall != st || k.poisoned || (!k.appended.isEmpty && k.appended != List.range (s.poolLayers k.pool))

/-- A commit has ended: its outcome and counts. -/
def State.endCommit (s : State) (sq : Nat) (c : Cmd) (r : KvRun) : State :=
  s.kvDone sq c (if r.skipped = 0 then 0 else kvPartial)
    (leBytes 4 r.done ++ leBytes 4 r.skipped ++ leBytes 4 r.evicted ++ leBytes 4 (r.first.getD noPage))

/-- A sequence is skipped. -/
def KvRun.skip (r : KvRun) (i : Nat) : KvRun := { r with skipped := r.skipped + 1, first := some (r.first.getD i), cur := none }

/-- The next sequences of a commit: skipped ones are counted, the first other one is set COMMITTING unless another commit
or a close has it. -/
def State.nextCommit (s : State) (sq st : Nat) (c : Cmd) : (r : KvRun) → List Nat → State
  | r, [] => s.endCommit sq c { r with todo := [] }
  | r, i :: rest =>
    if s.commitSkips st i then s.nextCommit sq st c (r.skip i) rest
    else if (s.kseq i).committing then
      s.updCmd sq c.seq fun c => { c with started := true, run := some { r with todo := i :: rest, cur := none } }
    else (s.updKseq i fun k => { k with committing := true }).updCmd sq c.seq fun c =>
      { c with started := true, run := some { r with todo := rest, cur := some i } }

/-- KV_COMMIT: the command begins; `host` answers for a list of indices in host memory. -/
def execKvCommit (sq : Nat) (host : List Byte) (s : State) : Res :=
  .next (s.runCmd sq 0x33 fun c st s =>
    let n := c.field 0x14 4
    let a := c.field 0x18 8
    let r : KvRun := { todo := [], done := 0, skipped := 0, evicted := 0, first := none, cur := none }
    if n = 0 then s.nextCommit sq st c r [c.field 0x10 4]
    else if a % 4 ≠ 0 || !s.cpRange st a (4 * n) false true true then s.completeCmd sq c.seq stBadAddress
    else if !s.hostThere st a then s
    else match s.cpRead st a (4 * n) host with
      | none => s.completeCmd sq c.seq stBadAddress
      | some (d, _, s) => s.nextCommit sq st c r ((List.range n).map fun j => leNat ((d.drop (4 * j)).take 4)))

/-- A position of a list: its page numbers and its record, with whether one of them is poisoned. -/
def State.kvRow (s : State) (k : KSeq) (pos : Nat) : List Nat × Nat × Bool :=
  let w := (List.range (s.poolLayers k.pool)).map fun l => (s.kvRead k.stall (s.wordAt k pos l) 4).getD (noPage, false)
  let r := (s.kvRead k.stall (s.recordAt k pos) 16).getD (0, false)
  (w.map Prod.fst, r.1, r.2 || w.any Prod.snd)

/-- The fold of a score (R605), with ACC := 0. -/
def foldScore (decay shift r : Nat) : Nat :=
  let v := min 65535 (recScore r * (256 - decay) / 256 + recAcc r / 2 ^ shift)
  r / 2 ^ 48 * 2 ^ 48 + v * 2 ^ 32

/-- Positions that a commit evicts (R606), given the records after the fold. -/
def evictSet (anchor recent budget : Nat) (recs : List Nat) : List Nat :=
  let n := recs.length
  let idx := recs.zipIdx
  let drop := (idx.filter fun e => recDrop e.1).map Prod.snd
  let e := n - drop.length - budget
  let free := idx.filter fun (x : Nat × Nat) => !recDrop x.1 && decide (anchor ≤ x.2) && decide (x.2 + recent < n)
  let before := fun (y x : Nat × Nat) =>
    decide (recScore y.1 < recScore x.1) || (recScore y.1 == recScore x.1 && decide (y.2 < x.2))
  let low := free.filter fun (x : Nat × Nat) => decide ((free.filter fun (y : Nat × Nat) => before y x).length < e)
  (List.range n).filter fun p => drop.contains p || low.any fun x => x.2 == p

/-- A row is written back. -/
def State.putRow (s : State) (k : KSeq) (pos : Nat) (w : List Nat) (r : Nat) : State :=
  let s := w.zipIdx.foldl (fun s e => (s.kvWrite k.stall (s.wordAt k pos e.2) 4 e.1).getD s) s
  (s.kvWrite k.stall (s.recordAt k pos) 16 r).getD s

/-- The commit of a sequence (R604 to R607, R609), with the pages it evicted; none: its list area is damaged. -/
def State.commitSeq (s : State) (i : Nat) : Option (Nat × State) :=
  let k := s.kseq i
  let t := s.poolT k.pool
  let rows := (List.range k.pages).map (s.kvRow k)
  if rows.any fun r => r.2.2 then none
  else
    let k := if k.pending = 0 then k else { k with
      length := (k.length + k.pending) % 2 ^ 32, lastpos := k.pendlast
      tailFill := if k.provisional t then k.tailFill + k.pending - t else k.tailFill + k.pending }
    let rows := rows.map fun r => (r.1, foldScore (s.f .kvPoolCtl k.pool 32 8) (s.f .kvPoolCtl k.pool 40 5) r.2.1)
    let gone := evictSet k.anchor k.recent k.budget (rows.map Prod.snd)
    let pages := rows.zipIdx.foldl (fun n e => if gone.contains e.2 then
      n + (e.1.1.filter fun p => p != noPage).length else n) 0
    let s := gone.foldl (fun s p => s.freePosition k p) s
    let kept := (rows.zipIdx.filter fun e => !gone.contains e.2).map Prod.fst
    let s := kept.zipIdx.foldl (fun s e => s.putRow k e.2 e.1.1 e.1.2) s
    let s := s.addF .kvPoolStat k.pool 32 24 pages
    let s := s.trace k.stall 9 noCore 0 0 i
    some (pages, s.setKseq i { k with
      pages := kept.length, bucket := bucketOf kept.length, step := (k.step + 1) % 2 ^ 32, pending := 0, pendPos := []
      appended := [], committing := false })

/-- KV_COMMIT_PROCEED: the sequence at which a commit of the SQ stands is free of holds, and is committed; or one that
another commit or a close had is taken up. -/
def execKvCommitProceed (sq : Nat) (s : State) : Res :=
  .next (match s.startedCmd sq 0x33 fun _ => true with
    | none => s
    | some c => match c.run with
      | none => s
      | some r =>
        let st := (s.sqStall sq).getD 16
        match r.cur with
        | none => s.nextCommit sq st c r r.todo
        | some i =>
          let k := s.kseq i
          if !k.valid then s.nextCommit sq st c (r.skip i) r.todo
          else if !k.holders.isEmpty then s
          else if k.poisoned then
            (s.updKseq i fun k => { k with committing := false }).nextCommit sq st c (r.skip i) r.todo
          else match s.commitSeq i with
            | some (n, s) => s.nextCommit sq st c { r with done := r.done + 1, evicted := r.evicted + n, cur := none } r.todo
            | none =>
              ((s.kvPoison i).updKseq i fun k => { k with committing := false }).nextCommit sq st c (r.skip i) r.todo)

end Sys2Proof.Machine
end

