-- ==== Sys2Proof/Machine/Sha.lean ====
section
/-! DEFINITION. SHA-384, with which a harness header names its code (DIGEST, R389). The function is that of FIPS 180-4:
the spec gives it by its name alone. -/

namespace Sys2Proof.Machine

open Sys2Proof

/-- Round constants 0 to 39. -/
def shaK0 : List Word :=
  [0x428A2F98D728AE22, 0x7137449123EF65CD, 0xB5C0FBCFEC4D3B2F, 0xE9B5DBA58189DBBC,
   0x3956C25BF348B538, 0x59F111F1B605D019, 0x923F82A4AF194F9B, 0xAB1C5ED5DA6D8118,
   0xD807AA98A3030242, 0x12835B0145706FBE, 0x243185BE4EE4B28C, 0x550C7DC3D5FFB4E2,
   0x72BE5D74F27B896F, 0x80DEB1FE3B1696B1, 0x9BDC06A725C71235, 0xC19BF174CF692694,
   0xE49B69C19EF14AD2, 0xEFBE4786384F25E3, 0x0FC19DC68B8CD5B5, 0x240CA1CC77AC9C65,
   0x2DE92C6F592B0275, 0x4A7484AA6EA6E483, 0x5CB0A9DCBD41FBD4, 0x76F988DA831153B5,
   0x983E5152EE66DFAB, 0xA831C66D2DB43210, 0xB00327C898FB213F, 0xBF597FC7BEEF0EE4,
   0xC6E00BF33DA88FC2, 0xD5A79147930AA725, 0x06CA6351E003826F, 0x142929670A0E6E70,
   0x27B70A8546D22FFC, 0x2E1B21385C26C926, 0x4D2C6DFC5AC42AED, 0x53380D139D95B3DF,
   0x650A73548BAF63DE, 0x766A0ABB3C77B2A8, 0x81C2C92E47EDAEE6, 0x92722C851482353B]

/-- Round constants 40 to 79. -/
def shaK1 : List Word :=
  [0xA2BFE8A14CF10364, 0xA81A664BBC423001, 0xC24B8B70D0F89791, 0xC76C51A30654BE30,
   0xD192E819D6EF5218, 0xD69906245565A910, 0xF40E35855771202A, 0x106AA07032BBD1B8,
   0x19A4C116B8D2D0C8, 0x1E376C085141AB53, 0x2748774CDF8EEB99, 0x34B0BCB5E19B48A8,
   0x391C0CB3C5C95A63, 0x4ED8AA4AE3418ACB, 0x5B9CCA4F7763E373, 0x682E6FF3D6B2B8A3,
   0x748F82EE5DEFB2FC, 0x78A5636F43172F60, 0x84C87814A1F0AB72, 0x8CC702081A6439EC,
   0x90BEFFFA23631E28, 0xA4506CEBDE82BDE9, 0xBEF9A3F7B2C67915, 0xC67178F2E372532B,
   0xCA273ECEEA26619C, 0xD186B8C721C0C207, 0xEADA7DD6CDE0EB1E, 0xF57D4F7FEE6ED178,
   0x06F067AA72176FBA, 0x0A637DC5A2C898A6, 0x113F9804BEF90DAE, 0x1B710B35131C471B,
   0x28DB77F523047D84, 0x32CAAB7B40C72493, 0x3C9EBE0A15C9BEBC, 0x431D67C49C100D4C,
   0x4CC5D4BECB3E42B6, 0x597F299CFC657E2A, 0x5FCB6FAB3AD6FAEC, 0x6C44198C4A475817]

/-- Initial hash value. -/
def shaInit : List Word :=
  [0xCBBB9D5DC1059ED8, 0x629A292A367CD507, 0x9159015A3070DD17, 0x152FECD8F70E5939,
   0x67332667FFC00B31, 0x8EB44A8768581511, 0xDB0C2E0D64F98FA7, 0x47B5481DBEFA4FA4]

/-- The functions of the schedule and of a round. -/
def shaSmall0 (x : Word) : Word := x.rotateRight 1 ^^^ x.rotateRight 8 ^^^ (x >>> 7)
def shaSmall1 (x : Word) : Word := x.rotateRight 19 ^^^ x.rotateRight 61 ^^^ (x >>> 6)
def shaBig0 (x : Word) : Word := x.rotateRight 28 ^^^ x.rotateRight 34 ^^^ x.rotateRight 39
def shaBig1 (x : Word) : Word := x.rotateRight 14 ^^^ x.rotateRight 18 ^^^ x.rotateRight 41

/-- One round: the eight working words, and the sixteen words of the schedule from the round's own on. -/
def shaRound (k : Word) (s w : List Word) : List Word × List Word :=
  let g := fun (l : List Word) (i : Nat) => l.getD i 0
  let ch := (g s 4 &&& g s 5) ^^^ (~~~(g s 4) &&& g s 6)
  let maj := (g s 0 &&& g s 1) ^^^ (g s 0 &&& g s 2) ^^^ (g s 1 &&& g s 2)
  let t1 := g s 7 + shaBig1 (g s 4) + ch + k + g w 0
  let next := shaSmall1 (g w 14) + g w 9 + shaSmall0 (g w 1) + g w 0
  ([t1 + (shaBig0 (g s 0) + maj), g s 0, g s 1, g s 2, g s 3 + t1, g s 4, g s 5, g s 6], w.tail ++ [next])

/-- A block of sixteen words is taken into the hash value. -/
def shaBlock (h w : List Word) : List Word :=
  let r := (shaK0 ++ shaK1).foldl (fun (p : List Word × List Word) k => shaRound k p.1 p.2) (h, w)
  List.zipWith (· + ·) h r.1

/-- Bytes as a big-endian number. -/
def beNat (l : List Byte) : Nat := l.foldl (fun n b => 256 * n + b.toNat) 0

/-- The first n words of 8 bytes. -/
def beWords (l : List Byte) : (n : Nat) → List Word
  | 0 => []
  | n + 1 => BitVec.ofNat 64 (beNat (l.take 8)) :: beWords (l.drop 8) n

/-- The first n blocks of 128 bytes are taken in. -/
def shaBlocks (h : List Word) (l : List Byte) : (n : Nat) → List Word
  | 0 => h
  | n + 1 => shaBlocks (shaBlock h (beWords l 16)) (l.drop 128) n

/-- SHA-384 of bytes, as 384 bits. -/
def sha384 (m : List Byte) : Nat :=
  let n := (m.length + 17 + 127) / 128
  let pad := List.replicate (128 * n - m.length - 17) (0 : Byte)
  let l := m ++ [0x80] ++ pad ++ (leBytes 16 (8 * m.length)).reverse
  ((shaBlocks shaInit l n).take 6).foldl (fun v w => 2 ^ 64 * v + w.toNat) 0

end Sys2Proof.Machine
end

