-- ==== Sys2Proof/Machine/Power.lean ====
section
/-! DEFINITION. The VDD_CORE regulator, operating points, references, thermal and power limits and the fan
(spec/21_power_thermal.md), and the card's inputs (R788, R789). -/

namespace Sys2Proof.Machine

open Sys2Proof

/-! ## Shared -/

/-- Update the POWER functions' state. -/
def State.updPw (s : State) (f : Power → Power) : State := { s with pw := f s.pw }

/-- A regulator, reference or thermal fault: a class D entry of Ostler, and for a VR fault or a temperature warning a
Memory Module event in the Warning log (R126). -/
def State.powerFault (s : State) (c : FaultCode) (detail : Nat) (event : Bool) : State :=
  let s := s.advise c 6 detail
  if event then s.moduleEvent 1 c.code else s

/-- The low n bits of an integer. -/
def lowBits (n : Nat) (i : Int) : Nat := (i % (2 ^ n : Int)).toNat

/-- STAGE_STATUS.MGMT_UP: the MGMT image runs. -/
def State.mgmtUp (s : State) : Bool := s.f .stageStatus 0 6 1 == 1

/-- The Ostler island is powered. -/
def State.ostlerOn (s : State) : Bool := decide (3 ≤ s.pw.rails)

/-- THERM_STATUS.TRIPPED with rails 4 to 7 removed (R736). -/
def State.trippedOff (s : State) : Bool := s.f .thermStatus 0 58 1 == 1 && decide (s.pw.rails < 7)

/-! ## Effective OP and set-point (R724) -/

/-- Phases shed. -/
def State.shedCount (s : State) : Nat := ((List.range 6).filter fun p => bitAt (s.reg .vrPhase 0) (8 + p)).length

/-- The caps in force by bit of CAP_WHY: phase shed, sense lost, frozen sensor, thermal, power; 3 is none. -/
def State.caps5 (s : State) : List Nat :=
  [ if s.shedCount = 0 then 3 else if s.shedCount = 1 then 1 else 0,
    if s.f .vrStatus 0 21 1 = 1 then 1 else 3,
    if s.f .thermStatus 0 48 6 = 0 then 3 else 0,
    s.pw.capThermal,
    s.pw.capPower ]

/-- The effective cap. -/
def State.opCap (s : State) : Nat := s.caps5.foldl min 3

/-- The effective OP. -/
def State.effOp (s : State) : Nat := min (s.f .vrCtl 0 1 2) s.opCap

/-- The set-point of an OP in mV: SETPOINT, ADAPT and the guard, clamped to 500 to 850. -/
def State.setpointOf (s : State) (op : Nat) : Nat :=
  let v : Int := (s.f .vrOp op 0 10 : Int) + signed 8 (s.f .vrStatus 0 24 8) + (if s.f .vrStatus 0 23 1 = 1 then 25 else 0)
  (max 500 (min 850 v)).toNat

/-- OP_CAP, CAP_WHY and SETPOINT_NOW follow what is in force. -/
def State.recap (s : State) : State :=
  let why := s.caps5.zipIdx.foldl (fun (w : Nat) (e : Nat × Nat) => if e.1 < 3 then w + 2 ^ e.2 else w) 0
  ((s.setF .vrCtl 0 5 2 s.opCap).setF .vrCtl 0 8 5 why).setF .vrStatus 0 10 10 (s.setpointOf s.effOp)

/-! ## VDD_CORE on and off -/

/-- VDD_CORE power-good (R720). -/
def State.corePg (s : State) : Bool := s.f .vrStatus 0 20 1 == 1

/-- VDD_CORE is off: power-good is deasserted and nothing is sensed on the rail; a ramp that was under way is over. -/
def State.coreOff (s : State) : State :=
  ((s.setF .vrStatus 0 20 1 0).setF .vrStatus 0 0 10 0).updPw fun p => { p with target := none }

/-- VDD_CORE goes off and stays off until RESTAGE or PERST#, under a compute fence (R719, R720, R722). -/
def State.coreLatch (s : State) (cause : Nat) : State :=
  (s.coreOff.updPw fun p => { p with latched := true, pgFaultAt := none }).fenceOn cause

/-- The latches that RESTAGE and PERST# end: shed phases and leg faults, local sense, frozen ADC, an off rail
(R718 to R722). -/
def State.unlatchCore (s : State) : State :=
  let s := (s.setReg .vrPhase 0 (s.reg .vrPhase 0 &&& 0x3F)).setF .vrStatus 0 21 2 0
  (s.updPw fun p => { p with
    latched := false, pgFaultAt := none, retried := false, legFaults := [], phases := [] }).recap

/-- VR_CTL.ENABLE is set: shed phases and local sense end (R718, R721), and the rail may ramp. -/
def State.vrStart (s : State) : State :=
  let s := (s.setReg .vrPhase 0 (s.reg .vrPhase 0 &&& 0x3F)).setF .vrStatus 0 21 1 0
  (s.updPw fun p => { p with legFaults := [], phases := [] }).recap

/-- VDD_CORE reaches regulation and power-good is asserted; a CORE_POWER_GOOD fence lifts (R51, R720). -/
def execPowerGoodAssert (vout : Nat) (s : State) : Res :=
  .next (
    let ready := match s.pw.pgFaultAt with
      | none => true
      | some _ => s.pw.retried
    let op := s.f .vrCtl 0 3 2
    let sp := s.setpointOf op
    if s.corePg || s.f .vrCtl 0 0 1 = 0 || s.pw.rails ≠ 7 || s.pw.latched || s.pw.undervolt || !ready || s.stageNow = 0
        || (!s.mgmtUp && s.stageNow = 1) || vout + 50 < sp || sp + 50 < vout then s
    else
      let s := ((s.setF .vrStatus 0 20 1 1).setF .vrStatus 0 0 10 vout).recap
      let s := s.updPw fun p => { p with pgFaultAt := none, retried := false }
      ({ s with stage := { s.stage with vrReason := none } }).fenceOff 7)

/-- Power-good deasserts and isolation closes; the phases stop if the rail was too high (R720). -/
def State.corePgFault (s : State) : State :=
  ((s.setF .vrStatus 0 20 1 0).updPw fun p => { p with pgFaultAt := some s.now, retried := false, target := none }).fenceOn 7

/-- POWER_GOOD_FAULT: VDD_CORE has stayed outside the window for 10 µs, or (`high`) exceeded 0.90 V for 1 µs; after the
ramp of R720, the rail has not returned. -/
def execPowerGoodFault (high : Bool) (vout : Nat) (s : State) : Res :=
  .next (
    let sp := s.setpointOf s.effOp
    let bad := if high then decide (900 < vout) else decide (vout + 50 < sp) || decide (sp + 50 < vout)
    if !bad || s.f .vrCtl 0 0 1 = 0 then s
    else if s.corePg then (s.setF .vrStatus 0 0 10 vout).corePgFault
    else if s.pw.pgFaultAt.isSome && s.pw.retried then
      s.coreOff.updPw fun p => { p with latched := true, pgFaultAt := none, retried := false }
    else s)

/-- POWER_GOOD_RETRY: 10 ms after a power-good fault, one ramp to the OP1 set-point (R720). -/
def execPowerGoodRetry (s : State) : Res :=
  .next (match s.pw.pgFaultAt with
    | some t =>
      if s.pw.retried || s.pw.latched || s.f .vrCtl 0 0 1 = 0 then s
      else ((s.notBefore (t + 10000000)).setF .vrCtl 0 3 2 1).updPw fun p => { p with retried := true }
    | none => s)

/-! ## Phases (R710 to R719) -/

/-- A phase. -/
def State.phase (s : State) (p : Nat) : Phase := Tbl.get Phase.idle s.pw.phases p

/-- Replace it. -/
def State.setPhase (s : State) (p : Nat) (v : Phase) : State :=
  s.updPw fun w => { w with phases := Tbl.put Phase.idle w.phases p v }

/-- A phase switches: enabled, not shed, and 12V_B is good (R710, R788). -/
def State.switches (s : State) (p : Nat) : Bool :=
  decide (p < 6) && bitAt (s.reg .vrPhase 0) p && !bitAt (s.reg .vrPhase 0) (8 + p) && !s.pw.undervolt
    && s.f .vrCtl 0 0 1 == 1 && s.pw.rails == 7 && !s.pw.latched && decide (1 ≤ s.stageNow)

/-- Period and steps: 8,000 steps of 156.25 ps a period, 6.4 a nanosecond. -/
def vrPeriod : Int := 8000

/-- The on-time of a period in steps from the loop's demand (R712); `ton`, `toff` in ns, `dead` in half ns, `dmax` in
1/256. Comparisons are in tenths of a step; on-times are placed to the nearest step (R711). -/
def onTime (ton toff dead dmax : Nat) (carry : Int) (skips : Nat) (demand : Int) : Nat × Int × Nat × Bool :=
  let req := demand + carry
  if demand ≤ 0 then (0, 0, 0, false)
  else if 10 * req < 64 * ton ∧ skips < 4 then (0, req, skips + 1, true)
  else if 10 * req < 64 * ton then ((64 * ton + 5) / 10, 0, 0, false)
  else if 10 * (vrPeriod - req) < 64 * dead + 64 * toff then ((125 * dmax + 2) / 4, 0, 0, false)
  else (req.toNat, 0, 0, false)

/-- PWM_PERIOD: a phase begins a period with the control loop's demand in steps. A leg on which the limit did not act in
the period that ends starts its count again (R717). -/
def execPwmPeriod (phase : Nat) (demand : Int) (s : State) : Res :=
  .next (
    if !s.switches phase || s.f .vrStatus 0 22 1 = 1 then s
    else
      let k := s.phase phase
      let w := s.reg .vrPwm 0
      let r := onTime (fld w 8 8) (fld w 16 8) (fld w 0 7) (fld w 24 8) k.carry k.skips demand
      let s := if r.2.2.2 then s.addF .vrStatus 0 48 16 1 else s
      s.setPhase phase { k with
        on := r.1, carry := r.2.1, skips := r.2.2.1
        hs := if k.hsNow then k.hs else 0, ls := if k.lsNow then k.ls else 0, hsNow := false, lsNow := false })

/-- Shutdown (R719): the phases that faulted are off, the rest ramp down, and compute is fenced. -/
def State.vrShutdown (s : State) : State := s.coreLatch 2

/-- A leg fault (R717 to R719). -/
def State.legFault (s : State) (phase : Nat) (low hard : Bool) : State :=
  let s := s.setF .vrPhase 0 ((if low then 24 else 16) + phase) 1 1
  let recent := s.pw.legFaults.any fun e => e.1 != phase && decide (s.now ≤ e.2 + 1250)
  let s := s.updPw fun p => { p with legFaults := p.legFaults ++ [(phase, s.now)] }
  if recent then s.vrShutdown
  else
    let s := s.setF .vrPhase 0 (8 + phase) 1 1
    let s := (s.setPhase phase Phase.idle).powerFault .vrPhaseShed (phase + 8 * bit low + 16 * bit hard) true
    if 3 ≤ s.shedCount then s.vrShutdown else s.recap

/-- OVERCURRENT_TRIP: the cycle-by-cycle limit turns a leg off for the rest of the period; in 8 consecutive periods it is
a leg fault (R715, R717). -/
def execOvercurrentTrip (phase : Nat) (low : Bool) (s : State) : Res :=
  .next (
    let k := s.phase phase
    if !s.switches phase || (if low then k.lsNow else k.hsNow) then s
    else
      let n := (if low then k.ls else k.hs) + 1
      let k := if low then { k with ls := n, lsNow := true } else { k with hs := n, hsNow := true, on := 0 }
      let s := s.setPhase phase k
      if 8 ≤ n then s.legFault phase low false else s)

/-- HARD_SHORT: the comparator at 2 × OC_LIMIT turns a leg off (R716, R717). -/
def execHardShort (phase : Nat) (low : Bool) (s : State) : Res :=
  .next (if s.switches phase then s.legFault phase low true else s)

/-! ## Feedback (R721 to R723) -/

/-- REMOTE_SENSE_LOST: the bias probe, or 16 samples of disagreement, show an open sense. -/
def execRemoteSenseLost (probe : Bool) (remote loc : Nat) (s : State) : Res :=
  .next (
    let apart := decide (remote + 60 < loc) || decide (loc + 60 < remote)
    if s.f .vrCtl 0 0 1 = 0 || s.f .vrStatus 0 21 1 = 1 || s.f .vrStatus 0 22 1 = 1 || !(probe || apart) then s
    else ((s.setF .vrStatus 0 21 1 1).powerFault .vrSenseLost
      (bit probe + 2 ^ 16 * (remote % 2 ^ 16) + 2 ^ 32 * (loc % 2 ^ 16)) true).recap)

/-- ADC_FROZEN: `counter`: the conversion counter stalled; else the dithered bit did not change. -/
def execAdcFrozen (counter : Bool) (s : State) : Res :=
  .next (
    if s.f .vrCtl 0 0 1 = 0 || s.f .vrStatus 0 22 1 = 1 || !s.corePg then s
    else ((s.setF .vrStatus 0 22 1 1).powerFault .vrAdcFrozen (bit counter) true).coreLatch 3)

/-! ## OP changes and ADAPT (R725 to R727) -/

/-- Time of an OP change: the slew at 5 mV/µs and the hold of 2 µs. -/
def State.opTime (s : State) (from_ to_ : Nat) : Nat :=
  let a := s.setpointOf from_
  let b := s.setpointOf to_
  200 * (if a ≤ b then b - a else a - b) + 2000

/-- A change to the effective OP begins, if one is due: an increase waits while a thermal fence is in force. -/
def State.beginOp (s : State) : State :=
  let cur := s.f .vrCtl 0 3 2
  let op := s.effOp
  if !s.corePg || s.pw.target.isSome || op = cur || (decide (cur < op) && s.stage.fences.contains 1) then s
  else s.updPw fun p => { p with target := some (op, s.now + s.opTime cur op) }

/-- OP_CHANGE: the VR controller starts a change; while Ostler restarts, new requests wait (R696). -/
def execOpChange (s : State) : Res := .next (if s.mgmtUp then s.beginOp else s)

/-- OP_CHANGE_COMPLETE: CCLK has changed; a cap that arrived meanwhile lowers where the change ends, ADAPT starts again
from 0, and a request that arrived meanwhile is taken. -/
def execOpChangeComplete (s : State) : Res :=
  .next (match s.pw.target with
    | none => s
    | some (op, at_) =>
      let s := s.notBefore at_
      let s := (s.setF .vrCtl 0 3 2 (min op s.opCap)).setF .vrStatus 0 24 8 0
      let s := (s.updPw fun p => { p with target := none }).recap
      if s.mgmtUp then s.beginOp else s)

/-- Set ADAPT in mV. -/
def State.setAdapt (s : State) (v : Int) : State := (s.setF .vrStatus 0 24 8 (lowBits 8 v)).recap

/-- ADAPT_TICK: once per ms, Ostler moves ADAPT by the least slack of the powered cores. -/
def execAdaptTick (slack : Nat) (s : State) : Res :=
  .next (
    if !s.mgmtUp || !s.corePg || s.f .vrAdapt 0 0 1 = 0 then s
    else
      let s := s.notBefore ((s.pw.adaptAt.map (· + 1000000)).getD 0)
      let s := match s.pw.droopAt with
        | some t => s.notBefore (t + 10000000)
        | none => s
      let s := s.updPw fun p => { p with adaptAt := some s.now, droopAt := none }
      let lo := s.f .vrAdapt 0 16 8
      let hi := if s.f .vrAdapt 0 24 8 ≤ lo then lo + 1 else s.f .vrAdapt 0 24 8
      let a := signed 8 (s.f .vrStatus 0 24 8)
      if hi ≤ slack then s.setAdapt (max (-(min 100 (s.f .vrAdapt 0 8 8) : Int)) (a - 5))
      else if slack < lo then s.setAdapt (min 0 (a + 5))
      else s)

/-- DROOP_ALARM: a path monitor reports zero slack. -/
def execDroopAlarm (s : State) : Res :=
  .next (if s.corePg then (s.setAdapt 0).updPw fun p => { p with droopAt := some s.now } else s)

/-! ## References (R728 to R731) -/

/-- The PLLs that a drifting reference feeds move to the other (R730). -/
def State.switchPlls (s : State) (refclk : Bool) : State :=
  if refclk then (s.setF .refStatus 0 49 1 1).setF .refStatus 0 50 1 0
  else (s.setF .refStatus 0 50 1 1).setF .refStatus 0 49 1 0

/-- Some PLL runs from the reference named. -/
def State.feeds (s : State) (refclk : Bool) : Bool :=
  if refclk then s.f .refStatus 0 49 1 == 0 else s.f .refStatus 0 50 1 == 0

/-- CLK_DRIFT_WARN. -/
def State.clockWarn (s : State) (d xo : Int) (refA xoA switched : Bool) : State :=
  (s.setF .refStatus 0 48 1 1).powerFault .clkDriftWarn
    (lowBits 16 d + 2 ^ 16 * lowBits 16 xo + 2 ^ 32 * bit refA + 2 ^ 33 * bit xoA + 2 ^ 34 * bit switched) false

/-- CLOCK_REF_CHECK: one 10 ms window. Deviations in ppm: REFCLK from the XO, REFCLK from the witness, the XO from the
witness; those of REFCLK are corrected by SSC_MEAN. -/
def execClockRefCheck (refXo refW xoW : Int) (s : State) : Res :=
  .next (
    if !s.ostlerOn then s else
    let ssc : Int := (min 2500 (s.f .refCfg 0 0 12) : Nat)
    let d := refXo + ssc
    let refA := decide (150 < (refW + ssc).natAbs)
    let xoA := decide (150 < xoW.natAbs)
    let s := (s.setF .refStatus 0 0 16 (lowBits 16 d)).setF .refStatus 0 16 16 (lowBits 16 xoW)
    let far := decide (400 < d.natAbs)
    let s := if d.natAbs ≤ 200 then
        match s.pw.clkOkAt with
        | none => s.updPw fun p => { p with clkOkAt := some s.now }
        | some t => if s.now < t + 10 ^ 10 then s else (s.setF .refStatus 0 48 1 0).fenceOff 4
      else
        let s := s.updPw fun p => { p with clkOkAt := none }
        let sw := far && (refA != xoA) && s.feeds refA
        if s.f .refStatus 0 48 1 = 0 || sw then
          (if sw then s.switchPlls refA else s).clockWarn d xoW refA xoA sw
        else s
    if far && refA == xoA then s.fenceOn 4 else s)

/-- REFCLK_LOSS: REFCLK is absent for 10 µs; it is treated as attributed. -/
def execRefclkLoss (s : State) : Res :=
  .next (
    if !s.ostlerOn || !s.feeds true then s
    else (s.switchPlls true).clockWarn (signed 16 (s.f .refStatus 0 0 16)) (signed 16 (s.f .refStatus 0 16 16)) true false true)

/-- VREF_CHECK: the bandgaps' disagreement in 0.01 %. -/
def execVrefCheck (diff : Nat) (s : State) : Res :=
  .next (
    if !s.ostlerOn then s else
    let s := s.setF .refStatus 0 32 16 (min diff 65535)
    let warned := s.f .refStatus 0 51 1 == 1
    let s := if 60 < diff && !warned then
        ((s.setF .refStatus 0 51 1 1).setF .vrStatus 0 23 1 1).powerFault .vrefDriftWarn (diff % 2 ^ 16) false else s
    let s := if 150 < diff then s.fenceOn 5 else s
    let s := s.updPw fun p => { p with
      vrefWarnOk := if diff < 40 then some (p.vrefWarnOk.getD s.now) else none
      vrefFenceOk := if diff < 100 then some (p.vrefFenceOk.getD s.now) else none }
    let past := fun (o : Option Nat) => match o with
      | some t => decide (t + 10 ^ 10 ≤ s.now)
      | none => false
    let s := if past s.pw.vrefWarnOk then (s.setF .refStatus 0 51 1 0).setF .vrStatus 0 23 1 0 else s
    (if past s.pw.vrefFenceOk then s.fenceOff 5 else s).recap)

/-! ## Temperature (R732 to R735, R743) -/

/-- Thermal and power limits in force (R743). -/
def State.thermOn (s : State) : Bool := s.f .thermCtl 0 0 1 == 1
def State.warnC (s : State) : Int := if s.thermOn then (s.f .thermCtl 0 8 8 : Nat) else 100
def State.fenceC (s : State) : Int := if s.thermOn then (s.f .thermCtl 0 16 8 : Nat) else 110
def State.limitW (s : State) : Nat := if s.thermOn then s.f .powerLimit 0 0 8 else 120
def State.passiveW (s : State) : Nat := if s.thermOn then s.f .powerLimit 0 8 8 else 75

/-- A sensor's latest reading, and whether it is frozen. -/
def State.tempOf (s : State) (k : Nat) : Int := signed 8 (s.f .thermStatus 0 (8 * k) 8)
def State.frozen (s : State) (k : Nat) : Bool := bitAt (s.reg .thermStatus 0) (48 + k)
def State.anyFrozen (s : State) : Bool := s.f .thermStatus 0 48 6 != 0

/-- The junction temperature and the hottest sensor (R732); none if every sensor is frozen. -/
def State.junction (s : State) : Option (Int × Nat) :=
  ((List.range 6).filter fun k => !s.frozen k).foldl (fun m k =>
    match m with
    | some (t, j) => if t < s.tempOf k then some (s.tempOf k, k) else some (t, j)
    | none => some (s.tempOf k, k)) none

/-- The junction as R733 takes it: a frozen sensor reads as WARN. -/
def State.junctionWarm (s : State) : Int :=
  match s.junction with
  | some (t, _) => if s.anyFrozen then max t s.warnC else t
  | none => s.warnC

/-- S0 to S3 are all frozen. -/
def State.coreBlind (s : State) : Bool := (List.range 4).all s.frozen

/-- R733 and R734 on the present readings. -/
def State.thermal (s : State) : State :=
  let j := s.junctionWarm
  let hot := decide (s.warnC ≤ j)
  let cool := decide (j < s.warnC - 5)
  let was := s.f .thermStatus 0 56 1 == 1
  let s := s.setF .thermStatus 0 56 1 (bit hot)
  let s := if hot && !was then
      s.powerFault .thermalWarn (lowBits 8 j + 2 ^ 8 * ((s.junction.map Prod.snd).getD 0)) true else s
  let s := if hot && 0 < s.pw.capThermal && (!was || s.pw.capAt + 100000000 ≤ s.now) then
      s.updPw fun p => { p with capThermal := p.capThermal - 1, capAt := s.now } else s
  let s := s.updPw fun p => { p with coolAt := if cool then some (p.coolAt.getD s.now) else none }
  let second := match s.pw.coolAt with
    | some t => decide (t + 10 ^ 9 ≤ s.now)
    | none => false
  let s := if second && s.pw.capThermal < 3 && s.pw.capAt + 10 ^ 9 ≤ s.now then
      s.updPw fun p => { p with capThermal := p.capThermal + 1, capAt := s.now } else s
  let over_ := match s.junction with
    | some (t, _) => decide (s.fenceC ≤ t)
    | none => false
  let s := if over_ || s.coreBlind then (s.setF .thermStatus 0 57 1 1).fenceOn 1
    else if second && s.f .thermStatus 0 57 1 = 1 then (s.setF .thermStatus 0 57 1 0).fenceOff 1 else s
  s.recap

/-- THERMAL_TICK: a sensor converts. A frozen one that has converted for 10 s is frozen no longer. -/
def execThermalTick (sensor : Nat) (temp : Int) (s : State) : Res :=
  .next (
    if 6 ≤ sensor || !s.ostlerOn then s
    else if !s.frozen sensor then (s.setF .thermStatus 0 (8 * sensor) 8 (lowBits 8 temp)).thermal
    else
      let t := Tbl.get s.now s.pw.thaw sensor
      if s.now < t + 10 ^ 10 then s.updPw fun p => { p with thaw := Tbl.insert sensor t p.thaw }
      else
        let s := s.updPw fun p => { p with thaw := Tbl.erase sensor p.thaw }
        ((s.setF .thermStatus 0 (48 + sensor) 1 0).setF .thermStatus 0 (8 * sensor) 8 (lowBits 8 temp)).thermal)

/-- The fan's duty at full. -/
def State.fanFull (s : State) : State := if s.card.order = .a256 then s.setF .fanStatus 0 24 8 100 else s

/-- TEMP_SENSOR_FROZEN: `counter`: the conversion counter stalled; else the reading did not change. A sensor that was
converting again starts its 10 s over. -/
def execTempSensorFrozen (sensor : Nat) (counter : Bool) (s : State) : Res :=
  .next (
    if 6 ≤ sensor || !s.ostlerOn then s
    else
      let s := s.updPw fun p => { p with thaw := Tbl.erase sensor p.thaw }
      if s.frozen sensor then s
      else (((s.setF .thermStatus 0 (48 + sensor) 1 1).powerFault .tempSensorFrozen (sensor + 8 * bit counter) false).fanFull).thermal)

/-! ## Card power (R737, R788, R789) -/

/-- The effective limit, in W. -/
def State.effLimit (s : State) : Nat :=
  let l := if s.f .fanStatus 0 16 3 = 4 then min s.limitW s.passiveW else s.limitW
  if s.f .powerStatus 0 32 1 = 0 then 75 else l

/-- POWER_LIMIT_TICK: a 10 ms average: card and core power in 0.1 W, rail current in 0.25 A, rail voltage in mV. -/
def execPowerLimitTick (card core iout vout : Nat) (s : State) : Res :=
  .next (
    if !s.ostlerOn then s else
    let s := s.notBefore ((s.pw.powerAt.map (· + 10000000)).getD 0)
    let s := (s.setF .powerStatus 0 0 16 (min card 65535)).setF .powerStatus 0 16 16 (min core 65535)
    let s := (s.setF .vrStatus 0 32 16 (min iout 65535)).setF .vrStatus 0 0 10 (min vout 1023)
    let s := s.updPw fun p => { p with powerAt := some s.now }
    let lim := 10 * s.effLimit
    let low := decide (card + 100 < lim)
    let s := if lim < card then s.updPw fun p => { p with capPower := p.capPower - 1, lowAt := none }
      else if low then s.updPw fun p => { p with lowAt := some (p.lowAt.getD s.now) }
      else s.updPw fun p => { p with lowAt := none }
    let s := match s.pw.lowAt with
      | some t => if t + 100000000 ≤ s.now && s.pw.capPower < 3 then
          s.updPw fun p => { p with capPower := p.capPower + 1, lowAt := some s.now } else s
      | none => s
    s.recap)

/-- AUX_DETECT: the AUX input becomes present or absent (R789). -/
def execAuxDetect (present : Bool) (s : State) : Res := .next (if s.ostlerOn then s.setF .powerStatus 0 32 1 (bit present) else s)

/-- V12B_UNDERVOLTAGE: 12V_B falls below 9.0 V, or rises above 9.5 V again (R788). -/
def execV12bUndervoltage (low : Bool) (s : State) : Res := .next (s.updPw fun p => { p with undervolt := low })

/-! ## Fan (R738 to R741) -/

/-- FAN_STATUS.STATE. -/
def State.fanState (s : State) : Nat := s.f .fanStatus 0 16 3

/-- Enter a fan state. -/
def State.setFan (s : State) (st : Nat) : State := (s.setF .fanStatus 0 16 3 st).updPw fun p => { p with fanAt := s.now }

/-- The fan is to start: ENABLE set, or the MGMT image taking over. FAN_STALL ends when ENABLE is set (R739, R740). -/
def State.fanWanted (s : State) (enable : Bool) : State :=
  if s.card.order ≠ .a256 then s
  else
    let s := if enable || s.fanState ≠ 4 then (s.setFan 0).setF .fanStatus 0 20 4 0 else s
    s.updPw fun p => { p with fanWant := p.fanWant || s.fanState != 4 }

/-- FAN_START: a start, or a retry 5 s after a failed one. -/
def execFanStart (s : State) : Res :=
  .next (
    if s.card.order ≠ .a256 || !s.mgmtUp then s
    else if s.fanState = 2 then
      let s := s.notBefore (s.pw.fanAt + 5 * 10 ^ 9)
      (((s.setF .fanStatus 0 20 4 (s.f .fanStatus 0 20 4 + 1)).setFan 1).fanFull)
    else if s.pw.fanWant then ((s.updPw fun p => { p with fanWant := false }).setFan 1).fanFull
    else s)

/-- FAN_START_CHECK: the speed at the end of a start. -/
def execFanStartCheck (rpm : Nat) (s : State) : Res :=
  .next (
    if s.fanState ≠ 1 then s
    else
      let s := (s.notBefore (s.pw.fanAt + 2 * 10 ^ 9)).setF .fanStatus 0 0 16 (min rpm 65535)
      let n := s.f .fanStatus 0 20 4
      if 300 < rpm then s.setFan 3
      else if n < 3 then s.setFan 2
      else ((s.setFan 4).fanFull).powerFault .fanStall (min rpm 65535 + 2 ^ 16 * n) false)

/-- FAN_CONTROL_TICK: once per second, the duty. `duty` is what holds the junction at TARGET; `rpm` is the speed. A fan
whose tach has been back for 10 s runs again (R741). -/
def execFanControlTick (duty rpm : Nat) (s : State) : Res :=
  .next (
    if s.card.order ≠ .a256 || !s.mgmtUp || (s.fanState ≠ 3 && s.fanState ≠ 5) then s
    else
      let s := (s.notBefore (s.pw.fanAt + 10 ^ 9)).setF .fanStatus 0 0 16 (min rpm 65535)
      let s := s.updPw fun p => { p with fanAt := s.now }
      if s.fanState = 5 then
        let s := s.updPw fun p => { p with tachBackAt := if 300 < rpm then some (p.tachBackAt.getD s.now) else none }
        match s.pw.tachBackAt with
        | some t => if t + 10 ^ 10 ≤ s.now then (s.setFan 3).updPw fun p => { p with tachBackAt := none } else s
        | none => s
      else
        let low := s.f .fanCtl 0 8 8
        let d := if decide (s.warnC ≤ s.junctionWarm) || s.anyFrozen then 100
          else if s.f .fanCtl 0 1 1 = 1 then low else max low (min duty 100)
        s.setF .fanStatus 0 24 8 d)

/-- TACH_LOST: a running fan's tach shows no edge for 1 s. -/
def execTachLost (s : State) : Res :=
  .next (
    if s.fanState ≠ 3 then s
    else
      let last := s.f .fanStatus 0 0 16
      let s := ((s.setFan 5).setF .fanStatus 0 19 1 1).setF .fanStatus 0 0 16 0
      ((s.updPw fun p => { p with tachBackAt := none }).fanFull).powerFault .tachLost last false)

end Sys2Proof.Machine
end

