-- ==== Sys2Proof/Machine/TackOps.lean ====
section
/-! DEFINITION. How a tack check's result is recorded (R212, R221, R229), and the refusal of checks whose party is reset
(R218). -/

namespace Sys2Proof.Machine

open Sys2Proof

/-- TACK_STATUS of a block (R216). -/
def tackReg (block : Nat) : Reg :=
  match block with
  | 1 => .stallTack | 2 => .sqTack | 3 => .streamTack | 4 => .ringTack | 5 => .hitchTack | 6 => .kvTack | 7 => .reinTack
  | 8 => .vrTack | 9 => .fanTack | 0xA => .bridleTack | 0xB => .hrnTack | _ => .gbTack

/-- A check of a block begins: RESULT of the bank reads 0b11. -/
def State.tackRunning (s : State) (block bank : Nat) : State :=
  s.setRegB (tackReg block) bank (setFld (s.regB (tackReg block) bank) 0 2 3)

/-- A check of a block ends: code 0 accepted (R212, R229). -/
def State.tackResult (s : State) (block inst bank code field : Nat) : State :=
  if code = 0 then
    (s.setRegB (tackReg block) bank 1).addF .tackCount 0 0 32 1
  else
    let s := s.setRegB (tackReg block) bank (BitVec.ofNat 64 (2 + 16 * (field % 4096) + 2 ^ 16 * code))
    (s.setReg .tackLast 0 (BitVec.ofNat 64 (code + 2 ^ 16 * (field % 4096) + 2 ^ 32 * (inst % 4096) + 2 ^ 44 * bank
      + 2 ^ 63))).addF .tackCount 0 32 32 1

/-- Common reason codes of a block (R225). -/
def tcUndef : Nat := 1
def tcRange : Nat := 2
def tcMisaligned : Nat := 3
def tcRefOff : Nat := 4
def tcRefOther : Nat := 5
def tcStall : Nat := 6
def tcNotAvailable : Nat := 7
def tcWindow : Nat := 8
def tcReset : Nat := 9

/-- Replace a block's checks. -/
def State.setChecks (s : State) (block : Nat) (l : List Check) : State :=
  { s with tack := { s.tack with queues := Tbl.put [] s.tack.queues block l } }

/-- A party that runs checks is reset: its blocks' waiting and running checks refuse with CHECKER_RESET (R218). -/
def State.refuseChecks (s : State) (p : Nat → Bool) : State :=
  s.tack.queues.foldl (fun s e =>
    if p e.1 then
      e.2.foldl (fun s c => s.tackResult e.1 c.inst c.bank (256 * e.1 + tcReset) 0) (s.setChecks e.1 [])
    else s) s

/-- Blocks whose checks run on Ostler, and on the CP (R216). -/
def onOstler (block : Nat) : Bool := block == 8 || block == 9
def onCp (block : Nat) : Bool := block != 8 && block != 9 && block != 0xC

end Sys2Proof.Machine
end

