-- ==== Sys2Proof/Machine/Resets.lean ====
section
/-! DEFINITION. The reset scopes as operations: the end of a session and of Owner authority (R181, R187), requester reset
(R129, R164), the PERST# scope (R76, R783), the restart of the CP (R693) and of Ostler's image, and loss of power
(R792). -/

namespace Sys2Proof.Machine

open Sys2Proof

/-! ## Owner authority -/

/-- Keys of the staged copy, and of the active entries' fields (STALL_STATE is none of them). -/
def stagedKey (k : Nat) : Bool := 0x101000 ≤ k && k < 0x102000
def activeKey (k : Nat) : Bool := 0x102000 ≤ k && k < 0x103000 && k % 0x100 != 0xA0

/-- The staged copy is reloaded from the active copy (R187). -/
def State.reloadStaged (s : State) : State :=
  let rest := Tbl.keep (fun k => !stagedKey k) s.regs
  { s with regs := (s.regs.filter fun e => activeKey e.1).foldl (fun t e => Tbl.insert (e.1 - 0x1000) e.2 t) rest }

/-- Owner authority of a holder code ends: its staged edits go and its hold ends (R187); a debug session closes (R764). -/
def State.ownerEnds (s : State) (code : Nat) : State :=
  let s := if s.f .stallEdit 0 0 5 = code then s.reloadStaged.setF .stallEdit 0 0 5 0x1F else s
  s.setF .dbgSession 0 0 1 0

/-- The host Owner session, if any, ends (R181). -/
def State.endOwnerSession (s : State) : State :=
  if s.f .gbOwner 0 1 1 = 0 then s
  else
    let req := s.f .gbOwner 0 2 4
    let s := { s with gb := { s.gb with sessions := s.gb.sessions.filter fun e => !e.owner } }
    (s.setF .gbOwner 0 1 5 0).ownerEnds req

/-- Every session of a requester ends. -/
def State.endSessions (s : State) (req : Nat) : State :=
  let s := if s.f .gbOwner 0 1 1 = 1 && s.f .gbOwner 0 2 4 = req then s.endOwnerSession else s
  { s with gb := { s.gb with sessions := s.gb.sessions.filter fun e => e.req != req } }

/-! ## Requester reset (R128, R129, R164) -/

/-- A requester's requests and snoops at DCOH: its accepted writes will complete, its reads have no requester left, it
holds no line, and its unanswered snoops count as answered without data (R129 step 1, R164). -/
def DReq.withoutHost (req : Nat) (r : DReq) : Option DReq :=
  match r.kind with
  | .hostRd q _ _ => if q = req then none else some r
  | .hostWr q dpa _ d p => if q = req then some { r with kind := .hostWr q dpa .invalid d p } else some r
  | _ => some r

/-- The same for a line's tracker. -/
def Tracker.withoutHost (req : Nat) (k : Tracker) : Tracker :=
  { k with queue := k.queue.filterMap (DReq.withoutHost req), snoops := k.snoops.filter fun e => e.1 != req
           conflict := k.conflict.filter (· != req) }

/-- DCOH after a requester's reset. -/
def State.dropHolder (s : State) (req : Nat) : State :=
  let asked := (s.dcoh.trackers.filter fun e => e.2.snoops.any fun n => n.1 == req).map Prod.fst
  let lines := (s.dcoh.filter.filter fun e => e.present.contains req).map fun e => e.line
  let s := { s with dcoh := { s.dcoh with
    trackers := mapVals (Tracker.withoutHost req) s.dcoh.trackers, late := s.dcoh.late.filter fun e => e.1 != req } }
  let s := lines.foldl (fun s l => s.setHolders l (s.lineE l && (s.holders l) != [req]) ((s.holders l).filter (· != req))) s
  asked.foldl (fun s l => s.snoopsDone l) s

/-- A queue's ring lies in a requester's host memory. -/
def State.ringAtHost (s : State) (st : Option Nat) (base req : Nat) : Bool :=
  match st.bind fun st => s.place st base false with
  | some (.host r _) => r == req
  | _ => false

/-- A task has a transfer outstanding to a requester's host memory. -/
def State.talksTo (s : State) (t : Task) (req : Nat) : Bool :=
  let atHost := fun (a : Nat) => decide (hostSpace ≤ a) && decide (a < remoteSpace)
  s.active.hostReq t.stall == req && t.team.any fun c =>
    (s.core c).task == some t.id &&
      (((s.core c).ctxs.any fun e => match e.2.wait with
          | .host .. => true
          | _ => false)
        || (s.core c).streams.any fun q => q.2.any fun st => st.xfers.any fun x =>
          x.issued && ((decide (0 < x.left) && atHost x.src) || (atHost x.dst && (decide (0 < x.left) || !x.buf.isEmpty))))

/-- Step 2: queues whose rings lie in the requester's memory. -/
def State.hostQueuesOff (s : State) (req : Nat) : State :=
  let sqs := (List.range 1024).filter fun n => s.sqOn n && s.ringAtHost (s.sqStall n) (s.sqBase n) req
  let cqs := (List.range 1024).filter fun n => s.cqOn n &&
    s.ringAtHost (stallWhere fun st => s.active.inRange Copy.cq st n) (s.cqBase n) req
  let s := sqs.foldl (fun s n => ((s.setF .sqCtl n 0 1 0).dropWaiting n stHostReset 0 fun _ => true).updSq n fun q =>
    { q with asm := [] }) s
  let s := cqs.foldl (fun s n => s.setF .cqCtl n 0 1 0) s
  let ids := (s.q.tasks.filter fun t => sqs.contains t.sq && t.phase != .waiting).map Task.id
  s.abortTasks ids stHostReset 0

/-- A requester's copy of STAGE_DRV_HANDSHAKE is cleared (R129 step 4). -/
def State.clearHandshake (s : State) (req : Nat) : State :=
  let s := s.setRegB .stageDrvHandshake req 0
  let s := { s with stage := { s.stage with hsWritten := s.stage.hsWritten.filter (· != req) } }
  (s.setF .stageDrvSummary 0 req 1 0).setF .stageDrvSummary 0 (16 + req) 1 0

/-- Blocks of a requester's static capacity and region 0 extents: the scope of its key (R129, R199). -/
def State.ownBlocks (s : State) (req : Nat) : List Nat :=
  s.staticBlocks req ++
    ((s.link.extents.filter fun e => e.region == 0 && e.holders.contains req).foldl (fun l e => l ++ e.blocks) [])

/-- Runs of consecutive blocks: (first, count). -/
def runsOf : List Nat → List (Nat × Nat)
  | [] => []
  | b :: t => match runsOf t with
    | (c, n) :: r => if c = b + 1 then (b, n + 1) :: r else (b, 1) :: (c, n) :: r
    | [] => [(b, 1)]

/-- A key slot takes a new key (R198, R201). -/
def State.newKey (s : State) (slot : Nat) : State :=
  { s with gb := { s.gb with keyGen := Tbl.insert slot (Tbl.get 0 s.gb.keyGen slot + 1) s.gb.keyGen } }

/-- The DRAM key of a requester's capacity is replaced (R124, R129). -/
def State.rekeyOwn (s : State) (req : Nat) : State :=
  (runsOf (s.ownBlocks req)).foldl (fun s r => s.rekeyBlocks r.1 r.2) (s.newKey (17 + req))

/-- Static capacity: the rows of one requester follow `assigned` (R104). -/
def State.applyStatic (s : State) (req : Nat) : State :=
  let want := (List.range s.hostBlocks).filter fun b => holderIn s.link.assigned b == some req
  let rest := s.link.held.map fun r => if r.2.2 = some req then (r.1, r.2.1, none) else r
  { s with link := { s.link with held := (runsOf want).map (fun r => (r.1, r.2, some req)) ++ rest } }

/-- The seven steps of R129. The requester is gone until its link is up, or its LD bound, again. -/
def State.requesterReset (s : State) (req : Nat) : State :=
  let s := s.dropHolder req
  let s := s.hostQueuesOff req
  let s := s.q.tasks.foldl (fun s t =>
    if s.talksTo t req then s.taskFault t.id .hostLinkDown 7 255 none 0 0 0 req else s) s
  let s := s.clearHandshake req
  let s := s.endSessions req
  let s := s.rekeyOwn req
  let s := s.applyStatic req
  let s := s.setMbox req Mailbox.reset
  let s := { s with
    link := { s.link with
      biEnabled := s.link.biEnabled.filter (· != req), ideSecure := s.link.ideSecure.filter (· != req)
      ideFailed := s.link.ideFailed.filter (· != req), bound := s.link.bound.filter (· != req) }
    lows := s.lows.filter fun e => e.1 != req, caps := s.caps.filter fun e => e.1 != req }
  (s.setF .devReqPresent 0 req 1 0).setF .devReqPresent 0 (16 + req) 1 0

/-- A head is down in DEV_LINK: every field but MODE. -/
def State.headDown (s : State) (head : Nat) : State :=
  let lo := if head = 0 then 2 else 12
  (if s.f .devLink 0 lo 1 = 1 then s.emit (.linkDown head) else s).setF .devLink 0 lo 10 0

/-! ## The CP (R218, R564, R693) -/

/-- Held bursts of the CP are ended (R693 step 1). -/
def State.endCpBursts (s : State) : State := s.endBursts fun b => b.src == 32

/-- What the CP was doing stops: records half fetched are dropped, commits that have not begun step 1 of R604 let their
sequence go, its checks refuse, and running and parking tasks are aborted (R693 steps 1 to 4). -/
def State.cpHalt (s : State) : State :=
  let s := s.endCpBursts
  let s := { s with q := { s.q with sqs := mapVals (fun q : Sq => { q with asm := [] }) s.q.sqs } }
  let s := { s with kv := { s.kv with seqs := mapVals (fun k : KSeq => { k with committing := false }) s.kv.seqs } }
  let s := s.refuseChecks onCp
  let ids := (s.q.tasks.filter fun t => t.phase.live || t.phase == .aborting).map Task.id
  s.abortOrder ids

/-- Every accepted command that has not completed, other than a saved task's, completes with CP_RESET; its tasks end
(R564). -/
def State.cpResetCompletions (s : State) : State :=
  let ids := (s.q.tasks.filter fun t => t.phase == .aborting).map Task.id
  let s := ids.foldl (fun s id => s.endTask id stCpReset 0) s
  let saved := fun (c : Cmd) => c.op == 0x20 && match c.task.bind s.task? with
    | some t => t.phase == .saved
    | none => false
  s.q.sqs.foldl (fun s e => (e.2.accepted.filter fun c => !saved c).foldl (fun s c => s.dropCmd e.1 c stCpReset 0) s) s

/-- The CTRL image restarts from its verified copy (R62). -/
def State.restartCtrl (s : State) : State :=
  { (s.setF .stageStatus 0 7 1 0) with stage := { s.stage with ctrlStart := some s.now } }

/-- The CP is held in reset until the CTRL image runs again (R693). -/
def State.cpHold (s : State) : State :=
  let s := s.cpHalt.restartCtrl
  { s with ras := { s.ras with cpInReset := true } }

/-- The CP restarts into its ROM executor: the CTRL image is to be verified again, or may not run (R52, R57, R73). -/
def State.cpToRom (s : State) : State :=
  let s := s.cpHalt.cpResetCompletions.setF .stageStatus 0 7 1 0
  { s with stage := { s.stage with ctrlVerified := false, ctrlStart := none }
           ras := { s.ras with cpInReset := false, cpWaiting := none } }

/-! ## The MGMT image -/

/-- What the LEDs show is kept by Power's field while Ostler restarts; a firmware update is abandoned (R696, R753). -/
def State.dropUpdate (s : State) : State :=
  (({ s with mgmt := { s.mgmt with update := none } }).setF .mgmtStatus 0 32 3 0)

/-- The MGMT image stops: checks on Ostler refuse (R218), an update ends, and the fan runs at the greater of its duty and
60 % (R696). -/
def State.mgmtStop (s : State) : State :=
  let s := (s.refuseChecks onOstler).dropUpdate.setF .stageStatus 0 6 1 0
  let s := if s.card.order = .a256 then s.setF .fanStatus 0 24 8 (max 60 (s.f .fanStatus 0 24 8)) else s
  { s with stage := { s.stage with mgmtVerified := false, mgmtStart := none } }

/-! ## The PERST# scope (R76, R783) -/

/-- A field of a register taken over from an earlier state. -/
def State.keepF (s old : State) (r : Reg) (i lo n : Nat) : State := s.setF r i lo n (old.f r i lo n)

/-- Registers return to their reset values; fields that their rules alone set or clear are kept, and the fan and the
sensors go on (R740, R783). -/
def State.perstRegs (s : State) : State :=
  let t := s.resetScopes fun c => c != .cold
  let t := t.keepF s .rasRecovery 0 48 16
  let t := t.keepF s .thermStatus 0 48 11
  let t := t.keepF s .powerStatus 0 32 1
  let t := if s.fanState = 4 then t else t.keepF s .fanStatus 0 16 3
  let t := (t.keepF s .fanStatus 0 0 16).keepF s .fanStatus 0 24 8
  let t := t.keepF s .gbOwner 0 0 1
  let t := if s.link.jumper2x8 then t.setF .devLink 0 0 2 2 else if s.link.partnerMld then t.setF .devLink 0 0 2 1 else t
  let t := t.setF .stageStatus 0 4 1 (bit s.stage.bootB)
  let t := t.setF .stageCtl 0 1 1 (bit s.stage.bootB)
  t.setF .vrCtl 0 3 2 1

/-- What runs on the Ostler island through PERST#: the MGMT image, if it is the boot pair's (R76). -/
def State.keepsMgmt (s : State) : Bool := s.mgmtUp && s.f .stageStatus 0 4 1 == bit s.stage.bootB

/-- STAGE machinery after PERST#. -/
def State.perstStage (s : State) (keep : Bool) : Stage :=
  { s.stage with
    trainFail := none, trainExtra := 0, ctrlVerified := false, ctrlStart := none, ctrlCopied := false, bistDone := false
    mgmtVerified := keep, mgmtStart := if keep then s.stage.mgmtStart else none
    mgmtReason := none, vrReason := none, ctrlReason := none, drvReason := none, fallback := false, heldFailed := false
    restaging := false, flr := false, hsWritten := [] }

/-- Fence causes that end at PERST#: what they stood for is over (R698, R718 to R722). -/
def perstEnds : List Nat := [2, 3, 6, 7, 8, 11]

/-- The PERST# scope of section 8 of chapter 2, with R76: `count` a reset of R682's RESETS. -/
def State.perstScope (s : State) (count : Bool) : State :=
  let s := (s.headDown 0).headDown 1
  let s := perstEnds.foldl (fun s c => s.fenceOff c) s
  let keep := s.keepsMgmt
  let epochs := s.reg .stageEpochMgmt 0
  let s := s.dropUpdate
  let st := s.perstStage keep
  let s := s.perstRegs
  let s := if keep then (s.setF .stageStatus 0 6 1 1).setReg .stageEpochMgmt 0 epochs else s
  let s := { s with
    stage := st, lows := [], caps := [], mem := [], poison := [], dpoison := [], full := []
    dbase := [(0, dramBlocks s.card.order, s.free + 1)], free := s.free + 1
    link := { s.link with bound := [], held := s.link.assigned, extents := [], mbox := [], ideSecure := [], ideFailed := []
                          biEnabled := [], f1D3 := false, qosCtl := 0 }
    dcoh := Dcoh.idle, gb := Glovebox.cold s.gb.ownerKey (s.gb.draws + 1), tack := Tack.idle, q := Queues.idle
    kv := { seqs := [], heads := [] }, bridle := Bridle.idle, scrub := Scrub.idle, cx := Complex.idle
    ras := { s.ras with resets := s.ras.resets + bit count, coreTimes := [], cpTimes := [], ostTimes := [], cpInReset := false
                        cpWaiting := none, cpAlive := s.now, ostAlive := s.now }
    mgmt := { s.mgmt with dbg := none } }
  s.coreOff.unlatchCore

/-! ## Power (R791, R792) -/

/-- Only flash, the card and its surroundings remain: the rails are down. -/
def State.powerOff (s : State) : State :=
  let g := s.stage
  let st := Stage.cold g.mgmtA g.ctrlA g.mgmtB g.ctrlB g.bootB g.bootSeq g.trainValid
  let st := { st with perst := g.perst, perst1 := g.perst1 }
  let l := s.link
  let t := State.cold s.card st (Link.cold s.card.order l.jumper2x8 l.partnerMld l.refclk1) s.gb.ownerKey
    (s.gb.ownerKey.isNone || s.f .gbOwnerCfg 0 0 1 == 1) (s.gb.ownerKey.isSome && s.f .gbOwnerCfg 0 1 1 == 1)
    s.free (s.gb.draws + 1) s.pending s.out
  { t with now := s.now, pw := { t.pw with rails := 0 } }

/-- The links go down with the power. -/
def State.powerLoss (s : State) : State := ((s.headDown 0).headDown 1).powerOff

/-- The device is held: unpowered, tripped, in PERST# or in an internal reset (R42, R130, R676, R736). -/
def State.inReset (s : State) : Bool :=
  decide (s.pw.rails < 7) || (if s.link.jumper2x8 then s.stage.perst && s.stage.perst1 else s.stage.perst)
    || s.ras.internalReset.isSome

/-- The device starts as after PERST# deasserts: deadlines run from now, and on the active variant the boot ROM drives
the fan at 60 % until the MGMT image runs (R42, R48). -/
def State.beginStart (s : State) : State :=
  let s := { s with stage := { s.stage with perstAt := s.now } }
  if s.card.order = .a256 && !s.mgmtUp then s.setF .fanStatus 0 24 8 60 else s

end Sys2Proof.Machine
end

