-- ==== Sys2Proof/Machine/Recovery.lean ====
section
/-! DEFINITION. Class A faults (R676), CP resets (R692 to R694), Ostler self-resets (R695, R696) and their escalation
(R698). -/

namespace Sys2Proof.Machine

open Sys2Proof

/-- 600 s in ns. -/
def tenMinutes : Nat := 600 * 10 ^ 9

/-- Heads that are up, and those of them with CXL.mem active. -/
def State.headsUp (s : State) : List Nat := [0, 1].filter fun h => s.f .devLink 0 (if h = 0 then 2 else 12) 1 == 1
def State.headsMem (s : State) : List Nat := s.headsUp.filter fun h => s.f .devLink 0 (if h = 0 then 9 else 19) 1 == 1

/-- A class A fault (R676): viral and AER, the Fatal event, the entry, and the internal reset; a third within 600 s
leaves compute fenced (R698). -/
def State.classA (s : State) (e : Entry) : State :=
  let s := s.headsMem.foldl (fun s h => s.emit (.viral h)) s
  let s := s.headsUp.foldl (fun s h => s.emit (.aer h)) s
  let s := (s.moduleEvent 3 e.code.code).logFault { e with cls := .a }
  let s := s.perstScope true
  let s := s.addF .rasRecovery 0 48 16 1
  let r := escalate s.ras.aTimes s.now tenMinutes
  let s := { s with ras := { s.ras with aTimes := r.1, internalReset := some s.now } }
  if r.2 then s.fenceOn 10 else s

/-- The device is powered and not held by a trip or an internal reset. -/
def State.alive (s : State) : Bool := s.pw.rails == 7 && s.ras.internalReset.isNone

/-- CLASS_A_FAULT: state that no stall owns is lost: the snoop filter's (`sf`), or the uncore's; with the record of the
error in the layout of ECC_LOG (R336, R679). -/
def execClassAFault (sf : Bool) (log0 log1 : Word) (s : State) : Res :=
  .next (
    if !s.alive then s
    else s.classA { code := if sf then .sfLost else .uncoreStateLost, cls := .a, unit := 4
                    detail := log0.toNat + 2 ^ 64 * log1.toNat })

/-- TAMPER: a monitor of the Glovebox sees a glitch: 1 supply, 2 XO, 3 ACLK (R202, R808, R809). Every key is zeroized;
the internal reset makes new ones. -/
def execTamper (monitor : Nat) (s : State) : Res :=
  .next (
    if !s.alive || monitor = 0 || 3 < monitor then s
    else s.classA { code := .tamper, cls := .a, unit := 6, detail := monitor })

/-- INTERNAL_RESET_END: the internal reset of a class A fault is over, and the device starts as after PERST# deasserts
(R676). -/
def execInternalResetEnd (s : State) : Res :=
  .next (
    if s.ras.internalReset.isNone then s
    else
      let s := { s with ras := { s.ras with internalReset := none } }
      if s.inReset then s else s.beginStart)

/-! ## CP resets -/

/-- The outcome of a third CP reset within 60 s: a fence, and the CP runs its ROM executor (R698). -/
def State.cpUnstable (s : State) : State :=
  let s := s.cpResetCompletions.setF .stageStatus 0 7 1 0
  let s := { s with stage := { s.stage with ctrlStart := none }, ras := { s.ras with cpInReset := false } }
  s.fenceOn 8

/-- A CP reset for a reason of R692; while the MGMT image does not run it waits (R694). A reload of the image copy needs
its verification again. -/
def State.cpReset (s : State) (reason : Nat) : State :=
  if s.ras.cpInReset then s
  else if !s.mgmtUp && 2 ≤ s.stageNow then
    { s with ras := { s.ras with cpWaiting := some (s.ras.cpWaiting.getD reason) } }
  else
    let s := (s.advise .cpReset 6 reason).addF .rasRecovery 0 0 16 1
    let r := escalate s.ras.cpTimes s.now minute
    let s := { s with ras := { s.ras with cpTimes := r.1, cpWaiting := none } }
    let s := if s.stage.ctrlVerified && reason ≠ 4 then s.cpHold else s.cpToRom
    if r.2 then s.cpUnstable else s

/-- CP_RESET: 1 a trap of the CTRL image, 2 a memory error, 4 a reload of the image copy (R692). -/
def execCpReset (reason : Nat) (s : State) : Res :=
  .next (
    let runs := s.f .stageStatus 0 7 1 == 1
    if !s.alive || s.stageNow = 0 then s
    else if (reason = 1 ∧ runs) ∨ reason = 2 ∨ reason = 4 then s.cpReset reason
    else s)

/-- RAS_CP_WDT.LIMIT in force, in ns. -/
def State.cpLimit (s : State) : Nat := 1000000 * max 20 (s.f .rasCpWdt 0 0 16)

/-- CP_LIVENESS_TIMEOUT: the CTRL image has not reported liveness within its limit (R692). -/
def execCpLivenessTimeout (s : State) : Res :=
  .next (if s.alive && s.f .stageStatus 0 7 1 == 1 then (s.notBefore (s.ras.cpAlive + s.cpLimit)).cpReset 3 else s)

end Sys2Proof.Machine
end

