-- ==== Sys2Proof/Machine/Stage.lean ====
section
/-! DEFINITION. Start-up: stages, images, epochs, fallback, handshakes, function and device resets
(spec/02_stages_and_firmware.md), and the LEDs that show them (R801). -/

namespace Sys2Proof.Machine

open Sys2Proof

/-- Update the start-up machinery. -/
def State.updStage (s : State) (f : Stage → Stage) : State := { s with stage := f s.stage }

/-! ## Stage, images and epochs -/

/-- The active slot pair (true: B). -/
def State.pairB (s : State) : Bool := s.f .stageStatus 0 4 1 == 1

/-- The active pair's images (R59). -/
def State.mgmtImage (s : State) : Image := if s.pairB then s.stage.mgmtB else s.stage.mgmtA
def State.ctrlImage (s : State) : Image := if s.pairB then s.stage.ctrlB else s.stage.ctrlA

/-- Silicon's SIL epoch (stepping B1). -/
def silEpoch : Nat := 3

/-- An epoch of a header's list. -/
def epochAt (l : List (BitVec 8)) (i : Nat) : Nat := (l.getD i 0).toNat

/-- A provider–consumer pair accepts (R66). -/
def accepts (prov lo hi : Nat) : Bool := prov != 0 && lo != 0 && hi != 0 && decide (lo ≤ prov) && decide (prov ≤ hi)

/-- The failing check of R61, if any: 1 signature, 2 type or reserved fields, 3 SVN. -/
def failingCheck (m : Image) (typ : BitVec 8) (svn : Nat) : Option Nat :=
  if !m.sigOk then some 1
  else if m.typ != typ || !m.resvZero then some 2
  else if m.svn < svn then some 3
  else none

/-- ms since PERST# deasserted, as STAGE_TIMES saturates. -/
def State.stageMs (s : State) : Nat := min 0xFFFF ((s.now - s.stage.perstAt) / 1000000)

/-- No host driver's handshake is accepted. -/
def State.noneAccepted (s : State) : Bool := s.f .stageDrvSummary 0 0 16 == 0

/-- STAGE_REASON codes (R81). -/
def rcTrainFull : Nat := 0x0201
def rcTrainFail : Nat := 0x0202
def rcMgmtVerify : Nat := 0x0301
def rcMgmtSil : Nat := 0x0302
def rcMgmtTimeout : Nat := 0x0303
def rcCtrlVerify : Nat := 0x0401
def rcCtrlSil : Nat := 0x0402
def rcCtrlMc : Nat := 0x0403
def rcCtrlTimeout : Nat := 0x0404
def rcDrvHc : Nat := 0x0501
def rcDrvHm : Nat := 0x0502
def rcDrvHd : Nat := 0x0503
def rcDrvMalformed : Nat := 0x0504

/-! ## Fallback (R72 to R75) -/

/-- The images of a pair start over: Ostler restarts into its MGMT image, and its CTRL image is to be verified. -/
def State.restartPair (s : State) (b : Bool) : State :=
  let s := s.cpToRom.mgmtStop.setF .stageStatus 0 4 1 (bit b)
  let s := (s.setReg .stageEpochMgmt 0 0).setReg .stageEpochCtrl 0 0
  s.updStage fun g => { g with mgmtReason := none, ctrlReason := none, drvReason := none, ctrlCopied := false }

/-- A reason comes to hold: MGMT, CTRL or driver code (R81). -/
def State.setReason (s : State) (code detail : Nat) : State :=
  s.updStage fun g =>
    if code / 256 = 3 then { g with mgmtReason := some (code, detail) }
    else if code / 256 = 4 then { g with ctrlReason := some (code, detail) }
    else { g with drvReason := some (code, detail) }

/-- ALT_CODE, ALT_DETAIL and ALT_SLOT. -/
def State.setAlt (s : State) (code detail : Nat) (b : Bool) : State :=
  ((s.setF .stageReason 0 32 16 code).setF .stageReason 0 48 8 detail).setF .stageReason 0 56 1 (bit b)

/-- The pair fails, or its driver is refused (R72 to R74): a fallback where one is permitted; a return to the boot pair
and a hold where the other pair fails too; else a hold with the reason. -/
def State.pairFails (s : State) (code detail : Nat) : State :=
  let b := s.pairB
  if s.f .stageCtl 0 2 1 = 1 && s.f .stageStatus 0 5 1 = 0 then
    let s := ((s.setAlt code detail b).setF .stageStatus 0 5 1 1).restartPair (!b)
    s.updStage fun g => { g with fallback := true }
  else if s.stage.fallback then
    let c0 := s.f .stageReason 0 32 16
    let d0 := s.f .stageReason 0 48 8
    let s := ((s.setAlt code detail b).restartPair (!b)).setReason c0 d0
    let s := s.updStage fun g => { g with fallback := false, heldFailed := true }
    if c0 / 256 = 3 && s.stageNow = 2 then s.setF .stageStatus 0 0 2 1 else s
  else s.setReason code detail

/-! ## Handshakes (R68 to R71, R80) -/

/-- The reason that a requester's copy is refused for, if any (R67 orders 4 to 6, R70). -/
def State.handshakeReason (s : State) (req : Nat) : Option Nat :=
  let w := s.regB .stageDrvHandshake req
  let hd := fld w 0 8
  let hcLo := fld w 16 8
  let hcHi := fld w 24 8
  let hmLo := fld w 32 8
  let hmHi := fld w 40 8
  if hd = 0 || decide (hcHi < hcLo) || decide (hmHi < hmLo) then some rcDrvMalformed
  else if !accepts (s.f .stageEpochCtrl 0 0 8) hcLo hcHi then some rcDrvHc
  else if !accepts (s.f .stageEpochMgmt 0 8 8) hmLo hmHi then some rcDrvHm
  else if !accepts hd (s.f .stageEpochCtrl 0 48 8) (s.f .stageEpochCtrl 0 56 8) then some rcDrvHd
  else none

/-- ACCEPTED, REJECTED and the summary of a copy. -/
def State.markHandshake (s : State) (req : Nat) (acc rej : Bool) : State :=
  let s := s.setRegB .stageDrvHandshake req (setFld (s.regB .stageDrvHandshake req) 56 2 (bit acc + 2 * bit rej))
  (s.setF .stageDrvSummary 0 req 1 (bit acc)).setF .stageDrvSummary 0 (16 + req) 1 (bit rej)

/-- A copy is evaluated. -/
def State.evalHandshake (s : State) (req : Nat) : State :=
  match s.handshakeReason req with
  | none => (s.markHandshake req true false).updStage fun g => { g with drvReason := none }
  | some code =>
    let s := (s.markHandshake req false true).advise .handshakeRefused 5 (code + 2 ^ 16 * req)
    if s.stageNow = stCanter then s
    else if s.noneAccepted then s.pairFails code req
    else s.setReason code req

/-- Every stored copy is evaluated, in ascending requester; a failure of the pair ends it (R69, R73). -/
def State.evalAll (s : State) : State :=
  ((List.range 16).filter fun r => KSet.has s.stage.hsWritten r).foldl (fun s r =>
    if s.stage.ctrlVerified then s.evalHandshake r else s) s

/-- A write takes effect on a copy: a write of one half alone does not evaluate it (R8, R69). -/
def State.handshakeAct (w : Written) (s : State) : State :=
  if w.reg ≠ .stageDrvHandshake || 16 ≤ w.agent then s
  else
    let s := (s.markHandshake w.agent false false).updStage fun g => { g with hsWritten := KSet.add w.agent g.hsWritten }
    if s.stage.ctrlVerified then s.evalHandshake w.agent else s

/-- DRV_HANDSHAKE: a write of a requester's own copy; of its high half (`high`) where it is made as two (R8, R69). -/
def execDrvHandshake (req size : Nat) (high : Bool) (val : Word) (s : State) : Res :=
  .next (if s.present req then
    s.busWrite req (Reg.off .stageDrvHandshake 0 + (if high then 4 else 0)) size val State.handshakeAct else s)

/-! ## Before Walk, Walk and Trot -/

/-- CONFIG_REQUEST: completed normally from 100 ms after PERST# deasserts, with Request Retry Status before (R43). -/
def execConfigRequest (req fn : Nat) (s : State) : Res :=
  .next (if s.pw.rails = 7 && req < 16 && fn < 2 then
    s.emit (.config req fn (s.inReset || decide (s.now < s.stage.perstAt + 100000000))) else s)

/-- F0 reports Memory_Active to the requesters whose heads run CXL. -/
def State.memActive (s : State) : State :=
  s.presentReqs.foldl (fun s r =>
    let h := if s.f .devLink 0 0 2 = 2 then r else 0
    if s.headsMem.contains h then s.setF .devReqPresent 0 (16 + r) 1 1 else s) s

/-- WALK_ENTRY: `restored`: the stored training passes its check; else full training, in which a channel may fail (R44 to
R46). -/
def execWalkEntry (restored : Bool) (failed : Option Nat) (s : State) : Res :=
  .next (
    if s.inReset || s.stageNow ≠ 0 || s.stage.trainFail.isSome || (restored && (!s.stage.trainValid || failed.isSome)) then s
    else match failed with
      | some c => s.updStage fun g => { g with trainFail := some (c % 32), trainValid := false }
      | none =>
        let s := if restored then s
          else (s.setF .stageStatus 0 8 1 1).updStage fun g => { g with trainExtra := s.now - g.perstAt, trainValid := false }
        ((s.setF .stageStatus 0 0 2 1).setF .stageTimes 0 0 16 s.stageMs).memActive)

/-- The MGMT image's header is read and checked, and order 1 evaluated (R61, R67, R79). -/
def State.verifyMgmt (s : State) : State :=
  let m := s.mgmtImage
  let s := s.setReg .stageEpochMgmt 0 (BitVec.ofNat 64 (epochAt m.prov 1 + 2 ^ 8 * epochAt m.prov 3
    + 2 ^ 16 * epochAt m.min 0 + 2 ^ 24 * epochAt m.max 0))
  match failingCheck m 1 s.card.svnMgmt with
  | some d => s.pairFails rcMgmtVerify d
  | none =>
    if !accepts silEpoch (epochAt m.min 0) (epochAt m.max 0) then s.pairFails rcMgmtSil 0
    else s.updStage fun g => { g with mgmtVerified := true, mgmtStart := some s.now }

/-- The CTRL image, orders 2 and 3, and then every stored handshake. -/
def State.verifyCtrl (s : State) : State :=
  let m := s.ctrlImage
  let s := s.setReg .stageEpochCtrl 0 (BitVec.ofNat 64 (epochAt m.prov 2
    + 2 ^ 16 * epochAt m.min 0 + 2 ^ 24 * epochAt m.max 0 + 2 ^ 32 * epochAt m.min 1 + 2 ^ 40 * epochAt m.max 1
    + 2 ^ 48 * epochAt m.min 4 + 2 ^ 56 * epochAt m.max 4))
  match failingCheck m 2 s.card.svnCtrl with
  | some d => s.pairFails rcCtrlVerify d
  | none =>
    if !accepts silEpoch (epochAt m.min 0) (epochAt m.max 0) then s.pairFails rcCtrlSil 0
    else if !accepts (s.f .stageEpochMgmt 0 0 8) (epochAt m.min 1) (epochAt m.max 1) then s.pairFails rcCtrlMc 1
    else (s.updStage fun g => { g with ctrlVerified := true, ctrlStart := some s.now, ctrlCopied := true }).evalAll

/-- The device holds for a reason of an image: it has no further step for that image to make. -/
def State.mgmtHeld (s : State) : Bool := s.stage.mgmtReason.isSome
def State.ctrlHeld (s : State) : Bool := s.stage.ctrlReason.isSome && !s.stage.heldFailed

/-- IMAGE_VERIFY: the Glovebox completes the verification of an image of the active pair. -/
def execImageVerify (img : ImageKind) (s : State) : Res :=
  .next (
    if s.inReset || s.stageNow = 0 then s
    else match img with
      | .mgmt => if s.stage.mgmtVerified || s.ras.ostlerHeld || (s.mgmtHeld && !s.stage.heldFailed) then s else s.verifyMgmt
      | .ctrl => if s.stage.ctrlVerified || !s.mgmtUp || s.stageNow < 2 || s.ctrlHeld then s else s.verifyCtrl)

/-- The MGMT image runs: Ostler's functions are its own again, the fan starts, and a CP reset that waited is made. -/
def State.mgmtRuns (s : State) : State :=
  let s := (s.setF .stageStatus 0 6 1 1).updStage fun g => { g with mgmtUpAt := s.now }
  let s := { s with ras := { s.ras with ostAlive := s.now, ostlerDown := false } }
  let s := s.fanWanted false
  match s.ras.cpWaiting with
  | some r => s.cpReset r
  | none => s

/-- The CTRL image runs: after a CP reset it posts the CP_RESET completions (R564); a restage or a function-level reset
has done its part. -/
def State.ctrlRuns (s : State) : State :=
  let s := s.setF .stageStatus 0 7 1 1
  let s := if s.ras.cpInReset then
      { s.cpResetCompletions with ras := { s.cpResetCompletions.ras with cpInReset := false } } else s
  let s := { s with ras := { s.ras with cpAlive := s.now }, stage := { s.stage with restaging := false, flr := false } }
  s.fenceOff 11

/-- IMAGE_REPORTS_RUNNING: the MGMT or the CTRL image reports itself running (R51, R54, R78). -/
def execImageReportsRunning (img : ImageKind) (s : State) : Res :=
  .next (
    if s.inReset then s
    else match img with
      | .mgmt => if s.stage.mgmtVerified && !s.mgmtUp && s.stage.mgmtStart.isSome && !s.ras.ostlerHeld then s.mgmtRuns else s
      | .ctrl =>
        if s.stage.ctrlVerified && s.f .stageStatus 0 7 1 = 0 && s.stage.ctrlStart.isSome && !s.stage.fences.contains 8
        then s.ctrlRuns else s)

/-- MGMT_START_TIMEOUT: 1.5 s without a report (R53). -/
def execMgmtStartTimeout (s : State) : Res :=
  .next (match s.stage.mgmtStart with
    | some t =>
      if s.inReset || s.mgmtUp || !s.stage.mgmtVerified then s
      else ((s.notBefore (t + 1500000000)).updStage fun g => { g with mgmtVerified := false, mgmtStart := none }).pairFails
        rcMgmtTimeout 0
    | none => s)

/-- CTRL_START_TIMEOUT: 2 s without a report (R55). -/
def execCtrlStartTimeout (s : State) : Res :=
  .next (match s.stage.ctrlStart with
    | some t =>
      if s.inReset || s.f .stageStatus 0 7 1 = 1 || !s.stage.ctrlVerified then s
      else ((s.notBefore (t + 2000000000)).updStage fun g => { g with ctrlVerified := false, ctrlStart := none }).pairFails
        rcCtrlTimeout 0
    | none => s)

/-- Mask of the phases with a leg fault. -/
def State.faultedPhases (s : State) : Nat := s.f .vrPhase 0 16 6 ||| s.f .vrPhase 0 24 6

/-- VR_NOT_READY: VDD_CORE power-good has not come within 500 ms of the MGMT image running (R83). -/
def execVrNotReady (s : State) : Res :=
  .next (
    if s.inReset || !s.mgmtUp || s.corePg || s.stageNow = 0 || s.stageNow = stCanter || s.stage.vrReason.isSome then s
    else (s.notBefore (s.stage.mgmtUpAt + 500000000)).updStage fun g => { g with vrReason := some s.faultedPhases })

/-- The Paddock and the hitch store cleared to zero with every tag EMPTY (R51). -/
def State.clearShared (s : State) : State :=
  (s.clearOnChip pdBase (2 ^ 25)).setHs { s.cx.hs with val := [], poison := [] }

/-- TROT_ENTRY: the conditions of R51; without power-good the device enters to hold at VR_NOT_READY (R83). -/
def execTrotEntry (s : State) : Res :=
  .next (
    if s.inReset || s.stageNow ≠ 1 || !s.mgmtUp || !(s.corePg || s.stage.vrReason.isSome) then s
    else
      let s := (s.setF .stageStatus 0 0 2 2).setF .stageTimes 0 16 16 s.stageMs
      s.clearShared.updStage fun g => { g with ctrlCopied := true, trainValid := true })

/-- BIST_COMPLETE: core BIST ends; failing cores are power-gated and marked (R56). -/
def execBistComplete (failMask : Word32) (s : State) : Res :=
  .next (
    if s.inReset || s.stageNow < 2 || !s.corePg || s.stage.bistDone then s
    else
      let ok := ((List.range 32).filter fun c => !failMask.toNat.testBit c).length
      ((s.setReg .stageBist 0 (failMask.setWidth 64)).setF .stageStatus 0 16 6 ok).updStage fun g => { g with bistDone := true })

/-- The image conditions of R54: CTRL runs, every pair accepted. -/
def State.imagesReady (s : State) : Bool :=
  s.mgmtUp && s.f .stageStatus 0 7 1 == 1 && s.stage.ctrlVerified && !s.mgmtHeld && s.stage.bistDone
    && s.f .stageStatus 0 16 6 != 0

/-- CANTER_ENTRY: R54 holds and no fence is in force (R58); after a failed fallback a handshake that the running pair
accepts advances the device (R75). -/
def execCanterEntry (s : State) : Res :=
  .next (
    let ready := { s with stage := { s.stage with
      mgmtReason := if s.stage.heldFailed && s.mgmtUp then none else s.stage.mgmtReason } }
    if s.inReset || s.stageNow ≠ 2 || !ready.imagesReady || s.noneAccepted || !s.stage.fences.isEmpty || !s.corePg then s
    else
      let s := (s.setF .stageStatus 0 0 2 3).setF .stageTimes 0 32 16 s.stageMs
      s.updStage fun g => { g with
        mgmtReason := none, ctrlReason := none, drvReason := none, vrReason := none, fallback := false, heldFailed := false })

/-! ## STAGE_STATUS and STAGE_REASON as they read -/

/-- The driver's reason, or WAIT_DRIVER: no handshake is accepted (R81, R82). -/
def State.driverReason (s : State) : Nat × Nat :=
  if !s.noneAccepted then (0, 0)
  else match s.stage.drvReason with
    | some r => r
    | none => if s.imagesReady then (0x0101, 0) else (0, 0)

/-- CODE and DETAIL (R81, R82). -/
def State.reason (s : State) : Nat × Nat :=
  if s.stageNow = stCanter then (0, 0) else
  match s.stage.trainFail, s.stage.mgmtReason, s.stage.vrReason, s.stage.ctrlReason with
  | some c, _, _, _ => (rcTrainFail, c)
  | _, some r, _, _ => r
  | _, _, some m, _ => (0x0701, m)
  | _, _, _, some r => r
  | none, none, none, none =>
    if s.stage.restaging then (0x0801, 0)
    else if s.stage.flr then (0x0802, 0)
    else if !s.stage.fences.isEmpty then (0x0702, 0)
    else if s.stage.bistDone && s.f .stageStatus 0 16 6 = 0 then (0x0601, 0)
    else
      let d := s.driverReason
      if d.1 ≠ 0 then d
      else if s.f .stageStatus 0 8 1 = 1 then (rcTrainFull, 0) else (0, 0)

/-- The device holds: its reason is one that it cannot pass alone. -/
def State.holding (s : State) : Bool :=
  let c := s.reason.1
  c != 0 && c != rcTrainFull && c != 0x0801 && c != 0x0802 && !s.stage.fallback

/-- STAGE_STATUS as it reads: HOLD and FENCE are computed. -/
def State.stageStatusView (s : State) : Word :=
  setFld (setFld (s.reg .stageStatus 0) 2 1 (bit s.holding)) 3 1 (bit (!s.stage.fences.isEmpty))

/-- STAGE_REASON as it reads: CODE, DETAIL and SLOT are computed. -/
def State.stageReasonView (s : State) : Word :=
  let r := s.reason
  setFld (setFld (setFld (s.reg .stageReason 0) 0 16 r.1) 16 8 r.2) 24 1 (if r.1 = 0 then 0 else bit s.pairB)

/-! ## RESTAGE and function resets -/

/-- Histories and outcomes that RESTAGE lifts: CP_UNSTABLE and OSTLER_UNSTABLE (R698), and the latches of the regulator
(R718 to R722). -/
def State.restageLifts (s : State) : State :=
  let s := [2, 3, 8, 9].foldl (fun s c => s.fenceOff c) s
  let s := { s with ras := { s.ras with cpTimes := [], ostTimes := [], ostlerHeld := false } }
  s.unlatchCore

/-- RESTAGE (R57, STAGE_CTL): compute is fenced, the device drops to Trot, and both images restart from the pair named. -/
def State.restage (s : State) : State :=
  let s := (s.fenceOn 11).restageLifts
  let s := (s.setF .stageStatus 0 5 1 0).restartPair (s.f .stageCtl 0 1 1 == 1)
  s.updStage fun g => { g with
    restaging := true, fallback := false, heldFailed := false, vrReason := none, mgmtReason := none }

/-- A write of STAGE_CTL. -/
def State.stageCtlAct (w : Written) (s : State) : State := if w.set 0 then s.restage else s

/-- RESTAGE: an Owner write of STAGE_CTL. -/
def execRestage (req : Nat) (val : Word) (s : State) : Res := .next (s.regWrite req .stageCtl 0 val State.stageCtlAct)

/-- The CTRL image, if it is verified, starts again after a function-level reset. -/
def State.flrRestart (s : State) : State :=
  if s.stage.ctrlVerified then
    let t := s.restartCtrl
    { t with ras := { t.ras with cpInReset := true }, stage := { t.stage with flr := true } }
  else s

/-- Every enabled ring is disabled. -/
def State.ringsOff (s : State) : State :=
  (List.range 2304).foldl (fun s i => if s.f .ringCtl i 0 1 = 1 then s.ringOff i else s) s

/-- The tasks' cores become free. -/
def State.allFree (s : State) : State := s.q.tasks.foldl (fun s t => s.freeCores t) s

/-- F1's queues and handshake copies are cleared. -/
def State.flrQueues (s : State) : State :=
  { s with
    q := Queues.idle, lows := [], caps := [], stage := { s.stage with hsWritten := [], drvReason := none }
    cx := { s.cx with rings := [], pd := Complex.idle.pd, hs := Complex.idle.hs } }

/-- Result slots, Paddock and hitch store are cleared, F1's registers take their reset values, the device drops to Trot,
and the CP's fence is lifted (R698). -/
def State.flrClear (s : State) : State :=
  let s := (s.clearShared.clearSlots 0 262144).resetScopes fun c => c == .flr
  let s := s.dropToTrot.fenceOff 8
  { s with ras := { s.ras with cpTimes := [], cpInReset := false } }

/-- A function-level reset of F1 (R77, R783); the CP restarts from the verified copy. -/
def State.f1Flr (s : State) : State := s.cpHalt.allFree.ringsOff.flrQueues.flrClear.flrRestart

/-- F1_FLR. -/
def execF1Flr (s : State) : Res := .next (if s.inReset then s else s.f1Flr)

/-- F1_D3HOT: compute is fenced (R136). -/
def execF1D3hot (s : State) : Res :=
  .next (if s.inReset || s.link.f1D3 then s else ({ s with link := { s.link with f1D3 := true } }).fenceOn 6)

/-- F1_D0_RETURN: acts as a function-level reset of F1 (R136). -/
def execF1D0Return (s : State) : Res :=
  .next (if s.inReset || !s.link.f1D3 then s else (({ s with link := { s.link with f1D3 := false } }).f1Flr).fenceOff 6)

/-- F0_D3HOT: the request completes and F0 stays in D0 (R135). -/
def execF0D3hot (req : Nat) (s : State) : Res := .next (if s.present req then s.emit (.config req 0 false) else s)

/-- F0_FLR: the mailbox is reset and a background command cleared; a Sanitize that has started still completes (R127). -/
def execF0Flr (req : Nat) (s : State) : Res :=
  .next (if s.present req then s.setMbox req { Mailbox.reset with sanitize := (s.mbox req).sanitize } else s)

/-! ## PERST#, power and links -/

/-- PERST_ASSERT: slot PERST#, or PERST1# (`pin1`). Device-wide in x16 mode, and in 2 × x8 mode while both are asserted;
otherwise a requester reset of that head (R128, R130). -/
def execPerstAssert (pin1 : Bool) (s : State) : Res :=
  .next (
    let was := if pin1 then s.stage.perst1 else s.stage.perst
    let both := if s.link.jumper2x8 then (if pin1 then s.stage.perst else s.stage.perst1) else !pin1
    let s := s.updStage fun g => if pin1 then { g with perst1 := true } else { g with perst := true }
    if was || s.pw.rails = 0 then s
    else if both then s.perstScope true
    else if s.link.jumper2x8 then
      let h := bit pin1
      (if s.present h then s.requesterReset h else s).headDown h
    else s)

/-- Every sensor reads below 100 °C. -/
def State.coolEnough (s : State) : Bool := (List.range 6).all fun k => decide (s.tempOf k < 100)

/-- PERST_DEASSERT: the device starts; a tripped card leaves the trip if every sensor is below 100 °C, raising rails 4 to
7 (R42, R130, R736, R807). -/
def execPerstDeassert (pin1 : Bool) (s : State) : Res :=
  .next (
    let held := if s.link.jumper2x8 then s.stage.perst && s.stage.perst1 else s.stage.perst && !pin1
    let s := s.updStage fun g => if pin1 then { g with perst1 := false } else { g with perst := false }
    if !held || s.pw.rails = 0 then s
    else if s.pw.rails < 7 then
      if s.coolEnough then (s.updPw fun p => { p with rails := 7 }).beginStart else s
    else s.beginStart)

/-- COLD_POWER_ON: the rails rise and cold reset is released; LINK_MODE is read (R791). Only flash survives (section 8). -/
def execColdPowerOn (s : State) : Res :=
  .next (
    if s.pw.rails ≠ 0 then s
    else
      let t := s.powerOff
      { t with now := 0, pw := Power.cold })

/-- SUPPLY_DROP: the slot's 12 V or 3.3 V stays below its threshold for 50 µs (R792). -/
def execSupplyDrop (s : State) : Res := .next (if s.pw.rails = 0 then s else s.powerLoss)

/-- VDD_SOC_POWER_GOOD_LOSS: VDD_SOC below 0.68 V for 10 µs is a power loss (R809). -/
def execVddSocPowerGoodLoss (s : State) : Res := .next (if s.pw.rails = 0 then s else s.powerLoss)

/-- THERMAL_TRIP: a sensor's trip comparator acts at 120 °C: VDD_CORE, the links and rails 7 to 4 go, and DRAM with them
(R736, R806). -/
def execThermalTrip (sensor : Nat) (s : State) : Res :=
  .next (
    if 6 ≤ sensor || s.trippedOff || s.pw.rails = 0 then s
    else
      let s := s.perstScope false
      let s := { s with stage := { s.stage with fences := KSet.add 1 s.stage.fences }
                        ras := { s.ras with internalReset := none } }
      let s := (s.setF .thermStatus 0 57 2 3).advise .fence 6 1
      (s.updPw fun p => { p with rails := 3 }).fanFull)

/-- HEAD_LINK_L0: a head's link reaches L0 at a rate and width of DEV_LINK's codes; the partner supports CXL, MLD and
256-byte flits as given (R86 to R91, R131). -/
def execHeadLinkL0 (head rate width : Nat) (cxl mld flit256 : Bool) (s : State) : Res :=
  .next (
    let two := s.link.jumper2x8
    let lo := if head = 0 then 2 else 12
    let held := if head = 0 then s.stage.perst else s.stage.perst1
    if s.inReset || held || (if two then decide (1 < head) else head != 0) || (head = 1 && !s.link.refclk1) || 5 < rate
        || (if two then 3 else 4) < width || s.f .devLink 0 lo 1 = 1 then s
    else
      let on := cxl && decide (4 ≤ rate) && decide (2 ≤ width)
      let s := if two then s
        else ({ s with link := { s.link with partnerMld := mld } }).setF .devLink 0 0 2 (bit (mld && on))
      let big := rate = 5 || (rate = 4 && flit256)
      let s := s.setF .devLink 0 lo 10 (1 + 2 * rate + 2 ^ 4 * width + 2 ^ 7 * bit on + 2 ^ 8 * bit (big && on))
      let s := if mld && on && !two then s else s.setF .devReqPresent 0 head 1 1
      if 0 < s.stageNow then s.memActive else s)

/-- LD_BIND: an LD that becomes bound has just left requester reset (R109). -/
def execLdBind (ld : Nat) (s : State) : Res :=
  .next (
    if s.inReset || 16 ≤ ld || s.f .devLink 0 0 2 ≠ 1 || !s.headsMem.contains 0 then s
    else
      let s := ({ s with link := { s.link with bound := KSet.add ld s.link.bound } }).setF .devReqPresent 0 ld 1 1
      if 0 < s.stageNow then s.memActive else s)

/-- REQUESTER_RESET: a hot reset or link down of a head, or an LD reset or unbind (R128, R129). -/
def execRequesterReset (req : Nat) (s : State) : Res :=
  .next (
    if !s.present req then s
    else
      let s := s.requesterReset req
      if s.f .devLink 0 0 2 = 1 then s else s.headDown req)

/-! ## LEDs (R801) -/

/-- What an LED shows. -/
inductive Led where
  | off | green | green1 | green4 | amber | amber1 | amber4
deriving DecidableEq, Repr

/-- The LEDs in the order of R785: PWR, STAGE, FAULT, DBG, REIN_A, REIN_B; each shows its first row that holds. -/
def State.led (s : State) (i : Nat) : Led :=
  match i with
  | 0 => if s.trippedOff then .green1 else if s.pw.rails = 7 then .green else .off
  | 1 =>
    if s.trippedOff then .off
    else match s.stageNow with
      | 3 => .green
      | 2 => if s.holding then .amber4 else .amber1
      | 1 => .amber
      | _ => .off
  | 2 =>
    if s.trippedOff then .amber4
    else if (s.stage.fences.any fun c => c == 8 || c == 9 || c == 10) || s.reason.1 = rcTrainFail then .amber
    else if s.fanState = 4 || s.fanState = 5 || 0 < s.shedCount || s.f .vrStatus 0 21 1 = 1 || s.anyFrozen then .amber1
    else .off
  | 3 => if s.f .gbOwner 0 6 1 = 1 then .amber else .off
  | n =>
    if 6 ≤ n then .off
    else match s.f .reinPortStat (n - 4) 0 3 with
      | 3 => .green
      | 1 | 2 | 4 => .green1
      | 5 =>
        let c := s.f .reinPortStat (n - 4) 8 4
        if c = 2 || c = 3 || c = 4 || c = 5 || c = 9 then .green4 else .off
      | _ => .off

/-- Number of an LED's state, as kept while Ostler restarts. -/
def Led.num : Led → Nat
  | .off => 0 | .green => 1 | .green1 => 2 | .green4 => 3 | .amber => 4 | .amber1 => 5 | .amber4 => 6

/-- What the LEDs show: while Ostler restarts, what they showed last (R801). -/
def State.ledsShown (s : State) : List Nat :=
  if s.ras.ostlerDown then s.pw.leds else (List.range 6).map fun i => (s.led i).num

/-! ## Ostler self-resets -/

/-- OSTLER_SELF_RESET: the MGMT image has not kicked the watchdog for 500 ms. The third within 60 s leaves Ostler in its
boot ROM under a fence (R695, R696, R698). -/
def execOstlerSelfReset (s : State) : Res :=
  .next (
    if !s.mgmtUp then s
    else
      let s := s.notBefore (s.ras.ostAlive + 500000000)
      let s := (s.updPw fun p => { p with leds := s.ledsShown }).mgmtStop
      let s := (s.advise .ostlerReset 6).addF .rasRecovery 0 16 16 1
      let r := escalate s.ras.ostTimes s.now minute
      let s := { s with ras := { s.ras with ostTimes := r.1, ostlerDown := true, ostlerHeld := s.ras.ostlerHeld || r.2 } }
      if r.2 then s.fenceOn 9 else s)

end Sys2Proof.Machine
end

