-- ==== Sys2Proof/Machine/Tack.lean ====
section
/-! DEFINITION. What the tack check of each block examines, and the condition it reports (R212 to R228; the checks of the
blocks' own chapters). -/

namespace Sys2Proof.Machine

open Sys2Proof

/-! ## Which failure is reported (R222) -/

/-- A condition: the register's offset, the low byte of the code, and whether it fails. -/
abbrev Cond := Nat × Nat × Bool

/-- A comes before b in the order of R222. -/
def Cond.before (a b : Cond) : Bool := decide (a.1 < b.1) || (a.1 == b.1 && decide (a.2.1 < b.2.1))

/-- The failing condition that the order of R222 puts first. -/
def firstFail : List Cond → Option Cond
  | [] => none
  | c :: t => match c.2.2, firstFail t with
    | false, r => r
    | true, none => some c
    | true, some d => if d.before c then some d else some c

/-- The first failing condition of a table. -/
def topFail (l : List Cond) : Option Cond := l.find? fun c => c.2.2

/-- Code and field of a block's check; (0, 0): accepted. -/
def codeOf (block : Nat) : Option Cond → Nat × Nat
  | some c => (256 * block + c.2.1, c.1)
  | none => (0, 0)

/-- A number lies outside a range. -/
def outside (v lo hi : Nat) : Bool := decide (v < lo) || decide (hi < v)

/-! ## Windows of a stall -/

/-- Every byte of [a, a + n), n > 0, lies in an enabled DRAM window of the stall. Windows are whole blocks. -/
def State.inDramWindows (s : State) (st a n : Nat) : Bool :=
  decide (dramSpace ≤ a) && decide (a + n ≤ hostSpace) &&
    (List.range ((a - dramSpace + n - 1) / blockSize - (a - dramSpace) / blockSize + 1)).all fun j =>
      (s.active.translate st (((a - dramSpace) / blockSize + j) * blockSize)).isSome

/-- Every byte lies in the host memory window. -/
def inHostWindow (a n : Nat) : Bool := decide (hostSpace ≤ a) && decide (a + n ≤ remoteSpace)

/-- Every byte of [o, o + n) of the Paddock lies in an enabled Paddock window of the stall. Windows are whole 64 KiB. -/
def State.inPaddockWindows (s : State) (st o n : Nat) : Bool :=
  (List.range ((o + n - 1) / 65536 - o / 65536 + 1)).all fun j => s.active.inPaddock st ((o / 65536 + j) * 65536)

/-- The stall whose active entry gives it a core, barrier descriptor, Paddock ring or CQ. -/
def State.holderOf (s : State) (p : Copy → Nat → Bool) : Option Nat := stallWhere fun st => p s.active st
def State.coreStall (s : State) (c : Nat) : Option Nat := s.holderOf fun t st => t.hasCore st c
def State.cqStall (s : State) (n : Nat) : Option Nat := s.holderOf fun t st => t.inRange Copy.cq st n

/-- Two ranges of a start and a length meet. -/
def meets (a n b m : Nat) : Bool := decide (a < b + m) && decide (b < a + n)

/-! ## SQ and CQ (block 0x02) -/

/-- Where a queue's ring lies. -/
def State.queueRing (s : State) (st a n low : Nat) : List Cond :=
  [ (8, tcWindow, !inHostWindow a n && !s.inDramWindows st a n),
    (8, low, inHostWindow a n && !s.active.hostEn st) ]

/-- SQ n. -/
def State.sqConds (s : State) (n : Nat) : List Cond :=
  let st := s.sqStall n
  let d := s.f .sqCtl n 8 5
  [ (0, tcRefOff, !s.cqOn (s.sqCq n)), (0, tcRefOther, s.cqStall (s.sqCq n) != st || st.isNone),
    (0, tcStall, st.isNone), (0, 0x20, outside d 6 16) ]
  ++ s.queueRing (st.getD 16) (s.sqBase n) (64 * s.sqDepth n) 0x22

/-- CQ n. -/
def State.cqConds (s : State) (n : Nat) : List Cond :=
  let st := s.cqStall n
  let d := s.f .cqCtl n 8 5
  [ (0, tcStall, st.isNone), (0, 0x21, outside d 6 16) ]
  ++ s.queueRing (st.getD 16) (s.cqBase n) (32 * s.cqDepth n) 0x22

/-! ## Stream queues (block 0x03) -/

/-- Lines of an A-region. -/
def aLines : Nat := 2560

/-- First A-region line and lines of a core ring. -/
def State.ringLines (s : State) (i : Nat) : Nat × Nat := ((s.ringAddr i 0 - 0x100000) / 256, s.ringSlots i)

/-- Queue i = 8 × core + queue. -/
def State.streamConds (s : State) (i : Nat) : List Cond :=
  let c := i / 8
  let first := s.f .streamQStage i 0 12
  let lines := s.f .streamQStage i 16 12
  let hits := (List.range 64).any fun r => s.ringOn (64 * c + r) &&
    meets first lines (s.ringLines (64 * c + r)).1 (s.ringLines (64 * c + r)).2
  let outer := decide (aLines < first + lines)
  [ (0, tcStall, (s.coreStall c).isNone), (0, 0x21, s.f .streamQCtl i 1 1 == 1 && s.f .streamQCtl i 16 16 == 0),
    (4, tcRange, decide (aLines ≤ first) && !outer), (4, 0x20, outer || (decide (0 < lines) && hits)) ]

/-! ## Rings (block 0x04) -/

/-- Ring i: a core ring lies in its core's A-region, a Paddock ring in the stall's windows; no enabled ring of its kind
(and core) meets it. -/
def State.ringConds (s : State) (i : Nat) : List Cond :=
  let core := decide (i < pringBase)
  let st := if core then s.coreStall (i / 64) else s.holderOf fun t st => t.inRange Copy.pring st (i - pringBase)
  let n := s.ringSlots i
  let a := s.ringAddr i 0
  let others := if core then (List.range 64).map fun r => i / 64 * 64 + r else (List.range 256).map fun r => pringBase + r
  let outer := if core then decide (a < 0x100000) || decide (0x1A0000 < a + 256 * n) else decide (2 ^ 25 < a + 256 * n)
  [ (0, tcStall, st.isNone), (0, 0x21, !(decide (2 ≤ n) && decide (n ≤ 4096) && 2 ^ n.log2 == n)),
    (8, tcWindow, !core && !outer && !s.inPaddockWindows (st.getD 16) a (256 * max 1 n)), (8, 0x20, outer),
    (8, 0x22, others.any fun j => j != i && s.ringOn j && meets a (256 * n) (s.ringAddr j 0) (256 * s.ringSlots j)) ]

/-! ## Barriers and hitch limits (block 0x05) -/

/-- The stall of a barrier descriptor, and its pool hitch. -/
def State.barrierStall (s : State) (d : Nat) : Option Nat := s.holderOf fun t st => t.inRange Copy.barrier st d
def State.barrierHitch (s : State) (d : Nat) : Nat :=
  (s.active.hitch ((s.barrierStall d).getD 16)).1 + s.f .barrierCtl d 32 14

/-- Descriptor d (R462). -/
def State.barrierConds (s : State) (d : Nat) : List Cond :=
  let st := s.barrierStall d
  [ (0, tcRange, decide ((s.active.hitch (st.getD 16)).2 ≤ s.f .barrierCtl d 32 14)), (0, tcStall, st.isNone),
    (0, 0x20, s.f .barrierCtl d 16 10 == 0),
    (0, 0x21, (List.range 512).any fun e => e != d && s.f .barrierCtl e 0 1 == 1 && s.barrierHitch e == s.barrierHitch d) ]

/-- HITCH_CFG of a stall. -/
def State.hitchConds (s : State) (st : Nat) : List Cond :=
  [ (0, tcStall, !s.active.valid st), (0, 0x22, s.f .hitchCfg st 16 16 == 0 || s.f .hitchCfg st 32 32 == 0) ]

/-! ## KV pools (block 0x06) -/

/-- SEQ_BASE, SEQ_COUNT and PAGE_COUNT of a pool. -/
def State.poolSeqs (s : State) (p : Nat) : Nat × Nat := (s.f .kvPoolCount p 32 17, s.f .kvPoolSeq p 0 18)
def State.poolCount (s : State) (p : Nat) : Nat := s.f .kvPoolCount p 0 24

/-- Pool p. -/
def State.kvConds (s : State) (p : Nat) : List Cond :=
  let st := s.poolStall p
  let t := s.poolT p
  let q := s.poolSeqs p
  let pages := s.poolCount p
  let recent := s.f .kvPoolLimits p 40 8
  let budget := s.f .kvPoolLimits p 48 16
  let others := (List.range 16).filter fun o => o != p && s.poolOn o
  [ (0, tcRange, outside t 8 128 || t % 8 != 0 || outside (s.poolLayers p) 1 128 || s.poolB p == 0),
    (0, tcStall, !s.active.valid st), (0, 0x20, decide (32768 < t * s.poolB p + 2 * t)),
    (8, tcWindow, !s.inDramWindows st (s.poolPages p) (32768 * max 1 pages)),
    (8, 0x24, others.any fun o => s.poolStall o == st && meets (s.poolPages p) (32768 * pages) (s.poolPages o)
      (32768 * s.poolCount o)),
    (0x10, tcRange, outside pages 1 8388608 || decide (131072 < q.1 + q.2)),
    (0x10, 0x21, others.any fun o => meets q.1 q.2 (s.poolSeqs o).1 (s.poolSeqs o).2),
    (0x18, tcRange, outside q.2 1 131072),
    (0x20, tcWindow, !s.inDramWindows st (s.poolFree p) (4 * max 1 (s.poolEntries p))),
    (0x28, tcRange, recent == 0 || outside budget 2 65534),
    (0x28, 0x22, decide (budget ≤ s.f .kvPoolLimits p 32 8 + recent)),
    (0x28, 0x23, decide (s.poolEntries p < pages)) ]

/-! ## Rein ports (block 0x07): the first condition of R674's table -/

/-- TOPO of a port, its six credits, and the entry of REIN_ROUTE for a chip. -/
def State.topo (s : State) (p : Nat) : Nat := s.f .reinPortCtl p 1 2
def State.credits6 (s : State) (p : Nat) : List Nat :=
  [0, 16, 32].map (fun lo => s.f .reinPortCred0 p lo 13) ++ [0, 16, 32].map (fun lo => s.f .reinPortCred1 p lo 13)

/-- Port p; a line uses the first three of the six credits. -/
def State.reinConds (s : State) (p : Nat) : List Cond :=
  let ring := s.topo p == 2
  let cred := s.credits6 p
  let low := ((if ring then cred else cred.take 3).zipIdx.find? fun (e : Nat × Nat) => decide (e.1 < 17)).map Prod.snd
  let bad := fun (c : Nat) =>
    let r := s.f .reinRoute 0 (2 * c) 2
    if c = s.chipId then r != 0 else r == 3 || (r == 1 && s.topo 0 == 0) || (r == 2 && s.topo 1 == 0)
  [ (0, tcUndef, s.topo p == 0 || s.topo p == 3), (0, 0x20, s.f .reinChip 0 4 1 == 0),
    (0, 0x21, ring && s.topo (1 - p) != 2), (0, 0x22, s.topo p == 1 && s.f .reinPortCtl p 3 1 == 1),
    (8, 0x23, decide (8192 < cred.foldl (· + ·) 0)), (if low.getD 0 < 3 then 8 else 0x10, tcRange, low.isSome),
    (0, 0x24, (List.range 16).any bad) ]

/-! ## VDD_CORE (block 0x08), fan and thermal (block 0x09), relative to BAR0 + 0x220_0000 -/

/-- Set-point and clock of an OP. -/
def State.opPoint (s : State) (n : Nat) : Nat × Nat := (s.f .vrOp n 0 10, s.f .vrOp n 16 11)

/-- VR_CTL (R744). -/
def State.vrConds (s : State) : List Cond :=
  let op := fun (n : Nat) =>
    let v := s.opPoint n
    let u := s.opPoint (n - 1)
    [ (0x20 + 4 * n, tcRange, outside v.2 400 1100), (0x20 + 4 * n, 0x22, outside v.1 500 850),
      (0x20 + 4 * n, 0x23, decide (0 < n) && (decide (v.1 ≤ u.1) || decide (v.2 ≤ u.2))) ]
  let w := fun (lo n : Nat) => s.f .vrPwm 0 lo n
  op 0 ++ op 1 ++ op 2 ++ op 3 ++
  [ (0x30, tcRange, decide (80 < w 0 7) || outside (w 8 8) 20 200 || outside (w 16 8) 10 200 || outside (w 24 8) 128 250
      || outside (w 32 7) 20 80 || outside (w 48 8) 10 60),
    (0x30, 0x20, decide (w 0 7 < s.f .vrStage 0 0 7) || decide (w 0 7 < 8)),
    (0x30, 0x21, decide (1250 * (256 - w 24 8) < 256 * (w 0 7 + w 16 8))), (0x38, 0x24, s.f .vrPhase 0 0 6 == 0) ]

/-- FAN_CTL (R745). -/
def State.fanConds (s : State) : List Cond :=
  [ (4, tcRange, outside (s.f .fanCtl 0 8 8) 20 100 || outside (s.f .fanCtl 0 16 8) 50 105),
    (4, 0x20, s.card.order != .a256) ]

/-- THERM_CTL (R745). -/
def State.thermConds (s : State) : List Cond :=
  let warn := s.f .thermCtl 0 8 8
  let fence := s.f .thermCtl 0 16 8
  let limit := s.f .powerLimit 0 0 8
  let passive := s.f .powerLimit 0 8 8
  [ (0x10, 0x21, decide (fence ≤ warn) || decide (110 < fence)), (0x14, tcRange, outside limit 75 150 || outside passive 75 150),
    (0x14, 0x22, (decide (75 < limit) || decide (75 < passive)) && s.f .powerStatus 0 32 1 == 0) ]

/-! ## The Bridle (block 0x0A): the first condition of R639's table -/

/-- Classes that carry traffic at an arbiter (R622). -/
def carrying (arb : Nat) : List Nat :=
  if arb < 32 then List.range 8 else if arb < 34 then List.range 5 else [0, 1, 2, 3, 4, 6]

/-- Arbiter a. -/
def State.bridleConds (s : State) (a : Nat) : List Cond :=
  let floor := fun (k : Nat) => s.f .bridleFloor a (8 * k) 8
  let ceil := fun (k : Nat) => s.f .bridleCeil a (8 * k) 8
  let q := fun (k : Nat) => s.f .bridleCtl a (8 * k) 7
  let l := carrying a
  [ (8, tcRange, l.any fun k => floor k == 0), (0, tcRange, decide (a < 32) && decide (64 < q 3)),
    (8, 0x20, decide (256 < l.foldl (fun n k => n + floor k) 0)),
    (0x10, 0x21, (List.range 8).any fun k => ceil k != 0 && decide (ceil k < floor k)),
    (0, 0x22, decide (a < 32) && !(decide (q 1 < q 2) && decide (q 2 < q 3))) ]

/-! ## Harnesses (block 0x0B), relative to the header (R389, R390, R223) -/

/-- Any of n header bytes from o is not zero. -/
def State.hdrDirty (s : State) (e o n : Nat) : Bool := (s.rdBytes (hrnBase e + o) n).any fun b => b != 0

/-- 64 KiB units of the Paddock that a stall's enabled windows hold. -/
def State.paddockUnits (s : State) (st : Nat) : Nat :=
  ((List.range 512).filter fun u => s.active.inPaddock st (65536 * u)).length

/-- A range of CM lines names a bank of a mask. -/
def namesBank (mask first n : Nat) : Bool := (List.range n).any fun j => mask.testBit (bankAt (256 * (first + j)))

/-- LIVE[j]. -/
def State.liveConds (s : State) (e : Nat) (j : Nat) : List Cond :=
  let v := s.hdr e (0x40 + 4 * j) 4
  let first := v % 2 ^ 13
  let n := v / 2 ^ 16 % 2 ^ 14
  let inUse := decide (j < s.hdr e 0x1C 1)
  [ (0x40 + 4 * j, tcUndef, v / 2 ^ 13 % 2 ^ 3 != 0 || v / 2 ^ 30 != 0),
    (0x40 + 4 * j, tcRange, inUse && (outside n 1 8192 || decide (8192 < first + n))),
    (0x40 + 4 * j, 0x23, inUse && namesBank (s.hdr e 0x10 2) first (min n (8192 - first))) ]

/-- ACC_CM[j]. -/
def State.accCmConds (s : State) (e : Nat) (j : Nat) : List Cond :=
  let v := s.hdr e (0x60 + 4 * j) 4
  [ (0x60 + 4 * j, tcUndef, v / 2 ^ 30 != 0),
    (0x60 + 4 * j, tcRange, v.testBit 0 && decide (1536 < v / 2 ^ 8 % 2 ^ 11 + v / 2 ^ 19 % 2 ^ 11)) ]

/-- ACC_PD[j]. -/
def State.accPdConds (s : State) (e : Nat) (j : Nat) : List Cond :=
  let v := s.hdr e (0x70 + 8 * j) 8
  [ (0x70 + 8 * j, tcUndef, v / 2 ^ 43 != 0),
    (0x70 + 8 * j, tcRange, v.testBit 0 && decide (s.hdr e 0x14 4 / 256 < v / 2 ^ 8 % 2 ^ 17 + v / 2 ^ 25 % 2 ^ 18)) ]

/-- The copy in an entry. -/
def State.hrnConds (s : State) (e : Nat) : List Cond :=
  let st := s.hrnStall e
  let h := s.hdr e
  let off := h 0x10 2
  let words := s.hdrWords e
  [ (0, 0x20, h 0 4 != 0x4E524847), (0, tcStall, !s.active.valid st), (4, 0x20, h 4 1 != 1),
    (5, 0x21, decide (silEpoch < h 5 1)), (6, 0x21, decide (h 6 1 < silEpoch)), (7, tcUndef, decide (1 < h 7 1)),
    (8, tcRange, outside (s.hdrTeam e) 1 32), (8, 0x22, decide ((s.goodCores st).length < s.hdrTeam e)),
    (9, tcRange, decide (3 < h 9 1)),
    (0xA, tcRange, outside words 1 16384 || s.rdNat (hrnBase e + hrnMax) 4 != 256 + 4 * words),
    (0xC, tcRange, decide (words ≤ s.hdrEntry e)), (0xE, 0x23, h 0xE 2 &&& off != 0), (0x12, tcRange, decide (4096 < h 0x12 2)),
    (0x14, tcMisaligned, h 0x14 4 % 256 != 0), (0x14, 0x23, decide (65536 * s.paddockUnits st < h 0x14 4)),
    (0x18, 0x23, decide ((s.active.hitch st).2 < s.hdrHitches e)), (0x1A, tcRange, decide (64 < h 0x1A 1)),
    (0x1B, 0x23, decide ((s.active.pring st).2 < h 0x1B 1)), (0x1C, tcRange, decide (8 < h 0x1C 1)),
    (0x1D, tcUndef, s.hdrDirty e 0x1D 3),
    (0x20, 0x24, decide (s.saveBytes st < s.frameBytes e)), (0x24, tcUndef, decide (2 ^ 24 ≤ h 0x24 4)),
    (0x28, tcUndef, s.hdrDirty e 0x28 24), (0xC0, tcUndef, s.hdrDirty e 0xC0 64),
    (0x90, 0x25, sha384 (s.rdBytes (hrnBase e + 256) (4 * words)) != beNat (s.rdBytes (hrnBase e + 0x90) 48)) ]
  ++ (List.range 8).flatMap (s.liveConds e) ++ (List.range 4).flatMap (s.accCmConds e)
  ++ (List.range 4).flatMap (s.accPdConds e)

/-- An entry; one that holds no copy is refused with HRN_FORMAT (R568). -/
def State.hrnFail (s : State) (e : Nat) : Option Cond :=
  if s.hrnLoaded e then firstFail (s.hrnConds e) else some (0, 0x20, true)

/-! ## The staged stall table (block 0x01) -/

/-- Ranges of a stall entry by register offset: the range, the largest COUNT and the pool. -/
def stallRanges : List (Nat × (Copy → Nat → Nat × Nat) × Nat × Nat) :=
  [ (0x08, Copy.hitch, 16384, 16384), (0x0C, Copy.barrier, 512, 512), (0x10, Copy.pring, 256, 256),
    (0x14, Copy.sq, 64, 1024), (0x18, Copy.cq, 64, 1024), (0x1C, Copy.rslot, 262144, 262144) ]

/-- What kind of block b is, for a stall's windows (R169). -/
inductive BlockKind where
  | reserved | deviceOnly | shared
  /-- HDM-H of these requesters -/
  | host (reqs : List Nat)
deriving DecidableEq, Repr

/-- The kind of a block. -/
def State.blockKind (s : State) (b : Nat) : BlockKind :=
  if s.hostBlocks ≤ b then .reserved
  else match s.extentOf b with
    | some x => if x.region = 1 then .shared else .host (x.offered ++ x.holders)
    | none => match holderIn s.link.held b with
      | some r => .host [r]
      | none => .deviceOnly

/-- A block is being zero-filled, or its release or a capacity command that names it is in progress (R226 0x0127). -/
def State.blockBusy (s : State) (b : Nat) : Bool :=
  (match s.extentOf b with
    | some x => !x.posted || s.dcoh.trackers.any fun t => t.2.queue.any fun r => match r.kind with
        | .release _ e => e == x.id
        | _ => false
    | none => false)
  || (s.f .stallCapStatus 0 0 1 == 1 && decide (s.f .stallCapAssign 0 0 10 ≤ b)
      && decide (b < s.f .stallCapAssign 0 0 10 + s.f .stallCapAssign 0 16 10))

/-- Conditions on Paddock window w of stall st in a copy, against the valid stalls below it. -/
def pwinConds (t : Copy) (below : List Nat) (st w : Nat) : List Cond :=
  let o := 0x100 * st + 0x40 + 8 * w
  match t.pwin st w with
  | none => []
  | some (b, n) =>
    let hit := below.any fun u => (List.range 4).any fun x => match t.pwin u x with
      | some (c, m) => meets b n c m
      | none => false
    [ (o, tcRange, outside (n / 65536) 1 512), (o, 0x22, decide (2 ^ 25 < b + n) || hit) ]

/-- Conditions on DRAM window w. -/
def State.dwinConds (s : State) (t : Copy) (below : List Nat) (st w : Nat) : List Cond :=
  let o := 0x100 * st + 0x60 + 8 * w
  match t.dwin st w with
  | none => []
  | some (_, phys, n, _) =>
    let blocks := (List.range n).map (phys + ·)
    [ (o, tcRange, outside n 1 960 || decide (s.usableBlocks < phys + n)),
      (o, 0x24, blocks.any fun b => s.blockKind b == .reserved),
      (o, 0x25, blocks.any fun b => s.blockKind b == .deviceOnly && below.any fun u => t.coversBlock u b),
      (o, 0x26, blocks.any fun b => match s.blockKind b with
        | .host l => !(t.hostEn st && l.contains (t.hostReq st))
        | _ => false),
      (o, 0x27, blocks.any s.blockBusy) ]

/-- Conditions on the entry of stall st; an entry with VALID = 0 is not examined (R227). -/
def State.stallConds (s : State) (t : Copy) (st : Nat) : List Cond :=
  if !t.valid st then [] else
  let below := (List.range st).filter t.valid
  let cores := fld (t st 4) 0 32
  [ (0x100 * st + 4, 0x20, below.any fun u => fld (t u 4) 0 32 &&& cores != 0),
    (0x100 * st + 4, 0x21, s.f .stageBist 0 0 32 &&& cores != 0) ]
  ++ stallRanges.flatMap (fun (r : Nat × (Copy → Nat → Nat × Nat) × Nat × Nat) =>
      let v := r.2.1 t st
      [ (0x100 * st + r.1, tcRange, decide (r.2.2.1 < v.2) || decide (r.2.2.2 < v.1 + v.2)),
        (0x100 * st + r.1, 0x23, decide (0 < v.2) && below.any fun u => decide (0 < (r.2.1 t u).2) &&
          meets v.1 v.2 (r.2.1 t u).1 (r.2.1 t u).2) ])
  ++ (List.range 4).flatMap (pwinConds t below st) ++ (List.range 8).flatMap (s.dwinConds t below st)

/-- The check of the staged copy. -/
def State.stagedFail (s : State) : Option Cond := firstFail ((List.range 16).flatMap fun st => s.stallConds s.staged st)

/-! ## All blocks -/

/-- The first condition that an instance's check refuses with; none: it accepts. -/
def State.tackFail (s : State) (block inst : Nat) : Option Cond :=
  match block with
  | 1 => s.stagedFail
  | 2 => firstFail (if inst < 1024 then s.sqConds inst else s.cqConds (inst - 1024))
  | 3 => firstFail (s.streamConds inst)
  | 4 => firstFail (s.ringConds inst)
  | 5 => firstFail (if inst < 512 then s.barrierConds inst else s.hitchConds (inst - 512))
  | 6 => firstFail (s.kvConds inst)
  | 7 => topFail (s.reinConds inst)
  | 8 => firstFail s.vrConds
  | 9 => firstFail (if inst = 0 then s.fanConds else s.thermConds)
  | 0xA => topFail (s.bridleConds inst)
  | 0xB => s.hrnFail inst
  | _ => none

/-- INSTANCE as it is reported: for the stall block, the stall of the offending entry (R216). -/
def reportInst (block inst field : Nat) : Nat := if block = 1 then field / 256 else inst

/-- The party that runs a block's check is available (R216, R217). -/
def State.checkerUp (s : State) (block : Nat) : Bool :=
  if block = 1 || block = 2 then decide (0 < s.stageNow) && !s.ras.cpInReset
  else if onOstler block then s.mgmtUp
  else s.f .stageStatus 0 7 1 == 1 && !s.ras.cpInReset

/-! ## Running the checks (R212, R213, R217, R219) -/

/-- The check at the head of a block's queue starts: it examines the state as it stands now. -/
def State.startCheck (s : State) (block : Nat) : State :=
  match s.checks block with
  | c :: rest =>
    let r := codeOf block (s.tackFail block c.inst)
    s.setChecks block ({ c with started := true, code := r.1, field := r.2 } :: rest)
  | [] => s

/-- A check is asked for: refused at once while its party is not available, else it waits its turn. -/
def State.askCheck (s : State) (block inst bank : Nat) : State :=
  if !s.checkerUp block then s.tackResult block inst bank (256 * block + tcNotAvailable) 0
  else
    let first := (s.checks block).isEmpty
    let s := (s.tackRunning block bank).setChecks block (s.checks block ++
      [{ inst := inst, bank := bank, started := false, code := 0, field := 0, off := false }])
    if first then s.startCheck block else s

end Sys2Proof.Machine
end

