-- ==== Sys2Proof/Machine/Commit.lean ====
section
/-! DEFINITION. STALL_COMMIT and stall reset: what a commit takes, clears and gives (R185 to R197). -/

namespace Sys2Proof.Machine

open Sys2Proof

/-! ## What a stall loses (R189 step 1) -/

/-- What remains of a range of a start and a length beside another. -/
def rangeMinus (a b : Nat × Nat) : List (Nat × Nat) :=
  if a.2 = 0 then []
  else if b.2 = 0 || !meets a.1 a.2 b.1 b.2 then [a]
  else (if a.1 < b.1 then [(a.1, b.1 - a.1)] else [])
    ++ (if b.1 + b.2 < a.1 + a.2 then [(b.1 + b.2, a.1 + a.2 - (b.1 + b.2))] else [])

/-- Ranges of a kind that a stall has in copy t and not in copy n. -/
def lostRanges (t n : Copy) (r : Copy → Nat → Nat × Nat) (st : Nat) : List (Nat × Nat) :=
  if !t.valid st then [] else if n.valid st then rangeMinus (r t st) (r n st) else rangeMinus (r t st) (0, 0)

/-- Their indices. -/
def lostIndices (t n : Copy) (r : Copy → Nat → Nat × Nat) (st : Nat) : List Nat := (lostRanges t n r st).flatMap rangeOf

/-- Cores, 64 KiB units of the Paddock, and physical blocks that a stall has in t and not in n. -/
def lostCores (t n : Copy) (st : Nat) : List Nat := (List.range 32).filter fun c => t.hasCore st c && !n.hasCore st c
def lostUnits (t n : Copy) (st : Nat) : List Nat :=
  (List.range 512).filter fun u => t.inPaddock st (65536 * u) && !n.inPaddock st (65536 * u)
def lostBlocks (t n : Copy) (st : Nat) : List Nat :=
  (List.range 960).filter fun b => t.coversBlock st b && !n.coversBlock st b

/-- A stall that is valid in t loses something: a resource of R168, or all of its DRAM windows with its key. -/
def losesAny (t n : Copy) (rekey : List Nat) (st : Nat) : Bool :=
  t.valid st && (!n.valid st || !(lostCores t n st).isEmpty || !(lostUnits t n st).isEmpty || !(lostBlocks t n st).isEmpty
    || ([Copy.hitch, Copy.barrier, Copy.pring, Copy.sq, Copy.cq, Copy.rslot].any fun r => !(lostRanges t n r st).isEmpty)
    || (t.hostEn st && !(n.hostEn st && n.hostReq st == t.hostReq st))
    || (rekey.contains st && (List.range 8).any fun w => (t.dwin st w).isSome))

/-- The stalls of the table. -/
def allStalls : List Nat := List.range 16

/-! ## Steps 1 to 4 -/

/-- A command of a lost SQ goes without a completion record; its result slot is written (R189 step 4, R541). -/
def State.dropSilent (s : State) (sq : Nat) (c : Cmd) : State :=
  let s := match c.slot with
    | some k => s.readySlot k stProtection []
    | none => s
  let s := if c.op = 0x20 && !c.started then
      { s with q := { s.q with tasks := s.q.tasks.filter fun t => some t.id != c.task } } else s
  s.updSq sq fun q => { q with accepted := q.accepted.filter fun e => e.seq != c.seq }

/-- A lost SQ is disabled and its commands are discarded. -/
def State.loseSq (s : State) (n : Copy) (st sq : Nat) : State :=
  let s := (s.setF .sqCtl sq 0 1 0).updSq sq fun q => { q with asm := [] }
  if n.inRange Copy.cq st (s.sqCq sq) then
    let s := s.dropWaiting sq stProtection 0 fun _ => true
    (s.sq sq).accepted.foldl (fun s c => s.completeCmd sq c.seq stProtection) s
  else (s.sq sq).accepted.foldl (fun s c => s.dropSilent sq c) s

/-- The copy that a commit applies, as entries by offset in the copy. -/
def State.stagedList (s : State) : List (Nat × Word) :=
  (s.regs.filter fun e => stagedKey e.1).map fun e => (e.1 - 0x101000, e.2)

/-- A commit that is accepted begins: BUSY; lost resources leave the view; tasks of the stalls that lose any end with
PROTECTION_CHANGE; lost hitches take the marker; lost SQs are disabled. -/
def State.commitBegin (s : State) (next : List (Nat × Word)) : State :=
  let t := s.active
  let n : Copy := fun st o => Tbl.get 0 next (0x100 * st + o)
  let rekey := allStalls.filter fun st => n.valid st && (bitAt (n st 0) 1 || !t.valid st)
  let losing := allStalls.filter (losesAny t n rekey)
  let s := ({ s with gb := { s.gb with commit := some ⟨next, rekey, losing, s.now⟩ } }).setF .stallCommit 0 1 1 1
  let ids := (s.q.tasks.filter fun u => losing.contains u.stall && u.phase != .waiting && u.phase != .saved).map Task.id
  let s := s.abortTasks ids stProtection 0
  losing.foldl (fun s st =>
    let s := (lostIndices t n Copy.hitch st).foldl (fun s h => s.hitchPoke h fun _ => abortedMark) s
    (lostIndices t n Copy.sq st).foldl (fun s q => s.loseSq n st q) s) s

/-! ## Steps 5 and 6 -/

/-- Everything that stall st loses is cleared; a stall that goes loses its harness entries too. -/
def State.clearLost (s : State) (t n : Copy) (st : Nat) : State :=
  let s := (lostCores t n st).foldl State.clearCore s
  let s := (lostUnits t n st).foldl (fun s u => s.clearOnChip (pdBase + 65536 * u) 65536) s
  let s := (lostIndices t n Copy.hitch st).foldl State.clearHitch s
  let s := (lostIndices t n Copy.barrier st).foldl State.clearBarrier s
  let s := (lostIndices t n Copy.pring st).foldl (fun s i => s.clearRing (pringBase + i)) s
  let s := (lostIndices t n Copy.sq st).foldl State.clearSq s
  let s := (lostIndices t n Copy.cq st).foldl State.clearCq s
  let s := (lostRanges t n Copy.rslot st).foldl (fun s r => s.clearSlots r.1 r.2) s
  let s := s.cutSaved fun u => u.stall == st && u.team.any fun c => !n.hasCore st c
  if t.valid st && !n.valid st then
    ((List.range 256).filter fun e => s.f .hrnCtl e 5 1 == 1 && s.f .hrnCtl e 1 4 == st).foldl State.unloadHrn s
  else s

/-- Device-only blocks that stall st gains are zero-filled under its key (R192, R193, R195). -/
def State.fillGained (s : State) (t n : Copy) (rekey : List Nat) (st : Nat) : State :=
  ((List.range 960).filter fun b => n.coversBlock st b && (rekey.contains st || !t.coversBlock st b)
      && s.blockKind b == .deviceOnly).foldl (fun s b => s.zeroBlocks b 1) s

/-- The new active copy, with KEY_RENEW cleared there and in the staged copy. -/
def State.applyCopy (s : State) (next : List (Nat × Word)) : State :=
  let noRenew := fun (o : Nat) (v : Word) => if o % 0x100 = 0 then v &&& ~~~2 else v
  let regs := Tbl.keep (fun k => !activeKey k) s.regs
  let regs := next.foldl (fun r e => Tbl.put 0 r (0x102000 + e.1) (noRenew e.1 e.2)) regs
  let s := { s with regs := regs }
  allStalls.foldl (fun s st => s.setF .stagedCfg st 1 1 0) s

/-- A trace whose ring has left the stall's windows stops (R763). -/
def State.dropTrace (s : State) (st : Nat) : State :=
  if s.f .traceCtl st 0 1 = 1
      && !s.inDramWindows st (4096 * s.f .traceBase st 12 36) (32 * 2 ^ s.f .traceCtl st 8 5) then
    (s.setF .traceCtl st 0 1 0).setF .traceStat st 16 1 1
  else s

/-- A debug session of a stall that is not valid closes (R764). -/
def State.dropSession (s : State) : State :=
  if s.f .dbgSession 0 0 1 = 1 && !s.active.valid (s.f .dbgSession 0 4 4) then s.setF .dbgSession 0 0 1 0 else s

/-- STALL_RESET of one stall (R196). -/
def State.stallReset (s : State) (st : Nat) : State := (s.resetStall st stProtection 0 false).setF .stallReset 0 (16 + st) 1 0

/-- A commit in progress completes; stall resets that wait for it follow (R197). -/
def State.commitEnd (s : State) : State :=
  match s.gb.commit with
  | none => s
  | some c =>
    let t := s.active
    let n : Copy := c.word
    let fresh := allStalls.filter fun st => n.valid st && !t.valid st
    let s := allStalls.foldl (fun s st => s.clearLost t n st) s
    let s := c.rekey.foldl (fun s st => s.newKey (1 + st)) s
    let s := allStalls.foldl (fun s st => s.fillGained t n c.rekey st) s
    let s := { s with
      q := { s.q with counts := s.q.counts.filter fun e => !fresh.contains e.1 }
      gb := { s.gb with commit := none, resetWait := [] } }.applyCopy c.next
    let s := (s.setF .stallCommit 0 1 1 0).setF .stallCommit 0 16 16 (s.f .stallCommit 0 16 16 + 1)
    let s := ((allStalls.foldl State.dropTrace s).dropSession).sweepExtents
    (allStalls.filter fun st => s.f .stallReset 0 (16 + st) 1 == 1).foldl State.stallReset s

/-! ## The commands -/

/-- STALL_COMMIT and STALL_EDIT act for the holder of the staged copy. -/
def State.holds (s : State) (agent : Nat) : Bool := s.f .stallEdit 0 0 5 == holderCode agent

/-- A write of STALL_COMMIT (R187, R188, R210): DISCARD reloads the staged copy, unless that copy is under check. -/
def State.commitAct (w : Written) (s : State) : State :=
  let busy := s.gb.commit.isSome
  if w.set 0 then
    if busy then s.refuseAccess w.agent (Reg.off .stallCommit 0) false true
    else if s.holds w.agent && !s.checking 1 0 then s.askCheck 1 0 (bankOf w.agent) else s
  else if w.set 2 && s.holds w.agent && !busy && !s.checking 1 0 then s.reloadStaged
  else s

/-- STALL_COMMIT: a write of COMMIT = 1. -/
def execStallCommit (req : Nat) (s : State) : Res := .next (s.regWrite req .stallCommit 0 1 State.commitAct)

/-- STALL_DISCARD: a write of DISCARD = 1. -/
def execStallDiscard (req : Nat) (s : State) : Res := .next (s.regWrite req .stallCommit 0 4 State.commitAct)

/-- COMMIT_COMPLETE: clearing, zero fill and key replacement are done. -/
def execCommitComplete (s : State) : Res := .next s.commitEnd

/-- A write of STALL_EDIT (R186, R187). -/
def State.editAct (w : Written) (s : State) : State :=
  if w.set 5 then
    if s.f .stallEdit 0 0 5 = 0x1F then s.setF .stallEdit 0 0 5 (holderCode w.agent) else s
  else if w.set 6 && s.holds w.agent then
    s.reloadStaged.setF .stallEdit 0 0 5 0x1F
  else s

/-- EDIT_TAKE. -/
def execEditTake (req : Nat) (s : State) : Res := .next (s.regWrite req .stallEdit 0 0x20 State.editAct)

/-- EDIT_DROP. -/
def execEditDrop (req : Nat) (s : State) : Res := .next (s.regWrite req .stallEdit 0 0x40 State.editAct)

/-- A write of STALL_RESET: at once, or after the commit in progress (R196, R197). -/
def State.stallResetAct (w : Written) (s : State) : State :=
  (allStalls.filter w.set).foldl (fun s st =>
    if s.gb.commit.isSome then s.setF .stallReset 0 (16 + st) 1 1 else s.stallReset st) s

/-- STALL_RESET. -/
def execStallReset (req : Nat) (val : Word) (s : State) : Res := .next (s.regWrite req .stallReset 0 val State.stallResetAct)

/-! ## Capacity commands (R183, R184) -/

/-- The command of STALL_CAP_ASSIGN is refused. -/
def State.capRefused (s : State) : Bool :=
  let first := s.f .stallCapAssign 0 0 10
  let n := s.f .stallCapAssign 0 16 10
  outside n 1 960 || decide (1 < s.f .stallCapAssign 0 36 2) || decide (s.usableBlocks < first + n)
    || s.f .stallCapStatus 0 0 1 == 1
    || (List.range n).any fun j => s.blockKind (first + j) == .reserved || (s.extentOf (first + j)).isSome
        || allStalls.any fun st => s.active.coversBlock st (first + j)

/-- GO: the blocks are assigned; a requester's static capacity follows at its next reset (R104). -/
def State.capAct (w : Written) (s : State) : State :=
  if !w.set 63 then s
  else if s.capRefused then s.setF .stallCapStatus 0 2 1 1
  else
    let to_ := if s.f .stallCapAssign 0 36 2 = 1 then some (s.f .stallCapAssign 0 32 4) else none
    ({ s with link := { s.link with
      assigned := (s.f .stallCapAssign 0 0 10, s.f .stallCapAssign 0 16 10, to_) :: s.link.assigned } }).setF
      .stallCapStatus 0 1 1 1

/-- CAP_ASSIGN. -/
def execCapAssign (req : Nat) (val : Word) (s : State) : Res := .next (s.regWrite req .stallCapAssign 0 val State.capAct)

end Sys2Proof.Machine
end

