-- ==== Sys2Proof/Machine/Debug.lean ====
section
/-! DEFINITION. Traces (R761 to R763), Owner debug sessions (R764 to R767), and halting cores under an open hardware
debug (R768, R769). -/

namespace Sys2Proof.Machine

open Sys2Proof

/-! ## Trace -/

/-- The ring of stall st's trace may be written (R763). -/
def State.traceRingOk (s : State) (st : Nat) : Bool :=
  let k := s.f .traceCtl st 8 5
  decide (7 ≤ k) && decide (k ≤ 20) && s.inDramWindows st (4096 * s.f .traceBase st 12 36) (32 * 2 ^ k)

/-- A write of TRACE_CTL (R763): every write of RUN = 1 is a start. -/
def State.traceAct (w : Written) (s : State) : State :=
  if !w.set 0 then s
  else if s.traceRingOk w.idx then s.setReg .tracePtr w.idx 0
  else (s.setF .traceCtl w.idx 0 1 0).setF .traceStat w.idx 16 1 1

/-- TRACE_START: a write of TRACE_CTL with RUN = 1. -/
def execTraceStart (req st : Nat) (val : Word) (s : State) : Res :=
  .next (s.regWrite req .traceCtl (st % 16) (val ||| 1) State.traceAct)

/-! ## Debug sessions -/

/-- A write of DBG_SESSION (R764). -/
def State.sessionAct (w : Written) (s : State) : State :=
  if w.set 0 && !s.stallValid (s.f .dbgSession 0 4 4) then s.setF .dbgSession 0 0 1 0 else s

/-- DBG_SESSION_OPEN: a write of DBG_SESSION, which opens, replaces or closes the session. -/
def execDbgSessionOpen (req : Nat) (val : Word) (s : State) : Res :=
  .next (s.regWrite req .dbgSession 0 val State.sessionAct)

/-- A debug access: operation, size in bytes, stall, address and start. -/
structure DbgAcc where
  op    : Nat
  n     : Nat
  st    : Nat
  a     : Nat
  since : Nat
deriving DecidableEq, Repr

/-- The access that waits. -/
def State.dbgWaiting (s : State) : Option DbgAcc :=
  s.mgmt.dbg.map fun d => ⟨d.1 % 4, 2 ^ (d.1 / 4 % 4), d.1 / 16, d.2.1, d.2.2⟩

/-- RESULT codes of DBG_STATUS. -/
def dbgOk : Nat := 0
def dbgNoSession : Nat := 1
def dbgWindow : Nat := 2
def dbgBusyBank : Nat := 3
def dbgMisaligned : Nat := 4
def dbgUndef : Nat := 5
def dbgTimeout : Nat := 6

/-- The access ends: BUSY clears, with its result, poison and tag. -/
def State.dbgEnd (s : State) (result : Nat) (poison : Bool := false) (tag : Bool := false) : State :=
  ({ s with mgmt := { s.mgmt with dbg := none } }).setF .dbgStatus 0 0 6 (2 * result + 16 * bit poison + 32 * bit tag)

/-- A READ returns its data. -/
def State.dbgRead (s : State) (v : Word × Bool) : State := (s.setReg .dbgData 0 v.1).dbgEnd dbgOk v.2

/-- The access fails its check: a READ returns all-ones with poison (R172). -/
def State.dbgRefuse (s : State) (d : DbgAcc) : State :=
  if d.op = 0 then (s.setReg .dbgData 0 (BitVec.ofNat 64 (2 ^ (8 * d.n) - 1))).dbgEnd dbgWindow true
  else s.dbgEnd dbgWindow

/-- A WRITE is performed (R241, R329, R767). -/
def State.dbgWrite (s : State) (d : DbgAcc) (key : Nat) : State :=
  ((s.narrowWrite key d.n (BitVec.ofNat 64 ((s.reg .dbgData 0).toNat % 2 ^ (8 * d.n))) false).addF .dbgStatus 0 16 16 1).dbgEnd
    dbgOk

/-- The access is performed at a byte key, as its operation says. -/
def State.dbgAt (s : State) (d : DbgAcc) (key : Nat) : State :=
  if d.op = 0 then s.dbgRead (s.narrowRead key d.n)
  else if d.op = 1 then s.dbgWrite d key
  else s.dbgEnd dbgOk false (s.tagAt key)

/-- It is not performed yet: it waits, and BUSY reads 1. -/
def State.dbgWait (s : State) (d : DbgAcc) : State :=
  ({ s with mgmt := { s.mgmt with dbg := some (d.op + 4 * d.n.log2 + 16 * d.st, d.a, d.since) } }).setF .dbgStatus 0 0 6 1

/-- An access to CM of core c at local address a (R254, R765, R766). -/
def State.dbgCm (s : State) (d : DbgAcc) (c a : Nat) : State :=
  let runs := (s.core c).task.isSome
  if d.op = 2 then (if tagged a then s.dbgAt d (cmBase c + a) else s.dbgRefuse d)
  else if runs && !bitAt (s.reg .cmCfg c) (16 + bankAt a) then s.dbgEnd dbgBusyBank
  else
    let s := if runs then s.perf c 0x07 1 else s
    if bitAt (s.reg .cmCfg c) (32 + bankAt a) then
      (if d.op = 0 then s.dbgRead (lostValue d.n false, true) else s.dbgEnd dbgOk)
    else s.dbgAt d (cmBase c + a)

/-- One debug access as far as it can go (R765 to R767). -/
def State.dbgGo (s : State) (d : DbgAcc) : State :=
  if d.op ≠ 2 && d.a % d.n ≠ 0 then s.dbgEnd dbgMisaligned
  else
    let c := (d.a - coreSpace) / 0x1000000
    let o := (d.a - coreSpace) % 0x1000000
    match regionOf d.a with
    | .core =>
      if !(s.inView fun t => t.hasCore d.st c) then s.dbgRefuse d
      else match regionOf o with
        | .w | .a | .p => s.dbgCm d c o
        | .ob _ =>
          if d.op = 2 then s.dbgRefuse d
          else if s.mxeIdle c then s.dbgAt d (cmBase c + o)
          else s.dbgWait d
        | _ => s.dbgRefuse d
    | .paddock =>
      match s.place d.st d.a (d.op == 1) with
      | some (.paddock o) => ((s.pdSettle o).pdCount o 1 0).dbgAt d (pdBase + o)
      | _ => s.dbgRefuse d
    | .hitch =>
      match s.place d.st d.a false with
      | some (.hitch i) =>
        if d.op ≠ 0 then s.dbgRefuse d
        else
          let s := s.hitchBankDrain (hitchBank i) (s.hitchQueue (hitchBank i)).length
          s.dbgRead (BitVec.ofNat 64 ((s.hitch i).toNat / 2 ^ (8 * (d.a % 8)) % 2 ^ (8 * d.n)), s.hitchPoison i)
      | _ => s.dbgRefuse d
    | .dram =>
      if d.op = 2 then s.dbgRefuse d
      else match s.place d.st d.a (d.op == 1) with
        | some (.dram p) =>
          match s.devReady p d.n (d.op == 1) cpPort with
          | (true, s) => s.dbgAt d p
          | (false, s) => s.dbgWait d
        | _ => s.dbgRefuse d
    | _ => s.dbgRefuse d

/-- A write of DBG_CMD (R765): one access at DBG_ADDR; while one is in progress it has no effect. -/
def State.dbgCmdAct (w : Written) (s : State) : State :=
  if s.mgmt.dbg.isSome then s
  else if s.f .dbgSession 0 0 1 = 0 then s.dbgEnd dbgNoSession
  else if fld w.val 0 2 = 3 then s.dbgEnd dbgUndef
  else s.dbgGo ⟨fld w.val 0 2, 2 ^ fld w.val 2 2, s.f .dbgSession 0 4 4, s.f .dbgAddr 0 0 48, s.now⟩

/-- A DBG_CMD write of operation op and size code sz, or (none) a further try of the access of that operation that
waits. -/
def State.dbgRow (s : State) (req op : Nat) : Option Nat → State
  | some sz => s.regWrite req .dbgCmd 0 (BitVec.ofNat 64 (op + 4 * (sz % 4))) State.dbgCmdAct
  | none => match s.dbgWaiting with
    | some d => if d.op = op then s.dbgGo d else s
    | none => s

/-- DBG_READ. -/
def execDbgRead (req : Nat) (sz : Option Nat) (s : State) : Res := .next (s.dbgRow req 0 sz)
/-- DBG_WRITE. -/
def execDbgWrite (req : Nat) (sz : Option Nat) (s : State) : Res := .next (s.dbgRow req 1 sz)
/-- DBG_TAG_READ. -/
def execDbgTagRead (req : Nat) (sz : Option Nat) (s : State) : Res := .next (s.dbgRow req 2 sz)

/-- DBG_ACCESS_TIMEOUT: 1 ms after its start an access that waits ends with no effect (R767). -/
def execDbgAccessTimeout (s : State) : Res :=
  .next (match s.dbgWaiting with
    | some d => (s.notBefore (d.since + 1000000)).dbgEnd dbgTimeout
    | none => s)

/-! ## Hardware debug -/

/-- DEBUG_OPEN. -/
def State.debugOpen (s : State) : Bool := s.f .gbOwner 0 6 1 == 1

/-- DBG_HALT holds a mask: the cores set stop at their next issue boundary and show in DBG_HALTED (R769). -/
def State.haltCores (s : State) : State :=
  { s.setReg .dbgHalted 0 (s.reg .dbgHalt 0) with
    cx := { s.cx with steps := s.cx.steps.filter fun c => bitAt (s.reg .dbgHalt 0) c } }

/-- A write of DBG_HALT; while debug is not open it has no effect under R7 (R768). -/
def State.haltAct (w : Written) (s : State) : State :=
  if s.debugOpen then s.haltCores else (s.setReg .dbgHalt 0 w.old).refuseAccess w.agent (Reg.dbgHalt.off 0) false true

/-- Each halted core of a mask issues one instruction (R769). -/
def State.stepCores (s : State) (mask : Word) : State :=
  let l := (List.range coreCount).filter fun c => bitAt mask c && bitAt (s.reg .dbgHalted 0) c
  { s with cx := { s.cx with steps := l.foldl (fun k c => KSet.add c k) s.cx.steps } }

/-- A write of DBG_STEP. -/
def State.stepAct (w : Written) (s : State) : State :=
  if s.debugOpen then s.stepCores w.val else s.refuseAccess w.agent (Reg.dbgStep.off 0) false true

/-- DBG_HALT: a write of DBG_HALT through BAR0, or from the debug connector (no requester). -/
def execDbgHalt (req : Option Nat) (mask : Word) (s : State) : Res :=
  .next (match req with
    | some q => s.regWrite q .dbgHalt 0 mask State.haltAct
    | none => if s.debugOpen then (s.setReg .dbgHalt 0 (mask &&& lowMask)).haltCores else s)

/-- DBG_STEP: a write of DBG_STEP through BAR0, or from the debug connector. -/
def execDbgStep (req : Option Nat) (mask : Word) (s : State) : Res :=
  .next (match req with
    | some q => s.regWrite q .dbgStep 0 mask State.stepAct
    | none => if s.debugOpen then s.stepCores mask else s)

end Sys2Proof.Machine
end

