-- ==== Sys2Proof/Machine/Ecc.lean ====
section
/-! DEFINITION. What an error in a memory does (R323, R325, R336, R813), and the scrubbers (R337 to R341). -/

namespace Sys2Proof.Machine

open Sys2Proof

/-! ## Errors -/

/-- The waiters of a poisoned hitch wake with POISON_CONSUMED (R336). -/
def State.wakePoisoned (s : State) (i : Nat) : State :=
  (List.range coreCount).foldl (fun s core =>
    let hit := fun (k : Ctx) => match k.wait with
      | .hitch _ j _ _ _ => j == i && k.ret.isNone
      | .barrier _ j _ _ => j == i && k.ret.isNone
      | .monitor _ => k.mon.any fun m => m.2.idx == i
      | _ => false
    let s := ((s.core core).ctxs.filter fun e => hit e.2).foldl (fun s e => s.waiterFault core 0 e.1 .poisonConsumed i) s
    ((s.core core).spins.filter fun e => e.2.idx == i).foldl (fun s e =>
      s.waiterFault core (engineUnit e.1) (((s.core core).queue e.1).head?.map EOp.ctx |>.getD 0) .poisonConsumed i) s) s

/-- A hitch is uncorrectable: it holds poison (R336). -/
def State.poisonHitch (s : State) (c : Codeword) (finder : Nat) (latent : Bool) : State :=
  if s.hitchPoison c.addr then s
  else
    let d := s.draw
    let h := s.cx.hs
    let s := d.2.setHs { h with val := Tbl.put 0 h.val c.addr d.1, poison := KSet.add c.addr h.poison }
    (s.recordUe c finder latent).wakePoisoned c.addr

/-- A codeword is found uncorrectable: marked poisoned and recorded, unless it bears the mark already (R325). -/
def State.foundBad (s : State) (c : Codeword) (finder : Nat) (latent : Bool) : State :=
  if c.mem = 8 then (if c.addr < 16384 then s.poisonHitch c finder latent else s)
  else match c.key with
    | some k => if s.poisonAt k then s else (s.markWord c k).recordUe c finder latent
    | none => s

/-- A codeword is found correctable: the read delivers the corrected data, which is written back (R323). -/
def State.foundGood (s : State) (c : Codeword) : State :=
  if c.mem = 8 || c.mem = 9 || c.mem = 10 || c.key.isSome then s.countCe c else s

/-- What a prefetch or a run-ahead read finds uncorrectable: the location and the staged copy are marked at once, and the
record waits (R327). -/
def State.foundStaged (s : State) (c : Codeword) (core q line off : Nat) : State :=
  match c.key with
  | some k =>
    if s.poisonAt k || !(s.stagedLines core q).contains line then s
    else
      let s := s.markWord c k
      let a := cmBase core + 0x100000 + 256 * line + off / c.size * c.size % 256
      let s := s.wrNat a c.size (s.rdNat k c.size)
      let s := (List.range (c.size / 8)).foldl (fun s i => s.setPoison (a + 8 * i) true) s
      { s with scrub := { s.scrub with held := s.scrub.held ++ [⟨8 * core + q, line, c.mem, c.who, c.addr⟩] } }
  | none => s

/-- 32 slots whose tags are lost: their stall's tasks are aborted, and the slots are cleared (R336). -/
def State.tagsLost (s : State) (who addr : Nat) : State :=
  let slots := addr / 8192 * 8192
  let base := if who < 32 then cmBase who + 0x100000 + slots else pdBase + slots
  let s := match (if who < 32 then s.stallOfCore who else s.stallOfPaddock slots) with
    | some st => s.stallFatal st 9
    | none => s
  s.clearOnChip base 8192

/-- The context save area of a task is uncorrectable: the task cannot be resumed (R336). -/
def State.frameLost (s : State) (id : Nat) : State :=
  match s.task? id with
  | some t =>
    if t.phase = .saved then (s.taskFault id .contextLost 5 255 none).abortTasks [id] stFault 0 else s
  | none => s

/-- ECC_WRITEBACK: a read has met an error in a codeword: memory `mem` as ECC_LOG.MEM, core `who` for 0 to 5 and 9 (32: the
Paddock's tags), address `addr`, and its finder (R813, ECC_LOG.FINDER). A correctable one (`bad` false) is corrected, an
uncorrectable one marked. `staged` is the queue, staging line and byte there of a prefetch's read (finder 2). 11 is the
save frame of task `who`, and 12 the sequence-table entry or page list of sequence `who`. -/
def execEccWriteback (mem who addr finder : Nat) (bad : Bool) (staged : Option (Nat × Nat × Nat × Nat)) (s : State) : Res :=
  .next (
    let c : Codeword := ⟨mem, who, addr⟩
    if !s.alive then s
    else if !bad then s.foundGood c
    else if mem = 9 then s.tagsLost who addr
    else if mem = 11 then s.frameLost who
    else if mem = 12 then s.kvPoison who
    else match staged with
      | some (core, q, line, off) => s.foundStaged c core q line off
      | none => s.foundBad c finder false)

/-! ## Scrubbers -/

/-- Lines that a scrubber reads in a pass: a core's 9,216, a Paddock slice's 32,768, the hitch store's 512. -/
def scrubLines (u : Nat) : Nat := if u < 32 then 9216 else if u < 36 then 32768 else 512

/-- Data lines of a DRAM channel (R320). -/
def State.channelLines (s : State) : Nat := s.usableBlocks * 2 ^ 15

/-- Local address of a core's n-th line: CM, OB-A, OB-B, ACC. -/
def scrubLocal (n : Nat) : Nat := if n < 8192 then 256 * n else 0x800000 + 256 * (n - 8192)

/-- Word `w` of the line that an on-chip scrubber reads next. -/
def scrubWord (u pos w : Nat) : Codeword :=
  if u < 32 then ⟨memOfLocal (scrubLocal pos), u, scrubLocal pos + 8 * w⟩
  else if u < 36 then ⟨6, 0, 2 ^ 23 * (u - 32) + 256 * pos + 8 * w⟩
  else ⟨8, 0, 32 * pos + w⟩

/-- Physical offset of data line k of a channel (R28, R320). -/
def patrolLine (ch k : Nat) : Nat := k * 2 ^ 13 + (ch ^^^ (k % 32) ^^^ (k / 32 % 32)) * 2 ^ 8

/-- An error that a scrubber finds is a latent one (R327). -/
def State.scrubFinds (s : State) (c : Codeword) (bad : Bool) : State := if bad then s.foundBad c 1 true else s.foundGood c

/-- Passes that every scrubber of a list has completed. -/
def Scrub.least (k : Scrub) (us : List Nat) : Nat :=
  (us.map fun u => Tbl.get 0 k.passes u).min?.getD 0

/-- A scrubber goes on to its next line; at the end of its memory a pass is complete. -/
def State.scrubOn (s : State) (u lines : Nat) : State :=
  let k := s.scrub
  let pos := Tbl.get 0 k.pos u + 1
  if pos < lines then { s with scrub := { k with pos := Tbl.insert u pos k.pos } }
  else { s with scrub := { k with pos := Tbl.erase u k.pos, passes := Tbl.insert u (Tbl.get 0 k.passes u + 1) k.passes
                                  began := Tbl.insert u s.now k.began, late := KSet.del u k.late } }

/-- An operand buffer that the MXE uses, or a bank that is powered down, is not reached (R259, R338). -/
def State.scrubSkips (s : State) (u pos : Nat) : Bool :=
  decide (u < 32) && (if pos < 8192 then s.bankOff u (bankAt (scrubLocal pos)) else !(s.core u).mxq.isEmpty)

/-- ONCHIP_SCRUB: scrubber `unit` (0 to 31 a core's, 32 to 35 a Paddock slice's, 36 the hitch store's) reads its next line
and finds errors in the words given; an operand buffer waits for the MXE to be idle, a powered-down bank is skipped. -/
def execOnchipScrub (unit : Nat) (found : List (Nat × Bool)) (s : State) : Res :=
  .next (
    if !s.alive || s.f .eccCfg 0 0 1 = 0 || 36 < unit then s
    else
      let pos := Tbl.get 0 s.scrub.pos unit
      let skip := s.scrubSkips unit pos
      if skip && 8192 ≤ pos && decide (unit < 32) then s
      else
        let s := if skip then s
          else (found.filter fun e => decide (e.1 < 32)).foldl (fun s e => s.scrubFinds (scrubWord unit pos e.1) e.2) s
        let s := s.scrubOn unit (scrubLines unit)
        s.setF .scrubStatus 0 0 32 (s.scrub.least (List.range 37)))

/-- A block is being zero-filled: its extent has not been offered (R112, R341). -/
def State.filling (s : State) (b : Nat) : Bool :=
  match s.extentOf b with
  | some e => !e.posted
  | none => false

/-- DRAM_PATROL: channel `ch` reads its next line and finds errors in the codewords given. -/
def execDramPatrol (ch : Nat) (found : List (Nat × Bool)) (s : State) : Res :=
  .next (
    if !s.alive || s.f .eccCfg 0 1 1 = 0 || 31 < ch || s.stageNow = 0 then s
    else
      let u := 64 + ch
      let a := patrolLine ch (Tbl.get 0 s.scrub.pos u)
      let s := if s.filling (a / blockSize) then s
        else (found.filter fun e => decide (e.1 < 4)).foldl (fun s e => s.scrubFinds ⟨7, 0, a + 64 * e.1⟩ e.2) s
      let s := s.scrubOn u s.channelLines
      s.setF .scrubStatus 0 32 16 (s.scrub.least ((List.range 32).map (64 + ·))))

/-- A pass of a scrubber is late: twice its interval has gone since it began. -/
def State.scrubLate (s : State) (u interval : Nat) (dram : Bool) : State :=
  if KSet.has s.scrub.late u then s
  else
    let s := s.notBefore (Tbl.get s.stage.perstAt s.scrub.began u + 2 * interval)
    let s := { s with scrub := { s.scrub with late := KSet.add u s.scrub.late } }
    (s.setF .scrubStatus 0 (if dram then 49 else 48) 1 1).advise .scrubLate 4 (bit dram)

/-- SCRUB_LATE: an on-chip pass is not complete within twice its interval of 10 ms units (R339). -/
def execScrubLate (unit : Nat) (s : State) : Res :=
  .next (if s.alive && s.f .eccCfg 0 0 1 == 1 && decide (unit < 37) then
    s.scrubLate unit (max 1 (s.f .eccCfg 0 16 16) * 10 ^ 7) false else s)

/-- DRAM_PATROL_LATE: a channel's pass is not complete within twice its interval of hours (R341). -/
def execDramPatrolLate (ch : Nat) (s : State) : Res :=
  .next (if s.alive && s.f .eccCfg 0 1 1 == 1 && decide (ch < 32) then
    s.scrubLate (64 + ch) (max 1 (s.f .eccCfg 0 32 8) * 3600 * 10 ^ 9) true else s)

end Sys2Proof.Machine
end

