-- ==== Sys2Proof/Machine/Enables.lean ====
section
/-! DEFINITION. ENABLE fields: what setting one asks, what a check that accepts does, and what clearing one does (R212 to
R219); harness loads (R566 to R568), whose commands wait for their check; and the audit (R230). -/

namespace Sys2Proof.Machine

open Sys2Proof

/-- The register whose ENABLE a check of a block sets, and its instance (R216). -/
def enableOf (block inst : Nat) : Option (Reg × Nat) :=
  match block with
  | 2 => some (if inst < 1024 then (.sqCtl, inst) else (.cqCtl, inst - 1024))
  | 3 => some (.streamQCtl, inst)
  | 4 => some (.ringCtl, inst)
  | 5 => some (if inst < 512 then (.barrierCtl, inst) else (.hitchCfg, inst - 512))
  | 6 => some (.kvPoolCtl, inst)
  | 7 => some (.reinPortCtl, inst)
  | 8 => some (.vrCtl, 0)
  | 9 => some (if inst = 0 then .fanCtl else .thermCtl, 0)
  | 0xA => some (.bridleCtl, inst)
  | 0xB => some (.hrnCtl, inst)
  | _ => none

/-- Instances of a block. -/
def instancesOf (block : Nat) : Nat :=
  match block with
  | 2 => 2048 | 3 => 256 | 4 => 2304 | 5 => 528 | 6 => 16 | 7 => 2 | 8 => 1 | 9 => 2 | 0xA => 36 | 0xB => 256 | _ => 0

/-! ## What an accepted check does -/

/-- An SQ starts empty: pointers zero, no retained completion; LAST stays as written (R518, R532). -/
def State.sqStart (s : State) (n : Nat) : State :=
  ((s.setF .sqTail n 0 16 0).setF .sqHead n 0 16 0).updSq n fun q =>
    { q with asm := [], retained := [], dups := [], dropped := false }

/-- A CQ starts empty; SQs that name it may drop completions anew (R535, R541). -/
def State.cqStart (s : State) (n : Nat) : State :=
  let s := ((s.setReg .cqHead n 0).setReg .cqTail n 0x10000).setCq n Cq.reset
  let mine := (s.q.sqs.map Prod.fst).filter fun q => s.sqCq q == n
  mine.foldl (fun s q => s.updSq q fun q => { q with dropped := false }) s

/-- A ring starts with RESV and HEAD zero and every slot EMPTY; its data stays (R288). -/
def State.ringStart (s : State) (i : Nat) : State :=
  let s := (s.setReg .ringPtr i 0).setRing i Ring.idle
  (List.range (s.ringSlots i)).foldl (fun s k => s.putTag (s.ringKey i k) false) s

/-- Entries 0 to n − 1 of a pool's free list take their own numbers (R575). -/
def State.writeFree (s : State) (p : Nat) : (n : Nat) → State
  | 0 => s
  | n + 1 => match s.kvWrite (s.poolStall p) (s.poolFree p + 4 * n) 4 n with
    | some s => s.writeFree p n
    | none => s.writeFree p n

/-- Codewords that were written whole have lost their poison. -/
def State.cleanFree (s : State) (p n : Nat) : State :=
  (List.range (n / 16)).foldl (fun s j => match s.place (s.poolStall p) (s.poolFree p + 64 * j) true with
    | some (.dram q) => s.setPoison q false
    | _ => s) s

/-- A pool starts with all its pages free (R575, KV_POOL_STAT2). -/
def State.poolStart (s : State) (p : Nat) : State :=
  let n := s.poolCount p
  let s := (s.writeFree p n).cleanFree p n
  (({ s with kv := { s.kv with heads := Tbl.put 0 s.kv.heads p 0 } }.setFreeNow p n).setF .kvPoolStat2 p 32 24 0)

/-- A Rein port starts training (R641, R674). -/
def State.portStart (s : State) (p : Nat) : State := (s.setPortState p psTraining).updPort p fun q => { q with since := s.now }

/-- An instance whose check accepted is enabled. -/
def State.enableInst (s : State) (block inst : Nat) : State :=
  match enableOf block inst with
  | none => s
  | some (r, i) =>
    let s := s.setF r i 0 1 1
    match r with
    | .sqCtl => s.sqStart i
    | .cqCtl => s.cqStart i
    | .ringCtl => s.ringStart i
    | .barrierCtl => s.hitchPoke (s.barrierHitch i) fun _ => 0
    | .kvPoolCtl => s.poolStart i
    | .reinPortCtl => s.portStart i
    | .vrCtl => s.vrStart
    | .fanCtl => s.fanWanted true
    | _ => s

/-! ## What clearing ENABLE does -/

/-- Contexts and engines that wait at a barrier. -/
def State.barrierWaiters (s : State) (b : Nat) : List (Nat × Nat × Nat × Nat) :=
  s.cx.cores.flatMap fun c =>
    (c.2.ctxs.filterMap fun e => match e.2.wait, e.2.ret with
      | .barrier d idx .., none => if d = b then some (c.1, 0, e.1, idx) else none
      | _, _ => none)
    ++ c.2.spins.filterMap fun e =>
      if e.2.b = b && !e.2.woken then some (c.1, engineUnit e.1, ((c.2.queue e.1).head?.map EOp.ctx).getD 0, e.2.idx) else none

/-- A barrier is disabled: its waits end with BARRIER_DISABLED, the counter hitch stays (R468). -/
def State.barrierOff (s : State) (b : Nat) : State :=
  (s.barrierWaiters b).foldl (fun s w => s.waiterFault w.1 w.2.1 w.2.2.1 .barrierDisabled w.2.2.2 b) s

/-- A stream queue that holds streams is disabled: they are cancelled, and their task faults (R500). -/
def State.streamOff (s : State) (i : Nat) : State :=
  let core := i / 8
  let q := i % 8
  match s.streamQ core q, s.taskOn core with
  | st :: _, some t => (st.fault (s.cancelQueue core q t).settleStaged core .streamDisabled 0 q)
  | _, _ => s

/-- A pool is disabled: its sequences become invalid without freeing pages, and running walks of them fault (R614). -/
def State.poolOff (s : State) (p : Nat) : State :=
  let mine := (s.kv.seqs.filter fun e => s.inPool p e.1 && e.2.valid).map Prod.fst
  mine.foldl (fun s i => (s.updKseq i fun k => { k with valid := false }).faultWalks i .kvSeq) s

/-- A Rein port is disabled: DOWN is sent and the link goes down with cause 7 (R672). -/
def State.portOff (s : State) (p : Nat) : State := (s.sendOther p 3 [4, 7]).linkDown p 7

/-- VDD_CORE ramps down under a fence (R720). -/
def State.vrOff (s : State) : State :=
  (s.coreOff.updPw fun p => { p with pgFaultAt := none, retried := false }).fenceOn 7

/-- ENABLE of an enabled instance is cleared. -/
def State.disableInst (s : State) (r : Reg) (i : Nat) : State :=
  let t := s.setF r i 0 1 0
  match r with
  | .sqCtl => t.updSq i fun q => { q with asm := [] }
  | .streamQCtl => t.streamOff i
  | .ringCtl => s.ringOff i
  | .barrierCtl => t.barrierOff i
  | .kvPoolCtl => t.poolOff i
  | .reinPortCtl => t.portOff i
  | .vrCtl => t.vrOff
  | _ => t

/-! ## A write of ENABLE (R212, R214) -/

/-- A write of 0 that waits for the end of the instance's check. -/
def Check.cancelAt (inst : Nat) (c : Check) : Check := if c.inst = inst then { c with off := true } else c

/-- A write of 0 to ENABLE: now, or when the check that runs completes. -/
def State.clearEnable (s : State) (r : Reg) (i block inst : Nat) : State :=
  if s.checking block inst then s.setChecks block ((s.checks block).map (Check.cancelAt inst))
  else if s.f r i 0 1 = 1 then s.disableInst r i
  else s

/-- Step 2 of R780 for a register with an ENABLE that a check guards. -/
def State.enableAct (w : Written) (s : State) : State :=
  match checkOf w.reg w.idx with
  | none => s
  | some (block, inst) =>
    if w.set 0 then
      if s.f w.reg w.idx 0 1 = 1 || s.checking block inst then s else s.askCheck block inst (bankOf w.agent)
    else if w.clr 0 then s.clearEnable w.reg w.idx block inst
    else s

/-- A write with ENABLE = 1, and one with ENABLE = 0; the other bits are as given. -/
def State.writeEnable (s : State) (req : Nat) (r : Reg) (n : Nat) (val : Word) (act : Written → State → State) : State :=
  s.regWrite req r n (val ||| 1) act
def State.writeDisable (s : State) (req : Nat) (r : Reg) (n : Nat) (val : Word) (act : Written → State → State) : State :=
  s.regWrite req r n (val &&& ~~~1) act

/-- A write of SQ_CTL: ENABLE, then FLUSH (R780, R782). -/
def State.sqCtlAct (host : List Line64) (w : Written) (s : State) : State := (s.enableAct w).sqFlushAct host w

/-- A write of REIN_PORT_CTL: ENABLE, then its WO fields. -/
def State.reinCtlAct (w : Written) (s : State) : State := (s.enableAct w).reinPortAct w

/-- SQ_FLUSH: a write of SQ_CTL.FLUSH = 1. `host` answers for pending records in host memory. -/
def execSqFlush (req n : Nat) (val : Word) (host : List Line64) (s : State) : Res :=
  .next (s.regWrite req .sqCtl n (val ||| 2) (State.sqCtlAct host))

/-- CRED_REBUILD: a write of REIN_PORT_CTL.CRED_REBUILD = 1. -/
def execCredRebuild (req n : Nat) (val : Word) (s : State) : Res :=
  .next (s.regWrite req .reinPortCtl n (val ||| 0x10) State.reinCtlAct)

/-- RETRAIN: a PHY recovery, or a write of REIN_PORT_CTL.RETRAIN = 1 by a requester (R668). -/
def execRetrain (port : Nat) (write : Option (Nat × Word)) (s : State) : Res :=
  .next (match write with
    | none => if s.portUp port then s.retrain port else s
    | some (req, val) => s.regWrite req .reinPortCtl port (val ||| 0x20) State.reinCtlAct)

/-- SQ_ENABLE. -/
def execSqEnable (req n : Nat) (val : Word) (s : State) : Res := .next (s.writeEnable req .sqCtl n val (State.sqCtlAct []))
/-- SQ_DISABLE: fetching stops; accepted commands complete (R214). -/
def execSqDisable (req n : Nat) (val : Word) (s : State) : Res := .next (s.writeDisable req .sqCtl n val (State.sqCtlAct []))
/-- CQ_ENABLE. -/
def execCqEnable (req n : Nat) (val : Word) (s : State) : Res := .next (s.writeEnable req .cqCtl n val State.enableAct)
/-- CQ_DISABLE (R541). -/
def execCqDisable (req n : Nat) (val : Word) (s : State) : Res := .next (s.writeDisable req .cqCtl n val State.enableAct)
/-- STREAM_Q_ENABLE: queue n = 8 × core + queue. -/
def execStreamQEnable (req n : Nat) (val : Word) (s : State) : Res :=
  .next (s.writeEnable req .streamQCtl n val State.enableAct)
/-- STREAM_Q_DISABLE (R500). -/
def execStreamQDisable (req n : Nat) (val : Word) (s : State) : Res :=
  .next (s.writeDisable req .streamQCtl n val State.enableAct)
/-- RING_ENABLE: ring n as R216 numbers rings. -/
def execRingEnable (req n : Nat) (val : Word) (s : State) : Res := .next (s.writeEnable req .ringCtl n val State.enableAct)
/-- RING_DISABLE (R296). -/
def execRingDisable (req n : Nat) (val : Word) (s : State) : Res := .next (s.writeDisable req .ringCtl n val State.enableAct)
/-- BARRIER_ENABLE (R462). -/
def execBarrierEnable (req n : Nat) (val : Word) (s : State) : Res :=
  .next (s.writeEnable req .barrierCtl n val State.enableAct)
/-- BARRIER_DISABLE (R468). -/
def execBarrierDisable (req n : Nat) (val : Word) (s : State) : Res :=
  .next (s.writeDisable req .barrierCtl n val State.enableAct)
/-- HITCH_CFG_ENABLE: stall n (R479). -/
def execHitchCfgEnable (req n : Nat) (val : Word) (s : State) : Res :=
  .next (s.writeEnable req .hitchCfg n val State.enableAct)
/-- KV_POOL_ENABLE (R575). -/
def execKvPoolEnable (req n : Nat) (val : Word) (s : State) : Res :=
  .next (s.writeEnable req .kvPoolCtl n val State.enableAct)
/-- KV_POOL_DISABLE (R614). -/
def execKvPoolDisable (req n : Nat) (val : Word) (s : State) : Res :=
  .next (s.writeDisable req .kvPoolCtl n val State.enableAct)
/-- HRN_ENABLE (R568). -/
def execHrnEnable (req n : Nat) (val : Word) (s : State) : Res := .next (s.writeEnable req .hrnCtl n val State.enableAct)
/-- BRIDLE_ENABLE: arbiter n (R639). -/
def execBridleEnable (req n : Nat) (val : Word) (s : State) : Res :=
  .next (s.writeEnable req .bridleCtl n val State.enableAct)
/-- REIN_PORT_ENABLE (R674). -/
def execReinPortEnable (req n : Nat) (val : Word) (s : State) : Res :=
  .next (s.writeEnable req .reinPortCtl n val State.reinCtlAct)
/-- REIN_PORT_DISABLE (R672). -/
def execReinPortDisable (req n : Nat) (val : Word) (s : State) : Res :=
  .next (s.writeDisable req .reinPortCtl n val State.reinCtlAct)
/-- VR_ENABLE (R744). -/
def execVrEnable (req : Nat) (val : Word) (s : State) : Res := .next (s.writeEnable req .vrCtl 0 val State.enableAct)
/-- VR_DISABLE (R720). -/
def execVrDisable (req : Nat) (val : Word) (s : State) : Res := .next (s.writeDisable req .vrCtl 0 val State.enableAct)
/-- FAN_ENABLE (R739, R745). -/
def execFanEnable (req : Nat) (val : Word) (s : State) : Res := .next (s.writeEnable req .fanCtl 0 val State.enableAct)
/-- THERM_ENABLE (R745). -/
def execThermEnable (req : Nat) (val : Word) (s : State) : Res := .next (s.writeEnable req .thermCtl 0 val State.enableAct)

/-! ## The end of a check -/

/-- The HRN_LOAD command that waits for the check of an entry. -/
def State.loadOf (s : State) (e : Nat) : Option (Nat × Nat) :=
  s.q.sqs.findSome? fun q => (q.2.accepted.find? fun c => c.op == 0x10 && c.started && c.task == some e).map fun c =>
    (q.1, c.seq)

/-- The command completes with its check: TACK_REFUSED carries CODE and FIELD (R224, R566). -/
def State.loadDone (s : State) (e code field : Nat) : State :=
  match s.loadOf e with
  | some (sq, seq) =>
    if code = 0 then s.completeCmd sq seq stSuccess else s.completeCmd sq seq stTackRefused (code + 2 ^ 16 * field)
  | none => s

/-- A running check of a block ends: its outcome is reported, an instance that it accepts is enabled, a write of 0 that
waited acts, and the next check of the block starts (R212, R214, R219). -/
def State.checkEnds (s : State) (block : Nat) : State :=
  match s.checks block with
  | [] => s
  | c :: rest =>
    let s := s.setChecks block rest
    let s := s.tackResult block (reportInst block c.inst c.field) c.bank c.code c.field
    let s := if c.code ≠ 0 then s
      else if block = 1 then (if s.gb.commit.isSome then s else s.commitBegin s.stagedList)
      else if block = 0xB && !s.hrnLoaded c.inst then s
      else s.enableInst block c.inst
    let s := if block = 0xB then s.loadDone c.inst c.code c.field else s
    let s := match c.off, enableOf block c.inst with
      | true, some (r, i) => if s.f r i 0 1 = 1 then s.disableInst r i else s
      | _, _ => s
    s.startCheck block

/-- TACK_CHECK_COMPLETE: the check that runs in a block completes. -/
def execTackCheckComplete (block : Nat) (s : State) : Res := .next (s.checkEnds block)

/-! ## Harness entries (R566, R567) -/

/-- HRN_LOAD: the file is copied into its entry and the check of block 0x0B starts; the command completes with the check.
`host` holds the file where it lies in host memory. The bytes beyond the largest copy keep LEN, which the check compares
with the header. -/
def execHrnLoad (sq : Nat) (host : List Byte) (s : State) : Res :=
  .next (s.runCmd sq 0x10 fun c st s =>
    let e := c.field 0x10 2
    let src := c.field 0x18 8
    let n := c.field 0x20 4
    if !s.checkerUp 0xB || !s.hostThere st src then s
    else if 256 ≤ e || s.hrnOn e || s.checking 0xB e || (s.hrnLoaded e && s.hrnStall e != st) then
      s.completeCmd sq c.seq stBadEntry
    else if hrnMax < n || !s.cpRange st src (max n 1) false true true then s.completeCmd sq c.seq stBadAddress
    else match s.cpRead st src n host with
      | none => s.completeCmd sq c.seq stBadAddress
      | some (d, _, s) =>
        let s := ((s.clearOnChip (hrnBase e) (2 ^ 17)).wrBytes (hrnBase e) d).wrNat (hrnBase e + hrnMax) 4 n
        let s := (s.setF .hrnCtl e 1 4 st).setF .hrnCtl e 5 1 1
        (s.updCmd sq c.seq fun c => { c with started := true, task := some e }).askCheck 0xB e 16)

/-- HRN_UNLOAD: a check of the entry that runs will find it disabled. -/
def execHrnUnload (sq : Nat) (s : State) : Res :=
  .next (s.runCmd sq 0x11 fun c st s =>
    let e := c.field 0x10 2
    if 256 ≤ e || (s.hrnLoaded e && s.hrnStall e != st) then s.completeCmd sq c.seq stBadEntry
    else if s.hrnUsers e ≠ 0 then s.completeCmd sq c.seq stEntryBusy
    else ((s.clearEnable .hrnCtl e 0xB e).setF .hrnCtl e 5 1 0).completeCmd sq c.seq stSuccess)

/-! ## The audit (R230) -/

/-- Enabled instances of all blocks but the stall block, in the order of R230. -/
def State.enabledInstances (s : State) : List (Nat × Nat) :=
  (List.range 10).flatMap fun j => let b := j + 2
    ((List.range (instancesOf b)).filter fun i => match enableOf b i with
      | some (r, k) => s.f r k 0 1 == 1
      | none => false).map fun i => (b, i)

/-- What the audit finds: block, instance, code and field. -/
def State.findings (s : State) : List (Nat × Nat × Nat × Nat) :=
  s.enabledInstances.filterMap fun e => (s.tackFail e.1 e.2).map fun c =>
    let r := codeOf e.1 (some c)
    (e.1, e.2, r.1, r.2)

/-- A write of TACK_AUDIT: GO starts an audit unless one runs. -/
def State.auditAct (w : Written) (s : State) : State :=
  if w.set 0 && s.f .tackAudit 0 1 1 = 0 then
    { (s.setF .tackAudit 0 1 1 1) with tack := { s.tack with audit := some s.now } } else s

/-- TACK_AUDIT: a write of GO = 1. -/
def execTackAudit (req : Nat) (s : State) : Res := .next (s.regWrite req .tackAudit 0 1 State.auditAct)

/-- AUDIT_COMPLETE. -/
def execAuditComplete (s : State) : Res :=
  .next (
    if s.tack.audit.isNone then s
    else
      let l := s.findings
      let w : Nat := match l with
        | [] => 0
        | (_, i, code, field) :: _ => 4 + 2 ^ 4 * (field % 4096) + 2 ^ 16 * code + 2 ^ 32 * (i % 4096)
            + 2 ^ 48 * min l.length 0xFFF
      { (s.setReg .tackAudit 0 (BitVec.ofNat 64 w)) with tack := { s.tack with audit := none } })

end Sys2Proof.Machine
end

