-- ==== Sys2Proof/Machine/HostLink.lean ====
section
/-! DEFINITION. F1's BAR2 (R97 to R100, R544, R545, R548), host reads that fail (R133), and dynamic capacity (R110 to
R116, R141, R162, R163, R200). -/

namespace Sys2Proof.Machine

open Sys2Proof

/-! ## BAR2 -/

/-- Apertures of BAR2 (R97). -/
def rslotAperture : Nat := 0x2000000
def bar2Size : Nat := 0x4000000

/-- The requester's BAR2 reaches the device: F1 is in D0. -/
def State.bar2Up (s : State) (req : Nat) : Bool := s.reaches req && decide (req < 16)

/-- A read of n bytes is answered. -/
def State.bar2Data (s : State) (req off n v : Nat) (ep : Bool) : State := s.emit (.read req off n v ep)

/-- An access that is not performed: a read returns zero; it is recorded (R98, R544). -/
def State.bar2Refused (s : State) (req off n : Nat) (write : Bool) : State :=
  (if write then s else s.bar2Data req off n 0 false).refuseAccess req off true write

/-- [o, o + n) lies within a Paddock window of a stall bound to the requester (R98). -/
def State.paddockBound (s : State) (req o n : Nat) : Bool :=
  allPaddock (o + n) && (List.range 16).any fun st => s.active.hostEn st && s.active.hostReq st == req &&
    s.inView (fun t => t.valid st && t.hostEn st && t.inPaddock st o && t.inPaddock st (o + n - 1))
where allPaddock (e : Nat) : Bool := decide (e ≤ 0x2000000)

/-- A Paddock write of n bytes, untagged (R99, R241, R329): each 64-bit word that is written whole loses its poison. -/
def State.paddockPut (s : State) (o n : Nat) (d : Nat) : State :=
  let s := s.wrBytes (pdBase + o) (leBytes n d)
  (List.range ((o + n - 1) / 8 - o / 8 + 1)).foldl (fun s j =>
    let w := o / 8 + j
    if o ≤ 8 * w && 8 * w + 8 ≤ o + n then s.setPoison (pdBase + 8 * w) false else s) s

/-- The slot may be accessed by the requester (R544). -/
def State.rslotOpen (s : State) (req k : Nat) : Bool :=
  s.hasOwner req || match s.stallOfRslot k with
    | some st => s.active.hostEn st && s.active.hostReq st == req
    | none => false

/-- The 64 bytes of a result slot (R543). -/
def State.slotBytes (s : State) (k : Nat) : List Byte :=
  leBytes 8 (s.slotWords k).1.toNat ++ leBytes 8 (s.slotWords k).2.toNat ++ s.rdBytes (rslotBase k) 48

/-- BAR2_PADDOCK_ACCESS: a BAR2 access of 1 to 64 bytes: the Paddock, a read of a result slot, or the reserved range.
Before Trot a read returns zero and a write has no effect (R50). -/
def execBar2PaddockAccess (req off size : Nat) (write : Option Line64) (s : State) : Res :=
  .next (
    if !s.bar2Up req || size = 0 || 64 < size || bar2Size < off + size then s
    else if s.stageNow < stTrot then (if write.isSome then s else s.bar2Data req off size 0 false)
    else if off < rslotAperture then
      if !s.paddockBound req off size then s.bar2Refused req off size write.isSome
      else
        let s := (s.pdSettle off).pdSettle (off + size - 1)
        match write with
        | some d => s.paddockPut off size d.toNat
        | none => s.bar2Data req off size (s.rdNat (pdBase + off) size) (s.poisonIn (pdBase + off) size)
    else
      let o := off - rslotAperture
      let k := o / 64
      if off < 0x3000000 && write.isNone && o % 64 + size ≤ 64 && s.rslotOpen req k then
        s.bar2Data req off size (leNat (((s.slotBytes k).drop (o % 64)).take size)) false
      else s.bar2Refused req off size write.isSome)

/-- RSLOT_ACK: a BAR2 write to a result slot; one that is an ACK and matches sets CONSUMED (R548). -/
def execRslotAck (req off size : Nat) (val : Word) (s : State) : Res :=
  .next (
    let o := off - rslotAperture
    let k := o / 64
    if !s.bar2Up req || off < rslotAperture || 0x3000000 ≤ off || s.stageNow < stTrot then s
    else if s.rslotOpen req k && size = 4 && o % 64 = 0 && fld val 0 16 = 3 && s.slotState k = 2
        && fld val 16 16 = fld (s.slotWords k).1 16 16 then
      s.setSlot k (setFld (s.slotWords k).1 0 2 3) (s.slotWords k).2
    else s.refuseAccess req off true true)

/-! ## Failing host reads (R133) -/

/-- A read of a stream's transfer, or of a context, that host memory has not answered: unit, context or queue, and core; unit 5 is
the CP, which reads the result area. -/
def State.hostReader (s : State) (t : Task) : Option (Nat × Nat × Nat) :=
  let atHost := fun (a : Nat) => decide (hostSpace ≤ a) && decide (a < remoteSpace)
  let waits := t.team.findSome? fun c =>
    if (s.core c).task ≠ some t.id then none
    else match (s.core c).ctxs.find? fun e => match e.2.wait, e.2.ret with
        | .host .., none => true
        | _, _ => false with
      | some e => some (0, e.1, c)
      | none => ((s.core c).streams.find? fun q => q.2.any fun st => st.xfers.any fun x =>
          x.issued && decide (0 < x.left) && atHost x.src).map fun q => (3, q.1, c)
  waits.or (if atHost t.resAddr && t.team.all (fun c => (s.core c).partDone) then some (5, 0, 0) else none)

/-- HOST_LINK_DOWN in a task that waits for host memory. -/
def State.taskHostDown (s : State) (task : Nat) : State :=
  match s.task? task with
  | none => s
  | some t =>
    let req := s.active.hostReq t.stall
    match s.hostReader t with
    | some (0, x, c) =>
      let pc := (s.ctx c x).pc
      s.taskFault task .hostLinkDown 0 c (some x) pc (s.fetch c pc) 0 req
    | some (3, q, c) => match ((s.core c).streams.find? fun e => e.1 == q).bind fun e => e.2.head? with
      | some st => s.taskFault task .hostLinkDown 3 c (some st.ctx) st.pc st.word 0 req
      | none => s
    | some _ => s.taskFault task .hostLinkDown 5 255 none 0 0 0 req
    | none => s

/-- Offset of the address that a command which may run reads host memory at: MEM_COPY, HRN_LOAD, KV_COMMIT. -/
def State.hostCommand (s : State) (sq : Nat) : Option (Cmd × Nat) :=
  (([(0x02, 0x20), (0x10, 0x18), (0x33, 0x18)] : List (Nat × Nat)).findSome? fun e =>
    (s.startable sq e.1).map fun c => (c, c.field e.2 8)).bind fun e =>
      match s.place ((s.sqStall sq).getD 16) e.2 false with
      | some (.host ..) => if e.1.op = 0x33 && e.1.field 0x14 4 == 0 then none else some e
      | _ => none

/-- HOST_LINK_DOWN in a command of an SQ, which has no task: it completes with FAULT and leaves what it wrote (R530). -/
def State.commandHostDown (s : State) (sq : Nat) (before : List HostLine) : State :=
  match s.hostCommand sq with
  | none => s
  | some (c, src) =>
    let st := (s.sqStall sq).getD 16
    let s := if c.op = 0x02 then s.memCopy st (c.field 0x10 8) src before (min before.length (c.field 0x18 8 / 256)) else s
    let seq := s.nextSeq
    let s := s.logFault { code := .hostLinkDown, cls := .c, stall := some st, unit := 5, detail := s.active.hostReq st }
    (s.completeCmd sq c.seq stFault seq).postFlushes sq

/-- HOST_READ_ERROR: a host read ends with an error, times out, or names a requester not present (R133). -/
def execHostReadError (who : HostReader) (s : State) : Res :=
  .next (match who with
    | .task id => s.taskHostDown id
    | .command sq before => s.commandHostDown sq before)

/-! ## Dynamic capacity -/

/-- A Dynamic Capacity event about an extent, in the Informational log (R126). -/
def State.dcEvent (s : State) (ext : Nat) (reqs : List Nat) : State := s.postEvent 0 ⟨.dynamicCapacity, ext⟩ reqs

/-- The answer of the FM API. -/
def State.fm (s : State) (ret : RetCode) (data : List Nat := []) : State := s.emit (.fmApi ret data)

/-- Extents that a requester holds or is offered. -/
def State.extentsOf (s : State) (req : Nat) : Nat :=
  (s.link.extents.filter fun e => e.holders.contains req || e.offered.contains req).length

/-- A block may become part of an extent: it is device-only, now and at the next resets, outside every window, and free of
a command in progress. -/
def State.blockFree (s : State) (b : Nat) : Bool :=
  decide (b < s.hostBlocks) && (s.extentOf b).isNone && (holderIn s.link.held b).isNone
    && (holderIn s.link.assigned b).isNone && (stallWhere fun st => s.active.coversBlock st b).isNone

/-- The requester's head runs 256-byte flits, and its BI decoder is committed and enabled (R141). -/
def State.biReady (s : State) (req : Nat) : Bool :=
  let lo := if s.f .devLink 0 0 2 = 2 && req = 1 then 20 else 10
  s.f .devLink 0 lo 1 == 1 && s.link.biEnabled.contains req

/-- Key slots of region 1 extents that are free (R199, R200). -/
def State.freeSlot (s : State) : Option Nat :=
  firstFrom (fun k => s.link.extents.all fun e => e.region != 1 || e.slot != k) 33 31

/-- Most extents of a requester (R110). -/
def extentsMax : Nat := 256

/-- The parameters of an add that names new blocks are as R110 and R141 want them. -/
def State.addOk (s : State) (blocks : List Nat) (region : Nat) (reqs : List Nat) : Bool :=
  !blocks.isEmpty && blocks.Nodup && blocks.all s.blockFree && reqs.Nodup && reqs.all s.present &&
    (if region = 0 then reqs.length == 1 else region == 1 && !reqs.isEmpty && reqs.all s.biReady)

/-- A new extent, zero-filled before it is offered (R112). -/
def State.addExtent (s : State) (blocks : List Nat) (region slot : Nat) (reqs : List Nat) : State :=
  let s := if region = 1 then s.newKey slot else s
  { s with link := { s.link with
    extents := s.link.extents ++ [⟨s.link.nextExtent, blocks, region, reqs, [], false, slot⟩]
    nextExtent := s.link.nextExtent + 1 } }

/-- A shareable extent is offered to further requesters: as it stands where another holds it, else zero-filled first
(R112). -/
def State.shareExtent (s : State) (e : Extent) (reqs : List Nat) : State :=
  let held := !e.holders.isEmpty
  let s := s.updExtent e.id fun x => { x with offered := x.offered ++ reqs, posted := x.posted && held }
  if held then s.dcEvent e.id reqs else s

/-- INITIATE_DYNAMIC_CAPACITY_ADD: `agent`: the FM API over MCTP, or over a requester's Owner session; `share`: a
shareable extent that exists already. -/
def execInitiateDynamicCapacityAdd (agent : Nat) (blocks : List Nat) (region : Nat) (reqs : List Nat) (share : Option Nat)
    (s : State) : Res :=
  .next (
    if !s.mgmtUp || fmAgent < agent then s
    else if !s.hasOwner agent then s.fm .invalidSecurityState
    else match share with
      | some id => match s.link.extents.find? fun e => e.id == id && e.region == 1 with
        | none => s.fm .invalidInput
        | some e =>
          if reqs.isEmpty || !decide reqs.Nodup || !(reqs.all fun r => s.present r && s.biReady r &&
              !e.holders.contains r && !e.offered.contains r) then s.fm .invalidInput
          else if reqs.any fun r => extentsMax ≤ s.extentsOf r then s.fm .resourcesExhausted
          else (s.shareExtent e reqs).fm .success [id]
      | none =>
        if !s.addOk blocks region reqs then s.fm .invalidInput
        else if reqs.any fun r => extentsMax ≤ s.extentsOf r then s.fm .resourcesExhausted
        else
          let slot := if region = 1 then s.freeSlot else some (17 + reqs.headD 0)
          match slot with
          | none => s.fm .resourcesExhausted
          | some k => (s.addExtent blocks region k reqs).fm .success [s.link.nextExtent])

/-- EXTENT_OFFER: the zero fill is done, and the event that offers the extent is posted (R112). -/
def execExtentOffer (ext : Nat) (s : State) : Res :=
  .next (match s.link.extents.find? fun e => e.id == ext && !e.posted with
    | none => s
    | some e =>
      if s.stageNow = 0 then s
      else
        let s := e.blocks.foldl (fun s b => s.zeroBlocks b 1) s
        (s.updExtent ext fun x => { x with posted := true }).dcEvent ext e.offered)

/-- Lines of an extent that the snoop filter shows a requester holding. -/
def State.linesHeld (s : State) (req : Nat) (e : Extent) : List Nat :=
  (s.dcoh.filter.filter fun f => f.present.contains req && e.blocks.contains (64 * f.line / blockSize)).map fun f => f.line

/-- A forced removal: the requester's lines are forgotten without snoops, and the extent is gone for it (R116, R163). -/
def State.forceRemove (s : State) (req : Nat) (e : Extent) : State :=
  let s := (s.linesHeld req e).foldl (fun s l =>
    let rest := (s.holders l).filter (· != req)
    s.setHolders l (s.lineE l && !rest.isEmpty) rest) s
  (s.updExtent e.id (Extent.without req)).sweepExtents

/-- INITIATE_DYNAMIC_CAPACITY_RELEASE: the host is asked to release the extent, or loses it at once. -/
def execInitiateDynamicCapacityRelease (agent ext req : Nat) (forced : Bool) (s : State) : Res :=
  .next (
    if !s.mgmtUp || fmAgent < agent then s
    else if !s.hasOwner agent then s.fm .invalidSecurityState
    else match s.link.extents.find? fun e => e.id == ext && (e.holders.contains req || e.offered.contains req) with
      | none => s.fm .invalidInput
      | some e =>
        let s := s.dcEvent ext [req]
        (if forced || !e.holders.contains req then s.forceRemove req e else s).fm .success)

/-! ### The host's answers -/

/-- A mailbox answer of a requester. -/
def State.mail (s : State) (req : Nat) (ret : RetCode) (data : List Nat := []) : State := s.emit (.mailbox req ret data)

/-- A mailbox command of a requester whose link is up. -/
def State.mailbox (s : State) (req : Nat) (go : State → State) : State := if s.present req then go s else s

/-- ADD_DYNAMIC_CAPACITY_RESPONSE: the host takes an offered extent, or leaves it. -/
def execAddDynamicCapacityResponse (req ext : Nat) (accept : Bool) (s : State) : Res :=
  .next (s.mailbox req fun s => match s.link.extents.find? fun e => e.id == ext && e.posted && e.offered.contains req with
    | none => s.mail req .invalidInput
    | some _ =>
      let s := s.updExtent ext fun e => { e with
        offered := e.offered.filter (· != req), holders := if accept then KSet.add req e.holders else e.holders }
      s.sweepExtents.mail req .success)

/-- RELEASE_DYNAMIC_CAPACITY: the requester's lines are snooped first; the release takes effect once every snoop is
answered (R115, R162). A line whose queue is full turns the command away. -/
def execReleaseDynamicCapacity (req ext : Nat) (s : State) : Res :=
  .next (s.mailbox req fun s => match s.link.extents.find? fun e => e.id == ext && e.holders.contains req with
    | none => s.mail req .invalidInput
    | some e =>
      let lines := s.linesHeld req e
      if lines.any fun l => trackerPlaces ≤ (s.tracker l).queue.length then s.mail req .busy
      else
        let k := s.tieKey req
        let s := lines.foldl (fun s l => s.enterOrder l (.release req ext) k.1 k.2) s
        (s.finishRelease req ext).mail req .success)

/-- GET_DYNAMIC_CAPACITY_CONFIGURATION: two regions of 256 MiB blocks: base and size in blocks of each. -/
def execGetDynamicCapacityConfiguration (req : Nat) (s : State) : Res :=
  .next (s.mailbox req fun s =>
    s.mail req .success [2, dcBase 0, s.hostBlocks, blockSize, dcBase 1, s.hostBlocks, blockSize])

/-- An extent as it is listed: identifier, region, blocks. -/
def Extent.listed (e : Extent) : List Nat := [e.id, e.region, e.blocks.length] ++ e.blocks

/-- GET_DYNAMIC_CAPACITY_EXTENT_LIST: the extents that the requester holds. -/
def execGetDynamicCapacityExtentList (req : Nat) (s : State) : Res :=
  .next (s.mailbox req fun s =>
    s.mail req .success ((s.link.extents.filter fun e => e.holders.contains req).flatMap Extent.listed))

end Sys2Proof.Machine
end

