-- ==== Sys2Proof/Machine/MailboxCmds.lean ====
section
/-! DEFINITION. The F0 mailbox (R123 to R126): events, timestamp, logs, firmware information, identity and health,
poison, sanitize. -/

namespace Sys2Proof.Machine

open Sys2Proof

/-- Update a requester's mailbox. -/
def State.updMbox (s : State) (req : Nat) (f : Mailbox → Mailbox) : State := s.setMbox req (f (s.mbox req))

/-! ## Events -/

/-- Number of an event kind. -/
def EventKind.num : EventKind → Nat
  | .generalMedia => 0 | .dram => 1 | .memoryModule => 2 | .dynamicCapacity => 3

/-- GET_EVENT_RECORDS: the records of a log, oldest first, and its overflow count. -/
def execGetEventRecords (req log : Nat) (s : State) : Res :=
  .next (s.mailbox req fun s =>
    let m := s.mbox req
    if 3 < log then s.mail req .invalidInput
    else s.mail req .success (Tbl.get 0 m.overflow log :: (Tbl.get [] m.logs log).flatMap fun r => [r.kind.num, r.about]))

/-- CLEAR_EVENT_RECORDS: the n oldest records of a log; an empty log has no overflow. -/
def execClearEventRecords (req log n : Nat) (s : State) : Res :=
  .next (s.mailbox req fun s =>
    let m := s.mbox req
    let l := Tbl.get [] m.logs log
    if 3 < log || l.length < n then s.mail req .invalidInput
    else
      (s.updMbox req fun m => { m with
        logs := Tbl.put [] m.logs log (l.drop n)
        overflow := if l.length = n then Tbl.put 0 m.overflow log 0 else m.overflow }).mail req .success)

/-- GET_EVENT_INTERRUPT_POLICY. -/
def execGetEventInterruptPolicy (req : Nat) (s : State) : Res :=
  .next (s.mailbox req fun s => s.mail req .success [(s.mbox req).policy.toNat])

/-- SET_EVENT_INTERRUPT_POLICY: a byte for each log, of which bits [1:0] are 0 no interrupt, 1 MSI-X; no others are
supported. -/
def execSetEventInterruptPolicy (req : Nat) (policy : Word32) (s : State) : Res :=
  .next (s.mailbox req fun s =>
    if (List.range 4).any fun k => 1 < policy.toNat / 2 ^ (8 * k) % 4 then s.mail req .invalidInput
    else (s.updMbox req fun m => { m with policy := policy }).mail req .success)

/-! ## Timestamp, logs, firmware -/

/-- GET_TIMESTAMP: 0 until it is set. -/
def execGetTimestamp (req : Nat) (s : State) : Res :=
  .next (s.mailbox req fun s => s.mail req .success [match (s.mbox req).stampSet with
    | some (v, t) => v + (s.now - t)
    | none => 0])

/-- SET_TIMESTAMP, in ns. -/
def execSetTimestamp (req : Nat) (stamp : Word) (s : State) : Res :=
  .next (s.mailbox req fun s => (s.updMbox req fun m => { m with stampSet := some (stamp.toNat, s.now) }).mail req .success)

/-- Opcodes of the commands that R123 lists. PRESUMED: the codes are CXL 3.1's. -/
def mailboxOpcodes : List Nat :=
  [0x0100, 0x0101, 0x0102, 0x0103, 0x0200, 0x0300, 0x0301, 0x0400, 0x0401, 0x4000, 0x4200, 0x4201, 0x4202, 0x4300, 0x4301,
   0x4302, 0x4303, 0x4304, 0x4400, 0x4401, 0x4800, 0x4801, 0x4802, 0x4803]

/-- GET_SUPPORTED_LOGS: the Command Effects Log, with its size. -/
def execGetSupportedLogs (req : Nat) (s : State) : Res :=
  .next (s.mailbox req fun s => s.mail req .success [1, 4 * mailboxOpcodes.length])

/-- GET_LOG: the Command Effects Log, or a log the device does not have. -/
def execGetLog (req : Nat) (effects : Bool) (s : State) : Res :=
  .next (s.mailbox req fun s => if effects then s.mail req .success mailboxOpcodes else s.mail req .invalidInput)

/-- GET_FW_INFO: the active slot pair (0: A), and the versions of its images. -/
def execGetFwInfo (req : Nat) (s : State) : Res :=
  .next (s.mailbox req fun s => s.mail req .success [bit s.pairB, s.mgmtImage.version, s.ctrlImage.version])

/-- TRANSFER_FW: update is by PLDM. -/
def execTransferFw (req : Nat) (s : State) : Res := .next (s.mailbox req fun s => s.mail req .unsupported)

/-- ACTIVATE_FW: likewise. -/
def execActivateFw (req : Nat) (s : State) : Res := .next (s.mailbox req fun s => s.mail req .unsupported)

/-- UNSUPPORTED_MAILBOX_COMMAND: any command that R123 does not list. -/
def execUnsupportedMailboxCommand (req opcode : Nat) (s : State) : Res :=
  .next (s.mailbox req fun s => if mailboxOpcodes.contains opcode then s else s.mail req .unsupported)

/-! ## Identity and health -/

/-- IDENTIFY_MEMORY_DEVICE: total, volatile and persistent capacity in bytes, and the records each event log holds. -/
def execIdentifyMemoryDevice (req : Nat) (s : State) : Res :=
  .next (s.mailbox req fun s =>
    let n := (s.staticBlocks req).length * blockSize
    s.mail req .success [n, n, 0, 32, 32, 32, 32])

/-- GET_HEALTH_INFO: media status (1: error, R46), and the temperature of the hottest die sensor as an 8-bit signed
number, if any converts. -/
def execGetHealthInfo (req : Nat) (s : State) : Res :=
  .next (s.mailbox req fun s =>
    s.mail req .success ([bit s.stage.trainFail.isSome] ++ ((s.junction.map fun j => lowBits 8 j.1)).toList))

/-- GET_ALERT_CONFIGURATION. -/
def execGetAlertConfiguration (req : Nat) (s : State) : Res :=
  .next (s.mailbox req fun s => s.mail req .success [(s.mbox req).alert.toNat])

/-- SET_ALERT_CONFIGURATION. -/
def execSetAlertConfiguration (req : Nat) (cfg : Word) (s : State) : Res :=
  .next (s.mailbox req fun s => (s.updMbox req fun m => { m with alert := cfg }).mail req .success)

/-! ## Poison -/

/-- The DPA at which a requester reaches a physical offset. -/
def State.dpaOf (s : State) (req p : Nat) : Option Nat :=
  match s.extentOf (p / blockSize) with
  | some e => if e.holders.contains req then some (dcBase e.region + p) else none
  | none => ((s.staticBlocks req).findIdx? fun b => b == p / blockSize).map fun i => i * blockSize + p % blockSize

/-- Poisoned lines of a requester in [dpa, dpa + len), by DPA. -/
def State.poisonList (s : State) (req dpa len : Nat) : List Nat :=
  s.dpoison.filterMap fun l => (s.dpaOf req (64 * l)).bind fun a => if dpa ≤ a && a < dpa + len then some a else none

/-- GET_POISON_LIST. -/
def execGetPoisonList (req dpa len : Nat) (s : State) : Res :=
  .next (s.mailbox req fun s => s.mail req .success (s.poisonList req dpa len))

/-- Inject Poison and Clear Poison need an Owner session of the requester, and a line it holds (R123). -/
def State.poisonCmd (s : State) (req dpa : Nat) (go : Nat → State → State) : State :=
  s.mailbox req fun s =>
    if !s.hasOwner req then s.mail req .invalidSecurityState
    else match (if dpa % 64 = 0 then s.hostMap req dpa else none) with
      | none => s.mail req .invalidInput
      | some p => (go p s).mail req .success

/-- INJECT_POISON. -/
def execInjectPoison (req dpa : Nat) (s : State) : Res := .next (s.poisonCmd req dpa fun p s => s.setPoison p true)

/-- CLEAR_POISON: the line takes new data, unpoisoned. -/
def execClearPoison (req dpa : Nat) (data : Line64) (s : State) : Res :=
  .next (s.poisonCmd req dpa fun p s => s.writeLine64 (p / 64) data false)

/-- SCAN_MEDIA: a background command; its results are kept. -/
def execScanMedia (req dpa len : Nat) (s : State) : Res :=
  .next (s.mailbox req fun s =>
    if (s.mbox req).sanitize then s.mail req .busy
    else
      let l := s.poisonList req dpa len
      (s.updMbox req fun m => { m with scan := some l }).mail req .background)

/-- GET_SCAN_MEDIA_RESULTS. -/
def execGetScanMediaResults (req : Nat) (s : State) : Res :=
  .next (s.mailbox req fun s => s.mail req .success ((s.mbox req).scan.getD []))

/-! ## Sanitize (R124, R125) -/

/-- Tasks whose stall has a window over the scope. -/
def State.tasksOver (s : State) (blocks : List Nat) : List Nat :=
  (s.q.tasks.filter fun t => t.phase != .waiting && blocks.any (s.active.coversBlock t.stall)).map Task.id

/-- The tasks are aborted, and the key of the scope's capacity is replaced. -/
def State.eraseOwn (s : State) (req : Nat) : State :=
  (s.abortTasks (s.tasksOver (s.ownBlocks req)) stProtection 0).rekeyOwn req

/-- SANITIZE: a background command that writes zeros once the key is replaced. -/
def execSanitize (req : Nat) (s : State) : Res :=
  .next (s.mailbox req fun s =>
    if (s.mbox req).sanitize then s.mail req .busy
    else ((s.eraseOwn req).updMbox req fun m => { m with sanitize := true }).mail req .background)

/-- SANITIZE_DONE: the zeros are written. -/
def execSanitizeDone (req : Nat) (s : State) : Res :=
  .next (
    if !(s.mbox req).sanitize then s
    else ((runsOf (s.ownBlocks req)).foldl (fun s r => s.zeroBlocks r.1 r.2) s).updMbox req fun m => { m with sanitize := false })

/-- SECURE_ERASE. -/
def execSecureErase (req : Nat) (s : State) : Res :=
  .next (s.mailbox req fun s => if (s.mbox req).sanitize then s.mail req .busy else (s.eraseOwn req).mail req .success)

end Sys2Proof.Machine
end

