-- ==== Sys2Proof/Machine/Mgmt.lean ====
section
/-! DEFINITION. Ostler's management endpoints: MCTP control, PLDM and the FM API (R746 to R753, R756 to R758; R63, R104,
R633). An endpoint is 0 SMBus, 1 the VDM of head 0, 2 the VDM of head 1. -/

namespace Sys2Proof.Machine

open Sys2Proof

/-- An endpoint exists, and its bus reaches the device (R748). -/
def State.endpoint (s : State) (ep : Nat) : Bool :=
  ep == 0 || ((ep == 1 || (ep == 2 && s.f .devLink 0 0 2 == 2)) && s.headsUp.contains (ep - 1))

/-- A request at an endpoint: no response while the MGMT image does not run (R746). -/
def State.request (s : State) (ep : Nat) (go : State → State) : State := if s.mgmtUp && s.endpoint ep then go s else s

/-- A response: the message code (MCTP control commands as they are, a PLDM command of type t as 256 × (t + 1) + command),
the completion code and data. PRESUMED: command and completion codes are DMTF's; the spec gives the names. -/
def State.respond (s : State) (code cc : Nat) (data : List Nat := []) : State := s.emit (.mgmt code cc data)

/-- Code of a PLDM command. -/
def pldm (typ cmd : Nat) : Nat := 256 * (typ + 1) + cmd

/-- Update the management endpoints. -/
def State.updMgmt (s : State) (f : Mgmt → Mgmt) : State := { s with mgmt := f s.mgmt }

/-! ## MCTP control (R748, R749) -/

/-- SET_ENDPOINT_ID. -/
def execSetEndpointId (ep eid : Nat) (s : State) : Res :=
  .next (s.request ep fun s => (s.setF .mgmtStatus 0 (8 + 8 * ep) 8 eid).respond 1 0 [eid % 256])

/-- GET_ENDPOINT_ID. -/
def execGetEndpointId (ep : Nat) (s : State) : Res :=
  .next (s.request ep fun s => s.respond 2 0 [s.f .mgmtStatus 0 (8 + 8 * ep) 8])

/-- GET_ENDPOINT_UUID: the device's identifier. -/
def execGetEndpointUuid (ep : Nat) (s : State) : Res := .next (s.request ep fun s => s.respond 3 0 [s.card.uid.toNat])

/-- The message types of R749. -/
def mctpTypes : List Nat := [0x00, 0x01, 0x05, 0x06, 0x07]

/-- GET_MCTP_VERSION_SUPPORT of a message type (0xFF: of MCTP itself). -/
def execGetMctpVersionSupport (ep typ : Nat) (s : State) : Res :=
  .next (s.request ep fun s => if typ = 0xFF || mctpTypes.contains typ then s.respond 4 0 [1] else s.respond 4 0x80)

/-- GET_MESSAGE_TYPE_SUPPORT: exactly the types of R749. -/
def execGetMessageTypeSupport (ep : Nat) (s : State) : Res := .next (s.request ep fun s => s.respond 5 0 mctpTypes)

/-- GET_VENDOR_DEFINED_MESSAGE_SUPPORT: there are none. -/
def execGetVendorDefinedMessageSupport (ep : Nat) (s : State) : Res := .next (s.request ep fun s => s.respond 6 2)

/-! ## PLDM base (R750) -/

/-- GET_TID. -/
def execGetTid (ep : Nat) (s : State) : Res := .next (s.request ep fun s => s.respond (pldm 0 2) 0 [s.mgmt.tid])

/-- SET_TID: 0 and 0xFF are no terminus. -/
def execSetTid (ep tid : Nat) (s : State) : Res :=
  .next (s.request ep fun s =>
    if tid = 0 || 0xFF ≤ tid then s.respond (pldm 0 1) 2 else (s.updMgmt fun m => { m with tid := tid }).respond (pldm 0 1) 0)

/-- Commands of a PLDM type (R750). -/
def pldmCommands : Nat → List Nat
  | 0 => [0x01, 0x02, 0x03, 0x04, 0x05]
  | 2 => [0x04, 0x05, 0x0A, 0x11, 0x21, 0x50, 0x51]
  | 5 => [0x01, 0x02, 0x10, 0x13, 0x14, 0x15, 0x16, 0x17, 0x18, 0x1A, 0x1B, 0x1C, 0x1D]
  | _ => []

/-- GET_PLDM_VERSION of a type. -/
def execGetPldmVersion (ep typ : Nat) (s : State) : Res :=
  .next (s.request ep fun s => if (pldmCommands typ).isEmpty then s.respond (pldm 0 3) 0x83 else s.respond (pldm 0 3) 0 [1])

/-- GET_PLDM_TYPES. -/
def execGetPldmTypes (ep : Nat) (s : State) : Res := .next (s.request ep fun s => s.respond (pldm 0 4) 0 [0, 2, 5])

/-- GET_PLDM_COMMANDS of a type. -/
def execGetPldmCommands (ep typ : Nat) (s : State) : Res :=
  .next (s.request ep fun s =>
    if (pldmCommands typ).isEmpty then s.respond (pldm 0 5) 0x83 else s.respond (pldm 0 5) 0 (pldmCommands typ))

/-! ## PLDM monitoring (R757, R758) -/

/-- Numeric sensors with a PDR. -/
def State.sensors (s : State) : List Nat := (List.range 11).map (· + 1) ++ (if s.card.order = .a256 then [12] else [])

/-- State sensors. -/
def stateSensors : List Nat := [100, 101, 102]

/-- A numeric sensor's reading; none: unavailable. -/
def State.sensor (s : State) (id : Nat) : Option Nat :=
  match id with
  | 7 => s.junction.map fun j => lowBits 8 j.1
  | 8 => some (s.f .vrStatus 0 0 10)
  | 9 => some (s.f .vrStatus 0 32 16)
  | 10 => some (s.f .powerStatus 0 0 16)
  | 11 => some (s.f .powerStatus 0 16 16)
  | 12 => some (s.f .fanStatus 0 0 16)
  | n => if s.frozen (n - 1) then none else some (s.f .thermStatus 0 (8 * (n - 1)) 8)

/-- A state sensor's state: stage, compute fence (its lowest cause), fan. -/
def State.stateOf (s : State) (id : Nat) : Nat :=
  match id with
  | 100 => s.stageNow
  | 101 => s.stage.fences.headD 0
  | _ => s.fanState

/-- GET_SENSOR_READING: operational state 0 enabled, 1 unavailable, and the reading. -/
def execGetSensorReading (ep id : Nat) (s : State) : Res :=
  .next (s.request ep fun s =>
    if !s.sensors.contains id then s.respond (pldm 2 0x11) 0x80
    else match s.sensor id with
      | some v => s.respond (pldm 2 0x11) 0 [0, v]
      | none => s.respond (pldm 2 0x11) 0 [1])

/-- GET_STATE_SENSOR_READINGS. -/
def execGetStateSensorReadings (ep id : Nat) (s : State) : Res :=
  .next (s.request ep fun s =>
    if stateSensors.contains id then s.respond (pldm 2 0x21) 0 [s.stateOf id] else s.respond (pldm 2 0x21) 0x80)

/-- GET_PDR_REPOSITORY_INFO: one record for each sensor. -/
def execGetPdrRepositoryInfo (ep : Nat) (s : State) : Res :=
  .next (s.request ep fun s => s.respond (pldm 2 0x50) 0 [s.sensors.length + stateSensors.length])

/-- GET_PDR: record n, from 1, names a sensor; that of sensor 7 carries its thresholds (R758). -/
def execGetPdr (ep n : Nat) (s : State) : Res :=
  .next (s.request ep fun s => match (s.sensors ++ stateSensors)[n - 1]? with
    | some 7 => s.respond (pldm 2 0x51) 0 [7, lowBits 8 s.warnC, lowBits 8 s.fenceC, 120]
    | some id => if n = 0 then s.respond (pldm 2 0x51) 0x82 else s.respond (pldm 2 0x51) 0 [id]
    | none => s.respond (pldm 2 0x51) 0x82)

/-- What an event of a sensor reports: the threshold band of sensor 7, or a state. -/
def State.eventState (s : State) (id : Nat) : Nat :=
  if id = 7 then
    match s.junction with
    | none => 0
    | some (t, _) => bit (decide (s.warnC ≤ t)) + bit (decide (s.fenceC ≤ t)) + bit (decide (120 ≤ t))
  else s.stateOf id

/-- Sensors whose changes are events. -/
def eventSensors : List Nat := [7, 100, 101, 102]

/-- SET_EVENT_RECEIVER: events are those after it. -/
def execSetEventReceiver (ep : Nat) (on : Bool) (s : State) : Res :=
  .next (s.request ep fun s =>
    let s := s.setF .mgmtStatus 0 35 1 (bit on)
    (s.updMgmt fun m => { m with seen := eventSensors.map fun id => (id, s.eventState id), unacked := [] }).respond
      (pldm 2 4) 0)

/-- GET_EVENT_RECEIVER. -/
def execGetEventReceiver (ep : Nat) (s : State) : Res :=
  .next (s.request ep fun s => s.respond (pldm 2 5) 0 [s.f .mgmtStatus 0 35 1])

/-- Most times that an event is sent: once, and again at most 3 times. -/
def eventSends : Nat := 4

/-- PLATFORM_EVENT_MESSAGE: the device sends an event of a sensor, or sends it again 1 s after it was not acknowledged.
`ack`: this one is acknowledged. -/
def execPlatformEventMessage (id : Nat) (ack : Bool) (s : State) : Res :=
  .next (
    if !s.mgmtUp || s.f .mgmtStatus 0 35 1 = 0 || !eventSensors.contains id then s
    else
      let v := s.eventState id
      if Tbl.get 0 s.mgmt.seen id ≠ v then
        (s.updMgmt fun m => { m with
          seen := Tbl.insert id v m.seen
          unacked := if ack then Tbl.erase id m.unacked else Tbl.insert id (1, s.now) m.unacked }).respond (pldm 2 0xA) 0 [id, v]
      else match Tbl.find? id s.mgmt.unacked with
        | none => s
        | some (n, t) =>
          let s := s.notBefore (t + 10 ^ 9)
          (s.updMgmt fun m => { m with
            unacked := if ack || eventSends ≤ n + 1 then Tbl.erase id m.unacked else Tbl.insert id (n + 1, s.now) m.unacked
            }).respond (pldm 2 0xA) 0 [id, v])

/-! ## Firmware update (R63, R750 to R753) -/

/-- Set MGMT_STATUS.UPDATE and the update. -/
def State.setUpdate (s : State) (phase : Nat) (u : Option Update) : State :=
  (s.setF .mgmtStatus 0 32 3 phase).updMgmt fun m => { m with update := u }

/-- The phase of the update. -/
def State.updatePhase (s : State) : Nat := s.f .mgmtStatus 0 32 3

/-- A request of the update agent in update mode; otherwise NOT_IN_UPDATE_MODE. -/
def State.agentRequest (s : State) (ep cmd : Nat) (go : Update → State → State) : State :=
  s.request ep fun s => match s.mgmt.update with
    | none => s.respond (pldm 5 cmd) 0x80
    | some u => let u := { u with last := s.now }; go u (s.setUpdate s.updatePhase (some u))

/-- An image of a pair by component: 1 MGMT, 2 CTRL. -/
def Stage.image (g : Stage) (b : Bool) (comp : Nat) : Image :=
  if comp = 1 then (if b then g.mgmtB else g.mgmtA) else (if b then g.ctrlB else g.ctrlA)

/-- Replace it. -/
def Stage.setImage (g : Stage) (b : Bool) (comp : Nat) (m : Image) : Stage :=
  if comp = 1 then (if b then { g with mgmtB := m } else { g with mgmtA := m })
  else if b then { g with ctrlB := m } else { g with ctrlA := m }

/-- QUERY_DEVICE_IDENTIFIERS: vendor, device and subsystem (R96). -/
def execQueryDeviceIdentifiers (ep : Nat) (s : State) : Res :=
  .next (s.request ep fun s => s.respond (pldm 5 1) 0 [0x1F9E, 0x4820, 0x1F9E,
    match s.card.order with
    | .p256 => 1 | .a256 => 2 | .p128 => 3])

/-- GET_FIRMWARE_PARAMETERS: active pair and versions, and the versions of the other pair. -/
def execGetFirmwareParameters (ep : Nat) (s : State) : Res :=
  .next (s.request ep fun s =>
    let b := s.pairB
    let v := fun (p : Bool) (c : Nat) => (s.stage.image p c).version
    s.respond (pldm 5 2) 0 [bit b, v b 1, v b 2, v (!b) 1, v (!b) 2])

/-- Management authority (R751): `owner`: the message travels in a secured session that is the host Owner session. -/
def State.mayManage (s : State) (owner : Bool) : Bool :=
  (owner && s.f .gbOwner 0 1 1 == 1) || s.gb.ownerKey.isNone || s.f .gbOwnerCfg 0 0 1 == 1

/-- REQUEST_UPDATE: ERROR without management authority, ALREADY_IN_UPDATE_MODE during an update. -/
def execRequestUpdate (ep : Nat) (owner : Bool) (s : State) : Res :=
  .next (s.request ep fun s =>
    if !s.mayManage owner then s.respond (pldm 5 0x10) 1
    else if s.mgmt.update.isSome then s.respond (pldm 5 0x10) 0x81
    else (s.setUpdate 1 (some ⟨!s.pairB, [], none, [], s.now⟩)).respond (pldm 5 0x10) 0)

/-- Components that the device has. -/
def knownComps : List Nat := [1, 2]

/-- PASS_COMPONENT_TABLE: the components of the package. -/
def execPassComponentTable (ep : Nat) (comps : List Nat) (s : State) : Res :=
  .next (s.agentRequest ep 0x13 fun u s =>
    if s.updatePhase ≠ 1 || u.cur.isSome then s.respond (pldm 5 0x13) 1
    else (s.setUpdate 1 (some { u with comps := knownComps.filter comps.contains })).respond (pldm 5 0x13) 0)

/-- UPDATE_COMPONENT: the transfer of a component of the package begins. -/
def execUpdateComponent (ep comp : Nat) (s : State) : Res :=
  .next (s.agentRequest ep 0x14 fun u s =>
    if s.updatePhase ≠ 1 || !u.comps.contains comp || u.done.contains comp then s.respond (pldm 5 0x14) 1
    else (s.setUpdate 2 (some { u with cur := some comp })).respond (pldm 5 0x14) 0)

/-- The device's own step of an update in a phase. -/
def State.updateStep (s : State) (phase : Nat) (go : Update → Nat → State → State) : State :=
  match s.mgmtUp, s.mgmt.update with
  | true, some u => match u.cur with
    | some c => if s.updatePhase = phase then go u c s else s
    | none => s
  | _, _ => s

/-- REQUEST_FIRMWARE_DATA: up to 4 KiB come and are written into the inactive slot, whose image is no longer whole. -/
def execRequestFirmwareData (off len : Nat) (s : State) : Res :=
  .next (if len = 0 || 4096 < len then s else s.updateStep 2 fun u c s =>
    let m := { s.stage.image u.pairB c with sigOk := false }
    let s := { s with stage := s.stage.setImage u.pairB c m }
    (s.setUpdate 2 (some { u with last := s.now })).respond (pldm 5 0x15) 0 [off, len])

/-- TRANSFER_COMPLETE: `img`: what the slot holds now. -/
def execTransferComplete (img : Image) (s : State) : Res :=
  .next (s.updateStep 2 fun u c s =>
    (({ s with stage := s.stage.setImage u.pairB c img }).setUpdate 3 (some { u with last := s.now })).respond (pldm 5 0x16) 0)

/-- A component that the package lacks is copied from the active pair (R752). -/
def State.copyLacking (s : State) (u : Update) : State :=
  (knownComps.filter fun c => !u.comps.contains c).foldl (fun s c =>
    { s with stage := s.stage.setImage u.pairB c (s.stage.image s.pairB c) }) s

/-- A written image passes R61 and its silicon pair (R67), and, once the pair is whole, MGMT and CTRL accept each other. -/
def State.verifies (s : State) (u : Update) (c : Nat) : Bool :=
  let m := s.stage.image u.pairB c
  let mg := s.stage.image u.pairB 1
  let ct := s.stage.image u.pairB 2
  let whole := u.comps.all fun k => k == c || u.done.contains k
  (failingCheck m (BitVec.ofNat 8 c) (if c = 1 then s.card.svnMgmt else s.card.svnCtrl)).isNone
    && accepts silEpoch (epochAt m.min 0) (epochAt m.max 0)
    && (!whole || accepts (epochAt mg.prov 1) (epochAt ct.min 1) (epochAt ct.max 1))

/-- VERIFY_COMPLETE: 0, or 1 for VerifyFailed; a component that failed may be sent again. -/
def execVerifyComplete (s : State) : Res :=
  .next (s.updateStep 3 fun u c s =>
    let s := s.copyLacking u
    if s.verifies u c then (s.setUpdate 4 (some { u with last := s.now })).respond (pldm 5 0x17) 0 [0]
    else (s.setUpdate 1 (some { u with cur := none, last := s.now })).respond (pldm 5 0x17) 0 [1])

/-- APPLY_COMPLETE: the component is done; with the last of them the update is ready. -/
def execApplyComplete (s : State) : Res :=
  .next (s.updateStep 4 fun u c s =>
    let u := { u with cur := none, done := KSet.add c u.done, last := s.now }
    (s.setUpdate (if u.comps.all u.done.contains then 5 else 1) (some u)).respond (pldm 5 0x18) 0 [0])

/-- ACTIVATE_FIRMWARE: the boot pair record names the pair that was written; it runs after the next restart (R63). -/
def execActivateFirmware (ep : Nat) (s : State) : Res :=
  .next (s.agentRequest ep 0x1A fun u s =>
    if s.updatePhase ≠ 5 then s.respond (pldm 5 0x1A) 1
    else
      let s := { s with stage := { s.stage with bootB := u.pairB, bootSeq := s.stage.bootSeq + 1 } }
      (s.setUpdate 0 none).respond (pldm 5 0x1A) 0)

/-- GET_STATUS: the phase. -/
def execGetStatus (ep : Nat) (s : State) : Res :=
  .next (s.request ep fun s =>
    (s.updMgmt fun m => { m with update := m.update.map fun u => { u with last := s.now } }).respond (pldm 5 0x1B) 0
      [s.updatePhase])

/-- CANCEL_UPDATE_COMPONENT: the component's transfer is dropped. -/
def execCancelUpdateComponent (ep : Nat) (s : State) : Res :=
  .next (s.agentRequest ep 0x1C fun u s =>
    if u.cur.isNone then s.respond (pldm 5 0x1C) 1
    else (s.setUpdate 1 (some { u with cur := none })).respond (pldm 5 0x1C) 0)

/-- CANCEL_UPDATE: the update is abandoned; the boot pair record stays. -/
def execCancelUpdate (ep : Nat) (s : State) : Res :=
  .next (s.agentRequest ep 0x1D fun _ s => s.dropUpdate.respond (pldm 5 0x1D) 0)

/-- UPDATE_TIMEOUT: 60 s without a request of the update agent (R753). -/
def execUpdateTimeout (s : State) : Res :=
  .next (match s.mgmt.update with
    | some u => if s.mgmtUp then (s.notBefore (u.last + minute)).dropUpdate else s
    | none => s)

/-! ## FM API (R756) -/

/-- A message of the FM API: over MCTP or the FM-owned LD (agent 16), or in a requester's Owner session. -/
def State.fmRequest (s : State) (agent : Nat) (go : State → State) : State :=
  if s.mgmtUp && decide (agent ≤ fmAgent) then go s else s

/-- A command that changes state needs Owner authority (R182). -/
def State.fmChange (s : State) (agent : Nat) (go : State → State) : State :=
  s.fmRequest agent fun s => if s.hasOwner agent then go s else s.fm .invalidSecurityState

/-- An LD-management command: in MLD mode only. -/
def State.mldOnly (s : State) (go : State → State) : State := if s.f .devLink 0 0 2 = 1 then go s else s.fm .unsupported

/-- IDENTIFY: vendor, device and subsystem identity. -/
def execIdentify (agent : Nat) (s : State) : Res :=
  .next (s.fmRequest agent fun s => s.fm .success [0x1F9E, 0x4820, 0x1F9E, 0x21])

/-- GET_LD_INFO: host-visible capacity in bytes, and the number of LDs. -/
def execGetLdInfo (agent : Nat) (s : State) : Res :=
  .next (s.fmRequest agent fun s => s.fm .success [s.hostBlocks * blockSize, 16])

/-- GET_MULTI_HEADED_INFO: in 2 × x8 mode only: two heads, LD i on head i. -/
def execGetMultiHeadedInfo (agent : Nat) (s : State) : Res :=
  .next (s.fmRequest agent fun s => if s.f .devLink 0 0 2 = 2 then s.fm .success [2, 0, 1] else s.fm .unsupported)

/-- GET_LD_ALLOCATIONS: blocks assigned to each LD. -/
def execGetLdAllocations (agent : Nat) (s : State) : Res :=
  .next (s.fmRequest agent fun s => s.mldOnly fun s => s.fm .success ((List.range 16).map fun i =>
    ((List.range s.hostBlocks).filter fun b => holderIn s.link.assigned b == some i).length))

/-- Blocks that an assignment names: (first, count, LD). -/
def allocBlocks (alloc : List (Nat × Nat × Nat)) : List Nat := alloc.flatMap fun r => (List.range r.2.1).map fun j => r.1 + j

/-- A block may be assigned as static capacity (R184). -/
def State.assignable (s : State) (b : Nat) : Bool :=
  decide (b < s.hostBlocks) && (s.extentOf b).isNone && (List.range 16).all fun st => !s.active.coversBlock st b

/-- SET_LD_ALLOCATIONS: the named LDs get the named runs of blocks, which the device chooses (first, count, LD), from their
next reset on (R104). -/
def execSetLdAllocations (agent : Nat) (lds : List Nat) (alloc : List (Nat × Nat × Nat)) (s : State) : Res :=
  .next (s.fmChange agent fun s => s.mldOnly fun s =>
    let b := allocBlocks alloc
    let keep := s.link.assigned.map fun (r : Nat × Nat × Option Nat) => (r.1, r.2.1, if r.2.2.any lds.contains then none else r.2.2)
    if !(lds.all fun l => decide (l < 16)) || !(alloc.all fun (r : Nat × Nat × Nat) => lds.contains r.2.2) || !decide b.Nodup
        || !(b.all fun k => s.assignable k && (holderIn keep k).isNone) then s.fm .invalidInput
    else ({ s with link := { s.link with assigned := alloc.map (fun (r : Nat × Nat × Nat) => (r.1, r.2.1, some r.2.2)) ++ keep } }).fm .success)

/-- GET_QOS_CONTROL. -/
def execGetQosControl (agent : Nat) (s : State) : Res :=
  .next (s.fmRequest agent fun s => s.mldOnly fun s => s.fm .success [s.link.qosCtl.toNat])

/-- SET_QOS_CONTROL: the control word is kept. -/
def execSetQosControl (agent : Nat) (val : Word) (s : State) : Res :=
  .next (s.fmChange agent fun s => s.mldOnly fun s => ({ s with link := { s.link with qosCtl := val } }).fm .success)

/-- GET_QOS_STATUS: what it reports of the link's load is a free value. -/
def execGetQosStatus (agent : Nat) (s : State) : Res :=
  .next (s.fmRequest agent fun s => s.mldOnly fun s => s.draw.2.fm .success [s.draw.1.toNat])

/-- A fraction of every LD: ALLOC at bit 0, LIMIT at bit 8 of BRIDLE_LDQ. -/
def State.fractions (s : State) (lo : Nat) : List Nat := (List.range 16).map fun i => s.f .bridleLdq i lo 8

/-- Set the fractions of LDs (LD, fraction). -/
def State.setFractions (s : State) (lo : Nat) (l : List (Nat × Nat)) : State :=
  if l.all fun e => decide (e.1 < 16) && decide (e.2 < 256) then
    (l.foldl (fun s e => s.setF .bridleLdq e.1 lo 8 e.2) s).fm .success
  else s.fm .invalidInput

/-- GET_QOS_ALLOCATED_BW. -/
def execGetQosAllocatedBw (agent : Nat) (s : State) : Res :=
  .next (s.fmRequest agent fun s => s.mldOnly fun s => s.fm .success (s.fractions 0))

/-- SET_QOS_ALLOCATED_BW (R633). -/
def execSetQosAllocatedBw (agent : Nat) (fracs : List (Nat × Nat)) (s : State) : Res :=
  .next (s.fmChange agent fun s => s.mldOnly fun s => s.setFractions 0 fracs)

/-- GET_QOS_BW_LIMIT. -/
def execGetQosBwLimit (agent : Nat) (s : State) : Res :=
  .next (s.fmRequest agent fun s => s.mldOnly fun s => s.fm .success (s.fractions 8))

/-- SET_QOS_BW_LIMIT (R633). -/
def execSetQosBwLimit (agent : Nat) (fracs : List (Nat × Nat)) (s : State) : Res :=
  .next (s.fmChange agent fun s => s.mldOnly fun s => s.setFractions 8 fracs)

/-- GET_DCD_INFO: hosts, regions a host, block size. -/
def execGetDcdInfo (agent : Nat) (s : State) : Res :=
  .next (s.fmRequest agent fun s => s.fm .success [16, 2, blockSize])

/-- GET_HOST_DC_REGION_CONFIGURATION of a requester. -/
def execGetHostDcRegionConfiguration (agent req : Nat) (s : State) : Res :=
  .next (s.fmRequest agent fun s =>
    if 16 ≤ req then s.fm .invalidInput
    else s.fm .success [2, dcBase 0, s.hostBlocks, blockSize, dcBase 1, s.hostBlocks, blockSize])

/-- GET_DC_REGION_EXTENT_LISTS of a requester. -/
def execGetDcRegionExtentLists (agent req : Nat) (s : State) : Res :=
  .next (s.fmRequest agent fun s =>
    if 16 ≤ req then s.fm .invalidInput
    else s.fm .success ((s.link.extents.filter fun e => e.holders.contains req).flatMap Extent.listed))

end Sys2Proof.Machine
end

