-- ==== Sys2Proof/Machine/Owner.lean ====
section
/-! DEFINITION. The Glovebox's sessions, the Owner and debug unlock (R175 to R182, R205 to R208, R754, R755), and IDE
(R119 to R122). -/

namespace Sys2Proof.Machine

open Sys2Proof

/-! ## SPDM -/

/-- The Glovebox answers SPDM of a requester: from Trot onwards (R746). -/
def State.spdmUp (s : State) (req : Nat) : Bool := s.present req && decide (stTrot ≤ s.stageNow)

/-- SPDM error codes. PRESUMED: the values are DSP0274's; the spec gives the names. -/
def spBusy : Nat := 0x03
def spUnexpected : Nat := 0x04
def spUnsupported : Nat := 0x07
def spSessionLimit : Nat := 0x0A

/-- Answers of the responder. -/
def State.spdmOk (s : State) (req : Nat) (data : List Nat := []) : State := s.emit (.spdm req true data)
def State.spdmError (s : State) (req code : Nat) : State := s.emit (.spdm req false [code])

/-- Replace the sessions. -/
def State.setSessions (s : State) (l : List Session) : State := { s with gb := { s.gb with sessions := l } }

/-- A session of a requester by its identifier. -/
def State.session? (s : State) (req sid : Nat) : Option Session := s.gb.sessions.find? fun e => e.id == sid && e.req == req

/-- A session's latest message is now. -/
def Session.seen (now sid : Nat) (e : Session) : Session := if e.id = sid then { e with last := now } else e
def State.touch (s : State) (sid : Nat) : State := s.setSessions (s.gb.sessions.map (Session.seen s.now sid))

/-- A session ends; with it the host Owner session, where it is one (R181). -/
def State.endSession (s : State) (sid : Nat) : State :=
  match s.gb.sessions.find? fun e => e.id == sid with
  | none => s
  | some e => if e.owner then s.endOwnerSession else s.setSessions (s.gb.sessions.filter fun e => e.id != sid)

/-- A requester's session is the host Owner session now; an earlier one of the same requester is over (R180). -/
def Session.owns (sid : Nat) (e : Session) : Session := { e with owner := e.id == sid }
def State.becomeOwner (s : State) (req sid : Nat) : State :=
  let s := s.setSessions ((s.gb.sessions.filter fun e => !e.owner || e.id == sid).map (Session.owns sid))
  (s.setF .gbOwner 0 1 1 1).setF .gbOwner 0 2 4 req

/-- Most sessions at once (R754). -/
def sessionsMax : Nat := 4

/-- KEY_EXCHANGE: a session with the requester's root key opens, with `sid` as the identifier that the two sides agree
on. One that is rooted at the Owner root key is the host Owner session; while another requester has it, Busy (R180). -/
def execKeyExchange (req sid key : Nat) (mutualAuth : Bool) (s : State) : Res :=
  .next (
    if !s.spdmUp req || (s.gb.sessions.any fun e => e.id == sid) then s
    else
      let owner := mutualAuth && s.gb.ownerKey == some key
      let others := s.f .gbOwner 0 1 1 == 1 && s.f .gbOwner 0 2 4 != req
      let left := s.gb.sessions.filter fun e => !(owner && e.owner)
      if owner && others then s.spdmError req spBusy
      else if sessionsMax ≤ left.length then s.spdmError req spSessionLimit
      else
        let s := s.setSessions (s.gb.sessions ++ [⟨sid, req, key, mutualAuth, false, s.now⟩])
        (if owner then s.becomeOwner req sid else s).spdmOk req [sid])

/-- END_SESSION. -/
def execEndSession (req sid : Nat) (s : State) : Res :=
  .next (match s.spdmUp req, s.session? req sid with
    | true, some _ => (s.endSession sid).spdmOk req
    | true, none => s.spdmError req spUnexpected
    | _, _ => s)

/-- HEARTBEAT. -/
def execHeartbeat (req sid : Nat) (s : State) : Res :=
  .next (match s.spdmUp req, s.session? req sid with
    | true, some _ => (s.touch sid).spdmOk req
    | true, none => s.spdmError req spUnexpected
    | _, _ => s)

/-- Two heartbeat periods of 10 s. -/
def heartbeats : Nat := 20 * 10 ^ 9

/-- OWNER_SESSION_TIMEOUT: two heartbeat periods pass without a message of a session (R181). -/
def execOwnerSessionTimeout (sid : Nat) (s : State) : Res :=
  .next (match s.gb.sessions.find? fun e => e.id == sid with
    | some e => (s.notBefore (e.last + heartbeats)).endSession sid
    | none => s)

/-- OWNER_CLAIM: the Owner record takes the requester's root key, and the session becomes the Owner session (R176); a
claimed card refuses it (R177). -/
def execOwnerClaim (req sid : Nat) (s : State) : Res :=
  .next (
    if !s.spdmUp req then s
    else match s.session? req sid with
      | none => s.spdmError req spUnexpected
      | some e =>
        if s.gb.ownerKey.isSome || !e.mutual_ then (s.touch sid).spdmError req spUnexpected
        else
          let s := { s with gb := { s.gb with ownerKey := some e.key } }
          (((s.setF .gbOwner 0 0 1 1).touch sid).becomeOwner req sid).spdmOk req)

/-- Numbers that an image's digest stands for. -/
def imageContent (m : Image) : List Nat :=
  [m.version, m.svn, bit m.sigOk] ++ (m.prov ++ m.min ++ m.max).map BitVec.toNat

/-- The content of each measurement block (R755); the digest of a block stands for its content. -/
def State.measurements (s : State) : List Nat :=
  [1, 2] ++ imageContent s.mgmtImage ++ [3] ++ (if s.stage.ctrlVerified then imageContent s.ctrlImage else [])
    ++ [4, s.card.svnMgmt, s.card.svnCtrl, 5, s.f .gbOwner 0 6 1, s.f .gbOwner 0 7 2, 6, (s.gb.ownerKey.map (· + 1)).getD 0]
    ++ [7, s.stageNow, s.f .stageStatus 0 4 1, s.f .stageStatus 0 5 1]

/-- A message of a requester, in each of its sessions. -/
def State.touchAll (s : State) (req : Nat) : State :=
  s.setSessions (s.gb.sessions.map fun e => if e.req = req then { e with last := s.now } else e)

/-- GET_MEASUREMENTS (R755). -/
def execGetMeasurements (req : Nat) (s : State) : Res :=
  .next (if s.spdmUp req then (s.touchAll req).spdmOk req s.measurements else s)

/-- Requests of SPDM 1.3 that the capabilities of R754 answer. PRESUMED: the codes are DSP0274's. -/
def spdmCodes : List Nat := [0x84, 0xE1, 0xE3, 0x81, 0x82, 0x83, 0xE5, 0xE9, 0xEA, 0xEB]

/-- SPDM_REQUEST: any other request (R754). -/
def execSpdmRequest (req code : Nat) (s : State) : Res :=
  .next (
    if !s.spdmUp req then s
    else if spdmCodes.contains code then (s.touchAll req).spdmOk req [code]
    else (s.touchAll req).spdmError req spUnsupported)

/-! ## The Owner record -/

/-- A stall entry's word in the copy that a release commits: VALID and KEY_RENEW are clear. -/
def released (e : Nat × Word) : Nat × Word := (e.1 - 0x102000, if e.1 % 0x100 = 0 then e.2 &&& ~~~3 else e.2)

/-- The staged copy with every stall invalid. -/
def State.stageNone (s : State) : State :=
  allStalls.foldl (fun s st => s.setF .stagedCfg st 0 2 0) s

/-- The card is released: the Owner record is empty, Owner sessions end, and every stall becomes invalid through a
commit (R178). A commit in progress completes first. -/
def State.release (s : State) : State :=
  let s := s.commitEnd
  let s := ({ s with gb := { s.gb with ownerKey := none } }.setF .gbOwner 0 0 1 0).endOwnerSession
  let s := s.stageNone
  s.commitBegin ((s.regs.filter fun e => activeKey e.1).map released)

/-- A write of GLOVEBOX_OWNER_CFG: clearing FM_TRUST ends the Fabric Manager's authority (R187); RELEASE. -/
def State.ownerCfgAct (w : Written) (s : State) : State :=
  let s := if bitAt w.old 0 && s.f .gbOwnerCfg 0 0 1 = 0 then s.ownerEnds 0x10 else s
  if w.set 2 then s.release else s

/-- OWNER_RELEASE: a write of GLOVEBOX_OWNER_CFG with RELEASE = 1. -/
def execOwnerRelease (req : Nat) (val : Word) (s : State) : Res :=
  .next (s.regWrite req .gbOwnerCfg 0 (val ||| 4) State.ownerCfgAct)

/-! ## Debug unlock (R205 to R208) -/

/-- Bytes of a list of 64-bit words, low first. -/
def bytesOf (l : List Word) : List Byte := l.flatMap fun w => leBytes 8 w.toNat

/-- n bytes at o of a token, as a number. -/
def tokenField (t : List Byte) (o n : Nat) : Nat := leNat ((t.drop o).take n)

/-- The current nonce. -/
def State.nonce (s : State) : Nat := leNat (bytesOf ((List.range 4).map (Config.freeNonce s.gb.draws)))

/-- RESULT of a token that is refused, by the checks of R205 to R207; none: it is valid. `sigOk`: its signature verifies
under the key of its level. -/
def State.tokenRefused (s : State) (t : List Byte) (sigOk : Bool) : Option Nat :=
  let level := tokenField t 4 1
  if tokenField t 0 4 ≠ 0x4B544A47 || tokenField t 5 3 ≠ 0 || tokenField t 0x38 8 ≠ 0 || !(level == 1 || level == 2)
      || (level == 2 && s.f .gbOwnerCfg 0 1 1 == 0) then some 5
  else if tokenField t 8 16 ≠ s.card.uid.toNat then some 4
  else if tokenField t 0x18 32 ≠ s.nonce then some 3
  else if !sigOk || (level == 1 && s.gb.ownerKey.isNone) then some 2
  else if allStalls.any fun st => s.active.valid st then some 6
  else none

/-- RESULT of GLOVEBOX_DEBUG_CTL. -/
def State.debugResult (s : State) (r : Nat) : State := s.setF .gbDebugCtl 0 4 4 r

/-- Every key is replaced: DRAM behaves as after PERST#, and IDE streams become Insecure (R207 steps 3 and 4). -/
def State.rekeyAll (s : State) : State :=
  let s := (List.range 64).foldl State.newKey s
  { s.rekeyBlocks 0 s.usableBlocks with link := { s.link with
    ideFailed := s.link.ideSecure.foldl (fun l r => KSet.add r l) s.link.ideFailed, ideSecure := [] } }

/-- Debug opens at a level. An Owner debug session stays open. -/
def State.unlock (s : State) (level : Nat) : State :=
  let open_ := s.f .dbgSession 0 0 1
  let s := (s.endOwnerSession.rekeyAll).setF .dbgSession 0 0 1 open_
  let s := (s.moduleEvent 1 FaultCode.debugUnlock.code).logFault { code := .debugUnlock, cls := .d, unit := 6 }
  ((s.setF .gbOwner 0 6 1 1).setF .gbOwner 0 7 2 level).debugResult 1

/-- A token is submitted: it is checked, the nonce is replaced whatever the result, and a valid token opens debug. -/
def State.submitToken (s : State) (t : List Byte) (sigOk : Bool) : State :=
  let r := s.tokenRefused t sigOk
  let s := { s with gb := { s.gb with draws := s.gb.draws + 1 } }
  match r with
  | some c => s.debugResult c
  | none => s.unlock (tokenField t 4 1)

/-- A write of GLOVEBOX_DEBUG_CTL. -/
def State.debugAct (sigOk : Bool) (w : Written) (s : State) : State :=
  if w.set 0 then s.submitToken (bytesOf ((List.range 20).map (s.reg .gbToken))) sigOk else s

/-- DEBUG_SUBMIT: a write of SUBMIT = 1, or (`conn`) the equivalent command of the debug connector with its token. -/
def execDebugSubmit (req : Nat) (sigOk : Bool) (conn : Option (List Word)) (s : State) : Res :=
  .next (match conn with
    | some t => if s.pw.rails = 0 || s.inReset then s else s.submitToken (bytesOf (t.take 20)) sigOk
    | none => s.regWrite req .gbDebugCtl 0 1 (State.debugAct sigOk))

/-! ## IDE (R119 to R122) -/

/-- Requesters whose CXL.cachemem IDE stream is a requester's: those of its head. -/
def State.streamMates (s : State) (req : Nat) : List Nat := if s.f .devLink 0 0 2 = 1 then s.presentReqs else [req]

/-- Their streams become secure, or Insecure. -/
def State.setIde (s : State) (reqs : List Nat) (secure : Bool) : State :=
  let on := fun (p : Bool) (l : List Nat) => if p then reqs.foldl (fun l r => KSet.add r l) l else l.filter fun r => !reqs.contains r
  { s with link := { s.link with ideSecure := on secure s.link.ideSecure, ideFailed := on (!secure) s.link.ideFailed } }

/-- IDE_KM: the stream's keys are set over a session of the requester, and it is secure (R120, R121). -/
def execIdeKm (req : Nat) (s : State) : Res :=
  .next (if s.spdmUp req && s.gb.sessions.any (fun e => e.req == req) then
    (s.touchAll req).setIde (s.streamMates req) true else s)

/-- IDE_INTEGRITY_FAIL: a check fails on a head, and its stream becomes Insecure (R121). -/
def execIdeIntegrityFail (req : Nat) (s : State) : Res :=
  .next (
    if !s.present req || !s.link.ideSecure.contains req then s
    else
      let reqs := s.streamMates req
      let s := (s.setIde reqs false).postEvent 2 ⟨.memoryModule, FaultCode.ideFailure.code⟩ reqs
      s.advise .ideFailure 7 req)

end Sys2Proof.Machine
end

