-- ==== Sys2Proof/Machine/Registers.lean ====
section
/-! DEFINITION. BAR0 as a whole: what a write of any register does beyond its fields (R780), and what a read of any
register returns and changes (R779). -/

namespace Sys2Proof.Machine

open Sys2Proof

/-! ## Writes -/

/-- A write of GLOVEBOX_DBG_TOKEN: the device keeps what is written; the register reads zero. -/
def State.tokenAct (w : Written) (s : State) : State :=
  s.setReg .gbToken w.idx ((w.old &&& ~~~w.carried) ||| (w.val &&& w.carried))

/-- A write of REIN_CHIP: SET shows that ID has been written. -/
def State.chipAct (w : Written) (s : State) : State := if w.carried = 0 then s else s.setF .reinChip 0 4 1 1

/-- Steps 2 and 3 of R780 for a write of any register. `sigOk` and `host` are what DEBUG_SUBMIT and SQ_FLUSH take from
outside. -/
def State.regAct (sigOk : Bool) (host : List Line64) (w : Written) (s : State) : State :=
  match w.reg with
  | .sqCtl => s.sqCtlAct host w
  | .reinPortCtl => s.reinCtlAct w
  | .sqTail => s.doorbellAct w
  | .cqHead => s.headAct w
  | .stageCtl => s.stageCtlAct w
  | .stageDrvHandshake => s.handshakeAct w
  | .tackAudit => s.auditAct w
  | .stallCommit => s.commitAct w
  | .stallEdit => s.editAct w
  | .stallCapAssign => s.capAct w
  | .stallReset => s.stallResetAct w
  | .hitchForce => s.hitchForceAct w
  | .bridleCntCtl => s.bridleCntAct w
  | .reinChip => s.chipAct w
  | .gbOwnerCfg => s.ownerCfgAct w
  | .gbDebugCtl => s.debugAct sigOk w
  | .gbToken => s.tokenAct w
  | .dbgSession => s.sessionAct w
  | .dbgCmd => s.dbgCmdAct w
  | .dbgHalt => s.haltAct w
  | .dbgStep => s.stepAct w
  | .traceCtl => s.traceAct w
  | _ => s.enableAct w

/-- REGISTER_WRITE: a BAR0 write of `size` bytes at an offset. -/
def execRegisterWrite (req off size : Nat) (val : Word) (sigOk : Bool) (host : List Line64) (s : State) : Res :=
  .next (s.busWrite req off size val (State.regAct sigOk host))

/-! ## Fields that are computed when they are read -/

/-- A context or engine that waits on a hitch or a barrier. -/
def Ctx.onHitch (k : Ctx) : Bool :=
  k.ret.isNone && match k.wait with
    | .hitch .. | .monitor _ | .barrier .. => true
    | _ => false

/-- HITCH_STAT.WAITERS (R460). -/
def State.waiters (s : State) (st : Nat) : Nat :=
  ((s.cx.cores.filter fun c => s.coreStall c.1 == some st).map fun c =>
    (c.2.ctxs.filter fun e => e.2.onHitch).length + (c.2.spins.filter fun e => !e.2.woken).length).sum

/-- Tasks of a stall that run: started, and not saved (STALL_STATE, TASK_STAT). -/
def State.runningTasks (s : State) (st : Nat) : Nat :=
  (s.q.tasks.filter fun t => t.stall == st && t.phase != .waiting && t.phase != .saved).length

/-- Saved tasks of a stall. -/
def State.savedTasks (s : State) (st : Nat) : Nat := (s.q.tasks.filter fun t => t.stall == st && t.phase == .saved).length

/-- STALL_STATE. -/
def State.stallStateView (s : State) (st : Nat) : Word :=
  let clearing := s.gb.resetWait.contains st || bitAt (s.reg .stallReset 0) (16 + st)
    || (match s.gb.commit with | some c => c.losing.contains st | none => false)
  BitVec.ofNat 64 (min (s.runningTasks st) 0xFFFF + 2 ^ 16 * (Tbl.get 0 s.gb.keyGen (1 + st) % 256) + 2 ^ 24 * bit clearing)

/-- DEV_REQ: the access that reads it (R817). -/
def State.devReqView (s : State) (agent : Nat) : Word :=
  let kind := if 16 ≤ agent then 3 else match s.f .devLink 0 0 2 with
    | 1 => 2 | 2 => 1 | _ => 0
  BitVec.ofNat 64 ((if 16 ≤ agent then 0 else agent) + kind * 16 + bit (s.hasOwner agent) * 64)

/-- What a read of an instance returns: WO fields as zero, and the fields that show other state as that state is. -/
def State.readView (s : State) (agent : Nat) (r : Reg) (i : Nat) : Word :=
  let v := s.regOf agent r i &&& ~~~r.row.wo
  match r with
  | .devReq => s.devReqView agent
  | .gbNonce => Config.freeNonce s.gb.draws i
  | .stageStatus => s.stageStatusView
  | .stageReason => s.stageReasonView
  | .stallState => s.stallStateView i
  | .hitchStat => setFld v 0 9 (min (s.waiters i) 0x1FF)
  | .barrierState => s.hitch (s.barrierHitch i)
  | .streamQStat => setFld v 0 3 (s.streamQ (i / 8) (i % 8)).length
  | .sqStat => setFld v 48 5 ((s.sq i).accepted.filter fun c => !c.started).length
  | .hrnCtl => setFld v 16 16 (s.hrnUsers i)
  | .taskCfg => setFld v 48 16 ((s.saveUsed i + 2 ^ 20 - 1) / 2 ^ 20)
  | .taskStat => setFld (setFld v 0 6 (s.runningTasks i)) 16 16 (s.savedTasks i)
  | _ => v

/-! ## Reads (R9, R15, R779) -/

/-- The RC fields that a read of the whole register, or of its high half alone, clears. -/
def rcWhole (r : Reg) : List (Nat × Nat) := r.row.rc
def rcHigh (r : Reg) : List (Nat × Nat) := r.row.rc.filter fun e => 32 ≤ e.1

/-- A read of a log slot marks it read (RAS_LOG_PTR.OVERWRITTEN). -/
def State.markRead (s : State) (r : Reg) (i : Nat) : State :=
  if r = .rasLogEntry then { s with ras := { s.ras with readSlots := KSet.add (i / 8) s.ras.readSlots } } else s

/-- Clear RC fields. -/
def State.clearRc (s : State) (agent : Nat) (r : Reg) (i : Nat) (fs : List (Nat × Nat)) : State :=
  if fs.isEmpty then s else
  s.setRegOf agent r i (clearFields (s.regReset r i) (s.regOf agent r i) fs)

/-- Pending capture of an agent for a register (R9). -/
def State.capture (s : State) (agent off : Nat) : Option Word32 :=
  (s.caps.find? fun e => e.1 == agent && e.2.1 == off).map fun e => e.2.2

/-- Captures without an agent's for one register. -/
def State.dropCap (s : State) (agent off : Nat) : State :=
  { s with caps := s.caps.filter fun e => !(e.1 == agent && e.2.1 == off) }

/-- A BAR0 read: the value returned, and the state after its clears, captures and records. -/
def State.busRead (s : State) (agent off size : Nat) : Word × State :=
  let ones : Word := BitVec.ofNat 64 (2 ^ (8 * min size 8) - 1)
  match target off size with
  | .misaligned => (ones, s.refuseAccess agent off false false)
  | .reserved => (0, s.refuseAccess agent off false false)
  | .whole r i =>
    if !s.permits agent r i then (0, s.refuseAccess agent off false false) else
    (s.readView agent r i, (s.clearRc agent r i (rcWhole r)).markRead r i)
  | .low r i =>
    if !s.permits agent r i then (0, s.refuseAccess agent off false false) else
    let v := s.readView agent r i
    let t := ((s.clearRc agent r i (rcWhole r)).markRead r i).dropCap agent off
    (v &&& lowMask, { t with caps := (agent, off, (v >>> 32).setWidth 32) :: t.caps })
  | .high r i =>
    if !s.permits agent r i then (0, s.refuseAccess agent off false false) else
    match s.capture agent (off - 4) with
    | some h => (h.setWidth 64, s.dropCap agent (off - 4))
    | none => (s.readView agent r i >>> 32, (s.clearRc agent r i (rcHigh r)).markRead r i)

/-- REGISTER_READ_CAPTURE: a BAR0 read; the value leaves the card. -/
def execRegisterReadCapture (req off size : Nat) (s : State) : Res :=
  .next (if s.reaches req then
    let r := s.busRead req off size
    r.2.emit (.read req off size r.1.toNat false)
  else s)

end Sys2Proof.Machine
end

