-- ==== Sys2Proof/Machine/ScalarAlu.lean ====
section
/-! DEFINITION. Scalar ALU instructions, immediates and MOVW (R361 to R364). -/

namespace Sys2Proof.Machine

open Sys2Proof

/-- Shift count rs2[5:0] (R361). -/
def shiftCount (b : Word) : Nat := b.toNat % 64

/-- High half of the unsigned product. -/
def mulHighU (a b : Word) : Word := BitVec.ofNat 64 (a.toNat * b.toNat / 2 ^ 64)

/-- High half of the signed product. -/
def mulHighS (a b : Word) : Word := BitVec.ofInt 64 ((a.toInt * b.toInt) / 2 ^ 64)

/-- DIVU: all-ones on division by zero (R362). -/
def divU (a b : Word) : Word := if b = 0 then BitVec.allOnes 64 else a / b

/-- DIVS: all-ones on division by zero; -2^63 by -1 gives -2^63 (R362). -/
def divS (a b : Word) : Word := if b = 0 then BitVec.allOnes 64 else BitVec.ofInt 64 (a.toInt.tdiv b.toInt)

/-- REMU: rs1 on division by zero (R362). -/
def remU (a b : Word) : Word := if b = 0 then a else a % b

/-- REMS: rs1 on division by zero; -2^63 by -1 gives 0 (R362). -/
def remS (a b : Word) : Word := if b = 0 then a else BitVec.ofInt 64 (a.toInt.tmod b.toInt)

/-- Leading zeros, 0 to 64. -/
def leadingZeros (a : Word) : Nat := if a = 0 then 64 else 63 - a.toNat.log2

/-- Trailing zeros, 0 to 64. -/
def trailingZeros (a : Word) : Nat :=
  match (List.range 64).find? a.toNat.testBit with
  | some n => n
  | none => 64

/-- Set bits. -/
def setBits (a : Word) : Nat := ((List.range 64).filter a.toNat.testBit).length

/-- ADD: rd := rs1 + rs2 (R361). -/
def execAdd (i : Issue) (s : State) : Res := .next (alu i .add (fun a b => a + b) s)

/-- SUB: rd := rs1 - rs2 (R361). -/
def execSub (i : Issue) (s : State) : Res := .next (alu i .sub (fun a b => a - b) s)

/-- AND: rd := rs1 AND rs2 (R361). -/
def execAnd (i : Issue) (s : State) : Res := .next (alu i .and (fun a b => a &&& b) s)

/-- OR: rd := rs1 OR rs2 (R361). -/
def execOr (i : Issue) (s : State) : Res := .next (alu i .or (fun a b => a ||| b) s)

/-- XOR: rd := rs1 XOR rs2 (R361). -/
def execXor (i : Issue) (s : State) : Res := .next (alu i .xor (fun a b => a ^^^ b) s)

/-- ANDN: rd := rs1 AND NOT rs2 (R361). -/
def execAndn (i : Issue) (s : State) : Res := .next (alu i .andn (fun a b => a &&& ~~~b) s)

/-- SLL: rd := shift left by rs2[5:0] (R361). -/
def execSll (i : Issue) (s : State) : Res := .next (alu i .sll (fun a b => a <<< shiftCount b) s)

/-- SRL: rd := logical shift right (R361). -/
def execSrl (i : Issue) (s : State) : Res := .next (alu i .srl (fun a b => a >>> shiftCount b) s)

/-- SRA: rd := arithmetic shift right (R361). -/
def execSra (i : Issue) (s : State) : Res := .next (alu i .sra (fun a b => a.sshiftRight (shiftCount b)) s)

/-- ROR: rd := rotate right (R361). -/
def execRor (i : Issue) (s : State) : Res := .next (alu i .ror (fun a b => a.rotateRight (shiftCount b)) s)

/-- MUL: rd := low 64 bits of the product (R361). -/
def execMul (i : Issue) (s : State) : Res := .next (alu i .mul (fun a b => a * b) s)

/-- MULHU: rd := high 64 bits of the unsigned product (R361). -/
def execMulhu (i : Issue) (s : State) : Res := .next (alu i .mulhu (fun a b => mulHighU a b) s)

/-- MULHS: rd := high 64 bits of the signed product (R361). -/
def execMulhs (i : Issue) (s : State) : Res := .next (alu i .mulhs (fun a b => mulHighS a b) s)

/-- DIVU: rd := unsigned quotient (R362) (R361). -/
def execDivu (i : Issue) (s : State) : Res := .next (alu i .divu (fun a b => divU a b) s)

/-- DIVS: rd := signed quotient, rounded toward zero (R362) (R361). -/
def execDivs (i : Issue) (s : State) : Res := .next (alu i .divs (fun a b => divS a b) s)

/-- REMU: rd := unsigned remainder (R362) (R361). -/
def execRemu (i : Issue) (s : State) : Res := .next (alu i .remu (fun a b => remU a b) s)

/-- REMS: rd := signed remainder (R362) (R361). -/
def execRems (i : Issue) (s : State) : Res := .next (alu i .rems (fun a b => remS a b) s)

/-- MIN: rd := signed minimum (R361). -/
def execMin (i : Issue) (s : State) : Res := .next (alu i .min (fun a b => if a.toInt ≤ b.toInt then a else b) s)

/-- MAX: rd := signed maximum (R361). -/
def execMax (i : Issue) (s : State) : Res := .next (alu i .max (fun a b => if a.toInt ≤ b.toInt then b else a) s)

/-- MINU: rd := unsigned minimum (R361). -/
def execMinu (i : Issue) (s : State) : Res := .next (alu i .minu (fun a b => if a.toNat ≤ b.toNat then a else b) s)

/-- MAXU: rd := unsigned maximum (R361). -/
def execMaxu (i : Issue) (s : State) : Res := .next (alu i .maxu (fun a b => if a.toNat ≤ b.toNat then b else a) s)

/-- CLZ: rd := leading zeros of rs1 (R361). -/
def execClz (i : Issue) (s : State) : Res := .next (alu i .clz (fun a _ => BitVec.ofNat 64 (leadingZeros a)) s)

/-- CTZ: rd := trailing zeros of rs1 (R361). -/
def execCtz (i : Issue) (s : State) : Res := .next (alu i .ctz (fun a _ => BitVec.ofNat 64 (trailingZeros a)) s)

/-- POPC: rd := set bits of rs1 (R361). -/
def execPopc (i : Issue) (s : State) : Res := .next (alu i .popc (fun a _ => BitVec.ofNat 64 (setBits a)) s)

/-- SEXTB: rd := sign extension of rs1[7:0] (R361). -/
def execSextb (i : Issue) (s : State) : Res := .next (alu i .sextb (fun a _ => sext 8 a.toNat) s)

/-- SEXTH: rd := sign extension of rs1[15:0] (R361). -/
def execSexth (i : Issue) (s : State) : Res := .next (alu i .sexth (fun a _ => sext 16 a.toNat) s)

/-- SEXTW: rd := sign extension of rs1[31:0] (R361). -/
def execSextw (i : Issue) (s : State) : Res := .next (alu i .sextw (fun a _ => sext 32 a.toNat) s)

/-- ZEXTW: rd := zero extension of rs1[31:0] (R361). -/
def execZextw (i : Issue) (s : State) : Res := .next (alu i .zextw (fun a _ => (a.setWidth 32).setWidth 64) s)

/-- ADDW: rd := 32-bit sum, sign-extended (R361). -/
def execAddw (i : Issue) (s : State) : Res := .next (alu i .addw (fun a b => sext 32 (a + b).toNat) s)

/-- SUBW: rd := 32-bit difference, sign-extended (R361). -/
def execSubw (i : Issue) (s : State) : Res := .next (alu i .subw (fun a b => sext 32 (a - b).toNat) s)

/-- SLT: rd := 1 if rs1 < rs2 signed (R361). -/
def execSlt (i : Issue) (s : State) : Res := .next (alu i .slt (fun a b => if a.toInt < b.toInt then 1 else 0) s)

/-- SLTU: rd := 1 if rs1 < rs2 unsigned (R361). -/
def execSltu (i : Issue) (s : State) : Res := .next (alu i .sltu (fun a b => if a.toNat < b.toNat then 1 else 0) s)

/-- IMM12, sign-extended (R355). -/
def imm12 (w : Word) : Word := sext 12 (ib w 0 12)

/-- ADDI: rd := rs1 + IMM12 (R363). -/
def execAddi (i : Issue) (s : State) : Res := .next (aluImm i .addi (fun a w => a + imm12 w) s)

/-- ANDI: rd := rs1 AND IMM12 (R363). -/
def execAndi (i : Issue) (s : State) : Res := .next (aluImm i .andi (fun a w => a &&& imm12 w) s)

/-- ORI: rd := rs1 OR IMM12 (R363). -/
def execOri (i : Issue) (s : State) : Res := .next (aluImm i .ori (fun a w => a ||| imm12 w) s)

/-- XORI: rd := rs1 XOR IMM12 (R363). -/
def execXori (i : Issue) (s : State) : Res := .next (aluImm i .xori (fun a w => a ^^^ imm12 w) s)

/-- The shift that SHI names: count IMM12[5:0], kind IMM12[7:6] (R363). -/
def shiftImm (a w : Word) : Word :=
  let n := ib w 0 6
  match ib w 6 2 with
  | 0 => a <<< n
  | 1 => a >>> n
  | 2 => a.sshiftRight n
  | _ => a.rotateRight n

/-- SHI: shift or rotate by an immediate count (R363). -/
def execShi (i : Issue) (s : State) : Res := .next (aluImm i .shi shiftImm s)

/-- MOVW: rd := IMM16 << 16 × HW, or with K = 1 those 16 bits of rd replaced, keeping its poison (R364). -/
def execMovw (i : Issue) (s : State) : Res :=
  .next (issueOf i .movw (fun x s =>
    let rd := ib x.w 21 5
    let old := x.k.rg rd
    let lo := 16 * ib x.w 19 2
    let keep := bitAt x.w 18
    let v := setFld (if keep then old.1 else 0) lo 16 (ib x.w 0 16)
    x.next s fun k => k.wg rd v (keep && old.2)) s)

end Sys2Proof.Machine
end

