-- ==== Sys2Proof/Machine/Dispatch.lean ====
section
/-! DEFINITION. The dispatch table: one arm per constructor of Instr. -/

namespace Sys2Proof.Machine

open Sys2Proof

def exec (i : Instr) (s : State) : Host.Outcome State Fault Refusal :=
  match i with
  | .registerWrite req off size val sigOk host => Sys2Proof.Machine.execRegisterWrite req off size val sigOk host s
  | .registerReadCapture req off size => Sys2Proof.Machine.execRegisterReadCapture req off size s
  | .configRequest req fn => Sys2Proof.Machine.execConfigRequest req fn s
  | .coldPowerOn => Sys2Proof.Machine.execColdPowerOn s
  | .supplyDrop => Sys2Proof.Machine.execSupplyDrop s
  | .tamper monitor => Sys2Proof.Machine.execTamper monitor s
  | .auxDetect present => Sys2Proof.Machine.execAuxDetect present s
  | .v12bUndervoltage low => Sys2Proof.Machine.execV12bUndervoltage low s
  | .perstAssert pin1 => Sys2Proof.Machine.execPerstAssert pin1 s
  | .perstDeassert pin1 => Sys2Proof.Machine.execPerstDeassert pin1 s
  | .walkEntry restored failed => Sys2Proof.Machine.execWalkEntry restored failed s
  | .imageVerify img => Sys2Proof.Machine.execImageVerify img s
  | .mgmtStartTimeout => Sys2Proof.Machine.execMgmtStartTimeout s
  | .ctrlStartTimeout => Sys2Proof.Machine.execCtrlStartTimeout s
  | .vrNotReady => Sys2Proof.Machine.execVrNotReady s
  | .trotEntry => Sys2Proof.Machine.execTrotEntry s
  | .bistComplete failMask => Sys2Proof.Machine.execBistComplete failMask s
  | .canterEntry => Sys2Proof.Machine.execCanterEntry s
  | .restage req val => Sys2Proof.Machine.execRestage req val s
  | .drvHandshake req size high val => Sys2Proof.Machine.execDrvHandshake req size high val s
  | .f1Flr => Sys2Proof.Machine.execF1Flr s
  | .f0Flr req => Sys2Proof.Machine.execF0Flr req s
  | .f1D3hot => Sys2Proof.Machine.execF1D3hot s
  | .f1D0Return => Sys2Proof.Machine.execF1D0Return s
  | .f0D3hot req => Sys2Proof.Machine.execF0D3hot req s
  | .requesterReset req => Sys2Proof.Machine.execRequesterReset req s
  | .ldBind ld => Sys2Proof.Machine.execLdBind ld s
  | .memRd req dpa mv => Sys2Proof.Machine.execMemRd req dpa mv s
  | .memWr req dpa mv data poison => Sys2Proof.Machine.execMemWr req dpa mv data poison s
  | .dcohRequestServe line => Sys2Proof.Machine.execDcohRequestServe line s
  | .birsp req line rsp wb => Sys2Proof.Machine.execBirsp req line rsp wb s
  | .biconflict req line => Sys2Proof.Machine.execBiconflict req line s
  | .biTimeout req line => Sys2Proof.Machine.execBiTimeout req line s
  | .ideIntegrityFail req => Sys2Proof.Machine.execIdeIntegrityFail req s
  | .ideKm req => Sys2Proof.Machine.execIdeKm req s
  | .bar2PaddockAccess req off size write => Sys2Proof.Machine.execBar2PaddockAccess req off size write s
  | .rslotAck req off size val => Sys2Proof.Machine.execRslotAck req off size val s
  | .hostReadError who => Sys2Proof.Machine.execHostReadError who s
  | .initiateDynamicCapacityAdd agent blocks region reqs share => Sys2Proof.Machine.execInitiateDynamicCapacityAdd agent blocks region reqs share s
  | .extentOffer ext => Sys2Proof.Machine.execExtentOffer ext s
  | .initiateDynamicCapacityRelease agent ext req forced => Sys2Proof.Machine.execInitiateDynamicCapacityRelease agent ext req forced s
  | .addDynamicCapacityResponse req ext accept => Sys2Proof.Machine.execAddDynamicCapacityResponse req ext accept s
  | .releaseDynamicCapacity req ext => Sys2Proof.Machine.execReleaseDynamicCapacity req ext s
  | .getDynamicCapacityConfiguration req => Sys2Proof.Machine.execGetDynamicCapacityConfiguration req s
  | .getDynamicCapacityExtentList req => Sys2Proof.Machine.execGetDynamicCapacityExtentList req s
  | .getEventRecords req log => Sys2Proof.Machine.execGetEventRecords req log s
  | .clearEventRecords req log n => Sys2Proof.Machine.execClearEventRecords req log n s
  | .getEventInterruptPolicy req => Sys2Proof.Machine.execGetEventInterruptPolicy req s
  | .setEventInterruptPolicy req policy => Sys2Proof.Machine.execSetEventInterruptPolicy req policy s
  | .getTimestamp req => Sys2Proof.Machine.execGetTimestamp req s
  | .setTimestamp req stamp => Sys2Proof.Machine.execSetTimestamp req stamp s
  | .getSupportedLogs req => Sys2Proof.Machine.execGetSupportedLogs req s
  | .getLog req effects => Sys2Proof.Machine.execGetLog req effects s
  | .getFwInfo req => Sys2Proof.Machine.execGetFwInfo req s
  | .transferFw req => Sys2Proof.Machine.execTransferFw req s
  | .activateFw req => Sys2Proof.Machine.execActivateFw req s
  | .identifyMemoryDevice req => Sys2Proof.Machine.execIdentifyMemoryDevice req s
  | .getHealthInfo req => Sys2Proof.Machine.execGetHealthInfo req s
  | .getAlertConfiguration req => Sys2Proof.Machine.execGetAlertConfiguration req s
  | .setAlertConfiguration req cfg => Sys2Proof.Machine.execSetAlertConfiguration req cfg s
  | .getPoisonList req dpa len => Sys2Proof.Machine.execGetPoisonList req dpa len s
  | .injectPoison req dpa => Sys2Proof.Machine.execInjectPoison req dpa s
  | .clearPoison req dpa data => Sys2Proof.Machine.execClearPoison req dpa data s
  | .scanMedia req dpa len => Sys2Proof.Machine.execScanMedia req dpa len s
  | .getScanMediaResults req => Sys2Proof.Machine.execGetScanMediaResults req s
  | .sanitize req => Sys2Proof.Machine.execSanitize req s
  | .sanitizeDone req => Sys2Proof.Machine.execSanitizeDone req s
  | .secureErase req => Sys2Proof.Machine.execSecureErase req s
  | .unsupportedMailboxCommand req opcode => Sys2Proof.Machine.execUnsupportedMailboxCommand req opcode s
  | .ownerClaim req sid => Sys2Proof.Machine.execOwnerClaim req sid s
  | .keyExchange req sid key mutualAuth => Sys2Proof.Machine.execKeyExchange req sid key mutualAuth s
  | .endSession req sid => Sys2Proof.Machine.execEndSession req sid s
  | .heartbeat req sid => Sys2Proof.Machine.execHeartbeat req sid s
  | .ownerSessionTimeout sid => Sys2Proof.Machine.execOwnerSessionTimeout sid s
  | .getMeasurements req => Sys2Proof.Machine.execGetMeasurements req s
  | .spdmRequest req code => Sys2Proof.Machine.execSpdmRequest req code s
  | .ownerRelease req val => Sys2Proof.Machine.execOwnerRelease req val s
  | .capAssign req val => Sys2Proof.Machine.execCapAssign req val s
  | .editTake req => Sys2Proof.Machine.execEditTake req s
  | .editDrop req => Sys2Proof.Machine.execEditDrop req s
  | .stallDiscard req => Sys2Proof.Machine.execStallDiscard req s
  | .stallCommit req => Sys2Proof.Machine.execStallCommit req s
  | .commitComplete => Sys2Proof.Machine.execCommitComplete s
  | .stallReset req val => Sys2Proof.Machine.execStallReset req val s
  | .debugSubmit req sigOk conn => Sys2Proof.Machine.execDebugSubmit req sigOk conn s
  | .sqEnable req n val => Sys2Proof.Machine.execSqEnable req n val s
  | .sqDisable req n val => Sys2Proof.Machine.execSqDisable req n val s
  | .cqEnable req n val => Sys2Proof.Machine.execCqEnable req n val s
  | .cqDisable req n val => Sys2Proof.Machine.execCqDisable req n val s
  | .streamQEnable req n val => Sys2Proof.Machine.execStreamQEnable req n val s
  | .streamQDisable req n val => Sys2Proof.Machine.execStreamQDisable req n val s
  | .ringEnable req n val => Sys2Proof.Machine.execRingEnable req n val s
  | .ringDisable req n val => Sys2Proof.Machine.execRingDisable req n val s
  | .barrierEnable req n val => Sys2Proof.Machine.execBarrierEnable req n val s
  | .barrierDisable req n val => Sys2Proof.Machine.execBarrierDisable req n val s
  | .hitchCfgEnable req n val => Sys2Proof.Machine.execHitchCfgEnable req n val s
  | .kvPoolEnable req n val => Sys2Proof.Machine.execKvPoolEnable req n val s
  | .kvPoolDisable req n val => Sys2Proof.Machine.execKvPoolDisable req n val s
  | .hrnEnable req n val => Sys2Proof.Machine.execHrnEnable req n val s
  | .bridleEnable req n val => Sys2Proof.Machine.execBridleEnable req n val s
  | .reinPortEnable req n val => Sys2Proof.Machine.execReinPortEnable req n val s
  | .reinPortDisable req n val => Sys2Proof.Machine.execReinPortDisable req n val s
  | .vrEnable req val => Sys2Proof.Machine.execVrEnable req val s
  | .vrDisable req val => Sys2Proof.Machine.execVrDisable req val s
  | .fanEnable req val => Sys2Proof.Machine.execFanEnable req val s
  | .thermEnable req val => Sys2Proof.Machine.execThermEnable req val s
  | .tackCheckComplete block => Sys2Proof.Machine.execTackCheckComplete block s
  | .tackAudit req => Sys2Proof.Machine.execTackAudit req s
  | .auditComplete => Sys2Proof.Machine.execAuditComplete s
  | .dmaSlotAccess core host => Sys2Proof.Machine.execDmaSlotAccess core host s
  | .cmdmaTakeEffect core => Sys2Proof.Machine.execCmdmaTakeEffect core s
  | .paddockBankAccess slice bank => Sys2Proof.Machine.execPaddockBankAccess slice bank s
  | .tagRetry core unit ctx meet => Sys2Proof.Machine.execTagRetry core unit ctx meet s
  | .tagWaitRejoin slice => Sys2Proof.Machine.execTagWaitRejoin slice s
  | .tagWaitReturn slice => Sys2Proof.Machine.execTagWaitReturn slice s
  | .tagTimeout core unit ctx => Sys2Proof.Machine.execTagTimeout core unit ctx s
  | .creditTimeout core unit ctx => Sys2Proof.Machine.execCreditTimeout core unit ctx s
  | .ringResvGrant ring => Sys2Proof.Machine.execRingResvGrant ring s
  | .eccWriteback mem who addr finder bad staged => Sys2Proof.Machine.execEccWriteback mem who addr finder bad staged s
  | .onchipScrub unit found => Sys2Proof.Machine.execOnchipScrub unit found s
  | .dramPatrol ch found => Sys2Proof.Machine.execDramPatrol ch found s
  | .scrubLate unit => Sys2Proof.Machine.execScrubLate unit s
  | .dramPatrolLate ch => Sys2Proof.Machine.execDramPatrolLate ch s
  | .engineIssue x => Sys2Proof.Machine.execEngineIssue x s
  | .add x => Sys2Proof.Machine.execAdd x s
  | .sub x => Sys2Proof.Machine.execSub x s
  | .and x => Sys2Proof.Machine.execAnd x s
  | .or x => Sys2Proof.Machine.execOr x s
  | .xor x => Sys2Proof.Machine.execXor x s
  | .andn x => Sys2Proof.Machine.execAndn x s
  | .sll x => Sys2Proof.Machine.execSll x s
  | .srl x => Sys2Proof.Machine.execSrl x s
  | .sra x => Sys2Proof.Machine.execSra x s
  | .ror x => Sys2Proof.Machine.execRor x s
  | .mul x => Sys2Proof.Machine.execMul x s
  | .mulhu x => Sys2Proof.Machine.execMulhu x s
  | .mulhs x => Sys2Proof.Machine.execMulhs x s
  | .divu x => Sys2Proof.Machine.execDivu x s
  | .divs x => Sys2Proof.Machine.execDivs x s
  | .remu x => Sys2Proof.Machine.execRemu x s
  | .rems x => Sys2Proof.Machine.execRems x s
  | .min x => Sys2Proof.Machine.execMin x s
  | .max x => Sys2Proof.Machine.execMax x s
  | .minu x => Sys2Proof.Machine.execMinu x s
  | .maxu x => Sys2Proof.Machine.execMaxu x s
  | .clz x => Sys2Proof.Machine.execClz x s
  | .ctz x => Sys2Proof.Machine.execCtz x s
  | .popc x => Sys2Proof.Machine.execPopc x s
  | .sextb x => Sys2Proof.Machine.execSextb x s
  | .sexth x => Sys2Proof.Machine.execSexth x s
  | .sextw x => Sys2Proof.Machine.execSextw x s
  | .zextw x => Sys2Proof.Machine.execZextw x s
  | .addw x => Sys2Proof.Machine.execAddw x s
  | .subw x => Sys2Proof.Machine.execSubw x s
  | .slt x => Sys2Proof.Machine.execSlt x s
  | .sltu x => Sys2Proof.Machine.execSltu x s
  | .addi x => Sys2Proof.Machine.execAddi x s
  | .andi x => Sys2Proof.Machine.execAndi x s
  | .ori x => Sys2Proof.Machine.execOri x s
  | .xori x => Sys2Proof.Machine.execXori x s
  | .shi x => Sys2Proof.Machine.execShi x s
  | .movw x => Sys2Proof.Machine.execMovw x s
  | .cmp x => Sys2Proof.Machine.execCmp x s
  | .cmpi x => Sys2Proof.Machine.execCmpi x s
  | .plog x => Sys2Proof.Machine.execPlog x s
  | .prd x => Sys2Proof.Machine.execPrd x s
  | .pwr x => Sys2Proof.Machine.execPwr x s
  | .br x => Sys2Proof.Machine.execBr x s
  | .bal x => Sys2Proof.Machine.execBal x s
  | .jr x => Sys2Proof.Machine.execJr x s
  | .jalr x => Sys2Proof.Machine.execJalr x s
  | .ld x => Sys2Proof.Machine.execLd x s
  | .st x => Sys2Proof.Machine.execSt x s
  | .ldx x => Sys2Proof.Machine.execLdx x s
  | .stx x => Sys2Proof.Machine.execStx x s
  | .aaddW x => Sys2Proof.Machine.execAaddW x s
  | .aaddWR x => Sys2Proof.Machine.execAaddWR x s
  | .aaddD x => Sys2Proof.Machine.execAaddD x s
  | .aaddDR x => Sys2Proof.Machine.execAaddDR x s
  | .afaddS x => Sys2Proof.Machine.execAfaddS x s
  | .afaddSR x => Sys2Proof.Machine.execAfaddSR x s
  | .afxaddD x => Sys2Proof.Machine.execAfxaddD x s
  | .afxaddS x => Sys2Proof.Machine.execAfxaddS x s
  | .aswapW x => Sys2Proof.Machine.execAswapW x s
  | .aswapD x => Sys2Proof.Machine.execAswapD x s
  | .vget x => Sys2Proof.Machine.execVget x s
  | .vput x => Sys2Proof.Machine.execVput x s
  | .ptst x => Sys2Proof.Machine.execPtst x s
  | .vpmask x => Sys2Proof.Machine.execVpmask x s
  | .crr x => Sys2Proof.Machine.execCrr x s
  | .crw x => Sys2Proof.Machine.execCrw x s
  | .yield x => Sys2Proof.Machine.execYield x s
  | .ctxgo x => Sys2Proof.Machine.execCtxgo x s
  | .ctxend x => Sys2Proof.Machine.execCtxend x s
  | .drain x => Sys2Proof.Machine.execDrain x s
  | .abort x => Sys2Proof.Machine.execAbort x s
  | .tld x => Sys2Proof.Machine.execTld x s
  | .tst x => Sys2Proof.Machine.execTst x s
  | .tset x => Sys2Proof.Machine.execTset x s
  | .tclr x => Sys2Proof.Machine.execTclr x s
  | .tprobe x => Sys2Proof.Machine.execTprobe x s
  | .ringResv x => Sys2Proof.Machine.execRingResv x s
  | .ringFill x => Sys2Proof.Machine.execRingFill x s
  | .ringPush x => Sys2Proof.Machine.execRingPush x s
  | .ringPop x => Sys2Proof.Machine.execRingPop x s
  | .ringPeek x => Sys2Proof.Machine.execRingPeek x s
  | .ringState x => Sys2Proof.Machine.execRingState x s
  | .hrd x => Sys2Proof.Machine.execHrd x s
  | .hwr x => Sys2Proof.Machine.execHwr x s
  | .hadd x => Sys2Proof.Machine.execHadd x s
  | .haddn x => Sys2Proof.Machine.execHaddn x s
  | .hwaitGe x => Sys2Proof.Machine.execHwaitGe x s
  | .hwaitEq x => Sys2Proof.Machine.execHwaitEq x s
  | .hwaitNe x => Sys2Proof.Machine.execHwaitNe x s
  | .hmon x => Sys2Proof.Machine.execHmon x s
  | .hmwait x => Sys2Proof.Machine.execHmwait x s
  | .hmclr x => Sys2Proof.Machine.execHmclr x s
  | .hitchReleaseSeen core => Sys2Proof.Machine.execHitchReleaseSeen core s
  | .contextWake core ctx data poison => Sys2Proof.Machine.execContextWake core ctx data poison s
  | .mxLda core meet => Sys2Proof.Machine.execMxLda core meet s
  | .mxLdb core meet => Sys2Proof.Machine.execMxLdb core meet s
  | .mxLdc core meet => Sys2Proof.Machine.execMxLdc core meet s
  | .mxMma core => Sys2Proof.Machine.execMxMma core s
  | .mxDrain core meet => Sys2Proof.Machine.execMxDrain core meet s
  | .mxZero core => Sys2Proof.Machine.execMxZero core s
  | .vadd core => Sys2Proof.Machine.execVadd core s
  | .vsub core => Sys2Proof.Machine.execVsub core s
  | .vmul core => Sys2Proof.Machine.execVmul core s
  | .vmin core => Sys2Proof.Machine.execVmin core s
  | .vmax core => Sys2Proof.Machine.execVmax core s
  | .vand core => Sys2Proof.Machine.execVand core s
  | .vor core => Sys2Proof.Machine.execVor core s
  | .vxor core => Sys2Proof.Machine.execVxor core s
  | .vsll core => Sys2Proof.Machine.execVsll core s
  | .vsrl core => Sys2Proof.Machine.execVsrl core s
  | .vsra core => Sys2Proof.Machine.execVsra core s
  | .vabs core => Sys2Proof.Machine.execVabs core s
  | .vneg core => Sys2Proof.Machine.execVneg core s
  | .vmov core => Sys2Proof.Machine.execVmov core s
  | .vsplat core => Sys2Proof.Machine.execVsplat core s
  | .viota core => Sys2Proof.Machine.execViota core s
  | .vcmpeq core => Sys2Proof.Machine.execVcmpeq core s
  | .vcmplt core => Sys2Proof.Machine.execVcmplt core s
  | .vcmple core => Sys2Proof.Machine.execVcmple core s
  | .vsel core => Sys2Proof.Machine.execVsel core s
  | .vfma core => Sys2Proof.Machine.execVfma core s
  | .vfms core => Sys2Proof.Machine.execVfms core s
  | .vfnma core => Sys2Proof.Machine.execVfnma core s
  | .vrsum core => Sys2Proof.Machine.execVrsum core s
  | .vrmax core => Sys2Proof.Machine.execVrmax core s
  | .vrmin core => Sys2Proof.Machine.execVrmin core s
  | .vexp2 core => Sys2Proof.Machine.execVexp2 core s
  | .vlog2 core => Sys2Proof.Machine.execVlog2 core s
  | .vrcp core => Sys2Proof.Machine.execVrcp core s
  | .vrsqrt core => Sys2Proof.Machine.execVrsqrt core s
  | .vsqrt core => Sys2Proof.Machine.execVsqrt core s
  | .vld core meet => Sys2Proof.Machine.execVld core meet s
  | .vldC core meet => Sys2Proof.Machine.execVldC core meet s
  | .vldP core meet => Sys2Proof.Machine.execVldP core meet s
  | .vst core meet => Sys2Proof.Machine.execVst core meet s
  | .vstF core meet => Sys2Proof.Machine.execVstF core meet s
  | .vcvt core => Sys2Proof.Machine.execVcvt core s
  | .vmxq core => Sys2Proof.Machine.execVmxq core s
  | .vslide core => Sys2Proof.Machine.execVslide core s
  | .vbexp core => Sys2Proof.Machine.execVbexp core s
  | .vpscore core => Sys2Proof.Machine.execVpscore core s
  | .vaaddW core meet => Sys2Proof.Machine.execVaaddW core meet s
  | .vaaddWR core meet => Sys2Proof.Machine.execVaaddWR core meet s
  | .vaaddD core meet => Sys2Proof.Machine.execVaaddD core meet s
  | .vaaddDR core meet => Sys2Proof.Machine.execVaaddDR core meet s
  | .vfxadd core meet => Sys2Proof.Machine.execVfxadd core meet s
  | .vfxaddR core meet => Sys2Proof.Machine.execVfxaddR core meet s
  | .carouselStep core => Sys2Proof.Machine.execCarouselStep core s
  | .barArrive x eng => Sys2Proof.Machine.execBarArrive x eng s
  | .barWait x eng => Sys2Proof.Machine.execBarWait x eng s
  | .barSync x eng => Sys2Proof.Machine.execBarSync x eng s
  | .barrierWake core unit ctx => Sys2Proof.Machine.execBarrierWake core unit ctx s
  | .streamGo core => Sys2Proof.Machine.execStreamGo core s
  | .streamCancel core => Sys2Proof.Machine.execStreamCancel core s
  | .mset core => Sys2Proof.Machine.execMset core s
  | .mcopy core => Sys2Proof.Machine.execMcopy core s
  | .kvWalk core q => Sys2Proof.Machine.execKvWalk core q s
  | .kvAppend core src pos => Sys2Proof.Machine.execKvAppend core src pos s
  | .streamRun core q => Sys2Proof.Machine.execStreamRun core q s
  | .blockListEntryRead core q => Sys2Proof.Machine.execBlockListEntryRead core q s
  | .transferIssue core => Sys2Proof.Machine.execTransferIssue core s
  | .dmaTransferComplete core id host => Sys2Proof.Machine.execDmaTransferComplete core id host s
  | .prefetchCommit core q => Sys2Proof.Machine.execPrefetchCommit core q s
  | .cpFetch host => Sys2Proof.Machine.execCpFetch host s
  | .commandAccept sq => Sys2Proof.Machine.execCommandAccept sq s
  | .sqDoorbell req n val => Sys2Proof.Machine.execSqDoorbell req n val s
  | .cqHeadWrite req n val => Sys2Proof.Machine.execCqHeadWrite req n val s
  | .sqFlush req n val host => Sys2Proof.Machine.execSqFlush req n val host s
  | .cqIrqTimer cq => Sys2Proof.Machine.execCqIrqTimer cq s
  | .nop sq => Sys2Proof.Machine.execNop sq s
  | .memFill sq => Sys2Proof.Machine.execMemFill sq s
  | .memCopy sq host => Sys2Proof.Machine.execMemCopy sq host s
  | .hrnLoad sq host => Sys2Proof.Machine.execHrnLoad sq host s
  | .hrnUnload sq => Sys2Proof.Machine.execHrnUnload sq s
  | .taskRun sq => Sys2Proof.Machine.execTaskRun sq s
  | .taskStart sq => Sys2Proof.Machine.execTaskStart sq s
  | .taskEnd task host ep => Sys2Proof.Machine.execTaskEnd task host ep s
  | .taskPreempt sq => Sys2Proof.Machine.execTaskPreempt sq s
  | .taskSave task => Sys2Proof.Machine.execTaskSave task s
  | .taskResume sq => Sys2Proof.Machine.execTaskResume sq s
  | .taskKill sq => Sys2Proof.Machine.execTaskKill sq s
  | .taskTimeout task => Sys2Proof.Machine.execTaskTimeout task s
  | .kvSeqOpen sq => Sys2Proof.Machine.execKvSeqOpen sq s
  | .kvSeqClose sq => Sys2Proof.Machine.execKvSeqClose sq s
  | .kvSeqSet sq => Sys2Proof.Machine.execKvSeqSet sq s
  | .kvCommit sq host => Sys2Proof.Machine.execKvCommit sq host s
  | .kvCommitProceed sq => Sys2Proof.Machine.execKvCommitProceed sq s
  | .kvBatch sq => Sys2Proof.Machine.execKvBatch sq s
  | .kvDrop sq => Sys2Proof.Machine.execKvDrop sq s
  | .kvSeqRead sq => Sys2Proof.Machine.execKvSeqRead sq s
  | .bridleGrant arb occ room supply reqs => Sys2Proof.Machine.execBridleGrant arb occ room supply reqs s
  | .bridleHoldLimit arb => Sys2Proof.Machine.execBridleHoldLimit arb s
  | .ldQosInterval => Sys2Proof.Machine.execLdQosInterval s
  | .bridleCounterClear req val => Sys2Proof.Machine.execBridleCounterClear req val s
  | .dataFlit port crcOk f => Sys2Proof.Machine.execDataFlit port crcOk f s
  | .idleFlit port crcOk f => Sys2Proof.Machine.execIdleFlit port crcOk f s
  | .nak port crcOk f => Sys2Proof.Machine.execNak port crcOk f s
  | .replayTimeout port => Sys2Proof.Machine.execReplayTimeout port s
  | .init port chip topo dateline fresh rev ack free => Sys2Proof.Machine.execInit port chip topo dateline fresh rev ack free s
  | .initResend port => Sys2Proof.Machine.execInitResend port s
  | .reinTrainTimeout port => Sys2Proof.Machine.execReinTrainTimeout port s
  | .credSync port fseq free0 free1 epoch => Sys2Proof.Machine.execCredSync port fseq free0 free1 epoch s
  | .syncAck port epoch => Sys2Proof.Machine.execSyncAck port epoch s
  | .credSyncResend port => Sys2Proof.Machine.execCredSyncResend port s
  | .down port => Sys2Proof.Machine.execDown port s
  | .credRebuild req n val => Sys2Proof.Machine.execCredRebuild req n val s
  | .retrain port write => Sys2Proof.Machine.execRetrain port write s
  | .reinDownLimit port => Sys2Proof.Machine.execReinDownLimit port s
  | .reinLinkDown port cause => Sys2Proof.Machine.execReinLinkDown port cause s
  | .packetForward port => Sys2Proof.Machine.execPacketForward port s
  | .rfill port => Sys2Proof.Machine.execRfill port s
  | .remoteHwr port => Sys2Proof.Machine.execRemoteHwr port s
  | .remoteHadd port => Sys2Proof.Machine.execRemoteHadd port s
  | .rrel port => Sys2Proof.Machine.execRrel port s
  | .rd port => Sys2Proof.Machine.execRd port s
  | .rresv port => Sys2Proof.Machine.execRresv port s
  | .rdata port => Sys2Proof.Machine.execRdata port s
  | .rgnt port => Sys2Proof.Machine.execRgnt port s
  | .wack port => Sys2Proof.Machine.execWack port s
  | .rresvRetry unit tag => Sys2Proof.Machine.execRresvRetry unit tag s
  | .reinTimeout unit tag => Sys2Proof.Machine.execReinTimeout unit tag s
  | .computeFence cause => Sys2Proof.Machine.execComputeFence cause s
  | .taskAbort task => Sys2Proof.Machine.execTaskAbort task s
  | .classAFault sf log0 log1 => Sys2Proof.Machine.execClassAFault sf log0 log1 s
  | .stallFatal st mem => Sys2Proof.Machine.execStallFatal st mem s
  | .cpReset reason => Sys2Proof.Machine.execCpReset reason s
  | .cpLivenessTimeout => Sys2Proof.Machine.execCpLivenessTimeout s
  | .ostlerSelfReset => Sys2Proof.Machine.execOstlerSelfReset s
  | .coreReset core reason => Sys2Proof.Machine.execCoreReset core reason s
  | .pwmPeriod phase demand => Sys2Proof.Machine.execPwmPeriod phase demand s
  | .overcurrentTrip phase low => Sys2Proof.Machine.execOvercurrentTrip phase low s
  | .hardShort phase low => Sys2Proof.Machine.execHardShort phase low s
  | .powerGoodFault high vout => Sys2Proof.Machine.execPowerGoodFault high vout s
  | .powerGoodRetry => Sys2Proof.Machine.execPowerGoodRetry s
  | .remoteSenseLost probe remote loc => Sys2Proof.Machine.execRemoteSenseLost probe remote loc s
  | .adcFrozen counter => Sys2Proof.Machine.execAdcFrozen counter s
  | .opChange => Sys2Proof.Machine.execOpChange s
  | .adaptTick slack => Sys2Proof.Machine.execAdaptTick slack s
  | .droopAlarm => Sys2Proof.Machine.execDroopAlarm s
  | .clockRefCheck refXo refW xoW => Sys2Proof.Machine.execClockRefCheck refXo refW xoW s
  | .refclkLoss => Sys2Proof.Machine.execRefclkLoss s
  | .vrefCheck diff => Sys2Proof.Machine.execVrefCheck diff s
  | .thermalTick sensor temp => Sys2Proof.Machine.execThermalTick sensor temp s
  | .tempSensorFrozen sensor counter => Sys2Proof.Machine.execTempSensorFrozen sensor counter s
  | .thermalTrip sensor => Sys2Proof.Machine.execThermalTrip sensor s
  | .powerLimitTick card core iout vout => Sys2Proof.Machine.execPowerLimitTick card core iout vout s
  | .fanStart => Sys2Proof.Machine.execFanStart s
  | .fanStartCheck rpm => Sys2Proof.Machine.execFanStartCheck rpm s
  | .fanControlTick duty rpm => Sys2Proof.Machine.execFanControlTick duty rpm s
  | .tachLost => Sys2Proof.Machine.execTachLost s
  | .setEndpointId ep eid => Sys2Proof.Machine.execSetEndpointId ep eid s
  | .getEndpointId ep => Sys2Proof.Machine.execGetEndpointId ep s
  | .getEndpointUuid ep => Sys2Proof.Machine.execGetEndpointUuid ep s
  | .getMctpVersionSupport ep typ => Sys2Proof.Machine.execGetMctpVersionSupport ep typ s
  | .getMessageTypeSupport ep => Sys2Proof.Machine.execGetMessageTypeSupport ep s
  | .getVendorDefinedMessageSupport ep => Sys2Proof.Machine.execGetVendorDefinedMessageSupport ep s
  | .getTid ep => Sys2Proof.Machine.execGetTid ep s
  | .setTid ep tid => Sys2Proof.Machine.execSetTid ep tid s
  | .getPldmVersion ep typ => Sys2Proof.Machine.execGetPldmVersion ep typ s
  | .getPldmTypes ep => Sys2Proof.Machine.execGetPldmTypes ep s
  | .getPldmCommands ep typ => Sys2Proof.Machine.execGetPldmCommands ep typ s
  | .getPdrRepositoryInfo ep => Sys2Proof.Machine.execGetPdrRepositoryInfo ep s
  | .getPdr ep n => Sys2Proof.Machine.execGetPdr ep n s
  | .getSensorReading ep id => Sys2Proof.Machine.execGetSensorReading ep id s
  | .getStateSensorReadings ep id => Sys2Proof.Machine.execGetStateSensorReadings ep id s
  | .setEventReceiver ep on => Sys2Proof.Machine.execSetEventReceiver ep on s
  | .getEventReceiver ep => Sys2Proof.Machine.execGetEventReceiver ep s
  | .platformEventMessage id ack => Sys2Proof.Machine.execPlatformEventMessage id ack s
  | .queryDeviceIdentifiers ep => Sys2Proof.Machine.execQueryDeviceIdentifiers ep s
  | .getFirmwareParameters ep => Sys2Proof.Machine.execGetFirmwareParameters ep s
  | .requestUpdate ep owner => Sys2Proof.Machine.execRequestUpdate ep owner s
  | .passComponentTable ep comps => Sys2Proof.Machine.execPassComponentTable ep comps s
  | .updateComponent ep comp => Sys2Proof.Machine.execUpdateComponent ep comp s
  | .requestFirmwareData off len => Sys2Proof.Machine.execRequestFirmwareData off len s
  | .transferComplete img => Sys2Proof.Machine.execTransferComplete img s
  | .verifyComplete => Sys2Proof.Machine.execVerifyComplete s
  | .applyComplete => Sys2Proof.Machine.execApplyComplete s
  | .activateFirmware ep => Sys2Proof.Machine.execActivateFirmware ep s
  | .getStatus ep => Sys2Proof.Machine.execGetStatus ep s
  | .cancelUpdateComponent ep => Sys2Proof.Machine.execCancelUpdateComponent ep s
  | .cancelUpdate ep => Sys2Proof.Machine.execCancelUpdate ep s
  | .updateTimeout => Sys2Proof.Machine.execUpdateTimeout s
  | .identify agent => Sys2Proof.Machine.execIdentify agent s
  | .getLdInfo agent => Sys2Proof.Machine.execGetLdInfo agent s
  | .getMultiHeadedInfo agent => Sys2Proof.Machine.execGetMultiHeadedInfo agent s
  | .getLdAllocations agent => Sys2Proof.Machine.execGetLdAllocations agent s
  | .setLdAllocations agent lds alloc => Sys2Proof.Machine.execSetLdAllocations agent lds alloc s
  | .getQosControl agent => Sys2Proof.Machine.execGetQosControl agent s
  | .setQosControl agent val => Sys2Proof.Machine.execSetQosControl agent val s
  | .getQosStatus agent => Sys2Proof.Machine.execGetQosStatus agent s
  | .getQosAllocatedBw agent => Sys2Proof.Machine.execGetQosAllocatedBw agent s
  | .setQosAllocatedBw agent fracs => Sys2Proof.Machine.execSetQosAllocatedBw agent fracs s
  | .getQosBwLimit agent => Sys2Proof.Machine.execGetQosBwLimit agent s
  | .setQosBwLimit agent fracs => Sys2Proof.Machine.execSetQosBwLimit agent fracs s
  | .getDcdInfo agent => Sys2Proof.Machine.execGetDcdInfo agent s
  | .getHostDcRegionConfiguration agent req => Sys2Proof.Machine.execGetHostDcRegionConfiguration agent req s
  | .getDcRegionExtentLists agent req => Sys2Proof.Machine.execGetDcRegionExtentLists agent req s
  | .traceStart req st val => Sys2Proof.Machine.execTraceStart req st val s
  | .dbgSessionOpen req val => Sys2Proof.Machine.execDbgSessionOpen req val s
  | .dbgRead req sz => Sys2Proof.Machine.execDbgRead req sz s
  | .dbgWrite req sz => Sys2Proof.Machine.execDbgWrite req sz s
  | .dbgTagRead req sz => Sys2Proof.Machine.execDbgTagRead req sz s
  | .dbgAccessTimeout => Sys2Proof.Machine.execDbgAccessTimeout s
  | .dbgHalt req mask => Sys2Proof.Machine.execDbgHalt req mask s
  | .dbgStep req mask => Sys2Proof.Machine.execDbgStep req mask s
  | .hitchForce req val => Sys2Proof.Machine.execHitchForce req val s
  | .hitchTimeout core unit ctx => Sys2Proof.Machine.execHitchTimeout core unit ctx s
  | .imageReportsRunning img => Sys2Proof.Machine.execImageReportsRunning img s
  | .headLinkL0 head rate width cxl mld flit256 => Sys2Proof.Machine.execHeadLinkL0 head rate width cxl mld flit256 s
  | .reinPortL0 port => Sys2Proof.Machine.execReinPortL0 port s
  | .vddSocPowerGoodLoss => Sys2Proof.Machine.execVddSocPowerGoodLoss s
  | .powerGoodAssert vout => Sys2Proof.Machine.execPowerGoodAssert vout s
  | .opChangeComplete => Sys2Proof.Machine.execOpChangeComplete s
  | .internalResetEnd => Sys2Proof.Machine.execInternalResetEnd s
  | .hitchBankAccess bank => Sys2Proof.Machine.execHitchBankAccess bank s

end Sys2Proof.Machine
end

