-- ==== Sys2Proof/Safety.lean ====
section
/-! DEFINITION. What claims call sound: the canonical form of the tables that hold registers and memory, and a step
that completes. -/

namespace Sys2Proof.Machine

open Sys2Proof

/-- Registers, byte memories and their marks are in their one canonical form: addresses strictly rise, and no byte is
listed that reads so unlisted. Equal registers and memories are then equal data. -/
def State.Inv (s : State) : Prop :=
  s.memWf = true ∧ Tbl.risingFrom 0 s.regs = true ∧ KSet.risingFrom 0 s.poison = true ∧
    KSet.risingFrom 0 s.dpoison = true ∧ KSet.risingFrom 0 s.full = true

/-- A command completes with a next state. -/
def Completes (c : Instr) (s : State) : Prop := ∃ t, exec c s = .next t

/-! ## When a command of a core executes -/

/-- Words that an instruction occupies (R354). -/
def wordsOf (w : Word) : Nat := if isWide w then 2 else 1

/-- A ready context of a running task, on a core that may issue, holds at its PC, within CODE_WORDS, the words given;
they spell the instruction and its predicate holds (R343, R356, R357, R359). -/
abbrev Issues (i : Issue) (o : Op) (s : State) (t : Task) : Prop :=
  s.taskOn i.core = some t ∧ t.phase.live = true ∧ i.core < 32 ∧ i.ctx < 8 ∧
    (s.ctx i.core i.ctx).started = true ∧ (s.ctx i.core i.ctx).wait = .ready ∧ s.mayIssue i.core = true ∧
    (s.ctx i.core i.ctx).pc + wordsOf i.word ≤ s.hdr t.entry 0x0A 2 ∧
    s.fetch i.core (s.ctx i.core i.ctx).pc = i.word ∧ decodeOp i.word = some o ∧
    (s.ctx i.core i.ctx).executes i.word = true

/-- What an issuing instruction works with. -/
def issueX (i : Issue) (s : State) (t : Task) : X :=
  ⟨i.core, i.ctx, i.word, (s.ctx i.core i.ctx).pc, t, s.ctx i.core i.ctx, i.meet⟩

/-- The state in which its effect happens: the issue is counted (R343, R769). -/
def issueTook (i : Issue) (s : State) : State := s.tookIssue i.core i.ctx

/-- An instruction of a scalar context whose effect is on its context alone: that effect, and the PC past it. -/
def retires (i : Issue) (s : State) (f : Ctx → Ctx) : State :=
  (issueTook i s).updCtx i.core i.ctx fun k =>
    { f k with pc := ((s.ctx i.core i.ctx).pc + wordsOf i.word) % 65536, since := none }

/-- The same with the PC set (R366, R367). -/
def jumps (i : Issue) (s : State) (pc : Nat) (f : Ctx → Ctx) : State :=
  (issueTook i s).updCtx i.core i.ctx fun k => { f k with pc := pc % 65536, since := none }

/-! ## When a command of an engine runs -/

/-- The queue of an engine of a core has at its head an instruction not yet started, of a task that issues; its words
spell the operation given (R392, R395). -/
abbrev Heads (core eng : Nat) (op : Op) (s : State) (t : Task) (o : EOp) (q : List EOp) : Prop :=
  s.taskOn core = some t ∧ t.phase.live = true ∧ (s.core core).queue eng = o :: q ∧ decodeOp o.word = some op ∧
    o.began = false ∧ o.since = none

/-- What an engine works with. -/
def headE (core eng : Nat) (t : Task) (o : EOp) (meet : Bool) : E := ⟨core, eng, o, t, meet⟩

/-- The state in which a VXE instruction acts: it is counted (R759). -/
def vxeCounted (core : Nat) (s : State) : State := s.perf core 0x06 1

/-- The queue has a demand transfer that may issue at once (R481, R497). -/
def readyXfer (s : State) (core q : Nat) : Bool :=
  match s.nextXfer core q with
  | some (st, x, later) => x.staged.isEmpty && canIssue st x later
  | none => false

/-- Poison of the 64-byte pieces of the tokens that an append reads: as host memory gives it, else as the words have it
(R328). -/
def tokenPoison (s : State) (core st srcAddr : Nat) (host : List HostByte) (j : Nat) : Bool :=
  match s.place st (srcAddr + 64 * j) false with
  | some (.host ..) => ((host.drop (64 * j)).take 64).any Prod.snd
  | p => match p.bind (Place.key core) with
    | some key => s.poisonIn key 64
    | none => false

/-! ## Where rs1 of a hitch or ring instruction points -/

/-- rs1 holds, unpoisoned and aligned, the address of hitch `h` in the stall's range (R379). -/
abbrev AtHitch (i : Issue) (s : State) (t : Task) (h : Nat) : Prop :=
  let a := (s.ctx i.core i.ctx).rg (iRs1 i.word)
  a.2 = false ∧ a.1.toNat % 8 = 0 ∧ regionOf a.1.toNat = .hitch ∧
    (issueTook i s).place t.stall a.1.toNat true = some (.hitch h)

/-- rs1 holds, unpoisoned, a reference to ring `r`, which is enabled and of the stall (R377). -/
abbrev AtRing (i : Issue) (s : State) (t : Task) (r : Nat) : Prop :=
  let a := (s.ctx i.core i.ctx).rg (iRs1 i.word)
  a.2 = false ∧ (issueTook i s).ringRef i.core t.stall a.1 = .ring r ∧ (issueTook i s).ringOn r = true

/-! ## When a queued command starts -/

/-- The next command of an SQ has the opcode given and may start; its SQ is of stall `st` (R526). -/
abbrev Starts (sq op : Nat) (s : State) (c : Cmd) (st : Nat) : Prop :=
  s.startable sq op = some c ∧ (s.sqStall sq).getD 16 = st

/-- A core runs an issuing task. -/
abbrev RunsTask (s : State) (c : Nat) (t : Task) : Prop := s.taskOn c = some t ∧ t.phase.live = true

/-! ## What a response carries -/

/-- The 64-byte beats of an RDATA packet, numbered from a transfer's beat, each poisoned by any of its four slots (R653,
R661). -/
def Packet.beatsFrom (k : Packet) (first : Nat) : List (Nat × Line64 × Bool) :=
  (List.range (k.slots.length / 4)).map fun j =>
    let l := (k.slots.drop (4 * j)).take 4
    (first + j, l.zipIdx.foldl (fun (d : Line64) (e : (Slot × Bool) × Nat) => d ||| (e.1.1.setWidth 512 <<< (128 * e.2))) 0, l.any Prod.snd)

/-! ## When a register write reaches its register -/

/-- What a write of a whole register carries: 32 or 64 bits. -/
def carriedBits (r : Reg) : Word := if r.row.width = 32 then lowMask else State.beginWrite.allOnes

/-- A write of the whole register that an agent may make now: it reaches BAR0, the Stage is past 0, the register is the
agent's, Ostler serves its own registers, and no two of its WO bits exclude each other (R6, R7, R696, R777, R781). -/
abbrev Accepts (s : State) (agent : Nat) (r : Reg) (i : Nat) (val : Word) : Prop :=
  s.reaches agent = true ∧ s.f .stageStatus 0 0 2 ≠ 0 ∧ s.permits agent r i = true ∧
    (inPower (r.off i) = true → s.f .stageStatus 0 6 1 ≠ 0) ∧ pairRefused r val = false ∧
    target (r.off i) (r.row.width / 8) = .whole r i

/-- The write, as the register's actions see it. -/
def writtenAs (s : State) (agent : Nat) (r : Reg) (i : Nat) (val : Word) : Written :=
  ⟨agent, r, i, s.regOf agent r i, val &&& carriedBits r, carriedBits r⟩

/-- The state after its fields have taken it: step 1 of R780. -/
def wroteFields (s : State) (agent : Nat) (r : Reg) (i : Nat) (val : Word) : State :=
  (s.dropLow agent).writeFields (writtenAs s agent r i val) (r.off i)

/-- An enable register's instance may ask for its check: it is disabled and no check of it waits or runs. -/
abbrev Asks (s : State) (r : Reg) (i block inst : Nat) : Prop := s.f r i 0 1 = 0 ∧ s.checking block inst = false

/-- An enabled instance that no check of its own waits for. -/
abbrev Runs (s : State) (r : Reg) (i block inst : Nat) : Prop := s.f r i 0 1 = 1 ∧ s.checking block inst = false

end Sys2Proof.Machine
end

