-- ==== Sys2Proof/WellFormed.lean ====
section
/-! DEFINITION. Well-formed commands: every operand that numbers a thing of the card lies in that thing's range. The
meanings are total: they do not rest on it. -/

namespace Sys2Proof

/-- Numbers from 0 below n. -/
def below (n v : Nat) : Bool := decide (v < n)

/-- Requester indices (R102). -/
def reqOk : Nat → Bool := below 16

/-- Senders of BAR0 accesses: the requesters, the Fabric Manager (16) and the MGMT image (17). -/
def agentOk : Nat → Bool := below 18

/-- A requester, or the debug connector. -/
def hostOk : Option Nat → Bool
  | some r => agentOk r
  | none => true

/-- Shuzo cores, their contexts (R343), stalls (R166) and Rein ports (R641). -/
def coreOk : Nat → Bool := below 32
def ctxOk : Nat → Bool := below 8
def stallOk : Nat → Bool := below 16
def portOk : Nat → Bool := below 2

/-- Access sizes in bytes. -/
def sizeOk (n : Nat) : Bool := n == 1 || n == 2 || n == 4 || n == 8

/-- Bytes of one access to BAR2. -/
def windowOk (n : Nat) : Bool := decide (0 < n) && below 65 n

/-- An issue names a core and a context. -/
def issueOk (i : Issue) : Bool := coreOk i.core && ctxOk i.ctx

/-- Every operand of a command lies in its range. -/
def wellFormed (c : Instr) : Bool :=
  match c with
  | .registerWrite req _ size _ _ _ => agentOk req && sizeOk size
  | .registerReadCapture req _ size => agentOk req && sizeOk size
  | .configRequest req fn => reqOk req && below 2 fn
  | .coldPowerOn | .supplyDrop | .mgmtStartTimeout | .ctrlStartTimeout | .vrNotReady | .trotEntry | .canterEntry
  | .f1Flr | .f1D3hot | .f1D0Return | .commitComplete | .auditComplete | .ldQosInterval | .cpLivenessTimeout
  | .ostlerSelfReset | .powerGoodRetry | .opChange | .droopAlarm | .refclkLoss | .fanStart | .tachLost
  | .verifyComplete | .applyComplete | .updateTimeout | .dbgAccessTimeout | .vddSocPowerGoodLoss | .opChangeComplete
  | .internalResetEnd => true
  | .tamper monitor => below 8 monitor
  | .auxDetect _ | .v12bUndervoltage _ | .perstAssert _ | .perstDeassert _ | .adcFrozen _ => true
  | .walkEntry _ _ => true
  | .imageVerify _ | .imageReportsRunning _ => true
  | .bistComplete _ => true
  | .restage req _ | .ownerRelease req _ | .capAssign req _ | .stallReset req _ | .vrEnable req _ | .vrDisable req _
  | .fanEnable req _ | .thermEnable req _ | .bridleCounterClear req _ | .dbgSessionOpen req _ | .hitchForce req _ =>
    agentOk req
  | .drvHandshake req size _ _ => reqOk req && sizeOk size
  | .f0Flr req | .f0D3hot req | .requesterReset req | .ideIntegrityFail req | .ideKm req
  | .getDynamicCapacityConfiguration req | .getDynamicCapacityExtentList req | .getEventInterruptPolicy req
  | .getTimestamp req | .getSupportedLogs req | .getFwInfo req | .transferFw req | .activateFw req
  | .identifyMemoryDevice req | .getHealthInfo req | .getAlertConfiguration req | .getScanMediaResults req
  | .sanitize req | .sanitizeDone req | .secureErase req | .getMeasurements req => reqOk req
  | .ldBind ld => below 16 ld
  | .memRd req _ _ => reqOk req
  | .memWr req _ _ _ _ => reqOk req
  | .dcohRequestServe _ | .extentOffer _ | .ownerSessionTimeout _ | .taskSave _ | .taskTimeout _ | .computeFence _
  | .taskAbort _ | .cpReset _ | .adaptTick _ | .vrefCheck _ | .fanStartCheck _ | .powerGoodAssert _ => true
  | .birsp req _ _ _ => reqOk req
  | .biconflict req _ | .biTimeout req _ | .releaseDynamicCapacity req _ | .injectPoison req _ | .ownerClaim req _
  | .endSession req _ | .heartbeat req _ | .spdmRequest req _ => reqOk req
  | .bar2PaddockAccess req _ size _ => reqOk req && windowOk size
  | .rslotAck req _ size _ => reqOk req && windowOk size
  | .hostReadError _ => true
  | .initiateDynamicCapacityAdd agent _ _ _ _ => agentOk agent
  | .initiateDynamicCapacityRelease agent _ req _ => agentOk agent && reqOk req
  | .addDynamicCapacityResponse req _ _ => reqOk req
  | .getEventRecords req log => reqOk req && below 4 log
  | .clearEventRecords req log _ => reqOk req && below 4 log
  | .setEventInterruptPolicy req _ => reqOk req
  | .setTimestamp req _ | .setAlertConfiguration req _ => reqOk req
  | .getLog req _ => reqOk req
  | .getPoisonList req _ _ | .scanMedia req _ _ => reqOk req
  | .clearPoison req _ _ => reqOk req
  | .unsupportedMailboxCommand req opcode => reqOk req && below 65536 opcode
  | .keyExchange req _ _ _ => reqOk req
  | .editTake req | .editDrop req | .stallDiscard req | .stallCommit req | .tackAudit req => agentOk req
  | .debugSubmit req _ _ => agentOk req
  | .sqEnable req n _ | .sqDisable req n _ | .cqEnable req n _ | .cqDisable req n _ | .sqDoorbell req n _
  | .cqHeadWrite req n _ => agentOk req && below 1024 n
  | .streamQEnable req n _ | .streamQDisable req n _ | .hrnEnable req n _ => agentOk req && below 256 n
  | .ringEnable req n _ | .ringDisable req n _ => agentOk req && below 2304 n
  | .barrierEnable req n _ | .barrierDisable req n _ => agentOk req && below 512 n
  | .hitchCfgEnable req n _ | .kvPoolEnable req n _ | .kvPoolDisable req n _ => agentOk req && below 16 n
  | .bridleEnable req n _ => agentOk req && below 36 n
  | .reinPortEnable req n _ | .reinPortDisable req n _ | .credRebuild req n _ => agentOk req && below 2 n
  | .tackCheckComplete block => below 16 block
  | .dmaSlotAccess core _ => coreOk core
  | .cmdmaTakeEffect core | .hitchReleaseSeen core | .mxMma core | .mxZero core | .vadd core | .vsub core
  | .vmul core | .vmin core | .vmax core | .vand core | .vor core | .vxor core | .vsll core | .vsrl core | .vsra core
  | .vabs core | .vneg core | .vmov core | .vsplat core | .viota core | .vcmpeq core | .vcmplt core | .vcmple core
  | .vsel core | .vfma core | .vfms core | .vfnma core | .vrsum core | .vrmax core | .vrmin core | .vexp2 core
  | .vlog2 core | .vrcp core | .vrsqrt core | .vsqrt core | .vcvt core | .vmxq core | .vslide core | .vbexp core
  | .vpscore core | .carouselStep core | .streamGo core | .streamCancel core | .mset core | .mcopy core
  | .transferIssue core => coreOk core
  | .paddockBankAccess slice bank => below 4 slice && below 32 bank
  | .tagRetry core unit ctx _ => coreOk core && below 4 unit && ctxOk ctx
  | .tagWaitRejoin slice | .tagWaitReturn slice => below 4 slice
  | .tagTimeout core unit ctx | .creditTimeout core unit ctx | .barrierWake core unit ctx
  | .hitchTimeout core unit ctx => coreOk core && below 4 unit && ctxOk ctx
  | .ringResvGrant ring => below 8192 ring
  | .eccWriteback _ _ _ finder _ _ => below 5 finder
  | .onchipScrub unit _ => below 37 unit
  | .dramPatrol ch _ => below 32 ch
  | .scrubLate unit => below 37 unit
  | .dramPatrolLate ch => below 32 ch
  | .engineIssue i | .add i | .sub i | .and i | .or i | .xor i | .andn i | .sll i | .srl i | .sra i | .ror i | .mul i
  | .mulhu i | .mulhs i | .divu i | .divs i | .remu i | .rems i | .min i | .max i | .minu i | .maxu i | .clz i
  | .ctz i | .popc i | .sextb i | .sexth i | .sextw i | .zextw i | .addw i | .subw i | .slt i | .sltu i | .addi i
  | .andi i | .ori i | .xori i | .shi i | .movw i | .cmp i | .cmpi i | .plog i | .prd i | .pwr i | .br i | .bal i
  | .jr i | .jalr i | .ld i | .st i | .ldx i | .stx i | .aaddW i | .aaddWR i | .aaddD i | .aaddDR i | .afaddS i
  | .afaddSR i | .afxaddD i | .afxaddS i | .aswapW i | .aswapD i | .vget i | .vput i | .ptst i | .vpmask i | .crr i
  | .crw i | .yield i | .ctxgo i | .ctxend i | .drain i | .abort i | .tld i | .tst i | .tset i | .tclr i | .tprobe i
  | .ringResv i | .ringFill i | .ringPush i | .ringPop i | .ringPeek i | .ringState i | .hrd i | .hwr i | .hadd i
  | .haddn i | .hwaitGe i | .hwaitEq i | .hwaitNe i | .hmon i | .hmwait i | .hmclr i => issueOk i
  | .contextWake core ctx _ _ => coreOk core && ctxOk ctx
  | .mxLda core _ | .mxLdb core _ | .mxLdc core _ | .mxDrain core _ | .vld core _ | .vldC core _ | .vldP core _
  | .vst core _ | .vstF core _ | .vaaddW core _ | .vaaddWR core _ | .vaaddD core _ | .vaaddDR core _ | .vfxadd core _
  | .vfxaddR core _ => coreOk core
  | .barArrive i eng | .barWait i eng | .barSync i eng => issueOk i && below 4 eng
  | .kvWalk core q | .streamRun core q | .blockListEntryRead core q | .prefetchCommit core q => coreOk core && below 8 q
  | .kvAppend core _ _ => coreOk core
  | .dmaTransferComplete core _ _ => coreOk core
  | .cpFetch _ => true
  | .commandAccept sq | .nop sq | .memFill sq | .hrnUnload sq | .taskRun sq | .taskStart sq | .taskPreempt sq
  | .taskResume sq | .taskKill sq | .kvSeqOpen sq | .kvSeqClose sq | .kvSeqSet sq | .kvCommitProceed sq | .kvBatch sq
  | .kvDrop sq | .kvSeqRead sq => below 1024 sq
  | .sqFlush req n _ _ => agentOk req && below 1024 n
  | .cqIrqTimer cq => below 1024 cq
  | .memCopy sq _ => below 1024 sq
  | .hrnLoad sq _ | .kvCommit sq _ => below 1024 sq
  | .taskEnd _ _ _ => true
  | .bridleGrant arb _ _ _ _ => below 36 arb
  | .bridleHoldLimit arb => below 36 arb
  | .dataFlit port _ _ | .idleFlit port _ _ | .nak port _ _ => portOk port
  | .replayTimeout port | .initResend port | .reinTrainTimeout port | .credSyncResend port | .down port
  | .reinDownLimit port | .packetForward port | .rfill port | .remoteHwr port | .remoteHadd port | .rrel port
  | .rd port | .rresv port | .rdata port | .rgnt port | .wack port | .reinPortL0 port => portOk port
  | .init port _ _ _ _ _ _ _ => portOk port
  | .credSync port _ _ _ _ => portOk port
  | .syncAck port _ => portOk port
  | .retrain port _ => portOk port
  | .reinLinkDown port _ => portOk port
  | .rresvRetry _ tag | .reinTimeout _ tag => below 4096 tag
  | .classAFault _ _ _ => true
  | .stallFatal st _ => stallOk st
  | .coreReset core _ => coreOk core
  | .pwmPeriod phase _ => below 6 phase
  | .overcurrentTrip phase _ | .hardShort phase _ => below 6 phase
  | .powerGoodFault _ _ => true
  | .remoteSenseLost _ _ _ => true
  | .clockRefCheck _ _ _ => true
  | .thermalTick sensor _ => below 6 sensor
  | .tempSensorFrozen sensor _ => below 6 sensor
  | .thermalTrip sensor => below 6 sensor
  | .powerLimitTick _ _ _ _ => true
  | .fanControlTick duty _ => below 101 duty
  | .setEndpointId ep eid => below 3 ep && below 256 eid
  | .getEndpointId ep | .getEndpointUuid ep | .getMessageTypeSupport ep | .getVendorDefinedMessageSupport ep
  | .getTid ep | .getPldmTypes ep | .getPdrRepositoryInfo ep | .getEventReceiver ep | .queryDeviceIdentifiers ep
  | .getFirmwareParameters ep | .activateFirmware ep | .getStatus ep | .cancelUpdateComponent ep | .cancelUpdate ep =>
    below 3 ep
  | .getMctpVersionSupport ep typ | .getPldmVersion ep typ | .getPldmCommands ep typ => below 3 ep && below 256 typ
  | .setTid ep tid => below 3 ep && below 256 tid
  | .getPdr ep _ | .getSensorReading ep _ | .getStateSensorReadings ep _ => below 3 ep
  | .setEventReceiver ep _ | .requestUpdate ep _ => below 3 ep
  | .platformEventMessage _ _ => true
  | .passComponentTable ep _ => below 3 ep
  | .updateComponent ep comp => below 3 ep && below 2 comp
  | .requestFirmwareData _ _ => true
  | .transferComplete _ => true
  | .identify agent | .getLdInfo agent | .getMultiHeadedInfo agent | .getLdAllocations agent | .getQosControl agent
  | .getQosStatus agent | .getQosAllocatedBw agent | .getQosBwLimit agent | .getDcdInfo agent => agentOk agent
  | .setLdAllocations agent _ _ => agentOk agent
  | .setQosControl agent _ => agentOk agent
  | .setQosAllocatedBw agent _ | .setQosBwLimit agent _ => agentOk agent
  | .getHostDcRegionConfiguration agent req | .getDcRegionExtentLists agent req => agentOk agent && reqOk req
  | .traceStart req st _ => agentOk req && stallOk st
  | .dbgRead req _ | .dbgWrite req _ | .dbgTagRead req _ => agentOk req
  | .dbgHalt req _ | .dbgStep req _ => hostOk req
  | .headLinkL0 head rate width _ _ _ => below 2 head && below 6 rate && below 5 width
  | .hitchBankAccess bank => below 16 bank

end Sys2Proof
end

