-- ==== Sys2Proof/Certificates/Slice0/Obligations.lean ====
section
/-! DEFINITION. The statements for the provers: one clause per command or rule, over every state that meets its
conditions. -/

open Sys2Proof
open Sys2Proof.Machine

/-- For every command c, every queue rest and every state s: step of s with c at the front of its queue is exec of c
on s with the queue's rest. Rests on log entry 1. From spec/00_scope.md. -/
def Obligations.StepRunsFront : Prop :=
  ∀ (c : Instr) (rest : List Instr) (s : State),
    step { s with pending := c :: rest } = exec c { s with pending := rest }

/-- For every state with an empty queue, step answers next with the clock one NCLK later and nothing else changed. The
model's choice. Rests on log entry 2. From spec/00_scope.md. -/
def Obligations.StepIdles : Prop :=
  ∀ s : State, s.pending = [] → step s = .next { s with now := s.now + 1 }

/-- State.reset keeps registers, memories, poison marks and tags in their one canonical form. From
spec/23_register_map.md, 07_on_chip_memory.md. -/
def Obligations.ResetCanonical : Prop :=
 State.reset.Inv

/-- For all states s and t: if s is in canonical form (register and memory addresses strictly rise, no listed byte
equals what an unlisted address reads as, the poison marks of words and codewords and the full slots strictly rise)
and step s answers next t, then t is in canonical form. Equal registers and memories stay equal data. From
spec/23_register_map.md, 07_on_chip_memory.md, 09_memory_integrity.md. -/
def Obligations.StepKeepsCanonical : Prop :=
 ∀ s t : State, s.Inv → step s = .next t → t.Inv

/-- For every command and all states s and t: if exec answers next t, then t has the queue of waiting commands and the
card (order code, UID, card configuration record, fused security versions) of s. From spec/00_scope.md,
23_register_map.md, 24_card_hardware.md. -/
def Obligations.ExecKeepsQueue : Prop :=
  ∀ (c : Instr) (s t : State), exec c s = .next t → t.pending = s.pending ∧ t.card = s.card

/-- For every command and every state, exec answers some next state: nothing that a host, the surroundings or a task
does stops the card; errors are recorded by it. That a command which finds nothing to do leaves the state as it is, is
the model's choice. Rests on log entry 4. From spec/00_scope.md, 01_architecture.md, 19_faults.md. -/
def Obligations.EveryCommandCompletes : Prop :=
 ∀ (c : Instr) (s : State), Completes c s

/-- For every issue, state and task for which the instruction issues: each register ALU instruction (ADD to SLTU)
answers next with rd taking f(rs1, rs2), poisoned if rs1 or rs2 is, the PC moved past the instruction, the issue
counted, and nothing else changed. Shifts take rs2[5:0]; MULHU and MULHS give the high half of the exact product;
division by zero gives all-ones from DIVU and DIVS and rs1 from REMU and REMS, and every division completes; a W
suffix sign-extends the 32-bit result. Formalises R362. -/
def Obligations.ScalarAluResults : Prop :=
  ∀ (i : Issue) (s : State) (t : Task),
    let k := s.ctx i.core i.ctx
    let a := (k.rg (iRs1 i.word)).1
    let b := (k.rg (iRs2 i.word)).1
    let p := (k.rg (iRs1 i.word)).2 || (k.rg (iRs2 i.word)).2
    let gives := fun (c : Issue → Instr) (o : Op) (v : Word) =>
      Issues i o s t → exec (c i) s = .next (retires i s fun k => k.wg (iRd i.word) v p)
    gives .add .add (a + b) ∧ gives .sub .sub (a - b) ∧ gives .and .and (a &&& b) ∧ gives .or .or (a ||| b)
    ∧ gives .xor .xor (a ^^^ b) ∧ gives .andn .andn (a &&& ~~~b)
    ∧ gives .sll .sll (a <<< (b.toNat % 64)) ∧ gives .srl .srl (a >>> (b.toNat % 64))
    ∧ gives .sra .sra (a.sshiftRight (b.toNat % 64)) ∧ gives .ror .ror (a.rotateRight (b.toNat % 64))
    ∧ gives .mul .mul (a * b) ∧ gives .mulhu .mulhu (BitVec.ofNat 64 (a.toNat * b.toNat / 2 ^ 64))
    ∧ gives .mulhs .mulhs (BitVec.ofInt 64 (a.toInt * b.toInt / 2 ^ 64))
    ∧ gives .divu .divu (if b = 0 then BitVec.allOnes 64 else a / b)
    ∧ gives .divs .divs (if b = 0 then BitVec.allOnes 64 else BitVec.ofInt 64 (a.toInt.tdiv b.toInt))
    ∧ gives .remu .remu (if b = 0 then a else a % b)
    ∧ gives .rems .rems (if b = 0 then a else BitVec.ofInt 64 (a.toInt.tmod b.toInt))
    ∧ gives .min .min (if a.toInt ≤ b.toInt then a else b) ∧ gives .max .max (if a.toInt ≤ b.toInt then b else a)
    ∧ gives .minu .minu (if a.toNat ≤ b.toNat then a else b) ∧ gives .maxu .maxu (if a.toNat ≤ b.toNat then b else a)
    ∧ gives .clz .clz (BitVec.ofNat 64 (leadingZeros a)) ∧ gives .ctz .ctz (BitVec.ofNat 64 (trailingZeros a))
    ∧ gives .popc .popc (BitVec.ofNat 64 (setBits a))
    ∧ gives .sextb .sextb (sext 8 a.toNat) ∧ gives .sexth .sexth (sext 16 a.toNat) ∧ gives .sextw .sextw (sext 32 a.toNat)
    ∧ gives .zextw .zextw (BitVec.ofNat 64 (a.toNat % 2 ^ 32))
    ∧ gives .addw .addw (sext 32 (a + b).toNat) ∧ gives .subw .subw (sext 32 (a - b).toNat)
    ∧ gives .slt .slt (if a.toInt < b.toInt then 1 else 0) ∧ gives .sltu .sltu (if a.toNat < b.toNat then 1 else 0)

/-- For every issue, state and task for which the instruction issues: ADDI, ANDI, ORI, XORI and SHI give rd their
result with the poison of rs1; MOVW sets rd to IMM16 shifted by 16 × HW, or with K = 1 replaces those bits of rd and
keeps its other bits and its poison; CMP and CMPI combine the condition with PD, or end in POISON_CONSUMED on poison;
PLOG, PRD, PWR and PTST read and write predicates, PWR ending in POISON_CONSUMED on poison; VGET, VPUT and VPMASK move
a lane or the poison mask between v and g registers once no queued VXE instruction of the context writes the register,
and VGET and VPMASK change nothing before. Formalises R364. -/
def Obligations.ScalarImmediatesAndPredicates : Prop :=
  (∀ (i : Issue) (s : State) (t : Task),
    let k := s.ctx i.core i.ctx
    let w := i.word
    let a := k.rg (iRs1 w)
    let imm := sext 12 (ib w 0 12)
    let n := ib w 0 6
    let gives := fun (c : Issue → Instr) (o : Op) (v : Word) =>
      Issues i o s t → exec (c i) s = .next (retires i s fun k => k.wg (iRd w) v a.2)
    gives .addi .addi (a.1 + imm) ∧ gives .andi .andi (a.1 &&& imm) ∧ gives .ori .ori (a.1 ||| imm)
    ∧ gives .xori .xori (a.1 ^^^ imm)
    ∧ (ib w 6 2 = 0 → gives .shi .shi (a.1 <<< n)) ∧ (ib w 6 2 = 1 → gives .shi .shi (a.1 >>> n))
    ∧ (ib w 6 2 = 2 → gives .shi .shi (a.1.sshiftRight n)) ∧ (ib w 6 2 = 3 → gives .shi .shi (a.1.rotateRight n))
    ∧ (Issues i .movw s t →
        let rd := ib w 21 5
        let keep := bitAt w 18
        exec (.movw i) s = .next (retires i s fun c =>
          c.wg rd (setFld (if keep then (k.rg rd).1 else 0) (16 * ib w 19 2) 16 (ib w 0 16)) (keep && (k.rg rd).2))))
  ∧ (∀ (i : Issue) (s : State) (t : Task),
    let w := i.word
    let k := s.ctx i.core i.ctx
    let a := k.rg (iRs1 w)
    let b := k.rg (iRs2 w)
    let pd := ib w 17 3
    let n := ib w 12 3
    let sets := fun (c : Bool) => retires i s fun k => k.wp pd (combine (ib w 20 2) (k.rp pd) c)
    (Issues i .cmp s t → exec (.cmp i) s = .next (if a.2 || b.2 then (issueX i s t).fault (issueTook i s) .poisonConsumed
        else sets (condition (ib w 0 3) a.1 b.1)))
    ∧ (Issues i .cmpi s t → exec (.cmpi i) s = .next (if a.2 then (issueX i s t).fault (issueTook i s) .poisonConsumed
        else sets (condition (ib w 9 3) a.1 (sext 9 (ib w 0 9)))))
    ∧ (Issues i .plog s t → exec (.plog i) s = .next (retires i s fun k =>
        k.wp pd (predOp (ib w 0 3) (k.rp (ib w 12 3)) (k.rp (ib w 7 3)))))
    ∧ (Issues i .prd s t → exec (.prd i) s = .next (retires i s fun k => k.wg (iRs2 w) (BitVec.ofNat 64 k.preds) false))
    ∧ (Issues i .pwr s t → exec (.pwr i) s = .next (if a.2 then (issueX i s t).fault (issueTook i s) .poisonConsumed
        else retires i s fun k => (List.range 8).foldl (fun k j => k.wp j (bitAt a.1 j)) k))
    ∧ (Issues i .ptst s t → exec (.ptst i) s = .next (retires i s fun k => k.wp pd a.2))
    ∧ (Issues i .vget s t → s.vBusy i.core i.ctx n = false → exec (.vget i) s = .next (retires i s fun c =>
        c.wg (iRd w) (laneD (k.rv n).1 (iRs2 w)) ((k.rv n).2.toNat.testBit (iRs2 w))))
    ∧ (Issues i .vput s t → s.vBusy i.core i.ctx pd = false → exec (.vput i) s = .next (retires i s fun c =>
        c.wv pd (setLaneD (k.rv pd).1 (iRs2 w) a.1) (setBit32 (k.rv pd).2 (iRs2 w) a.2)))
    ∧ (Issues i .vpmask s t → s.vBusy i.core i.ctx n = false → exec (.vpmask i) s = .next (retires i s fun c =>
        c.wg (iRd w) ((k.rv n).2.setWidth 64) false))
    ∧ (s.vBusy i.core i.ctx n = true →
        (Issues i .vget s t → exec (.vget i) s = .next s) ∧ (Issues i .vpmask s t → exec (.vpmask i) s = .next s)))

/-- For every issue, state and effect f on a context: the state in which an instruction retires with that effect alone
has the memory, poison, tags, queues and tasks, host side, coherence, KV state, start-up, power, messages and clock of
s; every register but the four event counters of its core; every other context of every core; and every other core as
they were. From spec/10_shuzo_scalar.md. -/
def Obligations.ScalarFrame : Prop :=
  ∀ (i : Issue) (s : State) (f : Ctx → Ctx),
    let v := retires i s f
    v.mem = s.mem ∧ v.poison = s.poison ∧ v.full = s.full ∧ v.q = s.q ∧ v.link = s.link ∧ v.dcoh = s.dcoh ∧ v.kv = s.kv
    ∧ v.stage = s.stage ∧ v.pw = s.pw ∧ v.out = s.out ∧ v.now = s.now
    ∧ (∀ k, (∀ j, j < 4 → k ≠ Reg.off .perfCnt (4 * i.core + j)) → Tbl.find? k v.regs = Tbl.find? k s.regs)
    ∧ (∀ c x, (c ≠ i.core ∨ x ≠ i.ctx) → v.ctx c x = s.ctx c x)
    ∧ (∀ c, c ≠ i.core → v.core c = s.core c)

/-- For every issue, state and task for which the instruction issues: BR and BAL go to PC + OFF16 modulo 2^16, BAL
with PC + 1 in rd; JR and JALR with rs1 unpoisoned and rs1[63:14] zero go to rs1[13:0], JALR with PC + 1 in rd; with
rs1 poisoned they end in POISON_CONSUMED, with rs1[63:14] not zero in PC_RANGE. Formalises R367. -/
def Obligations.ScalarBranches : Prop :=
  (∀ (i : Issue) (s : State) (t : Task),
    let w := i.word
    let k := s.ctx i.core i.ctx
    let a := k.rg (iRs1 w)
    let at16 := (((k.pc : Int) + signed 16 (ib w 0 16)) % 65536).toNat
    let link := fun (k' : Ctx) => k'.wg (iRd w) (BitVec.ofNat 64 (k.pc + 1)) false
    (Issues i .br s t → exec (.br i) s = .next (jumps i s at16 id))
    ∧ (Issues i .bal s t → exec (.bal i) s = .next (jumps i s at16 link))
    ∧ (a.2 = false → a.1.toNat < 2 ^ 14 →
        (Issues i .jr s t → exec (.jr i) s = .next (jumps i s a.1.toNat id))
        ∧ (Issues i .jalr s t → exec (.jalr i) s = .next (jumps i s a.1.toNat link))))
  ∧ (∀ (i : Issue) (s : State) (t : Task),
    let a := (s.ctx i.core i.ctx).rg (iRs1 i.word)
    let ends := fun (f : FaultCode) => Host.Outcome.next ((issueX i s t).fault (issueTook i s) f)
    (a.2 = true → (Issues i .jr s t → exec (.jr i) s = ends .poisonConsumed)
        ∧ (Issues i .jalr s t → exec (.jalr i) s = ends .poisonConsumed))
    ∧ (a.2 = false → 2 ^ 14 ≤ a.1.toNat → (Issues i .jr s t → exec (.jr i) s = ends .pcRange)
        ∧ (Issues i .jalr s t → exec (.jalr i) s = ends .pcRange)))

/-- CRR gives rd the control register without poison; CRW writes c4, c5 and c6 at once, leaves a change of c7 for its
stamp, at which CMDMA_TAKE_EFFECT puts it in CM_CFG, and is CREG_ACCESS for any other register. YIELD below the
harness's yield points parks only while the task is asked to park; CTXGO starts another, not started context at rs1
with g1 = rs2; CTXEND ends the context; DRAIN passes when its conditions hold and waits otherwise; ABORT ends the task
in HARNESS_ABORT with its code. CONTEXT_WAKE completes a waiting instruction: with the value that came back, with the
host data that the command brings while the requester is present, or when its drain is satisfied. Rests on log entry
10. From spec/10_shuzo_scalar.md, 07_on_chip_memory.md, 03_host_link.md. -/
def Obligations.ContextsAndControlRegisters : Prop :=
  (∀ (i : Issue) (s : State) (t : Task),
    let w := i.word
    let n := ib w 0 4
    let a := (s.ctx i.core i.ctx).rg (iRs1 w)
    (Issues i .crr s t → exec (.crr i) s =
        .next (retires i s fun k => k.wg (iRd w) ((issueTook i s).creg (issueX i s t) n) false))
    ∧ (Issues i .crw s t → ¬(4 ≤ n ∧ n ≤ 7) →
        exec (.crw i) s = .next ((issueX i s t).fault (issueTook i s) .cregAccess))
    ∧ (Issues i .crw s t → a.2 = false →
        (n = 4 → exec (.crw i) s = .next (retires i s fun k => { k with c4 := a.1 }))
        ∧ (n = 5 → exec (.crw i) s = .next (retires i s fun k => { k with c5 := a.1 }))
        ∧ (n = 6 → exec (.crw i) s = .next (retires i s fun k => { k with c6 := a.1 }))
        ∧ (n = 7 → exec (.crw i) s = .next ((issueX i s t).next
            ((issueTook i s).updCore i.core fun k => { k with cmdma := some (fld a.1 0 2, fld a.1 16 16) }) id)))
    ∧ (∀ c p b, (s.core c).cmdma = some (p, b) → exec (.cmdmaTakeEffect c) s =
        .next (((s.setF .cmCfg c 2 2 p).setF .cmCfg c 16 16 b).updCore c fun k => { k with cmdma := none })))
  ∧ (∀ (i : Issue) (s : State) (t : Task),
    let w := i.word
    let x := issueX i s t
    let u := issueTook i s
    let k := s.ctx i.core i.ctx
    let a := k.rg (iRs1 w)
    let b := k.rg (iRs2 w)
    let n := ib w 17 3
    (Issues i .yield s t → ib w 0 12 < u.hdr t.entry 0x12 2 → exec (.yield i) s =
        .next (if t.phase = .parking then retires i s fun k => { k with wait := .parked (ib w 0 12), ret := none }
          else retires i s id))
    ∧ (Issues i .ctxgo s t → a.2 = false → n ≠ i.ctx → (u.ctx i.core n).started = false → a.1.toNat < 2 ^ 14 →
        exec (.ctxgo i) s = .next (x.next (u.setCtx i.core n
          ({ Ctx.idle with started := true, pc := a.1.toNat, mon := (u.ctx i.core n).mon
                           joined := (u.ctx i.core n).joined }.wg 1 b.1 b.2)) id))
    ∧ (Issues i .ctxend s t → exec (.ctxend i) s = .next (retires i s fun k => { k with started := false }))
    ∧ (Issues i .drain s t → exec (.drain i) s =
        .next (if u.drained i.core i.ctx (ib w 0 4) then retires i s id else x.wait u (.drain (ib w 0 4))))
    ∧ (Issues i .abort s t → exec (.abort i) s = .next (x.fault u .harnessAbort 0 (ib w 0 12))))
  ∧ (∀ (c x : Nat) (d : Word) (p : Bool) (s : State) (t : Task),
    let k := s.ctx c x
    let wakes := exec (.contextWake c x d p) s
    s.taskOn c = some t → t.phase.live = true → k.started = true →
      (∀ rd v q, k.wait = .result rd → k.ret = some (v, q) → wakes = .next (s.complete c x rd v q))
      ∧ (∀ rd n sx, k.wait = .host rd n sx → s.present (s.active.hostReq t.stall) = true →
          wakes = .next (s.complete c x (some rd) (extend n sx d) p))
      ∧ (∀ m, k.wait = .drain m → s.drained c x m = true → wakes = .next (s.complete c x none 0 false)))

/-- Stated for ADD: a ready context whose PC is not below CODE_WORDS ends in PC_RANGE; words that spell nothing end in
ILLEGAL_OP whatever their predicate; a predicate that is false moves the PC only. The address check of loads and
stores: poison is POISON_CONSUMED, else misalignment is MISALIGNED_ACCESS, else an address from 2^48 up is
WINDOW_VIOLATION, else the access goes on. From spec/10_shuzo_scalar.md. -/
def Obligations.IssueAndAddressChecks : Prop :=
  (∀ (i : Issue) (s : State) (t : Task),
    let k := s.ctx i.core i.ctx
    let x := issueX i s t
    let can := s.taskOn i.core = some t ∧ t.phase.live = true ∧ i.core < 32 ∧ i.ctx < 8 ∧ k.started = true ∧
      k.wait = .ready ∧ s.mayIssue i.core = true
    let inRange := k.pc + wordsOf i.word ≤ s.hdr t.entry 0x0A 2
    (can → s.hdr t.entry 0x0A 2 ≤ k.pc →
        exec (.add i) s = .next ({ x with w := 0 }.fault (issueTook i s) .pcRange))
    ∧ (can → inRange → s.fetch i.core k.pc = i.word → decodeOp i.word = none →
        exec (.add i) s = .next (x.fault (issueTook i s) .illegalOp))
    ∧ (can → inRange → s.fetch i.core k.pc = i.word → decodeOp i.word = some .add → k.executes i.word = false →
        exec (.add i) s = .next (retires i s id)))
  ∧ (∀ (x : X) (s : State) (a : Word) (poison aligned : Bool) (go : Nat → State),
    (poison = true → x.withAddr s a poison aligned go = x.fault s .poisonConsumed)
    ∧ (poison = false → aligned = false → x.withAddr s a poison aligned go = x.fault s .misalignedAccess a.toNat)
    ∧ (poison = false → aligned = true → 2 ^ 48 ≤ a.toNat →
        x.withAddr s a poison aligned go = x.fault s .windowViolation a.toNat)
    ∧ (poison = false → aligned = true → a.toNat < 2 ^ 48 → x.withAddr s a poison aligned go = go a.toNat))

/-- LD and ST at rs1 + SIMM9 × size, LDX and STX at rs1 + rs2 × size, unpoisoned, aligned and below 2^48, access their
address. A load of local memory answers when its bank does; of DRAM whose line is free at once; of the Paddock by a
request to its bank and of the host by a read, for which the context waits; elsewhere it is WINDOW_VIOLATION. A store
writes local memory and DRAM, sends the Paddock a request and the host a write, is NO_CREDIT at another core's or
chip's memory, and WINDOW_VIOLATION elsewhere. From spec/10_shuzo_scalar.md, 07_on_chip_memory.md, 01_architecture.md.
-/
def Obligations.LoadsAndStores : Prop :=
  (∀ (i : Issue) (s : State) (t : Task),
    let w := i.word
    let x := issueX i s t
    let u := issueTook i s
    let k := s.ctx i.core i.ctx
    let r := k.rg (iRd w)
    let a := k.rg (iRs1 w)
    let b := k.rg (iRs2 w)
    let n := 2 ^ ib w 10 2
    let m := a.1 + sext 9 (ib w 0 9) * BitVec.ofNat 64 n
    let nx := 2 ^ ib w 0 2
    let mx := a.1 + b.1 * BitVec.ofNat 64 nx
    (a.2 = false → m.toNat % n = 0 → m.toNat < 2 ^ 48 →
        (Issues i .ld s t → exec (.ld i) s = .next (x.load s u m.toNat n (bitAt w 9)))
        ∧ (Issues i .st s t → exec (.st i) s = .next (x.store s u m.toNat n r.1 r.2)))
    ∧ (a.2 = false → b.2 = false → mx.toNat % nx = 0 → mx.toNat < 2 ^ 48 →
        (Issues i .ldx s t → exec (.ldx i) s = .next (x.load s u mx.toNat nx (bitAt w 2)))
        ∧ (Issues i .stx s t → exec (.stx i) s = .next (x.store s u mx.toNat nx r.1 r.2))))
  ∧ (∀ (x : X) (s0 s : State) (a n : Nat) (sx : Bool),
    let rd := iRd x.w
    let key := cmBase x.core + a
    ((regionOf a).isCm = true → (x.touch s a false).1 = .ok →
        let u := (x.touch s a false).2
        x.load s0 s a n sx = x.ret u (extend n sx (BitVec.ofNat 64 (u.rdNat key n))) (u.poisonAt key))
    ∧ (∀ b, regionOf a = .ob b → s.mxeIdle x.core = false → x.load s0 s a n sx = s0)
    ∧ (∀ p, regionOf a = .dram → s.place x.t.stall a false = some (.dram p) →
        (s.hdmDb p && !s.lineFree (p / 64) false) = false →
        x.load s0 s a n sx = (x.wait s (.result (some rd))).deliver x.core x.ctx (some x.t.id)
          (extend n sx (BitVec.ofNat 64 (s.rdNat p n))) (s.poisonAt p))
    ∧ (∀ o, regionOf a = .paddock → s.place x.t.stall a false = some (.paddock o) →
        x.load s0 s a n sx = x.wait (s.pdSend (x.pdReq s o (.load n sx))) (.result (some rd)))
    ∧ (∀ q b, regionOf a = .host → s.place x.t.stall a false = some (.host q b) →
        x.load s0 s a n sx = x.wait (s.emit (.hostRead q b n)) (.host rd n sx))
    ∧ (regionOf a = .dram → s.place x.t.stall a false = none → x.load s0 s a n sx = x.fault s .windowViolation a)
    ∧ ((regionOf a = .core ∨ regionOf a = .remote ∨ regionOf a = .hitch ∨ regionOf a = .none_) →
        x.load s0 s a n sx = x.fault s .windowViolation a))
  ∧ (∀ (x : X) (s0 s : State) (a n : Nat) (v : Word) (poison : Bool),
    ((regionOf a).isCm = true → (x.touch s a true).1 = .ok →
        x.store s0 s a n v poison = x.next ((x.touch s a true).2.narrowWrite (cmBase x.core + a) n v poison) id)
    ∧ (∀ p, regionOf a = .dram → s.place x.t.stall a true = some (.dram p) →
        (s.hdmDb p && !s.lineFree (p / 64) true) = false →
        x.store s0 s a n v poison = x.next (s.narrowWrite p n v poison) id)
    ∧ (∀ o, regionOf a = .paddock → s.place x.t.stall a true = some (.paddock o) →
        x.store s0 s a n v poison = x.next (s.pdSend (x.pdReq s o (.store n v poison))) id)
    ∧ (∀ q b, regionOf a = .host → s.place x.t.stall a true = some (.host q b) → poison = false →
        x.store s0 s a n v poison = x.next (s.emit (.hostWrite q b (leBytes n v.toNat) poison)) id)
    ∧ ((regionOf a = .core ∨ regionOf a = .remote) → x.store s0 s a n v poison = x.fault s .noCredit a)
    ∧ ((regionOf a = .hitch ∨ regionOf a = .none_) → x.store s0 s a n v poison = x.fault s .windowViolation a))

/-- A scalar store to DRAM at the place p that the stall's windows and blocks give its address leaves every byte
outside p to p + n as it reads before. MEM_FILL whose lines all lie in DRAM leaves every byte outside those lines.
OP_CHANGE, OP_CHANGE_COMPLETE, DROOP_ALARM, ADAPT_TICK, FAN_START, AUX_DETECT, V12B_UNDERVOLTAGE, POWER_GOOD_RETRY,
LD_QOS_INTERVAL, the mailbox reads GET_TIMESTAMP, GET_EVENT_RECORDS and GET_POISON_LIST, SET_ENDPOINT_ID, SYNC_ACK,
CRED_SYNC_RESEND, DBG_ACCESS_TIMEOUT and RRESV_RETRY leave every byte and its poison. From spec/10_shuzo_scalar.md,
15_queues_tasks_results.md, 21_power_thermal.md, 22_management_debug.md. -/
def Obligations.MemoryFrames : Prop :=
  (∀ (x : X) (s0 s : State) (a n p b : Nat) (v : Word) (poison : Bool),
    regionOf a = .dram → s.place x.t.stall a true = some (.dram p) →
    (s.hdmDb p && !s.lineFree (p / 64) true) = false → (b < p ∨ p + n ≤ b) →
    (x.store s0 s a n v poison).rdByte b = s.rdByte b)
  ∧ (∀ (s : State) (st a b : Nat) (d : Line256) (n : Nat),
    (∀ j, j < n → ∃ p, s.place st (a + 256 * j) true = some (.dram p) ∧ (b < p ∨ p + 256 ≤ b)) →
    (s.memFill st a d n).rdByte b = s.rdByte b)
  ∧ (∀ (s t : State) (c : Instr) (req a b : Nat) (v : Bool),
    (c = .opChange ∨ c = .opChangeComplete ∨ c = .droopAlarm ∨ c = .adaptTick a ∨ c = .fanStart ∨ c = .auxDetect v ∨ c = .v12bUndervoltage v ∨
      c = .powerGoodRetry ∨ c = .ldQosInterval ∨ c = .getTimestamp req ∨ c = .getEventRecords req a ∨ c = .getPoisonList req a b ∨
      c = .setEndpointId a b ∨ c = .syncAck a v ∨ c = .credSyncResend a ∨ c = .dbgAccessTimeout ∨ c = .rresvRetry a b) →
    exec c s = .next t → ∀ x, t.rdByte x = s.rdByte x ∧ t.poisonAt x = s.poisonAt x)

/-- Element atomics whose address is unpoisoned and aligned: in the P-region, once its bank answers (and, for the
fixed-point forms, its window gives a scale), the memory takes the sum or the swapped value and the forms that return
give rd the old value with its poison; in the W-region they are ATOMIC_REGION. AFADD acts in the Paddock by a request,
for which the form that returns waits; in the P-region it is ATOMIC_REGION. From spec/08_slots_rings_atomics.md,
10_shuzo_scalar.md. -/
def Obligations.ElementAtomics : Prop :=
  ∀ (i : Issue) (s : State) (t : Task),
    let x := issueX i s t
    let u := issueTook i s
    let k := s.ctx i.core i.ctx
    let a := k.rg (iRs1 i.word)
    let b := k.rg (iRs2 i.word)
    let adr := a.1.toNat
    let touched := x.touch u adr true
    let acts := fun (c : Issue → Instr) (o : Op) (f : Atom) (sc : Nat) (ret : Bool) =>
      Issues i o s t → a.2 = false → f.aligned adr = true →
        (regionOf adr = .p → touched.1 = .ok → (f.isFx = true → u.cmScale i.core adr = some sc) →
          let r := touched.2.atomic (cmBase i.core + adr) f b.1 b.2 (if f.isFx then sc else 0)
          exec (c i) s = .next (if ret then x.ret r.2.2 r.1 r.2.1 else x.next r.2.2 id))
        ∧ (regionOf adr = .w → exec (c i) s = .next (x.fault u .atomicRegion adr))
    let paddockOnly := fun (c : Issue → Instr) (o : Op) (ret : Bool) =>
      Issues i o s t → a.2 = false → adr % 4 = 0 → adr < 2 ^ 48 →
        (∀ p, regionOf adr = .paddock → u.place t.stall adr true = some (.paddock p) →
          let v := u.pdSend (x.pdReq u p (.atom .addS b.1 b.2))
          exec (c i) s = .next (if ret then x.wait v (.result (some (iRd i.word))) else x.next v id))
        ∧ (regionOf adr = .p → exec (c i) s = .next (x.fault u .atomicRegion adr))
    (∀ sc, acts .aaddW .aaddW .addW sc false ∧ acts .aaddWR .aaddWR .addW sc true ∧ acts .aaddD .aaddD .addD sc false
      ∧ acts .aaddDR .aaddDR .addD sc true ∧ acts .afxaddD .afxaddD .fxD sc false
      ∧ acts .afxaddS .afxaddS .fxS sc false ∧ acts .aswapW .aswapW .swapW sc true
      ∧ acts .aswapD .aswapD .swapD sc true)
    ∧ paddockOnly .afaddS .afaddS false ∧ paddockOnly .afaddSR .afaddSR true

/-- For a slot of the A-region: TLD of an empty slot and TST of a full one wait from the time they were first blocked;
TLD of a full slot whose bank answers returns its bytes with their poison and, unless it peeks, empties it; TST of an
empty one writes it and fills it; TSET, TCLR and TPROBE of a slot whose bank is on act on the tag alone. From
spec/08_slots_rings_atomics.md, 10_shuzo_scalar.md. -/
def Obligations.TaggedAccesses : Prop :=
  ∀ (i : Issue) (s : State) (t : Task),
    let w := i.word
    let x := issueX i s t
    let u := issueTook i s
    let k := s.ctx i.core i.ctx
    let r := k.rg (iRd w)
    let a := k.rg (iRs1 w)
    let n := 2 ^ ib w 10 2
    let al := (a.1 + sext 8 (ib w 0 8) * BitVec.ofNat 64 n).toNat
    let as := (a.1 + sext 9 (ib w 0 9) * BitVec.ofNat 64 n).toNat
    let key := fun m => cmBase i.core + m
    let waits := fun m => x.wait u (.tag (key m) ((u.ctx i.core i.ctx).since.getD u.now))
    let bankOn := bitAt (u.reg .cmCfg i.core) (32 + bankAt a.1.toNat) = false
    (Issues i .tld s t → a.2 = false → al % n = 0 → regionOf al = .a →
        (u.tagAt (key al) = false → exec (.tld i) s = .next (waits al))
        ∧ (u.tagAt (key al) = true → (x.touch u al false).1 = .ok →
            let v := (x.touch u al false).2
            exec (.tld i) s = .next (x.ret (if bitAt w 8 then v else v.putTag (key al) false)
              (extend n (bitAt w 9) (BitVec.ofNat 64 (v.rdNat (key al) n))) (v.poisonAt (key al)))))
    ∧ (Issues i .tst s t → a.2 = false → as % n = 0 → regionOf as = .a →
        (u.tagAt (key as) = true → exec (.tst i) s = .next (waits as))
        ∧ (u.tagAt (key as) = false → (x.touch u as true).1 = .ok →
            exec (.tst i) s = .next (x.next (((x.touch u as true).2.narrowWrite (key as) n r.1 r.2).putTag (key as) true) id)))
    ∧ (a.2 = false → regionOf a.1.toNat = .a → bankOn →
        (Issues i .tset s t → exec (.tset i) s = .next (x.next (u.putTag (key a.1.toNat) true) id))
        ∧ (Issues i .tclr s t → exec (.tclr i) s = .next (x.next (u.putTag (key a.1.toNat) false) id))
        ∧ (Issues i .tprobe s t → exec (.tprobe i) s =
            .next (x.ret u (if u.tagAt (key a.1.toNat) then 1 else 0) false)))

/-- Ring instructions of a context at an enabled ring of its own core: RESV returns the first index granted, or waits
in order; FILL fills its index; PUSH reserves one and fills it; POP, first in order and with its slot full and its
bank free, returns the word, empties the slot and moves HEAD on; PEEK reads the slot; STATE returns RESV and HEAD. A
fill of an index that the task does not hold is NO_CREDIT; of an empty slot of its own core's memory it writes the
word, sets the tag and spends the credit. RING_RESV_GRANT gives the oldest waiting reservation of a local party the
next indices once the credits allow. CREDIT_TIMEOUT and TAG_TIMEOUT of a waiting context advance the clock to their
limit and fault the task. Rests on log entry 5. From spec/08_slots_rings_atomics.md, 10_shuzo_scalar.md. -/
def Obligations.RingCommands : Prop :=
  (∀ (i : Issue) (s : State) (t : Task) (r : Nat),
    let x := issueX i s t
    let u := issueTook i s
    let k := s.ctx i.core i.ctx
    let d := k.rg (iRd i.word)
    let b := k.rg (iRs2 i.word)
    let w := ib i.word 0 4
    let head := u.ringHead r
    let key := u.ringKey r head
    let adr := u.ringAddr r head + 8 * w
    AtRing i s t r → ringCore r = some i.core →
      (Issues i .ringResv s t → u.canGrant r (w + 1) = true →
        exec (.ringResv i) s = .next (x.ret (u.grantCredits r (w + 1) (some t.id) 0) (BitVec.ofNat 64 (u.ringResv r)) false))
      ∧ (Issues i .ringResv s t → u.canGrant r (w + 1) = false →
        exec (.ringResv i) s = .next ((x.wait u (.resv r ((u.ctx i.core i.ctx).since.getD u.now))).waitResv r (w + 1)
          (.ctx i.core i.ctx) (some t.id)))
      ∧ (Issues i .ringFill s t → b.2 = false →
        exec (.ringFill i) s = .next (x.fillRing u r b.1.toNat d.1 d.2 fun v => x.next v id))
      ∧ (Issues i .ringPush s t → k.push = none → u.canGrant r 1 = true →
        exec (.ringPush i) s = .next (x.fillRing ((u.grantCredits r 1 (some t.id) 0).updCtx i.core i.ctx
          fun c => { c with push := some (r, u.ringResv r) }) r (u.ringResv r) b.1 b.2
            fun v => x.ret (v.updCtx i.core i.ctx fun c => { c with push := none }) (BitVec.ofNat 64 (u.ringResv r)) false))
      ∧ (Issues i .ringPop s t → u.firstPop r i.core i.ctx = true → u.tagAt key = true →
          (x.touch (u.dropPop r i.core i.ctx) adr false).1 = .ok →
        let v := (x.touch (u.dropPop r i.core i.ctx) adr false).2
        exec (.ringPop i) s = .next (x.ret ((v.putTag key false).advanceHead r)
          (BitVec.ofNat 64 (fld (BitVec.ofNat 64 (v.rdNat (cmBase i.core + adr) 8)) 0 64)) (v.poisonAt (cmBase i.core + adr))))
      ∧ (Issues i .ringPeek s t → b.2 = false →
          let o := u.ringAddr r ((head + b.1.toNat % 16) % 2 ^ 32)
          u.tagAt (cmBase i.core + o) = true →
        exec (.ringPeek i) s = .next (x.localLoad u (o + 8 * w) 8 false id))
      ∧ (Issues i .ringState s t →
        exec (.ringState i) s = .next (x.ret u (BitVec.ofNat 64 (u.ringResv r * 2 ^ 32 + head)) false)))
  ∧ (∀ (x : X) (s : State) (r k : Nat) (v : Word) (p : Bool) (done : State → State),
    let key := cmBase x.core + s.ringAddr r k
    let a := s.ringAddr r k + 8 * x.imm4
    (s.holdsCredit r k (some x.t.id) 0 = false → x.fillRing s r k v p done = x.fault s .noCredit)
    ∧ (s.holdsCredit r k (some x.t.id) 0 = true → ringCore r = some x.core → s.tagAt key = false →
        (x.touch s a true).1 = .ok →
        x.fillRing s r k v p done =
          done ((((x.touch s a true).2.narrowWrite (cmBase x.core + a) 8 v p).putTag key true).spendCredit r k)))
  ∧ (∀ (s : State) (t : Task) (c x : Nat),
    let k := s.ctx c x
    let w := s.fetch c k.pc
    let lim := s.tagLimit t.stall
    (∀ r (q : RWait) rest, (s.ring r).waiters = q :: rest → q.n ≤ s.ringCredits r → s.ringOn r = true →
        (∀ core h, q.who ≠ .remote core h) →
        exec (.ringResvGrant r) s = .next (((s.setRing r { s.ring r with waiters := rest }).grantCredits r q.n q.task 0).granted
          q r (s.ringResv r)))
    ∧ (s.taskOn c = some t → t.phase.live = true → k.ret = none → ∀ r since, k.wait = .resv r since →
        exec (.creditTimeout c 0 x) s = .next (((s.notBefore (since + lim)).dropResv r (.ctx c x)).taskFault t.id
          .creditTimeout 0 c (some x) k.pc
          (((s.notBefore (since + lim)).dropResv r (.ctx c x)).fetch c k.pc) 0
          (k.rg (iRs1 (((s.notBefore (since + lim)).dropResv r (.ctx c x)).fetch c k.pc))).1.toNat))
    ∧ (s.taskOn c = some t → t.phase.live = true → k.ret = none → ∀ key since, k.wait = .tag key since →
        exec (.tagTimeout c 0 x) s = .next ((s.notBefore (since + lim)).taskFault t.id .tagTimeout 0 c (some x) k.pc w
          (devAddr c key) (bit ((s.notBefore (since + lim)).tagAt key)))))

/-- At a hitch of the stall's range, with rs2 unpoisoned: HWR and HADDN send their operation to the core's port, add
the hitch to the task's set and go on; HADD, HWAIT.GE, HWAIT.EQ, HWAIT.NE, HRD and, while a slot is free or holds the
hitch, HMON send theirs and wait for the value. HMWAIT with a fired slot returns its address and frees it; HMCLR
disarms all. In the store a write goes to the hitch; a read or add at a poisoned hitch is POISON_CONSUMED; with bit 63
set an add or wait is HITCH_ABORTED; an add takes the sum modulo 2^64 and returns the old value if asked; a met wait
returns. HITCH_BANK_ACCESS performs a bank's oldest operation after the quadrant ports deliver; HITCH_RELEASE_SEEN
shows a core's engines and contexts the oldest release message; HITCH_TIMEOUT of an unmet wait advances the clock to
its limit and counts and faults it. Rests on log entry 5. From spec/13_hitches.md, 10_shuzo_scalar.md. -/
def Obligations.HitchCommands : Prop :=
  (∀ (i : Issue) (s : State) (t : Task) (h : Nat),
    let x := issueX i s t
    let u := issueTook i s
    let k := s.ctx i.core i.ctx
    let b := k.rg (iRs2 i.word)
    let v := u.inHitchSet (some t.id) h
    let req := fun (op : HOp) => (⟨h, op, i.core, 0, i.ctx, t.id, k.pc, i.word⟩ : HReq)
    let asks := fun (op : HOp) => Host.Outcome.next ((x.wait v (.result (some (iRd i.word)))).hitchSend (req op))
    let goes := fun (op : HOp) => Host.Outcome.next ((x.next v id).hitchSend (req op))
    (AtHitch i s t h → b.2 = false →
      (Issues i .hwr s t → exec (.hwr i) s = goes (.write b.1))
      ∧ (Issues i .haddn s t → exec (.haddn i) s = goes (.add b.1 false))
      ∧ (Issues i .hadd s t → exec (.hadd i) s = asks (.add b.1 true))
      ∧ (Issues i .hwaitGe s t → exec (.hwaitGe i) s = asks (.wait .ge b.1))
      ∧ (Issues i .hwaitEq s t → exec (.hwaitEq i) s = asks (.wait .eq b.1))
      ∧ (Issues i .hwaitNe s t → exec (.hwaitNe i) s = asks (.wait .ne b.1)))
    ∧ (AtHitch i s t h → Issues i .hrd s t → exec (.hrd i) s = asks .read)
    ∧ (AtHitch i s t h → Issues i .hmon s t → (decide (4 ≤ k.mon.length) && k.mon.all fun m => m.2.idx != h) = false → exec (.hmon i) s = asks .mon)
    ∧ (Issues i .hmwait s t → k.mon ≠ [] → ∀ n j, k.firedSlot = some (n, j) →
        exec (.hmwait i) s = .next (retires i s fun c =>
          { c with mon := Tbl.erase n c.mon }.wg (iRd i.word) (BitVec.ofNat 64 (u.hitchAddr t.stall j)) false))
    ∧ (Issues i .hmclr s t → exec (.hmclr i) s = .next (retires i s fun c => { c with mon := [] })))
  ∧ (∀ (s : State) (r : HReq),
    let v := s.hitch r.idx
    let back := fun (t : State) => t.deliver r.core r.ctx (some r.task) v false
    (∀ w, r.op = .write w → s.hitchDo r = s.hitchWrite r.idx w)
    ∧ (s.hitchPoison r.idx = true → (r.op = .read ∨ ∃ w ret, r.op = .add w ret) → s.hitchDo r = r.fault s .poisonConsumed)
    ∧ (s.hitchPoison r.idx = false →
        (r.op = .read → s.hitchDo r = back s)
        ∧ (∀ w ret, r.op = .add w ret → bitAt v 63 = true → s.hitchDo r = r.fault s .hitchAborted)
        ∧ (∀ w, r.op = .add w true → bitAt v 63 = false → s.hitchDo r = back (s.hitchWrite r.idx (v + w)))
        ∧ (∀ w, r.op = .add w false → bitAt v 63 = false → s.hitchDo r = s.hitchWrite r.idx (v + w))
        ∧ (∀ c w, r.op = .wait c w → bitAt v 63 = true →
            s.hitchDo r = r.fault (s.countAborted (s.stallOfTask r.task)) .hitchAborted)
        ∧ (∀ c w, r.op = .wait c w → bitAt v 63 = false → c.met v w = true → s.hitchDo r = back s)))
  ∧ (∀ (s : State) (t : Task) (c x : Nat),
    let k := s.ctx c x
    let lim := s.hitchLimit t.stall
    (∀ b, b < 16 → exec (.hitchBankAccess b) s =
        .next ((((((s.deliverPort b 0).deliverPort b 1).deliverPort b 2).deliverPort b 3)).hitchBankStep b))
    ∧ (∀ j v rest, (s.core c).bus = (j, v) :: rest →
        let u := s.updCore c fun q => { q with bus := rest }
        u.taskOn c = some t → t.phase.live = true →
        exec (.hitchReleaseSeen c) s = .next ((List.range 3).foldl (fun s e => s.spinSees c t.stall j v e)
          ((List.range 8).foldl (fun s x => s.ctxSees c t.stall j v x) u)))
    ∧ (s.taskOn c = some t → t.phase.live = true → k.ret = none → ∀ q j w since v, k.wait = .hitch q j w since v →
        exec (.hitchTimeout c 0 x) s = .next (((s.notBefore (since + lim)).addF .hitchStat t.stall 16 16 1).waiterFault c 0 x
          .hitchTimeout j (w.toNat + 2 ^ 64 * v.toNat))))

/-- At an enabled barrier of the stall with ENG 3: BAR.ARRIVE, BAR.WAIT with a joined record of that barrier, and
BAR.SYNC send their operation to the counter hitch, add it to the hitch set and wait. BARRIER_WAKE completes a context
whose release has come. An arrival at a counter that is neither poisoned nor aborted: below COUNT it adds one to
ARRIVED and keeps GEN; the one that reaches COUNT sets ARRIVED to 0 and moves GEN on modulo 2^31, and is traced. From
spec/13_hitches.md, 10_shuzo_scalar.md. -/
def Obligations.BarrierCommands : Prop :=
  (∀ (i : Issue) (s : State) (t : Task),
    let x := issueX i s t
    let u := issueTook i s
    let k := s.ctx i.core i.ctx
    let n := fld i.word 32 9
    let d := (u.active.barrier t.stall).1 + n
    let h := (u.active.hitch t.stall).1 + u.f .barrierCtl d 32 14
    let asks := fun (op : HOp) => Host.Outcome.next ((x.wait (u.inHitchSet (some t.id) h) (.result none)).hitchSend
      ⟨h, op, i.core, 0, i.ctx, t.id, k.pc, i.word⟩)
    (queueOf i.word = 3 → n < (u.active.barrier t.stall).2 → u.inView (fun b => b.inRange Copy.barrier t.stall d) = true →
        u.f .barrierCtl d 0 1 ≠ 0 →
        (Issues i .barArrive s t → exec (.barArrive i 3) s = asks (.arrive d 3 false))
        ∧ (∀ g, k.joined = some (d, g) → Issues i .barWait s t → exec (.barWait i 3) s = asks (.bwait d 3 g))
        ∧ (Issues i .barSync s t → exec (.barSync i 3) s = asks (.arrive d 3 true)))
    ∧ (∀ c y b j g since v p, (s.ctx c y).wait = .barrier b j g since → (s.ctx c y).ret = some (v, p) →
        exec (.barrierWake c 0 y) s = .next (s.complete c y none 0 false)))
  ∧ (∀ (s : State) (r : HReq) (b e : Nat),
    let v := s.hitch r.idx
    let count := s.f .barrierCtl b 16 10
    r.op = .arrive b e false → s.f .barrierCtl b 0 1 ≠ 0 → s.hitchPoison r.idx = false → bitAt v 63 = false →
      (arrivedOf v + 1 < count →
        s.hitchDo r = r.finish (r.join (s.hitchWrite r.idx (BitVec.ofNat 64 (arrivedOf v + 1 + genOf v * 2 ^ 32))) b (genOf v))
          (BitVec.ofNat 64 (genOf v)))
      ∧ (count ≤ arrivedOf v + 1 →
        s.hitchDo r = r.finish ((r.join (s.hitchWrite r.idx (BitVec.ofNat 64 ((genOf v + 1) % 2 ^ 31 * 2 ^ 32))) b (genOf v)).trace
          ((r.join (s.hitchWrite r.idx (BitVec.ofNat 64 ((genOf v + 1) % 2 ^ 31 * 2 ^ 32))) b (genOf v)).stallOfTask r.task)
            7 noCore 0 r.task b) (BitVec.ofNat 64 (genOf v))))

/-- For every engine instruction that issues: with a place free in its queue and its used address operands unpoisoned,
it enters the queue's end with its operands, their poison, PC, c4 to c6 and place in the order of issue captured; with
the queue full the context does not issue and nothing changes; with a place free and a used operand poisoned it is
POISON_CONSUMED. From spec/11_shuzo_tensor.md, 10_shuzo_scalar.md. -/
def Obligations.EngineIssue : Prop :=
  ∀ (i : Issue) (s : State) (t : Task) (o : Op),
    let x := issueX i s t
    let u := issueTook i s
    let k := s.ctx i.core i.ctx
    let a := k.rg (iGA i.word)
    let b := k.rg (iGB i.word)
    let c := k.rg (iGC i.word)
    let e := queueOf i.word
    let used := addressOperands o i.word
    let bad := (used.1 && a.2) || (used.2.1 && b.2) || (used.2.2 && c.2)
    let op : EOp := { ctx := i.ctx, pc := k.pc, word := i.word, ga := a.1, gb := b.1, gc := c.1, gap := a.2, gbp := b.2
                      gcp := c.2, tick := u.cx.issued, c4 := k.c4, c5 := k.c5, c6 := k.c6, done := 0, since := none
                      began := false }
    let v := u.setCore i.core ((u.core i.core).setQueue e ((u.core i.core).queue e ++ [op]))
    Issues i o s t → isWide i.word = true → e ≠ 3 →
      (depth ((u.core i.core).queue e) < queuePlaces → bad = false →
        exec (.engineIssue i) s = .next (x.next { v with cx := { v.cx with issued := v.cx.issued + 1 } } id))
      ∧ (queuePlaces ≤ depth ((u.core i.core).queue e) → exec (.engineIssue i) s = .next s)
      ∧ (depth ((u.core i.core).queue e) < queuePlaces → bad = true →
        exec (.engineIssue i) s = .next (x.fault u .poisonConsumed))

/-- A VXE instruction at the head of its queue: each two-, one- and three-operand lane operation gives every 32-bit
lane of VD the integer (T = 0) or FP32 (T = 1) result of the sources' lanes and each lane pair the poison of its
sources; VSPLAT, VIOTA and VBEXP give their constants; VRSUM, VRMAX and VRMIN reduce segments of 2^m lanes for m from
1 to 6 and are UNDEF_OPERAND for 0 and 7; VEXP2, VLOG2, VRCP and VSQRT give the rounded value of each FP32 lane and
are UNDEF_OPERAND for T = 0; VRSQRT likewise, with a free value for −0 (the spec states none); VCVT converts between
FP32 and INT32; VSLIDE shifts by whole bytes and an unpoisoned source gives an unpoisoned result; VMXQ of an MX format
leaves its shared scale in byte 252. The instruction leaves its queue. Rests on log entry 8. From
spec/11_shuzo_tensor.md, 12_number_formats.md. -/
def Obligations.VectorLanesAndFunctions : Prop :=
  (∀ (c : Nat) (s : State) (t : Task) (o : EOp) (q : List EOp),
    let e := headE c 1 t o false
    let u := vxeCounted c s
    let ty := iT o.word
    let a := e.va u
    let b := e.vb u
    let d := e.vc u
    let one := fun (cmd : Nat → Instr) (op : Op) (f : Nat → Nat) =>
      Heads c 1 op s t o q → exec (cmd c) s = .next (e.put u (ofLanes fun n => f (lane a.1 n)) a.2)
    let two := fun (cmd : Nat → Instr) (op : Op) (f : Nat → Nat → Nat) =>
      Heads c 1 op s t o q → exec (cmd c) s = .next (e.put u (ofLanes fun n => f (lane a.1 n) (lane b.1 n)) (a.2 ||| b.2))
    let three := fun (cmd : Nat → Instr) (op : Op) (f : Nat → Nat → Nat → Nat) =>
      Heads c 1 op s t o q → exec (cmd c) s =
        .next (e.put u (ofLanes fun n => f (lane a.1 n) (lane b.1 n) (lane d.1 n)) (a.2 ||| b.2 ||| d.2))
    two .vadd .vadd (fun x y => if ty then f32Add x y else w32 (x + y))
    ∧ two .vsub .vsub (fun x y => if ty then f32Sub x y else w32 (x - y))
    ∧ two .vmul .vmul (fun x y => if ty then f32Mul x y else w32 (x * y))
    ∧ two .vmin .vmin (fun x y => if ty then f32Min x y else if i32 x ≤ i32 y then x else y)
    ∧ two .vmax .vmax (fun x y => if ty then f32Max x y else if i32 x ≤ i32 y then y else x)
    ∧ two .vand .vand (fun x y => x &&& y) ∧ two .vor .vor (fun x y => x ||| y) ∧ two .vxor .vxor (fun x y => x ^^^ y)
    ∧ two .vsll .vsll (fun x y => x <<< (y % 32) % 2 ^ 32) ∧ two .vsrl .vsrl (fun x y => x >>> (y % 32))
    ∧ two .vsra .vsra (fun x y => w32 (i32 x / 2 ^ (y % 32)))
    ∧ two .vcmpeq .vcmpeq (fun x y => maskOf (if ty then (ofF32 x).eq (ofF32 y) else x == y))
    ∧ two .vcmplt .vcmplt (fun x y => maskOf (if ty then (ofF32 x).lt (ofF32 y) else decide (i32 x < i32 y)))
    ∧ two .vcmple .vcmple (fun x y =>
        maskOf (if ty then (ofF32 x).lt (ofF32 y) || (ofF32 x).eq (ofF32 y) else decide (i32 x ≤ i32 y)))
    ∧ one .vabs .vabs (fun x => if ty then x % 2 ^ 31 else if i32 x < 0 then w32 (-(i32 x)) else x)
    ∧ one .vneg .vneg (fun x => if ty then x ^^^ 2 ^ 31 else w32 (-(i32 x))) ∧ one .vmov .vmov id
    ∧ three .vsel .vsel (fun x y z => if z ≠ 0 then x else y)
    ∧ three .vfma .vfma (fun x y z => if ty then f32Fma false false x y z else w32 (x * y + z))
    ∧ three .vfms .vfms (fun x y z => if ty then f32Fma false true x y z else w32 (x * y - z))
    ∧ three .vfnma .vfnma (fun x y z => if ty then f32Fma true false x y z else w32 (z - x * y)))
  ∧ (∀ (c : Nat) (s : State) (t : Task) (o : EOp) (q : List EOp),
    let e := headE c 1 t o false
    let u := vxeCounted c s
    let ty := iT o.word
    let a := e.va u
    let m := iImm22 o.word
    let red := fun (cmd : Nat → Instr) (op : Op) (f : Nat → Nat → Nat) =>
      Heads c 1 op s t o q →
        (1 ≤ m % 8 → m % 8 ≤ 6 → exec (cmd c) s = .next (e.put u
          (ofLanes fun j => nth (tree f (m % 8) ((List.range 64).map (lane a.1))) (j / 2 ^ (m % 8))) (segmentPoison a.2 (m % 8))))
        ∧ ((m % 8 = 0 ∨ m % 8 = 7) → exec (cmd c) s = .next (e.fault u .undefOperand))
    let fn := fun (cmd : Nat → Instr) (op : Op) (f : Machine.Num → Machine.Num) =>
      Heads c 1 op s t o q →
        (ty = true → exec (cmd c) s = .next (e.put u (ofLanes fun n => toF32 (f (ofF32 (lane a.1 n)))) a.2))
        ∧ (ty = false → exec (cmd c) s = .next (e.fault u .undefOperand))
    (Heads c 1 .vsplat s t o q → exec (.vsplat c) s = .next (e.put u (ofLanes fun _ => o.ga.toNat) (allPoison o.gap)))
    ∧ (Heads c 1 .viota s t o q → exec (.viota c) s = .next (e.put u (ofLanes fun n => n + m % 2 ^ 16) 0))
    ∧ (Heads c 1 .vbexp s t o q → exec (.vbexp c) s =
        .next (e.put u (ofLanes fun n => maskOf (bitAt o.ga n)) (allPoison o.gap)))
    ∧ red .vrsum .vrsum (addLane ty) ∧ red .vrmax .vrmax (maxLane ty) ∧ red .vrmin .vrmin (minLane ty)
    ∧ fn .vexp2 .vexp2 numExp2 ∧ fn .vlog2 .vlog2 numLog2 ∧ fn .vrcp .vrcp numRcp ∧ fn .vsqrt .vsqrt numSqrt
    ∧ (Heads c 1 .vrsqrt s t o q → ty = true →
        exec (.vrsqrt c) s = .next (e.put (if (List.range 64).any fun n => lane a.1 n == negZero then u.draw.2 else u)
          (ofLanes fun n => if lane a.1 n = negZero then u.draw.1.toNat else toF32 (numRsqrt (ofF32 (lane a.1 n)))) a.2))
    ∧ (Heads c 1 .vcvt s t o q → exec (.vcvt c) s = .next (e.put u (ofLanes fun n =>
        encodeFmt (if ty then 7 else 2) (e.rnd (2 ^ 26 + 64 * iVD o.word + n)) e.ovf (laneValue (!ty) (lane a.1 n))) a.2))
    ∧ (Heads c 1 .vslide s t o q → ∃ p : Word32, exec (.vslide c) s = .next (e.put u (a.1 <<< (8 * (m % 256))) p)
        ∧ (a.2 = 0 → p = 0))
    ∧ (Heads c 1 .vmxq s t o q → ty = true → isMx (fld o.word 50 4) = true →
        ∃ d p, exec (.vmxq c) s = .next (e.put u d p)
          ∧ d.toNat >>> 2016 % 2 ^ 8 = (e.quantise (fld o.word 50 4) 0 a.1).1 % 2 ^ 8))

/-- VLD of a plain format, outside the operand buffers, whose line answers puts the converted lanes with their poison
in VD, VLD.C consuming and VLD.P peeking a slot; VST and VST.F write the formed line, VST.F filling the slot; VAADD.W,
VAADD.D and VFXADD add their lanes to an aligned line of the P-region whose bank answers, the forms with R returning
the line as it was in VD. From spec/11_shuzo_tensor.md, 08_slots_rings_atomics.md, 12_number_formats.md. -/
def Obligations.VectorMemory : Prop :=
  ∀ (c : Nat) (meet : Bool) (s : State) (t : Task) (o : EOp) (q : List EOp),
    let e := headE c 1 t o meet
    let u := vxeCounted c s
    let a := e.lineAddr.toNat
    let fmt := fld o.word 50 4
    let key := cmBase c + a
    let load := fun (cmd : Nat → Bool → Instr) (op : Op) (tag consume : Bool) =>
      Heads c 1 op s t o q → fmt ≤ 7 → fld o.word 47 3 < groups fmt → lineCheck e.lineAddr .cmOb tag = none →
        (regionOf a).isOb = false → ∀ d p v, e.readLine u portVxe a meet tag consume = .ok d p v →
          exec (cmd c meet) s = .next (e.put v (ofLanes (e.loadLane d (0, 0) 0)) (e.loadPoison p false))
    let stores := fun (cmd : Nat → Bool → Instr) (op : Op) (fill : Bool) =>
      Heads c 1 op s t o q → fmt ≤ 7 → iVA o.word + 32 / fmtBits fmt - 1 ≤ 7 → lineCheck e.lineAddr .cmOb fill = none →
        (regionOf a).isOb = false →
        let l := e.storeLine u fmt a
        ∀ d p v, e.writeLine u portVxe a l.1 l.2 meet fill = .ok d p v → exec (cmd c meet) s = .next (e.over v)
    let adds := fun (cmd : Nat → Bool → Instr) (op : Op) (ret fx : Bool)
        (f : State → Line256 × Word32 → Nat → Line256 × Word32) =>
      Heads c 1 op s t o q → (fx = true → fld o.word 47 2 ≠ 3) → a % 256 = 0 → regionOf a = .p →
        ∀ sc, (if fx then u.cmScale c a else some 0) = some sc →
        ∀ v, u.cmTouch c portVxe a true meet o.ctx o.pc o.word = (.ok, v) →
          let old := v.rdLine key
          let new := f v old sc
          exec (cmd c meet) s = .next (if ret then e.put (v.wrLine key new.1 new.2) old.1 new.2
            else e.over (v.wrLine key new.1 new.2))
    load .vld .vld false false ∧ load .vldC .vldC true true ∧ load .vldP .vldP true false
    ∧ stores .vst .vst false ∧ stores .vstF .vstF true
    ∧ adds .vaaddW .vaaddW false false (fun v old _ => addLine 4 old (e.va v))
    ∧ adds .vaaddWR .vaaddWR true false (fun v old _ => addLine 4 old (e.va v))
    ∧ adds .vaaddD .vaaddD false false (fun v old _ => addLine 8 old (e.va v))
    ∧ adds .vaaddDR .vaaddDR true false (fun v old _ => addLine 8 old (e.va v))
    ∧ adds .vfxadd .vfxadd false true (fun v old sc => e.fxLanes v old sc)
    ∧ adds .vfxaddR .vfxaddR true true (fun v old sc => e.fxLanes v old sc)

/-- An MXE instruction at the head of its queue: MX.LDA, MX.LDB and MX.LDC whose lines fit their buffer load them one
by one, each line read and written to its place, a blocked one holding the instruction there, the last one ending it;
MX.MMA whose panels fit and whose formats form a family adds the 32 rows of the product to its tile; MX.DRAIN writes a
tile's rows, scaled to the format, line by line; MX.ZERO clears its tiles. From spec/11_shuzo_tensor.md,
12_number_formats.md. -/
def Obligations.MatrixInstructions : Prop :=
  (∀ (c : Nat) (meet : Bool) (s : State) (t : Task) (o : EOp) (q : List EOp),
    let e := headE c 0 t o meet
    let f := headE c 0 t o false
    let w := o.word
    let lines := fld w 32 10
    let tile := fld w 4 4
    let load := fun (cmd : Nat → Bool → Instr) (op : Op) (n : Nat) =>
      Heads c 0 op s t o q → lines ≠ 0 → fld w 50 9 + lines ≤ obLines n →
        exec (cmd c meet) s = .next (e.mxLoad n (fld w 50 9) (lines - o.done) o.done s)
    load .mxLda .mxLda 0 ∧ load .mxLdb .mxLdb 1 ∧ load .mxLdc .mxLdc 2
    ∧ (∀ fam, Heads c 0 .mxMma s t o q → familyOf (fld w 12 4) (fld w 8 4) = some fam → fam.mx = false →
        let k := 8 * (fld w 32 8 + 1)
        2048 * fld w 56 8 + 32 * k * fmtBits (fld w 12 4) ≤ 65536 * 8 →
        2048 * fld w 48 8 + 64 * k * fmtBits (fld w 8 4) ≤ 65536 * 8 →
        let p : Panels := ⟨fld w 12 4, fld w 8 4, obKey c 0 (fld w 56 8), obKey c 1 (fld w 48 8), obKey c 0 (fld w 40 8),
          obKey c 1 (fld w 40 8), k, fam⟩
        exec (.mxMma c) s = .next (f.over (((List.range 32).foldl (fun u n =>
            u.wrLine (accKey c tile n 0) (u.mmaRow p c tile (bitAt w 3) n).1 (u.mmaRow p c tile (bitAt w 3) n).2) s).updCore c
          fun g => { g with intTiles := KSet.set fam.int tile g.intTiles })))
    ∧ (Heads c 0 .mxDrain s t o q → fld w 12 4 ≤ 7 → fld w 48 6 ≠ 0 → fld w 54 5 + fld w 48 6 ≤ 32 →
        fld w 48 6 * 64 * fmtBits (fld w 12 4) % 2048 = 0 →
        exec (.mxDrain c meet) s = .next (e.drainFrom tile (fld w 54 5) (fld w 12 4) (bitAt w 3) (bitAt w 2)
          (KSet.has (s.core c).intTiles tile) (fld w 48 6 * 64 * fmtBits (fld w 12 4) / 2048 - o.done) o.done s))
    ∧ (Heads c 0 .mxZero s t o q → tile + fld w 32 4 + 1 ≤ 16 →
        exec (.mxZero c) s = .next (f.over ((List.range (32 * (fld w 32 4 + 1))).foldl
          (fun u n => u.zeroRow c (tile + n / 32) (n % 32)) s))))
  ∧ (∀ (e : E) (n doff f r : Nat) (s : State),
    let a : Word := e.o.ga + BitVec.ofNat 64 (256 * r)
    let tc := bitAt e.o.word 15
    e.mxLoad n doff 0 r s = e.over s
    ∧ (lineCheck a .cm tc = none → (∀ d p v, e.readLine s portMxe a.toNat (e.meet && r == e.o.done) tc tc = .ok d p v →
        e.mxLoad n doff (f + 1) r s = e.mxLoad n doff f (r + 1) (v.wrLine (obKey e.core n (doff + r)) d p)))
    ∧ (lineCheck a .cm tc = none → (∀ v, e.readLine s portMxe a.toNat (e.meet && r == e.o.done) tc tc = .blocked v →
        e.mxLoad n doff (f + 1) r s = e.block v r)))

/-- A DMA instruction at the head of its queue: STREAM.GO with a count from 1 to 65,535, an aligned readable list and
a place free appends a stream; MSET and MCOPY that pass their checks perform their lines in order; CAROUSEL.STEP
within its ranges starts the unit's step; STREAM.CANCEL cancels its queue's streams and ends. MSET's lines: with
TAGMODE 1 a full slot holds the instruction at that line; otherwise the pattern is written with its poison, the tag is
set, cleared or kept as TAGMODE says, and the next line follows. From spec/14_streams.md, 08_slots_rings_atomics.md,
11_shuzo_tensor.md. -/
def Obligations.DmaInstructions : Prop :=
  (∀ (c : Nat) (s : State) (t : Task) (o : EOp) (q : List EOp),
    let e := headE c 2 t o false
    let n := fld o.word 0 3
    let k := o.gb.toNat
    let a := o.ga.toNat
    let room := s.outstanding c < outstandingMax
    let st : Stream := { id := (s.freshId c).1, ctx := o.ctx, pc := o.pc, word := o.word, base := a, count := k, read := 0
                         xfers := [], runAt := none, walk := none, seqn := none, early := 0, tick := o.tick }
    (Heads c 2 .streamGo s t o q → 1 ≤ k → k ≤ 65535 → s.streamOn c n = true → a % 32 = 0 → a < 2 ^ 48 →
        (∀ j, j < k → s.listEntryOk t.stall (a + 32 * j) = true) → (s.streamQ c n).length < 4 →
        exec (.streamGo c) s = .next (e.over ((s.freshId c).2.setStreamQ c n (s.streamQ c n ++ [st]))))
    ∧ (Heads c 2 .mset s t o q → e.mopCheck s k none = none → room →
        exec (.mset c) s = .next (e.mopFrom none k 0 s))
    ∧ (Heads c 2 .mcopy s t o q → e.mopCheck s o.gc.toNat (some o.gb) = none → room →
        exec (.mcopy c) s = .next (e.mopFrom (some o.gb) o.gc.toNat 0 s))
    ∧ (let m := fld o.word 0 13
       let src := fld o.word 52 12
       let dst := fld o.word 40 12
       Heads c 2 .carouselStep s t o q → 1 ≤ m → m ≤ 4096 → src + m ≤ 4096 → dst + m ≤ 4096 →
        (dst + m ≤ src ∨ src + m ≤ dst) → room →
        exec (.carouselStep c) s = .next ((s.beginHead c 2).updCar c fun g => { g with
          step := g.step + 1, src := src, dst := dst, lines := m, sent := 0, got := 0, active := true, lastRead := false }))
    ∧ (let u := ((s.beginHead c 2).cancelQueue c n t).settleStaged
       Heads c 2 .streamCancel s t o q →
        exec (.streamCancel c) s = .next (if u.poisonPending then u else u.popQueue c 2)))
  ∧ (∀ (e : E) (f j key : Nat) (s u : State),
    let mode := fld e.o.word 0 2
    let d := e.o.ga.toNat + 256 * j
    let v : Line256 := (List.range 32).foldl (fun v i => v ||| (e.o.gc.setWidth 2048 <<< (64 * i))) 0
    let w := u.wrLine key v (if e.o.gcp then BitVec.allOnes 32 else 0)
    e.mopKey s d true = some (key, u) →
      e.mopFrom none 0 j s = e.over s
      ∧ (mode = 1 → u.tagAt key = true → e.mopFrom none (f + 1) j s = e.block u j)
      ∧ (mode = 1 → u.tagAt key = false → e.mopFrom none (f + 1) j s = e.mopFrom none f (j + 1) (w.putTag key true))
      ∧ (mode = 2 → e.mopFrom none (f + 1) j s = e.mopFrom none f (j + 1) (w.putTag key false))
      ∧ (mode = 0 → e.mopFrom none (f + 1) j s = e.mopFrom none f (j + 1) w))

/-- While a task runs on the core: BLOCK_LIST_ENTRY_READ of a readable, well-formed entry expands it into transfers
and moves on; STREAM_RUN starts the queue's first stream not yet running; TRANSFER_ISSUE marks the chosen queue's next
transfer issued when its check passes and its source is local; PREFETCH_COMMIT commits staged lines and marks the
transfer issued; DMA_SLOT_ACCESS gives each region one access in the order W, A, P, OB-A, OB-B, OB-C;
DMA_TRANSFER_COMPLETE moves what is left and ends the transfer; TAG_RETRY lets a blocked context or engine try again.
When they happen is left to the commands. Rests on log entry 5. From spec/14_streams.md, 07_on_chip_memory.md. -/
def Obligations.StreamSteps : Prop :=
  (∀ (c q : Nat) (s : State) (t : Task),
    RunsTask s c t →
      (∀ st p b u, s.readingStream c q = some st → s.place t.stall (st.base + 32 * st.read) false = some p →
        s.readEntry c p = some (b, false, u) → b.check = none →
        let r := addEntry st.read b st.xfers (u.core c).nextId
        exec (.blockListEntryRead c q) s = .next ((u.updCore c fun k => { k with nextId := r.2 }).updStream c q st.id fun y =>
          { y with xfers := r.1, read := y.read + 1 }))
      ∧ (∀ st rest, (s.streamQ c q).span (fun y => y.runAt.isSome) = ([], st :: rest) →
        exec (.streamRun c q) s = .next (s.updStream c q st.id fun y => { y with runAt := some s.now }))
      ∧ (let u := s.askRings c t
         ∀ st x later, u.outstanding c < outstandingMax → u.pickQueue c (readyXfer u c) (u.core c).lastQ = some q →
           u.nextXfer c q = some (st, x, later) → u.xferCheck c t.stall x = none → regionOf x.src ≠ .remote →
           exec (.transferIssue c) s = .next ((u.updCore c fun k => { k with lastQ := q }).updXfer c q x.id fun y =>
             { y with issued := true, asking := false }))
      ∧ (∀ st x later, s.nextXfer c q = some (st, x, later) → x.staged ≠ [] → canIssue st x later = true →
        s.outstanding c < outstandingMax →
        exec (.prefetchCommit c q) s = .next ((s.commitStaged (8 * c + q) (x.staged.map Prod.fst)).updXfer c q x.id fun y =>
          { y with issued := true })))
  ∧ (∀ (c : Nat) (s : State) (t : Task),
    (∀ host, exec (.dmaSlotAccess c host) s = .next
        ([Region.w, .a, .p, .ob 0, .ob 1, .ob 2].foldl (fun r g => r.1.slotIn c g r.2)
          (s.updCore c fun k => { k with accs := [] }, host)).1)
    ∧ (RunsTask s c t → ∀ id host m y x, (s.issuedXfers c t).find? (fun e => e.2 == id) = some (m, y) →
        m.again s id = some (m, x) →
        exec (.dmaTransferComplete c id host) s =
          .next (((m.run id (2 * (x.left / 64 + x.buf.length)) ⟨s, host, false⟩).s).finishXfer c m.q id))
    ∧ (RunsTask s c t → ∀ x key since meet, (s.ctx c x).ret = none → (s.ctx c x).wait = .tag key since →
        exec (.tagRetry c 0 x meet) s = .next (s.setCtx c x { s.ctx c x with wait := .ready }))
    ∧ (RunsTask s c t → ∀ unit o q meet x, 1 ≤ unit → (s.core c).queue (unit - 1) = o :: q → o.since.isSome = true →
        exec (.tagRetry c unit x meet) s = .next ((⟨c, unit - 1, o, t, meet⟩ : E).retry s)))

/-- KV.APPEND whose descriptor passes its checks plans and stores its tokens and ends; KV.WALK queues its stream, and
when that stream runs starts it; VPSCORE with an unpoisoned score posts it to the bucket named. KV_SEQ_OPEN sets the
sequence's record, KV_SEQ_CLOSE closes it, KV_SEQ_SET its limits, KV_DROP marks a page, KV_SEQ_READ returns the
record, KV_BATCH writes a list of valid, unpoisoned sequences no longer than asked, KV_COMMIT starts over the sequence
named, KV_COMMIT_PROCEED commits one and counts it; the first six complete SUCCESS. From spec/16_kv_attention.md,
11_shuzo_tensor.md, 15_queues_tasks_results.md. -/
def Obligations.KvCommands : Prop :=
  (∀ (c : Nat) (s : State) (t : Task) (o : EOp) (q : List EOp),
    let e := headE c 2 t o false
    let a := o.ga.toNat
    (∀ src pos v u data w b, Heads c 2 .kvAppend s t o q → s.outstanding c < outstandingMax → a % 32 = 0 → a < 2 ^ 48 →
        s.listEntryOk t.stall a = true → s.engineRead c t.stall a 32 [] = .ok v false u →
        let d := Append.of v
        let k := u.kseq d.seq
        (k.committing = false ∨ k.holders.contains t.id = true) → d.rsv = false → d.n ≠ 0 → d.src % 64 = 0 →
        d.pos % 4 = 0 → k.valid = true → d.layer < u.poolLayers k.pool → d.n ≤ u.poolT k.pool → k.stall = t.stall →
        k.poisoned = false → u.engineRead c t.stall d.src (d.n * u.poolB k.pool) src = .ok data b w →
        (d.pos = 0 ∨ ∃ pv pb x, u.engineRead c t.stall d.pos (4 * d.n) pos = .ok pv pb x) →
        exec (.kvAppend c src pos) s = .next (e.appendPos d src pos data w))
    ∧ (∀ d src data pv u tail np npg v w, d.pos = 0 →
        let ps := (List.range d.n).map fun j => ((u.kseq d.seq).lastpos + 1) % 2 ^ 32 + j
        u.planAppend d ps = .go tail np npg v → tail = 0 → npg = true →
        v.append d tail np npg data (tokenPoison u c t.stall d.src src) ps = some w →
        e.appendData d src data pv false u = e.over w)
    ∧ (let n := fld o.word 0 3
       let st : Stream := { id := (s.freshId c).1, ctx := o.ctx, pc := o.pc, word := o.word, base := a, count := 0, read := 0
                            xfers := [], runAt := none, walk := some a, seqn := none, early := 0, tick := o.tick }
       ∀ m, Heads c 2 .kvWalk s t o q → (s.streamQ c m).find? (fun y => y.runAt.isSome && y.walk.isSome) = none →
        s.streamOn c n = true → a % 32 = 0 → a < 2 ^ 48 → s.listEntryOk t.stall a = true → (s.streamQ c n).length < 4 →
        exec (.kvWalk c m) s = .next (e.over ((s.freshId c).2.setStreamQ c n ((s.freshId c).2.streamQ c n ++ [st]))))
    ∧ (RunsTask s c t → ∀ m y, (s.streamQ c m).find? (fun y => y.runAt.isSome && y.walk.isSome) = some y →
        exec (.kvWalk c m) s = .next (s.startWalk c m t y (y.walk.getD 0)))
    ∧ (let g := headE c 1 t o false
       let u := vxeCounted c s
       let v := g.va u
       let i := fld o.ga 0 17
       ∀ w, Heads c 1 .vpscore s t o q → fld o.ga 48 16 = 0 → (u.kseq i).valid = true → (u.kseq i).stall = t.stall →
        v.2 = 0 → u.postScore i (fld o.ga 17 23) (fld o.ga 40 8)
          (scoreOf (nth (tree (addLane true) 6 ((List.range 64).map (lane v.1))) 0)) = some w →
        exec (.vpscore c) s = .next (g.over w)))
  ∧ (∀ (s : State) (sq st : Nat) (c : Cmd),
    let i := c.field 0x10 4
    let k := s.kseq i
    let done := fun (u : State) => Host.Outcome.next ((u.kvDone sq c 0).postFlushes sq)
    (let cap := c.field 0x14 2
     let list := c.field 0x18 8
     let p := c.field 0x24 1
     Starts sq 0x30 s c st → list % 256 = 0 → s.stallPool st p = true → s.inPool p i = true → k.valid = false →
        s.cpRange st list (max 1 (listBytes cap (s.poolLayers p))) true false false = true →
        let lim := if (c.field 0x20 2, c.field 0x22 1, c.field 0x23 1) = (0, 0, 0) then
          (s.f .kvPoolLimits p 48 16, s.f .kvPoolLimits p 32 8, s.f .kvPoolLimits p 40 8)
          else (c.field 0x20 2, c.field 0x22 1, c.field 0x23 1)
        badLimits lim.1 lim.2.1 lim.2.2 cap 0 = false →
        exec (.kvSeqOpen sq) s = done (s.setKseq i { KSeq.closed with
          valid := true, pool := p, stall := st, list := list, cap := cap, tailFill := s.poolT p, lastpos := noPage
          budget := lim.1, anchor := lim.2.1, recent := lim.2.2 }))
    ∧ (Starts sq 0x31 s c st → s.startedCmd sq 0x31 (fun y => y.run.isNone && (s.kseq (y.field 0x10 4)).holders.isEmpty) = none →
        s.kvRefusal st i true = none → k.committing = false → k.holders = [] →
        exec (.kvSeqClose sq) s = done (s.closeSeq i))
    ∧ (Starts sq 0x32 s c st → s.kvRefusal st i true = none → k.poisoned = false →
        badLimits (c.field 0x20 2) (c.field 0x22 1) (c.field 0x23 1) k.cap k.pages = false →
        exec (.kvSeqSet sq) s = done (s.setKseq i { k with
          budget := c.field 0x20 2, anchor := c.field 0x22 1, recent := c.field 0x23 1 }))
    ∧ (Starts sq 0x35 s c st → s.kvRefusal st i false = none → c.field 0x14 4 + 1 < k.pages → ∀ r u,
        s.kvRead k.stall (s.recordAt k (c.field 0x14 4)) 16 = some (r, false) →
        s.kvWrite k.stall (s.recordAt k (c.field 0x14 4)) 8 (r % 2 ^ 48 + 2 ^ 48) = some u →
        exec (.kvDrop sq) s = done u)
    ∧ (Starts sq 0x36 s c st → s.kvRefusal st i false = none →
        exec (.kvSeqRead sq) s = .next ((s.completeCmd sq c.seq stSuccess 0 0 0 k.bytes).postFlushes sq))
    ∧ (Starts sq 0x34 s c st → c.field 0x18 8 % 256 = 0 → s.stallPool st (c.field 0x10 1) = true →
        s.cpRange st (c.field 0x18 8) (max 1 (4 * min (c.field 0x14 4) (s.f .kvPoolSeq (c.field 0x10 1) 0 18))) true true true = true →
        ∃ (l : List Nat) (next : Nat), exec (.kvBatch sq) s = .next (((l.zipIdx.foldl (fun u e =>
            u.cpWrite st (c.field 0x18 8 + 4 * e.2) (leBytes 4 e.1)) s).kvDone sq c 0 (leBytes 4 l.length ++ leBytes 4 next)).postFlushes sq)
          ∧ l.length ≤ c.field 0x14 4 ∧ ∀ j ∈ l, (s.kseq j).valid = true ∧ (s.kseq j).poisoned = false)
    ∧ (∀ host, Starts sq 0x33 s c st → c.field 0x14 4 = 0 →
        exec (.kvCommit sq host) s = .next ((s.nextCommit sq st c
          { todo := [], done := 0, skipped := 0, evicted := 0, first := none, cur := none } [i]).postFlushes sq))
    ∧ (∀ r j n u, s.startedCmd sq 0x33 (fun _ => true) = some c → c.run = some r → r.cur = some j → (s.sqStall sq).getD 16 = st →
        (s.kseq j).valid = true → (s.kseq j).holders = [] → (s.kseq j).poisoned = false → s.commitSeq j = some (n, u) →
        exec (.kvCommitProceed sq) s = .next (u.nextCommit sq st c
          { r with done := r.done + 1, evicted := r.evicted + n, cur := none } r.todo)))

/-- PADDOCK_BANK_ACCESS with no request held at the crossbar performs the bank's oldest request, or parks one whose
tag is not as it wants; TAG_WAIT_RETURN sends a returned request again no earlier than 32 NCLK after its return;
TAG_WAIT_REJOIN puts the requests whose tag has changed back in their banks' queues. A load returns the value with its
poison; a store writes; a tagged load empties the slot unless it peeks; a tagged store fills it; TSET and TCLR set and
clear the tag; TPROBE returns it. Rests on log entry 5. From spec/07_on_chip_memory.md, 08_slots_rings_atomics.md. -/
def Obligations.PaddockCommands : Prop :=
  (∀ (s : State) (slice bank : Nat),
    (∀ r rest, slice < 4 → bank < 32 → s.pdQueue (32 * slice + bank) = r :: rest →
        let u := (s.setPdQueue (32 * slice + bank) rest).pdCount r.off r.index (s.now - r.arrival)
        u.pdHeld (32 * slice + bank) = [] →
        (r.op.wants = none → (u.pdPerform r).pdHeld (32 * slice + bank) = [] →
          exec (.paddockBankAccess slice bank) s = .next (u.pdPerform r))
        ∧ (∀ f, r.op.wants = some f → u.tagAt (pdBase + r.off) ≠ f → (u.pdPark r).pdHeld (32 * slice + bank) = [] →
          exec (.paddockBankAccess slice bank) s = .next (u.pdPark r)))
    ∧ (∀ r t rest, Tbl.get [] s.cx.pd.returned slice = (r, t) :: rest →
        let u := s.notBefore (t + 32)
        let v := { u with cx := { u.cx with pd := { u.cx.pd with returned := Tbl.put [] u.cx.pd.returned slice rest } } }
        exec (.tagWaitReturn slice) s = .next (v.pdSend { r with arrival := v.now }))
    ∧ (let l := Tbl.get [] s.cx.pd.parked slice
       let u := { s with cx := { s.cx with pd := { s.cx.pd with
         parked := Tbl.put [] s.cx.pd.parked slice (l.filter fun e => !e.2) } } }
       exec (.tagWaitRejoin slice) s = .next ((l.filter fun e => e.2).foldl (fun v e =>
         v.setPdQueue (pdBank e.1.off) (v.pdQueue (pdBank e.1.off) ++ [{ e.1 with arrival := v.now }])) u)))
  ∧ (∀ (s : State) (r : PdReq),
    let key := pdBase + r.off
    let back := fun (t : State) (v : Word) (p : Bool) => t.deliver r.core r.ctx r.task v p
    (∀ n sx, r.op = .load n sx → s.pdPerform r = back s (extend n sx (BitVec.ofNat 64 (s.rdNat key n))) (s.poisonAt key))
    ∧ (∀ n d p, r.op = .store n d p → s.pdPerform r = s.narrowWrite key n d p)
    ∧ (∀ n sx, r.op = .tagged n sx true →
        s.pdPerform r = back s (extend n sx (BitVec.ofNat 64 (s.rdNat key n))) (s.poisonAt key))
    ∧ (∀ n sx, r.op = .tagged n sx false → s.pdPerform r =
        back (s.putTag key false) (extend n sx (BitVec.ofNat 64 (s.rdNat key n))) (s.poisonAt key))
    ∧ (∀ n d p, r.op = .fill n d p → s.pdPerform r = back ((s.narrowWrite key n d p).putTag key true) 0 false)
    ∧ (r.op = .tset → s.pdPerform r = s.putTag key true) ∧ (r.op = .tclr → s.pdPerform r = s.putTag key false)
    ∧ (r.op = .probe → s.pdPerform r = back s (if s.tagAt key then 1 else 0) false))

/-- While the device has power and is out of reset: a corrected error is counted and an uncorrectable one handled as
its memory says; ONCHIP_SCRUB and DRAM_PATROL deal with the errors of the line they read, move on and update
SCRUB_STATUS; a scrubber or patrol past its limit is marked late once. An uncorrectable error found in byte memory
leaves its codeword poisoned, whatever its data (free values), and one already poisoned changes nothing. Rests on log
entry 6. From spec/09_memory_integrity.md, 19_faults.md. -/
def Obligations.MemoryErrors : Prop :=
  (∀ s : State, s.alive = true →
    (∀ mem who addr finder, exec (.eccWriteback mem who addr finder false none) s = .next (s.foundGood ⟨mem, who, addr⟩))
    ∧ (∀ mem who addr finder, mem ≤ 8 →
        exec (.eccWriteback mem who addr finder true none) s = .next (s.foundBad ⟨mem, who, addr⟩ finder false))
    ∧ (∀ u found, s.f .eccCfg 0 0 1 = 1 → u ≤ 36 → s.scrubSkips u (Tbl.get 0 s.scrub.pos u) = false →
        let v := ((found.filter fun e => decide (e.1 < 32)).foldl
          (fun t e => t.scrubFinds (scrubWord u (Tbl.get 0 s.scrub.pos u) e.1) e.2) s).scrubOn u (scrubLines u)
        exec (.onchipScrub u found) s = .next (v.setF .scrubStatus 0 0 32 (v.scrub.least (List.range 37))))
    ∧ (∀ ch found, s.f .eccCfg 0 1 1 = 1 → ch < 32 → s.stageNow ≠ 0 →
        let a := patrolLine ch (Tbl.get 0 s.scrub.pos (64 + ch))
        s.filling (a / blockSize) = false →
        let v := ((found.filter fun e => decide (e.1 < 4)).foldl
          (fun t e => t.scrubFinds ⟨7, 0, a + 64 * e.1⟩ e.2) s).scrubOn (64 + ch)
            ((found.filter fun e => decide (e.1 < 4)).foldl (fun t e => t.scrubFinds ⟨7, 0, a + 64 * e.1⟩ e.2) s).channelLines
        exec (.dramPatrol ch found) s =
          .next (v.setF .scrubStatus 0 32 16 (v.scrub.least ((List.range 32).map (64 + ·)))))
    ∧ (∀ u, s.f .eccCfg 0 0 1 = 1 → u < 37 → KSet.has s.scrub.late u = false → ∃ t, exec (.scrubLate u) s = .next t
        ∧ t.scrub.late = KSet.add u s.scrub.late)
    ∧ (∀ ch, s.f .eccCfg 0 1 1 = 1 → ch < 32 → KSet.has s.scrub.late (64 + ch) = false →
        ∃ t, exec (.dramPatrolLate ch) s = .next t ∧ t.scrub.late = KSet.add (64 + ch) s.scrub.late))
  ∧ (∀ (s : State) (c : Codeword) (finder key : Nat) (latent : Bool),
    c.mem < 8 → c.key = some key →
      (s.poisonAt key = true → s.foundBad c finder latent = s)
      ∧ (s.poisonAt key = false → (s.foundBad c finder latent).poisonAt key = true))

/-- While the device has power and is out of reset: CLASS_A_FAULT and TAMPER by monitors 1 to 3 take the class A
sequence with their code and detail; CP_RESET for reasons 1, 2 and 4 and CP_LIVENESS_TIMEOUT reset the CP;
INTERNAL_RESET_END begins start-up again. TASK_ABORT of an aborting task completes it, or only orders its end while
the CP is in reset; TASK_TIMEOUT advances the clock to the time limit, counts and faults the task; CORE_RESET for
reason 2, or 1 on an aborting task's core, STALL_FATAL of a valid stall and COMPUTE_FENCE of causes 1 to 11 act;
OSTLER_SELF_RESET that does not escalate counts, reports and restarts Ostler. Rests on log entry 5. From
spec/19_faults.md, 21_power_thermal.md, 02_stages_and_firmware.md. -/
def Obligations.FaultsAndRecovery : Prop :=
  (∀ s : State,
    (s.alive = true →
      (∀ sf a b, exec (.classAFault sf a b) s = .next (s.classA { code := if sf then .sfLost else .uncoreStateLost, cls := .a
                                                                  unit := 4, detail := a.toNat + 2 ^ 64 * b.toNat }))
      ∧ (∀ m, 1 ≤ m → m ≤ 3 → exec (.tamper m) s = .next (s.classA { code := .tamper, cls := .a, unit := 6, detail := m }))
      ∧ (∀ r, s.stageNow ≠ 0 → (r = 2 ∨ r = 4) → exec (.cpReset r) s = .next (s.cpReset r))
      ∧ (s.f .stageStatus 0 7 1 = 1 →
          (s.stageNow ≠ 0 → exec (.cpReset 1) s = .next (s.cpReset 1))
          ∧ exec .cpLivenessTimeout s = .next ((s.notBefore (s.ras.cpAlive + s.cpLimit)).cpReset 3)))
    ∧ (let u := { s with ras := { s.ras with internalReset := none } }
       s.ras.internalReset.isSome = true → u.inReset = false → exec .internalResetEnd s = .next u.beginStart))
  ∧ (∀ (s : State) (id core reason st mem cause : Nat) (t : Task),
    (s.task? id = some t → t.phase = .aborting →
      (s.ras.cpInReset = false → exec (.taskAbort id) s = .next (s.abortTasks [id] stFault 0))
      ∧ (s.ras.cpInReset = true → exec (.taskAbort id) s = .next (s.abortOrder [id])))
    ∧ (s.task? id = some t → t.phase.live = true → let u := s.notBefore (t.startNs + (1000000 * t.limitMs - t.ranNs))
        exec (.taskTimeout id) s =
          .next ((u.addF .taskStat t.stall 32 16 1).taskFault id .taskTimeout 5 255 none 0 0 0 t.limitMs))
    ∧ (core < 32 → (reason = 2 ∨ reason = 1 ∧ ∃ t, s.taskOn core = some t ∧ t.phase = .aborting) →
        exec (.coreReset core reason) s = .next (s.resetCore core reason))
    ∧ (s.active.valid st = true → exec (.stallFatal st mem) s = .next (s.stallFatal st (mem % 16)))
    ∧ (1 ≤ cause → cause ≤ 11 → exec (.computeFence cause) s = .next (s.fenceOn cause))
    ∧ (s.mgmtUp = true →
        let u := (((s.notBefore (s.ras.ostAlive + 500000000)).updPw fun p => { p with
          leds := (s.notBefore (s.ras.ostAlive + 500000000)).ledsShown }).mgmtStop.advise .ostlerReset 6).addF .rasRecovery 0 16 16 1
        let r := escalate u.ras.ostTimes u.now minute
        r.2 = false → u.ras.ostlerHeld = false → exec .ostlerSelfReset s =
          .next { u with ras := { u.ras with ostTimes := r.1, ostlerDown := true, ostlerHeld := false } }))

/-- DCOH_REQUEST_SERVE serves its line. For a present requester with open memory: MEM_RD of a mapped line outside
HDM-DB answers its data and poison at once, and posts an event for poison; of an HDM-DB line it enters the order stage
with its tie key; MEM_WR outside HDM-DB writes and completes, and of an HDM-DB line that is neither late nor a
writeback enters the order stage; MEM_RD of an unmapped address answers zero with poison and is recorded. BIRSP of an
asked requester whose line the filter does not hold takes its snoop out; BICONFLICT of one with no own request queued
is acknowledged; BI_TIMEOUT marks the snoop late. From spec/04_host_coherence.md, 03_host_link.md. -/
def Obligations.CoherenceCommands : Prop :=
  ∀ (s : State) (req dpa line p : Nat),
    exec (.dcohRequestServe line) s = .next (s.serveLine line)
    ∧ (s.present req = true → s.memOpen req = true → s.hostMap req dpa = some p →
        (s.hdmDb p = false → ∀ mv, let d := s.readLine64 (p / 64)
          let u := s.emit (.memData req dpa d.1 d.2 .invalid)
          exec (.memRd req dpa mv) s = .next (if d.2 then u.mediaEvent 2 p else u))
        ∧ (s.hdmDb p = true → ∀ mv, exec (.memRd req dpa mv) s =
          .next (s.enterOrder (p / 64) (.hostRd req dpa mv) (s.tieKey req).1 (s.tieKey req).2))
        ∧ (s.hdmDb p = false → ∀ mv d poison, exec (.memWr req dpa mv d poison) s =
          .next ((s.writeLine64 (p / 64) d poison).emit (.memCmp req dpa)))
        ∧ (s.hdmDb p = true → s.dcoh.late.contains (req, p / 64) = false → s.isWriteback req (p / 64) = false →
          ∀ mv d poison, exec (.memWr req dpa mv d poison) s =
            .next (s.enterOrder (p / 64) (.hostWr req dpa mv d poison) (s.tieKey req).1 (s.tieKey req).2)))
    ∧ (s.present req = true → s.memOpen req = true → s.hostMap req dpa = none → ∀ mv,
        exec (.memRd req dpa mv) s = .next ((s.emit (.memData req dpa 0 true .invalid)).refuseMem req dpa))
    ∧ (s.dcoh.late.contains (req, line) = false → ∀ k sent rsp, (s.tracker line).snoops.find? (fun e => e.1 == req) =
          some (req, k, sent) → s.sf line = none →
        exec (.birsp req line rsp none) s = .next ((s.setTracker line { s.tracker line with
          snoops := (s.tracker line).snoops.filter fun e => e.1 != req }).snoopsDone line))
    ∧ ((s.tracker line).snoops.any (fun e => e.1 == req) = true →
        (s.tracker line).queue.any (fun q => q.kind.requester == some req) = false →
        exec (.biconflict req line) s = .next (s.emit (.biConflictAck req line)))
    ∧ (∀ k sent, (s.tracker line).snoops.find? (fun e => e.1 == req) = some (req, k, sent) → ∃ t,
        exec (.biTimeout req line) s = .next t ∧ t.dcoh.late.contains (req, line) = true)

/-- At a channel arbiter: a held burst whose source supplies a beat passes it; with none held and room, a choice of
none changes nothing and a choice of a request records its source as granted last in its class rank and priority.
BRIDLE_HOLD_LIMIT of a task's burst, the log empty, advances the clock to 4,096 NCLK after the grant, ends the burst,
logs and counts it and faults the task. LD_QOS_INTERVAL begins the next interval with nothing granted. The waiting
requests come with the command (the model's choice). Rests on log entries 5 and 14. From spec/17_bridle.md. -/
def Obligations.BridleCommands : Prop :=
  ∀ (s : State) (a occ : Nat) (room supply : Bool) (reqs : List BReq),
    (a < 36 → 32 ≤ a → ∀ b, s.heldBurst a = some b → supply = true →
        exec (.bridleGrant a occ room supply reqs) s = .next (s.passBeat a b))
    ∧ (a < 36 → 32 ≤ a → s.heldBurst a = none → room = true → s.chooseReq a 0 reqs = none →
        exec (.bridleGrant a occ room supply reqs) s = .next s)
    ∧ (a < 36 → 32 ≤ a → s.heldBurst a = none → room = true → ∀ r rank, s.chooseReq a 0 reqs = some (r, rank) →
        ∃ t, exec (.bridleGrant a occ room supply reqs) s = .next t
          ∧ Tbl.get 0 t.bridle.last (64 * a + 8 * (rank % 8) + s.prioOf r) = r.src)
    ∧ (∀ b id, s.heldBurst a = some b → b.task = some id → s.f .bridleHoldLog 0 63 1 = 0 →
        let u := (s.notBefore (b.since + 4096)).endBurst a b
        u.f .bridleHoldLog 0 63 1 = 0 →
        exec (.bridleHoldLimit a) s = .next (((u.setReg .bridleHoldLog 0 (BitVec.ofNat 64 (holdRecord a b))).addF
          .bridleHoldCount 0 0 32 1).taskFault id .bridleHold 4 (if b.src < 32 then b.src else 255) none 0 0 0 (holdRecord a b)))
    ∧ (let u := s.notBefore (s.bridle.ldAt + ldInterval)
       exec .ldQosInterval s = .next { u with bridle := { u.bridle with ld := [], ldAt := s.bridle.ldAt + ldInterval } })

/-- CP_FETCH of the SQ that priority and round robin choose keeps a record that starts a longer command and drops one
out of place; COMMAND_ACCEPT of an assembled command answers a repeated SEQ as a duplicate, refuses a bad one with its
status, and accepts the others, those of the KV unit only with their result slot free; CQ_IRQ_TIMER advances the clock
to its time and interrupts. A write of a new tail or head below the depth takes effect, SQ_TAIL with the requester's
index, one from the depth on is recorded; SQ_CTL.FLUSH takes all pending records away and owes one completion with
their count, highest and lowest SEQ. Rests on log entry 5. From spec/15_queues_tasks_results.md. -/
def Obligations.QueueCommands : Prop :=
  (∀ (s : State) (n : Nat),
    let q := s.sq n
    let room := s.cpRuns = true ∧ s.cqRoom (s.sqCq n) = true
    (∀ top host r h u, s.cpRuns = true →
        (List.range sqCount).foldl (fun m k => if s.fetchable k then max m (s.sqPrio k) else m) 0 = top →
        roundRobin (fun k => s.fetchable k && s.sqPrio k == top) (Tbl.get (sqCount - 1) s.q.last top) sqCount = some n →
        s.readRecord n (s.f .sqHead n 0 16) host = (some r, h, u) →
        let v := { u with q := { u.q with last := Tbl.insert top n u.q.last } }
        (recS r = true → recE r = true → 1 ≤ v.sqPending n →
          exec (.cpFetch host) s = .next (v.updSq n fun k => { k with asm := [r], asmReq := v.f .sqHead n 16 4 }))
        ∧ (recS r = false → exec (.cpFetch host) s =
          .next ((v.setF .sqHead n 0 16 ((s.f .sqHead n 0 16 + 1) % v.sqDepth n)).addF .sqStat n 0 16 1)))
    ∧ (∀ r rest, q.asm = r :: rest → room →
        let u := (s.consumeAsm n).setReg .sqSeq n (BitVec.ofNat 64 (recSeq r))
        (recSeq r ≤ s.sqLast n → exec (.commandAccept n) s = .next ((s.consumeAsm n).duplicate n (recSeq r)))
        ∧ (s.sqLast n < recSeq r → ∀ st, s.refusal q.asmReq q.asm = some st →
            exec (.commandAccept n) s = .next (u.refuseCmd n (recSeq r) st))
        ∧ (s.sqLast n < recSeq r → s.refusal q.asmReq q.asm = none → recOp r ≠ 0x20 → recOp r < 0x30 →
            exec (.commandAccept n) s = .next (u.accept n r rest q.asmReq none none))
        ∧ (s.sqLast n < recSeq r → s.refusal q.asmReq q.asm = none → 0x30 ≤ recOp r →
            let named := s.namedSlot ((s.sqStall n).getD 16) (recField r 0x28 4)
            exec (.commandAccept n) s = .next (if u.slotBusy named then u.refuseCmd n (recSeq r) stRslotBusy
              else u.accept n r rest q.asmReq none named)))
    ∧ (∀ at_, (s.cq n).firstAt = some at_ → s.cqOn n = true → s.f .cqCtl n 1 1 = 1 → s.f .cqIrq n 16 16 ≠ 0 →
        exec (.cqIrqTimer n) s = .next ((s.notBefore (at_ + 1000 * s.f .cqIrq n 16 16)).cqInterrupt n)))
  ∧ (∀ (s : State) (req n : Nat) (val : Word) (host : List Line64),
    (Accepts s req .sqTail n val →
      let u := wroteFields s req .sqTail n val
      let v := fld (val &&& carriedBits .sqTail) 0 16
      (v ≠ u.f .sqTail n 0 16 → v < u.sqDepth n →
        exec (.sqDoorbell req n val) s = .next ((u.setF .sqTail n 0 16 v).setF .sqHead n 16 4 (req % 16)))
      ∧ (v ≠ u.f .sqTail n 0 16 → u.sqDepth n ≤ v →
        exec (.sqDoorbell req n val) s = .next (u.refuseAccess req (Reg.off .sqTail n) false true)))
    ∧ (Accepts s req .cqHead n val →
      let u := wroteFields s req .cqHead n val
      let v := fld (val &&& carriedBits .cqHead) 0 16
      (v ≠ u.f .cqHead n 0 16 → v < u.cqDepth n → exec (.cqHeadWrite req n val) s = .next (u.setF .cqHead n 0 16 v))
      ∧ (v ≠ u.f .cqHead n 0 16 → u.cqDepth n ≤ v →
        exec (.cqHeadWrite req n val) s = .next (u.refuseAccess req (Reg.off .cqHead n) false true)))
    ∧ (Accepts s req .sqCtl n (val ||| 2) → bitAt val 0 = true →
      let u := wroteFields s req .sqCtl n (val ||| 2)
      let r := u.flushedSeqs n host (u.f .sqHead n 0 16) (u.sqPending n)
      let hi := r.1.foldl max 0
      let v := r.2.setF .sqHead n 0 16 (r.2.f .sqTail n 0 16)
      u.sqOn n = true → r.2.f .sqTail n 0 16 = u.f .sqTail n 0 16 →
        exec (.sqFlush req n val host) s = .next ((v.updSq n fun q => { q with
          asm := [], flushes := q.flushes ++ [(r.1.length, hi, r.1.foldl min hi)] }).postFlushes n)))

/-- A started NOP completes SUCCESS; MEM_FILL with a good length and range, its lines ready, fills its lines with the
pattern and completes; with a bad length or range it completes BAD_ADDRESS; MEM_COPY with good, disjoint ranges, its
lines ready and its host present, copies its lines and completes. From spec/15_queues_tasks_results.md. -/
def Obligations.MemoryOperations : Prop :=
  ∀ (s : State) (sq st : Nat) (c : Cmd),
    let dst := c.field 0x10 8
    let n := c.field 0x18 8
    let src := c.field 0x20 8
    let line : Line256 := (List.range 32).foldl (fun v j => v ||| (BitVec.ofNat 2048 src <<< (64 * j))) 0
    (Starts sq 0x00 s c st → exec (.nop sq) s = .next ((s.completeCmd sq c.seq stSuccess).postFlushes sq))
    ∧ (Starts sq 0x01 s c st → memLenOk n = true → s.memRange st dst n true = true → ∀ u,
        s.memReady st dst true (n / 256) = (true, u) →
        exec (.memFill sq) s = .next (((u.memFill st dst line (n / 256)).completeCmd sq c.seq stSuccess).postFlushes sq))
    ∧ (Starts sq 0x01 s c st → (memLenOk n = false ∨ s.memRange st dst n true = false) →
        exec (.memFill sq) s = .next ((s.completeCmd sq c.seq stBadAddress).postFlushes sq))
    ∧ (Starts sq 0x02 s c st → memLenOk n = true → s.memRange st dst n true = true → s.memRange st src n false = true →
        (src + n ≤ dst ∨ dst + n ≤ src) → s.hostThere st src = true → ∀ u v host,
        s.memReady st src false (n / 256) = (true, u) → u.memReady st dst true (n / 256) = (true, v) →
        exec (.memCopy sq host) s =
          .next (((v.memCopy st dst src host (n / 256)).completeCmd sq c.seq stSuccess).postFlushes sq))

/-- TASK_RUN that no check refuses makes a waiting task with the stall's next identifier; TASK_START of the first
waiting task whose team is the stall's and free, whose entry is enabled and whose arguments are read starts it;
TASK_END of a task whose cores have all ended and whose result area is read completes it SUCCESS with that result;
TASK_PREEMPT of a running task with room in the save area marks it parking; TASK_SAVE of a parked one keeps its frame,
frees and scrambles its cores and completes the preemption; TASK_RESUME of a saved one restores them and runs it;
TASK_KILL aborts it with KILLED. While a fence is in force TASK_RUN and TASK_RESUME are FENCED; TASK_PREEMPT and
TASK_KILL of a task that is not there complete BAD_TASK. From spec/15_queues_tasks_results.md, 19_faults.md. -/
def Obligations.TaskCommands : Prop :=
  (∀ (s : State) (sq st : Nat) (c : Cmd) (t : Task),
    let q := s.sq sq
    let id := c.field 0x10 4
    (∀ r rest team, q.asm = r :: rest → recOp r = 0x20 → s.cpRuns = true → s.cqRoom (s.sqCq sq) = true →
        s.sqLast sq < recSeq r → s.refusal q.asmReq q.asm = none → (s.sqStall sq).getD 16 = st →
        let named := s.namedSlot st (recField r 0x28 4)
        s.runRefusal st q.asm named = .inr team →
        let u := (s.consumeAsm sq).setReg .sqSeq sq (BitVec.ofNat 64 (recSeq r))
        let k := u.nextCount st (Tbl.get 0 u.q.counts st) (u.q.tasks.length + 2)
        let v := { u with q := { u.q with counts := Tbl.insert st k u.q.counts
                                          tasks := u.q.tasks ++ [newTask (st * 2 ^ 28 + k) st sq r team (rest.map recBody)] } }
        exec (.taskRun sq) s = .next (v.accept sq r rest q.asmReq (some (st * 2 ^ 28 + k)) named))
    ∧ (s.startable sq 0x20 = some c → c.task.bind s.task? = some t →
        t.team.all (fun k => s.active.hasCore t.stall k && !bitAt (s.reg .stageBist 0) k) = true →
        s.teamFree t.team = true → s.firstInOrder sq t.team = true →
        s.f .hrnCtl t.entry 0 1 = 1 → s.f .hrnCtl t.entry 1 4 = t.stall → ∀ u l v,
        s.argsReady t.stall t.args (inlinePieces t.inline_) = (true, u) → u.dispatchAccw t.stall t.entry = .inr (l, v) →
        exec (.taskStart sq) s = .next (v.startTask sq c t l))
    ∧ (∀ host ep u d v, s.task? t.id = some t → t.phase.live = true → s.ras.cpInReset = false →
        t.team.all (fun k => (s.core k).partDone) = true → s.hostThere t.stall t.resAddr = true →
        s.resultReady t = (true, u) → u.cpRead t.stall t.resAddr 48 host ep = some (d, false, v) →
        exec (.taskEnd t.id host ep) s = .next (v.endTask t.id stSuccess 0 d))
    ∧ (Starts sq 0x21 s c st → s.namedTask st id (· == .running) = some t → s.anyStarted t = true →
        s.saveUsed st + s.frameBytes t.entry ≤ s.saveBytes st →
        exec (.taskPreempt sq) s = .next ((((s.traceTask 3 noCore 0 t).updTask t.id fun y => { y with
          phase := .parking, frame := s.frameBytes t.entry, preempt := some (sq, c.seq) }).updCmd sq c.seq
            fun y => { y with started := true, task := some t.id }).postFlushes sq))
    ∧ (s.task? t.id = some t → t.phase = .parking → s.ras.cpInReset = false → s.anyStarted t = true →
        t.team.all (fun k => (s.core k).savable) = true →
        let f : Frame := { cores := t.team.map (s.coreFrame t.entry), hitches := s.ownHitches t }
        let u := ((t.team.foldl State.scramble (s.freeCores t)).traceTask 4 noCore 0 t).updTask t.id fun y => { y with
          phase := .saved, ranNs := t.ranNs + (s.now - t.startNs), saved := some f, preempt := none }
        (t.preempt = none → exec (.taskSave t.id) s = .next u)
        ∧ (∀ p k, t.preempt = some (p, k) → exec (.taskSave t.id) s = .next (u.completeCmd p k stSuccess 0 t.id)))
    ∧ (Starts sq 0x22 s c st → s.stage.fences = [] → s.namedTask st id (· == .saved) = some t → t.cut = false →
        t.team.all (fun k => s.active.hasCore st k) = true → s.teamFree t.team = true → ∀ f, t.saved = some f →
        let u := f.hitches.foldl (fun v h => v.hitchPoke h.1 fun _ => h.2) (f.cores.foldl (fun v k => v.restoreCore t k) s)
        exec (.taskResume sq) s = .next (((((u.updTask id fun y => { y with resume := y.resume ++ [(sq, c.seq)] }).updCmd sq c.seq
          fun y => { y with started := true, task := some id }).traceTask 5 noCore 0 t).updTask id fun y => { y with
            phase := .running
            startNs := u.now
            resumed := true, saved := none, frame := 0 }).postFlushes sq))
    ∧ (Starts sq 0x23 s c st → s.namedTask st id (fun p => p.live || p == .saved) = some t →
        exec (.taskKill sq) s = .next ((((s.updTask id fun y => { y with kill := some (sq, c.seq) }).updCmd sq c.seq fun y =>
          { y with started := true, task := some id }).abortTasks [id] stKilled 0).postFlushes sq)))
  ∧ (∀ (s : State) (sq st : Nat) (c : Cmd),
    let id := c.field 0x10 4
    (s.stage.fences ≠ [] → ∀ asm named, s.runRefusal st asm named = .inl stFenced)
    ∧ (Starts sq 0x22 s c st → s.stage.fences ≠ [] →
        exec (.taskResume sq) s = .next ((s.completeCmd sq c.seq stFenced 0 id).postFlushes sq))
    ∧ (Starts sq 0x21 s c st → s.namedTask st id (· == .running) = none →
        exec (.taskPreempt sq) s = .next ((s.completeCmd sq c.seq stBadTask 0 id).postFlushes sq))
    ∧ (Starts sq 0x23 s c st → s.namedTask st id (fun p => p.live || p == .saved) = none →
        exec (.taskKill sq) s = .next ((s.completeCmd sq c.seq stBadTask 0 id).postFlushes sq)))

/-- While SPDM answers: KEY_EXCHANGE with a new identifier, a place free and a key not the Owner's opens a session,
and with the Owner's key is refused while another requester holds the host session; END_SESSION, HEARTBEAT,
GET_MEASUREMENTS and the other requests are answered; OWNER_CLAIM of an unclaimed card through a mutually
authenticated session stores the key; IDE_KM within a session makes the stream secure. OWNER_SESSION_TIMEOUT ends a
session two heartbeat periods after its last message. IDE_INTEGRITY_FAIL makes a secure stream insecure and is
reported. DEBUG_SUBMIT at the connector, powered and out of reset, records the first reason that refuses its token or
unlocks its level, and always draws a new nonce. A token that nothing refuses has a verifying signature, this device's
identifier and nonce, and no stall is valid. Rests on log entry 9. From spec/05_stalls_and_protection.md,
03_host_link.md, 22_management_debug.md. -/
def Obligations.SessionsAndTokens : Prop :=
  (∀ (s : State) (req sid key : Nat) (e : Session),
    let ok := fun (u : State) (d : List Nat) => Host.Outcome.next (u.emit (.spdm req true d))
    (s.spdmUp req = true →
      (s.gb.sessions.any (fun e => e.id == sid) = false → s.gb.sessions.length < 4 → s.gb.ownerKey ≠ some key →
        ∀ m, exec (.keyExchange req sid key m) s =
          ok (s.setSessions (s.gb.sessions ++ [⟨sid, req, key, m, false, s.now⟩])) [sid])
      ∧ (s.gb.sessions.any (fun e => e.id == sid) = false → s.gb.ownerKey = some key → s.f .gbOwner 0 1 1 = 1 →
          s.f .gbOwner 0 2 4 ≠ req → ∃ c, exec (.keyExchange req sid key true) s = .next (s.emit (.spdm req false [c])))
      ∧ (s.session? req sid = some e →
          exec (.endSession req sid) s = ok (s.endSession sid) [] ∧ exec (.heartbeat req sid) s = ok (s.touch sid) [])
      ∧ exec (.getMeasurements req) s = ok (s.touchAll req) (s.touchAll req).measurements
      ∧ (∀ c, spdmCodes.contains c = true → exec (.spdmRequest req c) s = ok (s.touchAll req) [c])
      ∧ (s.session? req sid = some e → s.gb.ownerKey = none → e.mutual_ = true →
          exec (.ownerClaim req sid) s = ok ((({ s with gb := { s.gb with ownerKey := some e.key } }.setF .gbOwner 0 0 1 1).touch
            sid).becomeOwner req sid) [])
      ∧ (s.gb.sessions.any (fun e => e.req == req) = true →
          exec (.ideKm req) s = .next ((s.touchAll req).setIde (s.streamMates req) true)))
    ∧ (s.gb.sessions.find? (fun e => e.id == sid) = some e →
        exec (.ownerSessionTimeout sid) s = .next ((s.notBefore (e.last + heartbeats)).endSession sid))
    ∧ (s.present req = true → s.link.ideSecure.contains req = true →
        exec (.ideIntegrityFail req) s = .next (((s.setIde (s.streamMates req) false).postEvent 2
          ⟨.memoryModule, FaultCode.ideFailure.code⟩ (s.streamMates req)).advise .ideFailure 7 req)))
  ∧ (∀ (s : State) (req : Nat) (sig : Bool) (words : List Word),
    let t := bytesOf (words.take 20)
    let u := { s with gb := { s.gb with draws := s.gb.draws + 1 } }
    s.pw.rails ≠ 0 → s.inReset = false →
      (∀ c, s.tokenRefused t sig = some c → exec (.debugSubmit req sig (some words)) s = .next (u.setF .gbDebugCtl 0 4 4 c))
      ∧ (s.tokenRefused t sig = none → exec (.debugSubmit req sig (some words)) s = .next (u.unlock (tokenField t 4 1))))
  ∧ (∀ (s : State) (t : List Byte) (sig : Bool), s.tokenRefused t sig = none →
    sig = true ∧ (∀ st, st < 16 → s.active.valid st = false) ∧ tokenField t 8 16 = s.card.uid.toNat ∧ tokenField t 0x18 32 = s.nonce)

/-- For every requester and session: if the card has an Owner key and OWNER_CLAIM answers a next state, the Owner key
is the same. From spec/05_stalls_and_protection.md. -/
def Obligations.ClaimedStaysClaimed : Prop :=
  ∀ (s t : State) (req sid k : Nat), s.gb.ownerKey = some k → exec (.ownerClaim req sid) s = .next t → t.gb.ownerKey = some k

/-- For a present requester, each reading mailbox command (event records, policies, timestamp, logs, firmware info,
identity, health, alert configuration, poison list, scan results, dynamic capacity configuration and extents) answers
what its rule lists and changes nothing else. CLEAR_EVENT_RECORDS drops the oldest n records and an emptied log's
overflow count; the policy, timestamp and alert commands store their operand; TRANSFER_FW, ACTIVATE_FW and opcodes not
offered are unsupported; the Owner's INJECT_POISON and CLEAR_POISON of a mapped, aligned line act and a stranger's is
refused; SCAN_MEDIA stores the poison list, SANITIZE and SECURE_ERASE renew the requester's own keys, and
SANITIZE_DONE zeroes its blocks. Rests on log entry 9. From spec/03_host_link.md, 04_host_coherence.md. -/
def Obligations.MailboxCommands : Prop :=
  (∀ (s : State) (req log dpa len : Nat),
    let m := s.mbox req
    let tells := fun (d : List Nat) => Host.Outcome.next (s.emit (.mailbox req .success d))
    let n := (s.staticBlocks req).length * blockSize
    s.present req = true →
      (log ≤ 3 → exec (.getEventRecords req log) s =
        tells (Tbl.get 0 m.overflow log :: (Tbl.get [] m.logs log).flatMap fun r => [r.kind.num, r.about]))
      ∧ exec (.getEventInterruptPolicy req) s = tells [m.policy.toNat]
      ∧ (m.stampSet = none → exec (.getTimestamp req) s = tells [0])
      ∧ (∀ v t, m.stampSet = some (v, t) → exec (.getTimestamp req) s = tells [v + (s.now - t)])
      ∧ exec (.getSupportedLogs req) s = tells [1, 4 * mailboxOpcodes.length]
      ∧ exec (.getLog req true) s = tells mailboxOpcodes
      ∧ exec (.getFwInfo req) s = tells [bit s.pairB, s.mgmtImage.version, s.ctrlImage.version]
      ∧ exec (.identifyMemoryDevice req) s = tells [n, n, 0, 32, 32, 32, 32]
      ∧ exec (.getHealthInfo req) s = tells ([bit s.stage.trainFail.isSome] ++ ((s.junction.map fun j => lowBits 8 j.1)).toList)
      ∧ exec (.getAlertConfiguration req) s = tells [m.alert.toNat]
      ∧ exec (.getPoisonList req dpa len) s = tells (s.poisonList req dpa len)
      ∧ exec (.getScanMediaResults req) s = tells (m.scan.getD [])
      ∧ exec (.getDynamicCapacityConfiguration req) s =
          tells [2, dcBase 0, s.hostBlocks, blockSize, dcBase 1, s.hostBlocks, blockSize]
      ∧ exec (.getDynamicCapacityExtentList req) s =
          tells ((s.link.extents.filter fun e => e.holders.contains req).flatMap Extent.listed))
  ∧ (∀ (s : State) (req log n dpa len op : Nat) (policy : Word32) (w : Word) (d : Line64),
    let m := s.mbox req
    let l := Tbl.get [] m.logs log
    let ends := fun (u : State) (r : RetCode) => Host.Outcome.next (u.emit (.mailbox req r []))
    s.present req = true →
      (log ≤ 3 → n ≤ l.length → exec (.clearEventRecords req log n) s = ends (s.updMbox req fun m => { m with
          logs := Tbl.put [] m.logs log (l.drop n)
          overflow := if l.length = n then Tbl.put 0 m.overflow log 0 else m.overflow }) .success)
      ∧ ((∀ k, k < 4 → policy.toNat / 2 ^ (8 * k) % 4 ≤ 1) →
          exec (.setEventInterruptPolicy req policy) s = ends (s.updMbox req fun m => { m with policy := policy }) .success)
      ∧ exec (.setTimestamp req w) s = ends (s.updMbox req fun m => { m with stampSet := some (w.toNat, s.now) }) .success
      ∧ exec (.setAlertConfiguration req w) s = ends (s.updMbox req fun m => { m with alert := w }) .success
      ∧ exec (.transferFw req) s = ends s .unsupported ∧ exec (.activateFw req) s = ends s .unsupported
      ∧ (mailboxOpcodes.contains op = false → exec (.unsupportedMailboxCommand req op) s = ends s .unsupported)
      ∧ (∀ p, s.hasOwner req = true → dpa % 64 = 0 → s.hostMap req dpa = some p →
          exec (.injectPoison req dpa) s = ends (s.setPoison p true) .success
          ∧ exec (.clearPoison req dpa d) s = ends (s.writeLine64 (p / 64) d false) .success)
      ∧ (s.hasOwner req = false → exec (.injectPoison req dpa) s = ends s .invalidSecurityState)
      ∧ (m.sanitize = false →
          exec (.scanMedia req dpa len) s = ends (s.updMbox req fun m => { m with scan := some (s.poisonList req dpa len) }) .background
          ∧ exec (.sanitize req) s = ends ((s.eraseOwn req).updMbox req fun m => { m with sanitize := true }) .background
          ∧ exec (.secureErase req) s = ends (s.eraseOwn req) .success)
      ∧ (m.sanitize = true → exec (.sanitizeDone req) s = .next (((runsOf (s.ownBlocks req)).foldl
          (fun s r => s.zeroBlocks r.1 r.2) s).updMbox req fun m => { m with sanitize := false })))

/-- While the MGMT image runs and the agent has Owner authority: an addition of good blocks with a key slot free adds
an extent, and a forced release of a requester's extent takes it. EXTENT_OFFER of an extent not yet posted zeroes its
blocks and offers it. A present requester's response takes or leaves an offered extent, and its release sends the
lines it holds through the order stage before the release finishes. From spec/03_host_link.md,
05_stalls_and_protection.md, 04_host_coherence.md. -/
def Obligations.DynamicCapacity : Prop :=
  ∀ (s : State) (agent ext req region : Nat) (e : Extent) (blocks reqs : List Nat),
    (s.mgmtUp = true → agent ≤ fmAgent → s.hasOwner agent = true →
      (s.addOk blocks region reqs = true → (∀ r ∈ reqs, s.extentsOf r < extentsMax) →
        ∀ k, (if region = 1 then s.freeSlot else some (17 + reqs.headD 0)) = some k →
        exec (.initiateDynamicCapacityAdd agent blocks region reqs none) s =
          .next ((s.addExtent blocks region k reqs).fm .success [s.link.nextExtent]))
      ∧ (s.link.extents.find? (fun e => e.id == ext && (e.holders.contains req || e.offered.contains req)) = some e →
        exec (.initiateDynamicCapacityRelease agent ext req true) s =
          .next (((s.dcEvent ext [req]).forceRemove req e).fm .success)))
    ∧ (s.link.extents.find? (fun e => e.id == ext && !e.posted) = some e → s.stageNow ≠ 0 →
        exec (.extentOffer ext) s = .next (((e.blocks.foldl (fun s b => s.zeroBlocks b 1) s).updExtent ext fun x =>
          { x with posted := true }).dcEvent ext e.offered))
    ∧ (s.present req = true →
      (s.link.extents.find? (fun e => e.id == ext && e.posted && e.offered.contains req) = some e → ∀ accept,
        exec (.addDynamicCapacityResponse req ext accept) s = .next ((s.updExtent ext fun e => { e with
          offered := e.offered.filter (· != req)
          holders := if accept then KSet.add req e.holders else e.holders }).sweepExtents.mail req .success))
      ∧ (s.link.extents.find? (fun e => e.id == ext && e.holders.contains req) = some e →
        (∀ l ∈ s.linesHeld req e, (s.tracker l).queue.length < trackerPlaces) →
        exec (.releaseDynamicCapacity req ext) s = .next ((((s.linesHeld req e).foldl (fun u l =>
          u.enterOrder l (.release req ext) (s.tieKey req).1 (s.tieKey req).2) s).finishRelease req ext).mail req .success)))

/-- While the MGMT image runs, a host or the Fabric Manager asking: the identity, LD, multi-headed, DCD, region,
extent and, in MLD mode, allocation and QoS reads answer what their rules list and change nothing (GET_QOS_STATUS
answers a free value); with Owner authority in MLD mode the QoS control word, the allocated and limit fractions and
the LD allocations are set; without it SET_QOS_CONTROL and SET_LD_ALLOCATIONS are refused with nothing changed. Rests
on log entries 6 and 9. From spec/22_management_debug.md, 03_host_link.md, 17_bridle.md. -/
def Obligations.FmApi : Prop :=
  ∀ (s : State) (agent req : Nat) (w : Word) (fr : List (Nat × Nat)) (lds : List Nat),
    let tells := fun (d : List Nat) => Host.Outcome.next (s.emit (.fmApi .success d))
    let region := [2, dcBase 0, s.hostBlocks, blockSize, dcBase 1, s.hostBlocks, blockSize]
    s.mgmtUp = true → agent ≤ fmAgent →
      exec (.identify agent) s = tells [0x1F9E, 0x4820, 0x1F9E, 0x21]
      ∧ exec (.getLdInfo agent) s = tells [s.hostBlocks * blockSize, 16]
      ∧ (s.f .devLink 0 0 2 = 2 → exec (.getMultiHeadedInfo agent) s = tells [2, 0, 1])
      ∧ exec (.getDcdInfo agent) s = tells [16, 2, blockSize]
      ∧ (req < 16 → exec (.getHostDcRegionConfiguration agent req) s = tells region)
      ∧ (req < 16 → exec (.getDcRegionExtentLists agent req) s =
          tells ((s.link.extents.filter fun e => e.holders.contains req).flatMap Extent.listed))
      ∧ (s.f .devLink 0 0 2 = 1 →
          exec (.getLdAllocations agent) s = tells ((List.range 16).map fun i =>
            ((List.range s.hostBlocks).filter fun b => holderIn s.link.assigned b == some i).length)
          ∧ exec (.getQosControl agent) s = tells [s.link.qosCtl.toNat]
          ∧ exec (.getQosStatus agent) s = .next (s.draw.2.emit (.fmApi .success [s.draw.1.toNat]))
          ∧ exec (.getQosAllocatedBw agent) s = tells (s.fractions 0)
          ∧ exec (.getQosBwLimit agent) s = tells (s.fractions 8))
      ∧ (s.f .devLink 0 0 2 = 1 → s.hasOwner agent = true →
          exec (.setQosControl agent w) s = .next ({ s with link := { s.link with qosCtl := w } }.emit (.fmApi .success []))
          ∧ ((∀ e ∈ fr, e.1 < 16 ∧ e.2 < 256) →
            exec (.setQosAllocatedBw agent fr) s = .next ((fr.foldl (fun u e => u.setF .bridleLdq e.1 0 8 e.2) s).emit (.fmApi .success []))
            ∧ exec (.setQosBwLimit agent fr) s = .next ((fr.foldl (fun u e => u.setF .bridleLdq e.1 8 8 e.2) s).emit (.fmApi .success [])))
          ∧ ((∀ l ∈ lds, l < 16) → exec (.setLdAllocations agent lds []) s = .next ({ s with link := { s.link with
              assigned := s.link.assigned.map fun (r : Nat × Nat × Option Nat) =>
                (r.1, r.2.1, if r.2.2.any lds.contains then none else r.2.2) } }.emit (.fmApi .success []))))
      ∧ (s.hasOwner agent = false →
          exec (.setQosControl agent w) s = .next (s.emit (.fmApi .invalidSecurityState []))
          ∧ exec (.setLdAllocations agent lds []) s = .next (s.emit (.fmApi .invalidSecurityState [])))

/-- At a reachable endpoint while the MGMT image runs, the MCTP control commands and the PLDM commands of types 0 and
2 answer what their rules list and change nothing but what they set: the endpoint identifier, the TID and the event
receiver. PLATFORM_EVENT_MESSAGE of a changed event source, acknowledged, sends the event and notes it as seen. Rests
on log entry 9. From spec/22_management_debug.md. -/
def Obligations.MgmtRequests : Prop :=
  ∀ (s : State) (ep x : Nat) (on : Bool),
    let tells := fun (c : Nat) (d : List Nat) => Host.Outcome.next (s.emit (.mgmt c 0 d))
    s.mgmtUp = true → s.endpoint ep = true →
      exec (.setEndpointId ep x) s = .next ((s.setF .mgmtStatus 0 (8 + 8 * ep) 8 x).emit (.mgmt 1 0 [x % 256]))
      ∧ exec (.getEndpointId ep) s = tells 2 [s.f .mgmtStatus 0 (8 + 8 * ep) 8]
      ∧ exec (.getEndpointUuid ep) s = tells 3 [s.card.uid.toNat]
      ∧ (mctpTypes.contains x = true → exec (.getMctpVersionSupport ep x) s = tells 4 [1])
      ∧ exec (.getMessageTypeSupport ep) s = tells 5 [0, 1, 5, 6, 7]
      ∧ exec (.getVendorDefinedMessageSupport ep) s = .next (s.emit (.mgmt 6 2 []))
      ∧ exec (.getTid ep) s = tells (pldm 0 2) [s.mgmt.tid]
      ∧ (x ≠ 0 → x < 0xFF → exec (.setTid ep x) s = .next ((s.updMgmt fun m => { m with tid := x }).emit (.mgmt (pldm 0 1) 0 [])))
      ∧ (pldmCommands x ≠ [] → exec (.getPldmVersion ep x) s = tells (pldm 0 3) [1]
          ∧ exec (.getPldmCommands ep x) s = tells (pldm 0 5) (pldmCommands x))
      ∧ exec (.getPldmTypes ep) s = tells (pldm 0 4) [0, 2, 5]
      ∧ (∀ v, s.sensors.contains x = true → s.sensor x = some v → exec (.getSensorReading ep x) s = tells (pldm 2 0x11) [0, v])
      ∧ (stateSensors.contains x = true → exec (.getStateSensorReadings ep x) s = tells (pldm 2 0x21) [s.stateOf x])
      ∧ exec (.getPdrRepositoryInfo ep) s = tells (pldm 2 0x50) [s.sensors.length + stateSensors.length]
      ∧ exec (.getPdr ep 7) s = tells (pldm 2 0x51) [7, lowBits 8 s.warnC, lowBits 8 s.fenceC, 120]
      ∧ (let u := s.setF .mgmtStatus 0 35 1 (bit on)
         exec (.setEventReceiver ep on) s = .next ((u.updMgmt fun m => { m with
           seen := eventSensors.map fun id => (id, u.eventState id), unacked := [] }).emit (.mgmt (pldm 2 4) 0 [])))
      ∧ exec (.getEventReceiver ep) s = tells (pldm 2 5) [s.f .mgmtStatus 0 35 1]
      ∧ (s.f .mgmtStatus 0 35 1 ≠ 0 → eventSensors.contains x = true → Tbl.get 0 s.mgmt.seen x ≠ s.eventState x →
          exec (.platformEventMessage x true) s = .next ((s.updMgmt fun m => { m with
            seen := Tbl.insert x (s.eventState x) m.seen, unacked := Tbl.erase x m.unacked }).emit
              (.mgmt (pldm 2 0xA) 0 [x, s.eventState x])))

/-- At a reachable endpoint while the MGMT image runs: device identifiers and firmware parameters are answered;
REQUEST_UPDATE by one who may begins an update of the pair not booted, and by another is refused; the component table,
the start of a component, its cancellation, activation (which names the written pair as boot pair) and the
cancellation of the update move the update as their rules say. The device's own steps request data (the slot's image
no longer verifies), complete the transfer, verify and apply; UPDATE_TIMEOUT drops an update 60 s after the agent's
latest activity. Rests on log entry 5. From spec/22_management_debug.md, 02_stages_and_firmware.md. -/
def Obligations.FirmwareUpdate : Prop :=
  ∀ (s : State) (ep comp : Nat) (comps : List Nat) (u : Update) (img : Image),
    let now_ := { u with last := s.now }
    let t := s.setUpdate s.updatePhase (some now_)
    let tells := fun (v : State) (c : Nat) (d : List Nat) => Host.Outcome.next (v.emit (.mgmt (pldm 5 c) 0 d))
    (s.mgmtUp = true → s.endpoint ep = true →
      (exec (.queryDeviceIdentifiers ep) s = tells s 1 [0x1F9E, 0x4820, 0x1F9E,
          if s.card.order = .p256 then 1 else if s.card.order = .a256 then 2 else 3])
      ∧ (let v := fun (p : Bool) (c : Nat) => (s.stage.image p c).version
         exec (.getFirmwareParameters ep) s = tells s 2
           [bit s.pairB, v s.pairB 1, v s.pairB 2, v (!s.pairB) 1, v (!s.pairB) 2])
      ∧ (∀ owner, s.mayManage owner = true → s.mgmt.update = none →
          exec (.requestUpdate ep owner) s = tells (s.setUpdate 1 (some ⟨!s.pairB, [], none, [], s.now⟩)) 0x10 [])
      ∧ (∀ owner, s.mayManage owner = false → exec (.requestUpdate ep owner) s = .next (s.emit (.mgmt (pldm 5 0x10) 1 [])))
      ∧ exec (.getStatus ep) s = tells (s.updMgmt fun m => { m with update := m.update.map fun u => { u with last := s.now } })
          0x1B [s.updatePhase]
      ∧ (s.mgmt.update = some u →
          (t.updatePhase = 1 → u.cur = none → exec (.passComponentTable ep comps) s =
            tells (t.setUpdate 1 (some { now_ with comps := knownComps.filter comps.contains })) 0x13 [])
          ∧ (t.updatePhase = 1 → u.comps.contains comp = true → u.done.contains comp = false →
            exec (.updateComponent ep comp) s = tells (t.setUpdate 2 (some { now_ with cur := some comp })) 0x14 [])
          ∧ (t.updatePhase = 5 → exec (.activateFirmware ep) s =
            tells ({ t with stage := { t.stage with bootB := u.pairB, bootSeq := t.stage.bootSeq + 1 } }.setUpdate 0 none) 0x1A [])
          ∧ (u.cur ≠ none → exec (.cancelUpdateComponent ep) s = tells (t.setUpdate 1 (some { now_ with cur := none })) 0x1C [])
          ∧ exec (.cancelUpdate ep) s = tells t.dropUpdate 0x1D []))
    ∧ (s.mgmtUp = true → s.mgmt.update = some u →
        exec .updateTimeout s = .next ((s.notBefore (u.last + minute)).dropUpdate))
    ∧ (s.mgmtUp = true → s.mgmt.update = some u → u.cur = some comp →
        (∀ off len, s.updatePhase = 2 → len ≠ 0 → len ≤ 4096 → exec (.requestFirmwareData off len) s =
          tells ({ s with stage := s.stage.setImage u.pairB comp { s.stage.image u.pairB comp with sigOk := false } }.setUpdate 2
            (some now_)) 0x15 [off, len])
        ∧ (s.updatePhase = 2 → exec (.transferComplete img) s =
          tells ({ s with stage := s.stage.setImage u.pairB comp img }.setUpdate 3 (some now_)) 0x16 [])
        ∧ (s.updatePhase = 3 → (s.copyLacking u).verifies u comp = true → exec .verifyComplete s =
          tells ((s.copyLacking u).setUpdate 4 (some { u with last := (s.copyLacking u).now })) 0x17 [0])
        ∧ (s.updatePhase = 4 → exec .applyComplete s =
          tells (s.setUpdate (if u.comps.all (KSet.add comp u.done).contains then 5 else 1)
            (some { u with cur := none, done := KSet.add comp u.done, last := s.now })) 0x18 [0]))

/-- An accepted write of ENABLE = 1 to a disabled instance with no check of its own waiting asks its block for a
check, with the writer's bank. An accepted write of ENABLE = 0 to an enabled one clears ENABLE and, by block: the SQ
drops a command being assembled; the stream queue, the ring and the pool end what they hold; the barrier's waiters
fault with BARRIER_DISABLED; the Rein port sends DOWN and goes down with cause 7; VR_CTL turns the rail off and fences
compute. Control bits of the same write (FLUSH, RETRAIN, CRED_REBUILD) are taken as zero. From spec/06_tack_check.md,
23_register_map.md, 15_queues_tasks_results.md, 08_slots_rings_atomics.md, 13_hitches.md, 16_kv_attention.md,
18_rein.md, 21_power_thermal.md. -/
def Obligations.EnablesAndDisables : Prop :=
  (∀ (s : State) (req n : Nat) (val : Word),
    let asks := fun (c : Instr) (r : Reg) (n block inst : Nat) =>
      let u := wroteFields s req r n (val ||| 1)
      Accepts s req r n (val ||| 1) → Asks u r n block inst → exec c s = .next (u.askCheck block inst (bankOf req))
    (bitAt val 1 = false → asks (.sqEnable req n val) .sqCtl n 2 n)
    ∧ asks (.cqEnable req n val) .cqCtl n 2 (1024 + n) ∧ asks (.streamQEnable req n val) .streamQCtl n 3 n
    ∧ asks (.ringEnable req n val) .ringCtl n 4 n ∧ asks (.barrierEnable req n val) .barrierCtl n 5 n
    ∧ asks (.hitchCfgEnable req n val) .hitchCfg n 5 (512 + n) ∧ asks (.kvPoolEnable req n val) .kvPoolCtl n 6 n
    ∧ (bitAt val 4 = false → bitAt val 5 = false → asks (.reinPortEnable req n val) .reinPortCtl n 7 n)
    ∧ asks (.vrEnable req val) .vrCtl 0 8 0 ∧ asks (.fanEnable req val) .fanCtl 0 9 0
    ∧ asks (.thermEnable req val) .thermCtl 0 9 1 ∧ asks (.bridleEnable req n val) .bridleCtl n 0xA n
    ∧ asks (.hrnEnable req n val) .hrnCtl n 0xB n)
  ∧ (∀ (s : State) (req n : Nat) (val : Word),
    let clears := fun (c : Instr) (r : Reg) (block inst : Nat) (off : State → State) =>
      let u := wroteFields s req r n (val &&& ~~~1)
      Accepts s req r n (val &&& ~~~1) → Runs u r n block inst → exec c s = .next (off (u.setF r n 0 1 0))
    (bitAt val 1 = false → clears (.sqDisable req n val) .sqCtl 2 n fun u => u.updSq n fun q => { q with asm := [] })
    ∧ clears (.cqDisable req n val) .cqCtl 2 (1024 + n) (fun u => u)
    ∧ clears (.streamQDisable req n val) .streamQCtl 3 n (fun u => u.streamOff n)
    ∧ clears (.barrierDisable req n val) .barrierCtl 5 n
        (fun u => (u.barrierWaiters n).foldl (fun v w => v.waiterFault w.1 w.2.1 w.2.2.1 .barrierDisabled w.2.2.2 n) u)
    ∧ clears (.kvPoolDisable req n val) .kvPoolCtl 6 n (fun u => u.poolOff n)
    ∧ (bitAt val 4 = false → bitAt val 5 = false →
        clears (.reinPortDisable req n val) .reinPortCtl 7 n fun u => (u.sendOther n 3 [4, 7]).linkDown n 7)
    ∧ (let u := wroteFields s req .ringCtl n (val &&& ~~~1)
       Accepts s req .ringCtl n (val &&& ~~~1) → Runs u .ringCtl n 4 n → exec (.ringDisable req n val) s = .next (u.ringOff n))
    ∧ (let u := wroteFields s req .vrCtl 0 (val &&& ~~~1)
       Accepts s req .vrCtl 0 (val &&& ~~~1) → Runs u .vrCtl 0 8 0 → exec (.vrDisable req val) s = .next
         (((u.setF .vrCtl 0 0 1 0).coreOff.updPw fun p => { p with pgFaultAt := none, retried := false }).fenceOn 7)))

/-- Accepted writes of the Glovebox's registers, no commit being in progress: the holder's COMMIT asks for the check
of block 1 and DISCARD reloads the staged copy; TAKE of a free hold takes it and the holder's DROP reloads and frees
it; STALL_RESET resets the stall at once, or is marked waiting while a commit is busy; an accepted capacity assignment
is stored and reported DONE, a refused one REFUSED. COMMIT_COMPLETE ends the commit. RELEASE, with FM_TRUST 0 before
the write, releases the card. From spec/05_stalls_and_protection.md, 06_tack_check.md. -/
def Obligations.StallTableCommands : Prop :=
  ∀ (s : State) (req : Nat) (val : Word),
    (Accepts s req .stallCommit 0 1 → let u := wroteFields s req .stallCommit 0 1
      u.gb.commit = none → u.holds req = true → u.checking 1 0 = false →
        exec (.stallCommit req) s = .next (u.askCheck 1 0 (bankOf req)))
    ∧ (Accepts s req .stallCommit 0 4 → let u := wroteFields s req .stallCommit 0 4
      u.gb.commit = none → u.holds req = true → u.checking 1 0 = false → exec (.stallDiscard req) s = .next u.reloadStaged)
    ∧ (Accepts s req .stallEdit 0 0x20 → let u := wroteFields s req .stallEdit 0 0x20
      u.f .stallEdit 0 0 5 = 0x1F → exec (.editTake req) s = .next (u.setF .stallEdit 0 0 5 (holderCode req)))
    ∧ (Accepts s req .stallEdit 0 0x40 → let u := wroteFields s req .stallEdit 0 0x40
      u.holds req = true → exec (.editDrop req) s = .next (u.reloadStaged.setF .stallEdit 0 0 5 0x1F))
    ∧ (∀ st, st < 16 → Accepts s req .stallReset 0 (BitVec.ofNat 64 (2 ^ st)) →
      let u := wroteFields s req .stallReset 0 (BitVec.ofNat 64 (2 ^ st))
      (u.gb.commit = none → exec (.stallReset req (BitVec.ofNat 64 (2 ^ st))) s =
        .next ((u.resetStall st stProtection 0 false).setF .stallReset 0 (16 + st) 1 0))
      ∧ (u.gb.commit.isSome = true →
        exec (.stallReset req (BitVec.ofNat 64 (2 ^ st))) s = .next (u.setF .stallReset 0 (16 + st) 1 1)))
    ∧ (Accepts s req .stallCapAssign 0 val → bitAt val 63 = true → let u := wroteFields s req .stallCapAssign 0 val
      (u.capRefused = false → exec (.capAssign req val) s = .next ({ u with link := { u.link with
          assigned := (u.f .stallCapAssign 0 0 10, u.f .stallCapAssign 0 16 10,
            if u.f .stallCapAssign 0 36 2 = 1 then some (u.f .stallCapAssign 0 32 4) else none) :: u.link.assigned } }.setF
          .stallCapStatus 0 1 1 1))
      ∧ (u.capRefused = true → exec (.capAssign req val) s = .next (u.setF .stallCapStatus 0 2 1 1)))
    ∧ exec .commitComplete s = .next s.commitEnd
    ∧ (Accepts s req .gbOwnerCfg 0 (val ||| 4) → let u := wroteFields s req .gbOwnerCfg 0 (val ||| 4)
      bitAt (s.regOf req .gbOwnerCfg 0) 0 = false → exec (.ownerRelease req val) s = .next u.release)

/-- For every state in canonical form, every staged copy in canonical form, every stall and offset below 0xA0: after
the copy is applied the active word is the staged one, and the first word the staged one without KEY_RENEW. From
spec/05_stalls_and_protection.md. -/
def Obligations.ActiveTakesStaged : Prop :=
  ∀ (s : State) (next : List (Nat × Word)) (st o : Nat),
    s.Inv → Tbl.risingFrom 0 next = true → (∀ e ∈ next, e.1 < 0x1000) → st < 16 → o < 0xA0 →
      (s.applyCopy next).active st o =
        if o = 0 then Tbl.get 0 next (0x100 * st) &&& ~~~2 else Tbl.get 0 next (0x100 * st + o)

/-- In blocks 2 to 0xA: the check that runs alone, not marked off, ends; with code 0 the bank's tack register reads
accepted, the count rises and the instance is enabled; otherwise the register and TACK_LAST record the code, field and
instance and the count of refusals rises. An audit starts when none is busy; it ends with nothing found or with the
first instance that its check would refuse and the number of findings. HRN_LOAD of a good file into a free entry of
the stall clears and stores it and asks for its check, is BAD_ADDRESS beyond the largest file and BAD_ENTRY at an
enabled entry; HRN_UNLOAD disables and empties an entry that no task uses, else is ENTRY_BUSY. From
spec/06_tack_check.md, 15_queues_tasks_results.md. -/
def Obligations.ChecksAndHarnesses : Prop :=
  (∀ (s : State) (req block : Nat) (c : Check),
    (2 ≤ block → block ≤ 0xA → s.checks block = [c] → c.off = false →
      (c.code = 0 → exec (.tackCheckComplete block) s =
        .next (((((s.setChecks block []).setRegB (tackReg block) c.bank 1).addF .tackCount 0 0 32 1).enableInst block c.inst).startCheck block))
      ∧ (c.code ≠ 0 → exec (.tackCheckComplete block) s =
        .next ((((s.setChecks block []).setRegB (tackReg block) c.bank (BitVec.ofNat 64 (2 + 16 * (c.field % 4096) + 2 ^ 16 * c.code))).setReg
          .tackLast 0 (BitVec.ofNat 64 (c.code + 2 ^ 16 * (c.field % 4096) + 2 ^ 32 * (c.inst % 4096) + 2 ^ 44 * c.bank
            + 2 ^ 63))).addF .tackCount 0 32 32 1 |>.startCheck block)))
    ∧ (Accepts s req .tackAudit 0 1 → let u := wroteFields s req .tackAudit 0 1
      u.f .tackAudit 0 1 1 = 0 → exec (.tackAudit req) s =
        .next { (u.setF .tackAudit 0 1 1 1) with tack := { u.tack with audit := some u.now } })
    ∧ (s.tack.audit.isSome = true →
      (s.findings = [] → exec .auditComplete s = .next { (s.setReg .tackAudit 0 0) with tack := { s.tack with audit := none } })
      ∧ (∀ b i code field rest, s.findings = (b, i, code, field) :: rest → exec .auditComplete s =
        .next { (s.setReg .tackAudit 0 (BitVec.ofNat 64 (4 + 2 ^ 4 * (field % 4096) + 2 ^ 16 * code + 2 ^ 32 * (i % 4096)
          + 2 ^ 48 * min (rest.length + 1) 0xFFF))) with tack := { s.tack with audit := none } })))
  ∧ (∀ (s : State) (sq st : Nat) (c : Cmd) (host : List Byte),
    let e := c.field 0x10 2
    let src := c.field 0x18 8
    let n := c.field 0x20 4
    (Starts sq 0x10 s c st → s.checkerUp 0xB = true → s.hostThere st src = true → e < 256 → s.hrnOn e = false →
      s.checking 0xB e = false → (s.hrnLoaded e = true → s.hrnStall e = st) →
      (n ≤ hrnMax → s.cpRange st src (max n 1) false true true = true → ∀ d p u, s.cpRead st src n host = some (d, p, u) →
        let v := ((u.clearOnChip (hrnBase e) (2 ^ 17)).wrBytes (hrnBase e) d).wrNat (hrnBase e + hrnMax) 4 n
        let v := (v.setF .hrnCtl e 1 4 st).setF .hrnCtl e 5 1 1
        exec (.hrnLoad sq host) s = .next (((v.updCmd sq c.seq fun c => { c with started := true, task := some e }).askCheck
          0xB e 16).postFlushes sq))
      ∧ (hrnMax < n → exec (.hrnLoad sq host) s = .next ((s.completeCmd sq c.seq stBadAddress).postFlushes sq)))
    ∧ (Starts sq 0x10 s c st → s.checkerUp 0xB = true → s.hostThere st src = true → s.hrnOn e = true →
        exec (.hrnLoad sq host) s = .next ((s.completeCmd sq c.seq stBadEntry).postFlushes sq))
    ∧ (Starts sq 0x11 s c st → e < 256 → (s.hrnLoaded e = true → s.hrnStall e = st) →
      (s.hrnUsers e = 0 → exec (.hrnUnload sq) s =
        .next ((((s.clearEnable .hrnCtl e 0xB e).setF .hrnCtl e 5 1 0).completeCmd sq c.seq stSuccess).postFlushes sq))
      ∧ (s.hrnUsers e ≠ 0 → exec (.hrnUnload sq) s = .next ((s.completeCmd sq c.seq stEntryBusy).postFlushes sq))))

/-- A whole write that an agent may make changes the register's fields and then acts; an access at a reserved or
misaligned place is recorded; an agent that does not reach BAR0 changes nothing. A permitted whole read answers the
register's view and clears its RC fields, one of a low half captures the high half, one not permitted is recorded and
answers zero, and one at a reserved place likewise. From spec/01_architecture.md, 23_register_map.md. -/
def Obligations.RegisterAccesses : Prop :=
  ∀ (s : State) (req i off size : Nat) (r : Reg) (val : Word) (sig : Bool) (host : List Line64),
    (Accepts s req r i val → exec (.registerWrite req (r.off i) (r.row.width / 8) val sig host) s =
      .next (State.regAct sig host (writtenAs s req r i val) (wroteFields s req r i val)))
    ∧ (s.reaches req = true → (target off size = .reserved ∨ target off size = .misaligned) →
        exec (.registerWrite req off size val sig host) s =
          .next ((s.dropLow req).refuseAccess req off false true))
    ∧ (s.reaches req = false → exec (.registerWrite req off size val sig host) s = .next s
        ∧ exec (.registerReadCapture req off size) s = .next s)
    ∧ (s.reaches req = true → target off size = .whole r i →
      (s.permits req r i = true → exec (.registerReadCapture req off size) s =
        .next (((s.clearRc req r i (rcWhole r)).markRead r i).emit (.read req off size (s.readView req r i).toNat false)))
      ∧ (s.permits req r i = false → exec (.registerReadCapture req off size) s =
        .next ((s.refuseAccess req off false false).emit (.read req off size 0 false))))
    ∧ (s.reaches req = true → target off size = .low r i → s.permits req r i = true →
        let v := s.readView req r i
        let t := ((s.clearRc req r i (rcWhole r)).markRead r i).dropCap req off
        exec (.registerReadCapture req off size) s = .next
          ({ t with caps := (req, off, (v >>> 32).setWidth 32) :: t.caps }.emit (.read req off size (v &&& lowMask).toNat false)))
    ∧ (s.reaches req = true → target off size = .reserved → exec (.registerReadCapture req off size) s =
        .next ((s.refuseAccess req off false false).emit (.read req off size 0 false)))

/-- BRIDLE_CNT_CTL.CLEAR makes every counter of the Bridle read zero; CRED_REBUILD of an enabled port that is up
toggles its epoch, restarts its counts, sends CRED_SYNC and shows busy; RETRAIN retrains it; HITCH_FORCE.GO drains the
hitch's bank, writes the value and logs the old and new values; RESTAGE restages; a configuration request is answered,
with retry while the device is in reset or within 100 ms of it; a driver's handshake is marked written and evaluated
once the CTRL image is verified. From spec/17_bridle.md, 18_rein.md, 13_hitches.md, 02_stages_and_firmware.md,
03_host_link.md. -/
def Obligations.RegisterEffects : Prop :=
  ∀ (s : State) (req n : Nat) (val : Word),
    (Accepts s req .bridleCntCtl 0 val → bitAt val 1 = true → ∃ t, exec (.bridleCounterClear req val) s = .next t
      ∧ ∀ r i, bridleCounter r = true → regAt (r.off i) = some (r, i) → t.reg r i = 0)
    ∧ (Accepts s req .reinPortCtl n 0x11 → let u := wroteFields s req .reinPortCtl n 0x11
        u.f .reinPortCtl n 0 1 = 1 → u.portUp n = true → exec (.credRebuild req n 1) s =
          .next (((u.updPort n fun q => { q with
              epoch := !q.epoch, freed := bump (bump q.freed 0 fun _ => 0) 1 fun _ => 0
              skip := bump (bump q.skip 0 fun _ => 0) 1 fun _ => 0 }).sendCredSync n).setF .reinPortStat n 12 1 1))
    ∧ (Accepts s req .reinPortCtl n 0x21 → let u := wroteFields s req .reinPortCtl n 0x21
        u.f .reinPortCtl n 0 1 = 1 → u.portUp n = true → exec (.retrain n (some (req, 1))) s = .next (u.retrain n))
    ∧ (s.portUp n = true → exec (.retrain n none) s = .next (s.retrain n))
    ∧ (Accepts s req .hitchForce 0 val → bitAt val 16 = true → let u := wroteFields s req .hitchForce 0 val
        let h := u.f .hitchForce 0 0 14
        let v := u.hitchBankDrain (hitchBank h) (u.hitchQueue (hitchBank h)).length
        let new := u.reg .hitchForceValue 0
        exec (.hitchForce req val) s = .next
          ((v.hitchWrite h new).logFault { code := .hitchForced, cls := .d, unit := 4, addr := h, detail := (v.hitch h).toNat + 2 ^ 64 * new.toNat }))
    ∧ (Accepts s req .stageCtl 0 val → bitAt val 0 = true →
        exec (.restage req val) s = .next (wroteFields s req .stageCtl 0 val).restage)
    ∧ (s.pw.rails = 7 → req < 16 → n < 2 → exec (.configRequest req n) s =
        .next (s.emit (.config req n (s.inReset || decide (s.now < s.stage.perstAt + 100000000)))))
    ∧ (Accepts s req .stageDrvHandshake 0 val → s.present req = true → req < 16 →
        let u := wroteFields s req .stageDrvHandshake 0 val
        let v := (u.markHandshake req false false).updStage fun g => { g with hsWritten := KSet.add req g.hsWritten }
        exec (.drvHandshake req 8 false val) s = .next (if u.stage.ctrlVerified then v.evalHandshake req else v))

/-- TRACE_START in a good ring starts at its beginning, else is taken back with ERR; a debug session opens for a valid
stall only; DBG_READ, DBG_WRITE and DBG_TAG_READ with no access waiting go through an open session, or end NO_SESSION;
DBG_ACCESS_TIMEOUT ends a waiting access 1 ms after its start; while debug is open DBG_HALT sets the halted cores and
DBG_STEP steps them, otherwise at the connector they do nothing. An aligned DRAM access of the stall reads its bytes
or writes them, a Paddock tag is read, an address outside the stall's windows ends with WINDOW, a misaligned one with
MISALIGNED. Rests on log entry 5. From spec/22_management_debug.md, 05_stalls_and_protection.md. -/
def Obligations.DebugCommands : Prop :=
  (∀ (s : State) (req st sz : Nat) (val mask : Word),
    let does := fun (c : Instr) (op : Nat) =>
      let w := BitVec.ofNat 64 (op + 4 * sz)
      let u := wroteFields s req .dbgCmd 0 w
      sz < 4 → Accepts s req .dbgCmd 0 w → u.mgmt.dbg = none →
        (u.f .dbgSession 0 0 1 = 0 → exec c s = .next (u.dbgEnd dbgNoSession))
        ∧ (u.f .dbgSession 0 0 1 = 1 →
          exec c s = .next (u.dbgGo ⟨op, 2 ^ sz, u.f .dbgSession 0 4 4, u.f .dbgAddr 0 0 48, u.now⟩))
    (Accepts s req .traceCtl (st % 16) (val ||| 1) → let u := wroteFields s req .traceCtl (st % 16) (val ||| 1)
      (u.traceRingOk (st % 16) = true → exec (.traceStart req st val) s = .next (u.setReg .tracePtr (st % 16) 0))
      ∧ (u.traceRingOk (st % 16) = false → exec (.traceStart req st val) s =
          .next ((u.setF .traceCtl (st % 16) 0 1 0).setF .traceStat (st % 16) 16 1 1)))
    ∧ (Accepts s req .dbgSession 0 val → bitAt val 0 = true → let u := wroteFields s req .dbgSession 0 val
      (u.stallValid (u.f .dbgSession 0 4 4) = true → exec (.dbgSessionOpen req val) s = .next u)
      ∧ (u.stallValid (u.f .dbgSession 0 4 4) = false → exec (.dbgSessionOpen req val) s = .next (u.setF .dbgSession 0 0 1 0)))
    ∧ does (.dbgRead req (some sz)) 0 ∧ does (.dbgWrite req (some sz)) 1 ∧ does (.dbgTagRead req (some sz)) 2
    ∧ (∀ d, s.dbgWaiting = some d → exec .dbgAccessTimeout s = .next ((s.notBefore (d.since + 1000000)).dbgEnd dbgTimeout))
    ∧ (s.debugOpen = true →
      exec (.dbgHalt none mask) s = .next (s.setReg .dbgHalt 0 (mask &&& lowMask)).haltCores
      ∧ exec (.dbgStep none mask) s = .next (s.stepCores mask))
    ∧ (s.debugOpen = false → exec (.dbgHalt none mask) s = .next s ∧ exec (.dbgStep none mask) s = .next s))
  ∧ (∀ (s : State) (d : DbgAcc) (p o : Nat) (u : State),
    (d.op ≤ 1 → d.a % d.n = 0 → regionOf d.a = .dram → s.place d.st d.a (d.op == 1) = some (.dram p) →
      s.devReady p d.n (d.op == 1) cpPort = (true, u) →
      (d.op = 0 → s.dbgGo d = u.dbgRead (u.narrowRead p d.n))
      ∧ (d.op = 1 → s.dbgGo d = u.dbgWrite d p))
    ∧ (d.op = 2 → regionOf d.a = .paddock → s.place d.st d.a false = some (.paddock o) →
        s.dbgGo d = ((s.pdSettle o).pdCount o 1 0).dbgEnd dbgOk false (((s.pdSettle o).pdCount o 1 0).tagAt (pdBase + o)))
    ∧ (d.op = 1 → d.a % d.n = 0 → regionOf d.a = .dram → s.place d.st d.a true = none → s.dbgGo d = s.dbgEnd dbgWindow)
    ∧ (d.op ≠ 2 → d.a % d.n ≠ 0 → s.dbgGo d = s.dbgEnd dbgMisaligned))

/-- Through a bound stall's window the Paddock's bytes are read with their poison and written; outside it the access
is recorded. An ACK of a READY slot with its generation, by a requester that may, makes it CONSUMED; any other write
to the slot aperture is recorded and changes no slot. A host read of a waiting context that fails faults its task with
HOST_LINK_DOWN; one of a command that is no MEM_COPY logs HOST_LINK_DOWN and completes it FAULT. Formalises R548. -/
def Obligations.HostWindowCommands : Prop :=
  ∀ (s : State) (req off size : Nat) (d : Line64) (val : Word) (id sq : Nat),
    (s.bar2Up req = true → 0 < size → size ≤ 64 → off + size ≤ bar2Size → 2 ≤ s.stageNow → off < rslotAperture →
      (s.paddockBound req off size = true → let u := (s.pdSettle off).pdSettle (off + size - 1)
        exec (.bar2PaddockAccess req off size (some d)) s = .next (u.paddockPut off size d.toNat)
        ∧ exec (.bar2PaddockAccess req off size none) s =
          .next (u.emit (.read req off size (u.rdNat (pdBase + off) size) (u.poisonIn (pdBase + off) size))))
      ∧ (s.paddockBound req off size = false →
        exec (.bar2PaddockAccess req off size (some d)) s = .next (s.refuseAccess req off true true)))
    ∧ (let k := (off - rslotAperture) / 64
       let acks := size = 4 ∧ (off - rslotAperture) % 64 = 0 ∧ fld val 0 16 = 3 ∧ s.slotState k = 2
        ∧ fld val 16 16 = fld (s.slotWords k).1 16 16
       s.bar2Up req = true → rslotAperture ≤ off → off < 0x3000000 → 2 ≤ s.stageNow →
        (s.rslotOpen req k = true → acks →
          exec (.rslotAck req off size val) s = .next (s.setSlot k (setFld (s.slotWords k).1 0 2 3) (s.slotWords k).2))
        ∧ (s.rslotOpen req k = false ∨ ¬acks → exec (.rslotAck req off size val) s = .next (s.refuseAccess req off true true)))
    ∧ (∀ t x c, s.task? id = some t → s.hostReader t = some (0, x, c) →
        exec (.hostReadError (.task id)) s = .next (s.taskFault id .hostLinkDown 0 c (some x) (s.ctx c x).pc
          (s.fetch c (s.ctx c x).pc) 0 (s.active.hostReq t.stall)))
    ∧ (∀ c src, s.hostCommand sq = some (c, src) → c.op ≠ 0x02 → let st := (s.sqStall sq).getD 16
        exec (.hostReadError (.command sq [])) s = .next
          (((s.logFault { code := .hostLinkDown, cls := .c, stall := some st, unit := 5, detail := s.active.hostReq st }).completeCmd
            sq c.seq stFault s.nextSeq).postFlushes sq))

/-- At a port that is up: a good DATA flit next in order is taken with its link field, or takes the link down with
cause 9 if its slots are malformed; a repeated one is dropped; one too far ahead is answered with NAK, one with a bad
CRC is counted too; an idle flit's link field is taken; a NAK, and 2 µs without an advance of ACK, send the
unacknowledged flits again. CRED_SYNC with nothing unacknowledged is adopted and answered; the answer with the port's
epoch ends the rebuild, one with another does nothing; a CRED_SYNC not answered is sent again after 10 µs. Rests on
log entry 5. From spec/18_rein.md. -/
def Obligations.ReinFlitsAndCredits : Prop :=
  (∀ (s : State) (p : Nat) (f : Flit),
    let q := s.port p
    let ahead := (f.fseq + 4096 - q.rxSeq) % 4096
    s.portUp p = true →
      (∀ v, ahead = 1 → takeSlots f (f.slots.take 14).zipIdx q = some v →
        exec (.dataFlit p true f) s = .next ((s.setPort p { v with rxSeq := f.fseq }).takeLink p f))
      ∧ (ahead = 1 → takeSlots f (f.slots.take 14).zipIdx q = none → exec (.dataFlit p true f) s = .next (s.linkDown p 9))
      ∧ ((ahead = 0 ∨ 2048 ≤ ahead) → exec (.dataFlit p true f) s = .next s)
      ∧ (1 < ahead → ahead < 2048 → exec (.dataFlit p true f) s = .next (s.sendOther p 2 []))
      ∧ exec (.dataFlit p false f) s = .next ((s.addF .reinPortErr p 24 16 1).sendOther p 2 [])
      ∧ exec (.idleFlit p true f) s = .next (s.takeLink p f)
      ∧ exec (.nak p true f) s = .next ((s.takeLink p f).replayNow p)
      ∧ (q.replay ≠ [] → exec (.replayTimeout p) s = .next ((s.notBefore (q.ackAt + 2000)).replayNow p)))
  ∧ (∀ (s : State) (p fseq free0 free1 : Nat) (e : Bool),
    let q := s.port p
    (s.portUp p = true → q.replay = [] → exec (.credSync p fseq free0 free1 e) s =
      .next (((s.updPort p fun q => { q with
        adopted := e, credit := bump (bump q.credit 0 fun _ => free0) 1 fun _ => free1
        base := bump (bump q.base 0 fun _ => 0) 1 fun _ => 0 }).sendOther p 3 [3, bit e]).pump p))
    ∧ (q.syncAt.isSome = true → q.epoch = e → exec (.syncAck p e) s =
        .next (((s.setPort p { q with syncAt := none }).setF .reinPortStat p 12 1 0).setF .reinPortStat p 32 13 0))
    ∧ (q.epoch ≠ e → exec (.syncAck p e) s = .next s)
    ∧ (∀ t, q.syncAt = some t → s.portUp p = true → exec (.credSyncResend p) s = .next ((s.notBefore (t + 10000)).sendCredSync p)))

/-- For every port and acknowledgement: the flits up to and with the first one it names leave the replay buffer and
the rest stay in order, the time of the advance is noted and the replays are forgotten; an acknowledgement that names
none changes nothing. From spec/18_rein.md. -/
def Obligations.AckFreesReplay : Prop :=
  ∀ (s : State) (p ack : Nat),
    let q := s.port p
    (∀ a e b, q.replay = a ++ e :: b → e.1 = ack → (∀ x ∈ a, x.1 ≠ ack) →
        s.takeAck p ack = s.setPort p { q with replay := b, ackAt := s.now, tries := 0 })
    ∧ ((∀ x ∈ q.replay, x.1 ≠ ack) → s.takeAck p ack = s)

/-- REIN_PORT L0 of a training port sends INIT; training is repeated after 100 ms; INIT is sent each microsecond until
one that fits comes, which brings a port without link state up with the peer's credits; one that does not fit holds
the port down with its cause and sends DOWN, and a fresh peer at a port with link state is cause 1. DOWN is cause 8, a
lost link its own cause, and a retrain past its limit cause 6. Rests on log entry 5. From spec/18_rein.md. -/
def Obligations.ReinTraining : Prop :=
  ∀ (s : State) (p chip topo cause : Nat) (dateline fresh : Bool) (rev ack : Nat) (free : List Nat),
    let st := s.portState p
    let q := s.port p
    let heard := (s.setF .reinPortStat p 3 1 1).setF .reinPortStat p 4 4 chip
    (st = psTraining → exec (.reinPortL0 p) s = .next
      (((s.setPortState p psInit).updPort p fun q => { q with l0 := true, initOk := false }).sendInit p))
    ∧ (st = psTraining → let t := s.notBefore (q.since + 100000000)
        exec (.reinTrainTimeout p) s = .next (t.updPort p fun q => { q with since := t.now }))
    ∧ (st = psInit → q.l0 = true → q.initOk = false → exec (.initResend p) s = .next ((s.notBefore (q.initAt + 1000)).sendInit p))
    ∧ (st = psInit → ∀ c, heard.initCheck p chip topo rev dateline = some c →
        exec (.init p chip topo dateline fresh rev ack free) s = .next ((heard.linkDown p c).sendOther p 3 [4, c]))
    ∧ (st = psInit → heard.initCheck p chip topo rev dateline = none → q.fresh = true →
        exec (.init p chip topo dateline true rev ack free) s = .next (((heard.setPortState p psUp).setPort p { q with
          fresh := false, txSeq := 1, rxSeq := 0, replay := [], credit := free, base := [0, 0, 0, 0, 0, 0]
          freed := [0, 0, 0, 0, 0, 0], skip := [0, 0, 0, 0, 0, 0], initOk := true, epoch := false, adopted := false
          syncAt := none, ackAt := heard.now, tries := 0 }).pump p))
    ∧ (st = psInit → heard.initCheck p chip topo rev dateline = none → q.fresh = false →
        exec (.init p chip topo dateline true rev ack free) s = .next (heard.linkDown p 1))
    ∧ (st ≠ 0 → st ≠ psDown → exec (.down p) s = .next (s.linkDown p 8)
        ∧ exec (.reinLinkDown p cause) s = .next (s.linkDown p cause))
    ∧ (st = psRetrain → exec (.reinDownLimit p) s =
        .next ((s.notBefore (q.since + 1000000 * max 1 (s.f .reinLimits 0 16 16))).linkDown p 6))

/-- A packet for another chip goes out at its route's port, or is dropped and counted. RFILL of a bound ring with its
credit goes to the ring's core, without it is answered 3, of no ring with its code; RHWR, RHADD and RREL with nothing
held and no fills outstanding act; RD of an unbound stall is answered with poison, of the Paddock with its beats;
RRESV is granted, waits, or is answered with its code. WACK counts down its transfer, faults the task if refused, is
counted if late; RDATA brings its beats; RGNT reaches its requester, or BUSY waits 1 µs and is sent again; a request
past its limit faults its task with REIN_TIMEOUT. Rests on log entries 5 and 13. From spec/18_rein.md,
08_slots_rings_atomics.md. -/
def Obligations.ReinPackets : Prop :=
  (∀ (s : State) (p i r st o : Nat) (k : Packet),
    ((s.port p).next? (fun k => hDst k.w0 != s.chipId) = some (i, k) →
      (s.route (hDst k.w0) = some r → r ≠ p →
        exec (.packetForward p) s = .next ((s.takeRx p i).sendVia r { k with held := some (p, k.vc) }))
      ∧ ((s.route (hDst k.w0) = none ∨ s.route (hDst k.w0) = some p) →
        exec (.packetForward p) s = .next ((s.doneRx p i k).addF .reinPortErr p 40 12 1)))
    ∧ (let u := s.takeRx p i
       s.nextOf p tRfill = some (i, k) →
        (∀ c, u.remoteRing k.w0 k.w1 = .error c → exec (.rfill p) s = .next (u.wackFill (some (p, k.w0)) c))
        ∧ (∀ c, u.remoteRing k.w0 k.w1 = .ok r → u.holdsCredit r (fld k.w1 21 32) none (remoteKey k.w0) = true →
          ringCore r = some c → let d := fillData k
          exec (.rfill p) s = .next (u.inject c ⟨r, .fill (fld k.w1 21 32) d.1 d.2.1 d.2.2 (some (p, k.w0)) none, none⟩))
        ∧ (u.remoteRing k.w0 k.w1 = .ok r → u.holdsCredit r (fld k.w1 21 32) none (remoteKey k.w0) = false →
          exec (.rfill p) s = .next (u.wackFill (some (p, k.w0)) 3)))
    ∧ ((s.port p).hold = [] → s.fillsOf k.w0 = false →
      (s.nextOf p tHwr = some (i, k) → hType k.w0 = tHwr →
        exec (.remoteHwr p) s = .next ((s.doneRx p i k).remoteHitch k.w0 k.w1 false))
      ∧ (s.nextOf p tHadd = some (i, k) → hType k.w0 = tHadd →
        exec (.remoteHadd p) s = .next ((s.doneRx p i k).remoteHitch k.w0 k.w1 true))
      ∧ (s.nextOf p tRrel = some (i, k) → hType k.w0 = tRrel →
        exec (.rrel p) s = .next ((s.doneRx p i k).releaseRemote fun n => n == remoteKey k.w0)))
    ∧ (s.nextOf p tRd = some (i, k) →
      let a := fld k.w1 0 48
      let beats := fld k.w1 48 3
      (s.bound k.w0 = none → exec (.rd p) s = .next ((s.doneRx p i k).sendPacket (answer0 k.w0 tRdata (4 * beats)) 1
        (List.replicate (4 * beats) (BitVec.allOnes 128, true))))
      ∧ (∀ e, s.bound k.w0 = some st → a % 64 = 0 → s.place st a false = some (.paddock o) →
        s.place st (a + 64 * beats - 1) false = some e →
        exec (.rd p) s = .next (((s.pdSettle o).doneRx p i k).sendPacket (answer0 k.w0 tRdata (4 * beats)) 0
          ((s.pdSettle o).beatSlots (pdBase + o) beats))))
    ∧ (s.nextOf p tRresv = some (i, k) → let u := s.doneRx p i k
      let n := fld k.w1 21 4 + 1
      u.remoteWaiting < remoteTable →
        (∀ c, u.remoteRing k.w0 k.w1 = .error c →
          exec (.rresv p) s = .next (u.sendPacket (answer0 k.w0 tRgnt 0) (BitVec.ofNat 64 (c + 0 * 2 ^ 32)) []))
        ∧ (u.remoteRing k.w0 k.w1 = .ok r → u.canGrant r n = true → exec (.rresv p) s =
          .next ((u.grantCredits r n none (remoteKey k.w0)).sendPacket (answer0 k.w0 tRgnt 0)
            (BitVec.ofNat 64 (0 + u.ringResv r * 2 ^ 32)) []))
        ∧ (u.remoteRing k.w0 k.w1 = .ok r → u.canGrant r n = false →
          exec (.rresv p) s = .next (u.waitResv r n (.remote p k.w0) none))))
  ∧ (∀ (s : State) (p i unit tag : Nat) (k : Packet) (g : Tagged),
    let u := s.doneRx p i k
    let v := u.endTag g
    (∀ core q x, s.nextOf p tWack = some (i, k) → u.tagOf k.w0 = some g → fld k.w1 0 8 = 0 → g.what = .fill (some (core, q, x)) →
      exec (.wack p) s = .next (v.updXfer core q x fun x => { x with acks := x.acks - 1 }))
    ∧ (s.nextOf p tWack = some (i, k) → u.tagOf k.w0 = some g → fld k.w1 0 8 ≠ 0 →
        exec (.wack p) s = .next (g.refused v (fld k.w1 0 8)))
    ∧ (s.nextOf p tWack = some (i, k) → u.tagOf k.w0 = none → exec (.wack p) s = .next (u.addF .reinPortErr p 52 12 1))
    ∧ (∀ core q x beat, s.nextOf p tRdata = some (i, k) → u.tagOf k.w0 = some g → fld k.w1 0 8 = 0 →
        g.what = .read core q x beat →
        exec (.rdata p) s = .next (v.updXfer core q x fun x => { x with got := x.got ++ k.beatsFrom beat }))
    ∧ (∀ who ring n, s.nextOf p tRgnt = some (i, k) → u.tagOf k.w0 = some g → g.what = .resv who ring n →
        (fld k.w1 0 8 = 5 → exec (.rgnt p) s =
          .next (v.setTagged (v.cx.rein.tagged ++ [{ g with busy := true, sent := v.now }])))
        ∧ (∀ c x, fld k.w1 0 8 = 0 → who = .ctx c x →
          exec (.rgnt p) s = .next (v.granted ⟨who, g.task, n, g.sent⟩ (farRing g.chip) (fld k.w1 32 32))))
    ∧ (s.cx.rein.tagged.find? (fun g => g.unit == unit && g.tag == tag && g.busy) = some g →
        let w := s.notBefore (g.sent + 1000)
        exec (.rresvRetry unit tag) s = .next ((w.setTagged (w.cx.rein.tagged.map fun o =>
          if o.unit = unit ∧ o.tag = tag then { o with busy := false, sent := w.now } else o)).sendPacket g.w0 g.w1 []))
    ∧ (s.cx.rein.tagged.find? (fun g => g.unit == unit && g.tag == tag && !g.busy) = some g →
        let w := s.notBefore (g.sent + 1000 * max 1 (s.f .reinLimits 0 0 16))
        exec (.reinTimeout unit tag) s = .next (g.fault (w.endTag g) .reinTimeout (g.chip + g.tag * 2 ^ 16))))

/-- A card without power starts cold; a supply drop and a loss of VDD_SOC power-good end in the powered-off card; the
detection of AUX and of an undervoltage are stored; PERST# asserted resets the device, released it begins start-up, on
a tripped card once it is cool enough; THERMAL_TRIP leaves the Ostler island's rails and the thermal fence. A reset of
the device leaves no DRAM contents, queues, tasks, core-complex state, filter, extents, sessions, commit, verified
CTRL image or written handshake, keeps the rails, counts itself if counted, and in canonical form clears power-good.
From spec/21_power_thermal.md, 02_stages_and_firmware.md, 24_card_hardware.md, 23_register_map.md. -/
def Obligations.PowerAndReset : Prop :=
  (∀ (s : State) (b : Bool),
    (s.pw.rails = 0 → exec .coldPowerOn s = .next { s.powerOff with now := 0, pw := Power.cold })
    ∧ (s.pw.rails ≠ 0 → exec .supplyDrop s = .next s.powerLoss ∧ exec .vddSocPowerGoodLoss s = .next s.powerLoss)
    ∧ (s.ostlerOn = true → exec (.auxDetect b) s = .next (s.setF .powerStatus 0 32 1 (bit b)))
    ∧ exec (.v12bUndervoltage b) s = .next (s.updPw fun p => { p with undervolt := b })
    ∧ (s.pw.rails ≠ 0 → s.link.jumper2x8 = false → s.stage.perst = false → exec (.perstAssert false) s =
        .next ((s.updStage fun g => { g with perst := true }).perstScope true))
    ∧ (s.pw.rails = 7 → s.link.jumper2x8 = false → s.stage.perst = true → exec (.perstDeassert false) s =
        .next (s.updStage fun g => { g with perst := false }).beginStart)
    ∧ (s.pw.rails = 3 → s.link.jumper2x8 = false → s.stage.perst = true →
        let u := s.updStage fun g => { g with perst := false }
        (u.coolEnough = true → exec (.perstDeassert false) s = .next (u.updPw fun p => { p with rails := 7 }).beginStart)
        ∧ (u.coolEnough = false → exec (.perstDeassert false) s = .next u))
    ∧ (∀ k, s.pw.rails ≠ 0 → k < 6 → s.trippedOff = false → ∃ t, exec (.thermalTrip k) s = .next t ∧ t.pw.rails = 3
        ∧ t.stage.fences.contains 1 = true))
  ∧ (∀ (s : State) (count : Bool), let t := s.perstScope count
    t.mem = [] ∧ t.poison = [] ∧ t.q = Queues.idle ∧ t.cx = Complex.idle ∧ t.dcoh = Dcoh.idle ∧ t.link.extents = []
      ∧ t.gb.sessions = [] ∧ t.gb.commit = none ∧ t.stage.ctrlVerified = false ∧ t.stage.hsWritten = []
      ∧ t.pw.rails = s.pw.rails ∧ t.ras.resets = s.ras.resets + bit count
      ∧ (s.Inv → t.f .vrStatus 0 20 1 = 0))

/-- Out of reset: WALK_ENTRY with valid training enters Walk, and without a record notes the failing channel; the
images are verified, report themselves, and past their limits fail their pair; VR_NOT_READY records the faulted phases
500 ms after the MGMT image runs; TROT_ENTRY with power-good cores enters Trot; BIST_COMPLETE records the cores that
pass; CANTER_ENTRY with an accepted handshake, running images, power-good and no fence enters Canter. A failing pair:
with FALLBACK permitted and not used the other pair starts; with it not permitted the reason is held. Rests on log
entry 5. From spec/02_stages_and_firmware.md. -/
def Obligations.StartUp : Prop :=
  (∀ (s : State) (mask : Word32) (ch : Nat), s.inReset = false →
    (s.stageNow = 0 → s.stage.trainFail = none →
      (s.stage.trainValid = true → exec (.walkEntry true none) s =
        .next ((s.setF .stageStatus 0 0 2 1).setF .stageTimes 0 0 16 s.stageMs).memActive)
      ∧ exec (.walkEntry false (some ch)) s =
        .next (s.updStage fun g => { g with trainFail := some (ch % 32), trainValid := false }))
    ∧ (s.stageNow ≠ 0 → s.stage.mgmtVerified = false → s.ras.ostlerHeld = false → s.mgmtHeld = false →
        exec (.imageVerify .mgmt) s = .next s.verifyMgmt)
    ∧ (s.stageNow = 2 → s.stage.ctrlVerified = false → s.mgmtUp = true → s.ctrlHeld = false →
        exec (.imageVerify .ctrl) s = .next s.verifyCtrl)
    ∧ (s.stage.mgmtVerified = true → s.mgmtUp = false → s.stage.mgmtStart.isSome = true → s.ras.ostlerHeld = false →
        exec (.imageReportsRunning .mgmt) s = .next s.mgmtRuns)
    ∧ (s.stage.ctrlVerified = true → s.f .stageStatus 0 7 1 = 0 → s.stage.ctrlStart.isSome = true →
        s.stage.fences.contains 8 = false → exec (.imageReportsRunning .ctrl) s = .next s.ctrlRuns)
    ∧ (∀ t, s.stage.mgmtStart = some t → s.mgmtUp = false → s.stage.mgmtVerified = true → exec .mgmtStartTimeout s =
        .next (((s.notBefore (t + 1500000000)).updStage fun g => { g with mgmtVerified := false, mgmtStart := none }).pairFails
          rcMgmtTimeout 0))
    ∧ (∀ t, s.stage.ctrlStart = some t → s.f .stageStatus 0 7 1 = 0 → s.stage.ctrlVerified = true → exec .ctrlStartTimeout s =
        .next (((s.notBefore (t + 2000000000)).updStage fun g => { g with ctrlVerified := false, ctrlStart := none }).pairFails
          rcCtrlTimeout 0))
    ∧ (s.mgmtUp = true → s.corePg = false → (s.stageNow = 1 ∨ s.stageNow = 2) → s.stage.vrReason = none → exec .vrNotReady s =
        .next ((s.notBefore (s.stage.mgmtUpAt + 500000000)).updStage fun g => { g with vrReason := some s.faultedPhases }))
    ∧ (s.stageNow = 1 → s.mgmtUp = true → s.corePg = true →
        exec .trotEntry s = .next (((s.setF .stageStatus 0 0 2 2).setF .stageTimes 0 16 16 s.stageMs).clearShared.updStage
          fun g => { g with ctrlCopied := true, trainValid := true }))
    ∧ (2 ≤ s.stageNow → s.corePg = true → s.stage.bistDone = false → exec (.bistComplete mask) s =
        .next (((s.setReg .stageBist 0 (mask.setWidth 64)).setF .stageStatus 0 16 6
          ((List.range 32).filter fun c => !mask.toNat.testBit c).length).updStage fun g => { g with bistDone := true }))
    ∧ (s.stageNow = 2 → s.imagesReady = true → s.noneAccepted = false → s.stage.fences = [] → s.corePg = true →
        exec .canterEntry s = .next (((s.setF .stageStatus 0 0 2 3).setF .stageTimes 0 32 16 s.stageMs).updStage fun g => { g with
          mgmtReason := none, ctrlReason := none, drvReason := none, vrReason := none, fallback := false, heldFailed := false })))
  ∧ (∀ (s : State) (code detail : Nat),
    (s.f .stageCtl 0 2 1 = 1 → s.f .stageStatus 0 5 1 = 0 →
      s.pairFails code detail = (((s.setAlt code detail s.pairB).setF .stageStatus 0 5 1 1).restartPair (!s.pairB)).updStage
        fun g => { g with fallback := true })
    ∧ (s.f .stageCtl 0 2 1 = 0 → s.stage.fallback = false → s.pairFails code detail = s.setReason code detail))

/-- If CANTER_ENTRY takes a device that is not in Canter to Canter, then before it no fence was in force, some
handshake was accepted, VDD_CORE was power-good, both images ran, the Stage was Trot and the self-test was done. From
spec/02_stages_and_firmware.md. -/
def Obligations.CanterNeedsAll : Prop :=
  ∀ s t : State, exec .canterEntry s = .next t → s.f .stageStatus 0 0 2 ≠ 3 → t.f .stageStatus 0 0 2 = 3 →
    s.stage.fences = [] ∧ s.noneAccepted = false ∧ s.corePg = true ∧ s.mgmtUp = true ∧ s.f .stageStatus 0 7 1 = 1
      ∧ s.f .stageStatus 0 0 2 = 2 ∧ s.stage.bistDone = true

/-- Out of reset with the 2 × x8 jumper a head that is down and released from reset comes up at its rate and width and
its requester is present; in MLD mode an LD is bound and its requester present. For a present requester: an attempt to
place F0 in D3hot is completed and F0 stays in D0, with nothing changed; a function-level reset of F0 resets its
mailbox but a Sanitize in progress; a requester reset acts and, outside MLD mode, takes its head down. F1's
function-level reset acts; F1 in D3hot fences compute, and its return resets F1 and lifts the fence. Formalises R135.
-/
def Obligations.LinksAndFunctions : Prop :=
  ∀ (s : State) (req ld rate width : Nat),
    (s.inReset = false → s.link.jumper2x8 = true → (∀ h, (h = 0 ∧ s.stage.perst = false ∨
        h = 1 ∧ s.stage.perst1 = false ∧ s.link.refclk1 = true) → rate ≤ 3 → width ≤ 3 →
        let lo := if h = 0 then 2 else 12
        s.f .devLink 0 lo 1 = 0 → s.stageNow = 0 →
        exec (.headLinkL0 h rate width false false false) s = .next
          ((s.setF .devLink 0 lo 10 (1 + 2 * rate + 2 ^ 4 * width)).setF .devReqPresent 0 h 1 1)))
    ∧ (s.inReset = false → ld < 16 → s.f .devLink 0 0 2 = 1 → s.headsMem.contains 0 = true → s.stageNow = 0 →
        exec (.ldBind ld) s =
          .next (({ s with link := { s.link with bound := KSet.add ld s.link.bound } }).setF .devReqPresent 0 ld 1 1))
    ∧ (s.present req = true →
        exec (.f0D3hot req) s = .next (s.emit (.config req 0 false))
        ∧ exec (.f0Flr req) s = .next (s.setMbox req { Mailbox.reset with sanitize := (s.mbox req).sanitize })
        ∧ (let u := s.requesterReset req
           exec (.requesterReset req) s = .next (if u.f .devLink 0 0 2 = 1 then u else u.headDown req)))
    ∧ (s.inReset = false →
        exec .f1Flr s = .next s.f1Flr
        ∧ (s.link.f1D3 = false → exec .f1D3hot s = .next (({ s with link := { s.link with f1D3 := true } }).fenceOn 6))
        ∧ (s.link.f1D3 = true → exec .f1D0Return s =
          .next ((({ s with link := { s.link with f1D3 := false } }).f1Flr).fenceOff 6)))

/-- Power-good comes with the enabled rail within 50 mV of its set-point and goes above 900 mV; one retry follows 10
ms after a power-good fault; each period of a switching phase gives its pulse and clears what did not repeat; eight
overcurrent periods in a row, and a hard short at once, fault a leg; lost remote sense turns to local sense and warns
once; a frozen ADC latches the rail off. Rests on log entry 5. From spec/21_power_thermal.md. -/
def Obligations.Regulator : Prop :=
  ∀ (s : State) (p v remote loc : Nat) (low counter : Bool) (demand : Int),
    (let sp := s.setpointOf (s.f .vrCtl 0 3 2)
     s.corePg = false → s.f .vrCtl 0 0 1 = 1 → s.pw.rails = 7 → s.pw.latched = false → s.pw.undervolt = false →
      s.pw.pgFaultAt = none → s.mgmtUp = true → s.stageNow ≠ 0 → sp ≤ v + 50 → v ≤ sp + 50 →
      let u := (((s.setF .vrStatus 0 20 1 1).setF .vrStatus 0 0 10 v).recap).updPw fun p => { p with
        pgFaultAt := none, retried := false }
      exec (.powerGoodAssert v) s = .next (({ u with stage := { u.stage with vrReason := none } }).fenceOff 7))
    ∧ (s.f .vrCtl 0 0 1 = 1 → s.corePg = true → 900 < v →
        exec (.powerGoodFault true v) s = .next (s.setF .vrStatus 0 0 10 v).corePgFault)
    ∧ (∀ t, s.pw.pgFaultAt = some t → s.pw.retried = false → s.pw.latched = false → s.f .vrCtl 0 0 1 = 1 →
        exec .powerGoodRetry s =
          .next (((s.notBefore (t + 10000000)).setF .vrCtl 0 3 2 1).updPw fun p => { p with retried := true }))
    ∧ (s.switches p = true → s.f .vrStatus 0 22 1 = 0 →
        let k := s.phase p
        let w := s.reg .vrPwm 0
        let r := onTime (fld w 8 8) (fld w 16 8) (fld w 0 7) (fld w 24 8) k.carry k.skips demand
        exec (.pwmPeriod p demand) s = .next ((if r.2.2.2 then s.addF .vrStatus 0 48 16 1 else s).setPhase p { k with
          on := r.1, carry := r.2.1, skips := r.2.2.1
          hs := if k.hsNow then k.hs else 0, ls := if k.lsNow then k.ls else 0, hsNow := false, lsNow := false }))
    ∧ (s.switches p = true → (s.phase p).hsNow = false →
        let n := (s.phase p).hs + 1
        let u := s.setPhase p { s.phase p with hs := n, hsNow := true, on := 0 }
        (n < 8 → exec (.overcurrentTrip p false) s = .next u)
        ∧ (8 ≤ n → exec (.overcurrentTrip p false) s = .next (u.legFault p false false)))
    ∧ (s.switches p = true → exec (.hardShort p low) s = .next (s.legFault p low true))
    ∧ (s.f .vrCtl 0 0 1 = 1 → s.f .vrStatus 0 21 1 = 0 → s.f .vrStatus 0 22 1 = 0 → exec (.remoteSenseLost true remote loc) s =
        .next (((s.setF .vrStatus 0 21 1 1).powerFault .vrSenseLost
          (1 + 2 ^ 16 * (remote % 2 ^ 16) + 2 ^ 32 * (loc % 2 ^ 16)) true).recap))
    ∧ (s.f .vrCtl 0 0 1 = 1 → s.f .vrStatus 0 22 1 = 0 → s.corePg = true → exec (.adcFrozen counter) s =
        .next (((s.setF .vrStatus 0 22 1 1).powerFault .vrAdcFrozen (bit counter) true).coreLatch 3))

/-- No demand gives no pulse; a request below TON_MIN is skipped and carried up to four times in a row and then gives
TON_MIN; one between TON_MIN and what the dead time and TOFF_MIN leave gives the demand with what was carried. In
every state the set-point of every OP lies from 500 to 850 mV, OP_CAP is at most OP 3 and the effective OP at most
OP_CAP. From spec/21_power_thermal.md. -/
def Obligations.RegulatorLimits : Prop :=
  (∀ (ton toff dead dmax : Nat) (carry demand : Int) (skips : Nat),
    let r := onTime ton toff dead dmax carry skips demand
    (demand ≤ 0 → r = (0, 0, 0, false))
    ∧ (0 < demand → 10 * (demand + carry) < 64 * ton → skips < 4 → r = (0, demand + carry, skips + 1, true))
    ∧ (0 < demand → 10 * (demand + carry) < 64 * ton → 4 ≤ skips → r.1 = (64 * ton + 5) / 10 ∧ r.2 = (0, 0, false))
    ∧ (0 < demand → 64 * (ton : Int) ≤ 10 * (demand + carry) → 64 * (dead : Int) + 64 * toff ≤ 10 * (8000 - (demand + carry)) →
        (r.1 : Int) = demand + carry ∧ r.2 = (0, 0, false)))
  ∧ (∀ (s : State) (op : Nat), 500 ≤ s.setpointOf op ∧ s.setpointOf op ≤ 850 ∧ s.opCap ≤ 3 ∧ s.effOp ≤ s.opCap)

/-- An OP change starts to the effective OP and completes with no more than OP_CAP; ADAPT steps by 5 mV with the
slack, down no more than MAX_DOWN (taken as 100 from there up) and up no more than 0; a droop takes it to 0.
CLOCK_REF_CHECK within its removal limit starts the removal time; REFCLK_LOSS switches the fed PLLs; VREF_CHECK from
100 to 150 warns and guards; THERMAL_TICK and TEMP_SENSOR_FROZEN set the sensor's reading and mark; a power average
above the limit lowers the power cap; the fan starts, is checked after 2 s and follows its duty, or runs full while
warm or a sensor is frozen; lost tach edges put it in state 5. Rests on log entry 5. From spec/21_power_thermal.md,
24_card_hardware.md. -/
def Obligations.PowerMonitors : Prop :=
  (∀ (s : State) (op at_ slack : Nat),
    (s.mgmtUp = true → s.corePg = true → s.pw.target = none → s.effOp ≠ s.f .vrCtl 0 3 2 →
      (s.f .vrCtl 0 3 2 < s.effOp → s.stage.fences.contains 1 = false) →
      exec .opChange s = .next (s.updPw fun p => { p with
        target := some (s.effOp, s.now + s.opTime (s.f .vrCtl 0 3 2) s.effOp) }))
    ∧ (s.pw.target = some (op, at_) → let u := s.notBefore at_
        let v := (((u.setF .vrCtl 0 3 2 (min op u.opCap)).setF .vrStatus 0 24 8 0).updPw fun p => { p with target := none }).recap
        exec .opChangeComplete s = .next (if v.mgmtUp then v.beginOp else v))
    ∧ (s.mgmtUp = true → s.corePg = true → s.f .vrAdapt 0 0 1 = 1 → s.pw.adaptAt = none → s.pw.droopAt = none →
        let u := s.updPw fun p => { p with adaptAt := some s.now, droopAt := none }
        s.f .vrAdapt 0 16 8 < s.f .vrAdapt 0 24 8 →
        (s.f .vrAdapt 0 24 8 ≤ slack → exec (.adaptTick slack) s =
          .next (u.setAdapt (max (-(min 100 (u.f .vrAdapt 0 8 8) : Int)) (signed 8 (u.f .vrStatus 0 24 8) - 5))))
        ∧ (slack < s.f .vrAdapt 0 16 8 → exec (.adaptTick slack) s =
          .next (u.setAdapt (min 0 (signed 8 (u.f .vrStatus 0 24 8) + 5)))))
    ∧ (s.corePg = true → exec .droopAlarm s = .next ((s.setAdapt 0).updPw fun p => { p with droopAt := some s.now })))
  ∧ (∀ (s : State) (k diff card core iout vout duty rpm : Nat) (temp refXo refW xoW : Int) (counter : Bool),
    s.ostlerOn = true →
    (let d := refXo + (min 2500 (s.f .refCfg 0 0 12) : Nat)
     let u := (s.setF .refStatus 0 0 16 (lowBits 16 d)).setF .refStatus 0 16 16 (lowBits 16 xoW)
     d.natAbs ≤ 200 → u.pw.clkOkAt = none →
      exec (.clockRefCheck refXo refW xoW) s = .next (u.updPw fun p => { p with clkOkAt := some u.now }))
    ∧ (s.feeds true = true → exec .refclkLoss s = .next ((s.switchPlls true).clockWarn (signed 16 (s.f .refStatus 0 0 16))
        (signed 16 (s.f .refStatus 0 16 16)) true false true))
    ∧ (s.Inv → 100 ≤ diff → diff ≤ 150 → s.f .refStatus 0 51 1 = 0 →
        let u := ((s.setF .refStatus 0 32 16 diff).setF .refStatus 0 51 1 1).setF .vrStatus 0 23 1 1
        exec (.vrefCheck diff) s = .next ((u.powerFault .vrefDriftWarn diff false).updPw fun p => { p with
          vrefWarnOk := none, vrefFenceOk := none }).recap)
    ∧ (k < 6 → s.frozen k = false → exec (.thermalTick k temp) s =
        .next (s.setF .thermStatus 0 (8 * k) 8 (lowBits 8 temp)).thermal)
    ∧ (k < 6 → s.frozen k = false → let u := s.updPw fun p => { p with thaw := Tbl.erase k p.thaw }
        exec (.tempSensorFrozen k counter) s =
          .next (((u.setF .thermStatus 0 (48 + k) 1 1).powerFault .tempSensorFrozen (k + 8 * bit counter) false).fanFull).thermal)
    ∧ (∀ at_, s.pw.powerAt = some at_ →
        let u := (((s.notBefore (at_ + 10000000)).setF .powerStatus 0 0 16 (min card 65535)).setF .powerStatus 0 16 16
          (min core 65535)).setF .vrStatus 0 32 16 (min iout 65535)
        let v := (u.setF .vrStatus 0 0 10 (min vout 1023)).updPw fun p => { p with powerAt := some u.now }
        10 * v.effLimit < card → exec (.powerLimitTick card core iout vout) s =
          .next (v.updPw fun p => { p with capPower := p.capPower - 1, lowAt := none }).recap)
    ∧ (s.card.order = .a256 → s.mgmtUp = true →
        (s.fanState = 2 → let u := s.notBefore (s.pw.fanAt + 5 * 10 ^ 9)
          exec .fanStart s = .next (((u.setF .fanStatus 0 20 4 (u.f .fanStatus 0 20 4 + 1)).setFan 1).fanFull))
        ∧ (s.fanState = 0 → s.pw.fanWant = true →
          exec .fanStart s = .next (((s.updPw fun p => { p with fanWant := false }).setFan 1).fanFull))
        ∧ (s.fanState = 3 →
          let u := (s.notBefore (s.pw.fanAt + 10 ^ 9)).setF .fanStatus 0 0 16 (min rpm 65535)
          let v := u.updPw fun p => { p with fanAt := u.now }
          (v.warnC ≤ v.junctionWarm ∨ v.anyFrozen = true → exec (.fanControlTick duty rpm) s = .next (v.setF .fanStatus 0 24 8 100))
          ∧ (v.junctionWarm < v.warnC → v.anyFrozen = false → v.f .fanCtl 0 1 1 = 0 → exec (.fanControlTick duty rpm) s =
            .next (v.setF .fanStatus 0 24 8 (max (v.f .fanCtl 0 8 8) (min duty 100))))))
    ∧ (s.fanState = 1 → let u := (s.notBefore (s.pw.fanAt + 2 * 10 ^ 9)).setF .fanStatus 0 0 16 (min rpm 65535)
        (300 < rpm → exec (.fanStartCheck rpm) s = .next (u.setFan 3))
        ∧ (rpm ≤ 300 → u.f .fanStatus 0 20 4 < 3 → exec (.fanStartCheck rpm) s = .next (u.setFan 2)))
    ∧ (s.fanState = 3 → exec .tachLost s = .next (((((((s.setFan 5).setF .fanStatus 0 19 1 1).setF .fanStatus 0 0 16 0).updPw
        fun p => { p with tachBackAt := none }).fanFull).powerFault .tachLost (s.f .fanStatus 0 0 16) false))))
end

