-- ==== Sys2Proof/Laws/Issue.lean ====
section
/-! SUPPORT. What the issue of a scalar instruction comes to. -/

namespace Sys2Proof.Machine

open Sys2Proof

theorem fetch_wide {s : State} {c pc : Nat} {w : Word} (h : s.fetch c pc = w) :
    isWide (BitVec.ofNat 64 (s.rdNat (isBase c + 4 * pc) 4)) = isWide w := by
  unfold State.fetch at h
  dsimp only at h
  split at h
  · next hw =>
    rw [← h]
    unfold isWide iMajor ib fld
    simp only [BitVec.toNat_ofNat, Nat.shiftRight_eq_div_pow]
    congr 2
    omega
  · rw [h]

/-- An instruction that issues and executes runs its effect. -/
theorem issueOf_issues {i : Issue} {o : Op} {s : State} {t : Task} (run : X → State → State) (h : Issues i o s t) :
    issueOf i o run s = run (issueX i s t) (issueTook i s) := by
  obtain ⟨h1, h2, h3, h4, h5, h6, h7, h8, h9, h10, h11⟩ := h
  have hw := fetch_wide h9
  unfold issueOf
  rw [h1]
  dsimp only
  rw [if_neg (by simp [h2, h3, h4, h5, h6, h7])]
  rw [if_neg, if_neg (by simp [h9]), h10]
  · dsimp only
    rw [if_neg (by simp), if_neg (by simp [h11])]
    rfl
  · rw [hw]
    unfold wordsOf at h8
    split at h8 <;> (simp_all) <;> omega

/-- The head of an engine's queue runs. -/
theorem engineOp_heads {core eng : Nat} {op : Op} {meet : Bool} {s : State} {t : Task} {o : EOp} {q : List EOp}
    (run : E → State → State) (h : Heads core eng op s t o q) :
    engineOp core eng op meet run s = run (headE core eng t o meet) (if eng = 1 then vxeCounted core s else s) := by
  obtain ⟨h1, h2, h3, h4, h5, h6⟩ := h
  unfold engineOp
  rw [h1, h3]
  simp only [h4, h2, h5, h6]
  simp [headE, vxeCounted]

/-- Its own PC, words and context. -/
theorem issueX_next (i : Issue) (s : State) (t : Task) (f : Ctx → Ctx) :
    (issueX i s t).next (issueTook i s) f = retires i s f := rfl

theorem issueX_ret (i : Issue) (s : State) (t : Task) (v : Word) (p : Bool) :
    (issueX i s t).ret (issueTook i s) v p = retires i s fun k => k.wg (iRd i.word) v p := rfl

theorem issueX_jump (i : Issue) (s : State) (t : Task) (pc : Nat) (f : Ctx → Ctx) :
    (issueX i s t).jump (issueTook i s) pc f = jumps i s pc f := rfl

end Sys2Proof.Machine
end

