-- ==== Sys2Proof/Laws/Tables.lean ====
section
/-! SUPPORT. Sparse tables: what a read gives after a write, and that every operation keeps rising keys and the
canonical form. -/

namespace Sys2Proof.Machine

variable {α : Type}

/-! ## Reading after writing -/

theorem Tbl.find?_insert_self (k : Nat) (v : α) (t : List (Nat × α)) : Tbl.find? k (Tbl.insert k v t) = some v := by
  induction t with
  | nil => simp [Tbl.insert, Tbl.find?]
  | cons e t ih =>
    obtain ⟨j, w⟩ := e
    simp only [Tbl.insert]
    split
    · simp [Tbl.find?]
    · split
      · simp [Tbl.find?]
      · simp_all [Tbl.find?]

theorem Tbl.find?_insert_ne {j k : Nat} (h : j ≠ k) (v : α) (t : List (Nat × α)) :
    Tbl.find? j (Tbl.insert k v t) = Tbl.find? j t := by
  induction t with
  | nil => simp [Tbl.insert, Tbl.find?, Ne.symm h]
  | cons e t ih =>
    obtain ⟨i, w⟩ := e
    simp only [Tbl.insert]
    split
    · simp [Tbl.find?, Ne.symm h]
    · split
      · next h2 => subst h2; simp [Tbl.find?, Ne.symm h]
      · simp [Tbl.find?, ih]

theorem Tbl.find?_erase_ne {j k : Nat} (h : j ≠ k) (t : List (Nat × α)) :
    Tbl.find? j (Tbl.erase k t) = Tbl.find? j t := by
  induction t with
  | nil => rfl
  | cons e t ih =>
    obtain ⟨i, w⟩ := e
    simp only [Tbl.erase]
    split
    · rfl
    · split
      · next h2 => subst h2; simp [Tbl.find?, Ne.symm h]
      · simp [Tbl.find?, ih]

theorem Tbl.risingFrom_mono {a b : Nat} {t : List (Nat × α)} (h : Tbl.risingFrom b t = true) (hab : a ≤ b) :
    Tbl.risingFrom a t = true := by
  cases t with
  | nil => rfl
  | cons e t =>
    obtain ⟨k, v⟩ := e
    simp only [Tbl.risingFrom, Bool.and_eq_true, decide_eq_true_eq] at *
    exact ⟨by omega, h.2⟩

theorem Tbl.find?_of_rising {b k : Nat} {t : List (Nat × α)} (h : Tbl.risingFrom b t = true) (hk : k < b) :
    Tbl.find? k t = none := by
  induction t generalizing b with
  | nil => rfl
  | cons e t ih =>
    obtain ⟨j, v⟩ := e
    simp only [Tbl.risingFrom, Bool.and_eq_true, decide_eq_true_eq] at h
    have : j ≠ k := by omega
    simp only [Tbl.find?, this, if_false]
    exact ih h.2 (by omega)

theorem Tbl.find?_erase_self {b : Nat} {k : Nat} {t : List (Nat × α)} (h : Tbl.risingFrom b t = true) :
    Tbl.find? k (Tbl.erase k t) = none := by
  induction t generalizing b with
  | nil => rfl
  | cons e t ih =>
    obtain ⟨j, v⟩ := e
    simp only [Tbl.risingFrom, Bool.and_eq_true, decide_eq_true_eq] at h
    simp only [Tbl.erase]
    split
    · next h2 =>
      have : j ≠ k := by omega
      simp only [Tbl.find?, this, if_false]
      exact Tbl.find?_of_rising h.2 (by omega)
    · split
      · next h2 => subst h2; exact Tbl.find?_of_rising h.2 (by omega)
      · next h2 => simp only [Tbl.find?, h2, if_false]; exact ih h.2

/-- A key reads what was written to it. -/
theorem Tbl.get_put_self [DecidableEq α] {d : α} {t : List (Nat × α)} {k : Nat} {v : α} {b : Nat}
    (h : Tbl.risingFrom b t = true) : Tbl.get d (Tbl.put d t k v) k = v := by
  unfold Tbl.get Tbl.put
  split
  · next w hw =>
    split at hw
    · rw [Tbl.find?_erase_self h] at hw; cases hw
    · rw [Tbl.find?_insert_self] at hw; exact (Option.some.inj hw).symm
  · next hw =>
    split at hw
    · next h2 => exact h2.symm
    · rw [Tbl.find?_insert_self] at hw; cases hw

/-- Every other key reads as before. -/
theorem Tbl.get_put_ne [DecidableEq α] {d e : α} {t : List (Nat × α)} {j k : Nat} {v : α} (h : j ≠ k) :
    Tbl.get d (Tbl.put e t k v) j = Tbl.get d t j := by
  have hf : Tbl.find? j (Tbl.put e t k v) = Tbl.find? j t := by
    unfold Tbl.put
    split
    · exact Tbl.find?_erase_ne h t
    · exact Tbl.find?_insert_ne h v t
  unfold Tbl.get
  rw [hf]

/-! ## Rising keys -/

theorem Tbl.risingFrom_insert {b k : Nat} {v : α} {t : List (Nat × α)} (h : Tbl.risingFrom b t = true) (hk : b ≤ k) :
    Tbl.risingFrom b (Tbl.insert k v t) = true := by
  induction t generalizing b with
  | nil => simp [Tbl.insert, Tbl.risingFrom, hk]
  | cons e t ih =>
    obtain ⟨j, w⟩ := e
    simp only [Tbl.risingFrom, Bool.and_eq_true, decide_eq_true_eq] at h
    simp only [Tbl.insert]
    split
    · simp only [Tbl.risingFrom, Bool.and_eq_true, decide_eq_true_eq]
      exact ⟨hk, by omega, h.2⟩
    · split
      · next h2 =>
        subst h2
        simp only [Tbl.risingFrom, Bool.and_eq_true, decide_eq_true_eq]
        exact ⟨hk, h.2⟩
      · simp only [Tbl.risingFrom, Bool.and_eq_true, decide_eq_true_eq]
        exact ⟨h.1, ih h.2 (by omega)⟩

theorem Tbl.risingFrom_erase {b k : Nat} {t : List (Nat × α)} (h : Tbl.risingFrom b t = true) :
    Tbl.risingFrom b (Tbl.erase k t) = true := by
  induction t generalizing b with
  | nil => rfl
  | cons e t ih =>
    obtain ⟨j, w⟩ := e
    have h' := h
    simp only [Tbl.risingFrom, Bool.and_eq_true, decide_eq_true_eq] at h
    simp only [Tbl.erase]
    split
    · exact h'
    · split
      · exact Tbl.risingFrom_mono h.2 (by omega)
      · simp only [Tbl.risingFrom, Bool.and_eq_true, decide_eq_true_eq]
        exact ⟨h.1, ih h.2⟩

theorem Tbl.risingFrom_put [DecidableEq α] {b k : Nat} {d v : α} {t : List (Nat × α)}
    (h : Tbl.risingFrom b t = true) (hk : b ≤ k) : Tbl.risingFrom b (Tbl.put d t k v) = true := by
  unfold Tbl.put
  split
  · exact Tbl.risingFrom_erase h
  · exact Tbl.risingFrom_insert h hk

theorem Tbl.risingFrom_filter {b : Nat} {t : List (Nat × α)} (p : Nat × α → Bool) (h : Tbl.risingFrom b t = true) :
    Tbl.risingFrom b (t.filter p) = true := by
  induction t generalizing b with
  | nil => rfl
  | cons e t ih =>
    obtain ⟨j, w⟩ := e
    simp only [Tbl.risingFrom, Bool.and_eq_true, decide_eq_true_eq] at h
    simp only [List.filter_cons]
    split
    · simp only [Tbl.risingFrom, Bool.and_eq_true, decide_eq_true_eq]
      exact ⟨h.1, ih h.2⟩
    · exact Tbl.risingFrom_mono (ih h.2) (by omega)

theorem Tbl.risingFrom_keep {b : Nat} {t : List (Nat × α)} (p : Nat → Bool) (h : Tbl.risingFrom b t = true) :
    Tbl.risingFrom b (Tbl.keep p t) = true := Tbl.risingFrom_filter _ h

/-! ## The canonical form -/

theorem Tbl.mem_insert {k : Nat} {v : α} {t : List (Nat × α)} {e : Nat × α} (h : e ∈ Tbl.insert k v t) :
    e = (k, v) ∨ e ∈ t := by
  induction t with
  | nil => simpa [Tbl.insert] using h
  | cons x t ih =>
    obtain ⟨j, w⟩ := x
    simp only [Tbl.insert] at h
    split at h
    · simpa using h
    · split at h
      · rcases List.mem_cons.1 h with h | h
        · exact .inl h
        · exact .inr (List.mem_cons_of_mem _ h)
      · rcases List.mem_cons.1 h with h | h
        · exact .inr (h ▸ List.mem_cons_self ..)
        · rcases ih h with h | h
          · exact .inl h
          · exact .inr (List.mem_cons_of_mem _ h)

theorem Tbl.mem_erase {k : Nat} {t : List (Nat × α)} {e : Nat × α} (h : e ∈ Tbl.erase k t) : e ∈ t := by
  induction t with
  | nil => exact h
  | cons x t ih =>
    obtain ⟨j, w⟩ := x
    simp only [Tbl.erase] at h
    split at h
    · exact h
    · split at h
      · exact List.mem_cons_of_mem _ h
      · rcases List.mem_cons.1 h with h | h
        · exact h ▸ List.mem_cons_self ..
        · exact List.mem_cons_of_mem _ (ih h)

theorem Tbl.wf_iff [DecidableEq α] {d : Nat → α} {t : List (Nat × α)} :
    Tbl.wf d t = true ↔ Tbl.risingFrom 0 t = true ∧ ∀ e ∈ t, e.2 ≠ d e.1 := by
  simp [Tbl.wf, List.all_eq_true]

/-- A write keeps the canonical form. -/
theorem Tbl.wf_put [DecidableEq α] {d : Nat → α} {t : List (Nat × α)} {k : Nat} {v : α} (h : Tbl.wf d t = true) :
    Tbl.wf d (Tbl.put (d k) t k v) = true := by
  rw [Tbl.wf_iff] at *
  refine ⟨Tbl.risingFrom_put h.1 (Nat.zero_le _), fun e he => ?_⟩
  unfold Tbl.put at he
  split at he
  · exact h.2 e (Tbl.mem_erase he)
  · next hv =>
    rcases Tbl.mem_insert he with he | he
    · subst he; exact hv
    · exact h.2 e he

/-- So does dropping entries; the defaults of the keys that stay may be other ones only where nothing stays. -/
theorem Tbl.wf_keep [DecidableEq α] {c d : Nat → α} {t : List (Nat × α)} {p : Nat → Bool} (h : Tbl.wf c t = true)
    (hd : ∀ k, p k = true → c k = d k) : Tbl.wf d (Tbl.keep p t) = true := by
  rw [Tbl.wf_iff] at *
  refine ⟨Tbl.risingFrom_keep p h.1, fun e he => ?_⟩
  obtain ⟨h1, h2⟩ := List.mem_filter.1 he
  rw [← hd e.1 h2]
  exact h.2 e h1

/-! ## Sets of keys -/

theorem KSet.risingFrom_mono {a b : Nat} {t : List Nat} (h : KSet.risingFrom b t = true) (hab : a ≤ b) :
    KSet.risingFrom a t = true := by
  cases t with
  | nil => rfl
  | cons k t =>
    simp only [KSet.risingFrom, Bool.and_eq_true, decide_eq_true_eq] at *
    exact ⟨by omega, h.2⟩

theorem KSet.risingFrom_add {b k : Nat} {t : List Nat} (h : KSet.risingFrom b t = true) (hk : b ≤ k) :
    KSet.risingFrom b (KSet.add k t) = true := by
  induction t generalizing b with
  | nil => simp [KSet.add, KSet.risingFrom, hk]
  | cons j t ih =>
    simp only [KSet.risingFrom, Bool.and_eq_true, decide_eq_true_eq] at h
    simp only [KSet.add]
    split
    · simp only [KSet.risingFrom, Bool.and_eq_true, decide_eq_true_eq]
      exact ⟨hk, by omega, h.2⟩
    · split
      · next h2 =>
        subst h2
        simp only [KSet.risingFrom, Bool.and_eq_true, decide_eq_true_eq]
        exact ⟨hk, h.2⟩
      · simp only [KSet.risingFrom, Bool.and_eq_true, decide_eq_true_eq]
        exact ⟨h.1, ih h.2 (by omega)⟩

theorem KSet.risingFrom_filter {b : Nat} {t : List Nat} (p : Nat → Bool) (h : KSet.risingFrom b t = true) :
    KSet.risingFrom b (t.filter p) = true := by
  induction t generalizing b with
  | nil => rfl
  | cons j t ih =>
    simp only [KSet.risingFrom, Bool.and_eq_true, decide_eq_true_eq] at h
    simp only [List.filter_cons]
    split
    · simp only [KSet.risingFrom, Bool.and_eq_true, decide_eq_true_eq]
      exact ⟨h.1, ih h.2⟩
    · exact KSet.risingFrom_mono (ih h.2) (by omega)

theorem KSet.risingFrom_set {b : Bool} {k : Nat} {t : List Nat} (h : KSet.risingFrom 0 t = true) :
    KSet.risingFrom 0 (KSet.set b k t) = true := by
  unfold KSet.set
  split
  · exact KSet.risingFrom_add h (Nat.zero_le _)
  · exact KSet.risingFrom_filter _ h

theorem KSet.has_add_self (k : Nat) (t : List Nat) : KSet.has (KSet.add k t) k = true := by
  induction t with
  | nil => simp [KSet.add, KSet.has]
  | cons j t ih =>
    simp only [KSet.add]
    split
    · simp [KSet.has]
    · split
      · next h => simp [KSet.has, h]
      · simp only [KSet.has, List.contains_cons, Bool.or_eq_true] at *
        exact .inr ih

theorem KSet.has_add_ne {j k : Nat} (h : j ≠ k) (t : List Nat) : KSet.has (KSet.add k t) j = KSet.has t j := by
  induction t with
  | nil => simp [KSet.add, KSet.has, h]
  | cons i t ih =>
    simp only [KSet.add]
    split
    · simp [KSet.has, h]
    · split
      · rfl
      · simp only [KSet.has, List.contains_cons] at *
        rw [ih]

theorem KSet.has_del_self (k : Nat) (t : List Nat) : KSet.has (KSet.del k t) k = false := by
  simp [KSet.has, KSet.del]

theorem KSet.has_del_ne {j k : Nat} (h : j ≠ k) (t : List Nat) : KSet.has (KSet.del k t) j = KSet.has t j := by
  simp [KSet.has, KSet.del, h]

/-- A mark reads as it was set. -/
theorem KSet.has_set_self (b : Bool) (k : Nat) (t : List Nat) : KSet.has (KSet.set b k t) k = b := by
  cases b <;> simp [KSet.set, KSet.has_add_self, KSet.has_del_self]

/-- Every other mark stays. -/
theorem KSet.has_set_ne {j k : Nat} (h : j ≠ k) (b : Bool) (t : List Nat) :
    KSet.has (KSet.set b k t) j = KSet.has t j := by
  cases b <;> simp [KSet.set, KSet.has_add_ne h, KSet.has_del_ne h]

end Sys2Proof.Machine
end

