-- ==== Sys2Proof/Laws/Memory.lean ====
section
/-! SUPPORT. Memory and registers: a read after a write, and that every operation over them keeps the canonical form. -/

namespace Sys2Proof.Machine

open Sys2Proof

/-! ## The canonical form in words -/

/-- Keys of memory rise. -/
theorem State.memWf_rising {s : State} (h : s.memWf = true) : Tbl.risingFrom 0 s.mem = true :=
  (Tbl.wf_iff.1 h).1

/-! ## Bytes -/

/-- A byte reads as it was written. -/
theorem State.rdByte_wrByte_self {s : State} (h : s.memWf = true) (a : Nat) (v : Byte) :
    (s.wrByte a v).rdByte a = v :=
  Tbl.get_put_self (State.memWf_rising h)

/-- Every other byte reads as before. -/
theorem State.rdByte_wrByte_ne (s : State) {a b : Nat} (h : b ≠ a) (v : Byte) :
    (s.wrByte a v).rdByte b = s.rdByte b :=
  Tbl.get_put_ne h

/-- A byte write keeps the canonical form. -/
theorem State.memWf_wrByte {s : State} (h : s.memWf = true) (a : Nat) (v : Byte) : (s.wrByte a v).memWf = true :=
  Tbl.wf_put h

/-- So does a write of several bytes. -/
theorem State.memWf_wrBytes (l : List Byte) : ∀ {s : State} (a : Nat), s.memWf = true → (s.wrBytes a l).memWf = true := by
  induction l with
  | nil => intro s a h; exact h
  | cons v t ih => intro s a h; exact ih (a + 1) (State.memWf_wrByte h a v)

/-- Bytes outside those written read as before. -/
theorem State.rdByte_wrBytes_ne (l : List Byte) : ∀ (s : State) (a b : Nat), b < a ∨ a + l.length ≤ b →
    (s.wrBytes a l).rdByte b = s.rdByte b := by
  induction l with
  | nil => intro s a b _; rfl
  | cons v t ih =>
    intro s a b h
    simp only [List.length_cons] at h
    have h1 := ih (s.wrByte a v) (a + 1) b (by omega)
    exact h1.trans (State.rdByte_wrByte_ne s (by omega) v)

/-- The bytes written read as they were written. -/
theorem State.rdByte_wrBytes_self (l : List Byte) : ∀ {s : State} (a : Nat), s.memWf = true →
    ∀ i (hi : i < l.length), (s.wrBytes a l).rdByte (a + i) = l[i] := by
  induction l with
  | nil => intro s a _ i hi; simp at hi
  | cons v t ih =>
    intro s a h i hi
    cases i with
    | zero =>
      have h1 := State.rdByte_wrBytes_ne t (s.wrByte a v) (a + 1) a (.inl (by omega))
      exact h1.trans (State.rdByte_wrByte_self h a v)
    | succ i =>
      simp only [List.length_cons] at hi
      have h1 := ih (a + 1) (State.memWf_wrByte h a v) i (by omega)
      have h2 : a + (i + 1) = a + 1 + i := by omega
      rw [h2]
      exact h1

theorem length_leBytes (n : Nat) : ∀ v, (leBytes n v).length = n := by
  induction n with
  | zero => intro v; rfl
  | succ n ih => intro v; simp [leBytes, ih]

/-- A number written low byte first leaves every byte outside its n. -/
theorem State.rdByte_wrNat_ne (s : State) (a n v b : Nat) (h : b < a ∨ a + n ≤ b) :
    (s.wrNat a n v).rdByte b = s.rdByte b :=
  State.rdByte_wrBytes_ne _ s a b (by rw [length_leBytes]; exact h)

/-- Dropping a range keeps the canonical form. -/
theorem State.memWf_dropRange {s : State} (h : s.memWf = true) (lo n : Nat) : (s.dropRange lo n).memWf = true := by
  unfold State.memWf State.dropRange
  dsimp only
  refine Tbl.wf_keep h ?_
  intro k _
  rfl

theorem baseOf_outside {d : List (Nat × Nat × Nat)} {b n g k : Nat} (h : k < b ∨ b + n ≤ k) :
    baseOf ((b, n, g) :: d) k = baseOf d k := by
  have : (decide (b ≤ k) && decide (k < b + n)) = false := by
    rcases h with h | h <;> simp <;> omega
  simp [baseOf, this]

theorem memDefault_outside {d : List (Nat × Nat × Nat)} {b n g a : Nat}
    (h : a < b * blockSize ∨ b * blockSize + n * blockSize ≤ a) :
    memDefault ((b, n, g) :: d) a = memDefault d a := by
  have hb : 0 < blockSize := by decide
  have : a / blockSize < b ∨ b + n ≤ a / blockSize := by
    rcases h with h | h
    · exact .inl ((Nat.div_lt_iff_lt_mul hb).2 h)
    · refine .inr ((Nat.le_div_iff_mul_le hb).2 ?_)
      rw [Nat.add_mul]; exact h
  unfold memDefault
  rw [baseOf_outside this]

/-- Blocks of DRAM that get a new base leave the canonical form. -/
theorem State.memWf_rebase {s t : State} (h : s.memWf = true) {b n g : Nat}
    (hm : t.mem = (s.dropRange (b * blockSize) (n * blockSize)).mem) (hd : t.dbase = (b, n, g) :: s.dbase) :
    t.memWf = true := by
  unfold State.memWf
  rw [hm, hd]
  unfold State.dropRange
  dsimp only
  refine Tbl.wf_keep h ?_
  intro k hk
  refine (memDefault_outside ?_).symm
  simpa using hk

theorem State.memWf_zeroBlocks {s : State} (h : s.memWf = true) (b n : Nat) : (s.zeroBlocks b n).memWf = true :=
  State.memWf_rebase h rfl rfl

theorem State.memWf_rekeyBlocks {s : State} (h : s.memWf = true) (b n : Nat) : (s.rekeyBlocks b n).memWf = true :=
  State.memWf_rebase h rfl rfl

/-! ## Registers -/

/-- A register reads as it was written. -/
theorem State.reg_setReg_self {s : State} (h : Tbl.risingFrom 0 s.regs = true) (r : Reg) (i : Nat) (v : Word) :
    (s.setReg r i v).reg r i = v :=
  Tbl.get_put_self h

/-- A register at another offset reads as before. -/
theorem State.reg_setReg_ne (s : State) {r q : Reg} {i j : Nat} (h : q.off j ≠ r.off i) (v : Word) :
    (s.setReg r i v).reg q j = s.reg q j :=
  Tbl.get_put_ne h

/-! ## Marks and tags -/

/-- A tag reads as it was set. -/
theorem State.tagAt_setTag_self (s : State) (a : Nat) (b : Bool) : (s.setTag a b).tagAt a = b :=
  KSet.has_set_self b _ _

/-- The tag of another slot stays. -/
theorem State.tagAt_setTag_ne (s : State) {a c : Nat} (h : c / 256 ≠ a / 256) (b : Bool) :
    (s.setTag a b).tagAt c = s.tagAt c :=
  KSet.has_set_ne h b _

/-- A poison mark reads as it was set. -/
theorem State.poisonAt_setPoison_self (s : State) (a : Nat) (b : Bool) : (s.setPoison a b).poisonAt a = b := by
  unfold State.poisonAt State.setPoison
  by_cases h : a < dramTop <;> simp [h, KSet.has_set_self]

end Sys2Proof.Machine
end

