-- ==== Sys2Proof/Laws/Keeps.lean ====
section
/-! SUPPORT. What every operation of the machine keeps: the card's identity, the queue of waiting commands, and the
canonical form of registers and memory (Safety.lean). -/

namespace Sys2Proof.Machine

open Sys2Proof

/-- From s to t the card and its queue stay, and the canonical form is kept. -/
structure Keeps (s t : State) : Prop where
  card    : t.card = s.card
  pending : t.pending = s.pending
  inv     : s.Inv → t.Inv

theorem Keeps.refl (s : State) : Keeps s s := ⟨rfl, rfl, id⟩

/-- A change of other fields. -/
theorem Keeps.upd {s u t : State} (h : Keeps s u) (hc : t.card = u.card) (hp : t.pending = u.pending)
    (hm : t.mem = u.mem) (hb : t.dbase = u.dbase) (hr : t.regs = u.regs) (ho : t.poison = u.poison)
    (hd : t.dpoison = u.dpoison) (hf : t.full = u.full) : Keeps s t := by
  refine ⟨hc.trans h.card, hp.trans h.pending, fun hi => ?_⟩
  have h2 := h.inv hi
  unfold State.Inv State.memWf at *
  rw [hm, hb, hr, ho, hd, hf]
  exact h2

/-- A change that keeps everything of the canonical form by itself. -/
theorem Keeps.also {s u t : State} (h : Keeps s u) (hc : t.card = u.card) (hp : t.pending = u.pending)
    (hi : u.Inv → t.Inv) : Keeps s t :=
  ⟨hc.trans h.card, hp.trans h.pending, fun x => hi (h.inv x)⟩

/-- A change of registers alone. -/
theorem Keeps.updRegs {s u t : State} (h : Keeps s u) (hc : t.card = u.card) (hp : t.pending = u.pending)
    (hm : t.mem = u.mem) (hb : t.dbase = u.dbase) (ho : t.poison = u.poison) (hd : t.dpoison = u.dpoison)
    (hf : t.full = u.full) (hr : Tbl.risingFrom 0 u.regs = true → Tbl.risingFrom 0 t.regs = true) : Keeps s t := by
  refine Keeps.also h hc hp fun hi => ?_
  unfold State.Inv State.memWf at *
  rw [hm, hb, ho, hd, hf]
  exact ⟨hi.1, hr hi.2.1, hi.2.2⟩

theorem Keeps.foldl {α : Type} {s : State} {f : State → α → State} {l : List α} :
    ∀ {u : State}, Keeps s u → (∀ v x, Keeps s v → Keeps s (f v x)) → Keeps s (l.foldl f u) := by
  induction l with
  | nil => intro u h _; exact h
  | cons a t ih => intro u h hf; exact ih (hf _ _ h) hf

theorem Keeps.foldlSnd {α β : Type} {s : State} {f : β × State → α → β × State} {l : List α} :
    ∀ {u : β × State}, Keeps s u.2 → (∀ v x, Keeps s v.2 → Keeps s (f v x).2) → Keeps s (l.foldl f u).2 := by
  induction l with
  | nil => intro u h _; exact h
  | cons a t ih => intro u h hf; exact ih (hf _ _ h) hf

theorem Keeps.foldlFst {α β : Type} {s : State} {f : State × β → α → State × β} {l : List α} :
    ∀ {u : State × β}, Keeps s u.1 → (∀ v x, Keeps s v.1 → Keeps s (f v x).1) → Keeps s (l.foldl f u).1 := by
  induction l with
  | nil => intro u h _; exact h
  | cons a t ih => intro u h hf; exact ih (hf _ _ h) hf

theorem Keeps.ite {s t u : State} {c : Prop} {i : Decidable c} (ht : Keeps s t) (hu : Keeps s u) :
    Keeps s (@ite State c i t u) := by
  by_cases h : c
  · rw [if_pos h]; exact ht
  · rw [if_neg h]; exact hu

theorem Keeps.of_fst {β : Type} {s t : State} {r : State × β} {a : β} (e : r = (t, a)) (h : Keeps s r.1) : Keeps s t := by
  subst e; exact h

theorem Keeps.of_snd {β : Type} {s t : State} {r : β × State} {a : β} (e : r = (a, t)) (h : Keeps s r.2) : Keeps s t := by
  subst e; exact h

theorem Keeps.of_snd2 {β γ : Type} {s t : State} {r : β × γ × State} {a : β} {b : γ} (e : r = (a, b, t))
    (h : Keeps s r.2.2) : Keeps s t := by
  subst e; exact h

theorem Keeps.of_snd3 {β γ δ : Type} {s t : State} {r : β × γ × δ × State} {a : β} {b : γ} {c : δ}
    (e : r = (a, b, c, t)) (h : Keeps s r.2.2.2) : Keeps s t := by
  subst e; exact h

/-- A command's answer is a next state that keeps the same. -/
def KeepsRes (s : State) (r : Res) : Prop := ∃ t, r = .next t ∧ Keeps s t

theorem KeepsRes.next {s t : State} (h : Keeps s t) : KeepsRes s (.next t) := ⟨t, rfl, h⟩

/-- Whatever state an optional answer holds keeps the same. -/
def KeepsOpt {α : Type} (s : State) (f : α → State) (o : Option α) : Prop := ∀ x, o = some x → Keeps s (f x)

theorem KeepsOpt.none {α : Type} {s : State} {f : α → State} : KeepsOpt s f none := fun _ e => nomatch e

theorem KeepsOpt.some {α : Type} {s : State} {f : α → State} {x : α} (h : Keeps s (f x)) : KeepsOpt s f (some x) :=
  fun _ e => Option.some.inj e ▸ h

theorem KeepsOpt.bind {α β : Type} {s : State} {f : α → State} {g : β → State} {o : Option α} {k : α → Option β}
    (h : KeepsOpt s f o) (hk : ∀ x, Keeps s (f x) → KeepsOpt s g (k x)) : KeepsOpt s g (o.bind k) := by
  cases o with
  | none => exact KeepsOpt.none
  | some x => exact hk x (h x rfl)

theorem KeepsOpt.map {α β : Type} {s : State} {f : α → State} {g : β → State} {o : Option α} {k : α → β}
    (h : KeepsOpt s f o) (hk : ∀ x, Keeps s (f x) → Keeps s (g (k x))) : KeepsOpt s g (o.map k) := by
  cases o with
  | none => exact KeepsOpt.none
  | some x => exact KeepsOpt.some (hk x (h x rfl))

theorem KeepsOpt.foldl {α β : Type} {s : State} {f : α → State} {g : Option α → β → Option α} {l : List β} :
    ∀ {u : Option α}, KeepsOpt s f u → (∀ v x, KeepsOpt s f v → KeepsOpt s f (g v x)) → KeepsOpt s f (l.foldl g u) := by
  induction l with
  | nil => intro u h _; exact h
  | cons a t ih => intro u h hf; exact ih (hf _ _ h) hf

theorem KeepsOpt.getD {s d : State} {o : Option State} (h : KeepsOpt s (fun x => x) o) (hd : Keeps s d) :
    Keeps s (o.getD d) := by
  cases o with
  | none => exact hd
  | some x => exact h x rfl

theorem KeepsOpt.get {s t : State} {o : Option State} (e : o = .some t) (h : KeepsOpt s (fun x => x) o) : Keeps s t :=
  h t e

theorem KeepsOpt.snd {α : Type} {s t : State} {o : Option (α × State)} {a : α} (e : o = .some (a, t))
    (h : KeepsOpt s (fun x => x.2) o) : Keeps s t :=
  h (a, t) e

theorem KeepsOpt.snd2 {α β : Type} {s t : State} {o : Option (α × β × State)} {a : α} {b : β} (e : o = .some (a, b, t))
    (h : KeepsOpt s (fun x => x.2.2) o) : Keeps s t :=
  h (a, b, t) e

/-! ## Answers that hold a state -/

/-- The state of an answer. -/
def LineEnd.st : LineEnd → State
  | .ok _ _ s => s
  | .blocked s => s
  | .fault s => s

theorem LineEnd.keeps_ok {s t : State} {l : LineEnd} {d : Line256} {p : Word32} (e : l = .ok d p t)
    (h : Keeps s l.st) : Keeps s t := by subst e; exact h

theorem LineEnd.keeps_blocked {s t : State} {l : LineEnd} (e : l = .blocked t) (h : Keeps s l.st) : Keeps s t := by
  subst e; exact h

theorem LineEnd.keeps_fault {s t : State} {l : LineEnd} (e : l = .fault t) (h : Keeps s l.st) : Keeps s t := by
  subst e; exact h

/-- The state of an answer. -/
def Got.st : Got → State
  | .ok _ _ s => s
  | .fault _ _ s => s
  | .wait s => s

theorem Got.keeps_ok {s t : State} {g : Got} {v : Nat} {b : Bool} (e : g = .ok v b t) (h : Keeps s g.st) :
    Keeps s t := by subst e; exact h

theorem Got.keeps_fault {s t : State} {g : Got} {c : FaultCode} {d : Nat} (e : g = .fault c d t) (h : Keeps s g.st) :
    Keeps s t := by subst e; exact h

theorem Got.keeps_wait {s t : State} {g : Got} (e : g = .wait t) (h : Keeps s g.st) : Keeps s t := by
  subst e; exact h

/-- The state of an answer. -/
def AppendPlan.st : AppendPlan → State
  | .fault _ s => s
  | .poisoned s => s
  | .go _ _ _ s => s

theorem AppendPlan.keeps_fault {s t : State} {p : AppendPlan} {c : FaultCode} (e : p = .fault c t)
    (h : Keeps s p.st) : Keeps s t := by subst e; exact h

theorem AppendPlan.keeps_poisoned {s t : State} {p : AppendPlan} (e : p = .poisoned t) (h : Keeps s p.st) :
    Keeps s t := by subst e; exact h

theorem AppendPlan.keeps_go {s t : State} {p : AppendPlan} {n : Nat} {a b : Bool} (e : p = .go n a b t)
    (h : Keeps s p.st) : Keeps s t := by subst e; exact h

/-- The state of an answer. -/
def WriteStep.st : WriteStep → State
  | .done s => s
  | .write _ _ s => s

theorem WriteStep.keeps_done {s t : State} {w : WriteStep} (e : w = .done t) (h : Keeps s w.st) : Keeps s t := by
  subst e; exact h

theorem WriteStep.keeps_write {s t : State} {w : WriteStep} {x : Written} {o : Nat} (e : w = .write x o t)
    (h : Keeps s w.st) : Keeps s t := by subst e; exact h

/-! ## The operations of Machine/Ops.lean that change registers and memory -/

theorem State.setReg_keeps {z s : State} {r : Reg} {i : Nat} {v : Word} (h : Keeps z s) : Keeps z (s.setReg r i v) :=
  Keeps.updRegs h rfl rfl rfl rfl rfl rfl rfl fun hr => Tbl.risingFrom_put hr (Nat.zero_le _)

theorem State.setRegB_keeps {z s : State} {r : Reg} {bank : Nat} {v : Word} (h : Keeps z s) :
    Keeps z (s.setRegB r bank v) :=
  Keeps.updRegs h rfl rfl rfl rfl rfl rfl rfl fun hr => Tbl.risingFrom_put hr (Nat.zero_le _)

theorem State.resetScopes_keeps {z s : State} {p : Scope → Bool} (h : Keeps z s) : Keeps z (s.resetScopes p) :=
  Keeps.updRegs h rfl rfl rfl rfl rfl rfl rfl fun hr => by
    unfold State.resetScopes
    exact Tbl.risingFrom_filter _ hr

theorem State.wrByte_keeps {z s : State} {a : Nat} {v : Byte} (h : Keeps z s) : Keeps z (s.wrByte a v) :=
  Keeps.also h rfl rfl fun hi => ⟨State.memWf_wrByte hi.1 a v, hi.2⟩

theorem State.wrBytes_keeps {z : State} {l : List Byte} : ∀ {s : State} {a : Nat}, Keeps z s →
    Keeps z (s.wrBytes a l) := by
  induction l with
  | nil => intro s a h; exact h
  | cons v t ih => intro s a h; exact ih (State.wrByte_keeps h)

theorem State.dropRange_keeps {z s : State} {lo n : Nat} (h : Keeps z s) : Keeps z (s.dropRange lo n) :=
  Keeps.also h rfl rfl fun hi => ⟨State.memWf_dropRange hi.1 lo n, hi.2⟩

theorem State.clearOnChip_keeps {z s : State} {lo n : Nat} (h : Keeps z s) : Keeps z (s.clearOnChip lo n) :=
  Keeps.also h rfl rfl fun hi => ⟨State.memWf_dropRange hi.1 lo n, hi.2.1, KSet.risingFrom_filter _ hi.2.2.1,
    hi.2.2.2.1, KSet.risingFrom_filter _ hi.2.2.2.2⟩

theorem State.setPoison_keeps {z s : State} {a : Nat} {b : Bool} (h : Keeps z s) : Keeps z (s.setPoison a b) := by
  unfold State.setPoison
  split
  · exact Keeps.also h rfl rfl fun hi => ⟨hi.1, hi.2.1, hi.2.2.1, KSet.risingFrom_set hi.2.2.2.1, hi.2.2.2.2⟩
  · exact Keeps.also h rfl rfl fun hi => ⟨hi.1, hi.2.1, KSet.risingFrom_set hi.2.2.1, hi.2.2.2⟩

theorem State.setTag_keeps {z s : State} {a : Nat} {b : Bool} (h : Keeps z s) : Keeps z (s.setTag a b) :=
  Keeps.also h rfl rfl fun hi => ⟨hi.1, hi.2.1, hi.2.2.1, hi.2.2.2.1, KSet.risingFrom_set hi.2.2.2.2⟩

theorem State.zeroBlocks_keeps {z s : State} {b n : Nat} (h : Keeps z s) : Keeps z (s.zeroBlocks b n) :=
  Keeps.also h rfl rfl fun hi => ⟨State.memWf_zeroBlocks hi.1 b n, hi.2.1, hi.2.2.1,
    KSet.risingFrom_filter _ hi.2.2.2.1, hi.2.2.2.2⟩

theorem State.rekeyBlocks_keeps {z s : State} {b n : Nat} (h : Keeps z s) : Keeps z (s.rekeyBlocks b n) :=
  Keeps.also h rfl rfl fun hi => ⟨State.memWf_rekeyBlocks hi.1 b n, hi.2.1, hi.2.2.1,
    KSet.risingFrom_filter _ hi.2.2.2.1, hi.2.2.2.2⟩

theorem State.putLog_keeps {z : State} {k : Nat} {l : List Word} : ∀ {s : State} {w : Nat}, Keeps z s →
    Keeps z (s.putLog k w l) := by
  induction l with
  | nil => intro s w h; exact h
  | cons v t ih => intro s w h; exact ih (State.setReg_keeps h)

/-- The card at cold power-on is in canonical form. -/
theorem State.cold_inv {card : Card} {stage : Stage} {link : Link} {ownerKey : Option Nat} {a b : Bool}
    {free draws : Nat} {pending : List Instr} {out : List Out} :
    (State.cold card stage link ownerKey a b free draws pending out).Inv := by
  refine ⟨rfl, ?_, rfl, rfl, rfl⟩
  unfold State.cold
  dsimp only
  cases link.jumper2x8 <;> cases link.partnerMld <;> cases stage.bootB <;> cases ownerKey <;> cases a <;> cases b <;> rfl

/-! ## Tables that a reset or a commit writes whole -/

theorem Tbl.risingFrom_foldl_insert {α β : Type} (key : β → Nat) (val : β → α) (l : List β) :
    ∀ {t : List (Nat × α)}, Tbl.risingFrom 0 t = true →
      Tbl.risingFrom 0 (l.foldl (fun t e => Tbl.insert (key e) (val e) t) t) = true := by
  induction l with
  | nil => intro t h; exact h
  | cons e l ih => intro t h; exact ih (Tbl.risingFrom_insert h (Nat.zero_le _))

theorem Tbl.risingFrom_foldl_put {α β : Type} [DecidableEq α] (d : α) (key : β → Nat) (val : β → α) (l : List β) :
    ∀ {t : List (Nat × α)}, Tbl.risingFrom 0 t = true →
      Tbl.risingFrom 0 (l.foldl (fun t e => Tbl.put d t (key e) (val e)) t) = true := by
  induction l with
  | nil => intro t h; exact h
  | cons e l ih => intro t h; exact ih (Tbl.risingFrom_put h (Nat.zero_le _))

theorem State.reloadStaged_keeps {z s : State} (h : Keeps z s) : Keeps z s.reloadStaged :=
  Keeps.updRegs h rfl rfl rfl rfl rfl rfl rfl fun hr =>
    Tbl.risingFrom_foldl_insert (fun (e : Nat × Word) => e.1 - 0x1000) Prod.snd _ (Tbl.risingFrom_keep _ hr)

theorem State.clearWhere_keeps {z s : State} {base n : Nat} {p : Nat → Bool} (h : Keeps z s) :
    Keeps z (s.clearWhere base n p) := by
  refine Keeps.also h rfl rfl fun hi => ⟨?_, hi.2.1, KSet.risingFrom_filter _ hi.2.2.1, hi.2.2.2.1,
    KSet.risingFrom_filter _ hi.2.2.2.2⟩
  unfold State.memWf State.clearWhere
  dsimp only
  refine Tbl.wf_keep hi.1 ?_
  intro k _
  rfl

theorem State.bridleCntAct_keeps {z s : State} {w : Written} (h : Keeps z s) : Keeps z (s.bridleCntAct w) := by
  unfold State.bridleCntAct
  split
  · exact Keeps.updRegs h rfl rfl rfl rfl rfl rfl rfl fun hr => Tbl.risingFrom_filter _ hr
  · exact h

end Sys2Proof.Machine
end

