-- ==== Sys2Proof/Laws/KeepsOps.lean ====
section
/-! SUPPORT. What each operation of Machine/Ops.lean keeps (Laws/Keeps.lean): one lemma per operation that answers a
state. -/

namespace Sys2Proof.Machine

open Sys2Proof

theorem State.emit_keeps {z s : State} {o : Out} (h_1 : Keeps z s) :
    Keeps z (s.emit o) := by
  unfold State.emit
  refine Keeps.upd (u := s) ?_ rfl rfl rfl rfl rfl rfl rfl rfl
  exact h_1

theorem State.msix_keeps {z s : State} {req vec : Nat} (h_1 : Keeps z s) :
    Keeps z (s.msix req vec) := by
  unfold State.msix
  split
  · exact State.emit_keeps h_1
  · exact h_1

theorem State.wrNat_keeps {z s : State} {a n v : Nat} (h_1 : Keeps z s) :
    Keeps z (s.wrNat a n v) := by
  unfold State.wrNat
  exact State.wrBytes_keeps h_1

theorem State.wrLine_keeps {z s : State} {a : Nat} {d : Line256} {p : Word32} (h_1 : Keeps z s) :
    Keeps z (s.wrLine a d p) := by
  unfold State.wrLine
  extract_lets x1
  have hx1 : Keeps z x1 := by
    unfold x1
    exact State.wrNat_keeps h_1
  clear_value x1
  split
  · refine Keeps.foldl ?_ ?_
    · exact hx1
    · intro v2 v3 h4
      exact State.setPoison_keeps h4
  · refine Keeps.foldl ?_ ?_
    · exact hx1
    · intro v5 v6 h7
      exact State.setPoison_keeps h7

theorem State.setMbox_keeps {z s : State} {req : Nat} {m : Mailbox} (h_1 : Keeps z s) :
    Keeps z (s.setMbox req m) := by
  unfold State.setMbox
  refine Keeps.upd (u := s) ?_ rfl rfl rfl rfl rfl rfl rfl rfl
  exact h_1

theorem State.postEvent_keeps {z s : State} {log : Nat} {rec : EventRec} {a3 : List Nat} (h_1 : Keeps z s) :
    Keeps z (s.postEvent log rec a3) := by
  induction a3 generalizing s log rec with
  | nil =>
    unfold State.postEvent
    exact h_1
  | cons w1 w2 ih =>
    unfold State.postEvent
    extract_lets x1 x2 x3
    clear_value x1
    clear_value x2
    clear_value x3
    exact ih (State.emit_keeps (State.setMbox_keeps h_1))

theorem State.moduleEvent_keeps {z s : State} {log about : Nat} (h_1 : Keeps z s) :
    Keeps z (s.moduleEvent log about) := by
  unfold State.moduleEvent
  exact State.postEvent_keeps h_1

theorem State.setF_keeps {z s : State} {r : Reg} {i lo n v : Nat} (h_1 : Keeps z s) :
    Keeps z (s.setF r i lo n v) := by
  unfold State.setF
  exact State.setReg_keeps h_1

theorem State.addF_keeps {z s : State} {r : Reg} {i lo n v : Nat} (h_1 : Keeps z s) :
    Keeps z (s.addF r i lo n v) := by
  unfold State.addF
  exact State.setF_keeps h_1

theorem State.countClass_keeps {z s : State} {c : FaultClass} (h_1 : Keeps z s) :
    Keeps z (s.countClass c) := by
  unfold State.countClass
  exact State.addF_keeps h_1

theorem State.addLogCount_keeps {z s : State} {k n : Nat} (h_1 : Keeps z s) :
    Keeps z (s.addLogCount k n) := by
  unfold State.addLogCount
  exact State.addF_keeps h_1

theorem State.newEntry_keeps {z s : State} {e : Entry} (h_1 : Keeps z s) :
    Keeps z (s.newEntry e) := by
  unfold State.newEntry
  extract_lets x1 x2 x3 x4 x5 x6 x7
  clear_value x1
  clear_value x2
  have hx3 : Keeps z x3 := by
    unfold x3
    split
    · exact State.addF_keeps h_1
    · exact h_1
  clear_value x3
  have hx4 : Keeps z x4 := by
    unfold x4
    exact State.putLog_keeps hx3
  clear_value x4
  have hx5 : Keeps z x5 := by
    unfold x5
    exact State.setF_keeps hx4
  clear_value x5
  clear_value x6
  have hx7 : Keeps z x7 := by
    unfold x7
    refine Keeps.upd (u := x5) ?_ rfl rfl rfl rfl rfl rfl rfl rfl
    exact hx5
  clear_value x7
  split
  · exact State.msix_keeps hx7
  · exact hx7

theorem State.logFault_keeps {z s : State} {e : Entry} (h_1 : Keeps z s) :
    Keeps z (s.logFault e) := by
  unfold State.logFault
  extract_lets x1
  have hx1 : Keeps z x1 := by
    unfold x1
    exact State.countClass_keeps h_1
  clear_value x1
  split
  · split
    · exact State.addLogCount_keeps hx1
    · exact State.newEntry_keeps hx1
  · exact State.newEntry_keeps hx1

theorem State.perf_keeps {z s : State} {core event n : Nat} (h_1 : Keeps z s) :
    Keeps z (s.perf core event n) := by
  unfold State.perf
  refine Keeps.foldl ?_ ?_
  · exact h_1
  · intro v1 v2 h3
    split
    · exact State.addF_keeps h3
    · exact h3

theorem State.advise_keeps {z s : State} {code : FaultCode} {unit detail addr : Nat} (h_1 : Keeps z s) :
    Keeps z (s.advise code unit detail addr) := by
  unfold State.advise
  exact State.logFault_keeps h_1

theorem State.refuseAccess_keeps {z s : State} {agent off : Nat} {bar2 write : Bool} (h_1 : Keeps z s) :
    Keeps z (s.refuseAccess agent off bar2 write) := by
  unfold State.refuseAccess
  extract_lets x1
  clear_value x1
  exact State.advise_keeps h_1

theorem State.choose_keeps {z s : State} (h_1 : Keeps z s) :
    Keeps z s.choose.2 := by
  unfold State.choose
  dsimp only
  refine Keeps.upd (u := s) ?_ rfl rfl rfl rfl rfl rfl rfl rfl
  exact h_1

theorem State.draw_keeps {z s : State} (h_1 : Keeps z s) :
    Keeps z s.draw.2 := by
  unfold State.draw
  dsimp only
  refine Keeps.upd (u := s) ?_ rfl rfl rfl rfl rfl rfl rfl rfl
  exact h_1

theorem State.maxF_keeps {z s : State} {r : Reg} {i lo n v : Nat} (h_1 : Keeps z s) :
    Keeps z (s.maxF r i lo n v) := by
  unfold State.maxF
  exact State.setF_keeps h_1

end Sys2Proof.Machine
end

