-- ==== Sys2Proof/Laws/KeepsStall.lean ====
section
/-! SUPPORT. What each operation of Machine/Stall.lean keeps (Laws/Keeps.lean): one lemma per operation that answers a
state. -/

namespace Sys2Proof.Machine

open Sys2Proof

theorem State.trace_keeps {z s : State} {st event core sub task arg : Nat} (h_1 : Keeps z s) :
    Keeps z (s.trace st event core sub task arg) := by
  unfold State.trace
  split
  · exact h_1
  · extract_lets x1 x2
    clear_value x1
    clear_value x2
    split
    · exact State.addF_keeps h_1
    · split
      · exact State.setF_keeps (State.wrBytes_keeps h_1)
      · exact h_1

theorem State.traceTask_keeps {z s : State} {event core sub : Nat} {t : Task} {arg : Nat} (h_1 : Keeps z s) :
    Keeps z (s.traceTask event core sub t arg) := by
  unfold State.traceTask
  exact State.trace_keeps h_1

end Sys2Proof.Machine
end

