-- ==== Sys2Proof/Laws/KeepsContexts.lean ====
section
/-! SUPPORT. What each operation of Machine/Contexts.lean keeps (Laws/Keeps.lean): one lemma per operation that answers a
state. -/

namespace Sys2Proof.Machine

open Sys2Proof

theorem State.updTask_keeps {z s : State} {id : Nat} {f : Task → Task} (h_1 : Keeps z s) :
    Keeps z (s.updTask id f) := by
  unfold State.updTask
  refine Keeps.upd (u := s) ?_ rfl rfl rfl rfl rfl rfl rfl rfl
  exact h_1

theorem State.inHitchSet_keeps {z s : State} {id : Option Nat} {h : Nat} (h_1 : Keeps z s) :
    Keeps z (s.inHitchSet id h) := by
  unfold State.inHitchSet
  split
  · exact State.updTask_keeps h_1
  · exact h_1

theorem State.setCore_keeps {z s : State} {c : Nat} {k : ShuzoCore} (h_1 : Keeps z s) :
    Keeps z (s.setCore c k) := by
  unfold State.setCore
  refine Keeps.upd (u := s) ?_ rfl rfl rfl rfl rfl rfl rfl rfl
  exact h_1

theorem State.updCore_keeps {z s : State} {c : Nat} {f : ShuzoCore → ShuzoCore} (h_1 : Keeps z s) :
    Keeps z (s.updCore c f) := by
  unfold State.updCore
  exact State.setCore_keeps h_1

theorem State.setCtx_keeps {z s : State} {c x : Nat} {k : Ctx} (h_1 : Keeps z s) :
    Keeps z (s.setCtx c x k) := by
  unfold State.setCtx
  exact State.setCore_keeps h_1

theorem State.updCtx_keeps {z s : State} {c x : Nat} {f : Ctx → Ctx} (h_1 : Keeps z s) :
    Keeps z (s.updCtx c x f) := by
  unfold State.updCtx
  exact State.setCtx_keeps h_1

theorem State.notBefore_keeps {z s : State} {t : Nat} (h_1 : Keeps z s) :
    Keeps z (s.notBefore t) := by
  unfold State.notBefore
  refine Keeps.upd (u := s) ?_ rfl rfl rfl rfl rfl rfl rfl rfl
  exact h_1

theorem State.taskFault_keeps {z s : State} {id : Nat} {code : FaultCode} {unit core : Nat} {ctx : Option Nat}
    {pc : Nat} {insn : Word} {addr detail : Nat} (h_1 : Keeps z s) :
    Keeps z (s.taskFault id code unit core ctx pc insn addr detail) := by
  unfold State.taskFault
  split
  · exact h_1
  · split
    · extract_lets x1 x2 x3
      clear_value x1
      have hx2 : Keeps z x2 := by
        unfold x2
        exact State.logFault_keeps h_1
      clear_value x2
      have hx3 : Keeps z x3 := by
        unfold x3
        exact State.traceTask_keeps hx2
      clear_value x3
      exact State.updTask_keeps hx3
    · split
      · extract_lets x4
        have hx4 : Keeps z x4 := by
          unfold x4
          exact State.countClass_keeps h_1
        clear_value x4
        split
        · exact State.addLogCount_keeps hx4
        · exact hx4
      · exact h_1

end Sys2Proof.Machine
end

