-- ==== Sys2Proof/Laws/KeepsReinLink.lean ====
section
/-! SUPPORT. What each operation of Machine/ReinLink.lean keeps (Laws/Keeps.lean): one lemma per operation that answers a
state. -/

namespace Sys2Proof.Machine

open Sys2Proof

theorem State.setPort_keeps {z s : State} {p : Nat} {q : ReinPort} (h_1 : Keeps z s) :
    Keeps z (s.setPort p q) := by
  unfold State.setPort
  refine Keeps.upd (u := s) ?_ rfl rfl rfl rfl rfl rfl rfl rfl
  exact h_1

theorem State.sendData_keeps {z s : State} {p fseq : Nat} {body : List Nat} (h_1 : Keeps z s) :
    Keeps z (s.sendData p fseq body) := by
  unfold State.sendData
  exact State.emit_keeps h_1

theorem State.updPort_keeps {z s : State} {p : Nat} {f : ReinPort → ReinPort} (h_1 : Keeps z s) :
    Keeps z (s.updPort p f) := by
  unfold State.updPort
  exact State.setPort_keeps h_1

theorem State.freeSlots_keeps {z s : State} {p vc n : Nat} (h_1 : Keeps z s) :
    Keeps z (s.freeSlots p vc n) := by
  unfold State.freeSlots
  exact State.updPort_keeps h_1

theorem State.transmit_keeps {z s : State} {p : Nat} {k : Packet} (h_1 : Keeps z s) :
    Keeps z (s.transmit p k) := by
  unfold State.transmit
  extract_lets x1 x2 x3
  clear_value x1
  have hx2 : Keeps z x2 := by
    unfold x2
    refine Keeps.foldl ?_ ?_
    · exact h_1
    · intro v4 v5 h6
      extract_lets x7
      clear_value x7
      exact State.setPort_keeps (State.sendData_keeps h6)
  clear_value x2
  have hx3 : Keeps z x3 := by
    unfold x3
    exact State.updPort_keeps hx2
  clear_value x3
  split
  · exact State.freeSlots_keeps hx3
  · exact hx3

theorem State.pumpN_keeps {z s : State} {p a2 : Nat} (h_1 : Keeps z s) :
    Keeps z (s.pumpN p a2) := by
  induction a2 generalizing s p with
  | zero =>
    unfold State.pumpN
    exact h_1
  | succ w2 ih =>
    unfold State.pumpN
    split
    · exact h_1
    · split
      · exact h_1
      · exact ih (State.transmit_keeps (State.updPort_keeps h_1))

theorem State.pump_keeps {z s : State} {p : Nat} (h_1 : Keeps z s) :
    Keeps z (s.pump p) := by
  unfold State.pump
  exact State.pumpN_keeps h_1

theorem State.sendVia_keeps {z s : State} {p : Nat} {k : Packet} (h_1 : Keeps z s) :
    Keeps z (s.sendVia p k) := by
  unfold State.sendVia
  extract_lets x1
  clear_value x1
  exact State.pump_keeps (State.updPort_keeps h_1)

theorem State.sendPacket_keeps {z s : State} {w0 w1 : Word} {slots : List (Slot × Bool)} (h_1 : Keeps z s) :
    Keeps z (s.sendPacket w0 w1 slots) := by
  unfold State.sendPacket
  split
  · exact State.sendVia_keeps h_1
  · exact h_1

theorem State.notedRemote_keeps {z s : State} {id core chip : Nat} (h_1 : Keeps z s) :
    Keeps z (s.notedRemote id core chip) := by
  unfold State.notedRemote
  exact State.updTask_keeps h_1

theorem State.setTagged_keeps {z s : State} {l : List Tagged} (h_1 : Keeps z s) :
    Keeps z (s.setTagged l) := by
  unfold State.setTagged
  refine Keeps.upd (u := s) ?_ rfl rfl rfl rfl rfl rfl rfl rfl
  exact h_1

theorem State.sendOther_keeps {z s : State} {p kind : Nat} {msg : List Nat} (h_1 : Keeps z s) :
    Keeps z (s.sendOther p kind msg) := by
  unfold State.sendOther
  exact State.emit_keeps h_1

theorem State.sendTagged_keeps {z s : State} {unit chip : Nat} {task : Option Nat} {what : RFor} {w0 w1 : Word}
    {slots : List (Slot × Bool)} (h_1 : Keeps z s) :
    Keeps z (s.sendTagged unit chip task what w0 w1 slots) := by
  unfold State.sendTagged
  split
  · extract_lets x1 x2
    clear_value x1
    clear_value x2
    exact State.sendPacket_keeps (State.setTagged_keeps h_1)
  · exact h_1

end Sys2Proof.Machine
end

