-- ==== Sys2Proof/Laws/KeepsRings.lean ====
section
/-! SUPPORT. What each operation of Machine/Rings.lean keeps (Laws/Keeps.lean): one lemma per operation that answers a
state. -/

namespace Sys2Proof.Machine

open Sys2Proof

theorem State.setRing_keeps {z s : State} {i : Nat} {r : Ring} (h_1 : Keeps z s) :
    Keeps z (s.setRing i r) := by
  unfold State.setRing
  refine Keeps.upd (u := s) ?_ rfl rfl rfl rfl rfl rfl rfl rfl
  exact h_1

theorem State.grantCredits_keeps {z s : State} {i n : Nat} {task : Option Nat} {src : Nat} (h_1 : Keeps z s) :
    Keeps z (s.grantCredits i n task src) := by
  unfold State.grantCredits
  extract_lets x1 x2 x3 x4
  clear_value x1
  clear_value x2
  have hx3 : Keeps z x3 := by
    unfold x3
    exact State.setRing_keeps h_1
  clear_value x3
  have hx4 : Keeps z x4 := by
    unfold x4
    exact State.setF_keeps hx3
  clear_value x4
  exact State.maxF_keeps hx4

theorem State.wackFill_keeps {z s : State} {remote : Option (Nat × Word)} {status : Nat} (h_1 : Keeps z s) :
    Keeps z (s.wackFill remote status) := by
  unfold State.wackFill
  split
  · exact State.sendPacket_keeps (State.freeSlots_keeps h_1)
  · exact h_1

theorem State.wrWords_keeps {z s : State} {key : Nat} {d : Line256} {pois words : Word32} (h_1 : Keeps z s) :
    Keeps z (s.wrWords key d pois words) := by
  unfold State.wrWords
  refine Keeps.foldl ?_ ?_
  · exact h_1
  · intro v1 v2 h3
    split
    · exact State.setPoison_keeps (State.wrNat_keeps h3)
    · exact h3

theorem State.spendCredit_keeps {z s : State} {i k : Nat} (h_1 : Keeps z s) :
    Keeps z (s.spendCredit i k) := by
  unfold State.spendCredit
  extract_lets x1
  clear_value x1
  exact State.setRing_keeps h_1

theorem State.inject_keeps {z s : State} {core : Nat} {r : Inbound} (h_1 : Keeps z s) :
    Keeps z (s.inject core r) := by
  unfold State.inject
  exact State.updCore_keeps h_1

theorem State.advanceHead_keeps {z s : State} {i : Nat} (h_1 : Keeps z s) :
    Keeps z (s.advanceHead i) := by
  unfold State.advanceHead
  exact State.setF_keeps h_1

end Sys2Proof.Machine
end

