-- ==== Sys2Proof/Laws/KeepsIssueOps.lean ====
section
/-! SUPPORT. What each operation of Machine/IssueOps.lean keeps (Laws/Keeps.lean): one lemma per operation that answers a
state. -/

namespace Sys2Proof.Machine

open Sys2Proof

theorem X.fault_keeps {z : State} {x : X} {s : State} {code : FaultCode} {addr detail : Nat} (h_1 : Keeps z s) :
    Keeps z (x.fault s code addr detail) := by
  unfold X.fault
  exact State.taskFault_keeps h_1

theorem State.tookIssue_keeps {z s : State} {c x : Nat} (h_1 : Keeps z s) :
    Keeps z (s.tookIssue c x) := by
  unfold State.tookIssue
  extract_lets x1 x2
  clear_value x1
  have hx2 : Keeps z x2 := by
    unfold x2
    refine Keeps.upd (u := s) ?_ rfl rfl rfl rfl rfl rfl rfl rfl
    exact h_1
  clear_value x2
  exact State.perf_keeps (State.updCore_keeps hx2)

theorem X.next_keeps {z : State} {x : X} {s : State} {f : Ctx → Ctx} (h_1 : Keeps z s) :
    Keeps z (x.next s f) := by
  unfold X.next
  exact State.updCtx_keeps h_1

theorem issueOf_keeps {z : State} {i : Issue} {o : Op} {run : X → State → State} {s : State} (h_1 : ∀ (x : X)
    (x_1 : State), Keeps z x_1 → Keeps z (run x x_1)) (h_2 : Keeps z s) :
    Keeps z (issueOf i o run s) := by
  unfold issueOf
  split
  · exact h_2
  · extract_lets x1 x2 x3 x4 x5
    clear_value x1
    clear_value x2
    clear_value x3
    clear_value x4
    clear_value x5
    split
    · exact h_2
    · split
      · exact X.fault_keeps (State.tookIssue_keeps h_2)
      · split
        · exact h_2
        · split
          · exact X.fault_keeps (State.tookIssue_keeps h_2)
          · split
            · exact h_2
            · split
              · exact X.next_keeps (State.tookIssue_keeps h_2)
              · apply h_1
                exact State.tookIssue_keeps h_2

theorem X.ret_keeps {z : State} {x : X} {s : State} {v : Word} {poison : Bool} (h_1 : Keeps z s) :
    Keeps z (x.ret s v poison) := by
  unfold X.ret
  exact X.next_keeps h_1

theorem alu_keeps {z : State} {i : Issue} {o : Op} {f : Word → Word → Word} {s : State} (h_1 : Keeps z s) :
    Keeps z (alu i o f s) := by
  unfold alu
  apply issueOf_keeps
  · intro v1 v2 h3
    exact X.ret_keeps h3
  · exact h_1

theorem aluImm_keeps {z : State} {i : Issue} {o : Op} {f : Word → Word → Word} {s : State} (h_1 : Keeps z s) :
    Keeps z (aluImm i o f s) := by
  unfold aluImm
  apply issueOf_keeps
  · intro v1 v2 h3
    exact X.ret_keeps h3
  · exact h_1

theorem X.wait_keeps {z : State} {x : X} {s : State} {w : Wait} (h_1 : Keeps z s) :
    Keeps z (x.wait s w) := by
  unfold X.wait
  extract_lets x1
  have hx1 : Keeps z x1 := by
    unfold x1
    split
    · split
      · exact State.perf_keeps h_1
      · exact h_1
    · exact h_1
  clear_value x1
  exact State.updCtx_keeps hx1

end Sys2Proof.Machine
end

