-- ==== Sys2Proof/Laws/KeepsScalarControl.lean ====
section
/-! SUPPORT. What each operation of Machine/ScalarControl.lean keeps (Laws/Keeps.lean): one lemma per operation that answers a
state. -/

namespace Sys2Proof.Machine

open Sys2Proof

theorem X.jump_keeps {z : State} {x : X} {s : State} {pc : Nat} {f : Ctx → Ctx} (h_1 : Keeps z s) :
    Keeps z (x.jump s pc f) := by
  unfold X.jump
  exact State.updCtx_keeps h_1

theorem X.jumpReg_keeps {z : State} {x : X} {s : State} {f : Ctx → Ctx} (h_1 : Keeps z s) :
    Keeps z (x.jumpReg s f) := by
  unfold X.jumpReg
  split
  · exact X.fault_keeps h_1
  · split
    · exact X.fault_keeps h_1
    · exact X.jump_keeps h_1

theorem execJr_keeps {z : State} {i : Issue} {s : State} (h_1 : Keeps z s) :
    KeepsRes z (execJr i s) := by
  unfold execJr
  refine KeepsRes.next ?_
  apply issueOf_keeps
  · intro v1 v2 h3
    exact X.jumpReg_keeps h3
  · exact h_1

theorem execVput_keeps {z : State} {i : Issue} {s : State} (h_1 : Keeps z s) :
    KeepsRes z (execVput i s) := by
  unfold execVput
  refine KeepsRes.next ?_
  apply issueOf_keeps
  · intro v1 v2 h3
    extract_lets x4 x5
    clear_value x4
    clear_value x5
    split
    · exact h_1
    · exact X.next_keeps h3
  · exact h_1

theorem execCtxend_keeps {z : State} {i : Issue} {s : State} (h_1 : Keeps z s) :
    KeepsRes z (execCtxend i s) := by
  unfold execCtxend
  refine KeepsRes.next ?_
  apply issueOf_keeps
  · intro v1 v2 h3
    exact X.next_keeps h3
  · exact h_1

theorem execYield_keeps {z : State} {i : Issue} {s : State} (h_1 : Keeps z s) :
    KeepsRes z (execYield i s) := by
  unfold execYield
  refine KeepsRes.next ?_
  apply issueOf_keeps
  · intro v1 v2 h3
    extract_lets x4
    clear_value x4
    split
    · exact X.fault_keeps h3
    · split
      · exact X.next_keeps h3
      · exact X.next_keeps h3
  · exact h_1

theorem X.compare_keeps {z : State} {x : X} {s : State} {poison c : Bool} (h_1 : Keeps z s) :
    Keeps z (x.compare s poison c) := by
  unfold X.compare
  split
  · exact X.fault_keeps h_1
  · extract_lets x1
    clear_value x1
    exact X.next_keeps h_1

theorem execCmpi_keeps {z : State} {i : Issue} {s : State} (h_1 : Keeps z s) :
    KeepsRes z (execCmpi i s) := by
  unfold execCmpi
  refine KeepsRes.next ?_
  apply issueOf_keeps
  · intro v1 v2 h3
    exact X.compare_keeps h3
  · exact h_1

theorem execCrr_keeps {z : State} {i : Issue} {s : State} (h_1 : Keeps z s) :
    KeepsRes z (execCrr i s) := by
  unfold execCrr
  refine KeepsRes.next ?_
  apply issueOf_keeps
  · intro v1 v2 h3
    exact X.ret_keeps h3
  · exact h_1

theorem State.complete_keeps {z s : State} {core ctx : Nat} {rd : Option Nat} {v : Word} {poison : Bool}
    (h_1 : Keeps z s) :
    Keeps z (s.complete core ctx rd v poison) := by
  unfold State.complete
  exact State.updCtx_keeps h_1

theorem execBr_keeps {z : State} {i : Issue} {s : State} (h_1 : Keeps z s) :
    KeepsRes z (execBr i s) := by
  unfold execBr
  refine KeepsRes.next ?_
  apply issueOf_keeps
  · intro v1 v2 h3
    exact X.jump_keeps h3
  · exact h_1

theorem execVget_keeps {z : State} {i : Issue} {s : State} (h_1 : Keeps z s) :
    KeepsRes z (execVget i s) := by
  unfold execVget
  refine KeepsRes.next ?_
  apply issueOf_keeps
  · intro v1 v2 h3
    extract_lets x4 x5
    clear_value x4
    clear_value x5
    split
    · exact h_1
    · exact X.ret_keeps h3
  · exact h_1

theorem execVpmask_keeps {z : State} {i : Issue} {s : State} (h_1 : Keeps z s) :
    KeepsRes z (execVpmask i s) := by
  unfold execVpmask
  refine KeepsRes.next ?_
  apply issueOf_keeps
  · intro v1 v2 h3
    extract_lets x4
    clear_value x4
    split
    · exact h_1
    · exact X.ret_keeps h3
  · exact h_1

theorem execJalr_keeps {z : State} {i : Issue} {s : State} (h_1 : Keeps z s) :
    KeepsRes z (execJalr i s) := by
  unfold execJalr
  refine KeepsRes.next ?_
  apply issueOf_keeps
  · intro v1 v2 h3
    exact X.jumpReg_keeps h3
  · exact h_1

theorem execDrain_keeps {z : State} {i : Issue} {s : State} (h_1 : Keeps z s) :
    KeepsRes z (execDrain i s) := by
  unfold execDrain
  refine KeepsRes.next ?_
  apply issueOf_keeps
  · intro v1 v2 h3
    extract_lets x4
    clear_value x4
    split
    · exact X.next_keeps h3
    · exact X.wait_keeps h3
  · exact h_1

theorem execPtst_keeps {z : State} {i : Issue} {s : State} (h_1 : Keeps z s) :
    KeepsRes z (execPtst i s) := by
  unfold execPtst
  refine KeepsRes.next ?_
  apply issueOf_keeps
  · intro v1 v2 h3
    exact X.next_keeps h3
  · exact h_1

theorem execCtxgo_keeps {z : State} {i : Issue} {s : State} (h_1 : Keeps z s) :
    KeepsRes z (execCtxgo i s) := by
  unfold execCtxgo
  refine KeepsRes.next ?_
  apply issueOf_keeps
  · intro v1 v2 h3
    extract_lets x4 x5 x6 x7
    clear_value x4
    clear_value x5
    clear_value x6
    clear_value x7
    split
    · exact X.fault_keeps h3
    · split
      · exact X.fault_keeps h3
      · split
        · exact X.fault_keeps h3
        · exact X.next_keeps (State.setCtx_keeps h3)
  · exact h_1

theorem execPrd_keeps {z : State} {i : Issue} {s : State} (h_1 : Keeps z s) :
    KeepsRes z (execPrd i s) := by
  unfold execPrd
  refine KeepsRes.next ?_
  apply issueOf_keeps
  · intro v1 v2 h3
    exact X.next_keeps h3
  · exact h_1

theorem execPlog_keeps {z : State} {i : Issue} {s : State} (h_1 : Keeps z s) :
    KeepsRes z (execPlog i s) := by
  unfold execPlog
  refine KeepsRes.next ?_
  apply issueOf_keeps
  · intro v1 v2 h3
    exact X.next_keeps h3
  · exact h_1

theorem execPwr_keeps {z : State} {i : Issue} {s : State} (h_1 : Keeps z s) :
    KeepsRes z (execPwr i s) := by
  unfold execPwr
  refine KeepsRes.next ?_
  apply issueOf_keeps
  · intro v1 v2 h3
    split
    · exact X.fault_keeps h3
    · exact X.next_keeps h3
  · exact h_1

theorem execBal_keeps {z : State} {i : Issue} {s : State} (h_1 : Keeps z s) :
    KeepsRes z (execBal i s) := by
  unfold execBal
  refine KeepsRes.next ?_
  apply issueOf_keeps
  · intro v1 v2 h3
    exact X.jump_keeps h3
  · exact h_1

theorem execContextWake_keeps {z : State} {core ctx : Nat} {data : Word} {poison : Bool} {s : State}
    (h_1 : Keeps z s) :
    KeepsRes z (execContextWake core ctx data poison s) := by
  unfold execContextWake
  extract_lets x1 x2
  clear_value x1
  clear_value x2
  refine KeepsRes.next ?_
  split
  · exact h_1
  · split
    · exact State.complete_keeps h_1
    · exact State.complete_keeps h_1
    · exact State.complete_keeps h_1
    · exact State.complete_keeps h_1
    · exact State.complete_keeps h_1
    · split
      · exact State.complete_keeps h_1
      · exact h_1
    · split
      · exact State.complete_keeps h_1
      · exact h_1
    · exact h_1

theorem execCmdmaTakeEffect_keeps {z : State} {core : Nat} {s : State} (h_1 : Keeps z s) :
    KeepsRes z (execCmdmaTakeEffect core s) := by
  unfold execCmdmaTakeEffect
  refine KeepsRes.next ?_
  split
  · extract_lets x1
    have hx1 : Keeps z x1 := by
      unfold x1
      exact State.setF_keeps (State.setF_keeps h_1)
    clear_value x1
    exact State.updCore_keeps hx1
  · exact h_1

theorem execCrw_keeps {z : State} {i : Issue} {s : State} (h_1 : Keeps z s) :
    KeepsRes z (execCrw i s) := by
  unfold execCrw
  refine KeepsRes.next ?_
  apply issueOf_keeps
  · intro v1 v2 h3
    extract_lets x4
    clear_value x4
    split
    · exact X.fault_keeps h3
    · split
      · exact X.fault_keeps h3
      · split
        · exact X.next_keeps h3
        · exact X.next_keeps h3
        · exact X.next_keeps h3
        · exact X.next_keeps (State.updCore_keeps h3)
  · exact h_1

theorem execCmp_keeps {z : State} {i : Issue} {s : State} (h_1 : Keeps z s) :
    KeepsRes z (execCmp i s) := by
  unfold execCmp
  refine KeepsRes.next ?_
  apply issueOf_keeps
  · intro v1 v2 h3
    exact X.compare_keeps h3
  · exact h_1

theorem execAbort_keeps {z : State} {i : Issue} {s : State} (h_1 : Keeps z s) :
    KeepsRes z (execAbort i s) := by
  unfold execAbort
  refine KeepsRes.next ?_
  apply issueOf_keeps
  · intro v1 v2 h3
    exact X.fault_keeps h3
  · exact h_1

end Sys2Proof.Machine
end

