-- ==== Sys2Proof/Laws/KeepsCoreMem.lean ====
section
/-! SUPPORT. What each operation of Machine/CoreMem.lean keeps (Laws/Keeps.lean): one lemma per operation that answers a
state. -/

namespace Sys2Proof.Machine

open Sys2Proof

theorem State.fxAdd_keeps {z s : State} {key : Nat} {m : Nat × Bool} {poison : Bool} (h_1 : Keeps z s) :
    Keeps z (s.fxAdd key m poison) := by
  unfold State.fxAdd
  extract_lets x1 x2 x3 x4 x5
  clear_value x1
  clear_value x2
  clear_value x3
  have hx4 : Keeps z x4 := by
    unfold x4
    exact State.wrNat_keeps h_1
  clear_value x4
  clear_value x5
  split
  · exact State.setPoison_keeps (State.setPoison_keeps hx4)
  · split
    · exact State.wrNat_keeps hx4
    · exact State.wrNat_keeps hx4

theorem State.putTag_keeps {z s : State} {key : Nat} {full : Bool} (h_1 : Keeps z s) :
    Keeps z (s.putTag key full) := by
  unfold State.putTag
  split
  · exact h_1
  · extract_lets x1 x2 x3 x4 x5 x6
    have hx1 : Keeps z x1 := by
      unfold x1
      exact State.setTag_keeps h_1
    clear_value x1
    clear_value x2
    clear_value x3
    clear_value x4
    clear_value x5
    clear_value x6
    split
    · refine Keeps.upd (u := x1) ?_ rfl rfl rfl rfl rfl rfl rfl rfl
      exact hx1
    · exact hx1

theorem State.cmTouch_keeps {z s : State} {core port a : Nat} {write meet : Bool} {ctx pc : Nat} {insn : Word}
    (h_1 : Keeps z s) :
    Keeps z (s.cmTouch core port a write meet ctx pc insn).2 := by
  unfold State.cmTouch
  extract_lets x1 x2 x3 x4 x5 x6 x7
  clear_value x1
  have hx2 : Keeps z x2 := by
    unfold x2
    split
    · exact State.perf_keeps h_1
    · exact h_1
  clear_value x2
  clear_value x3
  clear_value x4
  clear_value x5
  have hx6 : Keeps z x6 := by
    unfold x6
    exact State.setCore_keeps hx2
  clear_value x6
  have hx7 : Keeps z x7 := by
    unfold x7
    exact State.perf_keeps (State.addF_keeps hx6)
  clear_value x7
  split
  · exact h_1
  · split
    · dsimp only
      exact State.setCore_keeps hx2
    · split
      · dsimp only
        exact State.setCore_keeps hx2
      · extract_lets x8 x9 x10
        clear_value x8
        have hx9 : Keeps z x9 := by
          unfold x9
          split
          · exact hx7
          · exact State.setReg_keeps (State.setReg_keeps hx7)
        clear_value x9
        have hx10 : Keeps z x10 := by
          unfold x10
          split
          · exact State.taskFault_keeps hx9
          · exact hx9
        clear_value x10
        split
        · dsimp only
          exact State.setF_keeps hx6
        · exact hx10

theorem State.narrowWrite_keeps {z s : State} {key n : Nat} {v : Word} {poison : Bool} (h_1 : Keeps z s) :
    Keeps z (s.narrowWrite key n v poison) := by
  unfold State.narrowWrite
  extract_lets x1
  have hx1 : Keeps z x1 := by
    unfold x1
    exact State.wrNat_keeps h_1
  clear_value x1
  split
  · exact State.setPoison_keeps hx1
  · split
    · exact State.setPoison_keeps hx1
    · exact hx1

theorem State.atomic_keeps {z s : State} {key : Nat} {k : Atom} {v : Word} {poison : Bool} {scale : Nat}
    (h_1 : Keeps z s) :
    Keeps z (s.atomic key k v poison scale).2.2 := by
  unfold State.atomic
  extract_lets x1 x2 x3
  clear_value x1
  clear_value x2
  have hx3 : ∀ (w : Nat) (ret : Word), Keeps z (x3 w ret).2.2 := by
    intro v4 v5
    unfold x3
    extract_lets x6
    have hx6 : Keeps z x6 := by
      unfold x6
      exact State.wrNat_keeps h_1
    clear_value x6
    dsimp only
    split
    · exact State.setPoison_keeps hx6
    · exact hx6
  clear_value x3
  split
  · apply hx3
  · apply hx3
  · apply hx3
  · apply hx3
  · apply hx3
  · dsimp only
    exact State.fxAdd_keeps h_1
  · dsimp only
    exact State.fxAdd_keeps h_1

end Sys2Proof.Machine
end

