-- ==== Sys2Proof/Laws/KeepsPaddock.lean ====
section
/-! SUPPORT. What each operation of Machine/Paddock.lean keeps (Laws/Keeps.lean): one lemma per operation that answers a
state. -/

namespace Sys2Proof.Machine

open Sys2Proof

theorem State.bridleCount_keeps {z s : State} {f : State → State} (h_1 : Keeps z s)
    (h_2 : ∀ (x : State), Keeps z x → Keeps z (f x)) :
    Keeps z (s.bridleCount f) := by
  unfold State.bridleCount
  split
  · exact h_1
  · apply h_2
    exact h_1

theorem State.setPdQueue_keeps {z s : State} {b : Nat} {l : List PdReq} (h_1 : Keeps z s) :
    Keeps z (s.setPdQueue b l) := by
  unfold State.setPdQueue
  refine Keeps.upd (u := s) ?_ rfl rfl rfl rfl rfl rfl rfl rfl
  exact h_1

theorem State.setPdHeld_keeps {z s : State} {b : Nat} {l : List PdReq} (h_1 : Keeps z s) :
    Keeps z (s.setPdHeld b l) := by
  unfold State.setPdHeld
  refine Keeps.upd (u := s) ?_ rfl rfl rfl rfl rfl rfl rfl rfl
  exact h_1

theorem State.pdSend_keeps {z s : State} {r : PdReq} (h_1 : Keeps z s) :
    Keeps z (s.pdSend r) := by
  unfold State.pdSend
  extract_lets x1 x2 x3 x4
  clear_value x1
  clear_value x2
  have hx3 : Keeps z x3 := by
    unfold x3
    split
    · apply State.bridleCount_keeps
      · exact h_1
      · intro v5 h6
        exact State.addF_keeps h6
    · exact h_1
  clear_value x3
  have hx4 : Keeps z x4 := by
    unfold x4
    split
    · exact hx3
    · apply State.bridleCount_keeps
      · exact hx3
      · intro v7 h8
        exact State.addF_keeps h8
  clear_value x4
  split
  · exact State.setPdQueue_keeps hx4
  · exact State.setPdHeld_keeps hx4

theorem State.startPop_keeps {z s : State} {i : Nat} (h_1 : Keeps z s) :
    Keeps z (s.startPop i) := by
  unfold State.startPop
  split
  · split
    · exact h_1
    · extract_lets x1 x2
      clear_value x1
      clear_value x2
      exact State.pdSend_keeps (State.setRing_keeps h_1)
  · exact h_1

theorem State.pdPark_keeps {z s : State} {r : PdReq} (h_1 : Keeps z s) :
    Keeps z (s.pdPark r) := by
  unfold State.pdPark
  extract_lets x1 x2 x3 x4 x5 x6 x7
  have hx1 : Keeps z x1 := by
    unfold x1
    split
    · exact State.perf_keeps h_1
    · exact h_1
  clear_value x1
  clear_value x2
  clear_value x3
  clear_value x4
  clear_value x5
  clear_value x6
  clear_value x7
  split
  · refine Keeps.upd (u := x1) ?_ rfl rfl rfl rfl rfl rfl rfl rfl
    exact hx1
  · refine Keeps.upd (u := x1) ?_ rfl rfl rfl rfl rfl rfl rfl rfl
    exact hx1

theorem execTagWaitRejoin_keeps {z : State} {slice : Nat} {s : State} (h_1 : Keeps z s) :
    KeepsRes z (execTagWaitRejoin slice s) := by
  unfold execTagWaitRejoin
  extract_lets x1 x2 x3 x4 x5
  clear_value x1
  clear_value x2
  clear_value x3
  clear_value x4
  have hx5 : Keeps z x5 := by
    unfold x5
    refine Keeps.upd (u := s) ?_ rfl rfl rfl rfl rfl rfl rfl rfl
    exact h_1
  clear_value x5
  refine KeepsRes.next ?_
  refine Keeps.foldl ?_ ?_
  · exact hx5
  · intro v6 v7 h8
    exact State.setPdQueue_keeps h8

theorem State.pdCount_keeps {z s : State} {off index wait : Nat} (h_1 : Keeps z s) :
    Keeps z (s.pdCount off index wait) := by
  unfold State.pdCount
  extract_lets x1
  clear_value x1
  apply State.bridleCount_keeps
  · exact h_1
  · intro v2 h3
    exact State.maxF_keeps (State.addF_keeps (State.addF_keeps h3))

theorem State.deliver_keeps {z s : State} {core ctx : Nat} {task : Option Nat} {v : Word} {poison : Bool}
    (h_1 : Keeps z s) :
    Keeps z (s.deliver core ctx task v poison) := by
  unfold State.deliver
  split
  · exact State.updCtx_keeps h_1
  · exact h_1

theorem State.landFill_keeps {z s : State} {key ring k : Nat} {d : Line256} {pois words : Word32}
    {remote : Option (Nat × Word)} (h_1 : Keeps z s) :
    Keeps z (s.landFill key ring k d pois words remote) := by
  unfold State.landFill
  exact State.wackFill_keeps (State.spendCredit_keeps (State.putTag_keeps (State.wrWords_keeps h_1)))

theorem State.pdPerform_keeps {z s : State} {r : PdReq} (h_1 : Keeps z s) :
    Keeps z (s.pdPerform r) := by
  unfold State.pdPerform
  extract_lets x1 x2
  clear_value x1
  have hx2 : ∀ (s : State), Keeps z s → ∀ (v : Word) (p : Bool), Keeps z (x2 s v p) := by
    intro v3 h4 v5 v6
    unfold x2
    exact State.deliver_keeps h4
  clear_value x2
  split
  · extract_lets x7
    clear_value x7
    apply hx2
    exact h_1
  · exact State.narrowWrite_keeps h_1
  · extract_lets x8 x9
    clear_value x8
    have hx9 : Keeps z x9 := by
      unfold x9
      split
      · exact h_1
      · exact State.putTag_keeps h_1
    clear_value x9
    apply hx2
    exact hx9
  · apply hx2
    exact State.putTag_keeps (State.narrowWrite_keeps h_1)
  · exact State.putTag_keeps h_1
  · exact State.putTag_keeps h_1
  · apply hx2
    exact h_1
  · extract_lets x10
    have hx10 : Keeps z x10.2.2 := by
      unfold x10
      exact State.atomic_keeps h_1
    clear_value x10
    apply hx2
    exact hx10
  · split
    · exact h_1
    · extract_lets x11 x12 x13
      clear_value x11
      clear_value x12
      have hx13 : Keeps z x13 := by
        unfold x13
        exact State.setRing_keeps (State.advanceHead_keeps (State.putTag_keeps h_1))
      clear_value x13
      apply State.startPop_keeps
      apply hx2
      exact hx13
  · split
    · exact State.landFill_keeps h_1
    · split
      · exact State.wackFill_keeps h_1
      · exact State.taskFault_keeps h_1
      · exact h_1

theorem State.pdStep_keeps {z s : State} {b : Nat} (h_1 : Keeps z s) :
    Keeps z (s.pdStep b) := by
  unfold State.pdStep
  split
  · split
    · exact h_1
    · exact State.setPdQueue_keeps (State.setPdHeld_keeps h_1)
  · extract_lets x1 x2
    have hx1 : Keeps z x1 := by
      unfold x1
      exact State.pdCount_keeps (State.setPdQueue_keeps h_1)
    clear_value x1
    have hx2 : Keeps z x2 := by
      unfold x2
      split
      · split
        · exact State.pdPerform_keeps hx1
        · exact State.pdPark_keeps hx1
      · exact State.pdPerform_keeps hx1
    clear_value x2
    split
    · split
      · exact State.setPdQueue_keeps (State.setPdHeld_keeps hx2)
      · exact hx2
    · exact hx2

theorem State.pdDrainN_keeps {z s : State} {b a2 : Nat} (h_1 : Keeps z s) :
    Keeps z (s.pdDrainN b a2) := by
  induction a2 generalizing s b with
  | zero =>
    unfold State.pdDrainN
    exact h_1
  | succ w2 ih =>
    unfold State.pdDrainN
    exact ih (State.pdStep_keeps h_1)

theorem State.pdSettle_keeps {z s : State} {o : Nat} (h_1 : Keeps z s) :
    Keeps z (s.pdSettle o) := by
  unfold State.pdSettle
  extract_lets x1
  clear_value x1
  exact State.pdDrainN_keeps h_1

theorem execPaddockBankAccess_keeps {z : State} {slice bank : Nat} {s : State} (h_1 : Keeps z s) :
    KeepsRes z (execPaddockBankAccess slice bank s) := by
  unfold execPaddockBankAccess
  refine KeepsRes.next ?_
  exact State.pdStep_keeps h_1

theorem execTagWaitReturn_keeps {z : State} {slice : Nat} {s : State} (h_1 : Keeps z s) :
    KeepsRes z (execTagWaitReturn slice s) := by
  unfold execTagWaitReturn
  refine KeepsRes.next ?_
  split
  · exact h_1
  · extract_lets x1 x2 x3 x4
    have hx1 : Keeps z x1 := by
      unfold x1
      exact State.notBefore_keeps h_1
    clear_value x1
    clear_value x2
    clear_value x3
    have hx4 : Keeps z x4 := by
      unfold x4
      refine Keeps.upd (u := x1) ?_ rfl rfl rfl rfl rfl rfl rfl rfl
      exact hx1
    clear_value x4
    exact State.pdSend_keeps hx4

end Sys2Proof.Machine
end

