-- ==== Sys2Proof/Laws/KeepsCoherence.lean ====
section
/-! SUPPORT. What each operation of Machine/Coherence.lean keeps (Laws/Keeps.lean): one lemma per operation that answers a
state. -/

namespace Sys2Proof.Machine

open Sys2Proof

theorem State.refuseMem_keeps {z s : State} {req dpa : Nat} (h_1 : Keeps z s) :
    Keeps z (s.refuseMem req dpa) := by
  unfold State.refuseMem
  exact State.advise_keeps h_1

theorem State.setTracker_keeps {z s : State} {line : Nat} {t : Tracker} (h_1 : Keeps z s) :
    Keeps z (s.setTracker line t) := by
  unfold State.setTracker
  refine Keeps.upd (u := s) ?_ rfl rfl rfl rfl rfl rfl rfl rfl
  exact h_1

theorem State.recordTie_keeps {z s : State} {line : Nat} {r : DReq} (h_1 : Keeps z s) :
    Keeps z (s.recordTie line r) := by
  unfold State.recordTie
  split
  · exact h_1
  · split
    · exact h_1
    · extract_lets x1 x2 x3 x4
      clear_value x2
      clear_value x3
      clear_value x4
      exact State.setReg_keeps h_1

theorem State.enterOrder_keeps {z s : State} {line : Nat} {kind : DReqKind} {ingress sub : Nat} (h_1 : Keeps z s) :
    Keeps z (s.enterOrder line kind ingress sub) := by
  unfold State.enterOrder
  extract_lets x1 x2 x3
  clear_value x1
  clear_value x2
  clear_value x3
  split
  · exact h_1
  · exact State.setTracker_keeps (State.recordTie_keeps h_1)

theorem State.mediaEvent_keeps {z s : State} {log p : Nat} (h_1 : Keeps z s) :
    Keeps z (s.mediaEvent log p) := by
  unfold State.mediaEvent
  exact State.postEvent_keeps h_1

theorem execMemRd_keeps {z : State} {req dpa : Nat} {mv : MetaValue} {s : State} (h_1 : Keeps z s) :
    KeepsRes z (execMemRd req dpa mv s) := by
  unfold execMemRd
  refine KeepsRes.next ?_
  extract_lets x1 x2
  have hx1 : Keeps z x1 := by
    unfold x1
    exact State.refuseMem_keeps (State.emit_keeps h_1)
  clear_value x1
  clear_value x2
  split
  · exact h_1
  · split
    · exact hx1
    · split
      · exact hx1
      · split
        · exact State.enterOrder_keeps h_1
        · extract_lets x3 x4
          clear_value x3
          have hx4 : Keeps z x4 := by
            unfold x4
            exact State.emit_keeps h_1
          clear_value x4
          split
          · exact State.mediaEvent_keeps hx4
          · exact hx4

theorem State.devAccess_keeps {z s : State} {d : DevAcc} (h_1 : Keeps z s) :
    Keeps z (s.devAccess d) := by
  unfold State.devAccess
  split
  · exact State.narrowWrite_keeps h_1
  · extract_lets x1
    clear_value x1
    exact State.deliver_keeps h_1

theorem State.snoop_keeps {z s : State} {line : Nat} {kind : BiSnp} {reqs : List Nat} (h_1 : Keeps z s) :
    Keeps z (s.snoop line kind reqs) := by
  unfold State.snoop
  extract_lets x1 x2
  clear_value x1
  have hx2 : Keeps z x2 := by
    unfold x2
    exact State.setTracker_keeps h_1
  clear_value x2
  refine Keeps.foldl ?_ ?_
  · exact hx2
  · intro v3 v4 h5
    exact State.addF_keeps (State.emit_keeps h5)

theorem State.setFilter_keeps {z s : State} {l : List SfEntry} (h_1 : Keeps z s) :
    Keeps z (s.setFilter l) := by
  unfold State.setFilter
  apply State.setF_keeps
  refine Keeps.upd (u := s) ?_ rfl rfl rfl rfl rfl rfl rfl rfl
  exact h_1

theorem State.setHolders_keeps {z s : State} {line : Nat} {excl : Bool} {present : List Nat} (h_1 : Keeps z s) :
    Keeps z (s.setHolders line excl present) := by
  unfold State.setHolders
  extract_lets x1 x2 x3
  clear_value x1
  clear_value x2
  clear_value x3
  split
  · exact State.setFilter_keeps h_1
  · split
    · exact State.setFilter_keeps h_1
    · apply State.setFilter_keeps
      refine Keeps.upd (u := s) ?_ rfl rfl rfl rfl rfl rfl rfl rfl
      exact h_1

theorem State.afterWrite_keeps {z s : State} {line req : Nat} {mv : MetaValue} (h_1 : Keeps z s) :
    Keeps z (s.afterWrite line req mv) := by
  unfold State.afterWrite
  split
  · exact State.setHolders_keeps h_1
  · exact State.setHolders_keeps h_1
  · exact State.setHolders_keeps h_1

theorem State.writeLine64_keeps {z s : State} {line : Nat} {d : Line64} {poison : Bool} (h_1 : Keeps z s) :
    Keeps z (s.writeLine64 line d poison) := by
  unfold State.writeLine64
  exact State.setPoison_keeps (State.wrNat_keeps h_1)

theorem State.sweepExtents_keeps {z s : State} (h_1 : Keeps z s) :
    Keeps z s.sweepExtents := by
  unfold State.sweepExtents
  refine Keeps.upd (u := s) ?_ rfl rfl rfl rfl rfl rfl rfl rfl
  exact h_1

theorem State.updExtent_keeps {z s : State} {id : Nat} {f : Extent → Extent} (h_1 : Keeps z s) :
    Keeps z (s.updExtent id f) := by
  unfold State.updExtent
  refine Keeps.upd (u := s) ?_ rfl rfl rfl rfl rfl rfl rfl rfl
  exact h_1

theorem State.finishRelease_keeps {z s : State} {req ext : Nat} (h_1 : Keeps z s) :
    Keeps z (s.finishRelease req ext) := by
  unfold State.finishRelease
  extract_lets x1
  clear_value x1
  split
  · exact h_1
  · exact State.sweepExtents_keeps (State.updExtent_keeps h_1)

theorem State.performReq_keeps {z s : State} {line : Nat} {r : DReq} (h_1 : Keeps z s) :
    Keeps z (s.performReq line r) := by
  unfold State.performReq
  split
  · extract_lets x1 x2 x3
    clear_value x1
    have hx2 : Keeps z x2 := by
      unfold x2
      exact State.emit_keeps h_1
    clear_value x2
    have hx3 : Keeps z x3 := by
      unfold x3
      split
      · exact State.mediaEvent_keeps hx2
      · exact hx2
    clear_value x3
    split
    · exact hx3
    · exact State.setHolders_keeps hx3
    · exact State.setHolders_keeps hx3
  · exact State.afterWrite_keeps (State.emit_keeps (State.writeLine64_keeps h_1))
  · split
    · exact State.devAccess_keeps h_1
    · exact h_1
  · exact State.finishRelease_keeps (State.setHolders_keeps h_1)

theorem State.serveLine_keeps {z s : State} {line : Nat} (h_1 : Keeps z s) :
    Keeps z (s.serveLine line) := by
  unfold State.serveLine
  extract_lets x1 x2 x3
  clear_value x1
  have hx2 : Keeps z x2 := by
    unfold x2
    exact State.setTracker_keeps h_1
  clear_value x2
  clear_value x3
  split
  · exact h_1
  · split
    · exact h_1
    · split
      · exact State.snoop_keeps h_1
      · extract_lets x4 x5 x6 x7
        clear_value x4
        have hx5 : Keeps z x5 := by
          unfold x5
          exact State.setTracker_keeps h_1
        clear_value x5
        have hx6 : Keeps z x6 := by
          unfold x6
          exact State.performReq_keeps hx5
        clear_value x6
        clear_value x7
        split
        · split
          · exact h_1
          · extract_lets x8 x9 x10
            have hx8 : Keeps z x8 := by
              unfold x8
              refine Keeps.upd (u := x2) ?_ rfl rfl rfl rfl rfl rfl rfl rfl
              exact hx2
            clear_value x8
            have hx9 : Keeps z x9 := by
              unfold x9
              exact State.addF_keeps hx8
            clear_value x9
            clear_value x10
            exact State.snoop_keeps (State.setTracker_keeps hx9)
        · split
          · split
            · exact State.emit_keeps (State.setTracker_keeps hx6)
            · exact hx6
          · exact hx6

theorem State.snoopsDone_keeps {z s : State} {line : Nat} (h_1 : Keeps z s) :
    Keeps z (s.snoopsDone line) := by
  unfold State.snoopsDone
  extract_lets x1 x2 x3 x4 x5
  clear_value x1
  have hx2 : Keeps z x2 := by
    unfold x2
    exact State.setHolders_keeps (State.setTracker_keeps h_1)
  clear_value x2
  clear_value x3
  clear_value x4
  have hx5 : Keeps z x5 := by
    unfold x5
    refine Keeps.upd (u := x2) ?_ rfl rfl rfl rfl rfl rfl rfl rfl
    exact hx2
  clear_value x5
  split
  · exact h_1
  · split
    · refine Keeps.foldl ?_ ?_
      · exact hx5
      · intro v6 v7 h8
        exact State.serveLine_keeps h8
    · exact State.serveLine_keeps (State.setTracker_keeps h_1)

theorem execBiTimeout_keeps {z : State} {req line : Nat} {s : State} (h_1 : Keeps z s) :
    KeepsRes z (execBiTimeout req line s) := by
  unfold execBiTimeout
  refine KeepsRes.next ?_
  extract_lets x1
  clear_value x1
  split
  · exact h_1
  · extract_lets x2 x3 x4 x5 x6 x7 x8 x9 x10
    have hx2 : Keeps z x2 := by
      unfold x2
      exact State.notBefore_keeps h_1
    clear_value x2
    have hx3 : Keeps z x3 := by
      unfold x3
      split
      · extract_lets x11
        have hx11 : Keeps z x11 := by
          unfold x11
          exact State.setFilter_keeps hx2
        clear_value x11
        exact State.setHolders_keeps hx11
      · exact hx2
    clear_value x3
    have hx4 : Keeps z x4 := by
      unfold x4
      exact State.setPoison_keeps hx3
    clear_value x4
    clear_value x5
    have hx6 : Keeps z x6 := by
      unfold x6
      refine Keeps.upd (u := x4) ?_ rfl rfl rfl rfl rfl rfl rfl rfl
      exact hx4
    clear_value x6
    clear_value x7
    have hx8 : Keeps z x8 := by
      unfold x8
      exact State.postEvent_keeps hx6
    clear_value x8
    have hx9 : Keeps z x9 := by
      unfold x9
      exact State.advise_keeps hx8
    clear_value x9
    have hx10 : Keeps z x10 := by
      unfold x10
      exact State.addF_keeps hx9
    clear_value x10
    exact State.snoopsDone_keeps (State.setTracker_keeps hx10)

theorem State.devReady_keeps {z s : State} {p n : Nat} {write : Bool} {sub : Nat} (h_1 : Keeps z s) :
    Keeps z (s.devReady p n write sub).2 := by
  unfold State.devReady
  split
  · exact h_1
  · extract_lets x1
    clear_value x1
    dsimp only
    split
    · exact h_1
    · exact State.enterOrder_keeps h_1

theorem execDcohRequestServe_keeps {z : State} {line : Nat} {s : State} (h_1 : Keeps z s) :
    KeepsRes z (execDcohRequestServe line s) := by
  unfold execDcohRequestServe
  refine KeepsRes.next ?_
  exact State.serveLine_keeps h_1

theorem execBiconflict_keeps {z : State} {req line : Nat} {s : State} (h_1 : Keeps z s) :
    KeepsRes z (execBiconflict req line s) := by
  unfold execBiconflict
  refine KeepsRes.next ?_
  extract_lets x1
  clear_value x1
  split
  · exact h_1
  · split
    · exact State.setTracker_keeps h_1
    · exact State.emit_keeps h_1

theorem execMemWr_keeps {z : State} {req dpa : Nat} {mv : MetaValue} {data : Line64} {poison : Bool} {s : State}
    (h_1 : Keeps z s) :
    KeepsRes z (execMemWr req dpa mv data poison s) := by
  unfold execMemWr
  refine KeepsRes.next ?_
  extract_lets x1 x2
  have hx1 : Keeps z x1 := by
    unfold x1
    exact State.refuseMem_keeps (State.emit_keeps h_1)
  clear_value x1
  clear_value x2
  split
  · exact h_1
  · split
    · exact hx1
    · split
      · exact hx1
      · extract_lets x3 x4 x5
        clear_value x3
        have hx4 : Keeps z x4 := by
          unfold x4
          exact State.afterWrite_keeps (State.emit_keeps (State.writeLine64_keeps h_1))
        clear_value x4
        clear_value x5
        split
        · exact State.emit_keeps (State.writeLine64_keeps h_1)
        · split
          · exact State.emit_keeps h_1
          · split
            · refine Keeps.upd (u := x4) ?_ rfl rfl rfl rfl rfl rfl rfl rfl
              exact hx4
            · exact State.enterOrder_keeps h_1

theorem execBirsp_keeps {z : State} {req line : Nat} {rsp : BiRsp} {wb : Option Line64} {s : State}
    (h_1 : Keeps z s) :
    KeepsRes z (execBirsp req line rsp wb s) := by
  unfold execBirsp
  refine KeepsRes.next ?_
  split
  · refine Keeps.upd (u := s) ?_ rfl rfl rfl rfl rfl rfl rfl rfl
    exact h_1
  · extract_lets x1 x2 x3
    clear_value x1
    clear_value x2
    have hx3 : Keeps z x3 := by
      unfold x3
      split
      · split
        · exact State.writeLine64_keeps h_1
        · exact h_1
      · exact h_1
    clear_value x3
    split
    · exact h_1
    · extract_lets x4
      have hx4 : Keeps z x4 := by
        unfold x4
        split
        · extract_lets x5
          clear_value x5
          exact State.setHolders_keeps hx3
        · exact hx3
      clear_value x4
      exact State.snoopsDone_keeps (State.setTracker_keeps hx4)

end Sys2Proof.Machine
end

