-- ==== Sys2Proof/Laws/KeepsRegOps.lean ====
section
/-! SUPPORT. What each operation of Machine/RegOps.lean keeps (Laws/Keeps.lean): one lemma per operation that answers a
state. -/

namespace Sys2Proof.Machine

open Sys2Proof

theorem State.dropLow_keeps {z s : State} {agent : Nat} (h_1 : Keeps z s) :
    Keeps z (s.dropLow agent) := by
  unfold State.dropLow
  refine Keeps.upd (u := s) ?_ rfl rfl rfl rfl rfl rfl rfl rfl
  exact h_1

theorem State.beginWrite_keeps {z s : State} {agent off size : Nat} {val : Word} (h_1 : Keeps z s) :
    Keeps z (s.beginWrite agent off size val).st := by
  unfold State.beginWrite
  extract_lets x1 x2 x3
  have hx1 : ∀ (s : State), Keeps z s → Keeps z (x1 s).st := by
    intro v4 h5
    unfold x1
    dsimp only [WriteStep.st]
    exact State.refuseAccess_keeps (State.dropLow_keeps h5)
  clear_value x1
  have hx2 : Keeps z x2 := by
    unfold x2
    exact State.dropLow_keeps h_1
  clear_value x2
  clear_value x3
  split
  · dsimp only [WriteStep.st]
    exact h_1
  · split
    · apply hx1
      exact h_1
    · apply hx1
      exact h_1
    · split
      · apply hx1
        exact h_1
      · dsimp only [WriteStep.st]
        refine Keeps.upd (u := x2) ?_ rfl rfl rfl rfl rfl rfl rfl rfl
        exact hx2
    · split
      · apply hx1
        exact h_1
      · extract_lets x6
        clear_value x6
        dsimp only [WriteStep.st]
        exact State.dropLow_keeps h_1
    · split
      · apply hx1
        exact h_1
      · split
        · dsimp only [WriteStep.st]
          exact State.dropLow_keeps h_1
        · dsimp only [WriteStep.st]
          exact State.dropLow_keeps h_1

theorem State.setRegOf_keeps {z s : State} {agent : Nat} {r : Reg} {i : Nat} {v : Word} (h_1 : Keeps z s) :
    Keeps z (s.setRegOf agent r i v) := by
  unfold State.setRegOf
  split
  · exact State.setRegB_keeps h_1
  · exact State.setReg_keeps h_1

theorem State.writeFields_keeps {z s : State} {w : Written} {off : Nat} (h_1 : Keeps z s) :
    Keeps z (s.writeFields w off) := by
  unfold State.writeFields
  extract_lets x1 x2 x3 x4 x5
  clear_value x1
  clear_value x2
  clear_value x3
  clear_value x4
  have hx5 : Keeps z x5 := by
    unfold x5
    exact State.setRegOf_keeps h_1
  clear_value x5
  split
  · exact State.refuseAccess_keeps h_1
  · split
    · exact State.refuseAccess_keeps hx5
    · exact hx5

theorem State.busWrite_keeps {z s : State} {agent off size : Nat} {val : Word} {act : Written → State → State}
    (h_1 : Keeps z s) (h_2 : ∀ (x : Written) (x_1 : State), Keeps z x_1 → Keeps z (act x x_1)) :
    Keeps z (s.busWrite agent off size val act) := by
  unfold State.busWrite
  split
  · refine WriteStep.keeps_done (by with_reducible assumption) ?_
    exact State.beginWrite_keeps h_1
  · apply h_2
    apply State.writeFields_keeps
    refine WriteStep.keeps_write (by with_reducible assumption) ?_
    exact State.beginWrite_keeps h_1

theorem State.regWrite_keeps {z s : State} {agent : Nat} {r : Reg} {i : Nat} {val : Word}
    {act : Written → State → State} (h_1 : Keeps z s) (h_2 : ∀ (x : Written)
    (x_1 : State), Keeps z x_1 → Keeps z (act x x_1)) :
    Keeps z (s.regWrite agent r i val act) := by
  unfold State.regWrite
  apply State.busWrite_keeps
  · exact h_1
  · intro v1 v2 h3
    apply h_2
    exact h3

end Sys2Proof.Machine
end

