-- ==== Sys2Proof/Laws/KeepsBridle.lean ====
section
/-! SUPPORT. What each operation of Machine/Bridle.lean keeps (Laws/Keeps.lean): one lemma per operation that answers a
state. -/

namespace Sys2Proof.Machine

open Sys2Proof

theorem State.poisonCodeword_keeps {z s : State} {p : Nat} (h_1 : Keeps z s) :
    Keeps z (s.poisonCodeword p) := by
  unfold State.poisonCodeword
  exact State.mediaEvent_keeps (State.setPoison_keeps (State.wrBytes_keeps h_1))

theorem State.setHeld_keeps {z s : State} {a : Nat} {b : Option Burst} (h_1 : Keeps z s) :
    Keeps z (s.setHeld a b) := by
  unfold State.setHeld
  refine Keeps.upd (u := s) ?_ rfl rfl rfl rfl rfl rfl rfl rfl
  exact h_1

theorem State.passBeat_keeps {z s : State} {a : Nat} {b : Burst} (h_1 : Keeps z s) :
    Keeps z (s.passBeat a b) := by
  unfold State.passBeat
  split
  · exact State.setHeld_keeps h_1
  · exact State.setHeld_keeps h_1

theorem State.countGrant_keeps {z s : State} {a : Nat} {r : BReq} {rank : Nat} (h_1 : Keeps z s) :
    Keeps z (s.countGrant a r rank) := by
  unfold State.countGrant
  extract_lets x1 x2 x3
  clear_value x1
  clear_value x2
  clear_value x3
  apply State.bridleCount_keeps
  · exact h_1
  · intro v4 h5
    extract_lets x6 x7
    have hx6 : Keeps z x6 := by
      unfold x6
      exact State.maxF_keeps (State.addF_keeps h5)
    clear_value x6
    have hx7 : Keeps z x7 := by
      unfold x7
      split
      · exact State.addF_keeps hx6
      · exact hx6
    clear_value x7
    split
    · exact State.maxF_keeps (State.addF_keeps (State.addF_keeps hx7))
    · exact hx7

theorem State.countWindow_keeps {z s : State} {a k beats : Nat} (h_1 : Keeps z s) :
    Keeps z (s.countWindow a k beats) := by
  unfold State.countWindow
  extract_lets x1 x2 x3
  clear_value x1
  clear_value x2
  clear_value x3
  split
  · apply State.setF_keeps
    refine Keeps.upd (u := s) ?_ rfl rfl rfl rfl rfl rfl rfl rfl
    exact h_1
  · apply State.setF_keeps
    refine Keeps.upd (u := s) ?_ rfl rfl rfl rfl rfl rfl rfl rfl
    exact h_1

theorem execBridleGrant_keeps {z : State} {arb occ : Nat} {room supply : Bool} {reqs : List BReq} {s : State}
    (h_1 : Keeps z s) :
    KeepsRes z (execBridleGrant arb occ room supply reqs s) := by
  unfold execBridleGrant
  refine KeepsRes.next ?_
  split
  · exact h_1
  · extract_lets x1 x2 x3
    clear_value x1
    have hx2 : Keeps z x2 := by
      unfold x2
      split
      · exact State.setF_keeps (State.setF_keeps h_1)
      · exact h_1
    clear_value x2
    have hx3 : Keeps z x3 := by
      unfold x3
      split
      · apply State.bridleCount_keeps
        · exact hx2
        · intro v4 h5
          exact State.addF_keeps h5
      · exact hx2
    clear_value x3
    split
    · split
      · exact State.passBeat_keeps hx3
      · exact hx3
    · split
      · exact hx3
      · split
        · exact hx3
        · extract_lets x6 x7 x8 x9 x10 x11 x12 x13 x14
          clear_value x6
          clear_value x7
          have hx8 : Keeps z x8 := by
            unfold x8
            exact State.countGrant_keeps hx3
          clear_value x8
          clear_value x9
          have hx10 : Keeps z x10 := by
            unfold x10
            split
            · refine Keeps.upd (u := x8) ?_ rfl rfl rfl rfl rfl rfl rfl rfl
              exact hx8
            · exact hx8
          clear_value x10
          have hx11 : Keeps z x11 := by
            unfold x11
            exact State.countWindow_keeps hx10
          clear_value x11
          clear_value x12
          have hx13 : Keeps z x13 := by
            unfold x13
            refine Keeps.upd (u := x11) ?_ rfl rfl rfl rfl rfl rfl rfl rfl
            exact hx11
          clear_value x13
          clear_value x14
          split
          · exact State.passBeat_keeps hx13
          · exact State.setHeld_keeps hx13

theorem execLdQosInterval_keeps {z s : State} (h_1 : Keeps z s) :
    KeepsRes z (execLdQosInterval s) := by
  unfold execLdQosInterval
  extract_lets x1 x2
  have hx1 : Keeps z x1 := by
    unfold x1
    exact State.notBefore_keeps h_1
  clear_value x1
  clear_value x2
  refine KeepsRes.next ?_
  refine Keeps.upd (u := x1) ?_ rfl rfl rfl rfl rfl rfl rfl rfl
  exact hx1

theorem State.endBurst_keeps {z s : State} {a : Nat} {b : Burst} (h_1 : Keeps z s) :
    Keeps z (s.endBurst a b) := by
  unfold State.endBurst
  extract_lets x1
  have hx1 : Keeps z x1 := by
    unfold x1
    exact State.setHeld_keeps h_1
  clear_value x1
  split
  · refine Keeps.foldl ?_ ?_
    · exact hx1
    · intro v2 v3 h4
      exact State.poisonCodeword_keeps h4
  · exact State.emit_keeps hx1

theorem State.endBursts_keeps {z s : State} {p : Burst → Bool} (h_1 : Keeps z s) :
    Keeps z (s.endBursts p) := by
  unfold State.endBursts
  refine Keeps.foldl ?_ ?_
  · exact h_1
  · intro v1 v2 h3
    split
    · exact State.endBurst_keeps h3
    · exact h3

theorem execBridleCounterClear_keeps {z : State} {req : Nat} {val : Word} {s : State} (h_1 : Keeps z s) :
    KeepsRes z (execBridleCounterClear req val s) := by
  unfold execBridleCounterClear
  refine KeepsRes.next ?_
  split
  · apply State.regWrite_keeps
    · exact h_1
    · intro v1 v2 h3
      exact State.bridleCntAct_keeps h3
  · exact h_1

theorem execBridleHoldLimit_keeps {z : State} {arb : Nat} {s : State} (h_1 : Keeps z s) :
    KeepsRes z (execBridleHoldLimit arb s) := by
  unfold execBridleHoldLimit
  refine KeepsRes.next ?_
  split
  · exact h_1
  · extract_lets x1 x2 x3 x4
    have hx1 : Keeps z x1 := by
      unfold x1
      exact State.endBurst_keeps (State.notBefore_keeps h_1)
    clear_value x1
    clear_value x2
    have hx3 : Keeps z x3 := by
      unfold x3
      split
      · exact hx1
      · exact State.setReg_keeps hx1
    clear_value x3
    have hx4 : Keeps z x4 := by
      unfold x4
      exact State.addF_keeps hx3
    clear_value x4
    split
    · exact State.taskFault_keeps hx4
    · exact State.logFault_keeps hx4

end Sys2Proof.Machine
end

