-- ==== Sys2Proof/Laws/KeepsCompletions.lean ====
section
/-! SUPPORT. What each operation of Machine/Completions.lean keeps (Laws/Keeps.lean): one lemma per operation that answers a
state. -/

namespace Sys2Proof.Machine

open Sys2Proof

theorem State.setSq_keeps {z s : State} {n : Nat} {q : Sq} (h_1 : Keeps z s) :
    Keeps z (s.setSq n q) := by
  unfold State.setSq
  refine Keeps.upd (u := s) ?_ rfl rfl rfl rfl rfl rfl rfl rfl
  exact h_1

theorem State.updSq_keeps {z s : State} {n : Nat} {f : Sq → Sq} (h_1 : Keeps z s) :
    Keeps z (s.updSq n f) := by
  unfold State.updSq
  exact State.setSq_keeps h_1

theorem State.retain_keeps {z s : State} {sq : Nat} {c : Cpl} (h_1 : Keeps z s) :
    Keeps z (s.retain sq c) := by
  unfold State.retain
  exact State.updSq_keeps h_1

theorem State.setCq_keeps {z s : State} {n : Nat} {q : Cq} (h_1 : Keeps z s) :
    Keeps z (s.setCq n q) := by
  unfold State.setCq
  refine Keeps.upd (u := s) ?_ rfl rfl rfl rfl rfl rfl rfl rfl
  exact h_1

theorem State.cqInterrupt_keeps {z s : State} {n : Nat} (h_1 : Keeps z s) :
    Keeps z (s.cqInterrupt n) := by
  unfold State.cqInterrupt
  exact State.setCq_keeps (State.msix_keeps h_1)

theorem State.cpWrite_keeps {z s : State} {st a : Nat} {d : List Byte} {poison : Bool} (h_1 : Keeps z s) :
    Keeps z (s.cpWrite st a d poison) := by
  unfold State.cpWrite
  split
  · exact State.setPoison_keeps (State.wrBytes_keeps h_1)
  · refine Keeps.foldl ?_ ?_
    · exact State.wrBytes_keeps h_1
    · intro v1 v2 h3
      exact State.setPoison_keeps h3
  · exact State.emit_keeps h_1
  · exact h_1

theorem State.cqCount_keeps {z s : State} {n : Nat} (h_1 : Keeps z s) :
    Keeps z (s.cqCount n) := by
  unfold State.cqCount
  extract_lets x1 x2
  clear_value x1
  have hx2 : Keeps z x2 := by
    unfold x2
    exact State.setCq_keeps h_1
  clear_value x2
  split
  · exact State.cqInterrupt_keeps hx2
  · exact hx2

theorem State.cqWrite_keeps {z s : State} {cq sq : Nat} {c : Cpl} {dup : Bool} (h_1 : Keeps z s) :
    Keeps z (s.cqWrite cq sq c dup) := by
  unfold State.cqWrite
  extract_lets x1 x2 x3 x4 x5 x6 x7
  clear_value x1
  clear_value x2
  clear_value x3
  clear_value x4
  clear_value x5
  have hx6 : Keeps z x6 := by
    unfold x6
    exact State.cpWrite_keeps h_1
  clear_value x6
  have hx7 : Keeps z x7 := by
    unfold x7
    split
    · exact State.setF_keeps (State.setF_keeps hx6)
    · exact State.setF_keeps hx6
  clear_value x7
  exact State.cqCount_keeps hx7

theorem State.setSlot_keeps {z s : State} {k : Nat} {w seq : Word} (h_1 : Keeps z s) :
    Keeps z (s.setSlot k w seq) := by
  unfold State.setSlot
  refine Keeps.upd (u := s) ?_ rfl rfl rfl rfl rfl rfl rfl rfl
  exact h_1

theorem State.readySlot_keeps {z s : State} {k status : Nat} {d : List Byte} (h_1 : Keeps z s) :
    Keeps z (s.readySlot k status d) := by
  unfold State.readySlot
  extract_lets x1
  clear_value x1
  exact State.wrBytes_keeps (State.setSlot_keeps h_1)

theorem State.post_keeps {z s : State} {sq : Nat} {c : Cpl} {dup : Bool} (h_1 : Keeps z s) :
    Keeps z (s.post sq c dup) := by
  unfold State.post
  extract_lets x1 x2
  clear_value x1
  have hx2 : Keeps z x2 := by
    unfold x2
    exact State.addF_keeps h_1
  clear_value x2
  split
  · exact State.cqWrite_keeps h_1
  · split
    · exact hx2
    · exact State.logFault_keeps (State.updSq_keeps hx2)

theorem State.completeCmd_keeps {z s : State} {sq seq status detail task result : Nat} {data : (List Byte)}
    (h_1 : Keeps z s) :
    Keeps z (s.completeCmd sq seq status detail task result data) := by
  unfold State.completeCmd
  split
  · exact h_1
  · extract_lets x1 x2 x3 x4 x5
    have hx1 : Keeps z x1 := by
      unfold x1
      split
      · exact State.readySlot_keeps h_1
      · exact h_1
    clear_value x1
    clear_value x2
    clear_value x3
    have hx4 : Keeps z x4 := by
      unfold x4
      exact State.updSq_keeps hx1
    clear_value x4
    have hx5 : Keeps z x5 := by
      unfold x5
      exact State.retain_keeps (State.post_keeps hx4)
    clear_value x5
    refine Keeps.foldl ?_ ?_
    · exact hx5
    · intro v6 v7 h8
      exact State.post_keeps h8

theorem State.discardWaiting_keeps {z s : State} {sq status : Nat} (h_1 : Keeps z s) :
    Keeps z (s.discardWaiting sq status) := by
  unfold State.discardWaiting
  refine Keeps.foldl ?_ ?_
  · exact h_1
  · intro v1 v2 h3
    exact State.completeCmd_keeps h3

theorem State.cpRead_keeps {z s : State} {st a n : Nat} {host : List Byte} {ep : Bool} (h_1 : Keeps z s) :
    KeepsOpt z (fun (x : List Byte × Bool × State) => x.2.2) (s.cpRead st a n host ep) := by
  unfold State.cpRead
  split
  · refine KeepsOpt.some ?_
    exact h_1
  · refine KeepsOpt.some ?_
    exact h_1
  · refine KeepsOpt.some ?_
    dsimp only
    exact State.emit_keeps h_1
  · exact KeepsOpt.none

theorem State.refuseCmd_keeps {z s : State} {sq seq status : Nat} (h_1 : Keeps z s) :
    Keeps z (s.refuseCmd sq seq status) := by
  unfold State.refuseCmd
  extract_lets x1
  clear_value x1
  exact State.retain_keeps (State.post_keeps h_1)

theorem State.updCmd_keeps {z s : State} {sq seq : Nat} {f : Cmd → Cmd} (h_1 : Keeps z s) :
    Keeps z (s.updCmd sq seq f) := by
  unfold State.updCmd
  exact State.updSq_keeps h_1

theorem State.assignSlot_keeps {z s : State} {k seq : Nat} (h_1 : Keeps z s) :
    Keeps z (s.assignSlot k seq) := by
  unfold State.assignSlot
  extract_lets x1
  clear_value x1
  exact State.wrBytes_keeps (State.setSlot_keeps h_1)

end Sys2Proof.Machine
end

