-- ==== Sys2Proof/Laws/KeepsScalarMem.lean ====
section
/-! SUPPORT. What each operation of Machine/ScalarMem.lean keeps (Laws/Keeps.lean): one lemma per operation that answers a
state. -/

namespace Sys2Proof.Machine

open Sys2Proof

theorem X.withAddr_keeps {z : State} {x : X} {s : State} {a : Word} {poison aligned : Bool} {go : Nat → State}
    (h_1 : Keeps z s) (h_2 : ∀ (x : Nat), Keeps z (go x)) :
    Keeps z (x.withAddr s a poison aligned go) := by
  unfold X.withAddr
  split
  · exact X.fault_keeps h_1
  · split
    · exact X.fault_keeps h_1
    · split
      · exact X.fault_keeps h_1
      · apply h_2

theorem X.touch_keeps {z : State} {x : X} {s : State} {a : Nat} {write : Bool} (h_1 : Keeps z s) :
    Keeps z (x.touch s a write).2 := by
  unfold X.touch
  exact State.cmTouch_keeps h_1

theorem X.atom_keeps {z : State} {x : X} {t : State} {k : Atom} {ret : Bool} (h_1 : Keeps z t) :
    Keeps z (x.atom t k ret) := by
  unfold X.atom
  apply X.withAddr_keeps
  · exact h_1
  · intro v1
    split
    · split
      · exact X.fault_keeps h_1
      · split
        · exact X.fault_keeps h_1
        · split
          · apply X.fault_keeps
            refine Keeps.of_snd (by with_reducible assumption) ?_
            exact X.touch_keeps h_1
          · split
            · apply X.ret_keeps
              refine Keeps.of_snd (by with_reducible assumption) ?_
              exact X.touch_keeps h_1
            · apply X.next_keeps
              refine Keeps.of_snd (by with_reducible assumption) ?_
              exact X.touch_keeps h_1
          · extract_lets x2
            have hx2 : Keeps z x2.2.2 := by
              unfold x2
              apply State.atomic_keeps
              refine Keeps.of_snd (by with_reducible assumption) ?_
              exact X.touch_keeps h_1
            clear_value x2
            split
            · exact X.ret_keeps hx2
            · exact X.next_keeps hx2
    · split
      · split
        · exact X.fault_keeps h_1
        · extract_lets x3
          have hx3 : Keeps z x3 := by
            unfold x3
            exact State.pdSend_keeps h_1
          clear_value x3
          split
          · exact X.wait_keeps hx3
          · exact X.next_keeps hx3
      · exact X.fault_keeps h_1
    · exact X.fault_keeps h_1
    · exact X.fault_keeps h_1
    · exact X.fault_keeps h_1
    · exact X.fault_keeps h_1
    · exact X.fault_keeps h_1
    · exact X.fault_keeps h_1
    · exact X.fault_keeps h_1
    · exact X.fault_keeps h_1
    · exact X.fault_keeps h_1

theorem execAaddD_keeps {z : State} {i : Issue} {s : State} (h_1 : Keeps z s) :
    KeepsRes z (execAaddD i s) := by
  unfold execAaddD
  refine KeepsRes.next ?_
  apply issueOf_keeps
  · intro v1 v2 h3
    exact X.atom_keeps h3
  · exact h_1

theorem X.localLoad_keeps {z : State} {x : X} {s : State} {a n : Nat} {sx : Bool} {after : State → State}
    (h_1 : Keeps z s) (h_2 : ∀ (x : State), Keeps z x → Keeps z (after x)) :
    Keeps z (x.localLoad s a n sx after) := by
  unfold X.localLoad
  split
  · apply X.fault_keeps
    refine Keeps.of_snd (by with_reducible assumption) ?_
    exact X.touch_keeps h_1
  · apply X.ret_keeps
    refine Keeps.of_snd (by with_reducible assumption) ?_
    exact X.touch_keeps h_1
  · extract_lets x1
    clear_value x1
    apply X.ret_keeps
    apply h_2
    refine Keeps.of_snd (by with_reducible assumption) ?_
    exact X.touch_keeps h_1

theorem X.load_keeps {z : State} {x : X} {s0 s : State} {a n : Nat} {sx : Bool} (h_1 : Keeps z s0) (h_2 : Keeps z s) :
    Keeps z (x.load s0 s a n sx) := by
  unfold X.load
  extract_lets x1
  clear_value x1
  split
  · apply X.localLoad_keeps
    · exact h_2
    · intro v2 h3
      dsimp only [id]
      exact h3
  · apply X.localLoad_keeps
    · exact h_2
    · intro v4 h5
      dsimp only [id]
      exact h5
  · apply X.localLoad_keeps
    · exact h_2
    · intro v6 h7
      dsimp only [id]
      exact h7
  · split
    · apply X.localLoad_keeps
      · exact h_2
      · intro v8 h9
        dsimp only [id]
        exact h9
    · exact h_1
  · split
    · exact X.wait_keeps (State.pdSend_keeps h_2)
    · exact X.fault_keeps h_2
  · split
    · split
      · split
        · extract_lets x10
          clear_value x10
          exact X.wait_keeps (State.enterOrder_keeps h_2)
        · exact h_1
      · extract_lets x11
        clear_value x11
        exact State.deliver_keeps (X.wait_keeps h_2)
    · exact X.fault_keeps h_2
  · split
    · exact X.wait_keeps (State.emit_keeps h_2)
    · exact X.fault_keeps h_2
  · exact X.fault_keeps h_2
  · exact X.fault_keeps h_2
  · exact X.fault_keeps h_2
  · exact X.fault_keeps h_2

theorem execLdx_keeps {z : State} {i : Issue} {s : State} (h_1 : Keeps z s) :
    KeepsRes z (execLdx i s) := by
  unfold execLdx
  refine KeepsRes.next ?_
  apply issueOf_keeps
  · intro v1 v2 h3
    apply X.withAddr_keeps
    · exact h3
    · intro v4
      apply X.load_keeps
      · exact h_1
      · exact h3
  · exact h_1

theorem X.localStore_keeps {z : State} {x : X} {s : State} {a n : Nat} {v : Word} {poison : Bool}
    {after : State → State} (h_1 : Keeps z s) (h_2 : ∀ (x : State), Keeps z x → Keeps z (after x)) :
    Keeps z (x.localStore s a n v poison after) := by
  unfold X.localStore
  split
  · apply X.fault_keeps
    refine Keeps.of_snd (by with_reducible assumption) ?_
    exact X.touch_keeps h_1
  · apply X.next_keeps
    refine Keeps.of_snd (by with_reducible assumption) ?_
    exact X.touch_keeps h_1
  · apply X.next_keeps
    apply h_2
    apply State.narrowWrite_keeps
    refine Keeps.of_snd (by with_reducible assumption) ?_
    exact X.touch_keeps h_1

theorem X.store_keeps {z : State} {x : X} {s0 s : State} {a n : Nat} {v : Word} {poison : Bool} (h_1 : Keeps z s0)
    (h_2 : Keeps z s) :
    Keeps z (x.store s0 s a n v poison) := by
  unfold X.store
  split
  · apply X.localStore_keeps
    · exact h_2
    · intro v1 h2
      dsimp only [id]
      exact h2
  · apply X.localStore_keeps
    · exact h_2
    · intro v3 h4
      dsimp only [id]
      exact h4
  · apply X.localStore_keeps
    · exact h_2
    · intro v5 h6
      dsimp only [id]
      exact h6
  · split
    · apply X.localStore_keeps
      · exact h_2
      · intro v7 h8
        dsimp only [id]
        exact h8
    · exact h_1
  · split
    · exact X.next_keeps (State.pdSend_keeps h_2)
    · exact X.fault_keeps h_2
  · split
    · split
      · split
        · extract_lets x9
          clear_value x9
          exact X.next_keeps (State.enterOrder_keeps h_2)
        · exact h_1
      · exact X.next_keeps (State.narrowWrite_keeps h_2)
    · exact X.fault_keeps h_2
  · split
    · extract_lets x10
      have hx10 : Keeps z x10 := by
        unfold x10
        exact State.emit_keeps h_2
      clear_value x10
      split
      · exact X.fault_keeps hx10
      · exact X.next_keeps hx10
    · exact X.fault_keeps h_2
  · exact X.fault_keeps h_2
  · exact X.fault_keeps h_2
  · exact X.fault_keeps h_2
  · exact X.fault_keeps h_2

theorem execSt_keeps {z : State} {i : Issue} {s : State} (h_1 : Keeps z s) :
    KeepsRes z (execSt i s) := by
  unfold execSt
  refine KeepsRes.next ?_
  apply issueOf_keeps
  · intro v1 v2 h3
    extract_lets x4
    clear_value x4
    apply X.withAddr_keeps
    · exact h3
    · intro v5
      apply X.store_keeps
      · exact h_1
      · exact h3
  · exact h_1

theorem execAfxaddD_keeps {z : State} {i : Issue} {s : State} (h_1 : Keeps z s) :
    KeepsRes z (execAfxaddD i s) := by
  unfold execAfxaddD
  refine KeepsRes.next ?_
  apply issueOf_keeps
  · intro v1 v2 h3
    exact X.atom_keeps h3
  · exact h_1

theorem execAaddW_keeps {z : State} {i : Issue} {s : State} (h_1 : Keeps z s) :
    KeepsRes z (execAaddW i s) := by
  unfold execAaddW
  refine KeepsRes.next ?_
  apply issueOf_keeps
  · intro v1 v2 h3
    exact X.atom_keeps h3
  · exact h_1

theorem execAfaddSR_keeps {z : State} {i : Issue} {s : State} (h_1 : Keeps z s) :
    KeepsRes z (execAfaddSR i s) := by
  unfold execAfaddSR
  refine KeepsRes.next ?_
  apply issueOf_keeps
  · intro v1 v2 h3
    exact X.atom_keeps h3
  · exact h_1

theorem execAaddWR_keeps {z : State} {i : Issue} {s : State} (h_1 : Keeps z s) :
    KeepsRes z (execAaddWR i s) := by
  unfold execAaddWR
  refine KeepsRes.next ?_
  apply issueOf_keeps
  · intro v1 v2 h3
    exact X.atom_keeps h3
  · exact h_1

theorem execAswapW_keeps {z : State} {i : Issue} {s : State} (h_1 : Keeps z s) :
    KeepsRes z (execAswapW i s) := by
  unfold execAswapW
  refine KeepsRes.next ?_
  apply issueOf_keeps
  · intro v1 v2 h3
    exact X.atom_keeps h3
  · exact h_1

theorem X.tagOnly_keeps {z : State} {x : X} {t : State} {write : Bool} {op : PdOp} {cm : State → Nat → State}
    (h_1 : Keeps z t) (h_2 : ∀ (x : State), Keeps z x → ∀ (x_2 : Nat), Keeps z (cm x x_2)) :
    Keeps z (x.tagOnly t write op cm) := by
  unfold X.tagOnly
  apply X.withAddr_keeps
  · exact h_1
  · intro v1
    split
    · split
      · exact X.fault_keeps h_1
      · apply h_2
        exact h_1
    · split
      · extract_lets x2
        have hx2 : Keeps z x2 := by
          unfold x2
          exact State.pdSend_keeps h_1
        clear_value x2
        split
        · exact X.next_keeps hx2
        · exact X.wait_keeps hx2
      · exact X.fault_keeps h_1
    · exact X.fault_keeps h_1

theorem execAaddDR_keeps {z : State} {i : Issue} {s : State} (h_1 : Keeps z s) :
    KeepsRes z (execAaddDR i s) := by
  unfold execAaddDR
  refine KeepsRes.next ?_
  apply issueOf_keeps
  · intro v1 v2 h3
    exact X.atom_keeps h3
  · exact h_1

theorem execAfxaddS_keeps {z : State} {i : Issue} {s : State} (h_1 : Keeps z s) :
    KeepsRes z (execAfxaddS i s) := by
  unfold execAfxaddS
  refine KeepsRes.next ?_
  apply issueOf_keeps
  · intro v1 v2 h3
    exact X.atom_keeps h3
  · exact h_1

theorem execStx_keeps {z : State} {i : Issue} {s : State} (h_1 : Keeps z s) :
    KeepsRes z (execStx i s) := by
  unfold execStx
  refine KeepsRes.next ?_
  apply issueOf_keeps
  · intro v1 v2 h3
    apply X.withAddr_keeps
    · exact h3
    · intro v4
      apply X.store_keeps
      · exact h_1
      · exact h3
  · exact h_1

theorem execAfaddS_keeps {z : State} {i : Issue} {s : State} (h_1 : Keeps z s) :
    KeepsRes z (execAfaddS i s) := by
  unfold execAfaddS
  refine KeepsRes.next ?_
  apply issueOf_keeps
  · intro v1 v2 h3
    exact X.atom_keeps h3
  · exact h_1

theorem execLd_keeps {z : State} {i : Issue} {s : State} (h_1 : Keeps z s) :
    KeepsRes z (execLd i s) := by
  unfold execLd
  refine KeepsRes.next ?_
  apply issueOf_keeps
  · intro v1 v2 h3
    extract_lets x4
    clear_value x4
    apply X.withAddr_keeps
    · exact h3
    · intro v5
      apply X.load_keeps
      · exact h_1
      · exact h3
  · exact h_1

theorem execTld_keeps {z : State} {i : Issue} {s : State} (h_1 : Keeps z s) :
    KeepsRes z (execTld i s) := by
  unfold execTld
  refine KeepsRes.next ?_
  apply issueOf_keeps
  · intro v1 v2 h3
    extract_lets x4 x5 x6
    clear_value x4
    clear_value x5
    clear_value x6
    apply X.withAddr_keeps
    · exact h3
    · intro v7
      extract_lets x8
      clear_value x8
      split
      · split
        · exact X.wait_keeps h3
        · apply X.localLoad_keeps
          · exact h3
          · intro v9 h10
            split
            · exact h10
            · exact State.putTag_keeps h10
      · split
        · exact X.wait_keeps (State.pdSend_keeps h3)
        · exact X.fault_keeps h3
      · exact X.fault_keeps h3
  · exact h_1

theorem execAswapD_keeps {z : State} {i : Issue} {s : State} (h_1 : Keeps z s) :
    KeepsRes z (execAswapD i s) := by
  unfold execAswapD
  refine KeepsRes.next ?_
  apply issueOf_keeps
  · intro v1 v2 h3
    exact X.atom_keeps h3
  · exact h_1

theorem execTset_keeps {z : State} {i : Issue} {s : State} (h_1 : Keeps z s) :
    KeepsRes z (execTset i s) := by
  unfold execTset
  refine KeepsRes.next ?_
  apply issueOf_keeps
  · intro v1 v2 h3
    apply X.tagOnly_keeps
    · exact h3
    · intro v4 h5 v6
      exact X.next_keeps (State.putTag_keeps h5)
  · exact h_1

theorem execTclr_keeps {z : State} {i : Issue} {s : State} (h_1 : Keeps z s) :
    KeepsRes z (execTclr i s) := by
  unfold execTclr
  refine KeepsRes.next ?_
  apply issueOf_keeps
  · intro v1 v2 h3
    apply X.tagOnly_keeps
    · exact h3
    · intro v4 h5 v6
      exact X.next_keeps (State.putTag_keeps h5)
  · exact h_1

theorem execTst_keeps {z : State} {i : Issue} {s : State} (h_1 : Keeps z s) :
    KeepsRes z (execTst i s) := by
  unfold execTst
  refine KeepsRes.next ?_
  apply issueOf_keeps
  · intro v1 v2 h3
    extract_lets x4
    clear_value x4
    apply X.withAddr_keeps
    · exact h3
    · intro v5
      extract_lets x6
      clear_value x6
      split
      · split
        · exact X.wait_keeps h3
        · apply X.localStore_keeps
          · exact h3
          · intro v7 h8
            exact State.putTag_keeps h8
      · split
        · exact X.wait_keeps (State.pdSend_keeps h3)
        · exact X.fault_keeps h3
      · exact X.fault_keeps h3
  · exact h_1

theorem execTprobe_keeps {z : State} {i : Issue} {s : State} (h_1 : Keeps z s) :
    KeepsRes z (execTprobe i s) := by
  unfold execTprobe
  refine KeepsRes.next ?_
  apply issueOf_keeps
  · intro v1 v2 h3
    apply X.tagOnly_keeps
    · exact h3
    · intro v4 h5 v6
      exact X.ret_keeps h5
  · exact h_1

end Sys2Proof.Machine
end

