-- ==== Sys2Proof/Laws/KeepsHitchStore.lean ====
section
/-! SUPPORT. What each operation of Machine/HitchStore.lean keeps (Laws/Keeps.lean): one lemma per operation that answers a
state. -/

namespace Sys2Proof.Machine

open Sys2Proof

theorem HReq.join_keeps {z : State} {r : HReq} {s : State} {b gen : Nat} (h_1 : Keeps z s) :
    Keeps z (r.join s b gen) := by
  unfold HReq.join
  split
  · exact State.updCtx_keeps h_1
  · exact State.updCore_keeps h_1

theorem State.broadcast_keeps {z s : State} {i : Nat} {v : Word} (h_1 : Keeps z s) :
    Keeps z (s.broadcast i v) := by
  unfold State.broadcast
  refine Keeps.foldl ?_ ?_
  · exact h_1
  · intro v1 v2 h3
    split
    · exact State.updCore_keeps h3
    · exact h3

theorem State.setHs_keeps {z s : State} {h : HitchStore} (h_1 : Keeps z s) :
    Keeps z (s.setHs h) := by
  unfold State.setHs
  refine Keeps.upd (u := s) ?_ rfl rfl rfl rfl rfl rfl rfl rfl
  exact h_1

theorem State.hitchWrite_keeps {z s : State} {i : Nat} {v : Word} (h_1 : Keeps z s) :
    Keeps z (s.hitchWrite i v) := by
  unfold State.hitchWrite
  exact State.broadcast_keeps (State.setHs_keeps h_1)

theorem HReq.fault_keeps {z : State} {r : HReq} {s : State} {code : FaultCode} {detail : Nat} (h_1 : Keeps z s) :
    Keeps z (r.fault s code detail) := by
  unfold HReq.fault
  exact State.taskFault_keeps h_1

theorem State.countAborted_keeps {z s : State} {st : Nat} (h_1 : Keeps z s) :
    Keeps z (s.countAborted st) := by
  unfold State.countAborted
  exact State.addF_keeps h_1

theorem State.hitchQueued_keeps {z s : State} {r : HReq} (h_1 : Keeps z s) :
    Keeps z (s.hitchQueued r) := by
  unfold State.hitchQueued
  extract_lets x1
  clear_value x1
  exact State.setHs_keeps h_1

theorem State.popQueue_keeps {z s : State} {core e : Nat} (h_1 : Keeps z s) :
    Keeps z (s.popQueue core e) := by
  unfold State.popQueue
  exact State.updCore_keeps h_1

theorem HReq.finish_keeps {z : State} {r : HReq} {s : State} {v : Word} (h_1 : Keeps z s) :
    Keeps z (r.finish s v) := by
  unfold HReq.finish
  split
  · exact State.deliver_keeps h_1
  · exact State.popQueue_keeps h_1

theorem HReq.await_keeps {z : State} {r : HReq} {s : State} {b gen : Nat} (h_1 : Keeps z s) :
    Keeps z (r.await s b gen) := by
  unfold HReq.await
  split
  · exact State.updCtx_keeps h_1
  · extract_lets x1
    clear_value x1
    exact State.updCore_keeps h_1

theorem State.hitchDo_keeps {z s : State} {r : HReq} (h_1 : Keeps z s) :
    Keeps z (s.hitchDo r) := by
  unfold State.hitchDo
  extract_lets x1 x2 x3 x4 x5 x6 x7 x8
  clear_value x1
  clear_value x2
  clear_value x3
  have hx4 : ∀ (s : State), Keeps z s → ∀ (v : Word), Keeps z (x4 s v) := by
    intro v9 h10 v11
    unfold x4
    exact State.deliver_keeps h10
  clear_value x4
  clear_value x5
  clear_value x6
  have hx7 : Keeps z x7 := by
    unfold x7
    split
    · exact State.setCtx_keeps h_1
    · exact h_1
  clear_value x7
  clear_value x8
  split
  · exact State.hitchWrite_keeps h_1
  · split
    · exact HReq.fault_keeps h_1
    · apply hx4
      exact h_1
  · split
    · exact HReq.fault_keeps h_1
    · split
      · exact HReq.fault_keeps h_1
      · extract_lets x12
        have hx12 : Keeps z x12 := by
          unfold x12
          exact State.hitchWrite_keeps h_1
        clear_value x12
        split
        · apply hx4
          exact hx12
        · exact hx12
  · split
    · exact HReq.fault_keeps h_1
    · split
      · exact HReq.fault_keeps (State.countAborted_keeps h_1)
      · split
        · apply hx4
          exact h_1
        · exact State.updCtx_keeps h_1
  · split
    · exact HReq.fault_keeps h_1
    · split
      · exact HReq.fault_keeps (State.countAborted_keeps h_1)
      · apply hx4
        exact hx7
  · split
    · exact HReq.fault_keeps h_1
    · split
      · exact HReq.fault_keeps h_1
      · split
        · exact HReq.fault_keeps h_1
        · extract_lets x13 x14 x15
          clear_value x13
          have hx14 : Keeps z x14 := by
            unfold x14
            exact HReq.join_keeps (State.hitchWrite_keeps h_1)
          clear_value x14
          have hx15 : Keeps z x15 := by
            unfold x15
            split
            · exact State.trace_keeps hx14
            · exact hx14
          clear_value x15
          split
          · exact State.hitchQueued_keeps hx15
          · exact HReq.finish_keeps hx15
  · split
    · exact HReq.fault_keeps h_1
    · split
      · exact HReq.fault_keeps h_1
      · split
        · exact HReq.fault_keeps (State.countAborted_keeps h_1)
        · split
          · exact HReq.finish_keeps h_1
          · exact HReq.await_keeps h_1
  · exact h_1

theorem BarStart.fault_keeps {z : State} {b : BarStart} {s : State} {code : FaultCode} (h_1 : Keeps z s) :
    Keeps z (b.fault s code) := by
  unfold BarStart.fault
  exact State.taskFault_keeps h_1

theorem State.hitchSend_keeps {z s : State} {r : HReq} (h_1 : Keeps z s) :
    Keeps z (s.hitchSend r) := by
  unfold State.hitchSend
  exact State.perf_keeps (State.hitchQueued_keeps h_1)

theorem BarStart.go_keeps {z : State} {b : BarStart} {s : State} {pre : State → State} {op : Nat → Option HOp}
    (h_1 : Keeps z s) (h_2 : ∀ (x : State), Keeps z x → Keeps z (pre x)) :
    Keeps z (b.go s pre op) := by
  unfold BarStart.go
  extract_lets x1 x2 x3 x4
  clear_value x1
  clear_value x2
  clear_value x3
  clear_value x4
  split
  · exact BarStart.fault_keeps h_1
  · split
    · exact BarStart.fault_keeps h_1
    · split
      · exact BarStart.fault_keeps h_1
      · apply State.hitchSend_keeps
        apply h_2
        exact State.inHitchSet_keeps h_1

theorem State.beginHead_keeps {z s : State} {core e : Nat} (h_1 : Keeps z s) :
    Keeps z (s.beginHead core e) := by
  unfold State.beginHead
  exact State.updCore_keeps h_1

theorem barrier_keeps {z : State} {i : Issue} {eng : Nat} {o : Op} {op : Option (Nat × Nat) → Nat → Option HOp}
    {quiet : Bool} {s : State} (h_1 : Keeps z s) :
    Keeps z (barrier i eng o op quiet s) := by
  unfold barrier
  split
  · apply issueOf_keeps
    · intro v1 v2 h3
      split
      · exact h_1
      · extract_lets x4
        clear_value x4
        apply BarStart.go_keeps
        · exact h3
        · intro v5 h6
          exact X.wait_keeps h6
    · exact h_1
  · split
    · split
      · exact h_1
      · extract_lets x7
        clear_value x7
        apply BarStart.go_keeps
        · exact h_1
        · intro v8 h9
          exact State.beginHead_keeps h9
    · exact h_1

theorem execBarArrive_keeps {z : State} {i : Issue} {eng : Nat} {s : State} (h_1 : Keeps z s) :
    KeepsRes z (execBarArrive i eng s) := by
  unfold execBarArrive
  refine KeepsRes.next ?_
  exact barrier_keeps h_1

theorem State.setHitchQueue_keeps {z s : State} {b : Nat} {l : List HReq} (h_1 : Keeps z s) :
    Keeps z (s.setHitchQueue b l) := by
  unfold State.setHitchQueue
  exact State.setHs_keeps h_1

theorem State.hitchBankStep_keeps {z s : State} {b : Nat} (h_1 : Keeps z s) :
    Keeps z (s.hitchBankStep b) := by
  unfold State.hitchBankStep
  split
  · exact h_1
  · exact State.hitchDo_keeps (State.setHitchQueue_keeps h_1)

theorem State.hitchBankDrain_keeps {z s : State} {b a2 : Nat} (h_1 : Keeps z s) :
    Keeps z (s.hitchBankDrain b a2) := by
  induction a2 generalizing s b with
  | zero =>
    unfold State.hitchBankDrain
    exact h_1
  | succ w2 ih =>
    unfold State.hitchBankDrain
    exact ih (State.hitchBankStep_keeps h_1)

theorem State.hitchPoke_keeps {z s : State} {i : Nat} {f : Word → Word} (h_1 : Keeps z s) :
    Keeps z (s.hitchPoke i f) := by
  unfold State.hitchPoke
  extract_lets x1
  have hx1 : Keeps z x1 := by
    unfold x1
    exact State.hitchBankDrain_keeps h_1
  clear_value x1
  exact State.hitchWrite_keeps hx1

theorem State.waiterFault_keeps {z s : State} {core unit ctx : Nat} {code : FaultCode} {idx detail : Nat}
    (h_1 : Keeps z s) :
    Keeps z (s.waiterFault core unit ctx code idx detail) := by
  unfold State.waiterFault
  split
  · exact h_1
  · extract_lets x1 x2
    clear_value x1
    clear_value x2
    exact State.taskFault_keeps h_1

theorem execHitchTimeout_keeps {z : State} {core unit ctx : Nat} {s : State} (h_1 : Keeps z s) :
    KeepsRes z (execHitchTimeout core unit ctx s) := by
  unfold execHitchTimeout
  refine KeepsRes.next ?_
  split
  · exact h_1
  · split
    · exact h_1
    · extract_lets x1 x2 x3
      clear_value x1
      have hx2 : ∀ (since idx : Nat) (cond seen : Word), Keeps z (x2 since idx cond seen) := by
        intro v4 v5 v6 v7
        unfold x2
        exact State.waiterFault_keeps (State.addF_keeps (State.notBefore_keeps h_1))
      clear_value x2
      clear_value x3
      split
      · split
        · exact h_1
        · split
          · apply hx2
          · apply hx2
          · apply hx2
          · exact h_1
      · split
        · split
          · exact h_1
          · apply hx2
        · exact h_1

theorem execHmwait_keeps {z : State} {i : Issue} {s : State} (h_1 : Keeps z s) :
    KeepsRes z (execHmwait i s) := by
  unfold execHmwait
  refine KeepsRes.next ?_
  apply issueOf_keeps
  · intro v1 v2 h3
    split
    · exact X.fault_keeps h3
    · split
      · exact X.next_keeps h3
      · exact X.wait_keeps h3
  · exact h_1

theorem State.spinSees_keeps {z s : State} {core st i : Nat} {v : Word} {e : Nat} (h_1 : Keeps z s) :
    Keeps z (s.spinSees core st i v e) := by
  unfold State.spinSees
  split
  · exact h_1
  · split
    · exact h_1
    · split
      · extract_lets x1
        clear_value x1
        exact State.waiterFault_keeps (State.countAborted_keeps h_1)
      · split
        · exact State.updCore_keeps h_1
        · exact h_1

theorem State.portPop_keeps {z s : State} {core : Nat} (h_1 : Keeps z s) :
    Keeps z (s.portPop core) := by
  unfold State.portPop
  extract_lets x1
  clear_value x1
  exact State.setHs_keeps h_1

theorem X.hitchAt_keeps {z : State} {x : X} {s : State} {operand far : Bool} {go : Nat → State}
    {remote : Nat → Nat → State} (h_1 : Keeps z s) (h_2 : ∀ (x : Nat), Keeps z (go x))
    (h_3 : ∀ (x x_1 : Nat), Keeps z (remote x x_1)) :
    Keeps z (x.hitchAt s operand far go remote) := by
  unfold X.hitchAt
  split
  · exact X.fault_keeps h_1
  · split
    · exact X.fault_keeps h_1
    · split
      · exact X.fault_keeps h_1
      · extract_lets x1 x2 x3
        clear_value x1
        clear_value x2
        clear_value x3
        split
        · split
          · apply h_2
          · exact X.fault_keeps h_1
        · split
          · exact X.fault_keeps h_1
          · split
            · exact X.fault_keeps h_1
            · apply h_3
        · exact X.fault_keeps h_1

theorem X.hitchRet_keeps {z : State} {x : X} {s : State} {operand : Bool} {op : HOp} (h_1 : Keeps z s) :
    Keeps z (x.hitchRet s operand op) := by
  unfold X.hitchRet
  apply X.hitchAt_keeps
  · exact h_1
  · intro v1
    exact State.hitchSend_keeps (X.wait_keeps (State.inHitchSet_keeps h_1))
  · intro v2 v3
    exact h_1

theorem State.sendHitch_keeps {z s : State} {r : HReq} {chip : Nat} {add : Bool} {v : Word} (h_1 : Keeps z s) :
    Keeps z (s.sendHitch r chip add v) := by
  unfold State.sendHitch
  exact State.sendPacket_keeps h_1

theorem State.deliverPort_keeps {z s : State} {b q : Nat} (h_1 : Keeps z s) :
    Keeps z (s.deliverPort b q) := by
  unfold State.deliverPort
  split
  · exact h_1
  · split
    · exact h_1
    · split
      · exact State.sendHitch_keeps (State.portPop_keeps h_1)
      · split
        · extract_lets x1
          have hx1 : Keeps z x1 := by
            unfold x1
            exact State.portPop_keeps h_1
          clear_value x1
          exact State.setHitchQueue_keeps hx1
        · exact h_1

theorem execBarWait_keeps {z : State} {i : Issue} {eng : Nat} {s : State} (h_1 : Keeps z s) :
    KeepsRes z (execBarWait i eng s) := by
  unfold execBarWait
  refine KeepsRes.next ?_
  exact barrier_keeps h_1

theorem execHadd_keeps {z : State} {i : Issue} {s : State} (h_1 : Keeps z s) :
    KeepsRes z (execHadd i s) := by
  unfold execHadd
  refine KeepsRes.next ?_
  apply issueOf_keeps
  · intro v1 v2 h3
    exact X.hitchRet_keeps h3
  · exact h_1

theorem execHmon_keeps {z : State} {i : Issue} {s : State} (h_1 : Keeps z s) :
    KeepsRes z (execHmon i s) := by
  unfold execHmon
  refine KeepsRes.next ?_
  apply issueOf_keeps
  · intro v1 v2 h3
    apply X.hitchAt_keeps
    · exact h3
    · intro v4
      split
      · exact X.fault_keeps h3
      · exact State.hitchSend_keeps (X.wait_keeps (State.inHitchSet_keeps h3))
    · intro v5 v6
      exact h3
  · exact h_1

theorem execHmclr_keeps {z : State} {i : Issue} {s : State} (h_1 : Keeps z s) :
    KeepsRes z (execHmclr i s) := by
  unfold execHmclr
  refine KeepsRes.next ?_
  apply issueOf_keeps
  · intro v1 v2 h3
    exact X.next_keeps h3
  · exact h_1

theorem X.hitchGo_keeps {z : State} {x : X} {s : State} {op : HOp} {add : Bool} (h_1 : Keeps z s) :
    Keeps z (x.hitchGo s op add) := by
  unfold X.hitchGo
  apply X.hitchAt_keeps
  · exact h_1
  · intro v1
    exact State.hitchSend_keeps (X.next_keeps (State.inHitchSet_keeps h_1))
  · intro v2 v3
    exact State.hitchSend_keeps (X.next_keeps h_1)

theorem State.ctxSees_keeps {z s : State} {core st i : Nat} {v : Word} {x : Nat} (h_1 : Keeps z s) :
    Keeps z (s.ctxSees core st i v x) := by
  unfold State.ctxSees
  extract_lets x1 x2 x3 x4
  clear_value x1
  clear_value x2
  clear_value x3
  clear_value x4
  split
  · apply State.waiterFault_keeps
    split
    · exact State.countAborted_keeps h_1
    · exact h_1
  · exact State.setCtx_keeps h_1

theorem execHitchReleaseSeen_keeps {z : State} {core : Nat} {s : State} (h_1 : Keeps z s) :
    KeepsRes z (execHitchReleaseSeen core s) := by
  unfold execHitchReleaseSeen
  refine KeepsRes.next ?_
  split
  · exact h_1
  · extract_lets x1
    have hx1 : Keeps z x1 := by
      unfold x1
      exact State.updCore_keeps h_1
    clear_value x1
    split
    · exact hx1
    · split
      · exact hx1
      · extract_lets x2
        have hx2 : Keeps z x2 := by
          unfold x2
          refine Keeps.foldl ?_ ?_
          · exact hx1
          · intro v3 v4 h5
            exact State.ctxSees_keeps h5
        clear_value x2
        refine Keeps.foldl ?_ ?_
        · exact hx2
        · intro v6 v7 h8
          exact State.spinSees_keeps h8

theorem execBarSync_keeps {z : State} {i : Issue} {eng : Nat} {s : State} (h_1 : Keeps z s) :
    KeepsRes z (execBarSync i eng s) := by
  unfold execBarSync
  refine KeepsRes.next ?_
  exact barrier_keeps h_1

theorem execHitchBankAccess_keeps {z : State} {bank : Nat} {s : State} (h_1 : Keeps z s) :
    KeepsRes z (execHitchBankAccess bank s) := by
  unfold execHitchBankAccess
  extract_lets x1
  clear_value x1
  refine KeepsRes.next ?_
  apply State.hitchBankStep_keeps
  refine Keeps.foldl ?_ ?_
  · exact h_1
  · intro v2 v3 h4
    exact State.deliverPort_keeps h4

theorem State.hitchForceAct_keeps {z : State} {w : Written} {s : State} (h_1 : Keeps z s) :
    Keeps z (State.hitchForceAct w s) := by
  unfold State.hitchForceAct
  split
  · exact h_1
  · extract_lets x1 x2 x3 x4
    clear_value x1
    have hx2 : Keeps z x2 := by
      unfold x2
      exact State.hitchBankDrain_keeps h_1
    clear_value x2
    clear_value x3
    clear_value x4
    exact State.logFault_keeps (State.hitchWrite_keeps hx2)

theorem execHitchForce_keeps {z : State} {req : Nat} {val : Word} {s : State} (h_1 : Keeps z s) :
    KeepsRes z (execHitchForce req val s) := by
  unfold execHitchForce
  refine KeepsRes.next ?_
  apply State.regWrite_keeps
  · exact h_1
  · intro v1 v2 h3
    exact State.hitchForceAct_keeps h3

theorem execHwaitGe_keeps {z : State} {i : Issue} {s : State} (h_1 : Keeps z s) :
    KeepsRes z (execHwaitGe i s) := by
  unfold execHwaitGe
  refine KeepsRes.next ?_
  apply issueOf_keeps
  · intro v1 v2 h3
    exact X.hitchRet_keeps h3
  · exact h_1

theorem execHwaitNe_keeps {z : State} {i : Issue} {s : State} (h_1 : Keeps z s) :
    KeepsRes z (execHwaitNe i s) := by
  unfold execHwaitNe
  refine KeepsRes.next ?_
  apply issueOf_keeps
  · intro v1 v2 h3
    exact X.hitchRet_keeps h3
  · exact h_1

theorem execHrd_keeps {z : State} {i : Issue} {s : State} (h_1 : Keeps z s) :
    KeepsRes z (execHrd i s) := by
  unfold execHrd
  refine KeepsRes.next ?_
  apply issueOf_keeps
  · intro v1 v2 h3
    exact X.hitchRet_keeps h3
  · exact h_1

theorem execHwr_keeps {z : State} {i : Issue} {s : State} (h_1 : Keeps z s) :
    KeepsRes z (execHwr i s) := by
  unfold execHwr
  refine KeepsRes.next ?_
  apply issueOf_keeps
  · intro v1 v2 h3
    exact X.hitchGo_keeps h3
  · exact h_1

theorem execHwaitEq_keeps {z : State} {i : Issue} {s : State} (h_1 : Keeps z s) :
    KeepsRes z (execHwaitEq i s) := by
  unfold execHwaitEq
  refine KeepsRes.next ?_
  apply issueOf_keeps
  · intro v1 v2 h3
    exact X.hitchRet_keeps h3
  · exact h_1

theorem execBarrierWake_keeps {z : State} {core unit ctx : Nat} {s : State} (h_1 : Keeps z s) :
    KeepsRes z (execBarrierWake core unit ctx s) := by
  unfold execBarrierWake
  refine KeepsRes.next ?_
  extract_lets x1
  clear_value x1
  split
  · split
    · exact State.complete_keeps h_1
    · exact h_1
  · split
    · split
      · exact State.popQueue_keeps (State.updCore_keeps h_1)
      · exact h_1
    · exact h_1

theorem execHaddn_keeps {z : State} {i : Issue} {s : State} (h_1 : Keeps z s) :
    KeepsRes z (execHaddn i s) := by
  unfold execHaddn
  refine KeepsRes.next ?_
  apply issueOf_keeps
  · intro v1 v2 h3
    exact X.hitchGo_keeps h3
  · exact h_1

end Sys2Proof.Machine
end

