-- ==== Sys2Proof/Laws/KeepsRingExec.lean ====
section
/-! SUPPORT. What each operation of Machine/RingExec.lean keeps (Laws/Keeps.lean): one lemma per operation that answers a
state. -/

namespace Sys2Proof.Machine

open Sys2Proof

theorem X.fillRing_keeps {z : State} {x : X} {s : State} {r k : Nat} {v : Word} {poison : Bool}
    {done : State → State} (h_1 : Keeps z s) (h_2 : ∀ (x : State), Keeps z x → Keeps z (done x)) :
    Keeps z (x.fillRing s r k v poison done) := by
  unfold X.fillRing
  split
  · exact X.fault_keeps h_1
  · extract_lets x1 x2 x3
    clear_value x1
    clear_value x2
    clear_value x3
    split
    · apply h_2
      exact State.pdSend_keeps h_1
    · split
      · apply h_2
        exact State.inject_keeps h_1
      · extract_lets x4
        clear_value x4
        split
        · exact X.wait_keeps h_1
        · split
          · apply X.fault_keeps
            refine Keeps.of_snd (by with_reducible assumption) ?_
            exact X.touch_keeps h_1
          · apply h_2
            refine Keeps.of_snd (by with_reducible assumption) ?_
            exact X.touch_keeps h_1
          · apply h_2
            apply State.spendCredit_keeps
            apply State.putTag_keeps
            apply State.narrowWrite_keeps
            refine Keeps.of_snd (by with_reducible assumption) ?_
            exact X.touch_keeps h_1

theorem Stream.fault_keeps {z : State} {t : Stream} {s : State} {core : Nat} {code : FaultCode} {addr detail : Nat}
    (h_1 : Keeps z s) :
    Keeps z (t.fault s core code addr detail) := by
  unfold Stream.fault
  split
  · exact State.taskFault_keeps h_1
  · exact h_1

theorem State.dropResv_keeps {z s : State} {i : Nat} {who : RWho} (h_1 : Keeps z s) :
    Keeps z (s.dropResv i who) := by
  unfold State.dropResv
  extract_lets x1
  clear_value x1
  exact State.setRing_keeps h_1

theorem execCreditTimeout_keeps {z : State} {core unit ctx : Nat} {s : State} (h_1 : Keeps z s) :
    KeepsRes z (execCreditTimeout core unit ctx s) := by
  unfold execCreditTimeout
  refine KeepsRes.next ?_
  split
  · exact h_1
  · split
    · exact h_1
    · extract_lets x1 x2
      clear_value x1
      clear_value x2
      split
      · split
        · extract_lets x3
          have hx3 : Keeps z x3 := by
            unfold x3
            exact State.dropResv_keeps (State.notBefore_keeps h_1)
          clear_value x3
          exact State.taskFault_keeps hx3
        · exact h_1
      · split
        · extract_lets x4 x5
          have hx4 : Keeps z x4 := by
            unfold x4
            exact State.notBefore_keeps h_1
          clear_value x4
          have hx5 : Keeps z x5 := by
            unfold x5
            split
            · exact State.dropResv_keeps hx4
            · exact hx4
          clear_value x5
          exact Stream.fault_keeps hx5
        · exact h_1

theorem X.ringAt_keeps {z : State} {x : X} {s : State} {poison far : Bool} {go : Nat → State}
    {remote : Nat → Word → State} (h_1 : Keeps z s) (h_2 : ∀ (x : Nat), Keeps z (go x)) (h_3 : ∀ (x : Nat)
    (x_1 : Word), Keeps z (remote x x_1)) :
    Keeps z (x.ringAt s poison far go remote) := by
  unfold X.ringAt
  split
  · exact X.fault_keeps h_1
  · split
    · exact X.fault_keeps h_1
    · exact X.fault_keeps h_1
    · split
      · apply h_2
      · exact X.fault_keeps h_1
    · split
      · exact X.fault_keeps h_1
      · split
        · exact X.fault_keeps h_1
        · apply h_3

theorem State.granted_keeps {z s : State} {w : RWait} {i first : Nat} (h_1 : Keeps z s) :
    Keeps z (s.granted w i first) := by
  unfold State.granted
  split
  · exact State.updCtx_keeps h_1
  · exact State.updCore_keeps h_1
  · exact State.sendPacket_keeps h_1

theorem State.grantNext_keeps {z s : State} {i : Nat} (h_1 : Keeps z s) :
    Keeps z (s.grantNext i) := by
  unfold State.grantNext
  extract_lets x1 x2
  clear_value x1
  clear_value x2
  split
  · exact h_1
  · split
    · exact h_1
    · extract_lets x3
      clear_value x3
      exact State.granted_keeps (State.grantCredits_keeps (State.setRing_keeps h_1))

theorem execRingResvGrant_keeps {z : State} {ring : Nat} {s : State} (h_1 : Keeps z s) :
    KeepsRes z (execRingResvGrant ring s) := by
  unfold execRingResvGrant
  refine KeepsRes.next ?_
  exact State.grantNext_keeps h_1

theorem State.waitResv_keeps {z s : State} {i n : Nat} {who : RWho} {task : Option Nat} (h_1 : Keeps z s) :
    Keeps z (s.waitResv i n who task) := by
  unfold State.waitResv
  extract_lets x1
  clear_value x1
  exact State.addF_keeps (State.setRing_keeps h_1)

theorem X.askRemote_keeps {z : State} {x : X} {s : State} {chip : Nat} {ref : Word} {n : Nat} (h_1 : Keeps z s) :
    Keeps z (x.askRemote s chip ref n) := by
  unfold X.askRemote
  extract_lets x1 x2 x3
  clear_value x1
  clear_value x2
  have hx3 : Keeps z x3 := by
    unfold x3
    exact State.notedRemote_keeps h_1
  clear_value x3
  exact State.sendTagged_keeps (X.wait_keeps hx3)

theorem X.fillRemote_keeps {z : State} {x : X} {s : State} {chip : Nat} {ref : Word} {k : Nat} {v : Word}
    {poison : Bool} {done : State → State} (h_1 : Keeps z s) (h_2 : ∀ (x : State), Keeps z x → Keeps z (done x)) :
    Keeps z (x.fillRemote s chip ref k v poison done) := by
  unfold X.fillRemote
  extract_lets x1 x2
  clear_value x1
  clear_value x2
  apply h_2
  exact State.sendTagged_keeps h_1

theorem execRingFill_keeps {z : State} {i : Issue} {s : State} (h_1 : Keeps z s) :
    KeepsRes z (execRingFill i s) := by
  unfold execRingFill
  refine KeepsRes.next ?_
  apply issueOf_keeps
  · intro v1 v2 h3
    extract_lets x4
    clear_value x4
    apply X.ringAt_keeps
    · exact h3
    · intro v5
      apply X.fillRing_keeps
      · exact h3
      · intro v6 h7
        exact X.next_keeps h7
    · intro v8 v9
      split
      · exact h_1
      · split
        · exact X.fault_keeps h3
        · apply X.fillRemote_keeps
          · exact h3
          · intro v10 h11
            exact X.next_keeps h11
  · exact h_1

theorem State.dropPop_keeps {z s : State} {i core ctx : Nat} (h_1 : Keeps z s) :
    Keeps z (s.dropPop i core ctx) := by
  unfold State.dropPop
  extract_lets x1
  clear_value x1
  exact State.setRing_keeps h_1

theorem X.farRet_keeps {z : State} {x : X} {s : State} {v : Word} {poison : Bool} (h_1 : Keeps z s) :
    Keeps z (x.farRet s v poison) := by
  unfold X.farRet
  exact State.deliver_keeps (X.wait_keeps h_1)

theorem execRingState_keeps {z : State} {i : Issue} {s : State} (h_1 : Keeps z s) :
    KeepsRes z (execRingState i s) := by
  unfold execRingState
  refine KeepsRes.next ?_
  apply issueOf_keeps
  · intro v1 v2 h3
    apply X.ringAt_keeps
    · exact h3
    · intro v4
      extract_lets x5
      clear_value x5
      split
      · exact X.ret_keeps h3
      · exact X.farRet_keeps h3
    · intro v6 v7
      exact h3
  · exact h_1

theorem execRingPeek_keeps {z : State} {i : Issue} {s : State} (h_1 : Keeps z s) :
    KeepsRes z (execRingPeek i s) := by
  unfold execRingPeek
  refine KeepsRes.next ?_
  apply issueOf_keeps
  · intro v1 v2 h3
    extract_lets x4
    clear_value x4
    apply X.ringAt_keeps
    · exact h3
    · intro v5
      extract_lets x6 x7
      clear_value x6
      clear_value x7
      split
      · exact X.wait_keeps (State.pdSend_keeps h3)
      · split
        · exact X.wait_keeps (State.inject_keeps h3)
        · split
          · apply X.localLoad_keeps
            · exact h3
            · intro v8 h9
              dsimp only [id]
              exact h9
          · exact X.wait_keeps h3
    · intro v10 v11
      exact h3
  · exact h_1

theorem State.removePd_keeps {z s : State} {p : PdReq → Bool} (h_1 : Keeps z s) :
    Keeps z (s.removePd p) := by
  unfold State.removePd
  extract_lets x1 x2 x3 x4
  clear_value x1
  clear_value x2
  clear_value x3
  clear_value x4
  refine Keeps.upd (u := s) ?_ rfl rfl rfl rfl rfl rfl rfl rfl
  exact h_1

theorem execRingResv_keeps {z : State} {i : Issue} {s : State} (h_1 : Keeps z s) :
    KeepsRes z (execRingResv i s) := by
  unfold execRingResv
  refine KeepsRes.next ?_
  apply issueOf_keeps
  · intro v1 v2 h3
    extract_lets x4
    clear_value x4
    apply X.ringAt_keeps
    · exact h3
    · intro v5
      split
      · extract_lets x6 x7
        clear_value x6
        have hx7 : Keeps z x7 := by
          unfold x7
          exact State.grantCredits_keeps h3
        clear_value x7
        split
        · exact X.ret_keeps hx7
        · exact X.farRet_keeps hx7
      · exact State.waitResv_keeps (X.wait_keeps h3)
    · intro v8 v9
      split
      · exact h_1
      · exact X.askRemote_keeps h3
  · exact h_1

theorem execRingPush_keeps {z : State} {i : Issue} {s : State} (h_1 : Keeps z s) :
    KeepsRes z (execRingPush i s) := by
  unfold execRingPush
  refine KeepsRes.next ?_
  apply issueOf_keeps
  · intro v1 v2 h3
    extract_lets x4
    have hx4 : ∀ (k : Nat) (far : Bool) (t : State), Keeps z t → Keeps z (x4 k far t) := by
      intro v5 v6 v7 h8
      unfold x4
      extract_lets x9
      have hx9 : Keeps z x9 := by
        unfold x9
        exact State.updCtx_keeps h8
      clear_value x9
      split
      · exact X.farRet_keeps hx9
      · exact X.ret_keeps hx9
    clear_value x4
    apply X.ringAt_keeps
    · exact h3
    · intro v10
      split
      · apply X.fillRing_keeps
        · exact h3
        · intro v11 h12
          apply hx4
          exact h12
      · split
        · extract_lets x13 x14 x15
          clear_value x13
          have hx14 : Keeps z x14 := by
            unfold x14
            exact State.grantCredits_keeps h3
          clear_value x14
          have hx15 : Keeps z x15 := by
            unfold x15
            exact State.updCtx_keeps hx14
          clear_value x15
          apply X.fillRing_keeps
          · exact hx15
          · intro v16 h17
            apply hx4
            exact h17
        · exact State.waitResv_keeps (X.wait_keeps h3)
    · intro v18 v19
      split
      · exact h_1
      · split
        · apply X.fillRemote_keeps
          · exact h3
          · intro v20 h21
            apply hx4
            exact h21
        · exact X.askRemote_keeps h3
  · exact h_1

theorem State.addPop_keeps {z s : State} {i : Nat} {p : RPop} (h_1 : Keeps z s) :
    Keeps z (s.addPop i p) := by
  unfold State.addPop
  extract_lets x1
  clear_value x1
  split
  · exact h_1
  · exact State.setRing_keeps h_1

theorem execRingPop_keeps {z : State} {i : Issue} {s : State} (h_1 : Keeps z s) :
    KeepsRes z (execRingPop i s) := by
  unfold execRingPop
  refine KeepsRes.next ?_
  apply issueOf_keeps
  · intro v1 v2 h3
    apply X.ringAt_keeps
    · exact h3
    · intro v4
      extract_lets x5 x6 x7
      clear_value x5
      have hx6 : ∀ (t : State), Keeps z t → Keeps z (x6 t) := by
        intro v8 h9
        unfold x6
        exact X.wait_keeps h9
      clear_value x6
      clear_value x7
      split
      · apply hx6
        exact State.startPop_keeps (State.addPop_keeps h3)
      · split
        · apply hx6
          exact State.inject_keeps (State.addPop_keeps h3)
        · split
          · apply X.localLoad_keeps
            · exact State.dropPop_keeps h3
            · intro v10 h11
              exact State.advanceHead_keeps (State.putTag_keeps h11)
          · apply hx6
            exact State.addPop_keeps h3
    · intro v12 v13
      exact h3
  · exact h_1

theorem State.ctxTagTimeout_keeps {z s : State} {t : Task} {core ctx : Nat} (h_1 : Keeps z s) :
    Keeps z (s.ctxTagTimeout t core ctx) := by
  unfold State.ctxTagTimeout
  extract_lets x1 x2 x3 x4
  clear_value x1
  clear_value x2
  have hx3 : ∀ (s : State), Keeps z s → ∀ (key : Nat), Keeps z (x3 s key) := by
    intro v5 h6 v7
    unfold x3
    exact State.taskFault_keeps h6
  clear_value x3
  clear_value x4
  split
  · exact h_1
  · split
    · apply hx3
      exact State.notBefore_keeps h_1
    · apply hx3
      exact State.dropPop_keeps (State.notBefore_keeps h_1)
    · split
      · apply hx3
        exact State.removePd_keeps (State.notBefore_keeps h_1)
      · apply hx3
        exact State.notBefore_keeps h_1
      · exact h_1
    · exact h_1

end Sys2Proof.Machine
end

