-- ==== Sys2Proof/Laws/KeepsEngine.lean ====
section
/-! SUPPORT. What each operation of Machine/Engine.lean keeps (Laws/Keeps.lean): one lemma per operation that answers a
state. -/

namespace Sys2Proof.Machine

open Sys2Proof

theorem E.block_keeps {z : State} {e : E} {s : State} {done : Nat} (h_1 : Keeps z s) :
    Keeps z (e.block s done) := by
  unfold E.block
  exact State.updCore_keeps h_1

theorem E.fault_keeps {z : State} {e : E} {s : State} {code : FaultCode} {addr detail : Nat} (h_1 : Keeps z s) :
    Keeps z (e.fault s code addr detail) := by
  unfold E.fault
  exact State.taskFault_keeps h_1

theorem E.writeLine_keeps {z : State} {e : E} {s : State} {port a : Nat} {d : Line256} {p : Word32}
    {meet fill : Bool} (h_1 : Keeps z s) :
    Keeps z (e.writeLine s port a d p meet fill).st := by
  unfold E.writeLine
  extract_lets x1
  clear_value x1
  split
  · dsimp only [LineEnd.st]
    exact h_1
  · split
    · dsimp only [LineEnd.st]
      apply E.fault_keeps
      refine Keeps.of_snd (by with_reducible assumption) ?_
      exact State.cmTouch_keeps h_1
    · dsimp only [LineEnd.st]
      refine Keeps.of_snd (by with_reducible assumption) ?_
      exact State.cmTouch_keeps h_1
    · extract_lets x2
      have hx2 : Keeps z x2 := by
        unfold x2
        apply State.wrLine_keeps
        refine Keeps.of_snd (by with_reducible assumption) ?_
        exact State.cmTouch_keeps h_1
      clear_value x2
      dsimp only [LineEnd.st]
      split
      · exact State.putTag_keeps hx2
      · exact hx2

theorem E.readLine_keeps {z : State} {e : E} {s : State} {port a : Nat} {meet tag consume : Bool} (h_1 : Keeps z s) :
    Keeps z (e.readLine s port a meet tag consume).st := by
  unfold E.readLine
  extract_lets x1
  clear_value x1
  split
  · dsimp only [LineEnd.st]
    exact h_1
  · split
    · dsimp only [LineEnd.st]
      apply E.fault_keeps
      refine Keeps.of_snd (by with_reducible assumption) ?_
      exact State.cmTouch_keeps h_1
    · dsimp only [LineEnd.st]
      refine Keeps.of_snd (by with_reducible assumption) ?_
      exact State.cmTouch_keeps h_1
    · extract_lets x2
      clear_value x2
      dsimp only [LineEnd.st]
      split
      · apply State.putTag_keeps
        refine Keeps.of_snd (by with_reducible assumption) ?_
        exact State.cmTouch_keeps h_1
      · refine Keeps.of_snd (by with_reducible assumption) ?_
        exact State.cmTouch_keeps h_1

theorem E.over_keeps {z : State} {e : E} {s : State} (h_1 : Keeps z s) :
    Keeps z (e.over s) := by
  unfold E.over
  exact State.popQueue_keeps h_1

theorem execEngineIssue_keeps {z : State} {i : Issue} {s : State} (h_1 : Keeps z s) :
    KeepsRes z (execEngineIssue i s) := by
  unfold execEngineIssue
  refine KeepsRes.next ?_
  split
  · exact h_1
  · split
    · exact h_1
    · apply issueOf_keeps
      · intro v1 v2 h3
        extract_lets x4 x5 x6 x7 x8 x9 x10 x11 x12
        clear_value x4
        clear_value x5
        clear_value x6
        clear_value x7
        clear_value x8
        clear_value x9
        clear_value x10
        have hx11 : Keeps z x11 := by
          unfold x11
          exact State.setCore_keeps h3
        clear_value x11
        clear_value x12
        split
        · exact h_1
        · split
          · exact X.fault_keeps h3
          · apply X.next_keeps
            refine Keeps.upd (u := x11) ?_ rfl rfl rfl rfl rfl rfl rfl rfl
            exact hx11
      · exact h_1

theorem engineOp_keeps {z : State} {core eng : Nat} {op : Op} {meet : Bool} {run : E → State → State} {s : State}
    (h_1 : ∀ (x : E) (x_1 : State), Keeps z x_1 → Keeps z (run x x_1)) (h_2 : Keeps z s) :
    Keeps z (engineOp core eng op meet run s) := by
  unfold engineOp
  split
  · split
    · apply h_1
      split
      · exact State.perf_keeps h_2
      · exact h_2
    · exact h_2
  · exact h_2

end Sys2Proof.Machine
end

