-- ==== Sys2Proof/Laws/KeepsMatrix.lean ====
section
/-! SUPPORT. What each operation of Machine/Matrix.lean keeps (Laws/Keeps.lean): one lemma per operation that answers a
state. -/

namespace Sys2Proof.Machine

open Sys2Proof

theorem E.mxLoad_keeps {z : State} {e : E} {n doff fuel r : Nat} {a5 : State} (h_1 : Keeps z a5) :
    Keeps z (e.mxLoad n doff fuel r a5) := by
  induction fuel generalizing e n doff r a5 with
  | zero =>
    unfold E.mxLoad
    exact E.over_keeps h_1
  | succ w2 ih =>
    unfold E.mxLoad
    extract_lets x1 x2
    clear_value x1
    clear_value x2
    split
    · exact E.fault_keeps h_1
    · split
      · apply ih
        apply State.wrLine_keeps
        refine LineEnd.keeps_ok (by with_reducible assumption) ?_
        exact E.readLine_keeps h_1
      · apply E.block_keeps
        refine LineEnd.keeps_blocked (by with_reducible assumption) ?_
        exact E.readLine_keeps h_1
      · refine LineEnd.keeps_fault (by with_reducible assumption) ?_
        exact E.readLine_keeps h_1

theorem E.runMxLd_keeps {z : State} {e : E} {n : Nat} {s : State} (h_1 : Keeps z s) :
    Keeps z (e.runMxLd n s) := by
  unfold E.runMxLd
  extract_lets x1 x2
  clear_value x1
  clear_value x2
  split
  · exact E.fault_keeps h_1
  · exact E.mxLoad_keeps h_1

theorem E.runMma_keeps {z : State} {e : E} {s : State} (h_1 : Keeps z s) :
    Keeps z (e.runMma s) := by
  unfold E.runMma
  extract_lets x1 x2 x3 x4 x5 x6 x7 x8 x9
  clear_value x1
  clear_value x2
  clear_value x3
  clear_value x4
  clear_value x5
  clear_value x6
  clear_value x7
  clear_value x8
  clear_value x9
  split
  · exact E.fault_keeps h_1
  · split
    · exact E.fault_keeps h_1
    · extract_lets x10 x11
      clear_value x10
      have hx11 : Keeps z x11 := by
        unfold x11
        refine Keeps.foldl ?_ ?_
        · exact h_1
        · intro v12 v13 h14
          extract_lets x15
          clear_value x15
          exact State.wrLine_keeps h14
      clear_value x11
      exact E.over_keeps (State.updCore_keeps hx11)

theorem State.zeroRow_keeps {z s : State} {core tile i : Nat} (h_1 : Keeps z s) :
    Keeps z (s.zeroRow core tile i) := by
  unfold State.zeroRow
  exact State.wrLine_keeps h_1

theorem E.runZero_keeps {z : State} {e : E} {s : State} (h_1 : Keeps z s) :
    Keeps z (e.runZero s) := by
  unfold E.runZero
  extract_lets x1 x2
  clear_value x1
  clear_value x2
  split
  · exact E.fault_keeps h_1
  · apply E.over_keeps
    refine Keeps.foldl ?_ ?_
    · exact h_1
    · intro v3 v4 h5
      exact State.zeroRow_keeps h5

theorem execMxZero_keeps {z : State} {core : Nat} {s : State} (h_1 : Keeps z s) :
    KeepsRes z (execMxZero core s) := by
  unfold execMxZero
  refine KeepsRes.next ?_
  apply engineOp_keeps
  · intro v1 v2 h3
    exact E.runZero_keeps h3
  · exact h_1

theorem execMxMma_keeps {z : State} {core : Nat} {s : State} (h_1 : Keeps z s) :
    KeepsRes z (execMxMma core s) := by
  unfold execMxMma
  refine KeepsRes.next ?_
  apply engineOp_keeps
  · intro v1 v2 h3
    exact E.runMma_keeps h3
  · exact h_1

theorem E.drainFrom_keeps {z : State} {e : E} {tile row0 fmt : Nat} {za tf int : Bool} {fuel n : Nat} {a9 : State}
    (h_1 : Keeps z a9) :
    Keeps z (e.drainFrom tile row0 fmt za tf int fuel n a9) := by
  induction fuel generalizing e tile row0 fmt za tf int n a9 with
  | zero =>
    unfold E.drainFrom
    exact E.over_keeps h_1
  | succ w2 ih =>
    unfold E.drainFrom
    extract_lets x1 x2 x3
    clear_value x1
    clear_value x2
    clear_value x3
    split
    · exact E.fault_keeps h_1
    · split
      · extract_lets x4
        have hx4 : Keeps z x4 := by
          unfold x4
          split
          · refine Keeps.foldl ?_ ?_
            · refine LineEnd.keeps_ok (by with_reducible assumption) ?_
              exact E.writeLine_keeps h_1
            · intro v5 v6 h7
              exact State.zeroRow_keeps h7
          · refine LineEnd.keeps_ok (by with_reducible assumption) ?_
            exact E.writeLine_keeps h_1
        clear_value x4
        exact ih hx4
      · apply E.block_keeps
        refine LineEnd.keeps_blocked (by with_reducible assumption) ?_
        exact E.writeLine_keeps h_1
      · refine LineEnd.keeps_fault (by with_reducible assumption) ?_
        exact E.writeLine_keeps h_1

theorem execMxLda_keeps {z : State} {core : Nat} {meet : Bool} {s : State} (h_1 : Keeps z s) :
    KeepsRes z (execMxLda core meet s) := by
  unfold execMxLda
  refine KeepsRes.next ?_
  apply engineOp_keeps
  · intro v1 v2 h3
    exact E.runMxLd_keeps h3
  · exact h_1

theorem E.runDrain_keeps {z : State} {e : E} {s : State} (h_1 : Keeps z s) :
    Keeps z (e.runDrain s) := by
  unfold E.runDrain
  extract_lets x1 x2 x3 x4 x5
  clear_value x1
  clear_value x2
  clear_value x3
  clear_value x4
  clear_value x5
  split
  · exact E.fault_keeps h_1
  · exact E.drainFrom_keeps h_1

theorem execMxDrain_keeps {z : State} {core : Nat} {meet : Bool} {s : State} (h_1 : Keeps z s) :
    KeepsRes z (execMxDrain core meet s) := by
  unfold execMxDrain
  refine KeepsRes.next ?_
  apply engineOp_keeps
  · intro v1 v2 h3
    exact E.runDrain_keeps h3
  · exact h_1

theorem execMxLdb_keeps {z : State} {core : Nat} {meet : Bool} {s : State} (h_1 : Keeps z s) :
    KeepsRes z (execMxLdb core meet s) := by
  unfold execMxLdb
  refine KeepsRes.next ?_
  apply engineOp_keeps
  · intro v1 v2 h3
    exact E.runMxLd_keeps h3
  · exact h_1

theorem execMxLdc_keeps {z : State} {core : Nat} {meet : Bool} {s : State} (h_1 : Keeps z s) :
    KeepsRes z (execMxLdc core meet s) := by
  unfold execMxLdc
  refine KeepsRes.next ?_
  apply engineOp_keeps
  · intro v1 v2 h3
    exact E.runMxLd_keeps h3
  · exact h_1

end Sys2Proof.Machine
end

