-- ==== Sys2Proof/Laws/KeepsVector.lean ====
section
/-! SUPPORT. What each operation of Machine/Vector.lean keeps (Laws/Keeps.lean): one lemma per operation that answers a
state. -/

namespace Sys2Proof.Machine

open Sys2Proof

theorem E.put_keeps {z : State} {e : E} {s : State} {v : VReg} {p : Word32} (h_1 : Keeps z s) :
    Keeps z (e.put s v p) := by
  unfold E.put
  exact E.over_keeps (State.updCtx_keeps h_1)

theorem vTri_keeps {z : State} {core : Nat} {o : Op} {f : Bool → Nat → Nat → Nat → Nat} {s : State}
    (h_1 : Keeps z s) :
    Keeps z (vTri core o f s) := by
  unfold vTri
  apply engineOp_keeps
  · intro v1 v2 h3
    extract_lets x4 x5 x6
    clear_value x4
    clear_value x5
    clear_value x6
    exact E.put_keeps h3
  · exact h_1

theorem execVfma_keeps {z : State} {core : Nat} {s : State} (h_1 : Keeps z s) :
    KeepsRes z (execVfma core s) := by
  unfold execVfma
  refine KeepsRes.next ?_
  exact vTri_keeps h_1

theorem vBin_keeps {z : State} {core : Nat} {o : Op} {f : Bool → Nat → Nat → Nat} {s : State} (h_1 : Keeps z s) :
    Keeps z (vBin core o f s) := by
  unfold vBin
  apply engineOp_keeps
  · intro v1 v2 h3
    extract_lets x4 x5
    clear_value x4
    clear_value x5
    exact E.put_keeps h3
  · exact h_1

theorem execVadd_keeps {z : State} {core : Nat} {s : State} (h_1 : Keeps z s) :
    KeepsRes z (execVadd core s) := by
  unfold execVadd
  refine KeepsRes.next ?_
  exact vBin_keeps h_1

theorem vReduce_keeps {z : State} {core : Nat} {o : Op} {f : Bool → Nat → Nat → Nat} {s : State} (h_1 : Keeps z s) :
    Keeps z (vReduce core o f s) := by
  unfold vReduce
  apply engineOp_keeps
  · intro v1 v2 h3
    extract_lets x4 x5 x6
    clear_value x4
    clear_value x5
    clear_value x6
    split
    · exact E.fault_keeps h3
    · exact E.put_keeps h3
  · exact h_1

theorem vUn_keeps {z : State} {core : Nat} {o : Op} {f : Bool → Nat → Nat} {s : State} (h_1 : Keeps z s) :
    Keeps z (vUn core o f s) := by
  unfold vUn
  apply engineOp_keeps
  · intro v1 v2 h3
    extract_lets x4
    clear_value x4
    exact E.put_keeps h3
  · exact h_1

theorem execVabs_keeps {z : State} {core : Nat} {s : State} (h_1 : Keeps z s) :
    KeepsRes z (execVabs core s) := by
  unfold execVabs
  refine KeepsRes.next ?_
  exact vUn_keeps h_1

theorem E.runVst_keeps {z : State} {e : E} {fill : Bool} {s : State} (h_1 : Keeps z s) :
    Keeps z (e.runVst fill s) := by
  unfold E.runVst
  extract_lets x1 x2 x3
  clear_value x1
  clear_value x2
  clear_value x3
  split
  · exact E.fault_keeps h_1
  · split
    · exact E.fault_keeps h_1
    · split
      · exact h_1
      · split
        · apply E.block_keeps
          refine LineEnd.keeps_blocked (by with_reducible assumption) ?_
          exact E.writeLine_keeps h_1
        · refine LineEnd.keeps_fault (by with_reducible assumption) ?_
          exact E.writeLine_keeps h_1
        · apply E.over_keeps
          refine LineEnd.keeps_ok (by with_reducible assumption) ?_
          exact E.writeLine_keeps h_1

theorem execVst_keeps {z : State} {core : Nat} {meet : Bool} {s : State} (h_1 : Keeps z s) :
    KeepsRes z (execVst core meet s) := by
  unfold execVst
  refine KeepsRes.next ?_
  apply engineOp_keeps
  · intro v1 v2 h3
    exact E.runVst_keeps h3
  · exact h_1

theorem execVcmplt_keeps {z : State} {core : Nat} {s : State} (h_1 : Keeps z s) :
    KeepsRes z (execVcmplt core s) := by
  unfold execVcmplt
  refine KeepsRes.next ?_
  exact vBin_keeps h_1

theorem execVstF_keeps {z : State} {core : Nat} {meet : Bool} {s : State} (h_1 : Keeps z s) :
    KeepsRes z (execVstF core meet s) := by
  unfold execVstF
  refine KeepsRes.next ?_
  apply engineOp_keeps
  · intro v1 v2 h3
    exact E.runVst_keeps h3
  · exact h_1

theorem execVmxq_keeps {z : State} {core : Nat} {s : State} (h_1 : Keeps z s) :
    KeepsRes z (execVmxq core s) := by
  unfold execVmxq
  refine KeepsRes.next ?_
  apply engineOp_keeps
  · intro v1 v2 h3
    extract_lets x4 x5 x6 x7 x8 x9 x10 x11 x12 x13
    clear_value x4
    clear_value x5
    clear_value x6
    clear_value x7
    clear_value x8
    clear_value x9
    clear_value x10
    clear_value x11
    clear_value x12
    clear_value x13
    split
    · exact E.fault_keeps h3
    · exact E.put_keeps h3
  · exact h_1

theorem E.runVld_keeps {z : State} {e : E} {tag consume : Bool} {s : State} (h_1 : Keeps z s) :
    Keeps z (e.runVld tag consume s) := by
  unfold E.runVld
  extract_lets x1 x2 x3 x4 x5 x6 x7 x8
  clear_value x1
  clear_value x2
  clear_value x3
  clear_value x4
  clear_value x5
  clear_value x6
  clear_value x7
  clear_value x8
  split
  · exact E.fault_keeps h_1
  · split
    · exact E.fault_keeps h_1
    · split
      · exact E.fault_keeps h_1
      · split
        · exact E.fault_keeps h_1
        · split
          · exact h_1
          · split
            · exact E.fault_keeps h_1
            · split
              · apply E.block_keeps
                refine LineEnd.keeps_blocked (by with_reducible assumption) ?_
                exact E.readLine_keeps h_1
              · refine LineEnd.keeps_fault (by with_reducible assumption) ?_
                exact E.readLine_keeps h_1
              · split
                · apply E.put_keeps
                  refine LineEnd.keeps_ok (by with_reducible assumption) ?_
                  exact E.readLine_keeps h_1
                · split
                  · refine LineEnd.keeps_blocked (by with_reducible assumption) ?_
                    apply E.readLine_keeps
                    refine LineEnd.keeps_ok (by with_reducible assumption) ?_
                    exact E.readLine_keeps h_1
                  · refine LineEnd.keeps_fault (by with_reducible assumption) ?_
                    apply E.readLine_keeps
                    refine LineEnd.keeps_ok (by with_reducible assumption) ?_
                    exact E.readLine_keeps h_1
                  · apply E.put_keeps
                    refine LineEnd.keeps_ok (by with_reducible assumption) ?_
                    apply E.readLine_keeps
                    refine LineEnd.keeps_ok (by with_reducible assumption) ?_
                    exact E.readLine_keeps h_1

theorem execVldC_keeps {z : State} {core : Nat} {meet : Bool} {s : State} (h_1 : Keeps z s) :
    KeepsRes z (execVldC core meet s) := by
  unfold execVldC
  refine KeepsRes.next ?_
  apply engineOp_keeps
  · intro v1 v2 h3
    exact E.runVld_keeps h3
  · exact h_1

theorem execVmin_keeps {z : State} {core : Nat} {s : State} (h_1 : Keeps z s) :
    KeepsRes z (execVmin core s) := by
  unfold execVmin
  refine KeepsRes.next ?_
  exact vBin_keeps h_1

theorem execVsrl_keeps {z : State} {core : Nat} {s : State} (h_1 : Keeps z s) :
    KeepsRes z (execVsrl core s) := by
  unfold execVsrl
  refine KeepsRes.next ?_
  exact vBin_keeps h_1

theorem execVor_keeps {z : State} {core : Nat} {s : State} (h_1 : Keeps z s) :
    KeepsRes z (execVor core s) := by
  unfold execVor
  refine KeepsRes.next ?_
  exact vBin_keeps h_1

theorem vAtomic_keeps {z : State} {core : Nat} {o : Op} {meet ret fx : Bool}
    {f : E → State → Line256 × Word32 → Nat → Line256 × Word32} {s : State} (h_1 : Keeps z s) :
    Keeps z (vAtomic core o meet ret fx f s) := by
  unfold vAtomic
  apply engineOp_keeps
  · intro v1 v2 h3
    extract_lets x4
    clear_value x4
    split
    · exact E.fault_keeps h3
    · split
      · exact E.fault_keeps h3
      · split
        · exact E.fault_keeps h3
        · split
          · split
            · exact E.fault_keeps h3
            · split
              · apply E.fault_keeps
                refine Keeps.of_snd (by with_reducible assumption) ?_
                exact State.cmTouch_keeps h3
              · split
                · apply E.put_keeps
                  refine Keeps.of_snd (by with_reducible assumption) ?_
                  exact State.cmTouch_keeps h3
                · apply E.over_keeps
                  refine Keeps.of_snd (by with_reducible assumption) ?_
                  exact State.cmTouch_keeps h3
              · extract_lets x5 x6 x7
                clear_value x5
                clear_value x6
                have hx7 : Keeps z x7 := by
                  unfold x7
                  apply State.wrLine_keeps
                  refine Keeps.of_snd (by with_reducible assumption) ?_
                  exact State.cmTouch_keeps h3
                clear_value x7
                split
                · exact E.put_keeps hx7
                · exact E.over_keeps hx7
          · exact E.fault_keeps h3
          · exact E.fault_keeps h3
          · exact E.fault_keeps h3
          · exact E.fault_keeps h3
  · exact h_1

theorem execVaaddW_keeps {z : State} {core : Nat} {meet : Bool} {s : State} (h_1 : Keeps z s) :
    KeepsRes z (execVaaddW core meet s) := by
  unfold execVaaddW
  refine KeepsRes.next ?_
  exact vAtomic_keeps h_1

theorem execViota_keeps {z : State} {core : Nat} {s : State} (h_1 : Keeps z s) :
    KeepsRes z (execViota core s) := by
  unfold execViota
  refine KeepsRes.next ?_
  apply engineOp_keeps
  · intro v1 v2 h3
    exact E.put_keeps h3
  · exact h_1

theorem execVrsqrt_keeps {z : State} {core : Nat} {s : State} (h_1 : Keeps z s) :
    KeepsRes z (execVrsqrt core s) := by
  unfold execVrsqrt
  refine KeepsRes.next ?_
  apply engineOp_keeps
  · intro v1 v2 h3
    split
    · exact E.fault_keeps h3
    · extract_lets x4 x5 x6 x7
      clear_value x4
      clear_value x5
      have hx6 : Keeps z x6.2 := by
        unfold x6
        exact State.draw_keeps h3
      clear_value x6
      have hx7 : Keeps z x7 := by
        unfold x7
        split
        · exact hx6
        · exact h3
      clear_value x7
      exact E.put_keeps hx7
  · exact h_1

theorem execVneg_keeps {z : State} {core : Nat} {s : State} (h_1 : Keeps z s) :
    KeepsRes z (execVneg core s) := by
  unfold execVneg
  refine KeepsRes.next ?_
  exact vUn_keeps h_1

theorem execVmax_keeps {z : State} {core : Nat} {s : State} (h_1 : Keeps z s) :
    KeepsRes z (execVmax core s) := by
  unfold execVmax
  refine KeepsRes.next ?_
  exact vBin_keeps h_1

theorem vFun_keeps {z : State} {core : Nat} {o : Op} {f : Num → Num} {s : State} (h_1 : Keeps z s) :
    Keeps z (vFun core o f s) := by
  unfold vFun
  apply engineOp_keeps
  · intro v1 v2 h3
    split
    · exact E.fault_keeps h3
    · extract_lets x4
      clear_value x4
      exact E.put_keeps h3
  · exact h_1

theorem execVlog2_keeps {z : State} {core : Nat} {s : State} (h_1 : Keeps z s) :
    KeepsRes z (execVlog2 core s) := by
  unfold execVlog2
  refine KeepsRes.next ?_
  exact vFun_keeps h_1

theorem execVld_keeps {z : State} {core : Nat} {meet : Bool} {s : State} (h_1 : Keeps z s) :
    KeepsRes z (execVld core meet s) := by
  unfold execVld
  refine KeepsRes.next ?_
  apply engineOp_keeps
  · intro v1 v2 h3
    exact E.runVld_keeps h3
  · exact h_1

theorem execVcvt_keeps {z : State} {core : Nat} {s : State} (h_1 : Keeps z s) :
    KeepsRes z (execVcvt core s) := by
  unfold execVcvt
  refine KeepsRes.next ?_
  apply engineOp_keeps
  · intro v1 v2 h3
    extract_lets x4 x5
    clear_value x4
    clear_value x5
    exact E.put_keeps h3
  · exact h_1

theorem execVbexp_keeps {z : State} {core : Nat} {s : State} (h_1 : Keeps z s) :
    KeepsRes z (execVbexp core s) := by
  unfold execVbexp
  refine KeepsRes.next ?_
  apply engineOp_keeps
  · intro v1 v2 h3
    exact E.put_keeps h3
  · exact h_1

theorem execVrsum_keeps {z : State} {core : Nat} {s : State} (h_1 : Keeps z s) :
    KeepsRes z (execVrsum core s) := by
  unfold execVrsum
  refine KeepsRes.next ?_
  exact vReduce_keeps h_1

theorem execVand_keeps {z : State} {core : Nat} {s : State} (h_1 : Keeps z s) :
    KeepsRes z (execVand core s) := by
  unfold execVand
  refine KeepsRes.next ?_
  exact vBin_keeps h_1

theorem execVxor_keeps {z : State} {core : Nat} {s : State} (h_1 : Keeps z s) :
    KeepsRes z (execVxor core s) := by
  unfold execVxor
  refine KeepsRes.next ?_
  exact vBin_keeps h_1

theorem execVrmax_keeps {z : State} {core : Nat} {s : State} (h_1 : Keeps z s) :
    KeepsRes z (execVrmax core s) := by
  unfold execVrmax
  refine KeepsRes.next ?_
  exact vReduce_keeps h_1

theorem execVcmpeq_keeps {z : State} {core : Nat} {s : State} (h_1 : Keeps z s) :
    KeepsRes z (execVcmpeq core s) := by
  unfold execVcmpeq
  refine KeepsRes.next ?_
  exact vBin_keeps h_1

theorem execVsqrt_keeps {z : State} {core : Nat} {s : State} (h_1 : Keeps z s) :
    KeepsRes z (execVsqrt core s) := by
  unfold execVsqrt
  refine KeepsRes.next ?_
  exact vFun_keeps h_1

theorem execVldP_keeps {z : State} {core : Nat} {meet : Bool} {s : State} (h_1 : Keeps z s) :
    KeepsRes z (execVldP core meet s) := by
  unfold execVldP
  refine KeepsRes.next ?_
  apply engineOp_keeps
  · intro v1 v2 h3
    exact E.runVld_keeps h3
  · exact h_1

theorem execVfxaddR_keeps {z : State} {core : Nat} {meet : Bool} {s : State} (h_1 : Keeps z s) :
    KeepsRes z (execVfxaddR core meet s) := by
  unfold execVfxaddR
  refine KeepsRes.next ?_
  exact vAtomic_keeps h_1

theorem execVrmin_keeps {z : State} {core : Nat} {s : State} (h_1 : Keeps z s) :
    KeepsRes z (execVrmin core s) := by
  unfold execVrmin
  refine KeepsRes.next ?_
  exact vReduce_keeps h_1

theorem execVrcp_keeps {z : State} {core : Nat} {s : State} (h_1 : Keeps z s) :
    KeepsRes z (execVrcp core s) := by
  unfold execVrcp
  refine KeepsRes.next ?_
  exact vFun_keeps h_1

theorem execVfnma_keeps {z : State} {core : Nat} {s : State} (h_1 : Keeps z s) :
    KeepsRes z (execVfnma core s) := by
  unfold execVfnma
  refine KeepsRes.next ?_
  exact vTri_keeps h_1

theorem execVcmple_keeps {z : State} {core : Nat} {s : State} (h_1 : Keeps z s) :
    KeepsRes z (execVcmple core s) := by
  unfold execVcmple
  refine KeepsRes.next ?_
  exact vBin_keeps h_1

theorem execVfms_keeps {z : State} {core : Nat} {s : State} (h_1 : Keeps z s) :
    KeepsRes z (execVfms core s) := by
  unfold execVfms
  refine KeepsRes.next ?_
  exact vTri_keeps h_1

theorem execVsel_keeps {z : State} {core : Nat} {s : State} (h_1 : Keeps z s) :
    KeepsRes z (execVsel core s) := by
  unfold execVsel
  refine KeepsRes.next ?_
  exact vTri_keeps h_1

theorem execVexp2_keeps {z : State} {core : Nat} {s : State} (h_1 : Keeps z s) :
    KeepsRes z (execVexp2 core s) := by
  unfold execVexp2
  refine KeepsRes.next ?_
  exact vFun_keeps h_1

theorem execVfxadd_keeps {z : State} {core : Nat} {meet : Bool} {s : State} (h_1 : Keeps z s) :
    KeepsRes z (execVfxadd core meet s) := by
  unfold execVfxadd
  refine KeepsRes.next ?_
  exact vAtomic_keeps h_1

theorem execVaaddDR_keeps {z : State} {core : Nat} {meet : Bool} {s : State} (h_1 : Keeps z s) :
    KeepsRes z (execVaaddDR core meet s) := by
  unfold execVaaddDR
  refine KeepsRes.next ?_
  exact vAtomic_keeps h_1

theorem execVmov_keeps {z : State} {core : Nat} {s : State} (h_1 : Keeps z s) :
    KeepsRes z (execVmov core s) := by
  unfold execVmov
  refine KeepsRes.next ?_
  exact vUn_keeps h_1

theorem execVslide_keeps {z : State} {core : Nat} {s : State} (h_1 : Keeps z s) :
    KeepsRes z (execVslide core s) := by
  unfold execVslide
  refine KeepsRes.next ?_
  apply engineOp_keeps
  · intro v1 v2 h3
    extract_lets x4 x5
    clear_value x4
    clear_value x5
    exact E.put_keeps h3
  · exact h_1

theorem execVmul_keeps {z : State} {core : Nat} {s : State} (h_1 : Keeps z s) :
    KeepsRes z (execVmul core s) := by
  unfold execVmul
  refine KeepsRes.next ?_
  exact vBin_keeps h_1

theorem execVsll_keeps {z : State} {core : Nat} {s : State} (h_1 : Keeps z s) :
    KeepsRes z (execVsll core s) := by
  unfold execVsll
  refine KeepsRes.next ?_
  exact vBin_keeps h_1

theorem execVaaddD_keeps {z : State} {core : Nat} {meet : Bool} {s : State} (h_1 : Keeps z s) :
    KeepsRes z (execVaaddD core meet s) := by
  unfold execVaaddD
  refine KeepsRes.next ?_
  exact vAtomic_keeps h_1

theorem execVaaddWR_keeps {z : State} {core : Nat} {meet : Bool} {s : State} (h_1 : Keeps z s) :
    KeepsRes z (execVaaddWR core meet s) := by
  unfold execVaaddWR
  refine KeepsRes.next ?_
  exact vAtomic_keeps h_1

theorem execVsra_keeps {z : State} {core : Nat} {s : State} (h_1 : Keeps z s) :
    KeepsRes z (execVsra core s) := by
  unfold execVsra
  refine KeepsRes.next ?_
  exact vBin_keeps h_1

theorem execVsub_keeps {z : State} {core : Nat} {s : State} (h_1 : Keeps z s) :
    KeepsRes z (execVsub core s) := by
  unfold execVsub
  refine KeepsRes.next ?_
  exact vBin_keeps h_1

theorem execVsplat_keeps {z : State} {core : Nat} {s : State} (h_1 : Keeps z s) :
    KeepsRes z (execVsplat core s) := by
  unfold execVsplat
  refine KeepsRes.next ?_
  apply engineOp_keeps
  · intro v1 v2 h3
    exact E.put_keeps h3
  · exact h_1

end Sys2Proof.Machine
end

