-- ==== Sys2Proof/Laws/KeepsStreams.lean ====
section
/-! SUPPORT. What each operation of Machine/Streams.lean keeps (Laws/Keeps.lean): one lemma per operation that answers a
state. -/

namespace Sys2Proof.Machine

open Sys2Proof

theorem State.setStreamQ_keeps {z s : State} {core q : Nat} {l : List Stream} (h_1 : Keeps z s) :
    Keeps z (s.setStreamQ core q l) := by
  unfold State.setStreamQ
  exact State.setF_keeps (State.updCore_keeps h_1)

theorem State.sendReads_keeps {z s : State} {core q : Nat} {t : Task} {x : Xfer} (h_1 : Keeps z s) :
    Keeps z (s.sendReads core q t x) := by
  unfold State.sendReads
  extract_lets x1 x2 x3
  clear_value x1
  clear_value x2
  have hx3 : ∀ (s : State), Keeps z s → ∀ (a n : Nat), Keeps z (x3 s a n) := by
    intro v4 h5 v6 v7
    unfold x3
    extract_lets x8 x9 x10
    clear_value x8
    clear_value x9
    clear_value x10
    exact State.sendTagged_keeps h5
  clear_value x3
  refine Keeps.foldl ?_ ?_
  · exact h_1
  · intro v11 v12 h13
    extract_lets x14 x15 x16
    clear_value x14
    clear_value x15
    have hx16 : Keeps z x16 := by
      unfold x16
      apply hx3
      exact h13
    clear_value x16
    split
    · apply hx3
      exact hx16
    · exact hx16

theorem State.updStream_keeps {z s : State} {core q id : Nat} {f : Stream → Stream} (h_1 : Keeps z s) :
    Keeps z (s.updStream core q id f) := by
  unfold State.updStream
  exact State.setStreamQ_keeps h_1

theorem State.freshId_keeps {z s : State} {core : Nat} (h_1 : Keeps z s) :
    Keeps z (s.freshId core).2 := by
  unfold State.freshId
  dsimp only
  exact State.updCore_keeps h_1

theorem execStreamGo_keeps {z : State} {core : Nat} {s : State} (h_1 : Keeps z s) :
    KeepsRes z (execStreamGo core s) := by
  unfold execStreamGo
  refine KeepsRes.next ?_
  apply engineOp_keeps
  · intro v1 v2 h3
    extract_lets x4 x5 x6 x7 x8
    clear_value x4
    clear_value x5
    clear_value x6
    have hx7 : Keeps z x7.2 := by
      unfold x7
      exact State.freshId_keeps h3
    clear_value x7
    clear_value x8
    split
    · exact E.fault_keeps h3
    · split
      · exact E.fault_keeps h3
      · split
        · exact E.fault_keeps h3
        · split
          · exact h3
          · exact E.over_keeps (State.setStreamQ_keeps hx7)
  · exact h_1

theorem State.dmaTouch_keeps {z s : State} {core a : Nat} {write : Bool} (h_1 : Keeps z s) :
    Keeps z (s.dmaTouch core a write).2 := by
  unfold State.dmaTouch
  extract_lets x1
  clear_value x1
  split
  · exact h_1
  · dsimp only
    exact State.updCore_keeps h_1

theorem State.prefetchLine_keeps {z s : State} {core st a : Nat} (h_1 : Keeps z s) :
    KeepsOpt z (fun (x : Line256 × Word32 × State) => x.2.2) (s.prefetchLine core st a) := by
  unfold State.prefetchLine
  split
  · split
    · exact KeepsOpt.none
    · extract_lets x1
      clear_value x1
      refine KeepsOpt.some ?_
      exact h_1
  · extract_lets x2 x3
    have hx2 : Keeps z x2 := by
      unfold x2
      exact State.pdSettle_keeps h_1
    clear_value x2
    clear_value x3
    refine KeepsOpt.some ?_
    exact hx2
  · extract_lets x4
    clear_value x4
    refine KeepsOpt.some ?_
    dsimp only
    exact State.dmaTouch_keeps h_1
  · exact KeepsOpt.none

theorem State.updXfer_keeps {z s : State} {core q id : Nat} {f : Xfer → Xfer} (h_1 : Keeps z s) :
    Keeps z (s.updXfer core q id f) := by
  unfold State.updXfer
  exact State.setStreamQ_keeps h_1

theorem State.prefetch_keeps {z s : State} {core q : Nat} {t : Task} {y : Xfer} (h_1 : Keeps z s) :
    Keeps z (s.prefetch core q t y) := by
  unfold State.prefetch
  extract_lets x1 x2 x3 x4
  clear_value x1
  clear_value x2
  clear_value x3
  have hx4 : Keeps z x4.1 := by
    unfold x4
    refine Keeps.foldlFst ?_ ?_
    · exact h_1
    · intro v5 v6 h7
      extract_lets x8 x9
      clear_value x8
      clear_value x9
      split
      · dsimp only
        apply State.wrLine_keeps
        apply State.dmaTouch_keeps
        refine KeepsOpt.snd2 (by with_reducible assumption) ?_
        exact State.prefetchLine_keeps h7
      · dsimp only
        apply State.bridleCount_keeps
        · exact h7
        · intro v10 h11
          exact State.addF_keeps h11
  clear_value x4
  exact State.updXfer_keeps hx4

theorem State.askRing_keeps {z s : State} {core q : Nat} {t : Task} {st : Stream} {x : Xfer} (h_1 : Keeps z s) :
    Keeps z (s.askRing core q t st x) := by
  unfold State.askRing
  extract_lets x1 x2
  clear_value x1
  have hx2 : ∀ (s : State), Keeps z s → Keeps z (x2 s) := by
    intro v3 h4
    unfold x2
    exact State.updXfer_keeps h4
  clear_value x2
  split
  · exact Stream.fault_keeps h_1
  · exact Stream.fault_keeps h_1
  · split
    · exact Stream.fault_keeps h_1
    · split
      · extract_lets x5
        clear_value x5
        apply State.updXfer_keeps
        apply hx2
        exact State.grantCredits_keeps h_1
      · apply State.waitResv_keeps
        apply hx2
        exact h_1
  · split
    · exact Stream.fault_keeps h_1
    · split
      · exact h_1
      · extract_lets x6
        clear_value x6
        apply State.sendTagged_keeps
        apply State.notedRemote_keeps
        apply hx2
        exact h_1

theorem State.askRings_keeps {z s : State} {core : Nat} {t : Task} (h_1 : Keeps z s) :
    Keeps z (s.askRings core t) := by
  unfold State.askRings
  refine Keeps.foldl ?_ ?_
  · exact h_1
  · intro v1 v2 h3
    split
    · split
      · exact State.askRing_keeps h3
      · exact h3
    · exact h3

theorem execTransferIssue_keeps {z : State} {core : Nat} {s : State} (h_1 : Keeps z s) :
    KeepsRes z (execTransferIssue core s) := by
  unfold execTransferIssue
  refine KeepsRes.next ?_
  split
  · exact h_1
  · split
    · exact h_1
    · extract_lets x1 x2
      have hx1 : Keeps z x1 := by
        unfold x1
        exact State.askRings_keeps h_1
      clear_value x1
      clear_value x2
      split
      · exact hx1
      · split
        · split
          · exact hx1
          · split
            · exact Stream.fault_keeps hx1
            · extract_lets x3 x4
              have hx3 : Keeps z x3 := by
                unfold x3
                exact State.updCore_keeps hx1
              clear_value x3
              have hx4 : Keeps z x4 := by
                unfold x4
                exact State.updXfer_keeps hx3
              clear_value x4
              split
              · exact State.sendReads_keeps hx4
              · exact hx4
        · split
          · split
            · exact State.prefetch_keeps (State.updCore_keeps hx1)
            · exact hx1
          · exact hx1

theorem State.poisonFill_keeps {z s : State} {i k : Nat} (h_1 : Keeps z s) :
    Keeps z (s.poisonFill i k) := by
  unfold State.poisonFill
  extract_lets x1 x2
  clear_value x1
  clear_value x2
  split
  · exact State.inject_keeps h_1
  · exact State.pdSend_keeps h_1

theorem State.dropXfer_keeps {z s : State} {core q : Nat} {t : Task} {x : Xfer} (h_1 : Keeps z s) :
    Keeps z (s.dropXfer core q t x) := by
  unfold State.dropXfer
  extract_lets x1 x2
  have hx1 : Keeps z x1 := by
    unfold x1
    split
    · exact State.dropResv_keeps h_1
    · exact h_1
  clear_value x1
  clear_value x2
  split
  · exact hx1
  · split
    · refine Keeps.foldl ?_ ?_
      · exact hx1
      · intro v3 v4 h5
        exact State.poisonFill_keeps h5
    · refine Keeps.foldl ?_ ?_
      · exact hx1
      · intro v6 v7 h8
        exact State.sendTagged_keeps h8
    · exact hx1

theorem State.readEntry_keeps {z s : State} {core : Nat} {p : Place} (h_1 : Keeps z s) :
    KeepsOpt z (fun (x : BEntry × Bool × State) => x.2.2) (s.readEntry core p) := by
  unfold State.readEntry
  split
  · exact KeepsOpt.none
  · extract_lets x1 x2 x3
    have hx1 : Keeps z x1.2 := by
      unfold x1
      split
      · exact State.dmaTouch_keeps h_1
      · dsimp only
        exact State.pdSettle_keeps h_1
      · exact h_1
    clear_value x1
    have hx2 : Keeps z x2 := by
      unfold x2
      exact hx1
    clear_value x2
    clear_value x3
    split
    · exact KeepsOpt.none
    · refine KeepsOpt.some ?_
      exact hx2

theorem execBlockListEntryRead_keeps {z : State} {core q : Nat} {s : State} (h_1 : Keeps z s) :
    KeepsRes z (execBlockListEntryRead core q s) := by
  unfold execBlockListEntryRead
  refine KeepsRes.next ?_
  split
  · split
    · exact h_1
    · extract_lets x1
      clear_value x1
      split
      · exact Stream.fault_keeps h_1
      · split
        · exact Stream.fault_keeps h_1
        · split
          · apply Stream.fault_keeps
            refine KeepsOpt.snd2 (by with_reducible assumption) ?_
            exact State.readEntry_keeps h_1
          · split
            · apply Stream.fault_keeps
              refine KeepsOpt.snd2 (by with_reducible assumption) ?_
              exact State.readEntry_keeps h_1
            · extract_lets x2
              clear_value x2
              apply State.updStream_keeps
              apply State.updCore_keeps
              refine KeepsOpt.snd2 (by with_reducible assumption) ?_
              exact State.readEntry_keeps h_1
  · exact h_1

theorem State.wrPart_keeps {z s : State} {key n : Nat} {d : Line256} {p : Word32} (h_1 : Keeps z s) :
    Keeps z (s.wrPart key n d p) := by
  unfold State.wrPart
  extract_lets x1
  have hx1 : Keeps z x1 := by
    unfold x1
    exact State.wrNat_keeps h_1
  clear_value x1
  split
  · refine Keeps.foldl ?_ ?_
    · exact hx1
    · intro v2 v3 h4
      exact State.setPoison_keeps h4
  · refine Keeps.foldl ?_ ?_
    · exact hx1
    · intro v5 v6 h7
      exact State.setPoison_keeps h7

theorem State.cancelQueue_keeps {z s : State} {core q : Nat} {t : Task} (h_1 : Keeps z s) :
    Keeps z (s.cancelQueue core q t) := by
  unfold State.cancelQueue
  extract_lets x1 x2
  clear_value x1
  have hx2 : Keeps z x2 := by
    unfold x2
    refine Keeps.foldl ?_ ?_
    · exact h_1
    · intro v3 v4 h5
      refine Keeps.foldl ?_ ?_
      · exact h5
      · intro v6 v7 h8
        exact State.dropXfer_keeps h8
  clear_value x2
  exact State.setStreamQ_keeps hx2

theorem execStreamRun_keeps {z : State} {core q : Nat} {s : State} (h_1 : Keeps z s) :
    KeepsRes z (execStreamRun core q s) := by
  unfold execStreamRun
  refine KeepsRes.next ?_
  split
  · split
    · exact State.updStream_keeps h_1
    · exact h_1
  · exact h_1

end Sys2Proof.Machine
end

