-- ==== Sys2Proof/Laws/KeepsEccLog.lean ====
section
/-! SUPPORT. What each operation of Machine/EccLog.lean keeps (Laws/Keeps.lean): one lemma per operation that answers a
state. -/

namespace Sys2Proof.Machine

open Sys2Proof

theorem State.countUe_keeps {z s : State} {c : Codeword} {latent : Bool} (h_1 : Keeps z s) :
    Keeps z (s.countUe c latent) := by
  unfold State.countUe
  extract_lets x1 x2
  have hx1 : Keeps z x1 := by
    unfold x1
    split
    · exact State.addF_keeps h_1
    · exact h_1
  clear_value x1
  have hx2 : Keeps z x2 := by
    unfold x2
    exact State.addF_keeps hx1
  clear_value x2
  split
  · exact State.addF_keeps (State.addF_keeps hx1)
  · split
    · exact State.addF_keeps hx2
    · exact hx2

theorem State.recordUe_keeps {z s : State} {c : Codeword} {finder : Nat} {latent : Bool} (h_1 : Keeps z s) :
    Keeps z (s.recordUe c finder latent) := by
  unfold State.recordUe
  extract_lets x1 x2 x3 x4
  clear_value x1
  have hx2 : Keeps z x2 := by
    unfold x2
    exact State.countUe_keeps h_1
  clear_value x2
  have hx3 : Keeps z x3 := by
    unfold x3
    split
    · exact hx2
    · exact State.setReg_keeps (State.setReg_keeps hx2)
  clear_value x3
  have hx4 : Keeps z x4 := by
    unfold x4
    exact State.logFault_keeps hx3
  clear_value x4
  split
  · exact State.mediaEvent_keeps hx4
  · exact hx4

theorem State.recordStaged_keeps {z s : State} {e : StagedErr} {latent : Bool} (h_1 : Keeps z s) :
    Keeps z (s.recordStaged e latent) := by
  unfold State.recordStaged
  exact State.recordUe_keeps h_1

theorem State.settleStaged_keeps {z s : State} (h_1 : Keeps z s) :
    Keeps z s.settleStaged := by
  unfold State.settleStaged
  extract_lets x1 x2 x3
  clear_value x1
  clear_value x2
  have hx3 : Keeps z x3 := by
    unfold x3
    refine Keeps.upd (u := s) ?_ rfl rfl rfl rfl rfl rfl rfl rfl
    exact h_1
  clear_value x3
  refine Keeps.foldl ?_ ?_
  · exact hx3
  · intro v4 v5 h6
    exact State.recordStaged_keeps h6

theorem execStreamCancel_keeps {z : State} {core : Nat} {s : State} (h_1 : Keeps z s) :
    KeepsRes z (execStreamCancel core s) := by
  unfold execStreamCancel
  refine KeepsRes.next ?_
  split
  · split
    · exact h_1
    · extract_lets x1 x2
      clear_value x1
      have hx2 : Keeps z x2 := by
        unfold x2
        split
        · exact h_1
        · exact State.settleStaged_keeps (State.cancelQueue_keeps (State.beginHead_keeps h_1))
      clear_value x2
      split
      · exact hx2
      · exact State.popQueue_keeps hx2
  · exact h_1

theorem State.spoil_keeps {z s : State} {key n : Nat} (h : Keeps z s) : Keeps z (s.spoil key n) := by
  induction n generalizing s with
  | zero => exact h
  | succ n ih =>
    unfold State.spoil
    exact ih (State.wrNat_keeps (State.draw_keeps h))


theorem State.markWord_keeps {z s : State} {c : Codeword} {key : Nat} (h_1 : Keeps z s) :
    Keeps z (s.markWord c key) := by
  unfold State.markWord
  extract_lets x1
  have hx1 : Keeps z x1 := by
    unfold x1
    exact State.spoil_keeps h_1
  clear_value x1
  exact State.setPoison_keeps hx1

theorem State.commitStaged_keeps {z s : State} {q : Nat} {lines : List Nat} (h_1 : Keeps z s) :
    Keeps z (s.commitStaged q lines) := by
  unfold State.commitStaged
  extract_lets x1 x2 x3 x4
  clear_value x1
  clear_value x2
  clear_value x3
  have hx4 : Keeps z x4 := by
    unfold x4
    refine Keeps.upd (u := s) ?_ rfl rfl rfl rfl rfl rfl rfl rfl
    exact h_1
  clear_value x4
  refine Keeps.foldl ?_ ?_
  · exact hx4
  · intro v5 v6 h7
    exact State.recordStaged_keeps h7

theorem State.countCe_keeps {z s : State} {c : Codeword} (h_1 : Keeps z s) :
    Keeps z (s.countCe c) := by
  unfold State.countCe
  split
  · extract_lets x1 x2 x3
    clear_value x1
    have hx2 : Keeps z x2 := by
      unfold x2
      exact State.addF_keeps h_1
    clear_value x2
    clear_value x3
    split
    · exact hx2
    · exact State.advise_keeps (State.postEvent_keeps (State.setF_keeps hx2))
  · extract_lets x4
    have hx4 : Keeps z x4 := by
      unfold x4
      exact State.addF_keeps h_1
    clear_value x4
    split
    · exact State.addF_keeps hx4
    · exact hx4

theorem execPrefetchCommit_keeps {z : State} {core q : Nat} {s : State} (h_1 : Keeps z s) :
    KeepsRes z (execPrefetchCommit core q s) := by
  unfold execPrefetchCommit
  refine KeepsRes.next ?_
  split
  · split
    · exact State.updXfer_keeps (State.commitStaged_keeps h_1)
    · exact h_1
  · exact h_1

end Sys2Proof.Machine
end

