-- ==== Sys2Proof/Laws/KeepsDma.lean ====
section
/-! SUPPORT. What each operation of Machine/Dma.lean keeps (Laws/Keeps.lean): one lemma per operation that answers a
state. -/

namespace Sys2Proof.Machine

open Sys2Proof

theorem T.fault_keeps {z : State} {m : T} {s : State} {c : FaultCode} {addr detail : Nat} (h_1 : Keeps z s) :
    Keeps z (m.fault s c addr detail) := by
  unfold T.fault
  exact Stream.fault_keeps h_1

theorem T.block_keeps {z : State} {m : T} {s : State} {id : Nat} (h_1 : Keeps z s) :
    Keeps z (m.block s id) := by
  unfold T.block
  exact State.updXfer_keeps h_1

theorem T.miss_keeps {z : State} {m : T} {s : State} {entry : Nat} (h_1 : Keeps z s) :
    Keeps z (m.miss s entry) := by
  unfold T.miss
  extract_lets x1 x2
  clear_value x1
  have hx2 : Keeps z x2 := by
    unfold x2
    exact State.traceTask_keeps (State.addF_keeps h_1)
  clear_value x2
  split
  · exact hx2
  · exact State.logFault_keeps (State.setF_keeps (State.setF_keeps hx2))

theorem T.deadlines_keeps {z : State} {m : T} {s : State} {x : Xfer} (h_1 : Keeps z s) :
    Keeps z (m.deadlines s x) := by
  unfold T.deadlines
  extract_lets x1 x2 x3
  clear_value x1
  clear_value x2
  have hx3 : Keeps z x3 := by
    unfold x3
    exact State.updXfer_keeps h_1
  clear_value x3
  split
  · exact hx3
  · refine Keeps.foldl ?_ ?_
    · exact hx3
    · intro v4 v5 h6
      split
      · exact T.miss_keeps h6
      · exact h6

theorem T.wrote_keeps {z : State} {m : T} {s : State} {x : Xfer} {n acks : Nat} (h_1 : Keeps z s) :
    Keeps z (m.wrote s x n acks) := by
  unfold T.wrote
  extract_lets x1 x2 x3
  clear_value x1
  have hx2 : Keeps z x2 := by
    unfold x2
    exact State.perf_keeps (State.updXfer_keeps h_1)
  clear_value x2
  have hx3 : Keeps z x3 := by
    unfold x3
    split
    · exact State.updStream_keeps hx2
    · exact hx2
  clear_value x3
  split
  · exact T.deadlines_keeps hx3
  · exact hx3

theorem T.ringPut_keeps {z : State} {m : T} {s : State} {x : Xfer} {n : Nat} {d : Line256} {p : Word32}
    (h_1 : Keeps z s) :
    Keeps z (m.ringPut s x n d p).1 := by
  unfold T.ringPut
  extract_lets x1 x2
  clear_value x1
  clear_value x2
  split
  · extract_lets x3 x4
    clear_value x3
    have hx4 : Keeps z x4 := by
      unfold x4
      split
      · exact h_1
      · exact State.pdSettle_keeps h_1
    clear_value x4
    split
    · dsimp only
      exact T.fault_keeps h_1
    · split
      · dsimp only
        exact T.fault_keeps h_1
      · split
        · dsimp only
          exact T.block_keeps hx4
        · split
          · dsimp only
            apply T.fault_keeps
            refine Keeps.of_snd (by with_reducible assumption) ?_
            split
            · exact State.dmaTouch_keeps hx4
            · exact hx4
          · dsimp only
            apply T.wrote_keeps
            apply State.landFill_keeps
            refine Keeps.of_snd (by with_reducible assumption) ?_
            split
            · exact State.dmaTouch_keeps hx4
            · exact hx4
  · split
    · exact h_1
    · extract_lets x5
      have hx5 : Keeps z x5 := by
        unfold x5
        exact State.sendTagged_keeps h_1
      clear_value x5
      dsimp only
      exact T.wrote_keeps hx5
  · dsimp only
    exact T.fault_keeps h_1

theorem T.put_keeps {z : State} {m : T} {s : State} {x : Xfer} {key src n : Nat} {d : Line256} {p : Word32}
    (h_1 : Keeps z s) :
    Keeps z (m.put s x key src n d p) := by
  unfold T.put
  split
  · extract_lets x1
    have hx1 : Keeps z x1 := by
      unfold x1
      exact State.wrPart_keeps h_1
    clear_value x1
    apply T.wrote_keeps
    split
    · exact State.putTag_keeps hx1
    · exact hx1
  · extract_lets x2 x3 x4 x5
    clear_value x2
    clear_value x3
    have hx4 : Keeps z x4 := by
      unfold x4
      exact State.wrLine_keeps h_1
    clear_value x4
    have hx5 : Keeps z x5 := by
      unfold x5
      split
      · exact hx4
      · split
        · exact State.wrLine_keeps hx4
        · exact hx4
    clear_value x5
    exact T.wrote_keeps hx5

theorem T.write_keeps {z : State} {m : T} {s : State} {x : Xfer} (h_1 : Keeps z s) :
    Keeps z (m.write s x).1 := by
  unfold T.write
  split
  · exact h_1
  · split
    · exact h_1
    · split
      · exact T.ringPut_keeps h_1
      · extract_lets x1 x2
        split
        · split
          · exact h_1
          · split
            · dsimp only
              exact T.block_keeps h_1
            · split
              · dsimp only
                apply T.fault_keeps
                refine Keeps.of_snd (by with_reducible assumption) ?_
                exact State.dmaTouch_keeps h_1
              · dsimp only
                apply T.put_keeps
                refine Keeps.of_snd (by with_reducible assumption) ?_
                exact State.dmaTouch_keeps h_1
        · extract_lets x3
          have hx3 : Keeps z x3 := by
            unfold x3
            exact State.pdSettle_keeps h_1
          clear_value x3
          split
          · dsimp only
            exact T.block_keeps hx3
          · dsimp only
            exact T.put_keeps (State.pdCount_keeps hx3)
        · split
          · dsimp only
            apply T.put_keeps
            refine Keeps.of_snd (by with_reducible assumption) ?_
            exact State.devReady_keeps h_1
          · dsimp only
            refine Keeps.of_snd (by with_reducible assumption) ?_
            exact State.devReady_keeps h_1
        · extract_lets x4
          have hx4 : Keeps z x4 := by
            unfold x4
            exact State.emit_keeps h_1
          clear_value x4
          dsimp only
          split
          · exact T.fault_keeps hx4
          · exact T.wrote_keeps hx4
        · dsimp only
          exact T.fault_keeps h_1

theorem State.freeLine_keeps {z s : State} (h_1 : Keeps z s) :
    Keeps z s.freeLine.2 := by
  unfold State.freeLine
  refine Keeps.foldlSnd ?_ ?_
  · exact h_1
  · intro v1 v2 h3
    extract_lets x4
    have hx4 : Keeps z x4.2 := by
      unfold x4
      exact State.draw_keeps h3
    clear_value x4
    exact hx4

theorem State.cutLine_keeps {z s : State} {x : Xfer} {n : Nat} {d : Line256} (h_1 : Keeps z s) :
    Keeps z (s.cutLine x n d).2 := by
  unfold State.cutLine
  split
  · split
    · extract_lets x1 x2
      have hx1 : Keeps z x1.2 := by
        unfold x1
        exact State.freeLine_keeps h_1
      clear_value x1
      clear_value x2
      exact hx1
    · exact h_1
  · exact h_1

theorem T.got_keeps {z : State} {m : T} {s : State} {x : Xfer} {d : Line256} {p : Word32} (h_1 : Keeps z s) :
    Keeps z (m.got s x d p) := by
  unfold T.got
  extract_lets x1 x2 x3 x4
  clear_value x1
  have hx2 : Keeps z x2.2 := by
    unfold x2
    exact State.cutLine_keeps h_1
  clear_value x2
  clear_value x3
  have hx4 : Keeps z x4 := by
    unfold x4
    exact hx2
  clear_value x4
  exact State.updXfer_keeps hx4

theorem T.read_keeps {z : State} {m : T} {s : State} {x : Xfer} {host : List HostLine} (h_1 : Keeps z s) :
    Keeps z (m.read s x host).s := by
  unfold T.read
  extract_lets x1 x2 x3 x4 x5 x6
  have hx1 : Keeps z x1.s := by
    unfold x1
    exact h_1
  clear_value x1
  clear_value x2
  clear_value x3
  have hx4 : ∀ (s : State), Keeps z s → ∀ (key : Nat), Keeps z (x4 s key) := by
    intro v7 h8 v9
    unfold x4
    extract_lets x10
    clear_value x10
    exact T.got_keeps h8
  clear_value x4
  clear_value x5
  have hx6 : ∀ (s : State), Keeps z s → ∀ (key : Nat) (touch : State → Bool × State), (∀ (x : State), Keeps z x → Keeps z (touch x).2) → Keeps z (x6 s key touch).s := by
    intro v11 h12 v13 v14 h15
    unfold x6
    split
    · dsimp only
      exact T.block_keeps h12
    · split
      · dsimp only
        apply T.fault_keeps
        refine Keeps.of_snd (by with_reducible assumption) ?_
        apply h15
        exact h12
      · extract_lets x16
        have hx16 : Keeps z x16 := by
          unfold x16
          apply hx4
          refine Keeps.of_snd (by with_reducible assumption) ?_
          apply h15
          exact h12
        clear_value x16
        dsimp only
        split
        · exact State.putTag_keeps hx16
        · exact hx16
  clear_value x6
  split
  · split
    · exact hx1
    · apply hx6
      · exact h_1
      · intro v17 h18
        exact State.dmaTouch_keeps h18
  · apply hx6
    · exact h_1
    · intro v19 h20
      exact State.dmaTouch_keeps h20
  · apply hx6
    · exact State.pdSettle_keeps h_1
    · intro v21 h22
      dsimp only
      exact State.pdCount_keeps h22
  · split
    · dsimp only
      apply hx4
      refine Keeps.of_snd (by with_reducible assumption) ?_
      exact State.devReady_keeps h_1
    · dsimp only
      refine Keeps.of_snd (by with_reducible assumption) ?_
      exact State.devReady_keeps h_1
  · split
    · exact hx1
    · split
      · dsimp only
        exact T.got_keeps (State.emit_keeps h_1)
      · exact hx1
  · split
    · dsimp only
      exact T.got_keeps h_1
    · exact hx1
  · dsimp only
    exact T.fault_keeps h_1

theorem T.serve_keeps {z : State} {m : T} {s : State} {x : Xfer} {g : Region} {host : List HostLine}
    (h_1 : Keeps z s) :
    Keeps z (m.serve s x g host).s := by
  unfold T.serve
  extract_lets x1 x2 x3
  clear_value x1
  have hx2 : Keeps z x2.1 := by
    unfold x2
    exact T.write_keeps h_1
  clear_value x2
  have hx3 : Keeps z x3.s := by
    unfold x3
    exact T.read_keeps h_1
  clear_value x3
  split
  · split
    · exact hx2
    · split
      · exact h_1
      · split
        · exact hx3
        · split
          · extract_lets x4
            have hx4 : Keeps z x4.1 := by
              unfold x4
              exact T.write_keeps hx3
            clear_value x4
            exact hx4
          · exact hx3
  · split
    · split
      · exact hx3
      · split
        · extract_lets x5
          have hx5 : Keeps z x5.1 := by
            unfold x5
            exact T.write_keeps hx3
          clear_value x5
          exact hx5
        · exact hx3
    · exact h_1

theorem State.serveXfers_keeps {z s : State} {g : Region} {host : List HostLine} {a3 : List (T × Nat)}
    (h_1 : Keeps z s) :
    Keeps z (s.serveXfers g host a3).s := by
  induction a3 generalizing s g host with
  | nil =>
    unfold State.serveXfers
    exact h_1
  | cons w1 w2 ih =>
    unfold State.serveXfers
    split
    · exact h_1
    · split
      · extract_lets x1
        have hx1 : Keeps z x1.s := by
          unfold x1
          exact T.serve_keeps h_1
        clear_value x1
        split
        · exact hx1
        · exact ih hx1
      · exact ih h_1

theorem State.inboundDo_keeps {z s : State} {core : Nat} {r : Inbound} (h_1 : Keeps z s) :
    KeepsOpt z (fun (x : State) => x) (s.inboundDo core r) := by
  unfold State.inboundDo
  extract_lets x1 x2
  clear_value x1
  clear_value x2
  split
  · split
    · refine KeepsOpt.some ?_
      split
      · exact State.wackFill_keeps h_1
      · exact State.taskFault_keeps h_1
      · exact h_1
    · split
      · exact KeepsOpt.none
      · refine KeepsOpt.some ?_
        exact State.landFill_keeps h_1
  · split
    · refine KeepsOpt.some ?_
      exact h_1
    · split
      · exact KeepsOpt.none
      · extract_lets x3
        clear_value x3
        refine KeepsOpt.some ?_
        exact State.deliver_keeps (State.setRing_keeps (State.advanceHead_keeps (State.putTag_keeps h_1)))
  · split
    · exact KeepsOpt.none
    · extract_lets x4
      clear_value x4
      refine KeepsOpt.some ?_
      exact State.deliver_keeps h_1

theorem E.mopKey_keeps {z : State} {e : E} {s : State} {a : Nat} {write : Bool} (h_1 : Keeps z s) :
    KeepsOpt z (fun (x : Nat × State) => x.2) (e.mopKey s a write) := by
  unfold E.mopKey
  split
  · split
    · refine KeepsOpt.some ?_
      dsimp only
      refine Keeps.of_snd (by with_reducible assumption) ?_
      exact State.dmaTouch_keeps h_1
    · exact KeepsOpt.none
  · refine KeepsOpt.some ?_
    dsimp only
    exact State.pdSettle_keeps h_1
  · exact KeepsOpt.none

theorem E.mopFrom_keeps {z : State} {e : E} {src : Option Word} {fuel j : Nat} {a4 : State} (h_1 : Keeps z a4) :
    Keeps z (e.mopFrom src fuel j a4) := by
  induction fuel generalizing e src j a4 with
  | zero =>
    unfold E.mopFrom
    exact E.over_keeps h_1
  | succ w2 ih =>
    unfold E.mopFrom
    extract_lets x1 x2 x3
    clear_value x1
    clear_value x2
    have hx3 : KeepsOpt z (fun (x : Line256 × Word32 × State) => x.2.2) x3 := by
      unfold x3
      split
      · refine KeepsOpt.some ?_
        exact h_1
      · refine KeepsOpt.map (f := fun (x : Nat × State) => x.2) ?_ ?_
        · exact E.mopKey_keeps h_1
        · intro v4 h5
          exact h5
    clear_value x3
    split
    · exact E.fault_keeps h_1
    · split
      · exact E.fault_keeps (hx3 _ rfl)
      · split
        · apply E.block_keeps
          refine KeepsOpt.snd (by with_reducible assumption) ?_
          exact E.mopKey_keeps (hx3 _ rfl)
        · extract_lets x6 x7
          have hx6 : Keeps z x6 := by
            unfold x6
            apply State.wrLine_keeps
            refine KeepsOpt.snd (by with_reducible assumption) ?_
            exact E.mopKey_keeps (hx3 _ rfl)
          clear_value x6
          have hx7 : Keeps z x7 := by
            unfold x7
            split
            · exact State.putTag_keeps hx6
            · split
              · exact State.putTag_keeps hx6
              · exact hx6
          clear_value x7
          exact ih hx7

theorem E.runMop_keeps {z : State} {e : E} {n : Nat} {src : Option Word} {s : State} (h_1 : Keeps z s) :
    Keeps z (e.runMop n src s) := by
  unfold E.runMop
  split
  · exact E.mopFrom_keeps h_1
  · split
    · exact E.fault_keeps h_1
    · split
      · exact h_1
      · exact E.mopFrom_keeps h_1

theorem E.runMcopy_keeps {z : State} {e : E} {s : State} (h_1 : Keeps z s) :
    Keeps z (e.runMcopy s) := by
  unfold E.runMcopy
  exact E.runMop_keeps h_1

theorem State.finishXfer_keeps {z s : State} {core q id : Nat} (h_1 : Keeps z s) :
    Keeps z (s.finishXfer core q id) := by
  unfold State.finishXfer
  split
  · exact h_1
  · split
    · exact h_1
    · extract_lets x1 x2 x3
      have hx1 : Keeps z x1 := by
        unfold x1
        split
        · exact T.deadlines_keeps h_1
        · exact h_1
      clear_value x1
      clear_value x2
      have hx3 : Keeps z x3 := by
        unfold x3
        split
        · split
          · exact State.traceTask_keeps hx1
          · exact hx1
        · exact hx1
      clear_value x3
      exact State.setStreamQ_keeps hx3

theorem T.run_keeps {z : State} {m : T} {id fuel : Nat} {a3 : Mv} (h_1 : Keeps z a3.s) :
    Keeps z (m.run id fuel a3).s := by
  induction fuel generalizing m id a3 with
  | zero =>
    unfold T.run
    exact h_1
  | succ w2 ih =>
    unfold T.run
    split
    · exact h_1
    · split
      · exact h_1
      · extract_lets x1 x2 x3
        clear_value x1
        have hx2 : Keeps z x2.1 := by
          unfold x2
          exact T.write_keeps h_1
        clear_value x2
        have hx3 : Keeps z x3.s := by
          unfold x3
          exact T.read_keeps h_1
        clear_value x3
        split
        · split
          · exact ih hx2
          · exact hx2
        · split
          · split
            · exact ih hx3
            · exact hx3
          · exact h_1

theorem State.carouselFault_keeps {z s : State} {t : Task} {core : Nat} {c : FaultCode} {addr detail : Nat}
    (h_1 : Keeps z s) :
    Keeps z (s.carouselFault t core c addr detail) := by
  unfold State.carouselFault
  split
  · exact State.taskFault_keeps h_1
  · exact h_1

theorem State.updCar_keeps {z s : State} {core : Nat} {f : Carousel → Carousel} (h_1 : Keeps z s) :
    Keeps z (s.updCar core f) := by
  unfold State.updCar
  exact State.updCore_keeps h_1

theorem State.carouselEnd_keeps {z s : State} {core : Nat} (h_1 : Keeps z s) :
    Keeps z (s.carouselEnd core) := by
  unfold State.carouselEnd
  extract_lets x1
  clear_value x1
  split
  · exact State.popQueue_keeps (State.updCar_keeps h_1)
  · exact h_1

theorem State.serveCarousel_keeps {z s : State} {t : Task} {core : Nat} (h_1 : Keeps z s) :
    Keeps z (s.serveCarousel t core).1 := by
  unfold State.serveCarousel
  extract_lets x1 x2 x3 x4 x5 x6
  clear_value x1
  clear_value x2
  clear_value x3
  clear_value x4
  clear_value x5
  clear_value x6
  split
  · split
    · dsimp only
      apply State.carouselFault_keeps
      refine Keeps.of_snd (by with_reducible assumption) ?_
      exact State.dmaTouch_keeps h_1
    · extract_lets x7 x8
      clear_value x7
      have hx8 : Keeps z x8 := by
        unfold x8
        apply State.perf_keeps
        apply State.updCar_keeps
        refine Keeps.of_snd (by with_reducible assumption) ?_
        exact State.dmaTouch_keeps h_1
      clear_value x8
      dsimp only
      exact State.carouselEnd_keeps (State.updCar_keeps hx8)
  · split
    · extract_lets x9
      clear_value x9
      split
      · dsimp only
        exact State.carouselFault_keeps h_1
      · split
        · dsimp only
          apply State.carouselFault_keeps
          refine Keeps.of_snd (by with_reducible assumption) ?_
          exact State.dmaTouch_keeps h_1
        · extract_lets x10
          have hx10 : Keeps z x10 := by
            unfold x10
            apply State.updCar_keeps
            refine Keeps.of_snd (by with_reducible assumption) ?_
            exact State.dmaTouch_keeps h_1
          clear_value x10
          dsimp only
          exact State.carouselEnd_keeps (State.wrLine_keeps hx10)
    · exact h_1

theorem E.runMset_keeps {z : State} {e : E} {s : State} (h_1 : Keeps z s) :
    Keeps z (e.runMset s) := by
  unfold E.runMset
  exact E.runMop_keeps h_1

theorem E.retry_keeps {z : State} {e : E} {s : State} (h_1 : Keeps z s) :
    Keeps z (e.retry s) := by
  unfold E.retry
  split
  · exact E.runMxLd_keeps h_1
  · exact E.runMxLd_keeps h_1
  · exact E.runMxLd_keeps h_1
  · exact E.runDrain_keeps h_1
  · exact E.runVld_keeps h_1
  · exact E.runVld_keeps h_1
  · exact E.runVst_keeps h_1
  · exact E.runMset_keeps h_1
  · exact E.runMcopy_keeps h_1
  · exact h_1

theorem execTagRetry_keeps {z : State} {core unit ctx : Nat} {meet : Bool} {s : State} (h_1 : Keeps z s) :
    KeepsRes z (execTagRetry core unit ctx meet s) := by
  unfold execTagRetry
  refine KeepsRes.next ?_
  split
  · exact h_1
  · split
    · exact h_1
    · split
      · extract_lets x1
        clear_value x1
        split
        · exact h_1
        · split
          · exact State.setCtx_keeps h_1
          · split
            · exact State.setCtx_keeps h_1
            · exact h_1
          · exact h_1
      · split
        · split
          · exact E.retry_keeps h_1
          · exact h_1
        · exact h_1

theorem execMset_keeps {z : State} {core : Nat} {s : State} (h_1 : Keeps z s) :
    KeepsRes z (execMset core s) := by
  unfold execMset
  refine KeepsRes.next ?_
  apply engineOp_keeps
  · intro v1 v2 h3
    exact E.runMset_keeps h3
  · exact h_1

theorem State.serveInbound_keeps {z s : State} {core : Nat} {g : Region} {a3 a4 : List Inbound} (h_1 : Keeps z s) :
    Keeps z (s.serveInbound core g a3 a4).1 := by
  induction a4 generalizing s core g a3 with
  | nil =>
    unfold State.serveInbound
    exact h_1
  | cons w1 w2 ih =>
    unfold State.serveInbound
    split
    · exact ih h_1
    · extract_lets x1 x2
      have hx1 : ∀ (s : State), Keeps z s → Keeps z (x1 s) := by
        intro v3 h4
        unfold x1
        exact State.updCore_keeps h4
      clear_value x1
      clear_value x2
      split
      · dsimp only
        apply hx1
        split
        · apply State.wackFill_keeps
          refine Keeps.of_snd (by with_reducible assumption) ?_
          exact State.dmaTouch_keeps h_1
        · apply State.taskFault_keeps
          refine Keeps.of_snd (by with_reducible assumption) ?_
          exact State.dmaTouch_keeps h_1
        · apply State.taskFault_keeps
          refine Keeps.of_snd (by with_reducible assumption) ?_
          exact State.dmaTouch_keeps h_1
        · split
          · apply State.taskFault_keeps
            refine Keeps.of_snd (by with_reducible assumption) ?_
            exact State.dmaTouch_keeps h_1
          · refine Keeps.of_snd (by with_reducible assumption) ?_
            exact State.dmaTouch_keeps h_1
        · refine Keeps.of_snd (by with_reducible assumption) ?_
          exact State.dmaTouch_keeps h_1
      · split
        · dsimp only
          apply hx1
          refine KeepsOpt.get (by with_reducible assumption) ?_
          apply State.inboundDo_keeps
          refine Keeps.of_snd (by with_reducible assumption) ?_
          exact State.dmaTouch_keeps h_1
        · exact ih (State.updCore_keeps h_1)

theorem State.slotIn_keeps {z s : State} {core : Nat} {g : Region} {host : List HostLine} (h_1 : Keeps z s) :
    Keeps z (s.slotIn core g host).1 := by
  unfold State.slotIn
  extract_lets x1 x2 x3
  clear_value x1
  have hx2 : Keeps z x2.1 := by
    unfold x2
    split
    · split
      · exact State.serveCarousel_keeps h_1
      · exact h_1
    · exact h_1
  clear_value x2
  have hx3 : Keeps z x3.1 := by
    unfold x3
    exact State.serveInbound_keeps hx2
  clear_value x3
  split
  · exact hx2
  · split
    · exact hx3
    · split
      · extract_lets x4
        have hx4 : Keeps z x4.s := by
          unfold x4
          exact State.serveXfers_keeps hx3
        clear_value x4
        exact hx4
      · exact hx3

theorem execMcopy_keeps {z : State} {core : Nat} {s : State} (h_1 : Keeps z s) :
    KeepsRes z (execMcopy core s) := by
  unfold execMcopy
  refine KeepsRes.next ?_
  apply engineOp_keeps
  · intro v1 v2 h3
    exact E.runMcopy_keeps h3
  · exact h_1

theorem execCarouselStep_keeps {z : State} {core : Nat} {s : State} (h_1 : Keeps z s) :
    KeepsRes z (execCarouselStep core s) := by
  unfold execCarouselStep
  refine KeepsRes.next ?_
  apply engineOp_keeps
  · intro v1 v2 h3
    extract_lets x4 x5 x6
    clear_value x4
    clear_value x5
    clear_value x6
    split
    · exact E.fault_keeps h3
    · split
      · exact h3
      · exact State.updCar_keeps (State.beginHead_keeps h3)
  · exact h_1

theorem execDmaTransferComplete_keeps {z : State} {core id : Nat} {host : List HostLine} {s : State}
    (h_1 : Keeps z s) :
    KeepsRes z (execDmaTransferComplete core id host s) := by
  unfold execDmaTransferComplete
  refine KeepsRes.next ?_
  split
  · exact h_1
  · split
    · exact h_1
    · split
      · exact h_1
      · split
        · exact h_1
        · exact State.finishXfer_keeps (T.run_keeps h_1)

theorem execTagTimeout_keeps {z : State} {core unit ctx : Nat} {s : State} (h_1 : Keeps z s) :
    KeepsRes z (execTagTimeout core unit ctx s) := by
  unfold execTagTimeout
  refine KeepsRes.next ?_
  split
  · exact h_1
  · split
    · exact h_1
    · split
      · exact State.ctxTagTimeout_keeps h_1
      · extract_lets x1 x2
        clear_value x1
        clear_value x2
        split
        · extract_lets x3
          clear_value x3
          exact E.fault_keeps (State.notBefore_keeps h_1)
        · split
          · exact h_1
          · split
            · exact T.fault_keeps (State.notBefore_keeps h_1)
            · exact h_1

theorem execDmaSlotAccess_keeps {z : State} {core : Nat} {host : List HostLine} {s : State} (h_1 : Keeps z s) :
    KeepsRes z (execDmaSlotAccess core host s) := by
  unfold execDmaSlotAccess
  extract_lets x1
  have hx1 : Keeps z x1 := by
    unfold x1
    exact State.updCore_keeps h_1
  clear_value x1
  refine KeepsRes.next ?_
  refine Keeps.foldlFst ?_ ?_
  · exact hx1
  · intro v2 v3 h4
    exact State.slotIn_keeps h4

end Sys2Proof.Machine
end

