-- ==== Sys2Proof/Laws/KeepsRein.lean ====
section
/-! SUPPORT. What each operation of Machine/Rein.lean keeps (Laws/Keeps.lean): one lemma per operation that answers a
state. -/

namespace Sys2Proof.Machine

open Sys2Proof

theorem State.takeRx_keeps {z s : State} {p i : Nat} (h_1 : Keeps z s) :
    Keeps z (s.takeRx p i) := by
  unfold State.takeRx
  exact State.updPort_keeps h_1

theorem execRfill_keeps {z : State} {port : Nat} {s : State} (h_1 : Keeps z s) :
    KeepsRes z (execRfill port s) := by
  unfold execRfill
  refine KeepsRes.next ?_
  split
  · exact h_1
  · extract_lets x1 x2 x3 x4
    have hx1 : Keeps z x1 := by
      unfold x1
      exact State.takeRx_keeps h_1
    clear_value x1
    clear_value x2
    clear_value x3
    clear_value x4
    split
    · exact State.wackFill_keeps hx1
    · split
      · exact State.wackFill_keeps hx1
      · split
        · exact State.inject_keeps hx1
        · exact State.pdSend_keeps hx1

theorem execSyncAck_keeps {z : State} {port : Nat} {epoch : Bool} {s : State} (h_1 : Keeps z s) :
    KeepsRes z (execSyncAck port epoch s) := by
  unfold execSyncAck
  extract_lets x1
  clear_value x1
  refine KeepsRes.next ?_
  split
  · exact State.setF_keeps (State.setF_keeps (State.setPort_keeps h_1))
  · exact h_1

theorem State.doneRx_keeps {z s : State} {p i : Nat} {k : Packet} (h_1 : Keeps z s) :
    Keeps z (s.doneRx p i k) := by
  unfold State.doneRx
  exact State.freeSlots_keeps (State.takeRx_keeps h_1)

theorem execRresv_keeps {z : State} {port : Nat} {s : State} (h_1 : Keeps z s) :
    KeepsRes z (execRresv port s) := by
  unfold execRresv
  refine KeepsRes.next ?_
  split
  · exact h_1
  · extract_lets x1 x2 x3
    have hx1 : Keeps z x1 := by
      unfold x1
      exact State.doneRx_keeps h_1
    clear_value x1
    clear_value x2
    have hx3 : ∀ (s : State), Keeps z s → ∀ (c first : Nat), Keeps z (x3 s c first) := by
      intro v4 h5 v6 v7
      unfold x3
      exact State.sendPacket_keeps h5
    clear_value x3
    split
    · apply hx3
      exact hx1
    · split
      · apply hx3
        exact hx1
      · split
        · extract_lets x8
          clear_value x8
          apply hx3
          exact State.grantCredits_keeps hx1
        · exact State.waitResv_keeps hx1

theorem State.resend_keeps {z s : State} {p : Nat} (h_1 : Keeps z s) :
    Keeps z (s.resend p) := by
  unfold State.resend
  extract_lets x1
  clear_value x1
  apply State.addF_keeps
  refine Keeps.foldl ?_ ?_
  · exact h_1
  · intro v2 v3 h4
    exact State.sendData_keeps h4

theorem State.setPortState_keeps {z s : State} {p v : Nat} (h_1 : Keeps z s) :
    Keeps z (s.setPortState p v) := by
  unfold State.setPortState
  exact State.setF_keeps h_1

theorem State.retrain_keeps {z s : State} {p : Nat} (h_1 : Keeps z s) :
    Keeps z (s.retrain p) := by
  unfold State.retrain
  exact State.updPort_keeps (State.setPortState_keeps h_1)

theorem State.replayNow_keeps {z s : State} {p : Nat} (h_1 : Keeps z s) :
    Keeps z (s.replayNow p) := by
  unfold State.replayNow
  extract_lets x1
  have hx1 : Keeps z x1 := by
    unfold x1
    exact State.updPort_keeps (State.resend_keeps h_1)
  clear_value x1
  split
  · exact State.retrain_keeps hx1
  · exact hx1

theorem execRd_keeps {z : State} {port : Nat} {s : State} (h_1 : Keeps z s) :
    KeepsRes z (execRd port s) := by
  unfold execRd
  refine KeepsRes.next ?_
  split
  · exact h_1
  · extract_lets x1 x2 x3 x4 x5
    clear_value x1
    clear_value x2
    clear_value x3
    have hx4 : ∀ (c : Nat), Keeps z (x4 c) := by
      intro v6
      unfold x4
      exact State.sendPacket_keeps (State.doneRx_keeps h_1)
    clear_value x4
    have hx5 : ∀ (s : State), Keeps z s → ∀ (key : Nat), Keeps z (x5 s key) := by
      intro v7 h8 v9
      unfold x5
      exact State.sendPacket_keeps (State.doneRx_keeps h8)
    clear_value x5
    split
    · apply hx4
    · split
      · apply hx4
      · split
        · apply hx5
          exact State.pdSettle_keeps h_1
        · split
          · apply hx5
            refine Keeps.of_snd (by with_reducible assumption) ?_
            exact State.devReady_keeps h_1
          · refine Keeps.of_snd (by with_reducible assumption) ?_
            exact State.devReady_keeps h_1
        · apply hx4

theorem State.takeCredits_keeps {z s : State} {p : Nat} {creds : List Nat} {cepoch : Bool} (h_1 : Keeps z s) :
    Keeps z (s.takeCredits p creds cepoch) := by
  unfold State.takeCredits
  exact State.updPort_keeps h_1

theorem execCredSync_keeps {z : State} {port fseq free0 free1 : Nat} {epoch : Bool} {s : State} (h_1 : Keeps z s) :
    KeepsRes z (execCredSync port fseq free0 free1 epoch s) := by
  unfold execCredSync
  refine KeepsRes.next ?_
  split
  · exact h_1
  · extract_lets x1 x2
    clear_value x1
    clear_value x2
    exact State.pump_keeps (State.sendOther_keeps (State.updPort_keeps h_1))

theorem Tagged.fault_keeps {z : State} {g : Tagged} {s : State} {c : FaultCode} {detail : Nat} (h_1 : Keeps z s) :
    Keeps z (g.fault s c detail) := by
  unfold Tagged.fault
  split
  · exact h_1
  · extract_lets x1
    have hx1 : ∀ (core q x : Nat), Keeps z (x1 core q x) := by
      intro v2 v3 v4
      unfold x1
      split
      · exact State.taskFault_keeps h_1
      · exact State.taskFault_keeps h_1
    clear_value x1
    split
    · apply hx1
    · apply hx1
    · exact State.taskFault_keeps h_1
    · apply hx1
    · exact State.taskFault_keeps h_1

theorem State.releaseRemote_keeps {z s : State} {p : Nat → Bool} (h_1 : Keeps z s) :
    Keeps z (s.releaseRemote p) := by
  unfold State.releaseRemote
  extract_lets x1 x2 x3 x4
  clear_value x1
  clear_value x2
  clear_value x3
  have hx4 : Keeps z x4 := by
    unfold x4
    refine Keeps.upd (u := s) ?_ rfl rfl rfl rfl rfl rfl rfl rfl
    exact h_1
  clear_value x4
  refine Keeps.foldl ?_ ?_
  · exact hx4
  · intro v5 v6 h7
    refine Keeps.foldl ?_ ?_
    · exact h7
    · intro v8 v9 h10
      exact State.poisonFill_keeps h10

theorem State.linkDown_keeps {z s : State} {p cause : Nat} (h_1 : Keeps z s) :
    Keeps z (s.linkDown p cause) := by
  unfold State.linkDown
  extract_lets x1 x2 x3 x4 x5 x6 x7 x8
  have hx1 : Keeps z x1 := by
    unfold x1
    exact State.setF_keeps (State.setPortState_keeps h_1)
  clear_value x1
  have hx2 : Keeps z x2 := by
    unfold x2
    exact State.updPort_keeps hx1
  clear_value x2
  clear_value x3
  clear_value x4
  have hx5 : Keeps z x5 := by
    unfold x5
    exact State.setTagged_keeps hx2
  clear_value x5
  have hx6 : Keeps z x6 := by
    unfold x6
    refine Keeps.foldl ?_ ?_
    · exact hx5
    · intro v9 v10 h11
      exact Tagged.fault_keeps h11
  clear_value x6
  have hx7 : Keeps z x7 := by
    unfold x7
    exact State.releaseRemote_keeps hx6
  clear_value x7
  have hx8 : Keeps z x8 := by
    unfold x8
    exact State.advise_keeps hx7
  clear_value x8
  split
  · exact hx8
  · exact State.updPort_keeps (State.setPortState_keeps hx8)

theorem execDown_keeps {z : State} {port : Nat} {s : State} (h_1 : Keeps z s) :
    KeepsRes z (execDown port s) := by
  unfold execDown
  refine KeepsRes.next ?_
  split
  · exact h_1
  · exact State.linkDown_keeps h_1

theorem State.takeAck_keeps {z s : State} {p ack : Nat} (h_1 : Keeps z s) :
    Keeps z (s.takeAck p ack) := by
  unfold State.takeAck
  extract_lets x1
  clear_value x1
  split
  · exact State.setPort_keeps h_1
  · exact h_1

theorem State.takeLink_keeps {z s : State} {p : Nat} {f : Flit} (h_1 : Keeps z s) :
    Keeps z (s.takeLink p f) := by
  unfold State.takeLink
  exact State.pump_keeps (State.takeCredits_keeps (State.takeAck_keeps h_1))

theorem State.endTag_keeps {z s : State} {g : Tagged} (h_1 : Keeps z s) :
    Keeps z (s.endTag g) := by
  unfold State.endTag
  exact State.setTagged_keeps h_1

theorem State.response_keeps {z s : State} {p typ : Nat} {go : Tagged → Packet → State → State} (h_1 : Keeps z s)
    (h_2 : ∀ (x : Tagged) (x_1 : Packet) (x_2 : State), Keeps z x_2 → Keeps z (go x x_1 x_2)) :
    Keeps z (s.response p typ go) := by
  unfold State.response
  split
  · exact h_1
  · extract_lets x1
    have hx1 : Keeps z x1 := by
      unfold x1
      exact State.doneRx_keeps h_1
    clear_value x1
    split
    · exact State.addF_keeps hx1
    · apply h_2
      exact State.endTag_keeps hx1

theorem Tagged.refused_keeps {z : State} {g : Tagged} {s : State} {status : Nat} (h_1 : Keeps z s) :
    Keeps z (g.refused s status) := by
  unfold Tagged.refused
  split
  · exact Tagged.fault_keeps h_1
  · exact Tagged.fault_keeps h_1
  · exact Tagged.fault_keeps h_1
  · exact Tagged.fault_keeps h_1

theorem execWack_keeps {z : State} {port : Nat} {s : State} (h_1 : Keeps z s) :
    KeepsRes z (execWack port s) := by
  unfold execWack
  refine KeepsRes.next ?_
  apply State.response_keeps
  · exact h_1
  · intro v1 v2 v3 h4
    extract_lets x5
    clear_value x5
    split
    · exact Tagged.refused_keeps h4
    · split
      · exact State.updXfer_keeps h4
      · exact h4

theorem State.sendCredSync_keeps {z s : State} {p : Nat} (h_1 : Keeps z s) :
    Keeps z (s.sendCredSync p) := by
  unfold State.sendCredSync
  extract_lets x1
  clear_value x1
  exact State.updPort_keeps (State.sendOther_keeps h_1)

theorem State.credRebuild_keeps {z s : State} {p : Nat} (h_1 : Keeps z s) :
    Keeps z (s.credRebuild p) := by
  unfold State.credRebuild
  split
  · exact h_1
  · exact State.setF_keeps (State.sendCredSync_keeps (State.updPort_keeps h_1))

theorem State.reinPortAct_keeps {z : State} {w : Written} {s : State} (h_1 : Keeps z s) :
    Keeps z (State.reinPortAct w s) := by
  unfold State.reinPortAct
  extract_lets x1
  have hx1 : Keeps z x1 := by
    unfold x1
    split
    · exact State.credRebuild_keeps h_1
    · exact h_1
  clear_value x1
  split
  · exact State.retrain_keeps hx1
  · exact hx1

theorem State.remoteHitch_keeps {z s : State} {w0 w1 : Word} {add : Bool} (h_1 : Keeps z s) :
    Keeps z (s.remoteHitch w0 w1 add) := by
  unfold State.remoteHitch
  extract_lets x1
  have hx1 : Keeps z x1 := by
    unfold x1
    exact State.advise_keeps h_1
  clear_value x1
  split
  · exact hx1
  · extract_lets x2 x3
    clear_value x2
    clear_value x3
    split
    · exact State.setHitchQueue_keeps h_1
    · exact hx1

theorem State.ordDo_keeps {z s : State} {k : Packet} (h_1 : Keeps z s) :
    Keeps z (s.ordDo k) := by
  unfold State.ordDo
  split
  · exact State.remoteHitch_keeps h_1
  · exact State.remoteHitch_keeps h_1
  · exact State.releaseRemote_keeps h_1

theorem State.ordNext_keeps {z s : State} {p typ : Nat} (h_1 : Keeps z s) :
    Keeps z (s.ordNext p typ) := by
  unfold State.ordNext
  extract_lets x1 x2
  clear_value x1
  clear_value x2
  split
  · exact State.ordDo_keeps (State.setPort_keeps h_1)
  · split
    · exact h_1
    · split
      · exact State.ordDo_keeps (State.doneRx_keeps h_1)
      · split
        · exact State.updPort_keeps (State.doneRx_keeps h_1)
        · exact h_1

theorem execRemoteHadd_keeps {z : State} {port : Nat} {s : State} (h_1 : Keeps z s) :
    KeepsRes z (execRemoteHadd port s) := by
  unfold execRemoteHadd
  refine KeepsRes.next ?_
  exact State.ordNext_keeps h_1

theorem State.badFlit_keeps {z s : State} {p : Nat} (h_1 : Keeps z s) :
    Keeps z (s.badFlit p) := by
  unfold State.badFlit
  exact State.sendOther_keeps (State.addF_keeps h_1)

theorem execReinLinkDown_keeps {z : State} {port cause : Nat} {s : State} (h_1 : Keeps z s) :
    KeepsRes z (execReinLinkDown port cause s) := by
  unfold execReinLinkDown
  refine KeepsRes.next ?_
  split
  · exact h_1
  · exact State.linkDown_keeps h_1

theorem execRgnt_keeps {z : State} {port : Nat} {s : State} (h_1 : Keeps z s) :
    KeepsRes z (execRgnt port s) := by
  unfold execRgnt
  refine KeepsRes.next ?_
  apply State.response_keeps
  · exact h_1
  · intro v1 v2 v3 h4
    extract_lets x5 x6 x7
    clear_value x5
    clear_value x6
    clear_value x7
    split
    · split
      · exact State.setTagged_keeps h4
      · split
        · exact Tagged.refused_keeps h4
        · split
          · split
            · exact State.granted_keeps h4
            · refine Keeps.foldl ?_ ?_
              · exact h4
              · intro v8 v9 h10
                exact State.sendTagged_keeps h10
          · exact State.granted_keeps h4
    · exact h4

theorem State.sendInit_keeps {z s : State} {p : Nat} (h_1 : Keeps z s) :
    Keeps z (s.sendInit p) := by
  unfold State.sendInit
  extract_lets x1
  clear_value x1
  exact State.updPort_keeps (State.sendOther_keeps h_1)

theorem execInitResend_keeps {z : State} {port : Nat} {s : State} (h_1 : Keeps z s) :
    KeepsRes z (execInitResend port s) := by
  unfold execInitResend
  extract_lets x1
  clear_value x1
  refine KeepsRes.next ?_
  split
  · exact State.sendInit_keeps (State.notBefore_keeps h_1)
  · exact h_1

theorem execReinPortL0_keeps {z : State} {port : Nat} {s : State} (h_1 : Keeps z s) :
    KeepsRes z (execReinPortL0 port s) := by
  unfold execReinPortL0
  extract_lets x1
  clear_value x1
  refine KeepsRes.next ?_
  split
  · apply State.sendInit_keeps
    apply State.updPort_keeps
    split
    · exact State.setPortState_keeps h_1
    · exact h_1
  · exact h_1

theorem execReinTrainTimeout_keeps {z : State} {port : Nat} {s : State} (h_1 : Keeps z s) :
    KeepsRes z (execReinTrainTimeout port s) := by
  unfold execReinTrainTimeout
  refine KeepsRes.next ?_
  split
  · extract_lets x1
    have hx1 : Keeps z x1 := by
      unfold x1
      exact State.notBefore_keeps h_1
    clear_value x1
    exact State.updPort_keeps hx1
  · exact h_1

theorem execRemoteHwr_keeps {z : State} {port : Nat} {s : State} (h_1 : Keeps z s) :
    KeepsRes z (execRemoteHwr port s) := by
  unfold execRemoteHwr
  refine KeepsRes.next ?_
  exact State.ordNext_keeps h_1

theorem execIdleFlit_keeps {z : State} {port : Nat} {crcOk : Bool} {f : Flit} {s : State} (h_1 : Keeps z s) :
    KeepsRes z (execIdleFlit port crcOk f s) := by
  unfold execIdleFlit
  refine KeepsRes.next ?_
  split
  · exact h_1
  · split
    · exact State.takeLink_keeps h_1
    · exact State.badFlit_keeps h_1

theorem execRrel_keeps {z : State} {port : Nat} {s : State} (h_1 : Keeps z s) :
    KeepsRes z (execRrel port s) := by
  unfold execRrel
  refine KeepsRes.next ?_
  exact State.ordNext_keeps h_1

theorem execDataFlit_keeps {z : State} {port : Nat} {crcOk : Bool} {f : Flit} {s : State} (h_1 : Keeps z s) :
    KeepsRes z (execDataFlit port crcOk f s) := by
  unfold execDataFlit
  refine KeepsRes.next ?_
  split
  · exact h_1
  · split
    · exact State.badFlit_keeps h_1
    · extract_lets x1 x2
      clear_value x1
      clear_value x2
      split
      · split
        · exact State.takeLink_keeps (State.setPort_keeps h_1)
        · exact State.linkDown_keeps h_1
      · split
        · exact h_1
        · exact State.sendOther_keeps h_1

theorem execPacketForward_keeps {z : State} {port : Nat} {s : State} (h_1 : Keeps z s) :
    KeepsRes z (execPacketForward port s) := by
  unfold execPacketForward
  refine KeepsRes.next ?_
  split
  · exact h_1
  · split
    · split
      · exact State.addF_keeps (State.doneRx_keeps h_1)
      · exact State.sendVia_keeps (State.takeRx_keeps h_1)
    · exact State.addF_keeps (State.doneRx_keeps h_1)

theorem execReplayTimeout_keeps {z : State} {port : Nat} {s : State} (h_1 : Keeps z s) :
    KeepsRes z (execReplayTimeout port s) := by
  unfold execReplayTimeout
  extract_lets x1
  clear_value x1
  refine KeepsRes.next ?_
  split
  · exact h_1
  · exact State.replayNow_keeps (State.notBefore_keeps h_1)

theorem execNak_keeps {z : State} {port : Nat} {crcOk : Bool} {f : Flit} {s : State} (h_1 : Keeps z s) :
    KeepsRes z (execNak port crcOk f s) := by
  unfold execNak
  refine KeepsRes.next ?_
  split
  · exact h_1
  · split
    · exact State.badFlit_keeps h_1
    · exact State.replayNow_keeps (State.takeLink_keeps h_1)

theorem execReinTimeout_keeps {z : State} {unit tag : Nat} {s : State} (h_1 : Keeps z s) :
    KeepsRes z (execReinTimeout unit tag s) := by
  unfold execReinTimeout
  refine KeepsRes.next ?_
  split
  · exact h_1
  · extract_lets x1
    have hx1 : Keeps z x1 := by
      unfold x1
      exact State.notBefore_keeps h_1
    clear_value x1
    exact Tagged.fault_keeps (State.endTag_keeps hx1)

theorem execRdata_keeps {z : State} {port : Nat} {s : State} (h_1 : Keeps z s) :
    KeepsRes z (execRdata port s) := by
  unfold execRdata
  refine KeepsRes.next ?_
  apply State.response_keeps
  · exact h_1
  · intro v1 v2 v3 h4
    extract_lets x5
    clear_value x5
    split
    · exact Tagged.refused_keeps h4
    · split
      · extract_lets x6
        clear_value x6
        exact State.updXfer_keeps h4
      · exact h4

theorem execReinDownLimit_keeps {z : State} {port : Nat} {s : State} (h_1 : Keeps z s) :
    KeepsRes z (execReinDownLimit port s) := by
  unfold execReinDownLimit
  refine KeepsRes.next ?_
  split
  · exact State.linkDown_keeps (State.notBefore_keeps h_1)
  · exact h_1

theorem execRresvRetry_keeps {z : State} {unit tag : Nat} {s : State} (h_1 : Keeps z s) :
    KeepsRes z (execRresvRetry unit tag s) := by
  unfold execRresvRetry
  refine KeepsRes.next ?_
  split
  · exact h_1
  · extract_lets x1
    have hx1 : Keeps z x1 := by
      unfold x1
      exact State.notBefore_keeps h_1
    clear_value x1
    exact State.sendPacket_keeps (State.setTagged_keeps hx1)

theorem execCredSyncResend_keeps {z : State} {port : Nat} {s : State} (h_1 : Keeps z s) :
    KeepsRes z (execCredSyncResend port s) := by
  unfold execCredSyncResend
  refine KeepsRes.next ?_
  split
  · split
    · exact State.sendCredSync_keeps (State.notBefore_keeps h_1)
    · exact h_1
  · exact h_1

theorem execInit_keeps {z : State} {port chip topo : Nat} {dateline fresh : Bool} {rev ack : Nat} {free : List Nat}
    {s : State} (h_1 : Keeps z s) :
    KeepsRes z (execInit port chip topo dateline fresh rev ack free s) := by
  unfold execInit
  extract_lets x1 x2 x3 x4 x5 x6 x7
  clear_value x1
  clear_value x2
  have hx3 : Keeps z x3 := by
    unfold x3
    exact State.setF_keeps (State.setF_keeps h_1)
  clear_value x3
  clear_value x4
  have hx5 : Keeps z x5 := by
    unfold x5
    exact State.takeAck_keeps hx3
  clear_value x5
  have hx6 : Keeps z x6 := by
    unfold x6
    exact State.updPort_keeps hx5
  clear_value x6
  have hx7 : Keeps z x7 := by
    unfold x7
    exact State.setF_keeps (State.setPortState_keeps hx6)
  clear_value x7
  refine KeepsRes.next ?_
  split
  · exact h_1
  · split
    · exact State.sendOther_keeps (State.linkDown_keeps hx3)
    · split
      · split
        · exact State.linkDown_keeps hx3
        · exact hx3
      · split
        · split
          · exact State.linkDown_keeps hx3
          · exact State.pump_keeps (State.setPort_keeps (State.setPortState_keeps hx3))
        · split
          · exact hx3
          · exact State.pump_keeps (State.resend_keeps (State.addF_keeps hx7))

end Sys2Proof.Machine
end

