-- ==== Sys2Proof/Laws/KeepsAbort.lean ====
section
/-! SUPPORT. What each operation of Machine/Abort.lean keeps (Laws/Keeps.lean): one lemma per operation that answers a
state. -/

namespace Sys2Proof.Machine

open Sys2Proof

theorem State.dropAccw_keeps {z s : State} {e : Nat} (h_1 : Keeps z s) :
    Keeps z (s.dropAccw e) := by
  unfold State.dropAccw
  extract_lets x1
  clear_value x1
  split
  · exact State.setReg_keeps (State.setReg_keeps h_1)
  · exact State.setF_keeps h_1

theorem State.dropHolds_keeps {z s : State} {id : Nat} (h_1 : Keeps z s) :
    Keeps z (s.dropHolds id) := by
  unfold State.dropHolds
  refine Keeps.upd (u := s) ?_ rfl rfl rfl rfl rfl rfl rfl rfl
  exact h_1

theorem State.banksOn_keeps {z s : State} {core : Nat} (h_1 : Keeps z s) :
    Keeps z (s.banksOn core) := by
  unfold State.banksOn
  exact State.setF_keeps (State.clearWhere_keeps h_1)

theorem State.freeCores_keeps {z s : State} {t : Task} (h_1 : Keeps z s) :
    Keeps z (s.freeCores t) := by
  unfold State.freeCores
  refine Keeps.foldl ?_ ?_
  · exact h_1
  · intro v1 v2 h3
    split
    · exact State.updCore_keeps (State.banksOn_keeps h3)
    · exact h3

theorem State.endTask_keeps {z s : State} {id status detail : Nat} {data : (List Byte)} (h_1 : Keeps z s) :
    Keeps z (s.endTask id status detail data) := by
  unfold State.endTask
  split
  · exact h_1
  · extract_lets x1 x2 x3 x4 x5 x6 x7 x8
    clear_value x1
    have hx2 : Keeps z x2 := by
      unfold x2
      exact State.traceTask_keeps h_1
    clear_value x2
    have hx3 : Keeps z x3 := by
      unfold x3
      refine Keeps.foldl ?_ ?_
      · exact State.dropHolds_keeps (State.freeCores_keeps hx2)
      · intro v9 v10 h11
        exact State.dropAccw_keeps h11
    clear_value x3
    clear_value x4
    have hx5 : Keeps z x5 := by
      unfold x5
      refine Keeps.upd (u := x3) ?_ rfl rfl rfl rfl rfl rfl rfl rfl
      exact hx3
    clear_value x5
    have hx6 : Keeps z x6 := by
      unfold x6
      exact State.completeCmd_keeps hx5
    clear_value x6
    have hx7 : Keeps z x7 := by
      unfold x7
      refine Keeps.foldl ?_ ?_
      · exact hx6
      · intro v12 v13 h14
        exact State.completeCmd_keeps h14
    clear_value x7
    have hx8 : Keeps z x8 := by
      unfold x8
      split
      · exact State.completeCmd_keeps hx7
      · exact hx7
    clear_value x8
    split
    · exact State.completeCmd_keeps hx8
    · exact hx8

theorem State.cutSaved_keeps {z s : State} {p : Task → Bool} (h_1 : Keeps z s) :
    Keeps z (s.cutSaved p) := by
  unfold State.cutSaved
  refine Keeps.upd (u := s) ?_ rfl rfl rfl rfl rfl rfl rfl rfl
  exact h_1

theorem State.dropRingPops_keeps {z s : State} {i : Nat} (h_1 : Keeps z s) :
    Keeps z (s.dropRingPops i) := by
  unfold State.dropRingPops
  split
  · exact State.updCore_keeps h_1
  · exact State.removePd_keeps h_1

theorem State.ctxFault_keeps {z s : State} {id core ctx : Nat} {c : FaultCode} {addr detail : Nat} (h_1 : Keeps z s) :
    Keeps z (s.ctxFault id core ctx c addr detail) := by
  unfold State.ctxFault
  extract_lets x1
  clear_value x1
  exact State.taskFault_keeps h_1

theorem State.endWaiter_keeps {z s : State} {w : RWait} (h_1 : Keeps z s) :
    Keeps z (s.endWaiter w) := by
  unfold State.endWaiter
  split
  · exact State.ctxFault_keeps h_1
  · split
    · exact Stream.fault_keeps h_1
    · exact h_1
  · exact State.sendPacket_keeps h_1
  · exact h_1

theorem State.ringOff_keeps {z s : State} {i : Nat} (h_1 : Keeps z s) :
    Keeps z (s.ringOff i) := by
  unfold State.ringOff
  extract_lets x1 x2 x3
  clear_value x1
  have hx2 : Keeps z x2 := by
    unfold x2
    exact State.setRing_keeps (State.dropRingPops_keeps (State.setF_keeps h_1))
  clear_value x2
  have hx3 : Keeps z x3 := by
    unfold x3
    refine Keeps.foldl ?_ ?_
    · exact hx2
    · intro v4 v5 h6
      exact State.endWaiter_keeps h6
  clear_value x3
  refine Keeps.foldl ?_ ?_
  · exact hx3
  · intro v7 v8 h9
    exact State.ctxFault_keeps h9

theorem State.clearRing_keeps {z s : State} {i : Nat} (h_1 : Keeps z s) :
    Keeps z (s.clearRing i) := by
  unfold State.clearRing
  exact State.setReg_keeps (State.ringOff_keeps h_1)

theorem State.clearCore_keeps {z s : State} {c : Nat} (h_1 : Keeps z s) :
    Keeps z (s.clearCore c) := by
  unfold State.clearCore
  extract_lets x1 x2 x3 x4
  have hx1 : Keeps z x1 := by
    unfold x1
    refine Keeps.foldl ?_ ?_
    · exact h_1
    · intro v5 v6 h7
      exact State.clearRing_keeps h7
  clear_value x1
  have hx2 : Keeps z x2 := by
    unfold x2
    exact State.clearOnChip_keeps (State.clearOnChip_keeps hx1)
  clear_value x2
  have hx3 : Keeps z x3 := by
    unfold x3
    refine Keeps.foldl ?_ ?_
    · exact hx2
    · intro v8 v9 h10
      exact State.setReg_keeps (State.setReg_keeps (State.setF_keeps h10))
  clear_value x3
  have hx4 : Keeps z x4 := by
    unfold x4
    refine Keeps.foldl ?_ ?_
    · exact State.setReg_keeps hx3
    · intro v11 v12 h13
      exact State.setReg_keeps h13
  clear_value x4
  exact State.setCore_keeps (State.setReg_keeps (State.setReg_keeps (State.setF_keeps hx4)))

theorem State.dropToTrot_keeps {z s : State} (h_1 : Keeps z s) :
    Keeps z s.dropToTrot := by
  unfold State.dropToTrot
  split
  · exact State.setF_keeps h_1
  · exact h_1

theorem State.loseCores_keeps {z s : State} (h_1 : Keeps z s) :
    Keeps z s.loseCores := by
  unfold State.loseCores
  refine Keeps.foldl ?_ ?_
  · exact h_1
  · intro v1 v2 h3
    exact State.updCore_keeps (State.clearOnChip_keeps (State.clearOnChip_keeps h3))

theorem State.dropCmd_keeps {z s : State} {sq : Nat} {c : Cmd} {status detail : Nat} (h_1 : Keeps z s) :
    Keeps z (s.dropCmd sq c status detail) := by
  unfold State.dropCmd
  extract_lets x1 x2
  clear_value x1
  have hx2 : Keeps z x2 := by
    unfold x2
    split
    · split
      · refine Keeps.upd (u := s) ?_ rfl rfl rfl rfl rfl rfl rfl rfl
        exact h_1
      · exact h_1
    · exact h_1
  clear_value x2
  exact State.completeCmd_keeps hx2

theorem State.dropWaiting_keeps {z s : State} {sq status detail : Nat} {p : Cmd → Bool} (h_1 : Keeps z s) :
    Keeps z (s.dropWaiting sq status detail p) := by
  unfold State.dropWaiting
  refine Keeps.foldl ?_ ?_
  · exact h_1
  · intro v1 v2 h3
    exact State.dropCmd_keeps h3

theorem State.fenceWaiting_keeps {z s : State} (h_1 : Keeps z s) :
    Keeps z s.fenceWaiting := by
  unfold State.fenceWaiting
  refine Keeps.foldl ?_ ?_
  · exact h_1
  · intro v1 v2 h3
    exact State.dropWaiting_keeps h3

theorem State.endCoreBursts_keeps {z s : State} (h_1 : Keeps z s) :
    Keeps z s.endCoreBursts := by
  unfold State.endCoreBursts
  exact State.endBursts_keeps h_1

theorem State.dropTaskPops_keeps {z s : State} {id : Nat} (h_1 : Keeps z s) :
    Keeps z (s.dropTaskPops id) := by
  unfold State.dropTaskPops
  refine Keeps.foldl ?_ ?_
  · exact h_1
  · intro v1 v2 h3
    extract_lets x4 x5 x6 x7 x8
    clear_value x4
    clear_value x5
    clear_value x6
    have hx7 : Keeps z x7 := by
      unfold x7
      exact State.setRing_keeps (State.dropRingPops_keeps h3)
    clear_value x7
    have hx8 : Keeps z x8 := by
      unfold x8
      exact State.setRing_keeps (State.dropRingPops_keeps h3)
    clear_value x8
    split
    · exact h3
    · split
      · extract_lets x9
        clear_value x9
        refine Keeps.foldl ?_ ?_
        · exact hx7
        · intro v10 v11 h12
          exact State.inject_keeps h12
      · exact State.startPop_keeps hx8

theorem State.quiesce_keeps {z s : State} {t : Task} (h_1 : Keeps z s) :
    Keeps z (s.quiesce t) := by
  unfold State.quiesce
  extract_lets x1 x2 x3 x4 x5 x6 x7 x8 x9 x10
  have hx2 : Keeps z x2 := by
    unfold x2
    refine Keeps.foldl ?_ ?_
    · exact h_1
    · intro v11 v12 h13
      split
      · exact State.updCore_keeps h13
      · exact h13
  clear_value x2
  clear_value x3
  have hx4 : Keeps z x4 := by
    unfold x4
    refine Keeps.upd (u := x2) ?_ rfl rfl rfl rfl rfl rfl rfl rfl
    exact hx2
  clear_value x4
  have hx5 : Keeps z x5 := by
    unfold x5
    refine Keeps.foldl ?_ ?_
    · exact hx4
    · intro v14 v15 h16
      refine Keeps.foldl ?_ ?_
      · exact h16
      · intro v17 v18 h19
        exact State.setF_keeps h19
  clear_value x5
  have hx6 : Keeps z x6 := by
    unfold x6
    exact State.removePd_keeps (State.dropTaskPops_keeps hx5)
  clear_value x6
  clear_value x7
  have hx8 : Keeps z x8 := by
    unfold x8
    exact State.setHs_keeps hx6
  clear_value x8
  clear_value x9
  have hx10 : Keeps z x10 := by
    unfold x10
    refine Keeps.upd (u := x8) ?_ rfl rfl rfl rfl rfl rfl rfl rfl
    exact hx8
  clear_value x10
  exact State.settleStaged_keeps (State.setTagged_keeps hx10)

theorem State.endTaskBursts_keeps {z s : State} {id : Nat} (h_1 : Keeps z s) :
    Keeps z (s.endTaskBursts id) := by
  unfold State.endTaskBursts
  exact State.endBursts_keeps h_1

theorem State.releaseHeld_keeps {z s : State} {t : Task} (h_1 : Keeps z s) :
    Keeps z (s.releaseHeld t) := by
  unfold State.releaseHeld
  extract_lets x1 x2 x3 x4 x5 x6
  clear_value x1
  clear_value x2
  have hx3 : Keeps z x3 := by
    unfold x3
    refine Keeps.upd (u := s) ?_ rfl rfl rfl rfl rfl rfl rfl rfl
    exact h_1
  clear_value x3
  have hx4 : Keeps z x4 := by
    unfold x4
    refine Keeps.foldl ?_ ?_
    · exact hx3
    · intro v7 v8 h9
      refine Keeps.foldl ?_ ?_
      · exact h9
      · intro v10 v11 h12
        exact State.poisonFill_keeps h12
  clear_value x4
  have hx5 : Keeps z x5 := by
    unfold x5
    refine Keeps.foldl ?_ ?_
    · exact hx4
    · intro v13 v14 h15
      exact State.sendPacket_keeps h15
  clear_value x5
  have hx6 : Keeps z x6 := by
    unfold x6
    refine Keeps.foldl ?_ ?_
    · exact State.dropHolds_keeps hx5
    · intro v16 v17 h18
      exact State.dropAccw_keeps h18
  clear_value x6
  exact State.updTask_keeps hx6

theorem State.markHitches_keeps {z s : State} {t : Task} (h_1 : Keeps z s) :
    Keeps z (s.markHitches t) := by
  unfold State.markHitches
  extract_lets x1
  have hx1 : Keeps z x1 := by
    unfold x1
    refine Keeps.foldl ?_ ?_
    · exact h_1
    · intro v2 v3 h4
      exact State.hitchPoke_keeps h4
  clear_value x1
  exact State.updTask_keeps hx1

theorem State.abortOrder_keeps {z s : State} {ids : List Nat} (h_1 : Keeps z s) :
    Keeps z (s.abortOrder ids) := by
  unfold State.abortOrder
  extract_lets x1 x2 x3 x4
  have hx1 : Keeps z x1 := by
    unfold x1
    refine Keeps.foldl ?_ ?_
    · exact h_1
    · intro v5 v6 h7
      exact State.updTask_keeps h7
  clear_value x1
  have hx2 : Keeps z x2 := by
    unfold x2
    refine Keeps.foldl ?_ ?_
    · exact hx1
    · intro v8 v9 h10
      exact State.quiesce_keeps h10
  clear_value x2
  have hx3 : Keeps z x3 := by
    unfold x3
    refine Keeps.foldl ?_ ?_
    · exact hx2
    · intro v11 v12 h13
      exact State.endTaskBursts_keeps h13
  clear_value x3
  have hx4 : Keeps z x4 := by
    unfold x4
    refine Keeps.foldl ?_ ?_
    · exact hx3
    · intro v14 v15 h16
      exact State.releaseHeld_keeps h16
  clear_value x4
  refine Keeps.foldl ?_ ?_
  · exact hx4
  · intro v17 v18 h19
    exact State.markHitches_keeps h19

theorem State.sentence_keeps {z s : State} {ids : List Nat} {status detail : Nat} {force : Bool} (h_1 : Keeps z s) :
    Keeps z (s.sentence ids status detail force) := by
  unfold State.sentence
  refine Keeps.foldl ?_ ?_
  · exact h_1
  · intro v1 v2 h3
    exact State.updTask_keeps h3

theorem State.abortTasks_keeps {z s : State} {ids : List Nat} {status detail : Nat} {force : Bool} (h_1 : Keeps z s) :
    Keeps z (s.abortTasks ids status detail force) := by
  unfold State.abortTasks
  extract_lets x1
  have hx1 : Keeps z x1 := by
    unfold x1
    exact State.abortOrder_keeps (State.sentence_keeps h_1)
  clear_value x1
  refine Keeps.foldl ?_ ?_
  · exact hx1
  · intro v2 v3 h4
    split
    · exact State.endTask_keeps h4
    · exact State.endTask_keeps h4

theorem State.fenceOn_keeps {z s : State} {cause : Nat} (h_1 : Keeps z s) :
    Keeps z (s.fenceOn cause) := by
  unfold State.fenceOn
  split
  · exact h_1
  · extract_lets x1 x2 x3 x4 x5 x6 x7
    clear_value x1
    clear_value x2
    have hx3 : Keeps z x3 := by
      unfold x3
      refine Keeps.upd (u := s) ?_ rfl rfl rfl rfl rfl rfl rfl rfl
      exact h_1
    clear_value x3
    have hx4 : Keeps z x4 := by
      unfold x4
      exact State.dropToTrot_keeps hx3
    clear_value x4
    clear_value x5
    have hx6 : Keeps z x6 := by
      unfold x6
      split
      · apply State.loseCores_keeps
        exact State.fenceWaiting_keeps (State.endCoreBursts_keeps (State.abortTasks_keeps hx4))
      · exact hx4
    clear_value x6
    have hx7 : Keeps z x7 := by
      unfold x7
      refine Keeps.foldl ?_ ?_
      · exact hx6
      · intro v8 v9 h10
        exact State.trace_keeps h10
    clear_value x7
    exact State.moduleEvent_keeps (State.advise_keeps hx7)

theorem execComputeFence_keeps {z : State} {cause : Nat} {s : State} (h_1 : Keeps z s) :
    KeepsRes z (execComputeFence cause s) := by
  unfold execComputeFence
  refine KeepsRes.next ?_
  split
  · exact State.fenceOn_keeps h_1
  · exact h_1

theorem State.clearHitch_keeps {z s : State} {i : Nat} (h_1 : Keeps z s) :
    Keeps z (s.clearHitch i) := by
  unfold State.clearHitch
  exact State.setHs_keeps h_1

theorem State.clearBarrier_keeps {z s : State} {b : Nat} (h_1 : Keeps z s) :
    Keeps z (s.clearBarrier b) := by
  unfold State.clearBarrier
  exact State.setReg_keeps h_1

theorem State.clearSq_keeps {z s : State} {n : Nat} (h_1 : Keeps z s) :
    Keeps z (s.clearSq n) := by
  unfold State.clearSq
  exact State.setSq_keeps (State.setReg_keeps (State.setReg_keeps (State.setF_keeps h_1)))

theorem State.clearCq_keeps {z s : State} {n : Nat} (h_1 : Keeps z s) :
    Keeps z (s.clearCq n) := by
  unfold State.clearCq
  exact State.setCq_keeps (State.setReg_keeps (State.setReg_keeps (State.setF_keeps h_1)))

theorem State.clearSlots_keeps {z s : State} {k n : Nat} (h_1 : Keeps z s) :
    Keeps z (s.clearSlots k n) := by
  unfold State.clearSlots
  extract_lets x1 x2
  clear_value x1
  have hx2 : Keeps z x2 := by
    unfold x2
    refine Keeps.upd (u := s) ?_ rfl rfl rfl rfl rfl rfl rfl rfl
    exact h_1
  clear_value x2
  exact State.clearOnChip_keeps hx2

theorem State.unloadHrn_keeps {z s : State} {e : Nat} (h_1 : Keeps z s) :
    Keeps z (s.unloadHrn e) := by
  unfold State.unloadHrn
  exact State.clearOnChip_keeps (State.setF_keeps (State.setF_keeps h_1))

theorem State.clearStall_keeps {z s : State} {st : Nat} (h_1 : Keeps z s) :
    Keeps z (s.clearStall st) := by
  unfold State.clearStall
  extract_lets x1 x2 x3 x4 x5 x6 x7 x8 x9
  clear_value x1
  have hx2 : Keeps z x2 := by
    unfold x2
    refine Keeps.foldl ?_ ?_
    · exact h_1
    · intro v10 v11 h12
      exact State.clearCore_keeps h12
  clear_value x2
  have hx3 : Keeps z x3 := by
    unfold x3
    refine Keeps.foldl ?_ ?_
    · exact hx2
    · intro v13 v14 h15
      split
      · exact State.clearOnChip_keeps h15
      · exact h15
  clear_value x3
  have hx4 : Keeps z x4 := by
    unfold x4
    refine Keeps.foldl ?_ ?_
    · exact hx3
    · intro v16 v17 h18
      exact State.clearHitch_keeps h18
  clear_value x4
  have hx5 : Keeps z x5 := by
    unfold x5
    refine Keeps.foldl ?_ ?_
    · exact hx4
    · intro v19 v20 h21
      exact State.clearBarrier_keeps h21
  clear_value x5
  have hx6 : Keeps z x6 := by
    unfold x6
    refine Keeps.foldl ?_ ?_
    · exact hx5
    · intro v22 v23 h24
      exact State.clearRing_keeps h24
  clear_value x6
  have hx7 : Keeps z x7 := by
    unfold x7
    refine Keeps.foldl ?_ ?_
    · exact hx6
    · intro v25 v26 h27
      exact State.clearSq_keeps h27
  clear_value x7
  have hx8 : Keeps z x8 := by
    unfold x8
    refine Keeps.foldl ?_ ?_
    · exact hx7
    · intro v28 v29 h30
      exact State.clearCq_keeps h30
  clear_value x8
  have hx9 : Keeps z x9 := by
    unfold x9
    exact State.clearSlots_keeps hx8
  clear_value x9
  refine Keeps.foldl ?_ ?_
  · exact hx9
  · intro v31 v32 h33
    exact State.unloadHrn_keeps h33

theorem State.resetStall_keeps {z s : State} {st status detail : Nat} {saved : Bool} (h_1 : Keeps z s) :
    Keeps z (s.resetStall st status detail saved) := by
  unfold State.resetStall
  split
  · exact h_1
  · extract_lets x1 x2 x3 x4 x5 x6
    clear_value x1
    have hx2 : Keeps z x2 := by
      unfold x2
      exact State.abortTasks_keeps h_1
    clear_value x2
    have hx3 : Keeps z x3 := by
      unfold x3
      refine Keeps.foldl ?_ ?_
      · exact hx2
      · intro v7 v8 h9
        exact State.hitchPoke_keeps h9
    clear_value x3
    clear_value x4
    have hx5 : Keeps z x5 := by
      unfold x5
      refine Keeps.foldl ?_ ?_
      · exact hx3
      · intro v10 v11 h12
        exact State.dropWaiting_keeps (State.setF_keeps h12)
    clear_value x5
    have hx6 : Keeps z x6 := by
      unfold x6
      refine Keeps.foldl ?_ ?_
      · exact hx5
      · intro v13 v14 h15
        refine Keeps.foldl ?_ ?_
        · exact h15
        · intro v16 v17 h18
          exact State.completeCmd_keeps h18
    clear_value x6
    exact State.clearStall_keeps (State.cutSaved_keeps hx6)

theorem State.fenceOff_keeps {z s : State} {cause : Nat} (h_1 : Keeps z s) :
    Keeps z (s.fenceOff cause) := by
  unfold State.fenceOff
  split
  · exact h_1
  · apply State.advise_keeps
    refine Keeps.upd (u := s) ?_ rfl rfl rfl rfl rfl rfl rfl rfl
    exact h_1

theorem execTaskAbort_keeps {z : State} {task : Nat} {s : State} (h_1 : Keeps z s) :
    KeepsRes z (execTaskAbort task s) := by
  unfold execTaskAbort
  refine KeepsRes.next ?_
  split
  · exact h_1
  · split
    · exact h_1
    · split
      · exact State.abortOrder_keeps h_1
      · exact State.abortTasks_keeps h_1

theorem State.stallFatal_keeps {z s : State} {st mem : Nat} (h_1 : Keeps z s) :
    Keeps z (s.stallFatal st mem) := by
  unfold State.stallFatal
  extract_lets x1 x2
  clear_value x1
  have hx2 : Keeps z x2 := by
    unfold x2
    exact State.logFault_keeps h_1
  clear_value x2
  exact State.resetStall_keeps hx2

theorem execStallFatal_keeps {z : State} {st mem : Nat} {s : State} (h_1 : Keeps z s) :
    KeepsRes z (execStallFatal st mem s) := by
  unfold execStallFatal
  refine KeepsRes.next ?_
  split
  · exact State.stallFatal_keeps h_1
  · exact h_1

theorem execTaskTimeout_keeps {z : State} {task : Nat} {s : State} (h_1 : Keeps z s) :
    KeepsRes z (execTaskTimeout task s) := by
  unfold execTaskTimeout
  refine KeepsRes.next ?_
  split
  · exact h_1
  · split
    · exact h_1
    · extract_lets x1
      have hx1 : Keeps z x1 := by
        unfold x1
        exact State.notBefore_keeps h_1
      clear_value x1
      exact State.taskFault_keeps (State.addF_keeps hx1)

theorem State.resetCore_keeps {z s : State} {core reason : Nat} (h_1 : Keeps z s) :
    Keeps z (s.resetCore core reason) := by
  unfold State.resetCore
  extract_lets x1 x2 x3 x4 x5 x6 x7
  have hx1 : Keeps z x1 := by
    unfold x1
    split
    · extract_lets x8
      have hx8 : Keeps z x8 := by
        unfold x8
        exact State.taskFault_keeps h_1
      clear_value x8
      split
      · exact State.abortOrder_keeps hx8
      · exact State.abortTasks_keeps hx8
    · exact h_1
  clear_value x1
  have hx2 : Keeps z x2 := by
    unfold x2
    exact State.addF_keeps (State.clearCore_keeps hx1)
  clear_value x2
  have hx3 : Keeps z x3 := by
    unfold x3
    exact State.logFault_keeps hx2
  clear_value x3
  clear_value x4
  clear_value x5
  clear_value x6
  have hx7 : Keeps z x7 := by
    unfold x7
    refine Keeps.upd (u := x3) ?_ rfl rfl rfl rfl rfl rfl rfl rfl
    exact hx3
  clear_value x7
  split
  · exact State.setF_keeps (State.setReg_keeps hx7)
  · exact hx7

theorem execCoreReset_keeps {z : State} {core reason : Nat} {s : State} (h_1 : Keeps z s) :
    KeepsRes z (execCoreReset core reason s) := by
  unfold execCoreReset
  refine KeepsRes.next ?_
  extract_lets x1
  clear_value x1
  split
  · exact State.resetCore_keeps h_1
  · exact h_1

end Sys2Proof.Machine
end

