-- ==== Sys2Proof/Laws/KeepsQueues.lean ====
section
/-! SUPPORT. What each operation of Machine/Queues.lean keeps (Laws/Keeps.lean): one lemma per operation that answers a
state. -/

namespace Sys2Proof.Machine

open Sys2Proof

theorem State.readRecord_keeps {z s : State} {n i : Nat} {host : List Line64} (h_1 : Keeps z s) :
    Keeps z (s.readRecord n i host).2.2 := by
  unfold State.readRecord
  extract_lets x1
  clear_value x1
  split
  · split
    · dsimp only
      refine Keeps.of_snd (by with_reducible assumption) ?_
      exact State.devReady_keeps h_1
    · dsimp only
      refine Keeps.of_snd (by with_reducible assumption) ?_
      exact State.devReady_keeps h_1
  · split
    · dsimp only
      exact State.emit_keeps h_1
    · exact h_1
  · exact h_1

theorem State.flushedSeqs_keeps {z s : State} {n : Nat} {host : List Line64} {i k : Nat} (h_1 : Keeps z s) :
    Keeps z (s.flushedSeqs n host i k).2 := by
  induction k generalizing s n host i with
  | zero =>
    unfold State.flushedSeqs
    exact h_1
  | succ w2 ih =>
    unfold State.flushedSeqs
    split
    · extract_lets x1
      have hx1 : Keeps z x1.2 := by
        unfold x1
        apply ih
        refine Keeps.of_snd2 (by with_reducible assumption) ?_
        exact State.readRecord_keeps h_1
      clear_value x1
      exact hx1
    · apply ih
      refine Keeps.of_snd2 (by with_reducible assumption) ?_
      exact State.readRecord_keeps h_1

theorem State.pointerAct_keeps {z : State} {ptr : Reg} {depth : State → Nat → Nat} {go : State → State}
    {w : Written} {s : State} (h_1 : ∀ (x : State), Keeps z x → Keeps z (go x)) (h_2 : Keeps z s) :
    Keeps z (State.pointerAct ptr depth go w s) := by
  unfold State.pointerAct
  extract_lets x1
  clear_value x1
  split
  · exact h_2
  · split
    · exact State.refuseAccess_keeps h_2
    · apply h_1
      exact State.setF_keeps h_2

theorem State.doorbellAct_keeps {z : State} {w : Written} {s : State} (h_1 : Keeps z s) :
    Keeps z (State.doorbellAct w s) := by
  unfold State.doorbellAct
  apply State.pointerAct_keeps
  · intro v1 h2
    exact State.setF_keeps h2
  · exact h_1

theorem execSqDoorbell_keeps {z : State} {req n : Nat} {val : Word} {s : State} (h_1 : Keeps z s) :
    KeepsRes z (execSqDoorbell req n val s) := by
  unfold execSqDoorbell
  refine KeepsRes.next ?_
  apply State.regWrite_keeps
  · exact h_1
  · intro v1 v2 h3
    exact State.doorbellAct_keeps h3

theorem State.headAct_keeps {z : State} {w : Written} {s : State} (h_1 : Keeps z s) :
    Keeps z (State.headAct w s) := by
  unfold State.headAct
  apply State.pointerAct_keeps
  · intro v1 h2
    dsimp only [id]
    exact h2
  · exact h_1

theorem execCqHeadWrite_keeps {z : State} {req n : Nat} {val : Word} {s : State} (h_1 : Keeps z s) :
    KeepsRes z (execCqHeadWrite req n val s) := by
  unfold execCqHeadWrite
  refine KeepsRes.next ?_
  apply State.regWrite_keeps
  · exact h_1
  · intro v1 v2 h3
    exact State.headAct_keeps h3

theorem State.memLineReady_keeps {z s : State} {st a : Nat} {write : Bool} (h_1 : Keeps z s) :
    Keeps z (s.memLineReady st a write).2 := by
  unfold State.memLineReady
  split
  · exact State.devReady_keeps h_1
  · exact h_1

theorem State.memPut_keeps {z s : State} {st a : Nat} {d : Line256} {p : Word32} (h_1 : Keeps z s) :
    Keeps z (s.memPut st a d p) := by
  unfold State.memPut
  split
  · exact State.wrLine_keeps h_1
  · exact State.wrLine_keeps (State.pdSettle_keeps h_1)
  · exact State.emit_keeps h_1
  · exact h_1

theorem State.memFill_keeps {z s : State} {st a : Nat} {d : Line256} {n : Nat} (h_1 : Keeps z s) :
    Keeps z (s.memFill st a d n) := by
  induction n generalizing s st a d with
  | zero =>
    unfold State.memFill
    exact h_1
  | succ w2 ih =>
    unfold State.memFill
    exact ih (State.memPut_keeps h_1)

theorem State.readRest_keeps {z s : State} {n i nrec seq : Nat} {host : List Line64} {k fuel : Nat}
    (h_1 : Keeps z s) :
    Keeps z (s.readRest n i nrec seq host k fuel).2 := by
  induction fuel generalizing s n i nrec seq host k with
  | zero =>
    unfold State.readRest
    exact h_1
  | succ w2 ih =>
    unfold State.readRest
    split
    · dsimp only
      refine Keeps.of_snd2 (by with_reducible assumption) ?_
      exact State.readRecord_keeps h_1
    · split
      · split
        · dsimp only
          refine Keeps.of_snd (by with_reducible assumption) ?_
          apply ih
          refine Keeps.of_snd2 (by with_reducible assumption) ?_
          exact State.readRecord_keeps h_1
        · dsimp only
          refine Keeps.of_snd (by with_reducible assumption) ?_
          apply ih
          refine Keeps.of_snd2 (by with_reducible assumption) ?_
          exact State.readRecord_keeps h_1
      · dsimp only
        refine Keeps.of_snd2 (by with_reducible assumption) ?_
        exact State.readRecord_keeps h_1

theorem State.postFlushes_keeps {z s : State} {n : Nat} (h_1 : Keeps z s) :
    Keeps z (s.postFlushes n) := by
  unfold State.postFlushes
  split
  · exact h_1
  · split
    · exact h_1
    · exact State.post_keeps (State.updSq_keeps h_1)

theorem State.runCmd_keeps {z s : State} {sq op : Nat} {f : Cmd → Nat → State → State} (h_1 : Keeps z s)
    (h_2 : ∀ (x : Cmd) (st : Nat) (x_1 : State), Keeps z x_1 → Keeps z (f x st x_1)) :
    Keeps z (s.runCmd sq op f) := by
  unfold State.runCmd
  split
  · apply State.postFlushes_keeps
    apply h_2
    exact h_1
  · exact h_1

theorem State.memGet_keeps {z s : State} {st a : Nat} {host : List HostLine} (h_1 : Keeps z s) :
    Keeps z (s.memGet st a host).2.2.2 := by
  unfold State.memGet
  split
  · exact h_1
  · extract_lets x1 x2
    have hx1 : Keeps z x1 := by
      unfold x1
      exact State.pdSettle_keeps h_1
    clear_value x1
    clear_value x2
    exact hx1
  · dsimp only
    exact State.emit_keeps h_1
  · exact h_1

theorem State.memCopy_keeps {z s : State} {st dst src : Nat} {host : List HostLine} {n : Nat} (h_1 : Keeps z s) :
    Keeps z (s.memCopy st dst src host n) := by
  induction n generalizing s st dst src host with
  | zero =>
    unfold State.memCopy
    exact h_1
  | succ w2 ih =>
    unfold State.memCopy
    extract_lets x1
    have hx1 : Keeps z x1.2.2.2 := by
      unfold x1
      exact State.memGet_keeps h_1
    clear_value x1
    exact ih (State.memPut_keeps hx1)

theorem State.memReady_keeps {z s : State} {st a : Nat} {write : Bool} {n : Nat} (h_1 : Keeps z s) :
    Keeps z (s.memReady st a write n).2 := by
  induction n generalizing s st a write with
  | zero =>
    unfold State.memReady
    exact h_1
  | succ w2 ih =>
    unfold State.memReady
    split
    · apply ih
      refine Keeps.of_snd (by with_reducible assumption) ?_
      exact State.memLineReady_keeps h_1
    · dsimp only
      refine Keeps.of_snd (by with_reducible assumption) ?_
      exact State.memLineReady_keeps h_1

theorem execCpFetch_keeps {z : State} {host : List Line64} {s : State} (h_1 : Keeps z s) :
    KeepsRes z (execCpFetch host s) := by
  unfold execCpFetch
  refine KeepsRes.next ?_
  split
  · exact h_1
  · extract_lets x1
    clear_value x1
    split
    · exact h_1
    · extract_lets x2
      clear_value x2
      split
      · refine Keeps.of_snd2 (by with_reducible assumption) ?_
        exact State.readRecord_keeps h_1
      · extract_lets x3 x4 x5
        clear_value x3
        have hx4 : Keeps z x4 := by
          unfold x4
          rename_i y6 y7 y8 y9 y10 y11 y12 y13 y14
          refine Keeps.upd (u := y13) ?_ rfl rfl rfl rfl rfl rfl rfl rfl
          refine Keeps.of_snd2 (by with_reducible assumption) ?_
          exact State.readRecord_keeps h_1
        clear_value x4
        clear_value x5
        split
        · exact State.addF_keeps (State.setF_keeps hx4)
        · split
          · exact hx4
          · split
            · refine Keeps.of_snd (by with_reducible assumption) ?_
              exact State.readRest_keeps hx4
            · apply State.updSq_keeps
              refine Keeps.of_snd (by with_reducible assumption) ?_
              exact State.readRest_keeps hx4

theorem State.consumeAsm_keeps {z s : State} {n : Nat} (h_1 : Keeps z s) :
    Keeps z (s.consumeAsm n) := by
  unfold State.consumeAsm
  extract_lets x1
  clear_value x1
  exact State.updSq_keeps (State.setF_keeps h_1)

theorem State.duplicate_keeps {z s : State} {n seq : Nat} (h_1 : Keeps z s) :
    Keeps z (s.duplicate n seq) := by
  unfold State.duplicate
  extract_lets x1
  have hx1 : Keeps z x1 := by
    unfold x1
    exact State.addF_keeps h_1
  clear_value x1
  split
  · exact State.post_keeps hx1
  · split
    · exact State.updSq_keeps hx1
    · exact State.post_keeps hx1

theorem execMemCopy_keeps {z : State} {sq : Nat} {host : List HostLine} {s : State} (h_1 : Keeps z s) :
    KeepsRes z (execMemCopy sq host s) := by
  unfold execMemCopy
  refine KeepsRes.next ?_
  apply State.runCmd_keeps
  · exact h_1
  · intro v1 v2 v3 h4
    extract_lets x5 x6 x7
    clear_value x5
    clear_value x6
    clear_value x7
    split
    · exact State.completeCmd_keeps h4
    · split
      · exact h4
      · split
        · refine Keeps.of_snd (by with_reducible assumption) ?_
          exact State.memReady_keeps h4
        · split
          · refine Keeps.of_snd (by with_reducible assumption) ?_
            apply State.memReady_keeps
            refine Keeps.of_snd (by with_reducible assumption) ?_
            exact State.memReady_keeps h4
          · apply State.completeCmd_keeps
            apply State.memCopy_keeps
            refine Keeps.of_snd (by with_reducible assumption) ?_
            apply State.memReady_keeps
            refine Keeps.of_snd (by with_reducible assumption) ?_
            exact State.memReady_keeps h4

theorem State.accept_keeps {z s : State} {n : Nat} {r : Line64} {rest : List Line64} {req : Nat} {task : Option Nat}
    {named : Option (Option Nat)} (h_1 : Keeps z s) :
    Keeps z (s.accept n r rest req task named) := by
  unfold State.accept
  extract_lets x1 x2 x3
  clear_value x1
  have hx2 : Keeps z x2 := by
    unfold x2
    split
    · exact State.assignSlot_keeps h_1
    · exact h_1
  clear_value x2
  clear_value x3
  exact State.updSq_keeps hx2

theorem execCommandAccept_keeps {z : State} {sq : Nat} {s : State} (h_1 : Keeps z s) :
    KeepsRes z (execCommandAccept sq s) := by
  unfold execCommandAccept
  refine KeepsRes.next ?_
  extract_lets x1
  clear_value x1
  split
  · exact h_1
  · split
    · exact h_1
    · extract_lets x2 x3 x4
      clear_value x2
      clear_value x3
      have hx4 : Keeps z x4 := by
        unfold x4
        exact State.setReg_keeps (State.consumeAsm_keeps h_1)
      clear_value x4
      split
      · exact State.duplicate_keeps (State.consumeAsm_keeps h_1)
      · split
        · exact State.refuseCmd_keeps (State.setReg_keeps (State.consumeAsm_keeps h_1))
        · split
          · exact h_1
          · split
            · exact State.refuseCmd_keeps hx4
            · exact State.accept_keeps hx4

theorem execCqIrqTimer_keeps {z : State} {cq : Nat} {s : State} (h_1 : Keeps z s) :
    KeepsRes z (execCqIrqTimer cq s) := by
  unfold execCqIrqTimer
  refine KeepsRes.next ?_
  split
  · split
    · exact State.cqInterrupt_keeps (State.notBefore_keeps h_1)
    · exact h_1
  · exact h_1

theorem execMemFill_keeps {z : State} {sq : Nat} {s : State} (h_1 : Keeps z s) :
    KeepsRes z (execMemFill sq s) := by
  unfold execMemFill
  refine KeepsRes.next ?_
  apply State.runCmd_keeps
  · exact h_1
  · intro v1 v2 v3 h4
    extract_lets x5 x6 x7 x8
    clear_value x5
    clear_value x6
    clear_value x7
    clear_value x8
    split
    · exact State.completeCmd_keeps h4
    · split
      · refine Keeps.of_snd (by with_reducible assumption) ?_
        exact State.memReady_keeps h4
      · apply State.completeCmd_keeps
        apply State.memFill_keeps
        refine Keeps.of_snd (by with_reducible assumption) ?_
        exact State.memReady_keeps h4

theorem execNop_keeps {z : State} {sq : Nat} {s : State} (h_1 : Keeps z s) :
    KeepsRes z (execNop sq s) := by
  unfold execNop
  refine KeepsRes.next ?_
  apply State.runCmd_keeps
  · exact h_1
  · intro v1 v2 v3 h4
    exact State.completeCmd_keeps h4

theorem State.sqFlushAct_keeps {z : State} {host : List Line64} {w : Written} {s : State} (h_1 : Keeps z s) :
    Keeps z (State.sqFlushAct host w s) := by
  unfold State.sqFlushAct
  split
  · exact h_1
  · extract_lets x1 x2 x3 x4 x5
    clear_value x1
    have hx2 : Keeps z x2.2 := by
      unfold x2
      exact State.flushedSeqs_keeps h_1
    clear_value x2
    clear_value x3
    clear_value x4
    have hx5 : Keeps z x5 := by
      unfold x5
      exact State.setF_keeps hx2
    clear_value x5
    exact State.postFlushes_keeps (State.updSq_keeps hx5)

end Sys2Proof.Machine
end

