-- ==== Sys2Proof/Laws/KeepsTasks.lean ====
section
/-! SUPPORT. What each operation of Machine/Tasks.lean keeps (Laws/Keeps.lean): one lemma per operation that answers a
state. -/

namespace Sys2Proof.Machine

open Sys2Proof

theorem State.setAccw_keeps {z s : State} {e st : Nat} {w : Window} (h_1 : Keeps z s) :
    Keeps z (s.setAccw e st w) := by
  unfold State.setAccw
  exact State.setReg_keeps (State.setReg_keeps h_1)

theorem State.takeAccw_keeps {z : State} {st : Nat} {l : List (Window × WinFit)} : ∀ {s : State}, Keeps z s →
    ∀ x, s.takeAccw st l = .inr x → Keeps z x.2 := by
  induction l with
  | nil =>
    intro s h x e
    cases e
    exact h
  | cons a t ih =>
    obtain ⟨w, f⟩ := a
    intro s h x e
    unfold State.takeAccw at e
    extract_lets x1 at e
    have hx1 : KeepsOpt z (fun x => x.2) x1 := by
      unfold x1
      split
      · exact KeepsOpt.some (State.setF_keeps h)
      · intro y ey
        obtain ⟨k, _, rfl⟩ := Option.map_eq_some_iff.1 ey
        exact State.setAccw_keeps h
    clear_value x1
    split at e
    · cases e
    · split at e
      · cases e
      · next h2 => cases e; have h3 := ih (KeepsOpt.snd rfl hx1) _ h2; exact h3


theorem State.dispatchAccw_keeps {z s : State} {st e : Nat} (h : Keeps z s) (x : List Nat × State)
    (hx : s.dispatchAccw st e = .inr x) : Keeps z x.2 := by
  unfold State.dispatchAccw at hx
  extract_lets x1 at hx
  split at hx
  · cases hx
  · exact State.takeAccw_keeps h x hx


theorem State.resultReady_keeps {z s : State} {t : Task} (h_1 : Keeps z s) :
    Keeps z (s.resultReady t).2 := by
  unfold State.resultReady
  split
  · exact State.devReady_keeps h_1
  · dsimp only
    exact State.pdSettle_keeps h_1
  · exact h_1

theorem State.argsReady_keeps {z s : State} {st a : Nat} {a3 : List (Nat × List Byte)} (h_1 : Keeps z s) :
    Keeps z (s.argsReady st a a3).2 := by
  induction a3 generalizing s st a with
  | nil =>
    unfold State.argsReady
    exact h_1
  | cons w1 w2 ih =>
    unfold State.argsReady
    split
    · split
      · apply ih
        refine Keeps.of_snd (by with_reducible assumption) ?_
        exact State.devReady_keeps h_1
      · dsimp only
        refine Keeps.of_snd (by with_reducible assumption) ?_
        exact State.devReady_keeps h_1
    · exact ih h_1

theorem State.restoreLine_keeps {z s : State} {c : Nat} {l : Nat × Line256 × Word32 × Bool} (h_1 : Keeps z s) :
    Keeps z (s.restoreLine c l) := by
  unfold State.restoreLine
  exact State.setTag_keeps (State.wrLine_keeps h_1)

theorem State.scramble_keeps {z s : State} {c : Nat} (h_1 : Keeps z s) :
    Keeps z (s.scramble c) := by
  unfold State.scramble
  extract_lets x1 x2
  have hx1 : Keeps z x1 := by
    unfold x1
    refine Keeps.foldl ?_ ?_
    · exact h_1
    · intro v3 v4 h5
      extract_lets x6 x7 x8
      clear_value x6
      have hx7 : Keeps z x7.2 := by
        unfold x7
        exact State.choose_keeps h5
      clear_value x7
      have hx8 : Keeps z x8.2 := by
        unfold x8
        exact State.draw_keeps hx7
      clear_value x8
      exact State.setPoison_keeps (State.wrNat_keeps hx8)
  clear_value x1
  have hx2 : Keeps z x2.2 := by
    unfold x2
    exact State.draw_keeps hx1
  clear_value x2
  exact State.updCore_keeps hx2

theorem execTaskRun_keeps {z : State} {sq : Nat} {s : State} (h_1 : Keeps z s) :
    KeepsRes z (execTaskRun sq s) := by
  unfold execTaskRun
  refine KeepsRes.next ?_
  extract_lets x1 x2
  clear_value x1
  clear_value x2
  split
  · exact h_1
  · extract_lets x3 x4 x5 x6 x7 x8
    clear_value x3
    clear_value x4
    have hx5 : Keeps z x5 := by
      unfold x5
      exact State.setReg_keeps (State.consumeAsm_keeps h_1)
    clear_value x5
    clear_value x6
    clear_value x7
    clear_value x8
    split
    · exact h_1
    · split
      · exact State.refuseCmd_keeps hx5
      · extract_lets x9
        have hx9 : Keeps z x9 := by
          unfold x9
          refine Keeps.upd (u := x5) ?_ rfl rfl rfl rfl rfl rfl rfl rfl
          exact hx5
        clear_value x9
        exact State.accept_keeps hx9

theorem execTaskSave_keeps {z : State} {task : Nat} {s : State} (h_1 : Keeps z s) :
    KeepsRes z (execTaskSave task s) := by
  unfold execTaskSave
  refine KeepsRes.next ?_
  split
  · exact h_1
  · split
    · exact h_1
    · extract_lets x1 x2 x3 x4
      clear_value x1
      clear_value x2
      have hx3 : Keeps z x3 := by
        unfold x3
        apply State.traceTask_keeps
        refine Keeps.foldl ?_ ?_
        · exact State.freeCores_keeps h_1
        · intro v5 v6 h7
          exact State.scramble_keeps h7
      clear_value x3
      have hx4 : Keeps z x4 := by
        unfold x4
        exact State.updTask_keeps hx3
      clear_value x4
      split
      · exact State.completeCmd_keeps hx4
      · exact hx4

theorem execTaskKill_keeps {z : State} {sq : Nat} {s : State} (h_1 : Keeps z s) :
    KeepsRes z (execTaskKill sq s) := by
  unfold execTaskKill
  refine KeepsRes.next ?_
  apply State.runCmd_keeps
  · exact h_1
  · intro v1 v2 v3 h4
    extract_lets x5
    clear_value x5
    split
    · exact State.completeCmd_keeps h4
    · exact State.abortTasks_keeps (State.updCmd_keeps (State.updTask_keeps h4))

theorem State.loadCore_keeps {z s : State} {e period banks c : Nat} (h_1 : Keeps z s) :
    Keeps z (s.loadCore e period banks c) := by
  unfold State.loadCore
  extract_lets x1 x2 x3 x4
  have hx1 : Keeps z x1 := by
    unfold x1
    exact State.wrBytes_keeps h_1
  clear_value x1
  have hx2 : Keeps z x2 := by
    unfold x2
    exact State.setF_keeps (State.setF_keeps (State.setF_keeps (State.setF_keeps hx1)))
  clear_value x2
  have hx3 : Keeps z x3 := by
    unfold x3
    refine Keeps.foldl ?_ ?_
    · exact hx2
    · intro v5 v6 h7
      exact State.setReg_keeps h7
  clear_value x3
  have hx4 : Keeps z x4 := by
    unfold x4
    refine Keeps.foldl ?_ ?_
    · exact hx3
    · intro v8 v9 h10
      exact State.setReg_keeps h10
  clear_value x4
  exact State.setReg_keeps hx4

theorem State.restoreRing_keeps {z s : State} {r : RingFrame} (h_1 : Keeps z s) :
    Keeps z (s.restoreRing r) := by
  unfold State.restoreRing
  split
  · extract_lets x1 x2
    have hx1 : Keeps z x1 := by
      unfold x1
      exact State.setReg_keeps h_1
    clear_value x1
    clear_value x2
    exact State.setRing_keeps hx1
  · exact h_1

theorem State.restoreCore_keeps {z s : State} {t : Task} {f : CoreFrame} (h_1 : Keeps z s) :
    Keeps z (s.restoreCore t f) := by
  unfold State.restoreCore
  extract_lets x1 x2 x3 x4
  have hx1 : Keeps z x1 := by
    unfold x1
    exact State.loadCore_keeps (State.scramble_keeps h_1)
  clear_value x1
  have hx2 : Keeps z x2 := by
    unfold x2
    refine Keeps.foldl ?_ ?_
    · exact hx1
    · intro v5 v6 h7
      exact State.restoreLine_keeps h7
  clear_value x2
  have hx3 : Keeps z x3 := by
    unfold x3
    refine Keeps.foldl ?_ ?_
    · exact hx2
    · intro v8 v9 h10
      exact State.restoreRing_keeps h10
  clear_value x3
  clear_value x4
  exact State.updCore_keeps hx3

theorem execTaskResume_keeps {z : State} {sq : Nat} {s : State} (h_1 : Keeps z s) :
    KeepsRes z (execTaskResume sq s) := by
  unfold execTaskResume
  refine KeepsRes.next ?_
  apply State.runCmd_keeps
  · exact h_1
  · intro v1 v2 v3 h4
    extract_lets x5 x6
    clear_value x5
    have hx6 : ∀ (s : State), Keeps z s → Keeps z (x6 s) := by
      intro v7 h8
      unfold x6
      exact State.updCmd_keeps (State.updTask_keeps h8)
    clear_value x6
    split
    · exact State.completeCmd_keeps h4
    · split
      · exact State.completeCmd_keeps h4
      · split
        · apply State.abortTasks_keeps
          apply hx6
          exact h4
        · split
          · exact h4
          · split
            · exact h4
            · extract_lets x9 x10
              have hx9 : Keeps z x9 := by
                unfold x9
                refine Keeps.foldl ?_ ?_
                · exact h4
                · intro v11 v12 h13
                  exact State.restoreCore_keeps h13
              clear_value x9
              have hx10 : Keeps z x10 := by
                unfold x10
                refine Keeps.foldl ?_ ?_
                · exact hx9
                · intro v14 v15 h16
                  exact State.hitchPoke_keeps h16
              clear_value x10
              apply State.updTask_keeps
              apply State.traceTask_keeps
              apply hx6
              exact hx10

theorem execTaskEnd_keeps {z : State} {task : Nat} {host : List Byte} {ep : Bool} {s : State} (h_1 : Keeps z s) :
    KeepsRes z (execTaskEnd task host ep s) := by
  unfold execTaskEnd
  refine KeepsRes.next ?_
  split
  · exact h_1
  · split
    · exact h_1
    · split
      · refine Keeps.of_snd (by with_reducible assumption) ?_
        exact State.resultReady_keeps h_1
      · split
        · apply State.endTask_keeps
          refine KeepsOpt.snd2 (by with_reducible assumption) ?_
          apply State.cpRead_keeps
          refine Keeps.of_snd (by with_reducible assumption) ?_
          exact State.resultReady_keeps h_1
        · apply State.taskFault_keeps
          refine KeepsOpt.snd2 (by with_reducible assumption) ?_
          apply State.cpRead_keeps
          refine Keeps.of_snd (by with_reducible assumption) ?_
          exact State.resultReady_keeps h_1
        · apply State.endTask_keeps
          refine Keeps.of_snd (by with_reducible assumption) ?_
          exact State.resultReady_keeps h_1

theorem State.startTask_keeps {z s : State} {sq : Nat} {c : Cmd} {t : Task} {accw : List Nat} (h_1 : Keeps z s) :
    Keeps z (s.startTask sq c t accw) := by
  unfold State.startTask
  extract_lets x1 x2 x3 x4 x5 x6
  have hx1 : Keeps z x1 := by
    unfold x1
    refine Keeps.foldl ?_ ?_
    · exact h_1
    · intro v7 v8 h9
      exact State.cpWrite_keeps h9
  clear_value x1
  clear_value x2
  have hx3 : Keeps z x3 := by
    unfold x3
    refine Keeps.foldl ?_ ?_
    · exact hx1
    · intro v10 v11 h12
      exact State.updCore_keeps (State.loadCore_keeps h12)
  clear_value x3
  clear_value x4
  have hx5 : Keeps z x5 := by
    unfold x5
    exact State.traceTask_keeps hx3
  clear_value x5
  have hx6 : Keeps z x6 := by
    unfold x6
    exact State.updTask_keeps hx5
  clear_value x6
  exact State.updCmd_keeps hx6

theorem execTaskStart_keeps {z : State} {sq : Nat} {s : State} (h_1 : Keeps z s) :
    KeepsRes z (execTaskStart sq s) := by
  unfold execTaskStart
  refine KeepsRes.next ?_
  split
  · exact h_1
  · split
    · exact h_1
    · split
      · exact State.dropCmd_keeps h_1
      · split
        · exact h_1
        · split
          · exact State.dropCmd_keeps h_1
          · split
            · refine Keeps.of_snd (by with_reducible assumption) ?_
              exact State.argsReady_keeps h_1
            · split
              · apply State.dropCmd_keeps
                refine Keeps.of_snd (by with_reducible assumption) ?_
                exact State.argsReady_keeps h_1
              · apply State.startTask_keeps
                refine State.dispatchAccw_keeps ?_ _ (by with_reducible assumption)
                refine Keeps.of_snd (by with_reducible assumption) ?_
                exact State.argsReady_keeps h_1

theorem execTaskPreempt_keeps {z : State} {sq : Nat} {s : State} (h_1 : Keeps z s) :
    KeepsRes z (execTaskPreempt sq s) := by
  unfold execTaskPreempt
  refine KeepsRes.next ?_
  apply State.runCmd_keeps
  · exact h_1
  · intro v1 v2 v3 h4
    split
    · exact State.completeCmd_keeps h4
    · extract_lets x5
      clear_value x5
      split
      · exact State.completeCmd_keeps h4
      · split
        · exact State.completeCmd_keeps h4
        · exact State.updCmd_keeps (State.updTask_keeps (State.traceTask_keeps h4))

end Sys2Proof.Machine
end

