-- ==== Sys2Proof/Laws/KeepsKv.lean ====
section
/-! SUPPORT. What each operation of Machine/Kv.lean keeps (Laws/Keeps.lean): one lemma per operation that answers a
state. -/

namespace Sys2Proof.Machine

open Sys2Proof

theorem State.engineRead_keeps {z s : State} {core st a n : Nat} {host : List HostByte} (h_1 : Keeps z s) :
    Keeps z (s.engineRead core st a n host).st := by
  unfold State.engineRead
  split
  · dsimp only [Got.st]
    exact h_1
  · split
    · dsimp only [Got.st]
      exact h_1
    · split
      · split
        · dsimp only [Got.st]
          exact h_1
        · split
          · dsimp only [Got.st]
            exact h_1
          · dsimp only [Got.st]
            exact State.dmaTouch_keeps h_1
      · extract_lets x1
        have hx1 : Keeps z x1 := by
          unfold x1
          refine Keeps.foldl ?_ ?_
          · exact h_1
          · intro v2 v3 h4
            exact State.pdSettle_keeps h4
        clear_value x1
        dsimp only [Got.st]
        exact hx1
      · split
        · dsimp only [Got.st]
          refine Keeps.of_snd (by with_reducible assumption) ?_
          exact State.devReady_keeps h_1
        · dsimp only [Got.st]
          refine Keeps.of_snd (by with_reducible assumption) ?_
          exact State.devReady_keeps h_1
      · dsimp only [Got.st]
        exact State.emit_keeps h_1
      · dsimp only [Got.st]
        exact h_1

theorem State.setFreeNow_keeps {z s : State} {p n : Nat} (h_1 : Keeps z s) :
    Keeps z (s.setFreeNow p n) := by
  unfold State.setFreeNow
  exact State.setF_keeps h_1

theorem State.passHead_keeps {z s : State} {p : Nat} (h_1 : Keeps z s) :
    Keeps z (s.passHead p) := by
  unfold State.passHead
  apply State.setFreeNow_keeps
  refine Keeps.upd (u := s) ?_ rfl rfl rfl rfl rfl rfl rfl rfl
  exact h_1

theorem State.skipPoisoned_keeps {z s : State} {p fuel : Nat} (h_1 : Keeps z s) :
    Keeps z (s.skipPoisoned p fuel) := by
  induction fuel generalizing s p with
  | zero =>
    unfold State.skipPoisoned
    exact h_1
  | succ w2 ih =>
    unfold State.skipPoisoned
    split
    · exact ih (State.addF_keeps (State.passHead_keeps h_1))
    · exact h_1

theorem State.planAppend_keeps {z s : State} {d : Append} {pos : List Nat} (h_1 : Keeps z s) :
    Keeps z (s.planAppend d pos).st := by
  unfold State.planAppend
  extract_lets x1 x2 x3 x4 x5 x6 x7 x8 x9
  clear_value x1
  clear_value x2
  clear_value x3
  clear_value x4
  clear_value x5
  clear_value x6
  clear_value x7
  clear_value x8
  clear_value x9
  split
  · dsimp only [AppendPlan.st]
    exact h_1
  · split
    · extract_lets x10 x11 x12
      clear_value x10
      clear_value x11
      have hx12 : Keeps z x12 := by
        unfold x12
        split
        · exact State.skipPoisoned_keeps h_1
        · exact h_1
      clear_value x12
      split
      · dsimp only [AppendPlan.st]
        exact h_1
      · split
        · dsimp only [AppendPlan.st]
          exact h_1
        · split
          · dsimp only [AppendPlan.st]
            exact h_1
          · split
            · dsimp only [AppendPlan.st]
              exact State.addF_keeps hx12
            · dsimp only [AppendPlan.st]
              exact hx12
    · dsimp only [AppendPlan.st]
      exact h_1

theorem State.faultWalks_keeps {z s : State} {i : Nat} {c : FaultCode} (h_1 : Keeps z s) :
    Keeps z (s.faultWalks i c) := by
  unfold State.faultWalks
  refine Keeps.foldl ?_ ?_
  · exact h_1
  · intro v1 v2 h3
    refine Keeps.foldl ?_ ?_
    · exact h3
    · intro v4 v5 h6
      refine Keeps.foldl ?_ ?_
      · exact h6
      · intro v7 v8 h9
        split
        · exact Stream.fault_keeps h9
        · exact h9

theorem State.setKseq_keeps {z s : State} {i : Nat} {k : KSeq} (h_1 : Keeps z s) :
    Keeps z (s.setKseq i k) := by
  unfold State.setKseq
  refine Keeps.upd (u := s) ?_ rfl rfl rfl rfl rfl rfl rfl rfl
  exact h_1

theorem State.updKseq_keeps {z s : State} {i : Nat} {f : KSeq → KSeq} (h_1 : Keeps z s) :
    Keeps z (s.updKseq i f) := by
  unfold State.updKseq
  exact State.setKseq_keeps h_1

theorem State.kvPoison_keeps {z s : State} {i : Nat} (h_1 : Keeps z s) :
    Keeps z (s.kvPoison i) := by
  unfold State.kvPoison
  exact State.faultWalks_keeps (State.updKseq_keeps h_1)

theorem State.pageReady_keeps {z s : State} {core : Nat} {k : KSeq} {layer pos : Nat} (h_1 : Keeps z s) :
    Keeps z (s.pageReady core k layer pos).2 := by
  unfold State.pageReady
  split
  · split
    · exact h_1
    · split
      · exact State.devReady_keeps h_1
      · exact h_1
  · exact h_1

theorem State.kvWrite_keeps {z s : State} {st a n v : Nat} (h_1 : Keeps z s) :
    KeepsOpt z (fun (x : State) => x) (s.kvWrite st a n v) := by
  unfold State.kvWrite
  split
  · refine KeepsOpt.some ?_
    exact State.wrNat_keeps h_1
  · exact KeepsOpt.none

theorem State.newPosition_keeps {z s : State} {i base : Nat} (h_1 : Keeps z s) :
    KeepsOpt z (fun (x : State) => x) (s.newPosition i base) := by
  unfold State.newPosition
  extract_lets x1 x2
  clear_value x1
  have hx2 : KeepsOpt z (fun (x : State) => x) x2 := by
    unfold x2
    refine KeepsOpt.foldl ?_ ?_
    · refine KeepsOpt.some ?_
      exact h_1
    · intro v3 v4 h5
      refine KeepsOpt.bind (f := fun (x : State) => x) ?_ ?_
      · exact h5
      · intro v6 h7
        exact State.kvWrite_keeps h7
  clear_value x2
  refine KeepsOpt.map (f := fun (x : State) => x) ?_ ?_
  · refine KeepsOpt.bind (f := fun (x : State) => x) ?_ ?_
    · exact hx2
    · intro v8 h9
      exact State.kvWrite_keeps h9
  · intro v10 h11
    exact State.setKseq_keeps h11

theorem State.takePage_keeps {z s : State} {p : Nat} (h_1 : Keeps z s) :
    KeepsOpt z (fun (x : Nat × State) => x.2) (s.takePage p) := by
  unfold State.takePage
  split
  · refine KeepsOpt.some ?_
    dsimp only
    exact State.passHead_keeps h_1
  · exact KeepsOpt.none

theorem State.newPage_keeps {z s : State} {i pos layer : Nat} (h_1 : Keeps z s) :
    KeepsOpt z (fun (x : State) => x) (s.newPage i pos layer) := by
  unfold State.newPage
  extract_lets x1 x2
  clear_value x1
  clear_value x2
  refine KeepsOpt.bind (f := fun (x : Nat × State) => x.2) ?_ ?_
  · exact State.takePage_keeps h_1
  · intro v3 h4
    split
    refine KeepsOpt.bind (f := fun (x : State) => x) ?_ ?_
    · exact State.kvWrite_keeps h4
    · intro v5 h6
      refine KeepsOpt.foldl ?_ ?_
      · refine KeepsOpt.some ?_
        exact h6
      · intro v7 v8 h9
        refine KeepsOpt.bind (f := fun (x : State) => x) ?_ ?_
        · exact h9
        · intro v10 h11
          exact State.kvWrite_keeps h11

theorem State.putToken_keeps {z s : State} {k : KSeq} {page j p d : Nat} {bad : Nat → Bool} (h_1 : Keeps z s) :
    KeepsOpt z (fun (x : State) => x) (s.putToken k page j p d bad) := by
  unfold State.putToken
  extract_lets x1 x2
  clear_value x1
  clear_value x2
  split
  · extract_lets x3 x4
    have hx3 : Keeps z x3 := by
      unfold x3
      exact State.wrNat_keeps h_1
    clear_value x3
    have hx4 : Keeps z x4 := by
      unfold x4
      refine Keeps.foldl ?_ ?_
      · exact hx3
      · intro v5 v6 h7
        exact State.setPoison_keeps h7
    clear_value x4
    exact State.kvWrite_keeps hx4
  · exact KeepsOpt.none

theorem State.putTokens_keeps {z s : State} {d : Append} {tail data : Nat} {bad : Nat → Bool} {pos : List Nat}
    {k m : Nat} (h_1 : Keeps z s) :
    KeepsOpt z (fun (x : State) => x) (s.putTokens d tail data bad pos k m) := by
  induction m generalizing s d tail data bad pos k with
  | zero =>
    unfold State.putTokens
    refine KeepsOpt.some ?_
    exact h_1
  | succ w2 ih =>
    unfold State.putTokens
    extract_lets x1 x2 x3 x4
    clear_value x1
    clear_value x2
    clear_value x3
    clear_value x4
    split
    · split
      · apply ih
        refine KeepsOpt.get (by with_reducible assumption) ?_
        exact State.putToken_keeps h_1
      · exact KeepsOpt.none
    · exact KeepsOpt.none

theorem State.append_keeps {z s : State} {d : Append} {tail : Nat} {newPos newPage : Bool} {data : Nat}
    {bad : Nat → Bool} {pos : List Nat} (h_1 : Keeps z s) :
    KeepsOpt z (fun (x : State) => x) (s.append d tail newPos newPage data bad pos) := by
  unfold State.append
  extract_lets x1 x2 x3
  have hx1 : KeepsOpt z (fun (x : State) => x) x1 := by
    unfold x1
    split
    · exact State.newPosition_keeps h_1
    · refine KeepsOpt.some ?_
      exact h_1
  clear_value x1
  have hx2 : KeepsOpt z (fun (x : State) => x) x2 := by
    unfold x2
    refine KeepsOpt.bind (f := fun (x : State) => x) ?_ ?_
    · exact hx1
    · intro v4 h5
      extract_lets x6
      have hx6 : Keeps z x6 := by
        unfold x6
        exact State.updKseq_keeps h5
      clear_value x6
      split
      · exact State.newPage_keeps hx6
      · refine KeepsOpt.some ?_
        exact hx6
  clear_value x2
  have hx3 : KeepsOpt z (fun (x : State) => x) x3 := by
    unfold x3
    refine KeepsOpt.bind (f := fun (x : State) => x) ?_ ?_
    · exact hx2
    · intro v7 h8
      exact State.putTokens_keeps h8
  clear_value x3
  refine KeepsOpt.map (f := fun (x : State) => x) ?_ ?_
  · exact hx3
  · intro v9 h10
    exact State.updKseq_keeps h10

theorem E.appendData_keeps {z : State} {e : E} {d : Append} {src : List HostByte} {data pv : Nat} {pbad : Bool}
    {s : State} (h_1 : Keeps z s) :
    Keeps z (e.appendData d src data pv pbad s) := by
  unfold E.appendData
  extract_lets x1 x2 x3 x4 x5
  clear_value x1
  clear_value x2
  clear_value x3
  clear_value x4
  clear_value x5
  split
  · exact E.fault_keeps h_1
  · split
    · apply E.fault_keeps
      refine AppendPlan.keeps_fault (by with_reducible assumption) ?_
      exact State.planAppend_keeps h_1
    · apply E.fault_keeps
      apply State.kvPoison_keeps
      refine AppendPlan.keeps_poisoned (by with_reducible assumption) ?_
      exact State.planAppend_keeps h_1
    · split
      · refine Keeps.of_snd (by with_reducible assumption) ?_
        split
        · dsimp only
          refine AppendPlan.keeps_go (by with_reducible assumption) ?_
          exact State.planAppend_keeps h_1
        · apply State.pageReady_keeps
          refine AppendPlan.keeps_go (by with_reducible assumption) ?_
          exact State.planAppend_keeps h_1
      · split
        · refine Keeps.of_snd (by with_reducible assumption) ?_
          split
          · dsimp only
            refine Keeps.of_snd (by with_reducible assumption) ?_
            split
            · dsimp only
              refine AppendPlan.keeps_go (by with_reducible assumption) ?_
              exact State.planAppend_keeps h_1
            · apply State.pageReady_keeps
              refine AppendPlan.keeps_go (by with_reducible assumption) ?_
              exact State.planAppend_keeps h_1
          · apply State.pageReady_keeps
            refine Keeps.of_snd (by with_reducible assumption) ?_
            split
            · dsimp only
              refine AppendPlan.keeps_go (by with_reducible assumption) ?_
              exact State.planAppend_keeps h_1
            · apply State.pageReady_keeps
              refine AppendPlan.keeps_go (by with_reducible assumption) ?_
              exact State.planAppend_keeps h_1
        · split
          · apply E.over_keeps
            refine KeepsOpt.get (by with_reducible assumption) ?_
            apply State.append_keeps
            refine Keeps.of_snd (by with_reducible assumption) ?_
            split
            · dsimp only
              refine Keeps.of_snd (by with_reducible assumption) ?_
              split
              · dsimp only
                refine AppendPlan.keeps_go (by with_reducible assumption) ?_
                exact State.planAppend_keeps h_1
              · apply State.pageReady_keeps
                refine AppendPlan.keeps_go (by with_reducible assumption) ?_
                exact State.planAppend_keeps h_1
            · apply State.pageReady_keeps
              refine Keeps.of_snd (by with_reducible assumption) ?_
              split
              · dsimp only
                refine AppendPlan.keeps_go (by with_reducible assumption) ?_
                exact State.planAppend_keeps h_1
              · apply State.pageReady_keeps
                refine AppendPlan.keeps_go (by with_reducible assumption) ?_
                exact State.planAppend_keeps h_1
          · apply E.fault_keeps
            refine Keeps.of_snd (by with_reducible assumption) ?_
            split
            · dsimp only
              refine Keeps.of_snd (by with_reducible assumption) ?_
              split
              · dsimp only
                refine AppendPlan.keeps_go (by with_reducible assumption) ?_
                exact State.planAppend_keeps h_1
              · apply State.pageReady_keeps
                refine AppendPlan.keeps_go (by with_reducible assumption) ?_
                exact State.planAppend_keeps h_1
            · apply State.pageReady_keeps
              refine Keeps.of_snd (by with_reducible assumption) ?_
              split
              · dsimp only
                refine AppendPlan.keeps_go (by with_reducible assumption) ?_
                exact State.planAppend_keeps h_1
              · apply State.pageReady_keeps
                refine AppendPlan.keeps_go (by with_reducible assumption) ?_
                exact State.planAppend_keeps h_1

theorem E.appendPos_keeps {z : State} {e : E} {d : Append} {src pos : List HostByte} {data : Nat} {s : State}
    (h_1 : Keeps z s) :
    Keeps z (e.appendPos d src pos data s) := by
  unfold E.appendPos
  split
  · refine Got.keeps_wait (by with_reducible assumption) ?_
    split
    · dsimp only [Got.st]
      exact h_1
    · exact State.engineRead_keeps h_1
  · apply E.fault_keeps
    refine Got.keeps_fault (by with_reducible assumption) ?_
    split
    · dsimp only [Got.st]
      exact h_1
    · exact State.engineRead_keeps h_1
  · apply E.appendData_keeps
    refine Got.keeps_ok (by with_reducible assumption) ?_
    split
    · dsimp only [Got.st]
      exact h_1
    · exact State.engineRead_keeps h_1

theorem State.kvDone_keeps {z s : State} {sq : Nat} {c : Cmd} {outcome : Nat} {data : (List Byte)} (h_1 : Keeps z s) :
    Keeps z (s.kvDone sq c outcome data) := by
  unfold State.kvDone
  exact State.completeCmd_keeps h_1

theorem execKvSeqOpen_keeps {z : State} {sq : Nat} {s : State} (h_1 : Keeps z s) :
    KeepsRes z (execKvSeqOpen sq s) := by
  unfold execKvSeqOpen
  refine KeepsRes.next ?_
  apply State.runCmd_keeps
  · exact h_1
  · intro v1 v2 v3 h4
    extract_lets x5 x6 x7 x8 x9 x10 x11 x12
    clear_value x5
    clear_value x6
    clear_value x7
    clear_value x8
    clear_value x9
    clear_value x10
    clear_value x11
    clear_value x12
    split
    · split
      · exact State.completeCmd_keeps h4
      · split
        · exact State.kvDone_keeps h4
        · split
          · exact State.kvDone_keeps h4
          · split
            · exact State.kvDone_keeps h4
            · exact State.kvDone_keeps (State.setKseq_keeps h4)
    · split
      · exact State.completeCmd_keeps h4
      · split
        · exact State.kvDone_keeps h4
        · split
          · exact State.kvDone_keeps h4
          · split
            · exact State.kvDone_keeps h4
            · exact State.kvDone_keeps (State.setKseq_keeps h4)

theorem State.startWalk_keeps {z s : State} {core q : Nat} {t : Task} {st : Stream} {a : Nat} (h_1 : Keeps z s) :
    Keeps z (s.startWalk core q t st a) := by
  unfold State.startWalk
  split
  · refine Got.keeps_wait (by with_reducible assumption) ?_
    exact State.engineRead_keeps h_1
  · apply Stream.fault_keeps
    refine Got.keeps_fault (by with_reducible assumption) ?_
    exact State.engineRead_keeps h_1
  · split
    · apply Stream.fault_keeps
      refine Got.keeps_ok (by with_reducible assumption) ?_
      exact State.engineRead_keeps h_1
    · extract_lets x1 x2 x3
      clear_value x1
      clear_value x2
      have hx3 : Keeps z x3.st := by
        unfold x3
        split
        · apply State.engineRead_keeps
          refine Got.keeps_ok (by with_reducible assumption) ?_
          exact State.engineRead_keeps h_1
        · dsimp only [Got.st]
          refine Got.keeps_ok (by with_reducible assumption) ?_
          exact State.engineRead_keeps h_1
      clear_value x3
      split
      · refine Got.keeps_ok (by with_reducible assumption) ?_
        exact State.engineRead_keeps h_1
      · split
        · exact hx3
        · exact Stream.fault_keeps hx3
        · extract_lets x4 x5
          clear_value x4
          have hx5 : Keeps z x5 := by
            unfold x5
            exact State.updKseq_keeps hx3
          clear_value x5
          split
          · exact Stream.fault_keeps hx3
          · split
            · exact Stream.fault_keeps hx3
            · split
              · exact Stream.fault_keeps hx3
              · split
                · exact Stream.fault_keeps hx3
                · split
                  · split
                    · exact hx3
                    · exact State.setStreamQ_keeps (State.updKseq_keeps hx3)
                  · split
                    · exact Stream.fault_keeps hx3
                    · exact Stream.fault_keeps (State.kvPoison_keeps hx3)
                    · extract_lets x6
                      have hx6 : Keeps z x6 := by
                        unfold x6
                        exact State.updCore_keeps hx5
                      clear_value x6
                      exact State.updStream_keeps hx6

theorem execKvWalk_keeps {z : State} {core q : Nat} {s : State} (h_1 : Keeps z s) :
    KeepsRes z (execKvWalk core q s) := by
  unfold execKvWalk
  refine KeepsRes.next ?_
  split
  · exact h_1
  · split
    · exact h_1
    · split
      · exact State.startWalk_keeps h_1
      · apply engineOp_keeps
        · intro v1 v2 h3
          extract_lets x4 x5 x6 x7
          clear_value x4
          clear_value x5
          have hx6 : Keeps z x6.2 := by
            unfold x6
            exact State.freshId_keeps h3
          clear_value x6
          clear_value x7
          split
          · exact E.fault_keeps h3
          · split
            · exact E.fault_keeps h3
            · split
              · exact E.fault_keeps h3
              · split
                · exact h3
                · exact E.over_keeps (State.setStreamQ_keeps hx6)
        · exact h_1

theorem State.postScore_keeps {z s : State} {i pos step m : Nat} (h_1 : Keeps z s) :
    KeepsOpt z (fun (x : State) => x) (s.postScore i pos step m) := by
  unfold State.postScore
  extract_lets x1
  clear_value x1
  split
  · refine KeepsOpt.some ?_
    exact State.addF_keeps h_1
  · split
    · exact State.kvWrite_keeps h_1
    · exact KeepsOpt.none

theorem execKvAppend_keeps {z : State} {core : Nat} {src pos : List HostByte} {s : State} (h_1 : Keeps z s) :
    KeepsRes z (execKvAppend core src pos s) := by
  unfold execKvAppend
  refine KeepsRes.next ?_
  apply engineOp_keeps
  · intro v1 v2 h3
    extract_lets x4 x5
    clear_value x4
    clear_value x5
    split
    · exact h3
    · split
      · exact E.fault_keeps h3
      · split
        · exact E.fault_keeps h3
        · split
          · refine Got.keeps_wait (by with_reducible assumption) ?_
            exact State.engineRead_keeps h3
          · apply E.fault_keeps
            refine Got.keeps_fault (by with_reducible assumption) ?_
            exact State.engineRead_keeps h3
          · split
            · apply E.fault_keeps
              refine Got.keeps_ok (by with_reducible assumption) ?_
              exact State.engineRead_keeps h3
            · extract_lets x6 x7 x8
              clear_value x6
              clear_value x7
              clear_value x8
              split
              · refine Got.keeps_ok (by with_reducible assumption) ?_
                exact State.engineRead_keeps h3
              · split
                · apply E.fault_keeps
                  refine Got.keeps_ok (by with_reducible assumption) ?_
                  exact State.engineRead_keeps h3
                · split
                  · apply E.fault_keeps
                    refine Got.keeps_ok (by with_reducible assumption) ?_
                    exact State.engineRead_keeps h3
                  · split
                    · apply E.fault_keeps
                      refine Got.keeps_ok (by with_reducible assumption) ?_
                      exact State.engineRead_keeps h3
                    · split
                      · refine Got.keeps_wait (by with_reducible assumption) ?_
                        apply State.engineRead_keeps
                        refine Got.keeps_ok (by with_reducible assumption) ?_
                        exact State.engineRead_keeps h3
                      · refine Got.keeps_wait (by with_reducible assumption) ?_
                        split
                        · dsimp only [Got.st]
                          refine Got.keeps_ok (by with_reducible assumption) ?_
                          exact State.engineRead_keeps h3
                        · apply State.engineRead_keeps
                          refine Got.keeps_ok (by with_reducible assumption) ?_
                          exact State.engineRead_keeps h3
                      · apply E.fault_keeps
                        refine Got.keeps_fault (by with_reducible assumption) ?_
                        apply State.engineRead_keeps
                        refine Got.keeps_ok (by with_reducible assumption) ?_
                        exact State.engineRead_keeps h3
                      · apply E.fault_keeps
                        refine Got.keeps_fault (by with_reducible assumption) ?_
                        split
                        · dsimp only [Got.st]
                          refine Got.keeps_ok (by with_reducible assumption) ?_
                          exact State.engineRead_keeps h3
                        · apply State.engineRead_keeps
                          refine Got.keeps_ok (by with_reducible assumption) ?_
                          exact State.engineRead_keeps h3
                      · apply E.appendPos_keeps
                        refine Got.keeps_ok (by with_reducible assumption) ?_
                        apply State.engineRead_keeps
                        refine Got.keeps_ok (by with_reducible assumption) ?_
                        exact State.engineRead_keeps h3
  · exact h_1

theorem execKvSeqRead_keeps {z : State} {sq : Nat} {s : State} (h_1 : Keeps z s) :
    KeepsRes z (execKvSeqRead sq s) := by
  unfold execKvSeqRead
  refine KeepsRes.next ?_
  apply State.runCmd_keeps
  · exact h_1
  · intro v1 v2 v3 h4
    extract_lets x5
    clear_value x5
    split
    · exact State.kvDone_keeps h4
    · exact State.completeCmd_keeps h4

theorem State.endCommit_keeps {z s : State} {sq : Nat} {c : Cmd} {r : KvRun} (h_1 : Keeps z s) :
    Keeps z (s.endCommit sq c r) := by
  unfold State.endCommit
  exact State.kvDone_keeps h_1

theorem State.nextCommit_keeps {z s : State} {sq st : Nat} {c : Cmd} {r : KvRun} {a5 : List Nat} (h_1 : Keeps z s) :
    Keeps z (s.nextCommit sq st c r a5) := by
  induction a5 generalizing s sq st c r with
  | nil =>
    unfold State.nextCommit
    exact State.endCommit_keeps h_1
  | cons w1 w2 ih =>
    unfold State.nextCommit
    split
    · exact ih h_1
    · split
      · exact State.updCmd_keeps h_1
      · exact State.updCmd_keeps (State.updKseq_keeps h_1)

theorem State.putRow_keeps {z s : State} {k : KSeq} {pos : Nat} {w : List Nat} {r : Nat} (h_1 : Keeps z s) :
    Keeps z (s.putRow k pos w r) := by
  unfold State.putRow
  extract_lets x1
  have hx1 : Keeps z x1 := by
    unfold x1
    refine Keeps.foldl ?_ ?_
    · exact h_1
    · intro v2 v3 h4
      refine KeepsOpt.getD ?_ ?_
      · exact State.kvWrite_keeps h4
      · exact h4
  clear_value x1
  refine KeepsOpt.getD ?_ ?_
  · exact State.kvWrite_keeps hx1
  · exact hx1

theorem execVpscore_keeps {z : State} {core : Nat} {s : State} (h_1 : Keeps z s) :
    KeepsRes z (execVpscore core s) := by
  unfold execVpscore
  refine KeepsRes.next ?_
  apply engineOp_keeps
  · intro v1 v2 h3
    extract_lets x4 x5 x6 x7 x8
    clear_value x4
    clear_value x5
    clear_value x6
    clear_value x7
    clear_value x8
    split
    · exact E.fault_keeps h3
    · split
      · exact E.fault_keeps h3
      · split
        · exact E.fault_keeps h3
        · split
          · apply E.over_keeps
            refine KeepsOpt.get (by with_reducible assumption) ?_
            exact State.postScore_keeps h3
          · exact E.fault_keeps (State.kvPoison_keeps h3)
  · exact h_1

theorem State.givePage_keeps {z s : State} {p n : Nat} (h_1 : Keeps z s) :
    Keeps z (s.givePage p n) := by
  unfold State.givePage
  extract_lets x1
  clear_value x1
  split
  · apply State.setFreeNow_keeps
    refine KeepsOpt.get (by with_reducible assumption) ?_
    exact State.kvWrite_keeps h_1
  · exact h_1

theorem State.freePosition_keeps {z s : State} {k : KSeq} {pos : Nat} (h_1 : Keeps z s) :
    Keeps z (s.freePosition k pos) := by
  unfold State.freePosition
  refine Keeps.foldl ?_ ?_
  · exact h_1
  · intro v1 v2 h3
    split
    · split
      · exact h3
      · exact State.givePage_keeps h3
    · exact State.addF_keeps h3
    · exact h3

theorem State.closeSeq_keeps {z s : State} {i : Nat} (h_1 : Keeps z s) :
    Keeps z (s.closeSeq i) := by
  unfold State.closeSeq
  extract_lets x1
  clear_value x1
  apply State.setKseq_keeps
  refine Keeps.foldl ?_ ?_
  · exact h_1
  · intro v2 v3 h4
    exact State.freePosition_keeps h4

theorem execKvBatch_keeps {z : State} {sq : Nat} {s : State} (h_1 : Keeps z s) :
    KeepsRes z (execKvBatch sq s) := by
  unfold execKvBatch
  refine KeepsRes.next ?_
  apply State.runCmd_keeps
  · exact h_1
  · intro v1 v2 v3 h4
    extract_lets x5 x6 x7 x8 x9 x10 x11 x12 x13 x14 x15 x16 x17 x18
    clear_value x5
    clear_value x6
    clear_value x7
    clear_value x8
    clear_value x9
    clear_value x10
    clear_value x11
    clear_value x12
    clear_value x13
    clear_value x14
    clear_value x15
    clear_value x16
    clear_value x17
    have hx18 : Keeps z x18 := by
      unfold x18
      refine Keeps.foldl ?_ ?_
      · exact h4
      · intro v19 v20 h21
        exact State.cpWrite_keeps h21
    clear_value x18
    split
    · split
      · exact State.completeCmd_keeps h4
      · split
        · exact State.kvDone_keeps h4
        · exact State.kvDone_keeps hx18
    · split
      · exact State.completeCmd_keeps h4
      · split
        · exact State.kvDone_keeps h4
        · exact State.kvDone_keeps hx18

theorem State.commitSeq_keeps {z s : State} {i : Nat} (h_1 : Keeps z s) :
    KeepsOpt z (fun (x : Nat × State) => x.2) (s.commitSeq i) := by
  unfold State.commitSeq
  extract_lets x1 x2 x3 x4 x5 x6 x7 x8 x9 x10 x11 x12
  clear_value x1
  clear_value x2
  clear_value x3
  clear_value x4
  clear_value x5
  clear_value x6
  clear_value x7
  have hx8 : Keeps z x8 := by
    unfold x8
    refine Keeps.foldl ?_ ?_
    · exact h_1
    · intro v13 v14 h15
      exact State.freePosition_keeps h15
  clear_value x8
  clear_value x9
  have hx10 : Keeps z x10 := by
    unfold x10
    refine Keeps.foldl ?_ ?_
    · exact hx8
    · intro v16 v17 h18
      exact State.putRow_keeps h18
  clear_value x10
  have hx11 : Keeps z x11 := by
    unfold x11
    exact State.addF_keeps hx10
  clear_value x11
  have hx12 : Keeps z x12 := by
    unfold x12
    exact State.trace_keeps hx11
  clear_value x12
  split
  · exact KeepsOpt.none
  · refine KeepsOpt.some ?_
    dsimp only
    exact State.setKseq_keeps hx12

theorem execKvCommitProceed_keeps {z : State} {sq : Nat} {s : State} (h_1 : Keeps z s) :
    KeepsRes z (execKvCommitProceed sq s) := by
  unfold execKvCommitProceed
  refine KeepsRes.next ?_
  split
  · exact h_1
  · split
    · exact h_1
    · extract_lets x1
      clear_value x1
      split
      · exact State.nextCommit_keeps h_1
      · extract_lets x2
        clear_value x2
        split
        · exact State.nextCommit_keeps h_1
        · split
          · exact h_1
          · split
            · exact State.nextCommit_keeps (State.updKseq_keeps h_1)
            · split
              · apply State.nextCommit_keeps
                refine KeepsOpt.snd (by with_reducible assumption) ?_
                exact State.commitSeq_keeps h_1
              · exact State.nextCommit_keeps (State.updKseq_keeps (State.kvPoison_keeps h_1))

theorem execKvDrop_keeps {z : State} {sq : Nat} {s : State} (h_1 : Keeps z s) :
    KeepsRes z (execKvDrop sq s) := by
  unfold execKvDrop
  refine KeepsRes.next ?_
  apply State.runCmd_keeps
  · exact h_1
  · intro v1 v2 v3 h4
    extract_lets x5 x6 x7
    clear_value x5
    clear_value x6
    clear_value x7
    split
    · exact State.kvDone_keeps h4
    · split
      · exact State.kvDone_keeps h4
      · split
        · split
          · apply State.kvDone_keeps
            refine KeepsOpt.get (by with_reducible assumption) ?_
            exact State.kvWrite_keeps h4
          · exact State.completeCmd_keeps h4
        · exact State.kvDone_keeps (State.kvPoison_keeps h4)
        · exact State.completeCmd_keeps h4

theorem execKvSeqClose_keeps {z : State} {sq : Nat} {s : State} (h_1 : Keeps z s) :
    KeepsRes z (execKvSeqClose sq s) := by
  unfold execKvSeqClose
  refine KeepsRes.next ?_
  extract_lets x1
  clear_value x1
  split
  · exact State.kvDone_keeps (State.closeSeq_keeps h_1)
  · apply State.runCmd_keeps
    · exact h_1
    · intro v2 v3 v4 h5
      extract_lets x6 x7
      clear_value x6
      clear_value x7
      split
      · exact State.kvDone_keeps h5
      · split
        · exact h5
        · split
          · exact State.kvDone_keeps (State.closeSeq_keeps h5)
          · exact State.updCmd_keeps (State.setKseq_keeps h5)

theorem execKvSeqSet_keeps {z : State} {sq : Nat} {s : State} (h_1 : Keeps z s) :
    KeepsRes z (execKvSeqSet sq s) := by
  unfold execKvSeqSet
  refine KeepsRes.next ?_
  apply State.runCmd_keeps
  · exact h_1
  · intro v1 v2 v3 h4
    extract_lets x5 x6 x7 x8 x9
    clear_value x5
    clear_value x6
    clear_value x7
    clear_value x8
    clear_value x9
    split
    · exact State.kvDone_keeps h4
    · split
      · exact State.kvDone_keeps h4
      · split
        · exact State.kvDone_keeps h4
        · exact State.kvDone_keeps (State.setKseq_keeps h4)

theorem execKvCommit_keeps {z : State} {sq : Nat} {host : List Byte} {s : State} (h_1 : Keeps z s) :
    KeepsRes z (execKvCommit sq host s) := by
  unfold execKvCommit
  refine KeepsRes.next ?_
  apply State.runCmd_keeps
  · exact h_1
  · intro v1 v2 v3 h4
    extract_lets x5 x6 x7
    clear_value x5
    clear_value x6
    clear_value x7
    split
    · exact State.nextCommit_keeps h4
    · split
      · exact State.completeCmd_keeps h4
      · split
        · exact h4
        · split
          · exact State.completeCmd_keeps h4
          · apply State.nextCommit_keeps
            refine KeepsOpt.snd2 (by with_reducible assumption) ?_
            exact State.cpRead_keeps h4

end Sys2Proof.Machine
end

