-- ==== Sys2Proof/Laws/KeepsPower.lean ====
section
/-! SUPPORT. What each operation of Machine/Power.lean keeps (Laws/Keeps.lean): one lemma per operation that answers a
state. -/

namespace Sys2Proof.Machine

open Sys2Proof

theorem State.powerFault_keeps {z s : State} {c : FaultCode} {detail : Nat} {event : Bool} (h_1 : Keeps z s) :
    Keeps z (s.powerFault c detail event) := by
  unfold State.powerFault
  extract_lets x1
  have hx1 : Keeps z x1 := by
    unfold x1
    exact State.advise_keeps h_1
  clear_value x1
  split
  · exact State.moduleEvent_keeps hx1
  · exact hx1

theorem State.updPw_keeps {z s : State} {f : Power → Power} (h_1 : Keeps z s) :
    Keeps z (s.updPw f) := by
  unfold State.updPw
  refine Keeps.upd (u := s) ?_ rfl rfl rfl rfl rfl rfl rfl rfl
  exact h_1

theorem State.recap_keeps {z s : State} (h_1 : Keeps z s) :
    Keeps z s.recap := by
  unfold State.recap
  extract_lets x1
  clear_value x1
  exact State.setF_keeps (State.setF_keeps (State.setF_keeps h_1))

theorem State.thermal_keeps {z s : State} (h_1 : Keeps z s) :
    Keeps z s.thermal := by
  unfold State.thermal
  extract_lets x1 x2 x3 x4 x5 x6 x7 x8 x9 x10 x11 x12
  clear_value x1
  clear_value x2
  clear_value x3
  clear_value x4
  have hx5 : Keeps z x5 := by
    unfold x5
    exact State.setF_keeps h_1
  clear_value x5
  have hx6 : Keeps z x6 := by
    unfold x6
    split
    · exact State.powerFault_keeps hx5
    · exact hx5
  clear_value x6
  have hx7 : Keeps z x7 := by
    unfold x7
    split
    · exact State.updPw_keeps hx6
    · exact hx6
  clear_value x7
  have hx8 : Keeps z x8 := by
    unfold x8
    exact State.updPw_keeps hx7
  clear_value x8
  clear_value x9
  have hx10 : Keeps z x10 := by
    unfold x10
    split
    · exact State.updPw_keeps hx8
    · exact hx8
  clear_value x10
  clear_value x11
  have hx12 : Keeps z x12 := by
    unfold x12
    split
    · exact State.fenceOn_keeps (State.setF_keeps hx10)
    · split
      · exact State.fenceOff_keeps (State.setF_keeps hx10)
      · exact hx10
  clear_value x12
  exact State.recap_keeps hx12

theorem State.beginOp_keeps {z s : State} (h_1 : Keeps z s) :
    Keeps z s.beginOp := by
  unfold State.beginOp
  extract_lets x1 x2
  clear_value x1
  clear_value x2
  split
  · exact h_1
  · exact State.updPw_keeps h_1

theorem execOpChangeComplete_keeps {z s : State} (h_1 : Keeps z s) :
    KeepsRes z (execOpChangeComplete s) := by
  unfold execOpChangeComplete
  refine KeepsRes.next ?_
  split
  · exact h_1
  · extract_lets x1 x2 x3
    have hx1 : Keeps z x1 := by
      unfold x1
      exact State.notBefore_keeps h_1
    clear_value x1
    have hx2 : Keeps z x2 := by
      unfold x2
      exact State.setF_keeps (State.setF_keeps hx1)
    clear_value x2
    have hx3 : Keeps z x3 := by
      unfold x3
      exact State.recap_keeps (State.updPw_keeps hx2)
    clear_value x3
    split
    · exact State.beginOp_keeps hx3
    · exact hx3

theorem execAuxDetect_keeps {z : State} {present : Bool} {s : State} (h_1 : Keeps z s) :
    KeepsRes z (execAuxDetect present s) := by
  unfold execAuxDetect
  refine KeepsRes.next ?_
  split
  · exact State.setF_keeps h_1
  · exact h_1

theorem State.coreOff_keeps {z s : State} (h_1 : Keeps z s) :
    Keeps z s.coreOff := by
  unfold State.coreOff
  exact State.updPw_keeps (State.setF_keeps (State.setF_keeps h_1))

theorem State.coreLatch_keeps {z s : State} {cause : Nat} (h_1 : Keeps z s) :
    Keeps z (s.coreLatch cause) := by
  unfold State.coreLatch
  exact State.fenceOn_keeps (State.updPw_keeps (State.coreOff_keeps h_1))

theorem State.setAdapt_keeps {z s : State} {v : Int} (h_1 : Keeps z s) :
    Keeps z (s.setAdapt v) := by
  unfold State.setAdapt
  exact State.recap_keeps (State.setF_keeps h_1)

theorem execDroopAlarm_keeps {z s : State} (h_1 : Keeps z s) :
    KeepsRes z (execDroopAlarm s) := by
  unfold execDroopAlarm
  refine KeepsRes.next ?_
  split
  · exact State.updPw_keeps (State.setAdapt_keeps h_1)
  · exact h_1

theorem execOpChange_keeps {z s : State} (h_1 : Keeps z s) :
    KeepsRes z (execOpChange s) := by
  unfold execOpChange
  refine KeepsRes.next ?_
  split
  · exact State.beginOp_keeps h_1
  · exact h_1

theorem State.fanFull_keeps {z s : State} (h_1 : Keeps z s) :
    Keeps z s.fanFull := by
  unfold State.fanFull
  split
  · exact State.setF_keeps h_1
  · exact h_1

theorem State.clockWarn_keeps {z s : State} {d xo : Int} {refA xoA switched : Bool} (h_1 : Keeps z s) :
    Keeps z (s.clockWarn d xo refA xoA switched) := by
  unfold State.clockWarn
  exact State.powerFault_keeps (State.setF_keeps h_1)

theorem State.switchPlls_keeps {z s : State} {refclk : Bool} (h_1 : Keeps z s) :
    Keeps z (s.switchPlls refclk) := by
  unfold State.switchPlls
  split
  · exact State.setF_keeps (State.setF_keeps h_1)
  · exact State.setF_keeps (State.setF_keeps h_1)

theorem execRefclkLoss_keeps {z s : State} (h_1 : Keeps z s) :
    KeepsRes z (execRefclkLoss s) := by
  unfold execRefclkLoss
  refine KeepsRes.next ?_
  split
  · exact h_1
  · exact State.clockWarn_keeps (State.switchPlls_keeps h_1)

theorem State.vrShutdown_keeps {z s : State} (h_1 : Keeps z s) :
    Keeps z s.vrShutdown := by
  unfold State.vrShutdown
  exact State.coreLatch_keeps h_1

theorem State.setPhase_keeps {z s : State} {p : Nat} {v : Phase} (h_1 : Keeps z s) :
    Keeps z (s.setPhase p v) := by
  unfold State.setPhase
  exact State.updPw_keeps h_1

theorem State.legFault_keeps {z s : State} {phase : Nat} {low hard : Bool} (h_1 : Keeps z s) :
    Keeps z (s.legFault phase low hard) := by
  unfold State.legFault
  extract_lets x1 x2 x3 x4 x5
  have hx1 : Keeps z x1 := by
    unfold x1
    exact State.setF_keeps h_1
  clear_value x1
  clear_value x2
  have hx3 : Keeps z x3 := by
    unfold x3
    exact State.updPw_keeps hx1
  clear_value x3
  have hx4 : Keeps z x4 := by
    unfold x4
    exact State.setF_keeps hx3
  clear_value x4
  have hx5 : Keeps z x5 := by
    unfold x5
    exact State.powerFault_keeps (State.setPhase_keeps hx4)
  clear_value x5
  split
  · exact State.vrShutdown_keeps hx3
  · split
    · exact State.vrShutdown_keeps hx5
    · exact State.recap_keeps hx5

theorem State.corePgFault_keeps {z s : State} (h_1 : Keeps z s) :
    Keeps z s.corePgFault := by
  unfold State.corePgFault
  exact State.fenceOn_keeps (State.updPw_keeps (State.setF_keeps h_1))

theorem State.vrStart_keeps {z s : State} (h_1 : Keeps z s) :
    Keeps z s.vrStart := by
  unfold State.vrStart
  extract_lets x1
  have hx1 : Keeps z x1 := by
    unfold x1
    exact State.setF_keeps (State.setReg_keeps h_1)
  clear_value x1
  exact State.recap_keeps (State.updPw_keeps hx1)

theorem execPwmPeriod_keeps {z : State} {phase : Nat} {demand : Int} {s : State} (h_1 : Keeps z s) :
    KeepsRes z (execPwmPeriod phase demand s) := by
  unfold execPwmPeriod
  refine KeepsRes.next ?_
  split
  · exact h_1
  · extract_lets x1 x2 x3 x4
    clear_value x1
    clear_value x2
    clear_value x3
    have hx4 : Keeps z x4 := by
      unfold x4
      split
      · exact State.addF_keeps h_1
      · exact h_1
    clear_value x4
    exact State.setPhase_keeps hx4

theorem State.setFan_keeps {z s : State} {st : Nat} (h_1 : Keeps z s) :
    Keeps z (s.setFan st) := by
  unfold State.setFan
  exact State.updPw_keeps (State.setF_keeps h_1)

theorem execTachLost_keeps {z s : State} (h_1 : Keeps z s) :
    KeepsRes z (execTachLost s) := by
  unfold execTachLost
  refine KeepsRes.next ?_
  split
  · exact h_1
  · extract_lets x1 x2
    clear_value x1
    have hx2 : Keeps z x2 := by
      unfold x2
      exact State.setF_keeps (State.setF_keeps (State.setFan_keeps h_1))
    clear_value x2
    exact State.powerFault_keeps (State.fanFull_keeps (State.updPw_keeps hx2))

theorem execClockRefCheck_keeps {z : State} {refXo refW xoW : Int} {s : State} (h_1 : Keeps z s) :
    KeepsRes z (execClockRefCheck refXo refW xoW s) := by
  unfold execClockRefCheck
  refine KeepsRes.next ?_
  split
  · exact h_1
  · extract_lets x1 x2 x3 x4 x5 x6 x7 x8 x9
    clear_value x1
    clear_value x2
    clear_value x3
    clear_value x4
    have hx5 : Keeps z x5 := by
      unfold x5
      exact State.setF_keeps (State.setF_keeps h_1)
    clear_value x5
    clear_value x6
    have hx7 : Keeps z x7 := by
      unfold x7
      exact State.updPw_keeps hx5
    clear_value x7
    clear_value x8
    have hx9 : Keeps z x9 := by
      unfold x9
      split
      · split
        · exact State.updPw_keeps hx5
        · split
          · exact hx5
          · exact State.fenceOff_keeps (State.setF_keeps hx5)
      · split
        · apply State.clockWarn_keeps
          split
          · exact State.switchPlls_keeps hx7
          · exact hx7
        · exact hx7
    clear_value x9
    split
    · exact State.fenceOn_keeps hx9
    · exact hx9

theorem State.unlatchCore_keeps {z s : State} (h_1 : Keeps z s) :
    Keeps z s.unlatchCore := by
  unfold State.unlatchCore
  extract_lets x1
  have hx1 : Keeps z x1 := by
    unfold x1
    exact State.setF_keeps (State.setReg_keeps h_1)
  clear_value x1
  exact State.recap_keeps (State.updPw_keeps hx1)

theorem execRemoteSenseLost_keeps {z : State} {probe : Bool} {remote loc : Nat} {s : State} (h_1 : Keeps z s) :
    KeepsRes z (execRemoteSenseLost probe remote loc s) := by
  unfold execRemoteSenseLost
  refine KeepsRes.next ?_
  extract_lets x1
  clear_value x1
  split
  · exact h_1
  · exact State.recap_keeps (State.powerFault_keeps (State.setF_keeps h_1))

theorem execPowerLimitTick_keeps {z : State} {card core iout vout : Nat} {s : State} (h_1 : Keeps z s) :
    KeepsRes z (execPowerLimitTick card core iout vout s) := by
  unfold execPowerLimitTick
  refine KeepsRes.next ?_
  split
  · exact h_1
  · extract_lets x1 x2 x3 x4 x5 x6 x7 x8
    have hx1 : Keeps z x1 := by
      unfold x1
      exact State.notBefore_keeps h_1
    clear_value x1
    have hx2 : Keeps z x2 := by
      unfold x2
      exact State.setF_keeps (State.setF_keeps hx1)
    clear_value x2
    have hx3 : Keeps z x3 := by
      unfold x3
      exact State.setF_keeps (State.setF_keeps hx2)
    clear_value x3
    have hx4 : Keeps z x4 := by
      unfold x4
      exact State.updPw_keeps hx3
    clear_value x4
    clear_value x5
    clear_value x6
    have hx7 : Keeps z x7 := by
      unfold x7
      split
      · exact State.updPw_keeps hx4
      · split
        · exact State.updPw_keeps hx4
        · exact State.updPw_keeps hx4
    clear_value x7
    have hx8 : Keeps z x8 := by
      unfold x8
      split
      · split
        · exact State.updPw_keeps hx7
        · exact hx7
      · exact hx7
    clear_value x8
    exact State.recap_keeps hx8

theorem execAdaptTick_keeps {z : State} {slack : Nat} {s : State} (h : Keeps z s) :
    KeepsRes z (execAdaptTick slack s) := by
  unfold execAdaptTick
  refine KeepsRes.next ?_
  split
  · exact h
  · extract_lets x1 x2 x3 x4 x5 x6
    have hx1 : Keeps z x1 := State.notBefore_keeps h
    have hx2 : Keeps z x2 := by
      unfold x2
      split
      · exact State.notBefore_keeps hx1
      · exact hx1
    have hx3 : Keeps z x3 := State.updPw_keeps hx2
    split
    · exact State.setAdapt_keeps hx3
    · split
      · exact State.setAdapt_keeps hx3
      · exact hx3


theorem execVrefCheck_keeps {z : State} {diff : Nat} {s : State} (h_1 : Keeps z s) :
    KeepsRes z (execVrefCheck diff s) := by
  unfold execVrefCheck
  refine KeepsRes.next ?_
  split
  · exact h_1
  · extract_lets x1 x2 x3 x4 x5 x6 x7
    have hx1 : Keeps z x1 := by
      unfold x1
      exact State.setF_keeps h_1
    clear_value x1
    clear_value x2
    have hx3 : Keeps z x3 := by
      unfold x3
      split
      · exact State.powerFault_keeps (State.setF_keeps (State.setF_keeps hx1))
      · exact hx1
    clear_value x3
    have hx4 : Keeps z x4 := by
      unfold x4
      split
      · exact State.fenceOn_keeps hx3
      · exact hx3
    clear_value x4
    have hx5 : Keeps z x5 := by
      unfold x5
      exact State.updPw_keeps hx4
    clear_value x5
    clear_value x6
    have hx7 : Keeps z x7 := by
      unfold x7
      split
      · exact State.setF_keeps (State.setF_keeps hx5)
      · exact hx5
    clear_value x7
    apply State.recap_keeps
    split
    · exact State.fenceOff_keeps hx7
    · exact hx7

theorem execAdcFrozen_keeps {z : State} {counter : Bool} {s : State} (h_1 : Keeps z s) :
    KeepsRes z (execAdcFrozen counter s) := by
  unfold execAdcFrozen
  refine KeepsRes.next ?_
  split
  · exact h_1
  · exact State.coreLatch_keeps (State.powerFault_keeps (State.setF_keeps h_1))

theorem execThermalTick_keeps {z : State} {sensor : Nat} {temp : Int} {s : State} (h_1 : Keeps z s) :
    KeepsRes z (execThermalTick sensor temp s) := by
  unfold execThermalTick
  refine KeepsRes.next ?_
  split
  · exact h_1
  · split
    · exact State.thermal_keeps (State.setF_keeps h_1)
    · extract_lets x1 x2
      clear_value x1
      have hx2 : Keeps z x2 := by
        unfold x2
        exact State.updPw_keeps h_1
      clear_value x2
      split
      · exact State.updPw_keeps h_1
      · exact State.thermal_keeps (State.setF_keeps (State.setF_keeps hx2))

theorem execTempSensorFrozen_keeps {z : State} {sensor : Nat} {counter : Bool} {s : State} (h_1 : Keeps z s) :
    KeepsRes z (execTempSensorFrozen sensor counter s) := by
  unfold execTempSensorFrozen
  refine KeepsRes.next ?_
  split
  · exact h_1
  · extract_lets x1
    have hx1 : Keeps z x1 := by
      unfold x1
      exact State.updPw_keeps h_1
    clear_value x1
    split
    · exact hx1
    · exact State.thermal_keeps (State.fanFull_keeps (State.powerFault_keeps (State.setF_keeps hx1)))

theorem execPowerGoodAssert_keeps {z : State} {vout : Nat} {s : State} (h_1 : Keeps z s) :
    KeepsRes z (execPowerGoodAssert vout s) := by
  unfold execPowerGoodAssert
  refine KeepsRes.next ?_
  extract_lets x1 x2 x3 x4 x5 x6
  clear_value x1
  clear_value x2
  clear_value x3
  have hx4 : Keeps z x4 := by
    unfold x4
    exact State.recap_keeps (State.setF_keeps (State.setF_keeps h_1))
  clear_value x4
  have hx5 : Keeps z x5 := by
    unfold x5
    exact State.updPw_keeps hx4
  clear_value x5
  clear_value x6
  split
  · exact h_1
  · apply State.fenceOff_keeps
    refine Keeps.upd (u := x5) ?_ rfl rfl rfl rfl rfl rfl rfl rfl
    exact hx5

theorem execPowerGoodFault_keeps {z : State} {high : Bool} {vout : Nat} {s : State} (h_1 : Keeps z s) :
    KeepsRes z (execPowerGoodFault high vout s) := by
  unfold execPowerGoodFault
  refine KeepsRes.next ?_
  extract_lets x1 x2
  clear_value x1
  clear_value x2
  split
  · exact h_1
  · split
    · exact State.corePgFault_keeps (State.setF_keeps h_1)
    · split
      · exact State.updPw_keeps (State.coreOff_keeps h_1)
      · exact h_1

theorem execHardShort_keeps {z : State} {phase : Nat} {low : Bool} {s : State} (h_1 : Keeps z s) :
    KeepsRes z (execHardShort phase low s) := by
  unfold execHardShort
  refine KeepsRes.next ?_
  split
  · exact State.legFault_keeps h_1
  · exact h_1

theorem execFanStartCheck_keeps {z : State} {rpm : Nat} {s : State} (h_1 : Keeps z s) :
    KeepsRes z (execFanStartCheck rpm s) := by
  unfold execFanStartCheck
  refine KeepsRes.next ?_
  split
  · exact h_1
  · extract_lets x1 x2
    have hx1 : Keeps z x1 := by
      unfold x1
      exact State.setF_keeps (State.notBefore_keeps h_1)
    clear_value x1
    clear_value x2
    split
    · exact State.setFan_keeps hx1
    · split
      · exact State.setFan_keeps hx1
      · exact State.powerFault_keeps (State.fanFull_keeps (State.setFan_keeps hx1))

theorem execFanControlTick_keeps {z : State} {duty rpm : Nat} {s : State} (h_1 : Keeps z s) :
    KeepsRes z (execFanControlTick duty rpm s) := by
  unfold execFanControlTick
  refine KeepsRes.next ?_
  split
  · exact h_1
  · extract_lets x1 x2 x3 x4 x5
    have hx1 : Keeps z x1 := by
      unfold x1
      exact State.setF_keeps (State.notBefore_keeps h_1)
    clear_value x1
    have hx2 : Keeps z x2 := by
      unfold x2
      exact State.updPw_keeps hx1
    clear_value x2
    have hx3 : Keeps z x3 := by
      unfold x3
      exact State.updPw_keeps hx2
    clear_value x3
    clear_value x4
    clear_value x5
    split
    · split
      · split
        · exact State.updPw_keeps (State.setFan_keeps hx3)
        · exact hx3
      · exact hx3
    · exact State.setF_keeps hx2

theorem execFanStart_keeps {z s : State} (h_1 : Keeps z s) :
    KeepsRes z (execFanStart s) := by
  unfold execFanStart
  refine KeepsRes.next ?_
  split
  · exact h_1
  · split
    · extract_lets x1
      have hx1 : Keeps z x1 := by
        unfold x1
        exact State.notBefore_keeps h_1
      clear_value x1
      exact State.fanFull_keeps (State.setFan_keeps (State.setF_keeps hx1))
    · split
      · exact State.fanFull_keeps (State.setFan_keeps (State.updPw_keeps h_1))
      · exact h_1

theorem execPowerGoodRetry_keeps {z s : State} (h_1 : Keeps z s) :
    KeepsRes z (execPowerGoodRetry s) := by
  unfold execPowerGoodRetry
  refine KeepsRes.next ?_
  split
  · split
    · exact h_1
    · exact State.updPw_keeps (State.setF_keeps (State.notBefore_keeps h_1))
  · exact h_1

theorem execV12bUndervoltage_keeps {z : State} {low : Bool} {s : State} (h_1 : Keeps z s) :
    KeepsRes z (execV12bUndervoltage low s) := by
  unfold execV12bUndervoltage
  refine KeepsRes.next ?_
  exact State.updPw_keeps h_1

theorem State.fanWanted_keeps {z s : State} {enable : Bool} (h_1 : Keeps z s) :
    Keeps z (s.fanWanted enable) := by
  unfold State.fanWanted
  split
  · exact h_1
  · extract_lets x1
    have hx1 : Keeps z x1 := by
      unfold x1
      split
      · exact State.setF_keeps (State.setFan_keeps h_1)
      · exact h_1
    clear_value x1
    exact State.updPw_keeps hx1

theorem execOvercurrentTrip_keeps {z : State} {phase : Nat} {low : Bool} {s : State} (h_1 : Keeps z s) :
    KeepsRes z (execOvercurrentTrip phase low s) := by
  unfold execOvercurrentTrip
  refine KeepsRes.next ?_
  extract_lets x1 x2 x3 x4
  clear_value x1
  clear_value x2
  clear_value x3
  have hx4 : Keeps z x4 := by
    unfold x4
    exact State.setPhase_keeps h_1
  clear_value x4
  split
  · split
    · exact h_1
    · split
      · exact State.legFault_keeps hx4
      · exact hx4
  · split
    · exact h_1
    · split
      · exact State.legFault_keeps hx4
      · exact hx4

end Sys2Proof.Machine
end

