-- ==== Sys2Proof/Laws/KeepsTackOps.lean ====
section
/-! SUPPORT. What each operation of Machine/TackOps.lean keeps (Laws/Keeps.lean): one lemma per operation that answers a
state. -/

namespace Sys2Proof.Machine

open Sys2Proof

theorem State.tackResult_keeps {z s : State} {block inst bank code field : Nat} (h_1 : Keeps z s) :
    Keeps z (s.tackResult block inst bank code field) := by
  unfold State.tackResult
  split
  · exact State.addF_keeps (State.setRegB_keeps h_1)
  · extract_lets x1
    have hx1 : Keeps z x1 := by
      unfold x1
      exact State.setRegB_keeps h_1
    clear_value x1
    exact State.addF_keeps (State.setReg_keeps hx1)

theorem State.setChecks_keeps {z s : State} {block : Nat} {l : List Check} (h_1 : Keeps z s) :
    Keeps z (s.setChecks block l) := by
  unfold State.setChecks
  refine Keeps.upd (u := s) ?_ rfl rfl rfl rfl rfl rfl rfl rfl
  exact h_1

theorem State.refuseChecks_keeps {z s : State} {p : Nat → Bool} (h_1 : Keeps z s) :
    Keeps z (s.refuseChecks p) := by
  unfold State.refuseChecks
  refine Keeps.foldl ?_ ?_
  · exact h_1
  · intro v1 v2 h3
    split
    · refine Keeps.foldl ?_ ?_
      · exact State.setChecks_keeps h3
      · intro v4 v5 h6
        exact State.tackResult_keeps h6
    · exact h3

theorem State.tackRunning_keeps {z s : State} {block bank : Nat} (h_1 : Keeps z s) :
    Keeps z (s.tackRunning block bank) := by
  unfold State.tackRunning
  exact State.setRegB_keeps h_1

end Sys2Proof.Machine
end

