-- ==== Sys2Proof/Laws/KeepsResets.lean ====
section
/-! SUPPORT. What each operation of Machine/Resets.lean keeps (Laws/Keeps.lean): one lemma per operation that answers a
state. -/

namespace Sys2Proof.Machine

open Sys2Proof

theorem State.ownerEnds_keeps {z s : State} {code : Nat} (h_1 : Keeps z s) :
    Keeps z (s.ownerEnds code) := by
  unfold State.ownerEnds
  extract_lets x1
  have hx1 : Keeps z x1 := by
    unfold x1
    split
    · exact State.setF_keeps (State.reloadStaged_keeps h_1)
    · exact h_1
  clear_value x1
  exact State.setF_keeps hx1

theorem State.restartCtrl_keeps {z s : State} (h_1 : Keeps z s) :
    Keeps z s.restartCtrl := by
  unfold State.restartCtrl
  extract_lets x1 x2
  have hx1 : Keeps z x1 := by
    unfold x1
    exact State.setF_keeps h_1
  clear_value x1
  clear_value x2
  refine Keeps.upd (u := x1) ?_ rfl rfl rfl rfl rfl rfl rfl rfl
  exact hx1

theorem State.endCpBursts_keeps {z s : State} (h_1 : Keeps z s) :
    Keeps z s.endCpBursts := by
  unfold State.endCpBursts
  exact State.endBursts_keeps h_1

theorem State.cpHalt_keeps {z s : State} (h_1 : Keeps z s) :
    Keeps z s.cpHalt := by
  unfold State.cpHalt
  extract_lets x1 x2 x3 x4 x5 x6 x7
  have hx1 : Keeps z x1 := by
    unfold x1
    exact State.endCpBursts_keeps h_1
  clear_value x1
  clear_value x2
  have hx3 : Keeps z x3 := by
    unfold x3
    refine Keeps.upd (u := x1) ?_ rfl rfl rfl rfl rfl rfl rfl rfl
    exact hx1
  clear_value x3
  clear_value x4
  have hx5 : Keeps z x5 := by
    unfold x5
    refine Keeps.upd (u := x3) ?_ rfl rfl rfl rfl rfl rfl rfl rfl
    exact hx3
  clear_value x5
  have hx6 : Keeps z x6 := by
    unfold x6
    exact State.refuseChecks_keeps hx5
  clear_value x6
  clear_value x7
  exact State.abortOrder_keeps hx6

theorem State.cpHold_keeps {z s : State} (h_1 : Keeps z s) :
    Keeps z s.cpHold := by
  unfold State.cpHold
  extract_lets x1 x2
  have hx1 : Keeps z x1 := by
    unfold x1
    exact State.restartCtrl_keeps (State.cpHalt_keeps h_1)
  clear_value x1
  clear_value x2
  refine Keeps.upd (u := x1) ?_ rfl rfl rfl rfl rfl rfl rfl rfl
  exact hx1

theorem State.headDown_keeps {z s : State} {head : Nat} (h_1 : Keeps z s) :
    Keeps z (s.headDown head) := by
  unfold State.headDown
  extract_lets x1
  clear_value x1
  apply State.setF_keeps
  split
  · exact State.emit_keeps h_1
  · exact h_1

theorem State.dropUpdate_keeps {z s : State} (h_1 : Keeps z s) :
    Keeps z s.dropUpdate := by
  unfold State.dropUpdate
  apply State.setF_keeps
  refine Keeps.upd (u := s) ?_ rfl rfl rfl rfl rfl rfl rfl rfl
  exact h_1

theorem State.keepF_keeps {z s old : State} {r : Reg} {i lo n : Nat} (h_1 : Keeps z s) (h_2 : Keeps z old) :
    Keeps z (s.keepF old r i lo n) := by
  unfold State.keepF
  exact State.setF_keeps h_1

theorem State.perstRegs_keeps {z s : State} (h_1 : Keeps z s) :
    Keeps z s.perstRegs := by
  unfold State.perstRegs
  extract_lets x1 x2 x3 x4 x5 x6 x7 x8 x9 x10
  have hx1 : Keeps z x1 := by
    unfold x1
    exact State.resetScopes_keeps h_1
  clear_value x1
  have hx2 : Keeps z x2 := by
    unfold x2
    apply State.keepF_keeps
    · exact hx1
    · exact h_1
  clear_value x2
  have hx3 : Keeps z x3 := by
    unfold x3
    apply State.keepF_keeps
    · exact hx2
    · exact h_1
  clear_value x3
  have hx4 : Keeps z x4 := by
    unfold x4
    apply State.keepF_keeps
    · exact hx3
    · exact h_1
  clear_value x4
  have hx5 : Keeps z x5 := by
    unfold x5
    split
    · exact hx4
    · apply State.keepF_keeps
      · exact hx4
      · exact h_1
  clear_value x5
  have hx6 : Keeps z x6 := by
    unfold x6
    apply State.keepF_keeps
    · apply State.keepF_keeps
      · exact hx5
      · exact h_1
    · exact h_1
  clear_value x6
  have hx7 : Keeps z x7 := by
    unfold x7
    apply State.keepF_keeps
    · exact hx6
    · exact h_1
  clear_value x7
  have hx8 : Keeps z x8 := by
    unfold x8
    split
    · exact State.setF_keeps hx7
    · split
      · exact State.setF_keeps hx7
      · exact hx7
  clear_value x8
  have hx9 : Keeps z x9 := by
    unfold x9
    exact State.setF_keeps hx8
  clear_value x9
  have hx10 : Keeps z x10 := by
    unfold x10
    exact State.setF_keeps hx9
  clear_value x10
  exact State.setF_keeps hx10

theorem State.perstScope_keeps {z s : State} {count : Bool} (h : Keeps z s) : Keeps z (s.perstScope count) := by
  unfold State.perstScope
  extract_lets +onlyGivenNames x1 x2 x3 x4 x5 x6 x7 x8
  have hx1 : Keeps z x1 := State.headDown_keeps (State.headDown_keeps h)
  clear_value x1
  have hx2 : Keeps z x2 := Keeps.foldl hx1 fun v x hv => State.fenceOff_keeps hv
  clear_value x2
  have hx5 : Keeps z x5 := State.dropUpdate_keeps hx2
  clear_value x5 x3 x4
  have hx7 : Keeps z x7 := State.perstRegs_keeps hx5
  clear_value x7 x6
  have hx8 : Keeps z x8 := by
    unfold x8
    split
    · exact State.setReg_keeps (State.setF_keeps hx7)
    · exact hx7
  clear_value x8
  refine State.unlatchCore_keeps (State.coreOff_keeps ?_)
  exact Keeps.also hx8 rfl rfl fun hi => ⟨rfl, hi.2.1, rfl, rfl, rfl⟩


theorem State.endOwnerSession_keeps {z s : State} (h_1 : Keeps z s) :
    Keeps z s.endOwnerSession := by
  unfold State.endOwnerSession
  split
  · exact h_1
  · extract_lets x1 x2 x3
    clear_value x1
    clear_value x2
    have hx3 : Keeps z x3 := by
      unfold x3
      refine Keeps.upd (u := s) ?_ rfl rfl rfl rfl rfl rfl rfl rfl
      exact h_1
    clear_value x3
    exact State.ownerEnds_keeps (State.setF_keeps hx3)

theorem State.endSessions_keeps {z s : State} {req : Nat} (h_1 : Keeps z s) :
    Keeps z (s.endSessions req) := by
  unfold State.endSessions
  extract_lets x1 x2
  have hx1 : Keeps z x1 := by
    unfold x1
    split
    · exact State.endOwnerSession_keeps h_1
    · exact h_1
  clear_value x1
  clear_value x2
  refine Keeps.upd (u := x1) ?_ rfl rfl rfl rfl rfl rfl rfl rfl
  exact hx1

theorem State.dropHolder_keeps {z s : State} {req : Nat} (h_1 : Keeps z s) :
    Keeps z (s.dropHolder req) := by
  unfold State.dropHolder
  extract_lets x1 x2 x3 x4 x5
  clear_value x1
  clear_value x2
  clear_value x3
  have hx4 : Keeps z x4 := by
    unfold x4
    refine Keeps.upd (u := s) ?_ rfl rfl rfl rfl rfl rfl rfl rfl
    exact h_1
  clear_value x4
  have hx5 : Keeps z x5 := by
    unfold x5
    refine Keeps.foldl ?_ ?_
    · exact hx4
    · intro v6 v7 h8
      exact State.setHolders_keeps h8
  clear_value x5
  refine Keeps.foldl ?_ ?_
  · exact hx5
  · intro v9 v10 h11
    exact State.snoopsDone_keeps h11

theorem State.cpResetCompletions_keeps {z s : State} (h_1 : Keeps z s) :
    Keeps z s.cpResetCompletions := by
  unfold State.cpResetCompletions
  extract_lets x1 x2 x3
  clear_value x1
  have hx2 : Keeps z x2 := by
    unfold x2
    refine Keeps.foldl ?_ ?_
    · exact h_1
    · intro v4 v5 h6
      exact State.endTask_keeps h6
  clear_value x2
  clear_value x3
  refine Keeps.foldl ?_ ?_
  · exact hx2
  · intro v7 v8 h9
    refine Keeps.foldl ?_ ?_
    · exact h9
    · intro v10 v11 h12
      exact State.dropCmd_keeps h12

theorem State.cpToRom_keeps {z s : State} (h_1 : Keeps z s) :
    Keeps z s.cpToRom := by
  unfold State.cpToRom
  extract_lets x1 x2 x3
  have hx1 : Keeps z x1 := by
    unfold x1
    exact State.setF_keeps (State.cpResetCompletions_keeps (State.cpHalt_keeps h_1))
  clear_value x1
  clear_value x2
  clear_value x3
  refine Keeps.upd (u := x1) ?_ rfl rfl rfl rfl rfl rfl rfl rfl
  exact hx1

theorem State.newKey_keeps {z s : State} {slot : Nat} (h_1 : Keeps z s) :
    Keeps z (s.newKey slot) := by
  unfold State.newKey
  refine Keeps.upd (u := s) ?_ rfl rfl rfl rfl rfl rfl rfl rfl
  exact h_1

theorem State.rekeyOwn_keeps {z s : State} {req : Nat} (h_1 : Keeps z s) :
    Keeps z (s.rekeyOwn req) := by
  unfold State.rekeyOwn
  refine Keeps.foldl ?_ ?_
  · exact State.newKey_keeps h_1
  · intro v1 v2 h3
    exact State.rekeyBlocks_keeps h3

theorem State.powerOff_keeps {z s : State} (h : Keeps z s) : Keeps z s.powerOff := by
  refine Keeps.also h rfl rfl fun _ => ?_
  unfold State.powerOff
  extract_lets x1 x2 x3 x4 x5
  have hx5 : x5.Inv := State.cold_inv
  unfold State.Inv State.memWf at *
  exact hx5


theorem State.hostQueuesOff_keeps {z s : State} {req : Nat} (h_1 : Keeps z s) :
    Keeps z (s.hostQueuesOff req) := by
  unfold State.hostQueuesOff
  extract_lets x1 x2 x3 x4 x5
  clear_value x1
  clear_value x2
  have hx3 : Keeps z x3 := by
    unfold x3
    refine Keeps.foldl ?_ ?_
    · exact h_1
    · intro v6 v7 h8
      exact State.updSq_keeps (State.dropWaiting_keeps (State.setF_keeps h8))
  clear_value x3
  have hx4 : Keeps z x4 := by
    unfold x4
    refine Keeps.foldl ?_ ?_
    · exact hx3
    · intro v9 v10 h11
      exact State.setF_keeps h11
  clear_value x4
  clear_value x5
  exact State.abortTasks_keeps hx4

theorem State.clearHandshake_keeps {z s : State} {req : Nat} (h_1 : Keeps z s) :
    Keeps z (s.clearHandshake req) := by
  unfold State.clearHandshake
  extract_lets x1 x2 x3
  have hx1 : Keeps z x1 := by
    unfold x1
    exact State.setRegB_keeps h_1
  clear_value x1
  clear_value x2
  have hx3 : Keeps z x3 := by
    unfold x3
    refine Keeps.upd (u := x1) ?_ rfl rfl rfl rfl rfl rfl rfl rfl
    exact hx1
  clear_value x3
  exact State.setF_keeps (State.setF_keeps hx3)

theorem State.applyStatic_keeps {z s : State} {req : Nat} (h_1 : Keeps z s) :
    Keeps z (s.applyStatic req) := by
  unfold State.applyStatic
  extract_lets x1 x2 x3
  clear_value x1
  clear_value x2
  clear_value x3
  refine Keeps.upd (u := s) ?_ rfl rfl rfl rfl rfl rfl rfl rfl
  exact h_1

theorem State.requesterReset_keeps {z s : State} {req : Nat} (h_1 : Keeps z s) :
    Keeps z (s.requesterReset req) := by
  unfold State.requesterReset
  extract_lets x1 x2 x3 x4 x5 x6 x7 x8 x9 x10
  have hx1 : Keeps z x1 := by
    unfold x1
    exact State.dropHolder_keeps h_1
  clear_value x1
  have hx2 : Keeps z x2 := by
    unfold x2
    exact State.hostQueuesOff_keeps hx1
  clear_value x2
  have hx3 : Keeps z x3 := by
    unfold x3
    refine Keeps.foldl ?_ ?_
    · exact hx2
    · intro v11 v12 h13
      split
      · exact State.taskFault_keeps h13
      · exact h13
  clear_value x3
  have hx4 : Keeps z x4 := by
    unfold x4
    exact State.clearHandshake_keeps hx3
  clear_value x4
  have hx5 : Keeps z x5 := by
    unfold x5
    exact State.endSessions_keeps hx4
  clear_value x5
  have hx6 : Keeps z x6 := by
    unfold x6
    exact State.rekeyOwn_keeps hx5
  clear_value x6
  have hx7 : Keeps z x7 := by
    unfold x7
    exact State.applyStatic_keeps hx6
  clear_value x7
  have hx8 : Keeps z x8 := by
    unfold x8
    exact State.setMbox_keeps hx7
  clear_value x8
  clear_value x9
  have hx10 : Keeps z x10 := by
    unfold x10
    refine Keeps.upd (u := x8) ?_ rfl rfl rfl rfl rfl rfl rfl rfl
    exact hx8
  clear_value x10
  exact State.setF_keeps (State.setF_keeps hx10)

theorem State.powerLoss_keeps {z s : State} (h_1 : Keeps z s) :
    Keeps z s.powerLoss := by
  unfold State.powerLoss
  exact State.powerOff_keeps (State.headDown_keeps (State.headDown_keeps h_1))

theorem State.beginStart_keeps {z s : State} (h_1 : Keeps z s) :
    Keeps z s.beginStart := by
  unfold State.beginStart
  extract_lets x1 x2
  clear_value x1
  have hx2 : Keeps z x2 := by
    unfold x2
    refine Keeps.upd (u := s) ?_ rfl rfl rfl rfl rfl rfl rfl rfl
    exact h_1
  clear_value x2
  split
  · exact State.setF_keeps hx2
  · exact hx2

theorem State.mgmtStop_keeps {z s : State} (h_1 : Keeps z s) :
    Keeps z s.mgmtStop := by
  unfold State.mgmtStop
  extract_lets x1 x2 x3
  have hx1 : Keeps z x1 := by
    unfold x1
    exact State.setF_keeps (State.dropUpdate_keeps (State.refuseChecks_keeps h_1))
  clear_value x1
  have hx2 : Keeps z x2 := by
    unfold x2
    split
    · exact State.setF_keeps hx1
    · exact hx1
  clear_value x2
  clear_value x3
  refine Keeps.upd (u := x2) ?_ rfl rfl rfl rfl rfl rfl rfl rfl
  exact hx2

end Sys2Proof.Machine
end

