-- ==== Sys2Proof/Laws/KeepsRecovery.lean ====
section
/-! SUPPORT. What each operation of Machine/Recovery.lean keeps (Laws/Keeps.lean): one lemma per operation that answers a
state. -/

namespace Sys2Proof.Machine

open Sys2Proof

theorem State.cpUnstable_keeps {z s : State} (h_1 : Keeps z s) :
    Keeps z s.cpUnstable := by
  unfold State.cpUnstable
  extract_lets x1 x2 x3 x4
  have hx1 : Keeps z x1 := by
    unfold x1
    exact State.setF_keeps (State.cpResetCompletions_keeps h_1)
  clear_value x1
  clear_value x2
  clear_value x3
  have hx4 : Keeps z x4 := by
    unfold x4
    refine Keeps.upd (u := x1) ?_ rfl rfl rfl rfl rfl rfl rfl rfl
    exact hx1
  clear_value x4
  exact State.fenceOn_keeps hx4

theorem State.classA_keeps {z s : State} {e : Entry} (h_1 : Keeps z s) :
    Keeps z (s.classA e) := by
  unfold State.classA
  extract_lets x1 x2 x3 x4 x5 x6 x7 x8
  have hx1 : Keeps z x1 := by
    unfold x1
    refine Keeps.foldl ?_ ?_
    · exact h_1
    · intro v9 v10 h11
      exact State.emit_keeps h11
  clear_value x1
  have hx2 : Keeps z x2 := by
    unfold x2
    refine Keeps.foldl ?_ ?_
    · exact hx1
    · intro v12 v13 h14
      exact State.emit_keeps h14
  clear_value x2
  have hx3 : Keeps z x3 := by
    unfold x3
    exact State.logFault_keeps (State.moduleEvent_keeps hx2)
  clear_value x3
  have hx4 : Keeps z x4 := by
    unfold x4
    exact State.perstScope_keeps hx3
  clear_value x4
  have hx5 : Keeps z x5 := by
    unfold x5
    exact State.addF_keeps hx4
  clear_value x5
  clear_value x6
  clear_value x7
  have hx8 : Keeps z x8 := by
    unfold x8
    refine Keeps.upd (u := x5) ?_ rfl rfl rfl rfl rfl rfl rfl rfl
    exact hx5
  clear_value x8
  split
  · exact State.fenceOn_keeps hx8
  · exact hx8

theorem execTamper_keeps {z : State} {monitor : Nat} {s : State} (h_1 : Keeps z s) :
    KeepsRes z (execTamper monitor s) := by
  unfold execTamper
  refine KeepsRes.next ?_
  split
  · exact h_1
  · exact State.classA_keeps h_1

theorem execInternalResetEnd_keeps {z s : State} (h_1 : Keeps z s) :
    KeepsRes z (execInternalResetEnd s) := by
  unfold execInternalResetEnd
  refine KeepsRes.next ?_
  split
  · exact h_1
  · extract_lets x1 x2
    clear_value x1
    have hx2 : Keeps z x2 := by
      unfold x2
      refine Keeps.upd (u := s) ?_ rfl rfl rfl rfl rfl rfl rfl rfl
      exact h_1
    clear_value x2
    split
    · exact hx2
    · exact State.beginStart_keeps hx2

theorem execClassAFault_keeps {z : State} {sf : Bool} {log0 log1 : Word} {s : State} (h_1 : Keeps z s) :
    KeepsRes z (execClassAFault sf log0 log1 s) := by
  unfold execClassAFault
  refine KeepsRes.next ?_
  split
  · exact h_1
  · exact State.classA_keeps h_1

theorem State.cpReset_keeps {z s : State} {reason : Nat} (h_1 : Keeps z s) :
    Keeps z (s.cpReset reason) := by
  unfold State.cpReset
  split
  · exact h_1
  · split
    · refine Keeps.upd (u := s) ?_ rfl rfl rfl rfl rfl rfl rfl rfl
      exact h_1
    · extract_lets x1 x2 x3 x4 x5
      have hx1 : Keeps z x1 := by
        unfold x1
        exact State.addF_keeps (State.advise_keeps h_1)
      clear_value x1
      clear_value x2
      clear_value x3
      have hx4 : Keeps z x4 := by
        unfold x4
        refine Keeps.upd (u := x1) ?_ rfl rfl rfl rfl rfl rfl rfl rfl
        exact hx1
      clear_value x4
      have hx5 : Keeps z x5 := by
        unfold x5
        split
        · exact State.cpHold_keeps hx4
        · exact State.cpToRom_keeps hx4
      clear_value x5
      split
      · exact State.cpUnstable_keeps hx5
      · exact hx5

theorem execCpLivenessTimeout_keeps {z s : State} (h_1 : Keeps z s) :
    KeepsRes z (execCpLivenessTimeout s) := by
  unfold execCpLivenessTimeout
  refine KeepsRes.next ?_
  split
  · exact State.cpReset_keeps (State.notBefore_keeps h_1)
  · exact h_1

theorem execCpReset_keeps {z : State} {reason : Nat} {s : State} (h_1 : Keeps z s) :
    KeepsRes z (execCpReset reason s) := by
  unfold execCpReset
  refine KeepsRes.next ?_
  extract_lets x1
  clear_value x1
  split
  · exact h_1
  · split
    · exact State.cpReset_keeps h_1
    · exact h_1

end Sys2Proof.Machine
end

