-- ==== Sys2Proof/Laws/KeepsStage.lean ====
section
/-! SUPPORT. What each operation of Machine/Stage.lean keeps (Laws/Keeps.lean): one lemma per operation that answers a
state. -/

namespace Sys2Proof.Machine

open Sys2Proof

theorem State.updStage_keeps {z s : State} {f : Stage → Stage} (h_1 : Keeps z s) :
    Keeps z (s.updStage f) := by
  unfold State.updStage
  refine Keeps.upd (u := s) ?_ rfl rfl rfl rfl rfl rfl rfl rfl
  exact h_1

theorem State.restartPair_keeps {z s : State} {b : Bool} (h_1 : Keeps z s) :
    Keeps z (s.restartPair b) := by
  unfold State.restartPair
  extract_lets x1 x2
  have hx1 : Keeps z x1 := by
    unfold x1
    exact State.setF_keeps (State.mgmtStop_keeps (State.cpToRom_keeps h_1))
  clear_value x1
  have hx2 : Keeps z x2 := by
    unfold x2
    exact State.setReg_keeps (State.setReg_keeps hx1)
  clear_value x2
  exact State.updStage_keeps hx2

theorem State.setAlt_keeps {z s : State} {code detail : Nat} {b : Bool} (h_1 : Keeps z s) :
    Keeps z (s.setAlt code detail b) := by
  unfold State.setAlt
  exact State.setF_keeps (State.setF_keeps (State.setF_keeps h_1))

theorem State.setReason_keeps {z s : State} {code detail : Nat} (h_1 : Keeps z s) :
    Keeps z (s.setReason code detail) := by
  unfold State.setReason
  exact State.updStage_keeps h_1

theorem State.pairFails_keeps {z s : State} {code detail : Nat} (h_1 : Keeps z s) :
    Keeps z (s.pairFails code detail) := by
  unfold State.pairFails
  extract_lets x1 x2 x3 x4 x5 x6
  clear_value x1
  have hx2 : Keeps z x2 := by
    unfold x2
    exact State.restartPair_keeps (State.setF_keeps (State.setAlt_keeps h_1))
  clear_value x2
  clear_value x3
  clear_value x4
  have hx5 : Keeps z x5 := by
    unfold x5
    exact State.setReason_keeps (State.restartPair_keeps (State.setAlt_keeps h_1))
  clear_value x5
  have hx6 : Keeps z x6 := by
    unfold x6
    exact State.updStage_keeps hx5
  clear_value x6
  split
  · exact State.updStage_keeps hx2
  · split
    · split
      · exact State.setF_keeps hx6
      · exact hx6
    · exact State.setReason_keeps h_1

theorem execCtrlStartTimeout_keeps {z s : State} (h_1 : Keeps z s) :
    KeepsRes z (execCtrlStartTimeout s) := by
  unfold execCtrlStartTimeout
  refine KeepsRes.next ?_
  split
  · split
    · exact h_1
    · exact State.pairFails_keeps (State.updStage_keeps (State.notBefore_keeps h_1))
  · exact h_1

theorem State.markHandshake_keeps {z s : State} {req : Nat} {acc rej : Bool} (h_1 : Keeps z s) :
    Keeps z (s.markHandshake req acc rej) := by
  unfold State.markHandshake
  extract_lets x1
  have hx1 : Keeps z x1 := by
    unfold x1
    exact State.setRegB_keeps h_1
  clear_value x1
  exact State.setF_keeps (State.setF_keeps hx1)

theorem execPerstAssert_keeps {z : State} {pin1 : Bool} {s : State} (h_1 : Keeps z s) :
    KeepsRes z (execPerstAssert pin1 s) := by
  unfold execPerstAssert
  refine KeepsRes.next ?_
  extract_lets x1 x2 x3 x4
  clear_value x1
  clear_value x2
  have hx3 : Keeps z x3 := by
    unfold x3
    exact State.updStage_keeps h_1
  clear_value x3
  clear_value x4
  split
  · exact hx3
  · split
    · exact State.perstScope_keeps hx3
    · split
      · apply State.headDown_keeps
        split
        · exact State.requesterReset_keeps hx3
        · exact hx3
      · exact hx3

theorem State.evalHandshake_keeps {z s : State} {req : Nat} (h_1 : Keeps z s) :
    Keeps z (s.evalHandshake req) := by
  unfold State.evalHandshake
  split
  · exact State.updStage_keeps (State.markHandshake_keeps h_1)
  · extract_lets x1
    have hx1 : Keeps z x1 := by
      unfold x1
      exact State.advise_keeps (State.markHandshake_keeps h_1)
    clear_value x1
    split
    · exact hx1
    · split
      · exact State.pairFails_keeps hx1
      · exact State.setReason_keeps hx1

theorem State.evalAll_keeps {z s : State} (h_1 : Keeps z s) :
    Keeps z s.evalAll := by
  unfold State.evalAll
  refine Keeps.foldl ?_ ?_
  · exact h_1
  · intro v1 v2 h3
    split
    · exact State.evalHandshake_keeps h3
    · exact h3

theorem execConfigRequest_keeps {z : State} {req fn : Nat} {s : State} (h_1 : Keeps z s) :
    KeepsRes z (execConfigRequest req fn s) := by
  unfold execConfigRequest
  refine KeepsRes.next ?_
  split
  · exact State.emit_keeps h_1
  · exact h_1

theorem execF0Flr_keeps {z : State} {req : Nat} {s : State} (h_1 : Keeps z s) :
    KeepsRes z (execF0Flr req s) := by
  unfold execF0Flr
  refine KeepsRes.next ?_
  split
  · exact State.setMbox_keeps h_1
  · exact h_1

theorem execVrNotReady_keeps {z s : State} (h_1 : Keeps z s) :
    KeepsRes z (execVrNotReady s) := by
  unfold execVrNotReady
  refine KeepsRes.next ?_
  split
  · exact h_1
  · exact State.updStage_keeps (State.notBefore_keeps h_1)

theorem State.restageLifts_keeps {z s : State} (h_1 : Keeps z s) :
    Keeps z s.restageLifts := by
  unfold State.restageLifts
  extract_lets x1 x2 x3
  have hx1 : Keeps z x1 := by
    unfold x1
    refine Keeps.foldl ?_ ?_
    · exact h_1
    · intro v4 v5 h6
      exact State.fenceOff_keeps h6
  clear_value x1
  clear_value x2
  have hx3 : Keeps z x3 := by
    unfold x3
    refine Keeps.upd (u := x1) ?_ rfl rfl rfl rfl rfl rfl rfl rfl
    exact hx1
  clear_value x3
  exact State.unlatchCore_keeps hx3

theorem State.restage_keeps {z s : State} (h_1 : Keeps z s) :
    Keeps z s.restage := by
  unfold State.restage
  extract_lets x1 x2
  have hx1 : Keeps z x1 := by
    unfold x1
    exact State.restageLifts_keeps (State.fenceOn_keeps h_1)
  clear_value x1
  have hx2 : Keeps z x2 := by
    unfold x2
    exact State.restartPair_keeps (State.setF_keeps hx1)
  clear_value x2
  exact State.updStage_keeps hx2

theorem execF0D3hot_keeps {z : State} {req : Nat} {s : State} (h_1 : Keeps z s) :
    KeepsRes z (execF0D3hot req s) := by
  unfold execF0D3hot
  refine KeepsRes.next ?_
  split
  · exact State.emit_keeps h_1
  · exact h_1

theorem State.clearShared_keeps {z s : State} (h_1 : Keeps z s) :
    Keeps z s.clearShared := by
  unfold State.clearShared
  exact State.setHs_keeps (State.clearOnChip_keeps h_1)

theorem execTrotEntry_keeps {z s : State} (h_1 : Keeps z s) :
    KeepsRes z (execTrotEntry s) := by
  unfold execTrotEntry
  refine KeepsRes.next ?_
  split
  · exact h_1
  · extract_lets x1
    have hx1 : Keeps z x1 := by
      unfold x1
      exact State.setF_keeps (State.setF_keeps h_1)
    clear_value x1
    exact State.updStage_keeps (State.clearShared_keeps hx1)

theorem State.allFree_keeps {z s : State} (h_1 : Keeps z s) :
    Keeps z s.allFree := by
  unfold State.allFree
  refine Keeps.foldl ?_ ?_
  · exact h_1
  · intro v1 v2 h3
    exact State.freeCores_keeps h3

theorem State.flrClear_keeps {z s : State} (h_1 : Keeps z s) :
    Keeps z s.flrClear := by
  unfold State.flrClear
  extract_lets x1 x2 x3
  have hx1 : Keeps z x1 := by
    unfold x1
    exact State.resetScopes_keeps (State.clearSlots_keeps (State.clearShared_keeps h_1))
  clear_value x1
  have hx2 : Keeps z x2 := by
    unfold x2
    exact State.fenceOff_keeps (State.dropToTrot_keeps hx1)
  clear_value x2
  clear_value x3
  refine Keeps.upd (u := x2) ?_ rfl rfl rfl rfl rfl rfl rfl rfl
  exact hx2

theorem State.mgmtRuns_keeps {z s : State} (h_1 : Keeps z s) :
    Keeps z s.mgmtRuns := by
  unfold State.mgmtRuns
  extract_lets x1 x2 x3 x4
  have hx1 : Keeps z x1 := by
    unfold x1
    exact State.updStage_keeps (State.setF_keeps h_1)
  clear_value x1
  clear_value x2
  have hx3 : Keeps z x3 := by
    unfold x3
    refine Keeps.upd (u := x1) ?_ rfl rfl rfl rfl rfl rfl rfl rfl
    exact hx1
  clear_value x3
  have hx4 : Keeps z x4 := by
    unfold x4
    exact State.fanWanted_keeps hx3
  clear_value x4
  split
  · exact State.cpReset_keeps hx4
  · exact hx4

theorem State.flrRestart_keeps {z s : State} (h_1 : Keeps z s) :
    Keeps z s.flrRestart := by
  unfold State.flrRestart
  split
  · extract_lets x1 x2 x3
    have hx1 : Keeps z x1 := by
      unfold x1
      exact State.restartCtrl_keeps h_1
    clear_value x1
    clear_value x2
    clear_value x3
    refine Keeps.upd (u := x1) ?_ rfl rfl rfl rfl rfl rfl rfl rfl
    exact hx1
  · exact h_1

theorem State.flrQueues_keeps {z s : State} (h_1 : Keeps z s) :
    Keeps z s.flrQueues := by
  unfold State.flrQueues
  refine Keeps.upd (u := s) ?_ rfl rfl rfl rfl rfl rfl rfl rfl
  exact h_1

theorem State.ringsOff_keeps {z s : State} (h_1 : Keeps z s) :
    Keeps z s.ringsOff := by
  unfold State.ringsOff
  refine Keeps.foldl ?_ ?_
  · exact h_1
  · intro v1 v2 h3
    split
    · exact State.ringOff_keeps h3
    · exact h3

theorem State.f1Flr_keeps {z s : State} (h_1 : Keeps z s) :
    Keeps z s.f1Flr := by
  unfold State.f1Flr
  apply State.flrRestart_keeps
  apply State.flrClear_keeps
  exact State.flrQueues_keeps (State.ringsOff_keeps (State.allFree_keeps (State.cpHalt_keeps h_1)))

theorem State.memActive_keeps {z s : State} (h_1 : Keeps z s) :
    Keeps z s.memActive := by
  unfold State.memActive
  refine Keeps.foldl ?_ ?_
  · exact h_1
  · intro v1 v2 h3
    extract_lets x4
    clear_value x4
    split
    · exact State.setF_keeps h3
    · exact h3

theorem execHeadLinkL0_keeps {z : State} {head rate width : Nat} {cxl mld flit256 : Bool} {s : State}
    (h_1 : Keeps z s) :
    KeepsRes z (execHeadLinkL0 head rate width cxl mld flit256 s) := by
  unfold execHeadLinkL0
  refine KeepsRes.next ?_
  extract_lets x1 x2 x3 x4 x5 x6 x7 x8 x9
  clear_value x1
  clear_value x2
  clear_value x3
  clear_value x4
  clear_value x5
  have hx6 : Keeps z x6 := by
    unfold x6
    split
    · exact h_1
    · apply State.setF_keeps
      refine Keeps.upd (u := s) ?_ rfl rfl rfl rfl rfl rfl rfl rfl
      exact h_1
  clear_value x6
  clear_value x7
  have hx8 : Keeps z x8 := by
    unfold x8
    exact State.setF_keeps hx6
  clear_value x8
  have hx9 : Keeps z x9 := by
    unfold x9
    split
    · exact hx8
    · exact State.setF_keeps hx8
  clear_value x9
  split
  · split
    · exact h_1
    · split
      · exact State.memActive_keeps hx9
      · exact hx9
  · split
    · exact h_1
    · split
      · exact State.memActive_keeps hx9
      · exact hx9

theorem State.stageCtlAct_keeps {z : State} {w : Written} {s : State} (h_1 : Keeps z s) :
    Keeps z (State.stageCtlAct w s) := by
  unfold State.stageCtlAct
  split
  · exact State.restage_keeps h_1
  · exact h_1

theorem State.handshakeAct_keeps {z : State} {w : Written} {s : State} (h_1 : Keeps z s) :
    Keeps z (State.handshakeAct w s) := by
  unfold State.handshakeAct
  split
  · exact h_1
  · extract_lets x1
    have hx1 : Keeps z x1 := by
      unfold x1
      exact State.updStage_keeps (State.markHandshake_keeps h_1)
    clear_value x1
    split
    · exact State.evalHandshake_keeps hx1
    · exact hx1

theorem execDrvHandshake_keeps {z : State} {req size : Nat} {high : Bool} {val : Word} {s : State} (h_1 : Keeps z s) :
    KeepsRes z (execDrvHandshake req size high val s) := by
  unfold execDrvHandshake
  refine KeepsRes.next ?_
  split
  · apply State.busWrite_keeps
    · exact h_1
    · intro v1 v2 h3
      exact State.handshakeAct_keeps h3
  · exact h_1

theorem State.ctrlRuns_keeps {z s : State} (h_1 : Keeps z s) :
    Keeps z s.ctrlRuns := by
  unfold State.ctrlRuns
  extract_lets x1 x2 x3 x4 x5 x6 x7
  have hx1 : Keeps z x1 := by
    unfold x1
    exact State.setF_keeps h_1
  clear_value x1
  have hx2 : Keeps z x2 := by
    unfold x2
    exact State.cpResetCompletions_keeps hx1
  clear_value x2
  clear_value x3
  have hx4 : Keeps z x4 := by
    unfold x4
    split
    · refine Keeps.upd (u := x2) ?_ rfl rfl rfl rfl rfl rfl rfl rfl
      exact hx2
    · exact hx1
  clear_value x4
  clear_value x5
  clear_value x6
  have hx7 : Keeps z x7 := by
    unfold x7
    refine Keeps.upd (u := x4) ?_ rfl rfl rfl rfl rfl rfl rfl rfl
    exact hx4
  clear_value x7
  exact State.fenceOff_keeps hx7

theorem execWalkEntry_keeps {z : State} {restored : Bool} {failed : Option Nat} {s : State} (h_1 : Keeps z s) :
    KeepsRes z (execWalkEntry restored failed s) := by
  unfold execWalkEntry
  refine KeepsRes.next ?_
  split
  · exact h_1
  · split
    · exact State.updStage_keeps h_1
    · extract_lets x1
      have hx1 : Keeps z x1 := by
        unfold x1
        split
        · exact h_1
        · exact State.updStage_keeps (State.setF_keeps h_1)
      clear_value x1
      exact State.memActive_keeps (State.setF_keeps (State.setF_keeps hx1))

theorem execImageReportsRunning_keeps {z : State} {img : ImageKind} {s : State} (h_1 : Keeps z s) :
    KeepsRes z (execImageReportsRunning img s) := by
  unfold execImageReportsRunning
  refine KeepsRes.next ?_
  split
  · exact h_1
  · split
    · split
      · exact State.mgmtRuns_keeps h_1
      · exact h_1
    · split
      · exact State.ctrlRuns_keeps h_1
      · exact h_1

theorem execSupplyDrop_keeps {z s : State} (h_1 : Keeps z s) :
    KeepsRes z (execSupplyDrop s) := by
  unfold execSupplyDrop
  refine KeepsRes.next ?_
  split
  · exact h_1
  · exact State.powerLoss_keeps h_1

theorem State.verifyCtrl_keeps {z s : State} (h_1 : Keeps z s) :
    Keeps z s.verifyCtrl := by
  unfold State.verifyCtrl
  extract_lets x1 x2
  clear_value x1
  have hx2 : Keeps z x2 := by
    unfold x2
    exact State.setReg_keeps h_1
  clear_value x2
  split
  · exact State.pairFails_keeps hx2
  · split
    · exact State.pairFails_keeps hx2
    · split
      · exact State.pairFails_keeps hx2
      · exact State.evalAll_keeps (State.updStage_keeps hx2)

theorem execBistComplete_keeps {z : State} {failMask : Word32} {s : State} (h_1 : Keeps z s) :
    KeepsRes z (execBistComplete failMask s) := by
  unfold execBistComplete
  refine KeepsRes.next ?_
  split
  · exact h_1
  · extract_lets x1
    clear_value x1
    exact State.updStage_keeps (State.setF_keeps (State.setReg_keeps h_1))

theorem State.verifyMgmt_keeps {z s : State} (h_1 : Keeps z s) :
    Keeps z s.verifyMgmt := by
  unfold State.verifyMgmt
  extract_lets x1 x2
  clear_value x1
  have hx2 : Keeps z x2 := by
    unfold x2
    exact State.setReg_keeps h_1
  clear_value x2
  split
  · exact State.pairFails_keeps hx2
  · split
    · exact State.pairFails_keeps hx2
    · exact State.updStage_keeps hx2

theorem execImageVerify_keeps {z : State} {img : ImageKind} {s : State} (h_1 : Keeps z s) :
    KeepsRes z (execImageVerify img s) := by
  unfold execImageVerify
  refine KeepsRes.next ?_
  split
  · exact h_1
  · split
    · split
      · exact h_1
      · exact State.verifyMgmt_keeps h_1
    · split
      · exact h_1
      · exact State.verifyCtrl_keeps h_1

theorem execF1D3hot_keeps {z s : State} (h_1 : Keeps z s) :
    KeepsRes z (execF1D3hot s) := by
  unfold execF1D3hot
  refine KeepsRes.next ?_
  split
  · exact h_1
  · apply State.fenceOn_keeps
    refine Keeps.upd (u := s) ?_ rfl rfl rfl rfl rfl rfl rfl rfl
    exact h_1

theorem execPerstDeassert_keeps {z : State} {pin1 : Bool} {s : State} (h_1 : Keeps z s) :
    KeepsRes z (execPerstDeassert pin1 s) := by
  unfold execPerstDeassert
  refine KeepsRes.next ?_
  extract_lets x1 x2
  clear_value x1
  have hx2 : Keeps z x2 := by
    unfold x2
    exact State.updStage_keeps h_1
  clear_value x2
  split
  · exact hx2
  · split
    · split
      · exact State.beginStart_keeps (State.updPw_keeps hx2)
      · exact hx2
    · exact State.beginStart_keeps hx2

theorem execRequesterReset_keeps {z : State} {req : Nat} {s : State} (h_1 : Keeps z s) :
    KeepsRes z (execRequesterReset req s) := by
  unfold execRequesterReset
  refine KeepsRes.next ?_
  split
  · exact h_1
  · extract_lets x1
    have hx1 : Keeps z x1 := by
      unfold x1
      exact State.requesterReset_keeps h_1
    clear_value x1
    split
    · exact hx1
    · exact State.headDown_keeps hx1

theorem execMgmtStartTimeout_keeps {z s : State} (h_1 : Keeps z s) :
    KeepsRes z (execMgmtStartTimeout s) := by
  unfold execMgmtStartTimeout
  refine KeepsRes.next ?_
  split
  · split
    · exact h_1
    · exact State.pairFails_keeps (State.updStage_keeps (State.notBefore_keeps h_1))
  · exact h_1

theorem execCanterEntry_keeps {z s : State} (h_1 : Keeps z s) :
    KeepsRes z (execCanterEntry s) := by
  unfold execCanterEntry
  refine KeepsRes.next ?_
  extract_lets x1 x2 x3
  clear_value x1
  have hx2 : Keeps z x2 := by
    unfold x2
    refine Keeps.upd (u := s) ?_ rfl rfl rfl rfl rfl rfl rfl rfl
    exact h_1
  clear_value x2
  have hx3 : Keeps z x3 := by
    unfold x3
    exact State.setF_keeps (State.setF_keeps h_1)
  clear_value x3
  split
  · exact h_1
  · exact State.updStage_keeps hx3

theorem execF1D0Return_keeps {z s : State} (h_1 : Keeps z s) :
    KeepsRes z (execF1D0Return s) := by
  unfold execF1D0Return
  refine KeepsRes.next ?_
  split
  · exact h_1
  · apply State.fenceOff_keeps
    apply State.f1Flr_keeps
    refine Keeps.upd (u := s) ?_ rfl rfl rfl rfl rfl rfl rfl rfl
    exact h_1

theorem execThermalTrip_keeps {z : State} {sensor : Nat} {s : State} (h_1 : Keeps z s) :
    KeepsRes z (execThermalTrip sensor s) := by
  unfold execThermalTrip
  refine KeepsRes.next ?_
  split
  · exact h_1
  · extract_lets x1 x2 x3 x4 x5
    have hx1 : Keeps z x1 := by
      unfold x1
      exact State.perstScope_keeps h_1
    clear_value x1
    clear_value x2
    clear_value x3
    have hx4 : Keeps z x4 := by
      unfold x4
      refine Keeps.upd (u := x1) ?_ rfl rfl rfl rfl rfl rfl rfl rfl
      exact hx1
    clear_value x4
    have hx5 : Keeps z x5 := by
      unfold x5
      exact State.advise_keeps (State.setF_keeps hx4)
    clear_value x5
    exact State.fanFull_keeps (State.updPw_keeps hx5)

theorem execLdBind_keeps {z : State} {ld : Nat} {s : State} (h_1 : Keeps z s) :
    KeepsRes z (execLdBind ld s) := by
  unfold execLdBind
  refine KeepsRes.next ?_
  split
  · exact h_1
  · extract_lets x1 x2
    clear_value x1
    have hx2 : Keeps z x2 := by
      unfold x2
      apply State.setF_keeps
      refine Keeps.upd (u := s) ?_ rfl rfl rfl rfl rfl rfl rfl rfl
      exact h_1
    refine Keeps.ite ?_ ?_
    · exact State.memActive_keeps hx2
    · exact hx2

theorem execRestage_keeps {z : State} {req : Nat} {val : Word} {s : State} (h_1 : Keeps z s) :
    KeepsRes z (execRestage req val s) := by
  unfold execRestage
  refine KeepsRes.next ?_
  apply State.regWrite_keeps
  · exact h_1
  · intro v1 v2 h3
    exact State.stageCtlAct_keeps h3

theorem execOstlerSelfReset_keeps {z s : State} (h_1 : Keeps z s) :
    KeepsRes z (execOstlerSelfReset s) := by
  unfold execOstlerSelfReset
  refine KeepsRes.next ?_
  split
  · exact h_1
  · extract_lets x1 x2 x3 x4 x5 x6
    have hx1 : Keeps z x1 := by
      unfold x1
      exact State.notBefore_keeps h_1
    clear_value x1
    have hx2 : Keeps z x2 := by
      unfold x2
      exact State.mgmtStop_keeps (State.updPw_keeps hx1)
    clear_value x2
    have hx3 : Keeps z x3 := by
      unfold x3
      exact State.addF_keeps (State.advise_keeps hx2)
    clear_value x3
    clear_value x4
    clear_value x5
    have hx6 : Keeps z x6 := by
      unfold x6
      refine Keeps.upd (u := x3) ?_ rfl rfl rfl rfl rfl rfl rfl rfl
      exact hx3
    clear_value x6
    split
    · exact State.fenceOn_keeps hx6
    · exact hx6

theorem execF1Flr_keeps {z s : State} (h_1 : Keeps z s) :
    KeepsRes z (execF1Flr s) := by
  unfold execF1Flr
  refine KeepsRes.next ?_
  split
  · exact h_1
  · exact State.f1Flr_keeps h_1

theorem execVddSocPowerGoodLoss_keeps {z s : State} (h_1 : Keeps z s) :
    KeepsRes z (execVddSocPowerGoodLoss s) := by
  unfold execVddSocPowerGoodLoss
  refine KeepsRes.next ?_
  split
  · exact h_1
  · exact State.powerLoss_keeps h_1

theorem execColdPowerOn_keeps {z s : State} (h_1 : Keeps z s) :
    KeepsRes z (execColdPowerOn s) := by
  unfold execColdPowerOn
  refine KeepsRes.next ?_
  split
  · exact h_1
  · extract_lets x1
    have hx1 : Keeps z x1 := by
      unfold x1
      exact State.powerOff_keeps h_1
    clear_value x1
    refine Keeps.upd (u := x1) ?_ rfl rfl rfl rfl rfl rfl rfl rfl
    exact hx1

end Sys2Proof.Machine
end

