-- ==== Sys2Proof/Laws/KeepsTack.lean ====
section
/-! SUPPORT. What each operation of Machine/Tack.lean keeps (Laws/Keeps.lean): one lemma per operation that answers a
state. -/

namespace Sys2Proof.Machine

open Sys2Proof

theorem State.startCheck_keeps {z s : State} {block : Nat} (h_1 : Keeps z s) :
    Keeps z (s.startCheck block) := by
  unfold State.startCheck
  split
  · extract_lets x1
    clear_value x1
    exact State.setChecks_keeps h_1
  · exact h_1

theorem State.askCheck_keeps {z s : State} {block inst bank : Nat} (h_1 : Keeps z s) :
    Keeps z (s.askCheck block inst bank) := by
  unfold State.askCheck
  split
  · exact State.tackResult_keeps h_1
  · extract_lets x1 x2
    clear_value x1
    have hx2 : Keeps z x2 := by
      unfold x2
      exact State.setChecks_keeps (State.tackRunning_keeps h_1)
    clear_value x2
    split
    · exact State.startCheck_keeps hx2
    · exact hx2

end Sys2Proof.Machine
end

