-- ==== Sys2Proof/Laws/KeepsCommit.lean ====
section
/-! SUPPORT. What each operation of Machine/Commit.lean keeps (Laws/Keeps.lean): one lemma per operation that answers a
state. -/

namespace Sys2Proof.Machine

open Sys2Proof

theorem State.stallReset_keeps {z s : State} {st : Nat} (h_1 : Keeps z s) :
    Keeps z (s.stallReset st) := by
  unfold State.stallReset
  exact State.setF_keeps (State.resetStall_keeps h_1)

theorem State.commitAct_keeps {z : State} {w : Written} {s : State} (h_1 : Keeps z s) :
    Keeps z (State.commitAct w s) := by
  unfold State.commitAct
  extract_lets x1
  clear_value x1
  split
  · split
    · exact State.refuseAccess_keeps h_1
    · split
      · exact State.askCheck_keeps h_1
      · exact h_1
  · split
    · exact State.reloadStaged_keeps h_1
    · exact h_1

theorem State.dropSession_keeps {z s : State} (h_1 : Keeps z s) :
    Keeps z s.dropSession := by
  unfold State.dropSession
  split
  · exact State.setF_keeps h_1
  · exact h_1

theorem State.clearLost_keeps {z s : State} {t n : Copy} {st : Nat} (h_1 : Keeps z s) :
    Keeps z (s.clearLost t n st) := by
  unfold State.clearLost
  extract_lets x1 x2 x3 x4 x5 x6 x7 x8 x9
  have hx1 : Keeps z x1 := by
    unfold x1
    refine Keeps.foldl ?_ ?_
    · exact h_1
    · intro v10 v11 h12
      exact State.clearCore_keeps h12
  clear_value x1
  have hx2 : Keeps z x2 := by
    unfold x2
    refine Keeps.foldl ?_ ?_
    · exact hx1
    · intro v13 v14 h15
      exact State.clearOnChip_keeps h15
  clear_value x2
  have hx3 : Keeps z x3 := by
    unfold x3
    refine Keeps.foldl ?_ ?_
    · exact hx2
    · intro v16 v17 h18
      exact State.clearHitch_keeps h18
  clear_value x3
  have hx4 : Keeps z x4 := by
    unfold x4
    refine Keeps.foldl ?_ ?_
    · exact hx3
    · intro v19 v20 h21
      exact State.clearBarrier_keeps h21
  clear_value x4
  have hx5 : Keeps z x5 := by
    unfold x5
    refine Keeps.foldl ?_ ?_
    · exact hx4
    · intro v22 v23 h24
      exact State.clearRing_keeps h24
  clear_value x5
  have hx6 : Keeps z x6 := by
    unfold x6
    refine Keeps.foldl ?_ ?_
    · exact hx5
    · intro v25 v26 h27
      exact State.clearSq_keeps h27
  clear_value x6
  have hx7 : Keeps z x7 := by
    unfold x7
    refine Keeps.foldl ?_ ?_
    · exact hx6
    · intro v28 v29 h30
      exact State.clearCq_keeps h30
  clear_value x7
  have hx8 : Keeps z x8 := by
    unfold x8
    refine Keeps.foldl ?_ ?_
    · exact hx7
    · intro v31 v32 h33
      exact State.clearSlots_keeps h33
  clear_value x8
  have hx9 : Keeps z x9 := by
    unfold x9
    exact State.cutSaved_keeps hx8
  clear_value x9
  split
  · refine Keeps.foldl ?_ ?_
    · exact hx9
    · intro v34 v35 h36
      exact State.unloadHrn_keeps h36
  · exact hx9

theorem State.fillGained_keeps {z s : State} {t n : Copy} {rekey : List Nat} {st : Nat} (h_1 : Keeps z s) :
    Keeps z (s.fillGained t n rekey st) := by
  unfold State.fillGained
  refine Keeps.foldl ?_ ?_
  · exact h_1
  · intro v1 v2 h3
    exact State.zeroBlocks_keeps h3

theorem State.applyCopy_keeps {z s : State} {next : List (Nat × Word)}
    (h : Keeps z s) : Keeps z (s.applyCopy next) := by
  unfold State.applyCopy
  extract_lets x1 x2 x3 x4
  have hx4 : Keeps z x4 :=
    Keeps.updRegs h rfl rfl rfl rfl rfl rfl rfl fun hr =>
      Tbl.risingFrom_foldl_put 0 (fun (e : Nat × Word) => 0x102000 + e.1) (fun e => x1 e.1 e.2) _
        (Tbl.risingFrom_keep _ hr)
  clear_value x4
  exact Keeps.foldl hx4 fun v x hv => State.setF_keeps hv


theorem State.dropTrace_keeps {z s : State} {st : Nat} (h_1 : Keeps z s) :
    Keeps z (s.dropTrace st) := by
  unfold State.dropTrace
  split
  · exact State.setF_keeps (State.setF_keeps h_1)
  · exact h_1

theorem State.commitEnd_keeps {z s : State} (h_1 : Keeps z s) :
    Keeps z s.commitEnd := by
  unfold State.commitEnd
  split
  · exact h_1
  · extract_lets x1 x2 x3 x4 x5 x6 x7 x8 x9 x10 x11
    clear_value x1
    clear_value x2
    clear_value x3
    have hx4 : Keeps z x4 := by
      unfold x4
      refine Keeps.foldl ?_ ?_
      · exact h_1
      · intro v12 v13 h14
        exact State.clearLost_keeps h14
    clear_value x4
    have hx5 : Keeps z x5 := by
      unfold x5
      refine Keeps.foldl ?_ ?_
      · exact hx4
      · intro v15 v16 h17
        exact State.newKey_keeps h17
    clear_value x5
    have hx6 : Keeps z x6 := by
      unfold x6
      refine Keeps.foldl ?_ ?_
      · exact hx5
      · intro v18 v19 h20
        exact State.fillGained_keeps h20
    clear_value x6
    clear_value x7
    clear_value x8
    have hx9 : Keeps z x9 := by
      unfold x9
      apply State.applyCopy_keeps
      refine Keeps.upd (u := x6) ?_ rfl rfl rfl rfl rfl rfl rfl rfl
      exact hx6
    clear_value x9
    have hx10 : Keeps z x10 := by
      unfold x10
      exact State.setF_keeps (State.setF_keeps hx9)
    clear_value x10
    have hx11 : Keeps z x11 := by
      unfold x11
      apply State.sweepExtents_keeps
      apply State.dropSession_keeps
      refine Keeps.foldl ?_ ?_
      · exact hx10
      · intro v21 v22 h23
        exact State.dropTrace_keeps h23
    clear_value x11
    refine Keeps.foldl ?_ ?_
    · exact hx11
    · intro v24 v25 h26
      exact State.stallReset_keeps h26

theorem State.dropSilent_keeps {z s : State} {sq : Nat} {c : Cmd} (h_1 : Keeps z s) :
    Keeps z (s.dropSilent sq c) := by
  unfold State.dropSilent
  extract_lets x1 x2 x3
  have hx1 : Keeps z x1 := by
    unfold x1
    split
    · exact State.readySlot_keeps h_1
    · exact h_1
  clear_value x1
  clear_value x2
  have hx3 : Keeps z x3 := by
    unfold x3
    split
    · refine Keeps.upd (u := x1) ?_ rfl rfl rfl rfl rfl rfl rfl rfl
      exact hx1
    · exact hx1
  clear_value x3
  exact State.updSq_keeps hx3

theorem State.loseSq_keeps {z s : State} {n : Copy} {st sq : Nat} (h_1 : Keeps z s) :
    Keeps z (s.loseSq n st sq) := by
  unfold State.loseSq
  extract_lets x1 x2
  have hx1 : Keeps z x1 := by
    unfold x1
    exact State.updSq_keeps (State.setF_keeps h_1)
  clear_value x1
  have hx2 : Keeps z x2 := by
    unfold x2
    exact State.dropWaiting_keeps hx1
  clear_value x2
  split
  · refine Keeps.foldl ?_ ?_
    · exact hx2
    · intro v3 v4 h5
      exact State.completeCmd_keeps h5
  · refine Keeps.foldl ?_ ?_
    · exact hx1
    · intro v6 v7 h8
      exact State.dropSilent_keeps h8

theorem State.commitBegin_keeps {z s : State} {next : List (Nat × Word)} (h_1 : Keeps z s) :
    Keeps z (s.commitBegin next) := by
  unfold State.commitBegin
  extract_lets x1 x2 x3 x4 x5 x6 x7 x8
  clear_value x1
  clear_value x2
  clear_value x3
  clear_value x4
  clear_value x5
  have hx6 : Keeps z x6 := by
    unfold x6
    apply State.setF_keeps
    refine Keeps.upd (u := s) ?_ rfl rfl rfl rfl rfl rfl rfl rfl
    exact h_1
  clear_value x6
  clear_value x7
  have hx8 : Keeps z x8 := by
    unfold x8
    exact State.abortTasks_keeps hx6
  clear_value x8
  refine Keeps.foldl ?_ ?_
  · exact hx8
  · intro v9 v10 h11
    extract_lets x12
    have hx12 : Keeps z x12 := by
      unfold x12
      refine Keeps.foldl ?_ ?_
      · exact h11
      · intro v13 v14 h15
        exact State.hitchPoke_keeps h15
    clear_value x12
    refine Keeps.foldl ?_ ?_
    · exact hx12
    · intro v16 v17 h18
      exact State.loseSq_keeps h18

theorem execStallDiscard_keeps {z : State} {req : Nat} {s : State} (h_1 : Keeps z s) :
    KeepsRes z (execStallDiscard req s) := by
  unfold execStallDiscard
  refine KeepsRes.next ?_
  apply State.regWrite_keeps
  · exact h_1
  · intro v1 v2 h3
    exact State.commitAct_keeps h3

theorem State.stallResetAct_keeps {z : State} {w : Written} {s : State} (h_1 : Keeps z s) :
    Keeps z (State.stallResetAct w s) := by
  unfold State.stallResetAct
  refine Keeps.foldl ?_ ?_
  · exact h_1
  · intro v1 v2 h3
    split
    · exact State.setF_keeps h3
    · exact State.stallReset_keeps h3

theorem State.capAct_keeps {z : State} {w : Written} {s : State} (h_1 : Keeps z s) :
    Keeps z (State.capAct w s) := by
  unfold State.capAct
  split
  · exact h_1
  · split
    · exact State.setF_keeps h_1
    · extract_lets x1 x2
      clear_value x1
      clear_value x2
      apply State.setF_keeps
      refine Keeps.upd (u := s) ?_ rfl rfl rfl rfl rfl rfl rfl rfl
      exact h_1

theorem execCapAssign_keeps {z : State} {req : Nat} {val : Word} {s : State} (h_1 : Keeps z s) :
    KeepsRes z (execCapAssign req val s) := by
  unfold execCapAssign
  refine KeepsRes.next ?_
  apply State.regWrite_keeps
  · exact h_1
  · intro v1 v2 h3
    exact State.capAct_keeps h3

theorem execCommitComplete_keeps {z s : State} (h_1 : Keeps z s) :
    KeepsRes z (execCommitComplete s) := by
  unfold execCommitComplete
  refine KeepsRes.next ?_
  exact State.commitEnd_keeps h_1

theorem State.editAct_keeps {z : State} {w : Written} {s : State} (h_1 : Keeps z s) :
    Keeps z (State.editAct w s) := by
  unfold State.editAct
  split
  · split
    · exact State.setF_keeps h_1
    · exact h_1
  · split
    · exact State.setF_keeps (State.reloadStaged_keeps h_1)
    · exact h_1

theorem execEditTake_keeps {z : State} {req : Nat} {s : State} (h_1 : Keeps z s) :
    KeepsRes z (execEditTake req s) := by
  unfold execEditTake
  refine KeepsRes.next ?_
  apply State.regWrite_keeps
  · exact h_1
  · intro v1 v2 h3
    exact State.editAct_keeps h3

theorem execStallCommit_keeps {z : State} {req : Nat} {s : State} (h_1 : Keeps z s) :
    KeepsRes z (execStallCommit req s) := by
  unfold execStallCommit
  refine KeepsRes.next ?_
  apply State.regWrite_keeps
  · exact h_1
  · intro v1 v2 h3
    exact State.commitAct_keeps h3

theorem execEditDrop_keeps {z : State} {req : Nat} {s : State} (h_1 : Keeps z s) :
    KeepsRes z (execEditDrop req s) := by
  unfold execEditDrop
  refine KeepsRes.next ?_
  apply State.regWrite_keeps
  · exact h_1
  · intro v1 v2 h3
    exact State.editAct_keeps h3

theorem execStallReset_keeps {z : State} {req : Nat} {val : Word} {s : State} (h_1 : Keeps z s) :
    KeepsRes z (execStallReset req val s) := by
  unfold execStallReset
  refine KeepsRes.next ?_
  apply State.regWrite_keeps
  · exact h_1
  · intro v1 v2 h3
    exact State.stallResetAct_keeps h3

end Sys2Proof.Machine
end

