-- ==== Sys2Proof/Laws/KeepsDebug.lean ====
section
/-! SUPPORT. What each operation of Machine/Debug.lean keeps (Laws/Keeps.lean): one lemma per operation that answers a
state. -/

namespace Sys2Proof.Machine

open Sys2Proof

theorem State.haltCores_keeps {z s : State} (h_1 : Keeps z s) :
    Keeps z s.haltCores := by
  unfold State.haltCores
  extract_lets x1 x2
  have hx1 : Keeps z x1 := by
    unfold x1
    exact State.setReg_keeps h_1
  clear_value x1
  clear_value x2
  refine Keeps.upd (u := x1) ?_ rfl rfl rfl rfl rfl rfl rfl rfl
  exact hx1

theorem State.haltAct_keeps {z : State} {w : Written} {s : State} (h_1 : Keeps z s) :
    Keeps z (State.haltAct w s) := by
  unfold State.haltAct
  split
  · exact State.haltCores_keeps h_1
  · exact State.refuseAccess_keeps (State.setReg_keeps h_1)

theorem execDbgHalt_keeps {z : State} {req : Option Nat} {mask : Word} {s : State} (h_1 : Keeps z s) :
    KeepsRes z (execDbgHalt req mask s) := by
  unfold execDbgHalt
  refine KeepsRes.next ?_
  split
  · apply State.regWrite_keeps
    · exact h_1
    · intro v1 v2 h3
      exact State.haltAct_keeps h3
  · split
    · exact State.haltCores_keeps (State.setReg_keeps h_1)
    · exact h_1

theorem State.dbgEnd_keeps {z s : State} {result : Nat} {poison tag : Bool} (h_1 : Keeps z s) :
    Keeps z (s.dbgEnd result poison tag) := by
  unfold State.dbgEnd
  apply State.setF_keeps
  refine Keeps.upd (u := s) ?_ rfl rfl rfl rfl rfl rfl rfl rfl
  exact h_1

theorem State.dbgRead_keeps {z s : State} {v : Word × Bool} (h_1 : Keeps z s) :
    Keeps z (s.dbgRead v) := by
  unfold State.dbgRead
  exact State.dbgEnd_keeps (State.setReg_keeps h_1)

theorem State.dbgRefuse_keeps {z s : State} {d : DbgAcc} (h_1 : Keeps z s) :
    Keeps z (s.dbgRefuse d) := by
  unfold State.dbgRefuse
  split
  · exact State.dbgEnd_keeps (State.setReg_keeps h_1)
  · exact State.dbgEnd_keeps h_1

theorem State.dbgWrite_keeps {z s : State} {d : DbgAcc} {key : Nat} (h_1 : Keeps z s) :
    Keeps z (s.dbgWrite d key) := by
  unfold State.dbgWrite
  exact State.dbgEnd_keeps (State.addF_keeps (State.narrowWrite_keeps h_1))

theorem State.dbgAt_keeps {z s : State} {d : DbgAcc} {key : Nat} (h_1 : Keeps z s) :
    Keeps z (s.dbgAt d key) := by
  unfold State.dbgAt
  split
  · exact State.dbgRead_keeps h_1
  · split
    · exact State.dbgWrite_keeps h_1
    · exact State.dbgEnd_keeps h_1

theorem State.dbgCm_keeps {z s : State} {d : DbgAcc} {c a : Nat} (h_1 : Keeps z s) :
    Keeps z (s.dbgCm d c a) := by
  unfold State.dbgCm
  extract_lets x1 x2
  clear_value x1
  have hx2 : Keeps z x2 := by
    unfold x2
    split
    · exact State.perf_keeps h_1
    · exact h_1
  clear_value x2
  split
  · split
    · exact State.dbgAt_keeps h_1
    · exact State.dbgRefuse_keeps h_1
  · split
    · exact State.dbgEnd_keeps h_1
    · split
      · split
        · exact State.dbgRead_keeps hx2
        · exact State.dbgEnd_keeps hx2
      · exact State.dbgAt_keeps hx2

theorem State.dbgWait_keeps {z s : State} {d : DbgAcc} (h_1 : Keeps z s) :
    Keeps z (s.dbgWait d) := by
  unfold State.dbgWait
  apply State.setF_keeps
  refine Keeps.upd (u := s) ?_ rfl rfl rfl rfl rfl rfl rfl rfl
  exact h_1

theorem State.dbgGo_keeps {z s : State} {d : DbgAcc} (h_1 : Keeps z s) :
    Keeps z (s.dbgGo d) := by
  unfold State.dbgGo
  split
  · exact State.dbgEnd_keeps h_1
  · extract_lets x1 x2
    clear_value x1
    clear_value x2
    split
    · split
      · exact State.dbgRefuse_keeps h_1
      · split
        · exact State.dbgCm_keeps h_1
        · exact State.dbgCm_keeps h_1
        · exact State.dbgCm_keeps h_1
        · split
          · exact State.dbgRefuse_keeps h_1
          · split
            · exact State.dbgAt_keeps h_1
            · exact State.dbgWait_keeps h_1
        · exact State.dbgRefuse_keeps h_1
    · split
      · exact State.dbgAt_keeps (State.pdCount_keeps (State.pdSettle_keeps h_1))
      · exact State.dbgRefuse_keeps h_1
    · split
      · split
        · exact State.dbgRefuse_keeps h_1
        · extract_lets x3
          have hx3 : Keeps z x3 := by
            unfold x3
            exact State.hitchBankDrain_keeps h_1
          clear_value x3
          exact State.dbgRead_keeps hx3
      · exact State.dbgRefuse_keeps h_1
    · split
      · exact State.dbgRefuse_keeps h_1
      · split
        · split
          · apply State.dbgAt_keeps
            refine Keeps.of_snd (by with_reducible assumption) ?_
            exact State.devReady_keeps h_1
          · apply State.dbgWait_keeps
            refine Keeps.of_snd (by with_reducible assumption) ?_
            exact State.devReady_keeps h_1
        · exact State.dbgRefuse_keeps h_1
    · exact State.dbgRefuse_keeps h_1

theorem State.dbgCmdAct_keeps {z : State} {w : Written} {s : State} (h_1 : Keeps z s) :
    Keeps z (State.dbgCmdAct w s) := by
  unfold State.dbgCmdAct
  split
  · exact h_1
  · split
    · exact State.dbgEnd_keeps h_1
    · split
      · exact State.dbgEnd_keeps h_1
      · exact State.dbgGo_keeps h_1

theorem State.traceAct_keeps {z : State} {w : Written} {s : State} (h_1 : Keeps z s) :
    Keeps z (State.traceAct w s) := by
  unfold State.traceAct
  split
  · exact h_1
  · split
    · exact State.setReg_keeps h_1
    · exact State.setF_keeps (State.setF_keeps h_1)

theorem State.stepCores_keeps {z s : State} {mask : Word} (h_1 : Keeps z s) :
    Keeps z (s.stepCores mask) := by
  unfold State.stepCores
  extract_lets x1 x2
  clear_value x1
  clear_value x2
  refine Keeps.upd (u := s) ?_ rfl rfl rfl rfl rfl rfl rfl rfl
  exact h_1

theorem State.stepAct_keeps {z : State} {w : Written} {s : State} (h_1 : Keeps z s) :
    Keeps z (State.stepAct w s) := by
  unfold State.stepAct
  split
  · exact State.stepCores_keeps h_1
  · exact State.refuseAccess_keeps h_1

theorem execDbgStep_keeps {z : State} {req : Option Nat} {mask : Word} {s : State} (h_1 : Keeps z s) :
    KeepsRes z (execDbgStep req mask s) := by
  unfold execDbgStep
  refine KeepsRes.next ?_
  split
  · apply State.regWrite_keeps
    · exact h_1
    · intro v1 v2 h3
      exact State.stepAct_keeps h3
  · split
    · exact State.stepCores_keeps h_1
    · exact h_1

theorem State.dbgRow_keeps {z s : State} {req op : Nat} {a3 : Option Nat} (h_1 : Keeps z s) :
    Keeps z (s.dbgRow req op a3) := by
  unfold State.dbgRow
  split
  · apply State.regWrite_keeps
    · exact h_1
    · intro v1 v2 h3
      exact State.dbgCmdAct_keeps h3
  · split
    · split
      · exact State.dbgGo_keeps h_1
      · exact h_1
    · exact h_1

theorem execDbgAccessTimeout_keeps {z s : State} (h_1 : Keeps z s) :
    KeepsRes z (execDbgAccessTimeout s) := by
  unfold execDbgAccessTimeout
  refine KeepsRes.next ?_
  split
  · exact State.dbgEnd_keeps (State.notBefore_keeps h_1)
  · exact h_1

theorem State.sessionAct_keeps {z : State} {w : Written} {s : State} (h_1 : Keeps z s) :
    Keeps z (State.sessionAct w s) := by
  unfold State.sessionAct
  split
  · exact State.setF_keeps h_1
  · exact h_1

theorem execDbgTagRead_keeps {z : State} {req : Nat} {sz : Option Nat} {s : State} (h_1 : Keeps z s) :
    KeepsRes z (execDbgTagRead req sz s) := by
  unfold execDbgTagRead
  refine KeepsRes.next ?_
  exact State.dbgRow_keeps h_1

theorem execDbgSessionOpen_keeps {z : State} {req : Nat} {val : Word} {s : State} (h_1 : Keeps z s) :
    KeepsRes z (execDbgSessionOpen req val s) := by
  unfold execDbgSessionOpen
  refine KeepsRes.next ?_
  apply State.regWrite_keeps
  · exact h_1
  · intro v1 v2 h3
    exact State.sessionAct_keeps h3

theorem execDbgWrite_keeps {z : State} {req : Nat} {sz : Option Nat} {s : State} (h_1 : Keeps z s) :
    KeepsRes z (execDbgWrite req sz s) := by
  unfold execDbgWrite
  refine KeepsRes.next ?_
  exact State.dbgRow_keeps h_1

theorem execDbgRead_keeps {z : State} {req : Nat} {sz : Option Nat} {s : State} (h_1 : Keeps z s) :
    KeepsRes z (execDbgRead req sz s) := by
  unfold execDbgRead
  refine KeepsRes.next ?_
  exact State.dbgRow_keeps h_1

theorem execTraceStart_keeps {z : State} {req st : Nat} {val : Word} {s : State} (h_1 : Keeps z s) :
    KeepsRes z (execTraceStart req st val s) := by
  unfold execTraceStart
  refine KeepsRes.next ?_
  apply State.regWrite_keeps
  · exact h_1
  · intro v1 v2 h3
    exact State.traceAct_keeps h3

end Sys2Proof.Machine
end

