-- ==== Sys2Proof/Laws/KeepsEcc.lean ====
section
/-! SUPPORT. What each operation of Machine/Ecc.lean keeps (Laws/Keeps.lean): one lemma per operation that answers a
state. -/

namespace Sys2Proof.Machine

open Sys2Proof

theorem State.wakePoisoned_keeps {z s : State} {i : Nat} (h_1 : Keeps z s) :
    Keeps z (s.wakePoisoned i) := by
  unfold State.wakePoisoned
  refine Keeps.foldl ?_ ?_
  · exact h_1
  · intro v1 v2 h3
    extract_lets x4 x5
    clear_value x4
    have hx5 : Keeps z x5 := by
      unfold x5
      refine Keeps.foldl ?_ ?_
      · exact h3
      · intro v6 v7 h8
        exact State.waiterFault_keeps h8
    clear_value x5
    refine Keeps.foldl ?_ ?_
    · exact hx5
    · intro v9 v10 h11
      exact State.waiterFault_keeps h11

theorem State.poisonHitch_keeps {z s : State} {c : Codeword} {finder : Nat} {latent : Bool} (h_1 : Keeps z s) :
    Keeps z (s.poisonHitch c finder latent) := by
  unfold State.poisonHitch
  split
  · exact h_1
  · extract_lets x1 x2 x3
    have hx1 : Keeps z x1.2 := by
      unfold x1
      exact State.draw_keeps h_1
    clear_value x1
    clear_value x2
    have hx3 : Keeps z x3 := by
      unfold x3
      exact State.setHs_keeps hx1
    clear_value x3
    exact State.wakePoisoned_keeps (State.recordUe_keeps hx3)

theorem State.foundBad_keeps {z s : State} {c : Codeword} {finder : Nat} {latent : Bool} (h_1 : Keeps z s) :
    Keeps z (s.foundBad c finder latent) := by
  unfold State.foundBad
  split
  · split
    · exact State.poisonHitch_keeps h_1
    · exact h_1
  · split
    · split
      · exact h_1
      · exact State.recordUe_keeps (State.markWord_keeps h_1)
    · exact h_1

theorem State.foundGood_keeps {z s : State} {c : Codeword} (h_1 : Keeps z s) :
    Keeps z (s.foundGood c) := by
  unfold State.foundGood
  split
  · exact State.countCe_keeps h_1
  · exact h_1

theorem State.scrubFinds_keeps {z s : State} {c : Codeword} {bad : Bool} (h_1 : Keeps z s) :
    Keeps z (s.scrubFinds c bad) := by
  unfold State.scrubFinds
  split
  · exact State.foundBad_keeps h_1
  · exact State.foundGood_keeps h_1

theorem State.tagsLost_keeps {z s : State} {who addr : Nat} (h_1 : Keeps z s) :
    Keeps z (s.tagsLost who addr) := by
  unfold State.tagsLost
  extract_lets x1 x2 x3
  clear_value x1
  clear_value x2
  have hx3 : Keeps z x3 := by
    unfold x3
    split
    · exact State.stallFatal_keeps h_1
    · exact h_1
  clear_value x3
  exact State.clearOnChip_keeps hx3

theorem State.scrubLate_keeps {z s : State} {u interval : Nat} {dram : Bool} (h_1 : Keeps z s) :
    Keeps z (s.scrubLate u interval dram) := by
  unfold State.scrubLate
  split
  · exact h_1
  · extract_lets x1 x2 x3
    have hx1 : Keeps z x1 := by
      unfold x1
      exact State.notBefore_keeps h_1
    clear_value x1
    clear_value x2
    have hx3 : Keeps z x3 := by
      unfold x3
      refine Keeps.upd (u := x1) ?_ rfl rfl rfl rfl rfl rfl rfl rfl
      exact hx1
    clear_value x3
    exact State.advise_keeps (State.setF_keeps hx3)

theorem execScrubLate_keeps {z : State} {unit : Nat} {s : State} (h_1 : Keeps z s) :
    KeepsRes z (execScrubLate unit s) := by
  unfold execScrubLate
  refine KeepsRes.next ?_
  split
  · exact State.scrubLate_keeps h_1
  · exact h_1

theorem State.foundStaged_keeps {z s : State} {c : Codeword} {core q line off : Nat} (h_1 : Keeps z s) :
    Keeps z (s.foundStaged c core q line off) := by
  unfold State.foundStaged
  split
  · split
    · exact h_1
    · extract_lets x1 x2 x3 x4 x5
      have hx1 : Keeps z x1 := by
        unfold x1
        exact State.markWord_keeps h_1
      clear_value x1
      clear_value x2
      have hx3 : Keeps z x3 := by
        unfold x3
        exact State.wrNat_keeps hx1
      clear_value x3
      have hx4 : Keeps z x4 := by
        unfold x4
        refine Keeps.foldl ?_ ?_
        · exact hx3
        · intro v6 v7 h8
          exact State.setPoison_keeps h8
      clear_value x4
      clear_value x5
      refine Keeps.upd (u := x4) ?_ rfl rfl rfl rfl rfl rfl rfl rfl
      exact hx4
  · exact h_1

theorem State.frameLost_keeps {z s : State} {id : Nat} (h_1 : Keeps z s) :
    Keeps z (s.frameLost id) := by
  unfold State.frameLost
  split
  · split
    · exact State.abortTasks_keeps (State.taskFault_keeps h_1)
    · exact h_1
  · exact h_1

theorem execEccWriteback_keeps {z : State} {mem who addr finder : Nat} {bad : Bool}
    {staged : Option (Nat × Nat × Nat × Nat)} {s : State} (h_1 : Keeps z s) :
    KeepsRes z (execEccWriteback mem who addr finder bad staged s) := by
  unfold execEccWriteback
  refine KeepsRes.next ?_
  extract_lets x1
  clear_value x1
  split
  · exact h_1
  · split
    · exact State.foundGood_keeps h_1
    · split
      · exact State.tagsLost_keeps h_1
      · split
        · exact State.frameLost_keeps h_1
        · split
          · exact State.kvPoison_keeps h_1
          · split
            · exact State.foundStaged_keeps h_1
            · exact State.foundBad_keeps h_1

theorem State.scrubOn_keeps {z s : State} {u lines : Nat} (h_1 : Keeps z s) :
    Keeps z (s.scrubOn u lines) := by
  unfold State.scrubOn
  extract_lets x1 x2
  clear_value x1
  clear_value x2
  split
  · refine Keeps.upd (u := s) ?_ rfl rfl rfl rfl rfl rfl rfl rfl
    exact h_1
  · refine Keeps.upd (u := s) ?_ rfl rfl rfl rfl rfl rfl rfl rfl
    exact h_1

theorem execDramPatrol_keeps {z : State} {ch : Nat} {found : List (Nat × Bool)} {s : State} (h_1 : Keeps z s) :
    KeepsRes z (execDramPatrol ch found s) := by
  unfold execDramPatrol
  refine KeepsRes.next ?_
  split
  · exact h_1
  · extract_lets x1 x2 x3 x4
    clear_value x1
    clear_value x2
    have hx3 : Keeps z x3 := by
      unfold x3
      split
      · exact h_1
      · refine Keeps.foldl ?_ ?_
        · exact h_1
        · intro v5 v6 h7
          exact State.scrubFinds_keeps h7
    clear_value x3
    have hx4 : Keeps z x4 := by
      unfold x4
      exact State.scrubOn_keeps hx3
    clear_value x4
    exact State.setF_keeps hx4

theorem execDramPatrolLate_keeps {z : State} {ch : Nat} {s : State} (h_1 : Keeps z s) :
    KeepsRes z (execDramPatrolLate ch s) := by
  unfold execDramPatrolLate
  refine KeepsRes.next ?_
  split
  · exact State.scrubLate_keeps h_1
  · exact h_1

theorem execOnchipScrub_keeps {z : State} {unit : Nat} {found : List (Nat × Bool)} {s : State} (h_1 : Keeps z s) :
    KeepsRes z (execOnchipScrub unit found s) := by
  unfold execOnchipScrub
  refine KeepsRes.next ?_
  split
  · exact h_1
  · extract_lets x1 x2 x3 x4
    clear_value x1
    clear_value x2
    have hx3 : Keeps z x3 := by
      unfold x3
      split
      · exact h_1
      · refine Keeps.foldl ?_ ?_
        · exact h_1
        · intro v5 v6 h7
          exact State.scrubFinds_keeps h7
    clear_value x3
    have hx4 : Keeps z x4 := by
      unfold x4
      exact State.scrubOn_keeps hx3
    clear_value x4
    split
    · exact h_1
    · exact State.setF_keeps hx4

end Sys2Proof.Machine
end

