-- ==== Sys2Proof/Laws/KeepsEnables.lean ====
section
/-! SUPPORT. What each operation of Machine/Enables.lean keeps (Laws/Keeps.lean): one lemma per operation that answers a
state. -/

namespace Sys2Proof.Machine

open Sys2Proof

theorem State.streamOff_keeps {z s : State} {i : Nat} (h_1 : Keeps z s) :
    Keeps z (s.streamOff i) := by
  unfold State.streamOff
  extract_lets x1 x2
  clear_value x1
  clear_value x2
  split
  · exact Stream.fault_keeps (State.settleStaged_keeps (State.cancelQueue_keeps h_1))
  · exact h_1

theorem State.barrierOff_keeps {z s : State} {b : Nat} (h_1 : Keeps z s) :
    Keeps z (s.barrierOff b) := by
  unfold State.barrierOff
  refine Keeps.foldl ?_ ?_
  · exact h_1
  · intro v1 v2 h3
    exact State.waiterFault_keeps h3

theorem State.poolOff_keeps {z s : State} {p : Nat} (h_1 : Keeps z s) :
    Keeps z (s.poolOff p) := by
  unfold State.poolOff
  extract_lets x1
  clear_value x1
  refine Keeps.foldl ?_ ?_
  · exact h_1
  · intro v2 v3 h4
    exact State.faultWalks_keeps (State.updKseq_keeps h4)

theorem State.portOff_keeps {z s : State} {p : Nat} (h_1 : Keeps z s) :
    Keeps z (s.portOff p) := by
  unfold State.portOff
  exact State.linkDown_keeps (State.sendOther_keeps h_1)

theorem State.vrOff_keeps {z s : State} (h_1 : Keeps z s) :
    Keeps z s.vrOff := by
  unfold State.vrOff
  exact State.fenceOn_keeps (State.updPw_keeps (State.coreOff_keeps h_1))

theorem State.disableInst_keeps {z s : State} {r : Reg} {i : Nat} (h_1 : Keeps z s) :
    Keeps z (s.disableInst r i) := by
  unfold State.disableInst
  extract_lets x1
  have hx1 : Keeps z x1 := by
    unfold x1
    exact State.setF_keeps h_1
  clear_value x1
  split
  · exact State.updSq_keeps hx1
  · exact State.streamOff_keeps hx1
  · exact State.ringOff_keeps h_1
  · exact State.barrierOff_keeps hx1
  · exact State.poolOff_keeps hx1
  · exact State.portOff_keeps hx1
  · exact State.vrOff_keeps hx1
  · exact hx1

theorem State.clearEnable_keeps {z s : State} {r : Reg} {i block inst : Nat} (h_1 : Keeps z s) :
    Keeps z (s.clearEnable r i block inst) := by
  unfold State.clearEnable
  split
  · exact State.setChecks_keeps h_1
  · split
    · exact State.disableInst_keeps h_1
    · exact h_1

theorem State.writeEnable_keeps {z s : State} {req : Nat} {r : Reg} {n : Nat} {val : Word}
    {act : Written → State → State} (h_1 : Keeps z s) (h_2 : ∀ (x : Written)
    (x_1 : State), Keeps z x_1 → Keeps z (act x x_1)) :
    Keeps z (s.writeEnable req r n val act) := by
  unfold State.writeEnable
  apply State.regWrite_keeps
  · exact h_1
  · intro v1 v2 h3
    apply h_2
    exact h3

theorem State.enableAct_keeps {z : State} {w : Written} {s : State} (h_1 : Keeps z s) :
    Keeps z (State.enableAct w s) := by
  unfold State.enableAct
  split
  · exact h_1
  · split
    · split
      · exact h_1
      · exact State.askCheck_keeps h_1
    · split
      · exact State.clearEnable_keeps h_1
      · exact h_1

theorem execCqEnable_keeps {z : State} {req n : Nat} {val : Word} {s : State} (h_1 : Keeps z s) :
    KeepsRes z (execCqEnable req n val s) := by
  unfold execCqEnable
  refine KeepsRes.next ?_
  apply State.writeEnable_keeps
  · exact h_1
  · intro v1 v2 h3
    exact State.enableAct_keeps h3

theorem State.auditAct_keeps {z : State} {w : Written} {s : State} (h_1 : Keeps z s) :
    Keeps z (State.auditAct w s) := by
  unfold State.auditAct
  split
  · extract_lets x1 x2
    have hx1 : Keeps z x1 := by
      unfold x1
      exact State.setF_keeps h_1
    clear_value x1
    clear_value x2
    refine Keeps.upd (u := x1) ?_ rfl rfl rfl rfl rfl rfl rfl rfl
    exact hx1
  · exact h_1

theorem execTackAudit_keeps {z : State} {req : Nat} {s : State} (h_1 : Keeps z s) :
    KeepsRes z (execTackAudit req s) := by
  unfold execTackAudit
  refine KeepsRes.next ?_
  apply State.regWrite_keeps
  · exact h_1
  · intro v1 v2 h3
    exact State.auditAct_keeps h3

theorem State.writeDisable_keeps {z s : State} {req : Nat} {r : Reg} {n : Nat} {val : Word}
    {act : Written → State → State} (h_1 : Keeps z s) (h_2 : ∀ (x : Written)
    (x_1 : State), Keeps z x_1 → Keeps z (act x x_1)) :
    Keeps z (s.writeDisable req r n val act) := by
  unfold State.writeDisable
  apply State.regWrite_keeps
  · exact h_1
  · intro v1 v2 h3
    apply h_2
    exact h3

theorem execKvPoolDisable_keeps {z : State} {req n : Nat} {val : Word} {s : State} (h_1 : Keeps z s) :
    KeepsRes z (execKvPoolDisable req n val s) := by
  unfold execKvPoolDisable
  refine KeepsRes.next ?_
  apply State.writeDisable_keeps
  · exact h_1
  · intro v1 v2 h3
    exact State.enableAct_keeps h3

theorem execStreamQDisable_keeps {z : State} {req n : Nat} {val : Word} {s : State} (h_1 : Keeps z s) :
    KeepsRes z (execStreamQDisable req n val s) := by
  unfold execStreamQDisable
  refine KeepsRes.next ?_
  apply State.writeDisable_keeps
  · exact h_1
  · intro v1 v2 h3
    exact State.enableAct_keeps h3

theorem execStreamQEnable_keeps {z : State} {req n : Nat} {val : Word} {s : State} (h_1 : Keeps z s) :
    KeepsRes z (execStreamQEnable req n val s) := by
  unfold execStreamQEnable
  refine KeepsRes.next ?_
  apply State.writeEnable_keeps
  · exact h_1
  · intro v1 v2 h3
    exact State.enableAct_keeps h3

theorem State.sqCtlAct_keeps {z : State} {host : List Line64} {w : Written} {s : State} (h_1 : Keeps z s) :
    Keeps z (State.sqCtlAct host w s) := by
  unfold State.sqCtlAct
  exact State.sqFlushAct_keeps (State.enableAct_keeps h_1)

theorem execSqDisable_keeps {z : State} {req n : Nat} {val : Word} {s : State} (h_1 : Keeps z s) :
    KeepsRes z (execSqDisable req n val s) := by
  unfold execSqDisable
  refine KeepsRes.next ?_
  apply State.writeDisable_keeps
  · exact h_1
  · intro v1 v2 h3
    exact State.sqCtlAct_keeps h3

theorem execVrDisable_keeps {z : State} {req : Nat} {val : Word} {s : State} (h_1 : Keeps z s) :
    KeepsRes z (execVrDisable req val s) := by
  unfold execVrDisable
  refine KeepsRes.next ?_
  apply State.writeDisable_keeps
  · exact h_1
  · intro v1 v2 h3
    exact State.enableAct_keeps h3

theorem execCqDisable_keeps {z : State} {req n : Nat} {val : Word} {s : State} (h_1 : Keeps z s) :
    KeepsRes z (execCqDisable req n val s) := by
  unfold execCqDisable
  refine KeepsRes.next ?_
  apply State.writeDisable_keeps
  · exact h_1
  · intro v1 v2 h3
    exact State.enableAct_keeps h3

theorem execThermEnable_keeps {z : State} {req : Nat} {val : Word} {s : State} (h_1 : Keeps z s) :
    KeepsRes z (execThermEnable req val s) := by
  unfold execThermEnable
  refine KeepsRes.next ?_
  apply State.writeEnable_keeps
  · exact h_1
  · intro v1 v2 h3
    exact State.enableAct_keeps h3

theorem State.sqStart_keeps {z s : State} {n : Nat} (h_1 : Keeps z s) :
    Keeps z (s.sqStart n) := by
  unfold State.sqStart
  exact State.updSq_keeps (State.setF_keeps (State.setF_keeps h_1))

theorem State.cqStart_keeps {z s : State} {n : Nat} (h_1 : Keeps z s) :
    Keeps z (s.cqStart n) := by
  unfold State.cqStart
  extract_lets x1 x2
  have hx1 : Keeps z x1 := by
    unfold x1
    exact State.setCq_keeps (State.setReg_keeps (State.setReg_keeps h_1))
  clear_value x1
  clear_value x2
  refine Keeps.foldl ?_ ?_
  · exact hx1
  · intro v3 v4 h5
    exact State.updSq_keeps h5

theorem State.ringStart_keeps {z s : State} {i : Nat} (h_1 : Keeps z s) :
    Keeps z (s.ringStart i) := by
  unfold State.ringStart
  extract_lets x1
  have hx1 : Keeps z x1 := by
    unfold x1
    exact State.setRing_keeps (State.setReg_keeps h_1)
  clear_value x1
  refine Keeps.foldl ?_ ?_
  · exact hx1
  · intro v2 v3 h4
    exact State.putTag_keeps h4

theorem State.cleanFree_keeps {z s : State} {p n : Nat} (h_1 : Keeps z s) :
    Keeps z (s.cleanFree p n) := by
  unfold State.cleanFree
  refine Keeps.foldl ?_ ?_
  · exact h_1
  · intro v1 v2 h3
    split
    · exact State.setPoison_keeps h3
    · exact h3

theorem State.writeFree_keeps {z s : State} {p n : Nat} (h_1 : Keeps z s) :
    Keeps z (s.writeFree p n) := by
  induction n generalizing s p with
  | zero =>
    unfold State.writeFree
    exact h_1
  | succ w2 ih =>
    unfold State.writeFree
    split
    · apply ih
      refine KeepsOpt.get (by with_reducible assumption) ?_
      exact State.kvWrite_keeps h_1
    · exact ih h_1

theorem State.poolStart_keeps {z s : State} {p : Nat} (h_1 : Keeps z s) :
    Keeps z (s.poolStart p) := by
  unfold State.poolStart
  extract_lets x1 x2 x3
  clear_value x1
  have hx2 : Keeps z x2 := by
    unfold x2
    exact State.cleanFree_keeps (State.writeFree_keeps h_1)
  clear_value x2
  clear_value x3
  apply State.setF_keeps
  apply State.setFreeNow_keeps
  refine Keeps.upd (u := x2) ?_ rfl rfl rfl rfl rfl rfl rfl rfl
  exact hx2

theorem State.portStart_keeps {z s : State} {p : Nat} (h_1 : Keeps z s) :
    Keeps z (s.portStart p) := by
  unfold State.portStart
  exact State.updPort_keeps (State.setPortState_keeps h_1)

theorem State.enableInst_keeps {z s : State} {block inst : Nat} (h_1 : Keeps z s) :
    Keeps z (s.enableInst block inst) := by
  unfold State.enableInst
  split
  · exact h_1
  · extract_lets x1
    have hx1 : Keeps z x1 := by
      unfold x1
      exact State.setF_keeps h_1
    clear_value x1
    split
    · exact State.sqStart_keeps hx1
    · exact State.cqStart_keeps hx1
    · exact State.ringStart_keeps hx1
    · exact State.hitchPoke_keeps hx1
    · exact State.poolStart_keeps hx1
    · exact State.portStart_keeps hx1
    · exact State.vrStart_keeps hx1
    · exact State.fanWanted_keeps hx1
    · exact hx1

theorem State.loadDone_keeps {z s : State} {e code field : Nat} (h_1 : Keeps z s) :
    Keeps z (s.loadDone e code field) := by
  unfold State.loadDone
  split
  · split
    · exact State.completeCmd_keeps h_1
    · exact State.completeCmd_keeps h_1
  · exact h_1

theorem State.checkEnds_keeps {z s : State} {block : Nat} (h_1 : Keeps z s) :
    Keeps z (s.checkEnds block) := by
  unfold State.checkEnds
  split
  · exact h_1
  · extract_lets x1 x2 x3 x4 x5
    have hx1 : Keeps z x1 := by
      unfold x1
      exact State.setChecks_keeps h_1
    clear_value x1
    have hx2 : Keeps z x2 := by
      unfold x2
      exact State.tackResult_keeps hx1
    clear_value x2
    have hx3 : Keeps z x3 := by
      unfold x3
      split
      · exact hx2
      · split
        · split
          · exact hx2
          · exact State.commitBegin_keeps hx2
        · split
          · exact hx2
          · exact State.enableInst_keeps hx2
    clear_value x3
    have hx4 : Keeps z x4 := by
      unfold x4
      split
      · exact State.loadDone_keeps hx3
      · exact hx3
    clear_value x4
    have hx5 : Keeps z x5 := by
      unfold x5
      split
      · split
        · exact State.disableInst_keeps hx4
        · exact hx4
      · exact hx4
    clear_value x5
    exact State.startCheck_keeps hx5

theorem execBarrierDisable_keeps {z : State} {req n : Nat} {val : Word} {s : State} (h_1 : Keeps z s) :
    KeepsRes z (execBarrierDisable req n val s) := by
  unfold execBarrierDisable
  refine KeepsRes.next ?_
  apply State.writeDisable_keeps
  · exact h_1
  · intro v1 v2 h3
    exact State.enableAct_keeps h3

theorem State.reinCtlAct_keeps {z : State} {w : Written} {s : State} (h_1 : Keeps z s) :
    Keeps z (State.reinCtlAct w s) := by
  unfold State.reinCtlAct
  exact State.reinPortAct_keeps (State.enableAct_keeps h_1)

theorem execReinPortDisable_keeps {z : State} {req n : Nat} {val : Word} {s : State} (h_1 : Keeps z s) :
    KeepsRes z (execReinPortDisable req n val s) := by
  unfold execReinPortDisable
  refine KeepsRes.next ?_
  apply State.writeDisable_keeps
  · exact h_1
  · intro v1 v2 h3
    exact State.reinCtlAct_keeps h3

theorem execKvPoolEnable_keeps {z : State} {req n : Nat} {val : Word} {s : State} (h_1 : Keeps z s) :
    KeepsRes z (execKvPoolEnable req n val s) := by
  unfold execKvPoolEnable
  refine KeepsRes.next ?_
  apply State.writeEnable_keeps
  · exact h_1
  · intro v1 v2 h3
    exact State.enableAct_keeps h3

theorem execRetrain_keeps {z : State} {port : Nat} {write : Option (Nat × Word)} {s : State} (h_1 : Keeps z s) :
    KeepsRes z (execRetrain port write s) := by
  unfold execRetrain
  refine KeepsRes.next ?_
  split
  · split
    · exact State.retrain_keeps h_1
    · exact h_1
  · apply State.regWrite_keeps
    · exact h_1
    · intro v1 v2 h3
      exact State.reinCtlAct_keeps h3

theorem execVrEnable_keeps {z : State} {req : Nat} {val : Word} {s : State} (h_1 : Keeps z s) :
    KeepsRes z (execVrEnable req val s) := by
  unfold execVrEnable
  refine KeepsRes.next ?_
  apply State.writeEnable_keeps
  · exact h_1
  · intro v1 v2 h3
    exact State.enableAct_keeps h3

theorem execTackCheckComplete_keeps {z : State} {block : Nat} {s : State} (h_1 : Keeps z s) :
    KeepsRes z (execTackCheckComplete block s) := by
  unfold execTackCheckComplete
  refine KeepsRes.next ?_
  exact State.checkEnds_keeps h_1

theorem execHitchCfgEnable_keeps {z : State} {req n : Nat} {val : Word} {s : State} (h_1 : Keeps z s) :
    KeepsRes z (execHitchCfgEnable req n val s) := by
  unfold execHitchCfgEnable
  refine KeepsRes.next ?_
  apply State.writeEnable_keeps
  · exact h_1
  · intro v1 v2 h3
    exact State.enableAct_keeps h3

theorem execSqEnable_keeps {z : State} {req n : Nat} {val : Word} {s : State} (h_1 : Keeps z s) :
    KeepsRes z (execSqEnable req n val s) := by
  unfold execSqEnable
  refine KeepsRes.next ?_
  apply State.writeEnable_keeps
  · exact h_1
  · intro v1 v2 h3
    exact State.sqCtlAct_keeps h3

theorem execSqFlush_keeps {z : State} {req n : Nat} {val : Word} {host : List Line64} {s : State} (h_1 : Keeps z s) :
    KeepsRes z (execSqFlush req n val host s) := by
  unfold execSqFlush
  refine KeepsRes.next ?_
  apply State.regWrite_keeps
  · exact h_1
  · intro v1 v2 h3
    exact State.sqCtlAct_keeps h3

theorem execCredRebuild_keeps {z : State} {req n : Nat} {val : Word} {s : State} (h_1 : Keeps z s) :
    KeepsRes z (execCredRebuild req n val s) := by
  unfold execCredRebuild
  refine KeepsRes.next ?_
  apply State.regWrite_keeps
  · exact h_1
  · intro v1 v2 h3
    exact State.reinCtlAct_keeps h3

theorem execReinPortEnable_keeps {z : State} {req n : Nat} {val : Word} {s : State} (h_1 : Keeps z s) :
    KeepsRes z (execReinPortEnable req n val s) := by
  unfold execReinPortEnable
  refine KeepsRes.next ?_
  apply State.writeEnable_keeps
  · exact h_1
  · intro v1 v2 h3
    exact State.reinCtlAct_keeps h3

theorem execHrnUnload_keeps {z : State} {sq : Nat} {s : State} (h_1 : Keeps z s) :
    KeepsRes z (execHrnUnload sq s) := by
  unfold execHrnUnload
  refine KeepsRes.next ?_
  apply State.runCmd_keeps
  · exact h_1
  · intro v1 v2 v3 h4
    extract_lets x5
    clear_value x5
    split
    · exact State.completeCmd_keeps h4
    · split
      · exact State.completeCmd_keeps h4
      · exact State.completeCmd_keeps (State.setF_keeps (State.clearEnable_keeps h4))

theorem execHrnEnable_keeps {z : State} {req n : Nat} {val : Word} {s : State} (h_1 : Keeps z s) :
    KeepsRes z (execHrnEnable req n val s) := by
  unfold execHrnEnable
  refine KeepsRes.next ?_
  apply State.writeEnable_keeps
  · exact h_1
  · intro v1 v2 h3
    exact State.enableAct_keeps h3

theorem execBridleEnable_keeps {z : State} {req n : Nat} {val : Word} {s : State} (h_1 : Keeps z s) :
    KeepsRes z (execBridleEnable req n val s) := by
  unfold execBridleEnable
  refine KeepsRes.next ?_
  apply State.writeEnable_keeps
  · exact h_1
  · intro v1 v2 h3
    exact State.enableAct_keeps h3

theorem execHrnLoad_keeps {z : State} {sq : Nat} {host : List Byte} {s : State} (h_1 : Keeps z s) :
    KeepsRes z (execHrnLoad sq host s) := by
  unfold execHrnLoad
  refine KeepsRes.next ?_
  apply State.runCmd_keeps
  · exact h_1
  · intro v1 v2 v3 h4
    extract_lets x5 x6 x7
    clear_value x5
    clear_value x6
    clear_value x7
    split
    · exact h4
    · split
      · exact State.completeCmd_keeps h4
      · split
        · exact State.completeCmd_keeps h4
        · split
          · exact State.completeCmd_keeps h4
          · extract_lets x8 x9
            have hx8 : Keeps z x8 := by
              unfold x8
              apply State.wrNat_keeps
              apply State.wrBytes_keeps
              apply State.clearOnChip_keeps
              refine KeepsOpt.snd2 (by with_reducible assumption) ?_
              exact State.cpRead_keeps h4
            clear_value x8
            have hx9 : Keeps z x9 := by
              unfold x9
              exact State.setF_keeps (State.setF_keeps hx8)
            clear_value x9
            exact State.askCheck_keeps (State.updCmd_keeps hx9)

theorem execRingEnable_keeps {z : State} {req n : Nat} {val : Word} {s : State} (h_1 : Keeps z s) :
    KeepsRes z (execRingEnable req n val s) := by
  unfold execRingEnable
  refine KeepsRes.next ?_
  apply State.writeEnable_keeps
  · exact h_1
  · intro v1 v2 h3
    exact State.enableAct_keeps h3

theorem execBarrierEnable_keeps {z : State} {req n : Nat} {val : Word} {s : State} (h_1 : Keeps z s) :
    KeepsRes z (execBarrierEnable req n val s) := by
  unfold execBarrierEnable
  refine KeepsRes.next ?_
  apply State.writeEnable_keeps
  · exact h_1
  · intro v1 v2 h3
    exact State.enableAct_keeps h3

theorem execAuditComplete_keeps {z s : State} (h_1 : Keeps z s) :
    KeepsRes z (execAuditComplete s) := by
  unfold execAuditComplete
  refine KeepsRes.next ?_
  split
  · exact h_1
  · extract_lets x1 x2 x3 x4
    clear_value x1
    clear_value x2
    have hx3 : Keeps z x3 := by
      unfold x3
      exact State.setReg_keeps h_1
    clear_value x3
    clear_value x4
    refine Keeps.upd (u := x3) ?_ rfl rfl rfl rfl rfl rfl rfl rfl
    exact hx3

theorem execRingDisable_keeps {z : State} {req n : Nat} {val : Word} {s : State} (h_1 : Keeps z s) :
    KeepsRes z (execRingDisable req n val s) := by
  unfold execRingDisable
  refine KeepsRes.next ?_
  apply State.writeDisable_keeps
  · exact h_1
  · intro v1 v2 h3
    exact State.enableAct_keeps h3

theorem execFanEnable_keeps {z : State} {req : Nat} {val : Word} {s : State} (h_1 : Keeps z s) :
    KeepsRes z (execFanEnable req val s) := by
  unfold execFanEnable
  refine KeepsRes.next ?_
  apply State.writeEnable_keeps
  · exact h_1
  · intro v1 v2 h3
    exact State.enableAct_keeps h3

end Sys2Proof.Machine
end

