-- ==== Sys2Proof/Laws/KeepsHostLink.lean ====
section
/-! SUPPORT. What each operation of Machine/HostLink.lean keeps (Laws/Keeps.lean): one lemma per operation that answers a
state. -/

namespace Sys2Proof.Machine

open Sys2Proof

theorem State.forceRemove_keeps {z s : State} {req : Nat} {e : Extent} (h_1 : Keeps z s) :
    Keeps z (s.forceRemove req e) := by
  unfold State.forceRemove
  extract_lets x1
  have hx1 : Keeps z x1 := by
    unfold x1
    refine Keeps.foldl ?_ ?_
    · exact h_1
    · intro v2 v3 h4
      extract_lets x5
      clear_value x5
      exact State.setHolders_keeps h4
  clear_value x1
  exact State.sweepExtents_keeps (State.updExtent_keeps hx1)

theorem State.mailbox_keeps {z s : State} {req : Nat} {go : State → State} (h_1 : Keeps z s)
    (h_2 : ∀ (x : State), Keeps z x → Keeps z (go x)) :
    Keeps z (s.mailbox req go) := by
  unfold State.mailbox
  split
  · apply h_2
    exact h_1
  · exact h_1

theorem State.mail_keeps {z s : State} {req : Nat} {ret : RetCode} {data : (List Nat)} (h_1 : Keeps z s) :
    Keeps z (s.mail req ret data) := by
  unfold State.mail
  exact State.emit_keeps h_1

theorem execGetDynamicCapacityConfiguration_keeps {z : State} {req : Nat} {s : State} (h_1 : Keeps z s) :
    KeepsRes z (execGetDynamicCapacityConfiguration req s) := by
  unfold execGetDynamicCapacityConfiguration
  refine KeepsRes.next ?_
  apply State.mailbox_keeps
  · exact h_1
  · intro v1 h2
    exact State.mail_keeps h2

theorem execGetDynamicCapacityExtentList_keeps {z : State} {req : Nat} {s : State} (h_1 : Keeps z s) :
    KeepsRes z (execGetDynamicCapacityExtentList req s) := by
  unfold execGetDynamicCapacityExtentList
  refine KeepsRes.next ?_
  apply State.mailbox_keeps
  · exact h_1
  · intro v1 h2
    exact State.mail_keeps h2

theorem State.fm_keeps {z s : State} {ret : RetCode} {data : (List Nat)} (h_1 : Keeps z s) :
    Keeps z (s.fm ret data) := by
  unfold State.fm
  exact State.emit_keeps h_1

theorem State.dcEvent_keeps {z s : State} {ext : Nat} {reqs : List Nat} (h_1 : Keeps z s) :
    Keeps z (s.dcEvent ext reqs) := by
  unfold State.dcEvent
  exact State.postEvent_keeps h_1

theorem execInitiateDynamicCapacityRelease_keeps {z : State} {agent ext req : Nat} {forced : Bool} {s : State}
    (h_1 : Keeps z s) :
    KeepsRes z (execInitiateDynamicCapacityRelease agent ext req forced s) := by
  unfold execInitiateDynamicCapacityRelease
  refine KeepsRes.next ?_
  split
  · exact h_1
  · split
    · exact State.fm_keeps h_1
    · split
      · exact State.fm_keeps h_1
      · extract_lets x1
        have hx1 : Keeps z x1 := by
          unfold x1
          exact State.dcEvent_keeps h_1
        clear_value x1
        apply State.fm_keeps
        split
        · exact State.forceRemove_keeps hx1
        · exact hx1

theorem execRslotAck_keeps {z : State} {req off size : Nat} {val : Word} {s : State} (h_1 : Keeps z s) :
    KeepsRes z (execRslotAck req off size val s) := by
  unfold execRslotAck
  refine KeepsRes.next ?_
  extract_lets x1 x2
  clear_value x1
  clear_value x2
  split
  · exact h_1
  · split
    · exact State.setSlot_keeps h_1
    · exact State.refuseAccess_keeps h_1

theorem State.commandHostDown_keeps {z s : State} {sq : Nat} {before : List HostLine} (h_1 : Keeps z s) :
    Keeps z (s.commandHostDown sq before) := by
  unfold State.commandHostDown
  split
  · exact h_1
  · extract_lets x1 x2 x3 x4
    clear_value x1
    have hx2 : Keeps z x2 := by
      unfold x2
      split
      · exact State.memCopy_keeps h_1
      · exact h_1
    clear_value x2
    clear_value x3
    have hx4 : Keeps z x4 := by
      unfold x4
      exact State.logFault_keeps hx2
    clear_value x4
    exact State.postFlushes_keeps (State.completeCmd_keeps hx4)

theorem execAddDynamicCapacityResponse_keeps {z : State} {req ext : Nat} {accept : Bool} {s : State}
    (h_1 : Keeps z s) :
    KeepsRes z (execAddDynamicCapacityResponse req ext accept s) := by
  unfold execAddDynamicCapacityResponse
  refine KeepsRes.next ?_
  apply State.mailbox_keeps
  · exact h_1
  · intro v1 h2
    split
    · exact State.mail_keeps h2
    · extract_lets x3
      have hx3 : Keeps z x3 := by
        unfold x3
        exact State.updExtent_keeps h2
      clear_value x3
      exact State.mail_keeps (State.sweepExtents_keeps hx3)

theorem execExtentOffer_keeps {z : State} {ext : Nat} {s : State} (h_1 : Keeps z s) :
    KeepsRes z (execExtentOffer ext s) := by
  unfold execExtentOffer
  refine KeepsRes.next ?_
  split
  · exact h_1
  · split
    · exact h_1
    · extract_lets x1
      have hx1 : Keeps z x1 := by
        unfold x1
        refine Keeps.foldl ?_ ?_
        · exact h_1
        · intro v2 v3 h4
          exact State.zeroBlocks_keeps h4
      clear_value x1
      exact State.dcEvent_keeps (State.updExtent_keeps hx1)

theorem State.addExtent_keeps {z s : State} {blocks : List Nat} {region slot : Nat} {reqs : List Nat}
    (h_1 : Keeps z s) :
    Keeps z (s.addExtent blocks region slot reqs) := by
  unfold State.addExtent
  extract_lets x1 x2
  have hx1 : Keeps z x1 := by
    unfold x1
    split
    · exact State.newKey_keeps h_1
    · exact h_1
  clear_value x1
  clear_value x2
  refine Keeps.upd (u := x1) ?_ rfl rfl rfl rfl rfl rfl rfl rfl
  exact hx1

theorem State.shareExtent_keeps {z s : State} {e : Extent} {reqs : List Nat} (h_1 : Keeps z s) :
    Keeps z (s.shareExtent e reqs) := by
  unfold State.shareExtent
  extract_lets x1 x2
  clear_value x1
  have hx2 : Keeps z x2 := by
    unfold x2
    exact State.updExtent_keeps h_1
  clear_value x2
  split
  · exact State.dcEvent_keeps hx2
  · exact hx2

theorem execInitiateDynamicCapacityAdd_keeps {z : State} {agent : Nat} {blocks : List Nat} {region : Nat}
    {reqs : List Nat} {share : Option Nat} {s : State} (h_1 : Keeps z s) :
    KeepsRes z (execInitiateDynamicCapacityAdd agent blocks region reqs share s) := by
  unfold execInitiateDynamicCapacityAdd
  refine KeepsRes.next ?_
  split
  · exact h_1
  · split
    · exact State.fm_keeps h_1
    · split
      · split
        · exact State.fm_keeps h_1
        · split
          · exact State.fm_keeps h_1
          · split
            · exact State.fm_keeps h_1
            · exact State.fm_keeps (State.shareExtent_keeps h_1)
      · split
        · exact State.fm_keeps h_1
        · split
          · exact State.fm_keeps h_1
          · extract_lets x1
            clear_value x1
            split
            · exact State.fm_keeps h_1
            · exact State.fm_keeps (State.addExtent_keeps h_1)

theorem State.bar2Data_keeps {z s : State} {req off n v : Nat} {ep : Bool} (h_1 : Keeps z s) :
    Keeps z (s.bar2Data req off n v ep) := by
  unfold State.bar2Data
  exact State.emit_keeps h_1

theorem State.bar2Refused_keeps {z s : State} {req off n : Nat} {write : Bool} (h_1 : Keeps z s) :
    Keeps z (s.bar2Refused req off n write) := by
  unfold State.bar2Refused
  apply State.refuseAccess_keeps
  split
  · exact h_1
  · exact State.bar2Data_keeps h_1

theorem State.taskHostDown_keeps {z s : State} {task : Nat} (h_1 : Keeps z s) :
    Keeps z (s.taskHostDown task) := by
  unfold State.taskHostDown
  split
  · exact h_1
  · extract_lets x1
    clear_value x1
    split
    · extract_lets x2
      clear_value x2
      exact State.taskFault_keeps h_1
    · split
      · exact State.taskFault_keeps h_1
      · exact h_1
    · exact State.taskFault_keeps h_1
    · exact h_1

theorem execHostReadError_keeps {z : State} {who : HostReader} {s : State} (h_1 : Keeps z s) :
    KeepsRes z (execHostReadError who s) := by
  unfold execHostReadError
  refine KeepsRes.next ?_
  split
  · exact State.taskHostDown_keeps h_1
  · exact State.commandHostDown_keeps h_1

theorem State.paddockPut_keeps {z s : State} {o n d : Nat} (h_1 : Keeps z s) :
    Keeps z (s.paddockPut o n d) := by
  unfold State.paddockPut
  extract_lets x1
  have hx1 : Keeps z x1 := by
    unfold x1
    exact State.wrBytes_keeps h_1
  clear_value x1
  refine Keeps.foldl ?_ ?_
  · exact hx1
  · intro v2 v3 h4
    extract_lets x5
    clear_value x5
    split
    · exact State.setPoison_keeps h4
    · exact h4

theorem execBar2PaddockAccess_keeps {z : State} {req off size : Nat} {write : Option Line64} {s : State}
    (h_1 : Keeps z s) :
    KeepsRes z (execBar2PaddockAccess req off size write s) := by
  unfold execBar2PaddockAccess
  refine KeepsRes.next ?_
  split
  · exact h_1
  · split
    · split
      · exact h_1
      · exact State.bar2Data_keeps h_1
    · split
      · split
        · exact State.bar2Refused_keeps h_1
        · extract_lets x1
          have hx1 : Keeps z x1 := by
            unfold x1
            exact State.pdSettle_keeps (State.pdSettle_keeps h_1)
          clear_value x1
          split
          · exact State.paddockPut_keeps hx1
          · exact State.bar2Data_keeps hx1
      · extract_lets x2 x3
        clear_value x2
        clear_value x3
        split
        · exact State.bar2Data_keeps h_1
        · exact State.bar2Refused_keeps h_1

theorem execReleaseDynamicCapacity_keeps {z : State} {req ext : Nat} {s : State} (h_1 : Keeps z s) :
    KeepsRes z (execReleaseDynamicCapacity req ext s) := by
  unfold execReleaseDynamicCapacity
  refine KeepsRes.next ?_
  apply State.mailbox_keeps
  · exact h_1
  · intro v1 h2
    split
    · exact State.mail_keeps h2
    · extract_lets x3 x4 x5
      clear_value x3
      clear_value x4
      have hx5 : Keeps z x5 := by
        unfold x5
        refine Keeps.foldl ?_ ?_
        · exact h2
        · intro v6 v7 h8
          exact State.enterOrder_keeps h8
      clear_value x5
      split
      · exact State.mail_keeps h2
      · exact State.mail_keeps (State.finishRelease_keeps hx5)

end Sys2Proof.Machine
end

