-- ==== Sys2Proof/Laws/KeepsMailboxCmds.lean ====
section
/-! SUPPORT. What each operation of Machine/MailboxCmds.lean keeps (Laws/Keeps.lean): one lemma per operation that answers a
state. -/

namespace Sys2Proof.Machine

open Sys2Proof

theorem execUnsupportedMailboxCommand_keeps {z : State} {req opcode : Nat} {s : State} (h_1 : Keeps z s) :
    KeepsRes z (execUnsupportedMailboxCommand req opcode s) := by
  unfold execUnsupportedMailboxCommand
  refine KeepsRes.next ?_
  apply State.mailbox_keeps
  · exact h_1
  · intro v1 h2
    split
    · exact h2
    · exact State.mail_keeps h2

theorem execGetAlertConfiguration_keeps {z : State} {req : Nat} {s : State} (h_1 : Keeps z s) :
    KeepsRes z (execGetAlertConfiguration req s) := by
  unfold execGetAlertConfiguration
  refine KeepsRes.next ?_
  apply State.mailbox_keeps
  · exact h_1
  · intro v1 h2
    exact State.mail_keeps h2

theorem State.updMbox_keeps {z s : State} {req : Nat} {f : Mailbox → Mailbox} (h_1 : Keeps z s) :
    Keeps z (s.updMbox req f) := by
  unfold State.updMbox
  exact State.setMbox_keeps h_1

theorem execSetTimestamp_keeps {z : State} {req : Nat} {stamp : Word} {s : State} (h_1 : Keeps z s) :
    KeepsRes z (execSetTimestamp req stamp s) := by
  unfold execSetTimestamp
  refine KeepsRes.next ?_
  apply State.mailbox_keeps
  · exact h_1
  · intro v1 h2
    exact State.mail_keeps (State.updMbox_keeps h2)

theorem State.eraseOwn_keeps {z s : State} {req : Nat} (h_1 : Keeps z s) :
    Keeps z (s.eraseOwn req) := by
  unfold State.eraseOwn
  exact State.rekeyOwn_keeps (State.abortTasks_keeps h_1)

theorem State.poisonCmd_keeps {z s : State} {req dpa : Nat} {go : Nat → State → State} (h_1 : Keeps z s)
    (h_2 : ∀ (x : Nat) (x_1 : State), Keeps z x_1 → Keeps z (go x x_1)) :
    Keeps z (s.poisonCmd req dpa go) := by
  unfold State.poisonCmd
  apply State.mailbox_keeps
  · exact h_1
  · intro v1 h2
    split
    · exact State.mail_keeps h2
    · split
      · exact State.mail_keeps h2
      · apply State.mail_keeps
        apply h_2
        exact h2

theorem execClearPoison_keeps {z : State} {req dpa : Nat} {data : Line64} {s : State} (h_1 : Keeps z s) :
    KeepsRes z (execClearPoison req dpa data s) := by
  unfold execClearPoison
  refine KeepsRes.next ?_
  apply State.poisonCmd_keeps
  · exact h_1
  · intro v1 v2 h3
    exact State.writeLine64_keeps h3

theorem execIdentifyMemoryDevice_keeps {z : State} {req : Nat} {s : State} (h_1 : Keeps z s) :
    KeepsRes z (execIdentifyMemoryDevice req s) := by
  unfold execIdentifyMemoryDevice
  refine KeepsRes.next ?_
  apply State.mailbox_keeps
  · exact h_1
  · intro v1 h2
    extract_lets x3
    clear_value x3
    exact State.mail_keeps h2

theorem execTransferFw_keeps {z : State} {req : Nat} {s : State} (h_1 : Keeps z s) :
    KeepsRes z (execTransferFw req s) := by
  unfold execTransferFw
  refine KeepsRes.next ?_
  apply State.mailbox_keeps
  · exact h_1
  · intro v1 h2
    exact State.mail_keeps h2

theorem execInjectPoison_keeps {z : State} {req dpa : Nat} {s : State} (h_1 : Keeps z s) :
    KeepsRes z (execInjectPoison req dpa s) := by
  unfold execInjectPoison
  refine KeepsRes.next ?_
  apply State.poisonCmd_keeps
  · exact h_1
  · intro v1 v2 h3
    exact State.setPoison_keeps h3

theorem execGetEventRecords_keeps {z : State} {req log : Nat} {s : State} (h_1 : Keeps z s) :
    KeepsRes z (execGetEventRecords req log s) := by
  unfold execGetEventRecords
  refine KeepsRes.next ?_
  apply State.mailbox_keeps
  · exact h_1
  · intro v1 h2
    extract_lets x3
    clear_value x3
    split
    · exact State.mail_keeps h2
    · exact State.mail_keeps h2

theorem execSecureErase_keeps {z : State} {req : Nat} {s : State} (h_1 : Keeps z s) :
    KeepsRes z (execSecureErase req s) := by
  unfold execSecureErase
  refine KeepsRes.next ?_
  apply State.mailbox_keeps
  · exact h_1
  · intro v1 h2
    split
    · exact State.mail_keeps h2
    · exact State.mail_keeps (State.eraseOwn_keeps h2)

theorem execActivateFw_keeps {z : State} {req : Nat} {s : State} (h_1 : Keeps z s) :
    KeepsRes z (execActivateFw req s) := by
  unfold execActivateFw
  refine KeepsRes.next ?_
  apply State.mailbox_keeps
  · exact h_1
  · intro v1 h2
    exact State.mail_keeps h2

theorem execGetSupportedLogs_keeps {z : State} {req : Nat} {s : State} (h_1 : Keeps z s) :
    KeepsRes z (execGetSupportedLogs req s) := by
  unfold execGetSupportedLogs
  refine KeepsRes.next ?_
  apply State.mailbox_keeps
  · exact h_1
  · intro v1 h2
    exact State.mail_keeps h2

theorem execGetHealthInfo_keeps {z : State} {req : Nat} {s : State} (h_1 : Keeps z s) :
    KeepsRes z (execGetHealthInfo req s) := by
  unfold execGetHealthInfo
  refine KeepsRes.next ?_
  apply State.mailbox_keeps
  · exact h_1
  · intro v1 h2
    exact State.mail_keeps h2

theorem execSanitize_keeps {z : State} {req : Nat} {s : State} (h_1 : Keeps z s) :
    KeepsRes z (execSanitize req s) := by
  unfold execSanitize
  refine KeepsRes.next ?_
  apply State.mailbox_keeps
  · exact h_1
  · intro v1 h2
    split
    · exact State.mail_keeps h2
    · exact State.mail_keeps (State.updMbox_keeps (State.eraseOwn_keeps h2))

theorem execGetTimestamp_keeps {z : State} {req : Nat} {s : State} (h_1 : Keeps z s) :
    KeepsRes z (execGetTimestamp req s) := by
  unfold execGetTimestamp
  refine KeepsRes.next ?_
  apply State.mailbox_keeps
  · exact h_1
  · intro v1 h2
    exact State.mail_keeps h2

theorem execClearEventRecords_keeps {z : State} {req log n : Nat} {s : State} (h_1 : Keeps z s) :
    KeepsRes z (execClearEventRecords req log n s) := by
  unfold execClearEventRecords
  refine KeepsRes.next ?_
  apply State.mailbox_keeps
  · exact h_1
  · intro v1 h2
    extract_lets x3 x4
    clear_value x3
    clear_value x4
    split
    · exact State.mail_keeps h2
    · exact State.mail_keeps (State.updMbox_keeps h2)

theorem execGetFwInfo_keeps {z : State} {req : Nat} {s : State} (h_1 : Keeps z s) :
    KeepsRes z (execGetFwInfo req s) := by
  unfold execGetFwInfo
  refine KeepsRes.next ?_
  apply State.mailbox_keeps
  · exact h_1
  · intro v1 h2
    exact State.mail_keeps h2

theorem execSetEventInterruptPolicy_keeps {z : State} {req : Nat} {policy : Word32} {s : State} (h_1 : Keeps z s) :
    KeepsRes z (execSetEventInterruptPolicy req policy s) := by
  unfold execSetEventInterruptPolicy
  refine KeepsRes.next ?_
  apply State.mailbox_keeps
  · exact h_1
  · intro v1 h2
    split
    · exact State.mail_keeps h2
    · exact State.mail_keeps (State.updMbox_keeps h2)

theorem execGetEventInterruptPolicy_keeps {z : State} {req : Nat} {s : State} (h_1 : Keeps z s) :
    KeepsRes z (execGetEventInterruptPolicy req s) := by
  unfold execGetEventInterruptPolicy
  refine KeepsRes.next ?_
  apply State.mailbox_keeps
  · exact h_1
  · intro v1 h2
    exact State.mail_keeps h2

theorem execGetPoisonList_keeps {z : State} {req dpa len : Nat} {s : State} (h_1 : Keeps z s) :
    KeepsRes z (execGetPoisonList req dpa len s) := by
  unfold execGetPoisonList
  refine KeepsRes.next ?_
  apply State.mailbox_keeps
  · exact h_1
  · intro v1 h2
    exact State.mail_keeps h2

theorem execScanMedia_keeps {z : State} {req dpa len : Nat} {s : State} (h_1 : Keeps z s) :
    KeepsRes z (execScanMedia req dpa len s) := by
  unfold execScanMedia
  refine KeepsRes.next ?_
  apply State.mailbox_keeps
  · exact h_1
  · intro v1 h2
    split
    · exact State.mail_keeps h2
    · extract_lets x3
      clear_value x3
      exact State.mail_keeps (State.updMbox_keeps h2)

theorem execGetScanMediaResults_keeps {z : State} {req : Nat} {s : State} (h_1 : Keeps z s) :
    KeepsRes z (execGetScanMediaResults req s) := by
  unfold execGetScanMediaResults
  refine KeepsRes.next ?_
  apply State.mailbox_keeps
  · exact h_1
  · intro v1 h2
    exact State.mail_keeps h2

theorem execSetAlertConfiguration_keeps {z : State} {req : Nat} {cfg : Word} {s : State} (h_1 : Keeps z s) :
    KeepsRes z (execSetAlertConfiguration req cfg s) := by
  unfold execSetAlertConfiguration
  refine KeepsRes.next ?_
  apply State.mailbox_keeps
  · exact h_1
  · intro v1 h2
    exact State.mail_keeps (State.updMbox_keeps h2)

theorem execGetLog_keeps {z : State} {req : Nat} {effects : Bool} {s : State} (h_1 : Keeps z s) :
    KeepsRes z (execGetLog req effects s) := by
  unfold execGetLog
  refine KeepsRes.next ?_
  apply State.mailbox_keeps
  · exact h_1
  · intro v1 h2
    split
    · exact State.mail_keeps h2
    · exact State.mail_keeps h2

theorem execSanitizeDone_keeps {z : State} {req : Nat} {s : State} (h_1 : Keeps z s) :
    KeepsRes z (execSanitizeDone req s) := by
  unfold execSanitizeDone
  refine KeepsRes.next ?_
  split
  · exact h_1
  · apply State.updMbox_keeps
    refine Keeps.foldl ?_ ?_
    · exact h_1
    · intro v1 v2 h3
      exact State.zeroBlocks_keeps h3

end Sys2Proof.Machine
end

