-- ==== Sys2Proof/Laws/KeepsMgmt.lean ====
section
/-! SUPPORT. What each operation of Machine/Mgmt.lean keeps (Laws/Keeps.lean): one lemma per operation that answers a
state. -/

namespace Sys2Proof.Machine

open Sys2Proof

theorem State.request_keeps {z s : State} {ep : Nat} {go : State → State} (h_1 : Keeps z s)
    (h_2 : ∀ (x : State), Keeps z x → Keeps z (go x)) :
    Keeps z (s.request ep go) := by
  unfold State.request
  split
  · apply h_2
    exact h_1
  · exact h_1

theorem State.respond_keeps {z s : State} {code cc : Nat} {data : (List Nat)} (h_1 : Keeps z s) :
    Keeps z (s.respond code cc data) := by
  unfold State.respond
  exact State.emit_keeps h_1

theorem execGetPldmVersion_keeps {z : State} {ep typ : Nat} {s : State} (h_1 : Keeps z s) :
    KeepsRes z (execGetPldmVersion ep typ s) := by
  unfold execGetPldmVersion
  refine KeepsRes.next ?_
  apply State.request_keeps
  · exact h_1
  · intro v1 h2
    split
    · exact State.respond_keeps h2
    · exact State.respond_keeps h2

theorem State.fmRequest_keeps {z s : State} {agent : Nat} {go : State → State} (h_1 : Keeps z s)
    (h_2 : ∀ (x : State), Keeps z x → Keeps z (go x)) :
    Keeps z (s.fmRequest agent go) := by
  unfold State.fmRequest
  split
  · apply h_2
    exact h_1
  · exact h_1

theorem State.mldOnly_keeps {z s : State} {go : State → State} (h_1 : Keeps z s)
    (h_2 : ∀ (x : State), Keeps z x → Keeps z (go x)) :
    Keeps z (s.mldOnly go) := by
  unfold State.mldOnly
  split
  · apply h_2
    exact h_1
  · exact State.fm_keeps h_1

theorem execGetQosControl_keeps {z : State} {agent : Nat} {s : State} (h_1 : Keeps z s) :
    KeepsRes z (execGetQosControl agent s) := by
  unfold execGetQosControl
  refine KeepsRes.next ?_
  apply State.fmRequest_keeps
  · exact h_1
  · intro v1 h2
    apply State.mldOnly_keeps
    · exact h2
    · intro v3 h4
      exact State.fm_keeps h4

theorem State.updMgmt_keeps {z s : State} {f : Mgmt → Mgmt} (h_1 : Keeps z s) :
    Keeps z (s.updMgmt f) := by
  unfold State.updMgmt
  refine Keeps.upd (u := s) ?_ rfl rfl rfl rfl rfl rfl rfl rfl
  exact h_1

theorem State.setUpdate_keeps {z s : State} {phase : Nat} {u : Option Update} (h_1 : Keeps z s) :
    Keeps z (s.setUpdate phase u) := by
  unfold State.setUpdate
  exact State.updMgmt_keeps (State.setF_keeps h_1)

theorem execRequestUpdate_keeps {z : State} {ep : Nat} {owner : Bool} {s : State} (h_1 : Keeps z s) :
    KeepsRes z (execRequestUpdate ep owner s) := by
  unfold execRequestUpdate
  refine KeepsRes.next ?_
  apply State.request_keeps
  · exact h_1
  · intro v1 h2
    split
    · exact State.respond_keeps h2
    · split
      · exact State.respond_keeps h2
      · exact State.respond_keeps (State.setUpdate_keeps h2)

theorem execGetQosBwLimit_keeps {z : State} {agent : Nat} {s : State} (h_1 : Keeps z s) :
    KeepsRes z (execGetQosBwLimit agent s) := by
  unfold execGetQosBwLimit
  refine KeepsRes.next ?_
  apply State.fmRequest_keeps
  · exact h_1
  · intro v1 h2
    apply State.mldOnly_keeps
    · exact h2
    · intro v3 h4
      exact State.fm_keeps h4

theorem State.updateStep_keeps {z s : State} {phase : Nat} {go : Update → Nat → State → State} (h_1 : Keeps z s)
    (h_2 : ∀ (x : Update) (x_1 : Nat) (x_2 : State), Keeps z x_2 → Keeps z (go x x_1 x_2)) :
    Keeps z (s.updateStep phase go) := by
  unfold State.updateStep
  split
  · split
    · split
      · apply h_2
        exact h_1
      · exact h_1
    · exact h_1
  · exact h_1

theorem execSetTid_keeps {z : State} {ep tid : Nat} {s : State} (h_1 : Keeps z s) :
    KeepsRes z (execSetTid ep tid s) := by
  unfold execSetTid
  refine KeepsRes.next ?_
  apply State.request_keeps
  · exact h_1
  · intro v1 h2
    split
    · exact State.respond_keeps h2
    · exact State.respond_keeps (State.updMgmt_keeps h2)

theorem execGetLdAllocations_keeps {z : State} {agent : Nat} {s : State} (h_1 : Keeps z s) :
    KeepsRes z (execGetLdAllocations agent s) := by
  unfold execGetLdAllocations
  refine KeepsRes.next ?_
  apply State.fmRequest_keeps
  · exact h_1
  · intro v1 h2
    apply State.mldOnly_keeps
    · exact h2
    · intro v3 h4
      exact State.fm_keeps h4

theorem State.agentRequest_keeps {z s : State} {ep cmd : Nat} {go : Update → State → State} (h_1 : Keeps z s)
    (h_2 : ∀ (x : Update) (x_1 : State), Keeps z x_1 → Keeps z (go x x_1)) :
    Keeps z (s.agentRequest ep cmd go) := by
  unfold State.agentRequest
  apply State.request_keeps
  · exact h_1
  · intro v1 h2
    split
    · exact State.respond_keeps h2
    · extract_lets x3
      clear_value x3
      apply h_2
      exact State.setUpdate_keeps h2

theorem execCancelUpdateComponent_keeps {z : State} {ep : Nat} {s : State} (h_1 : Keeps z s) :
    KeepsRes z (execCancelUpdateComponent ep s) := by
  unfold execCancelUpdateComponent
  refine KeepsRes.next ?_
  apply State.agentRequest_keeps
  · exact h_1
  · intro v1 v2 h3
    split
    · exact State.respond_keeps h3
    · exact State.respond_keeps (State.setUpdate_keeps h3)

theorem execPassComponentTable_keeps {z : State} {ep : Nat} {comps : List Nat} {s : State} (h_1 : Keeps z s) :
    KeepsRes z (execPassComponentTable ep comps s) := by
  unfold execPassComponentTable
  refine KeepsRes.next ?_
  apply State.agentRequest_keeps
  · exact h_1
  · intro v1 v2 h3
    split
    · exact State.respond_keeps h3
    · exact State.respond_keeps (State.setUpdate_keeps h3)

theorem execGetEndpointUuid_keeps {z : State} {ep : Nat} {s : State} (h_1 : Keeps z s) :
    KeepsRes z (execGetEndpointUuid ep s) := by
  unfold execGetEndpointUuid
  refine KeepsRes.next ?_
  apply State.request_keeps
  · exact h_1
  · intro v1 h2
    exact State.respond_keeps h2

theorem execGetFirmwareParameters_keeps {z : State} {ep : Nat} {s : State} (h_1 : Keeps z s) :
    KeepsRes z (execGetFirmwareParameters ep s) := by
  unfold execGetFirmwareParameters
  refine KeepsRes.next ?_
  apply State.request_keeps
  · exact h_1
  · intro v1 h2
    extract_lets x3 x4
    clear_value x3
    clear_value x4
    exact State.respond_keeps h2

theorem execGetMultiHeadedInfo_keeps {z : State} {agent : Nat} {s : State} (h_1 : Keeps z s) :
    KeepsRes z (execGetMultiHeadedInfo agent s) := by
  unfold execGetMultiHeadedInfo
  refine KeepsRes.next ?_
  apply State.fmRequest_keeps
  · exact h_1
  · intro v1 h2
    split
    · exact State.fm_keeps h2
    · exact State.fm_keeps h2

theorem State.fmChange_keeps {z s : State} {agent : Nat} {go : State → State} (h_1 : Keeps z s)
    (h_2 : ∀ (x : State), Keeps z x → Keeps z (go x)) :
    Keeps z (s.fmChange agent go) := by
  unfold State.fmChange
  apply State.fmRequest_keeps
  · exact h_1
  · intro v1 h2
    split
    · apply h_2
      exact h2
    · exact State.fm_keeps h2

theorem State.setFractions_keeps {z s : State} {lo : Nat} {l : List (Nat × Nat)} (h_1 : Keeps z s) :
    Keeps z (s.setFractions lo l) := by
  unfold State.setFractions
  split
  · apply State.fm_keeps
    refine Keeps.foldl ?_ ?_
    · exact h_1
    · intro v1 v2 h3
      exact State.setF_keeps h3
  · exact State.fm_keeps h_1

theorem execSetQosAllocatedBw_keeps {z : State} {agent : Nat} {fracs : List (Nat × Nat)} {s : State}
    (h_1 : Keeps z s) :
    KeepsRes z (execSetQosAllocatedBw agent fracs s) := by
  unfold execSetQosAllocatedBw
  refine KeepsRes.next ?_
  apply State.fmChange_keeps
  · exact h_1
  · intro v1 h2
    apply State.mldOnly_keeps
    · exact h2
    · intro v3 h4
      exact State.setFractions_keeps h4

theorem execGetDcdInfo_keeps {z : State} {agent : Nat} {s : State} (h_1 : Keeps z s) :
    KeepsRes z (execGetDcdInfo agent s) := by
  unfold execGetDcdInfo
  refine KeepsRes.next ?_
  apply State.fmRequest_keeps
  · exact h_1
  · intro v1 h2
    exact State.fm_keeps h2

theorem execQueryDeviceIdentifiers_keeps {z : State} {ep : Nat} {s : State} (h_1 : Keeps z s) :
    KeepsRes z (execQueryDeviceIdentifiers ep s) := by
  unfold execQueryDeviceIdentifiers
  refine KeepsRes.next ?_
  apply State.request_keeps
  · exact h_1
  · intro v1 h2
    exact State.respond_keeps h2

theorem execGetTid_keeps {z : State} {ep : Nat} {s : State} (h_1 : Keeps z s) :
    KeepsRes z (execGetTid ep s) := by
  unfold execGetTid
  refine KeepsRes.next ?_
  apply State.request_keeps
  · exact h_1
  · intro v1 h2
    exact State.respond_keeps h2

theorem execGetQosAllocatedBw_keeps {z : State} {agent : Nat} {s : State} (h_1 : Keeps z s) :
    KeepsRes z (execGetQosAllocatedBw agent s) := by
  unfold execGetQosAllocatedBw
  refine KeepsRes.next ?_
  apply State.fmRequest_keeps
  · exact h_1
  · intro v1 h2
    apply State.mldOnly_keeps
    · exact h2
    · intro v3 h4
      exact State.fm_keeps h4

theorem execGetPdrRepositoryInfo_keeps {z : State} {ep : Nat} {s : State} (h_1 : Keeps z s) :
    KeepsRes z (execGetPdrRepositoryInfo ep s) := by
  unfold execGetPdrRepositoryInfo
  refine KeepsRes.next ?_
  apply State.request_keeps
  · exact h_1
  · intro v1 h2
    exact State.respond_keeps h2

theorem execGetStateSensorReadings_keeps {z : State} {ep id : Nat} {s : State} (h_1 : Keeps z s) :
    KeepsRes z (execGetStateSensorReadings ep id s) := by
  unfold execGetStateSensorReadings
  refine KeepsRes.next ?_
  apply State.request_keeps
  · exact h_1
  · intro v1 h2
    split
    · exact State.respond_keeps h2
    · exact State.respond_keeps h2

theorem execUpdateTimeout_keeps {z s : State} (h_1 : Keeps z s) :
    KeepsRes z (execUpdateTimeout s) := by
  unfold execUpdateTimeout
  refine KeepsRes.next ?_
  split
  · split
    · exact State.dropUpdate_keeps (State.notBefore_keeps h_1)
    · exact h_1
  · exact h_1

theorem execApplyComplete_keeps {z s : State} (h_1 : Keeps z s) :
    KeepsRes z (execApplyComplete s) := by
  unfold execApplyComplete
  refine KeepsRes.next ?_
  apply State.updateStep_keeps
  · exact h_1
  · intro v1 v2 v3 h4
    extract_lets x5
    clear_value x5
    exact State.respond_keeps (State.setUpdate_keeps h4)

theorem execRequestFirmwareData_keeps {z : State} {off len : Nat} {s : State} (h_1 : Keeps z s) :
    KeepsRes z (execRequestFirmwareData off len s) := by
  unfold execRequestFirmwareData
  refine KeepsRes.next ?_
  split
  · exact h_1
  · apply State.updateStep_keeps
    · exact h_1
    · intro v1 v2 v3 h4
      extract_lets x5 x6 x7
      clear_value x5
      clear_value x6
      have hx7 : Keeps z x7 := by
        unfold x7
        refine Keeps.upd (u := v3) ?_ rfl rfl rfl rfl rfl rfl rfl rfl
        exact h4
      clear_value x7
      exact State.respond_keeps (State.setUpdate_keeps hx7)

theorem execGetLdInfo_keeps {z : State} {agent : Nat} {s : State} (h_1 : Keeps z s) :
    KeepsRes z (execGetLdInfo agent s) := by
  unfold execGetLdInfo
  refine KeepsRes.next ?_
  apply State.fmRequest_keeps
  · exact h_1
  · intro v1 h2
    exact State.fm_keeps h2

theorem State.copyLacking_keeps {z s : State} {u : Update} (h_1 : Keeps z s) :
    Keeps z (s.copyLacking u) := by
  unfold State.copyLacking
  refine Keeps.foldl ?_ ?_
  · exact h_1
  · intro v1 v2 h3
    refine Keeps.upd (u := v1) ?_ rfl rfl rfl rfl rfl rfl rfl rfl
    exact h3

theorem execVerifyComplete_keeps {z s : State} (h_1 : Keeps z s) :
    KeepsRes z (execVerifyComplete s) := by
  unfold execVerifyComplete
  refine KeepsRes.next ?_
  apply State.updateStep_keeps
  · exact h_1
  · intro v1 v2 v3 h4
    extract_lets x5
    have hx5 : Keeps z x5 := by
      unfold x5
      exact State.copyLacking_keeps h4
    clear_value x5
    split
    · exact State.respond_keeps (State.setUpdate_keeps hx5)
    · exact State.respond_keeps (State.setUpdate_keeps hx5)

theorem execSetLdAllocations_keeps {z : State} {agent : Nat} {lds : List Nat} {alloc : List (Nat × Nat × Nat)}
    {s : State} (h_1 : Keeps z s) :
    KeepsRes z (execSetLdAllocations agent lds alloc s) := by
  unfold execSetLdAllocations
  refine KeepsRes.next ?_
  apply State.fmChange_keeps
  · exact h_1
  · intro v1 h2
    apply State.mldOnly_keeps
    · exact h2
    · intro v3 h4
      extract_lets x5 x6 x7
      clear_value x5
      clear_value x6
      clear_value x7
      split
      · exact State.fm_keeps h4
      · apply State.fm_keeps
        refine Keeps.upd (u := v3) ?_ rfl rfl rfl rfl rfl rfl rfl rfl
        exact h4

theorem execGetDcRegionExtentLists_keeps {z : State} {agent req : Nat} {s : State} (h_1 : Keeps z s) :
    KeepsRes z (execGetDcRegionExtentLists agent req s) := by
  unfold execGetDcRegionExtentLists
  refine KeepsRes.next ?_
  apply State.fmRequest_keeps
  · exact h_1
  · intro v1 h2
    split
    · exact State.fm_keeps h2
    · exact State.fm_keeps h2

theorem execActivateFirmware_keeps {z : State} {ep : Nat} {s : State} (h_1 : Keeps z s) :
    KeepsRes z (execActivateFirmware ep s) := by
  unfold execActivateFirmware
  refine KeepsRes.next ?_
  apply State.agentRequest_keeps
  · exact h_1
  · intro v1 v2 h3
    split
    · exact State.respond_keeps h3
    · extract_lets x4 x5
      clear_value x4
      have hx5 : Keeps z x5 := by
        unfold x5
        refine Keeps.upd (u := v2) ?_ rfl rfl rfl rfl rfl rfl rfl rfl
        exact h3
      clear_value x5
      exact State.respond_keeps (State.setUpdate_keeps hx5)

theorem execGetVendorDefinedMessageSupport_keeps {z : State} {ep : Nat} {s : State} (h_1 : Keeps z s) :
    KeepsRes z (execGetVendorDefinedMessageSupport ep s) := by
  unfold execGetVendorDefinedMessageSupport
  refine KeepsRes.next ?_
  apply State.request_keeps
  · exact h_1
  · intro v1 h2
    exact State.respond_keeps h2

theorem execGetPldmTypes_keeps {z : State} {ep : Nat} {s : State} (h_1 : Keeps z s) :
    KeepsRes z (execGetPldmTypes ep s) := by
  unfold execGetPldmTypes
  refine KeepsRes.next ?_
  apply State.request_keeps
  · exact h_1
  · intro v1 h2
    exact State.respond_keeps h2

theorem execUpdateComponent_keeps {z : State} {ep comp : Nat} {s : State} (h_1 : Keeps z s) :
    KeepsRes z (execUpdateComponent ep comp s) := by
  unfold execUpdateComponent
  refine KeepsRes.next ?_
  apply State.agentRequest_keeps
  · exact h_1
  · intro v1 v2 h3
    split
    · exact State.respond_keeps h3
    · exact State.respond_keeps (State.setUpdate_keeps h3)

theorem execSetQosControl_keeps {z : State} {agent : Nat} {val : Word} {s : State} (h_1 : Keeps z s) :
    KeepsRes z (execSetQosControl agent val s) := by
  unfold execSetQosControl
  refine KeepsRes.next ?_
  apply State.fmChange_keeps
  · exact h_1
  · intro v1 h2
    apply State.mldOnly_keeps
    · exact h2
    · intro v3 h4
      apply State.fm_keeps
      refine Keeps.upd (u := v3) ?_ rfl rfl rfl rfl rfl rfl rfl rfl
      exact h4

theorem execGetHostDcRegionConfiguration_keeps {z : State} {agent req : Nat} {s : State} (h_1 : Keeps z s) :
    KeepsRes z (execGetHostDcRegionConfiguration agent req s) := by
  unfold execGetHostDcRegionConfiguration
  refine KeepsRes.next ?_
  apply State.fmRequest_keeps
  · exact h_1
  · intro v1 h2
    split
    · exact State.fm_keeps h2
    · exact State.fm_keeps h2

theorem execGetPldmCommands_keeps {z : State} {ep typ : Nat} {s : State} (h_1 : Keeps z s) :
    KeepsRes z (execGetPldmCommands ep typ s) := by
  unfold execGetPldmCommands
  refine KeepsRes.next ?_
  apply State.request_keeps
  · exact h_1
  · intro v1 h2
    split
    · exact State.respond_keeps h2
    · exact State.respond_keeps h2

theorem execGetMessageTypeSupport_keeps {z : State} {ep : Nat} {s : State} (h_1 : Keeps z s) :
    KeepsRes z (execGetMessageTypeSupport ep s) := by
  unfold execGetMessageTypeSupport
  refine KeepsRes.next ?_
  apply State.request_keeps
  · exact h_1
  · intro v1 h2
    exact State.respond_keeps h2

theorem execPlatformEventMessage_keeps {z : State} {id : Nat} {ack : Bool} {s : State} (h_1 : Keeps z s) :
    KeepsRes z (execPlatformEventMessage id ack s) := by
  unfold execPlatformEventMessage
  refine KeepsRes.next ?_
  split
  · exact h_1
  · extract_lets x1
    clear_value x1
    split
    · exact State.respond_keeps (State.updMgmt_keeps h_1)
    · split
      · exact h_1
      · extract_lets x2
        have hx2 : Keeps z x2 := by
          unfold x2
          exact State.notBefore_keeps h_1
        clear_value x2
        exact State.respond_keeps (State.updMgmt_keeps hx2)

theorem execGetStatus_keeps {z : State} {ep : Nat} {s : State} (h_1 : Keeps z s) :
    KeepsRes z (execGetStatus ep s) := by
  unfold execGetStatus
  refine KeepsRes.next ?_
  apply State.request_keeps
  · exact h_1
  · intro v1 h2
    exact State.respond_keeps (State.updMgmt_keeps h2)

theorem execTransferComplete_keeps {z : State} {img : Image} {s : State} (h_1 : Keeps z s) :
    KeepsRes z (execTransferComplete img s) := by
  unfold execTransferComplete
  refine KeepsRes.next ?_
  apply State.updateStep_keeps
  · exact h_1
  · intro v1 v2 v3 h4
    apply State.respond_keeps
    apply State.setUpdate_keeps
    refine Keeps.upd (u := v3) ?_ rfl rfl rfl rfl rfl rfl rfl rfl
    exact h4

theorem execSetQosBwLimit_keeps {z : State} {agent : Nat} {fracs : List (Nat × Nat)} {s : State} (h_1 : Keeps z s) :
    KeepsRes z (execSetQosBwLimit agent fracs s) := by
  unfold execSetQosBwLimit
  refine KeepsRes.next ?_
  apply State.fmChange_keeps
  · exact h_1
  · intro v1 h2
    apply State.mldOnly_keeps
    · exact h2
    · intro v3 h4
      exact State.setFractions_keeps h4

theorem execGetEndpointId_keeps {z : State} {ep : Nat} {s : State} (h_1 : Keeps z s) :
    KeepsRes z (execGetEndpointId ep s) := by
  unfold execGetEndpointId
  refine KeepsRes.next ?_
  apply State.request_keeps
  · exact h_1
  · intro v1 h2
    exact State.respond_keeps h2

theorem execSetEndpointId_keeps {z : State} {ep eid : Nat} {s : State} (h_1 : Keeps z s) :
    KeepsRes z (execSetEndpointId ep eid s) := by
  unfold execSetEndpointId
  refine KeepsRes.next ?_
  apply State.request_keeps
  · exact h_1
  · intro v1 h2
    exact State.respond_keeps (State.setF_keeps h2)

theorem execGetEventReceiver_keeps {z : State} {ep : Nat} {s : State} (h_1 : Keeps z s) :
    KeepsRes z (execGetEventReceiver ep s) := by
  unfold execGetEventReceiver
  refine KeepsRes.next ?_
  apply State.request_keeps
  · exact h_1
  · intro v1 h2
    exact State.respond_keeps h2

theorem execGetPdr_keeps {z : State} {ep n : Nat} {s : State} (h_1 : Keeps z s) :
    KeepsRes z (execGetPdr ep n s) := by
  unfold execGetPdr
  refine KeepsRes.next ?_
  apply State.request_keeps
  · exact h_1
  · intro v1 h2
    split
    · exact State.respond_keeps h2
    · split
      · exact State.respond_keeps h2
      · exact State.respond_keeps h2
    · exact State.respond_keeps h2

theorem execGetSensorReading_keeps {z : State} {ep id : Nat} {s : State} (h_1 : Keeps z s) :
    KeepsRes z (execGetSensorReading ep id s) := by
  unfold execGetSensorReading
  refine KeepsRes.next ?_
  apply State.request_keeps
  · exact h_1
  · intro v1 h2
    split
    · exact State.respond_keeps h2
    · split
      · exact State.respond_keeps h2
      · exact State.respond_keeps h2

theorem execCancelUpdate_keeps {z : State} {ep : Nat} {s : State} (h_1 : Keeps z s) :
    KeepsRes z (execCancelUpdate ep s) := by
  unfold execCancelUpdate
  refine KeepsRes.next ?_
  apply State.agentRequest_keeps
  · exact h_1
  · intro v1 v2 h3
    exact State.respond_keeps (State.dropUpdate_keeps h3)

theorem execIdentify_keeps {z : State} {agent : Nat} {s : State} (h_1 : Keeps z s) :
    KeepsRes z (execIdentify agent s) := by
  unfold execIdentify
  refine KeepsRes.next ?_
  apply State.fmRequest_keeps
  · exact h_1
  · intro v1 h2
    exact State.fm_keeps h2

theorem execGetMctpVersionSupport_keeps {z : State} {ep typ : Nat} {s : State} (h_1 : Keeps z s) :
    KeepsRes z (execGetMctpVersionSupport ep typ s) := by
  unfold execGetMctpVersionSupport
  refine KeepsRes.next ?_
  apply State.request_keeps
  · exact h_1
  · intro v1 h2
    split
    · exact State.respond_keeps h2
    · exact State.respond_keeps h2

theorem execGetQosStatus_keeps {z : State} {agent : Nat} {s : State} (h_1 : Keeps z s) :
    KeepsRes z (execGetQosStatus agent s) := by
  unfold execGetQosStatus
  refine KeepsRes.next ?_
  apply State.fmRequest_keeps
  · exact h_1
  · intro v1 h2
    apply State.mldOnly_keeps
    · exact h2
    · intro v3 h4
      exact State.fm_keeps (State.draw_keeps h4)

theorem execSetEventReceiver_keeps {z : State} {ep : Nat} {on : Bool} {s : State} (h_1 : Keeps z s) :
    KeepsRes z (execSetEventReceiver ep on s) := by
  unfold execSetEventReceiver
  refine KeepsRes.next ?_
  apply State.request_keeps
  · exact h_1
  · intro v1 h2
    extract_lets x3
    have hx3 : Keeps z x3 := by
      unfold x3
      exact State.setF_keeps h2
    clear_value x3
    exact State.respond_keeps (State.updMgmt_keeps hx3)

end Sys2Proof.Machine
end

