-- ==== Sys2Proof/Laws/KeepsOwner.lean ====
section
/-! SUPPORT. What each operation of Machine/Owner.lean keeps (Laws/Keeps.lean): one lemma per operation that answers a
state. -/

namespace Sys2Proof.Machine

open Sys2Proof

theorem State.setSessions_keeps {z s : State} {l : List Session} (h_1 : Keeps z s) :
    Keeps z (s.setSessions l) := by
  unfold State.setSessions
  refine Keeps.upd (u := s) ?_ rfl rfl rfl rfl rfl rfl rfl rfl
  exact h_1

theorem State.touchAll_keeps {z s : State} {req : Nat} (h_1 : Keeps z s) :
    Keeps z (s.touchAll req) := by
  unfold State.touchAll
  exact State.setSessions_keeps h_1

theorem State.spdmOk_keeps {z s : State} {req : Nat} {data : (List Nat)} (h_1 : Keeps z s) :
    Keeps z (s.spdmOk req data) := by
  unfold State.spdmOk
  exact State.emit_keeps h_1

theorem State.spdmError_keeps {z s : State} {req code : Nat} (h_1 : Keeps z s) :
    Keeps z (s.spdmError req code) := by
  unfold State.spdmError
  exact State.emit_keeps h_1

theorem execSpdmRequest_keeps {z : State} {req code : Nat} {s : State} (h_1 : Keeps z s) :
    KeepsRes z (execSpdmRequest req code s) := by
  unfold execSpdmRequest
  refine KeepsRes.next ?_
  split
  · exact h_1
  · split
    · exact State.spdmOk_keeps (State.touchAll_keeps h_1)
    · exact State.spdmError_keeps (State.touchAll_keeps h_1)

theorem State.rekeyAll_keeps {z s : State} (h_1 : Keeps z s) :
    Keeps z s.rekeyAll := by
  unfold State.rekeyAll
  extract_lets x1 x2 x3
  have hx1 : Keeps z x1 := by
    unfold x1
    refine Keeps.foldl ?_ ?_
    · exact h_1
    · intro v4 v5 h6
      exact State.newKey_keeps h6
  clear_value x1
  have hx2 : Keeps z x2 := by
    unfold x2
    exact State.rekeyBlocks_keeps hx1
  clear_value x2
  clear_value x3
  refine Keeps.upd (u := x2) ?_ rfl rfl rfl rfl rfl rfl rfl rfl
  exact hx2

theorem State.debugResult_keeps {z s : State} {r : Nat} (h_1 : Keeps z s) :
    Keeps z (s.debugResult r) := by
  unfold State.debugResult
  exact State.setF_keeps h_1

theorem State.unlock_keeps {z s : State} {level : Nat} (h_1 : Keeps z s) :
    Keeps z (s.unlock level) := by
  unfold State.unlock
  extract_lets x1 x2 x3
  clear_value x1
  have hx2 : Keeps z x2 := by
    unfold x2
    exact State.setF_keeps (State.rekeyAll_keeps (State.endOwnerSession_keeps h_1))
  clear_value x2
  have hx3 : Keeps z x3 := by
    unfold x3
    exact State.logFault_keeps (State.moduleEvent_keeps hx2)
  clear_value x3
  exact State.debugResult_keeps (State.setF_keeps (State.setF_keeps hx3))

theorem State.submitToken_keeps {z s : State} {t : List Byte} {sigOk : Bool} (h_1 : Keeps z s) :
    Keeps z (s.submitToken t sigOk) := by
  unfold State.submitToken
  extract_lets x1 x2 x3
  clear_value x1
  clear_value x2
  have hx3 : Keeps z x3 := by
    unfold x3
    refine Keeps.upd (u := s) ?_ rfl rfl rfl rfl rfl rfl rfl rfl
    exact h_1
  clear_value x3
  split
  · exact State.debugResult_keeps hx3
  · exact State.unlock_keeps hx3

theorem State.debugAct_keeps {z : State} {sigOk : Bool} {w : Written} {s : State} (h_1 : Keeps z s) :
    Keeps z (State.debugAct sigOk w s) := by
  unfold State.debugAct
  split
  · exact State.submitToken_keeps h_1
  · exact h_1

theorem State.touch_keeps {z s : State} {sid : Nat} (h_1 : Keeps z s) :
    Keeps z (s.touch sid) := by
  unfold State.touch
  exact State.setSessions_keeps h_1

theorem State.becomeOwner_keeps {z s : State} {req sid : Nat} (h_1 : Keeps z s) :
    Keeps z (s.becomeOwner req sid) := by
  unfold State.becomeOwner
  extract_lets x1
  have hx1 : Keeps z x1 := by
    unfold x1
    exact State.setSessions_keeps h_1
  clear_value x1
  exact State.setF_keeps (State.setF_keeps hx1)

theorem execOwnerClaim_keeps {z : State} {req sid : Nat} {s : State} (h_1 : Keeps z s) :
    KeepsRes z (execOwnerClaim req sid s) := by
  unfold execOwnerClaim
  refine KeepsRes.next ?_
  split
  · exact h_1
  · split
    · exact State.spdmError_keeps h_1
    · split
      · exact State.spdmError_keeps (State.touch_keeps h_1)
      · extract_lets x1 x2
        clear_value x1
        have hx2 : Keeps z x2 := by
          unfold x2
          refine Keeps.upd (u := s) ?_ rfl rfl rfl rfl rfl rfl rfl rfl
          exact h_1
        clear_value x2
        exact State.spdmOk_keeps (State.becomeOwner_keeps (State.touch_keeps (State.setF_keeps hx2)))

theorem execGetMeasurements_keeps {z : State} {req : Nat} {s : State} (h_1 : Keeps z s) :
    KeepsRes z (execGetMeasurements req s) := by
  unfold execGetMeasurements
  refine KeepsRes.next ?_
  split
  · exact State.spdmOk_keeps (State.touchAll_keeps h_1)
  · exact h_1

theorem State.setIde_keeps {z s : State} {reqs : List Nat} {secure : Bool} (h_1 : Keeps z s) :
    Keeps z (s.setIde reqs secure) := by
  unfold State.setIde
  extract_lets x1 x2
  clear_value x1
  clear_value x2
  refine Keeps.upd (u := s) ?_ rfl rfl rfl rfl rfl rfl rfl rfl
  exact h_1

theorem State.endSession_keeps {z s : State} {sid : Nat} (h_1 : Keeps z s) :
    Keeps z (s.endSession sid) := by
  unfold State.endSession
  split
  · exact h_1
  · split
    · exact State.endOwnerSession_keeps h_1
    · exact State.setSessions_keeps h_1

theorem execEndSession_keeps {z : State} {req sid : Nat} {s : State} (h_1 : Keeps z s) :
    KeepsRes z (execEndSession req sid s) := by
  unfold execEndSession
  refine KeepsRes.next ?_
  split
  · exact State.spdmOk_keeps (State.endSession_keeps h_1)
  · exact State.spdmError_keeps h_1
  · exact h_1

theorem State.stageNone_keeps {z s : State} (h_1 : Keeps z s) :
    Keeps z s.stageNone := by
  unfold State.stageNone
  refine Keeps.foldl ?_ ?_
  · exact h_1
  · intro v1 v2 h3
    exact State.setF_keeps h3

theorem State.release_keeps {z s : State} (h_1 : Keeps z s) :
    Keeps z s.release := by
  unfold State.release
  extract_lets x1 x2 x3 x4
  have hx1 : Keeps z x1 := by
    unfold x1
    exact State.commitEnd_keeps h_1
  clear_value x1
  clear_value x2
  have hx3 : Keeps z x3 := by
    unfold x3
    apply State.endOwnerSession_keeps
    apply State.setF_keeps
    refine Keeps.upd (u := x1) ?_ rfl rfl rfl rfl rfl rfl rfl rfl
    exact hx1
  clear_value x3
  have hx4 : Keeps z x4 := by
    unfold x4
    exact State.stageNone_keeps hx3
  clear_value x4
  exact State.commitBegin_keeps hx4

theorem State.ownerCfgAct_keeps {z : State} {w : Written} {s : State} (h_1 : Keeps z s) :
    Keeps z (State.ownerCfgAct w s) := by
  unfold State.ownerCfgAct
  extract_lets x1
  have hx1 : Keeps z x1 := by
    unfold x1
    split
    · exact State.ownerEnds_keeps h_1
    · exact h_1
  clear_value x1
  split
  · exact State.release_keeps hx1
  · exact hx1

theorem execIdeIntegrityFail_keeps {z : State} {req : Nat} {s : State} (h_1 : Keeps z s) :
    KeepsRes z (execIdeIntegrityFail req s) := by
  unfold execIdeIntegrityFail
  refine KeepsRes.next ?_
  split
  · exact h_1
  · extract_lets x1 x2
    clear_value x1
    have hx2 : Keeps z x2 := by
      unfold x2
      exact State.postEvent_keeps (State.setIde_keeps h_1)
    clear_value x2
    exact State.advise_keeps hx2

theorem execOwnerRelease_keeps {z : State} {req : Nat} {val : Word} {s : State} (h_1 : Keeps z s) :
    KeepsRes z (execOwnerRelease req val s) := by
  unfold execOwnerRelease
  refine KeepsRes.next ?_
  apply State.regWrite_keeps
  · exact h_1
  · intro v1 v2 h3
    exact State.ownerCfgAct_keeps h3

theorem execKeyExchange_keeps {z : State} {req sid key : Nat} {mutualAuth : Bool} {s : State} (h_1 : Keeps z s) :
    KeepsRes z (execKeyExchange req sid key mutualAuth s) := by
  unfold execKeyExchange
  refine KeepsRes.next ?_
  split
  · exact h_1
  · extract_lets x1 x2 x3 x4
    clear_value x1
    clear_value x2
    clear_value x3
    have hx4 : Keeps z x4 := by
      unfold x4
      exact State.setSessions_keeps h_1
    clear_value x4
    split
    · exact State.spdmError_keeps h_1
    · split
      · exact State.spdmError_keeps h_1
      · apply State.spdmOk_keeps
        split
        · exact State.becomeOwner_keeps hx4
        · exact hx4

theorem execHeartbeat_keeps {z : State} {req sid : Nat} {s : State} (h_1 : Keeps z s) :
    KeepsRes z (execHeartbeat req sid s) := by
  unfold execHeartbeat
  refine KeepsRes.next ?_
  split
  · exact State.spdmOk_keeps (State.touch_keeps h_1)
  · exact State.spdmError_keeps h_1
  · exact h_1

theorem execOwnerSessionTimeout_keeps {z : State} {sid : Nat} {s : State} (h_1 : Keeps z s) :
    KeepsRes z (execOwnerSessionTimeout sid s) := by
  unfold execOwnerSessionTimeout
  refine KeepsRes.next ?_
  split
  · exact State.endSession_keeps (State.notBefore_keeps h_1)
  · exact h_1

theorem execIdeKm_keeps {z : State} {req : Nat} {s : State} (h_1 : Keeps z s) :
    KeepsRes z (execIdeKm req s) := by
  unfold execIdeKm
  refine KeepsRes.next ?_
  split
  · exact State.setIde_keeps (State.touchAll_keeps h_1)
  · exact h_1

theorem execDebugSubmit_keeps {z : State} {req : Nat} {sigOk : Bool} {conn : Option (List Word)} {s : State}
    (h_1 : Keeps z s) :
    KeepsRes z (execDebugSubmit req sigOk conn s) := by
  unfold execDebugSubmit
  refine KeepsRes.next ?_
  split
  · split
    · exact h_1
    · exact State.submitToken_keeps h_1
  · apply State.regWrite_keeps
    · exact h_1
    · intro v1 v2 h3
      exact State.debugAct_keeps h3

end Sys2Proof.Machine
end

