-- ==== Sys2Proof/Laws/KeepsRegisters.lean ====
section
/-! SUPPORT. What each operation of Machine/Registers.lean keeps (Laws/Keeps.lean): one lemma per operation that answers a
state. -/

namespace Sys2Proof.Machine

open Sys2Proof

theorem State.markRead_keeps {z s : State} {r : Reg} {i : Nat} (h_1 : Keeps z s) :
    Keeps z (s.markRead r i) := by
  unfold State.markRead
  split
  · refine Keeps.upd (u := s) ?_ rfl rfl rfl rfl rfl rfl rfl rfl
    exact h_1
  · exact h_1

theorem State.clearRc_keeps {z s : State} {agent : Nat} {r : Reg} {i : Nat} {fs : List (Nat × Nat)}
    (h_1 : Keeps z s) :
    Keeps z (s.clearRc agent r i fs) := by
  unfold State.clearRc
  split
  · exact h_1
  · exact State.setRegOf_keeps h_1

theorem State.dropCap_keeps {z s : State} {agent off : Nat} (h_1 : Keeps z s) :
    Keeps z (s.dropCap agent off) := by
  unfold State.dropCap
  refine Keeps.upd (u := s) ?_ rfl rfl rfl rfl rfl rfl rfl rfl
  exact h_1

theorem State.busRead_keeps {z s : State} {agent off size : Nat} (h_1 : Keeps z s) :
    Keeps z (s.busRead agent off size).2 := by
  unfold State.busRead
  extract_lets x1
  clear_value x1
  split
  · dsimp only
    exact State.refuseAccess_keeps h_1
  · dsimp only
    exact State.refuseAccess_keeps h_1
  · split
    · dsimp only
      exact State.refuseAccess_keeps h_1
    · dsimp only
      exact State.markRead_keeps (State.clearRc_keeps h_1)
  · split
    · dsimp only
      exact State.refuseAccess_keeps h_1
    · extract_lets x2 x3
      clear_value x2
      have hx3 : Keeps z x3 := by
        unfold x3
        exact State.dropCap_keeps (State.markRead_keeps (State.clearRc_keeps h_1))
      clear_value x3
      dsimp only
      refine Keeps.upd (u := x3) ?_ rfl rfl rfl rfl rfl rfl rfl rfl
      exact hx3
  · split
    · dsimp only
      exact State.refuseAccess_keeps h_1
    · split
      · dsimp only
        exact State.dropCap_keeps h_1
      · dsimp only
        exact State.markRead_keeps (State.clearRc_keeps h_1)

theorem execRegisterReadCapture_keeps {z : State} {req off size : Nat} {s : State} (h_1 : Keeps z s) :
    KeepsRes z (execRegisterReadCapture req off size s) := by
  unfold execRegisterReadCapture
  refine KeepsRes.next ?_
  split
  · extract_lets x1
    have hx1 : Keeps z x1.2 := by
      unfold x1
      exact State.busRead_keeps h_1
    clear_value x1
    exact State.emit_keeps hx1
  · exact h_1

theorem State.chipAct_keeps {z : State} {w : Written} {s : State} (h_1 : Keeps z s) :
    Keeps z (State.chipAct w s) := by
  unfold State.chipAct
  split
  · exact h_1
  · exact State.setF_keeps h_1

theorem State.tokenAct_keeps {z : State} {w : Written} {s : State} (h_1 : Keeps z s) :
    Keeps z (State.tokenAct w s) := by
  unfold State.tokenAct
  exact State.setReg_keeps h_1

theorem State.regAct_keeps {z : State} {sigOk : Bool} {host : List Line64} {w : Written} {s : State}
    (h_1 : Keeps z s) :
    Keeps z (State.regAct sigOk host w s) := by
  unfold State.regAct
  split
  · exact State.sqCtlAct_keeps h_1
  · exact State.reinCtlAct_keeps h_1
  · exact State.doorbellAct_keeps h_1
  · exact State.headAct_keeps h_1
  · exact State.stageCtlAct_keeps h_1
  · exact State.handshakeAct_keeps h_1
  · exact State.auditAct_keeps h_1
  · exact State.commitAct_keeps h_1
  · exact State.editAct_keeps h_1
  · exact State.capAct_keeps h_1
  · exact State.stallResetAct_keeps h_1
  · exact State.hitchForceAct_keeps h_1
  · exact State.bridleCntAct_keeps h_1
  · exact State.chipAct_keeps h_1
  · exact State.ownerCfgAct_keeps h_1
  · exact State.debugAct_keeps h_1
  · exact State.tokenAct_keeps h_1
  · exact State.sessionAct_keeps h_1
  · exact State.dbgCmdAct_keeps h_1
  · exact State.haltAct_keeps h_1
  · exact State.stepAct_keeps h_1
  · exact State.traceAct_keeps h_1
  · exact State.enableAct_keeps h_1

theorem execRegisterWrite_keeps {z : State} {req off size : Nat} {val : Word} {sigOk : Bool} {host : List Line64}
    {s : State} (h_1 : Keeps z s) :
    KeepsRes z (execRegisterWrite req off size val sigOk host s) := by
  unfold execRegisterWrite
  refine KeepsRes.next ?_
  apply State.busWrite_keeps
  · exact h_1
  · intro v1 v2 h3
    exact State.regAct_keeps h3

end Sys2Proof.Machine
end

