-- ==== Sys2Proof/Laws/KeepsScalarAlu.lean ====
section
/-! SUPPORT. What each operation of Machine/ScalarAlu.lean keeps (Laws/Keeps.lean): one lemma per operation that answers a
state. -/

namespace Sys2Proof.Machine

open Sys2Proof

theorem execSll_keeps {z : State} {i : Issue} {s : State} (h_1 : Keeps z s) :
    KeepsRes z (execSll i s) := by
  unfold execSll
  refine KeepsRes.next ?_
  exact alu_keeps h_1

theorem execAndn_keeps {z : State} {i : Issue} {s : State} (h_1 : Keeps z s) :
    KeepsRes z (execAndn i s) := by
  unfold execAndn
  refine KeepsRes.next ?_
  exact alu_keeps h_1

theorem execAddw_keeps {z : State} {i : Issue} {s : State} (h_1 : Keeps z s) :
    KeepsRes z (execAddw i s) := by
  unfold execAddw
  refine KeepsRes.next ?_
  exact alu_keeps h_1

theorem execXori_keeps {z : State} {i : Issue} {s : State} (h_1 : Keeps z s) :
    KeepsRes z (execXori i s) := by
  unfold execXori
  refine KeepsRes.next ?_
  exact aluImm_keeps h_1

theorem execMinu_keeps {z : State} {i : Issue} {s : State} (h_1 : Keeps z s) :
    KeepsRes z (execMinu i s) := by
  unfold execMinu
  refine KeepsRes.next ?_
  exact alu_keeps h_1

theorem execSrl_keeps {z : State} {i : Issue} {s : State} (h_1 : Keeps z s) :
    KeepsRes z (execSrl i s) := by
  unfold execSrl
  refine KeepsRes.next ?_
  exact alu_keeps h_1

theorem execClz_keeps {z : State} {i : Issue} {s : State} (h_1 : Keeps z s) :
    KeepsRes z (execClz i s) := by
  unfold execClz
  refine KeepsRes.next ?_
  exact alu_keeps h_1

theorem execRor_keeps {z : State} {i : Issue} {s : State} (h_1 : Keeps z s) :
    KeepsRes z (execRor i s) := by
  unfold execRor
  refine KeepsRes.next ?_
  exact alu_keeps h_1

theorem execDivu_keeps {z : State} {i : Issue} {s : State} (h_1 : Keeps z s) :
    KeepsRes z (execDivu i s) := by
  unfold execDivu
  refine KeepsRes.next ?_
  exact alu_keeps h_1

theorem execRems_keeps {z : State} {i : Issue} {s : State} (h_1 : Keeps z s) :
    KeepsRes z (execRems i s) := by
  unfold execRems
  refine KeepsRes.next ?_
  exact alu_keeps h_1

theorem execSltu_keeps {z : State} {i : Issue} {s : State} (h_1 : Keeps z s) :
    KeepsRes z (execSltu i s) := by
  unfold execSltu
  refine KeepsRes.next ?_
  exact alu_keeps h_1

theorem execShi_keeps {z : State} {i : Issue} {s : State} (h_1 : Keeps z s) :
    KeepsRes z (execShi i s) := by
  unfold execShi
  refine KeepsRes.next ?_
  exact aluImm_keeps h_1

theorem execMovw_keeps {z : State} {i : Issue} {s : State} (h_1 : Keeps z s) :
    KeepsRes z (execMovw i s) := by
  unfold execMovw
  refine KeepsRes.next ?_
  apply issueOf_keeps
  · intro v1 v2 h3
    extract_lets x4 x5 x6 x7 x8
    clear_value x4
    clear_value x5
    clear_value x6
    clear_value x7
    clear_value x8
    exact X.next_keeps h3
  · exact h_1

theorem execAddi_keeps {z : State} {i : Issue} {s : State} (h_1 : Keeps z s) :
    KeepsRes z (execAddi i s) := by
  unfold execAddi
  refine KeepsRes.next ?_
  exact aluImm_keeps h_1

theorem execMaxu_keeps {z : State} {i : Issue} {s : State} (h_1 : Keeps z s) :
    KeepsRes z (execMaxu i s) := by
  unfold execMaxu
  refine KeepsRes.next ?_
  exact alu_keeps h_1

theorem execSextw_keeps {z : State} {i : Issue} {s : State} (h_1 : Keeps z s) :
    KeepsRes z (execSextw i s) := by
  unfold execSextw
  refine KeepsRes.next ?_
  exact alu_keeps h_1

theorem execPopc_keeps {z : State} {i : Issue} {s : State} (h_1 : Keeps z s) :
    KeepsRes z (execPopc i s) := by
  unfold execPopc
  refine KeepsRes.next ?_
  exact alu_keeps h_1

theorem execMulhu_keeps {z : State} {i : Issue} {s : State} (h_1 : Keeps z s) :
    KeepsRes z (execMulhu i s) := by
  unfold execMulhu
  refine KeepsRes.next ?_
  exact alu_keeps h_1

theorem execAndi_keeps {z : State} {i : Issue} {s : State} (h_1 : Keeps z s) :
    KeepsRes z (execAndi i s) := by
  unfold execAndi
  refine KeepsRes.next ?_
  exact aluImm_keeps h_1

theorem execMulhs_keeps {z : State} {i : Issue} {s : State} (h_1 : Keeps z s) :
    KeepsRes z (execMulhs i s) := by
  unfold execMulhs
  refine KeepsRes.next ?_
  exact alu_keeps h_1

theorem execRemu_keeps {z : State} {i : Issue} {s : State} (h_1 : Keeps z s) :
    KeepsRes z (execRemu i s) := by
  unfold execRemu
  refine KeepsRes.next ?_
  exact alu_keeps h_1

theorem execMin_keeps {z : State} {i : Issue} {s : State} (h_1 : Keeps z s) :
    KeepsRes z (execMin i s) := by
  unfold execMin
  refine KeepsRes.next ?_
  exact alu_keeps h_1

theorem execSlt_keeps {z : State} {i : Issue} {s : State} (h_1 : Keeps z s) :
    KeepsRes z (execSlt i s) := by
  unfold execSlt
  refine KeepsRes.next ?_
  exact alu_keeps h_1

theorem execSub_keeps {z : State} {i : Issue} {s : State} (h_1 : Keeps z s) :
    KeepsRes z (execSub i s) := by
  unfold execSub
  refine KeepsRes.next ?_
  exact alu_keeps h_1

theorem execOr_keeps {z : State} {i : Issue} {s : State} (h_1 : Keeps z s) :
    KeepsRes z (execOr i s) := by
  unfold execOr
  refine KeepsRes.next ?_
  exact alu_keeps h_1

theorem execSexth_keeps {z : State} {i : Issue} {s : State} (h_1 : Keeps z s) :
    KeepsRes z (execSexth i s) := by
  unfold execSexth
  refine KeepsRes.next ?_
  exact alu_keeps h_1

theorem execMax_keeps {z : State} {i : Issue} {s : State} (h_1 : Keeps z s) :
    KeepsRes z (execMax i s) := by
  unfold execMax
  refine KeepsRes.next ?_
  exact alu_keeps h_1

theorem execSra_keeps {z : State} {i : Issue} {s : State} (h_1 : Keeps z s) :
    KeepsRes z (execSra i s) := by
  unfold execSra
  refine KeepsRes.next ?_
  exact alu_keeps h_1

theorem execMul_keeps {z : State} {i : Issue} {s : State} (h_1 : Keeps z s) :
    KeepsRes z (execMul i s) := by
  unfold execMul
  refine KeepsRes.next ?_
  exact alu_keeps h_1

theorem execSubw_keeps {z : State} {i : Issue} {s : State} (h_1 : Keeps z s) :
    KeepsRes z (execSubw i s) := by
  unfold execSubw
  refine KeepsRes.next ?_
  exact alu_keeps h_1

theorem execOri_keeps {z : State} {i : Issue} {s : State} (h_1 : Keeps z s) :
    KeepsRes z (execOri i s) := by
  unfold execOri
  refine KeepsRes.next ?_
  exact aluImm_keeps h_1

theorem execXor_keeps {z : State} {i : Issue} {s : State} (h_1 : Keeps z s) :
    KeepsRes z (execXor i s) := by
  unfold execXor
  refine KeepsRes.next ?_
  exact alu_keeps h_1

theorem execCtz_keeps {z : State} {i : Issue} {s : State} (h_1 : Keeps z s) :
    KeepsRes z (execCtz i s) := by
  unfold execCtz
  refine KeepsRes.next ?_
  exact alu_keeps h_1

theorem execZextw_keeps {z : State} {i : Issue} {s : State} (h_1 : Keeps z s) :
    KeepsRes z (execZextw i s) := by
  unfold execZextw
  refine KeepsRes.next ?_
  exact alu_keeps h_1

theorem execDivs_keeps {z : State} {i : Issue} {s : State} (h_1 : Keeps z s) :
    KeepsRes z (execDivs i s) := by
  unfold execDivs
  refine KeepsRes.next ?_
  exact alu_keeps h_1

theorem execAnd_keeps {z : State} {i : Issue} {s : State} (h_1 : Keeps z s) :
    KeepsRes z (execAnd i s) := by
  unfold execAnd
  refine KeepsRes.next ?_
  exact alu_keeps h_1

theorem execSextb_keeps {z : State} {i : Issue} {s : State} (h_1 : Keeps z s) :
    KeepsRes z (execSextb i s) := by
  unfold execSextb
  refine KeepsRes.next ?_
  exact alu_keeps h_1

theorem execAdd_keeps {z : State} {i : Issue} {s : State} (h_1 : Keeps z s) :
    KeepsRes z (execAdd i s) := by
  unfold execAdd
  refine KeepsRes.next ?_
  exact alu_keeps h_1

end Sys2Proof.Machine
end

