-- ==== Sys2Proof/Laws/RegWrite.lean ====
section
/-! SUPPORT. What a write of a whole register that is accepted comes to (R780). -/

namespace Sys2Proof.Machine

open Sys2Proof

/-- An accepted write changes its fields, then its register's own steps follow. -/
theorem regWrite_accepts {s : State} {agent : Nat} {r : Reg} {i : Nat} {val : Word} (act : Written → State → State)
    (h : Accepts s agent r i val) :
    s.regWrite agent r i val act = act (writtenAs s agent r i val) (wroteFields s agent r i val) := by
  obtain ⟨h1, h2, h3, h4, h5, h6⟩ := h
  have hp : (inPower (r.off i) && decide (s.f .stageStatus 0 6 1 = 0)) = false := by
    cases hq : inPower (r.off i)
    · rfl
    · simp [h4 hq]
  unfold State.regWrite State.busWrite State.beginWrite
  simp only [h1, h6, h3, h5, hp, h2, decide_false, Bool.not_true, Bool.or_false, Bool.false_eq_true, if_false]
  rfl

/-- Every carried write carries bits 0 to 31. -/
theorem carriedBits_low (r : Reg) {b : Nat} (hb : b < 32) : bitAt (carriedBits r) b = true := by
  unfold carriedBits
  split
  · exact (by decide : ∀ b, b < 32 → bitAt lowMask b = true) b hb
  · exact (by decide : ∀ b, b < 32 → bitAt State.beginWrite.allOnes b = true) b hb

/-- A low bit of an accepted write, as its actions see it. -/
theorem writtenAs_set {s : State} {agent : Nat} {r : Reg} {i : Nat} {val : Word} {b : Nat} (hb : b < 32) :
    (writtenAs s agent r i val).set b = bitAt val b := by
  have h := carriedBits_low r hb
  unfold Written.set writtenAs
  unfold bitAt at h ⊢
  simp_all

/-- A low bit that the write clears. -/
theorem writtenAs_clr {s : State} {agent : Nat} {r : Reg} {i : Nat} {val : Word} {b : Nat} (hb : b < 32) :
    (writtenAs s agent r i val).clr b = !bitAt val b := by
  have h := carriedBits_low r hb
  unfold Written.clr writtenAs
  unfold bitAt at h ⊢
  simp_all

theorem bitAt_or_one (v : Word) : bitAt (v ||| 1) 0 = true := by simp [bitAt]
theorem bitAt_and_not_one (v : Word) : bitAt (v &&& ~~~1) 0 = false := by simp [bitAt]

/-- ENABLE = 1 on a disabled instance without a check asks for one. -/
theorem enableAct_asks {w : Written} {s : State} {block inst : Nat} (hc : checkOf w.reg w.idx = some (block, inst))
    (hw : w.set 0 = true) (h : Asks s w.reg w.idx block inst) : s.enableAct w = s.askCheck block inst (bankOf w.agent) := by
  simp [State.enableAct, hc, hw, h.1, h.2]

/-- ENABLE = 0 on an enabled instance without a check disables it. -/
theorem enableAct_clears {w : Written} {s : State} {block inst : Nat} (hc : checkOf w.reg w.idx = some (block, inst))
    (hw : w.set 0 = false) (hz : w.clr 0 = true) (h : Runs s w.reg w.idx block inst) :
    s.enableAct w = s.disableInst w.reg w.idx := by
  simp [State.enableAct, State.clearEnable, hc, hw, hz, h.1, h.2]

/-- ENABLE = 1 on an enabled instance changes nothing more. -/
theorem enableAct_runs {w : Written} {s : State} {block inst : Nat} (hc : checkOf w.reg w.idx = some (block, inst))
    (hw : w.set 0 = true) (h : s.f w.reg w.idx 0 1 = 1) : s.enableAct w = s := by
  simp [State.enableAct, hc, hw, h]

/-- ENABLE = 0 on a disabled instance without a check changes nothing more. -/
theorem enableAct_idle {w : Written} {s : State} {block inst : Nat} (hc : checkOf w.reg w.idx = some (block, inst))
    (hw : w.set 0 = false) (h : Asks s w.reg w.idx block inst) : s.enableAct w = s := by
  simp [State.enableAct, State.clearEnable, hc, hw, h.1, h.2]

end Sys2Proof.Machine
end

