-- ==== Sys2Proof/Laws/State.lean ====
section
/-! SUPPORT. One lemma per field per update of State: what an update of one field leaves, so that no proof unfolds a
record update. -/

namespace Sys2Proof.Machine

open Sys2Proof

variable (s : State)

@[simp] theorem State.setReg_card (r : Reg) (i : Nat) (v : Word) : (s.setReg r i v).card = s.card := rfl
@[simp] theorem State.setReg_now (r : Reg) (i : Nat) (v : Word) : (s.setReg r i v).now = s.now := rfl
@[simp] theorem State.setReg_pending (r : Reg) (i : Nat) (v : Word) : (s.setReg r i v).pending = s.pending := rfl
@[simp] theorem State.setReg_lows (r : Reg) (i : Nat) (v : Word) : (s.setReg r i v).lows = s.lows := rfl
@[simp] theorem State.setReg_caps (r : Reg) (i : Nat) (v : Word) : (s.setReg r i v).caps = s.caps := rfl
@[simp] theorem State.setReg_mem (r : Reg) (i : Nat) (v : Word) : (s.setReg r i v).mem = s.mem := rfl
@[simp] theorem State.setReg_poison (r : Reg) (i : Nat) (v : Word) : (s.setReg r i v).poison = s.poison := rfl
@[simp] theorem State.setReg_dpoison (r : Reg) (i : Nat) (v : Word) : (s.setReg r i v).dpoison = s.dpoison := rfl
@[simp] theorem State.setReg_full (r : Reg) (i : Nat) (v : Word) : (s.setReg r i v).full = s.full := rfl
@[simp] theorem State.setReg_dbase (r : Reg) (i : Nat) (v : Word) : (s.setReg r i v).dbase = s.dbase := rfl
@[simp] theorem State.setReg_free (r : Reg) (i : Nat) (v : Word) : (s.setReg r i v).free = s.free := rfl
@[simp] theorem State.setReg_out (r : Reg) (i : Nat) (v : Word) : (s.setReg r i v).out = s.out := rfl
@[simp] theorem State.setReg_ras (r : Reg) (i : Nat) (v : Word) : (s.setReg r i v).ras = s.ras := rfl
@[simp] theorem State.setReg_stage (r : Reg) (i : Nat) (v : Word) : (s.setReg r i v).stage = s.stage := rfl
@[simp] theorem State.setReg_link (r : Reg) (i : Nat) (v : Word) : (s.setReg r i v).link = s.link := rfl
@[simp] theorem State.setReg_dcoh (r : Reg) (i : Nat) (v : Word) : (s.setReg r i v).dcoh = s.dcoh := rfl
@[simp] theorem State.setReg_gb (r : Reg) (i : Nat) (v : Word) : (s.setReg r i v).gb = s.gb := rfl
@[simp] theorem State.setReg_tack (r : Reg) (i : Nat) (v : Word) : (s.setReg r i v).tack = s.tack := rfl
@[simp] theorem State.setReg_q (r : Reg) (i : Nat) (v : Word) : (s.setReg r i v).q = s.q := rfl
@[simp] theorem State.setReg_kv (r : Reg) (i : Nat) (v : Word) : (s.setReg r i v).kv = s.kv := rfl
@[simp] theorem State.setReg_bridle (r : Reg) (i : Nat) (v : Word) : (s.setReg r i v).bridle = s.bridle := rfl
@[simp] theorem State.setReg_scrub (r : Reg) (i : Nat) (v : Word) : (s.setReg r i v).scrub = s.scrub := rfl
@[simp] theorem State.setReg_pw (r : Reg) (i : Nat) (v : Word) : (s.setReg r i v).pw = s.pw := rfl
@[simp] theorem State.setReg_mgmt (r : Reg) (i : Nat) (v : Word) : (s.setReg r i v).mgmt = s.mgmt := rfl
@[simp] theorem State.setReg_cx (r : Reg) (i : Nat) (v : Word) : (s.setReg r i v).cx = s.cx := rfl
@[simp] theorem State.setReg_rdByte (r : Reg) (i : Nat) (v : Word) (a1 : Nat) : (s.setReg r i v).rdByte a1 = s.rdByte a1 := rfl
@[simp] theorem State.setReg_tagAt (r : Reg) (i : Nat) (v : Word) (a1 : Nat) : (s.setReg r i v).tagAt a1 = s.tagAt a1 := rfl
@[simp] theorem State.setReg_poisonAt (r : Reg) (i : Nat) (v : Word) (a1 : Nat) : (s.setReg r i v).poisonAt a1 = s.poisonAt a1 := rfl

@[simp] theorem State.setRegB_card (r : Reg) (b : Nat) (v : Word) : (s.setRegB r b v).card = s.card := rfl
@[simp] theorem State.setRegB_now (r : Reg) (b : Nat) (v : Word) : (s.setRegB r b v).now = s.now := rfl
@[simp] theorem State.setRegB_pending (r : Reg) (b : Nat) (v : Word) : (s.setRegB r b v).pending = s.pending := rfl
@[simp] theorem State.setRegB_lows (r : Reg) (b : Nat) (v : Word) : (s.setRegB r b v).lows = s.lows := rfl
@[simp] theorem State.setRegB_caps (r : Reg) (b : Nat) (v : Word) : (s.setRegB r b v).caps = s.caps := rfl
@[simp] theorem State.setRegB_mem (r : Reg) (b : Nat) (v : Word) : (s.setRegB r b v).mem = s.mem := rfl
@[simp] theorem State.setRegB_poison (r : Reg) (b : Nat) (v : Word) : (s.setRegB r b v).poison = s.poison := rfl
@[simp] theorem State.setRegB_dpoison (r : Reg) (b : Nat) (v : Word) : (s.setRegB r b v).dpoison = s.dpoison := rfl
@[simp] theorem State.setRegB_full (r : Reg) (b : Nat) (v : Word) : (s.setRegB r b v).full = s.full := rfl
@[simp] theorem State.setRegB_dbase (r : Reg) (b : Nat) (v : Word) : (s.setRegB r b v).dbase = s.dbase := rfl
@[simp] theorem State.setRegB_free (r : Reg) (b : Nat) (v : Word) : (s.setRegB r b v).free = s.free := rfl
@[simp] theorem State.setRegB_out (r : Reg) (b : Nat) (v : Word) : (s.setRegB r b v).out = s.out := rfl
@[simp] theorem State.setRegB_ras (r : Reg) (b : Nat) (v : Word) : (s.setRegB r b v).ras = s.ras := rfl
@[simp] theorem State.setRegB_stage (r : Reg) (b : Nat) (v : Word) : (s.setRegB r b v).stage = s.stage := rfl
@[simp] theorem State.setRegB_link (r : Reg) (b : Nat) (v : Word) : (s.setRegB r b v).link = s.link := rfl
@[simp] theorem State.setRegB_dcoh (r : Reg) (b : Nat) (v : Word) : (s.setRegB r b v).dcoh = s.dcoh := rfl
@[simp] theorem State.setRegB_gb (r : Reg) (b : Nat) (v : Word) : (s.setRegB r b v).gb = s.gb := rfl
@[simp] theorem State.setRegB_tack (r : Reg) (b : Nat) (v : Word) : (s.setRegB r b v).tack = s.tack := rfl
@[simp] theorem State.setRegB_q (r : Reg) (b : Nat) (v : Word) : (s.setRegB r b v).q = s.q := rfl
@[simp] theorem State.setRegB_kv (r : Reg) (b : Nat) (v : Word) : (s.setRegB r b v).kv = s.kv := rfl
@[simp] theorem State.setRegB_bridle (r : Reg) (b : Nat) (v : Word) : (s.setRegB r b v).bridle = s.bridle := rfl
@[simp] theorem State.setRegB_scrub (r : Reg) (b : Nat) (v : Word) : (s.setRegB r b v).scrub = s.scrub := rfl
@[simp] theorem State.setRegB_pw (r : Reg) (b : Nat) (v : Word) : (s.setRegB r b v).pw = s.pw := rfl
@[simp] theorem State.setRegB_mgmt (r : Reg) (b : Nat) (v : Word) : (s.setRegB r b v).mgmt = s.mgmt := rfl
@[simp] theorem State.setRegB_cx (r : Reg) (b : Nat) (v : Word) : (s.setRegB r b v).cx = s.cx := rfl
@[simp] theorem State.setRegB_rdByte (r : Reg) (b : Nat) (v : Word) (a1 : Nat) : (s.setRegB r b v).rdByte a1 = s.rdByte a1 := rfl
@[simp] theorem State.setRegB_tagAt (r : Reg) (b : Nat) (v : Word) (a1 : Nat) : (s.setRegB r b v).tagAt a1 = s.tagAt a1 := rfl
@[simp] theorem State.setRegB_poisonAt (r : Reg) (b : Nat) (v : Word) (a1 : Nat) : (s.setRegB r b v).poisonAt a1 = s.poisonAt a1 := rfl

@[simp] theorem State.setF_card (r : Reg) (i lo n v : Nat) : (s.setF r i lo n v).card = s.card := rfl
@[simp] theorem State.setF_now (r : Reg) (i lo n v : Nat) : (s.setF r i lo n v).now = s.now := rfl
@[simp] theorem State.setF_pending (r : Reg) (i lo n v : Nat) : (s.setF r i lo n v).pending = s.pending := rfl
@[simp] theorem State.setF_lows (r : Reg) (i lo n v : Nat) : (s.setF r i lo n v).lows = s.lows := rfl
@[simp] theorem State.setF_caps (r : Reg) (i lo n v : Nat) : (s.setF r i lo n v).caps = s.caps := rfl
@[simp] theorem State.setF_mem (r : Reg) (i lo n v : Nat) : (s.setF r i lo n v).mem = s.mem := rfl
@[simp] theorem State.setF_poison (r : Reg) (i lo n v : Nat) : (s.setF r i lo n v).poison = s.poison := rfl
@[simp] theorem State.setF_dpoison (r : Reg) (i lo n v : Nat) : (s.setF r i lo n v).dpoison = s.dpoison := rfl
@[simp] theorem State.setF_full (r : Reg) (i lo n v : Nat) : (s.setF r i lo n v).full = s.full := rfl
@[simp] theorem State.setF_dbase (r : Reg) (i lo n v : Nat) : (s.setF r i lo n v).dbase = s.dbase := rfl
@[simp] theorem State.setF_free (r : Reg) (i lo n v : Nat) : (s.setF r i lo n v).free = s.free := rfl
@[simp] theorem State.setF_out (r : Reg) (i lo n v : Nat) : (s.setF r i lo n v).out = s.out := rfl
@[simp] theorem State.setF_ras (r : Reg) (i lo n v : Nat) : (s.setF r i lo n v).ras = s.ras := rfl
@[simp] theorem State.setF_stage (r : Reg) (i lo n v : Nat) : (s.setF r i lo n v).stage = s.stage := rfl
@[simp] theorem State.setF_link (r : Reg) (i lo n v : Nat) : (s.setF r i lo n v).link = s.link := rfl
@[simp] theorem State.setF_dcoh (r : Reg) (i lo n v : Nat) : (s.setF r i lo n v).dcoh = s.dcoh := rfl
@[simp] theorem State.setF_gb (r : Reg) (i lo n v : Nat) : (s.setF r i lo n v).gb = s.gb := rfl
@[simp] theorem State.setF_tack (r : Reg) (i lo n v : Nat) : (s.setF r i lo n v).tack = s.tack := rfl
@[simp] theorem State.setF_q (r : Reg) (i lo n v : Nat) : (s.setF r i lo n v).q = s.q := rfl
@[simp] theorem State.setF_kv (r : Reg) (i lo n v : Nat) : (s.setF r i lo n v).kv = s.kv := rfl
@[simp] theorem State.setF_bridle (r : Reg) (i lo n v : Nat) : (s.setF r i lo n v).bridle = s.bridle := rfl
@[simp] theorem State.setF_scrub (r : Reg) (i lo n v : Nat) : (s.setF r i lo n v).scrub = s.scrub := rfl
@[simp] theorem State.setF_pw (r : Reg) (i lo n v : Nat) : (s.setF r i lo n v).pw = s.pw := rfl
@[simp] theorem State.setF_mgmt (r : Reg) (i lo n v : Nat) : (s.setF r i lo n v).mgmt = s.mgmt := rfl
@[simp] theorem State.setF_cx (r : Reg) (i lo n v : Nat) : (s.setF r i lo n v).cx = s.cx := rfl
@[simp] theorem State.setF_rdByte (r : Reg) (i lo n v : Nat) (a1 : Nat) : (s.setF r i lo n v).rdByte a1 = s.rdByte a1 := rfl
@[simp] theorem State.setF_tagAt (r : Reg) (i lo n v : Nat) (a1 : Nat) : (s.setF r i lo n v).tagAt a1 = s.tagAt a1 := rfl
@[simp] theorem State.setF_poisonAt (r : Reg) (i lo n v : Nat) (a1 : Nat) : (s.setF r i lo n v).poisonAt a1 = s.poisonAt a1 := rfl

@[simp] theorem State.addF_card (r : Reg) (i lo n v : Nat) : (s.addF r i lo n v).card = s.card := rfl
@[simp] theorem State.addF_now (r : Reg) (i lo n v : Nat) : (s.addF r i lo n v).now = s.now := rfl
@[simp] theorem State.addF_pending (r : Reg) (i lo n v : Nat) : (s.addF r i lo n v).pending = s.pending := rfl
@[simp] theorem State.addF_lows (r : Reg) (i lo n v : Nat) : (s.addF r i lo n v).lows = s.lows := rfl
@[simp] theorem State.addF_caps (r : Reg) (i lo n v : Nat) : (s.addF r i lo n v).caps = s.caps := rfl
@[simp] theorem State.addF_mem (r : Reg) (i lo n v : Nat) : (s.addF r i lo n v).mem = s.mem := rfl
@[simp] theorem State.addF_poison (r : Reg) (i lo n v : Nat) : (s.addF r i lo n v).poison = s.poison := rfl
@[simp] theorem State.addF_dpoison (r : Reg) (i lo n v : Nat) : (s.addF r i lo n v).dpoison = s.dpoison := rfl
@[simp] theorem State.addF_full (r : Reg) (i lo n v : Nat) : (s.addF r i lo n v).full = s.full := rfl
@[simp] theorem State.addF_dbase (r : Reg) (i lo n v : Nat) : (s.addF r i lo n v).dbase = s.dbase := rfl
@[simp] theorem State.addF_free (r : Reg) (i lo n v : Nat) : (s.addF r i lo n v).free = s.free := rfl
@[simp] theorem State.addF_out (r : Reg) (i lo n v : Nat) : (s.addF r i lo n v).out = s.out := rfl
@[simp] theorem State.addF_ras (r : Reg) (i lo n v : Nat) : (s.addF r i lo n v).ras = s.ras := rfl
@[simp] theorem State.addF_stage (r : Reg) (i lo n v : Nat) : (s.addF r i lo n v).stage = s.stage := rfl
@[simp] theorem State.addF_link (r : Reg) (i lo n v : Nat) : (s.addF r i lo n v).link = s.link := rfl
@[simp] theorem State.addF_dcoh (r : Reg) (i lo n v : Nat) : (s.addF r i lo n v).dcoh = s.dcoh := rfl
@[simp] theorem State.addF_gb (r : Reg) (i lo n v : Nat) : (s.addF r i lo n v).gb = s.gb := rfl
@[simp] theorem State.addF_tack (r : Reg) (i lo n v : Nat) : (s.addF r i lo n v).tack = s.tack := rfl
@[simp] theorem State.addF_q (r : Reg) (i lo n v : Nat) : (s.addF r i lo n v).q = s.q := rfl
@[simp] theorem State.addF_kv (r : Reg) (i lo n v : Nat) : (s.addF r i lo n v).kv = s.kv := rfl
@[simp] theorem State.addF_bridle (r : Reg) (i lo n v : Nat) : (s.addF r i lo n v).bridle = s.bridle := rfl
@[simp] theorem State.addF_scrub (r : Reg) (i lo n v : Nat) : (s.addF r i lo n v).scrub = s.scrub := rfl
@[simp] theorem State.addF_pw (r : Reg) (i lo n v : Nat) : (s.addF r i lo n v).pw = s.pw := rfl
@[simp] theorem State.addF_mgmt (r : Reg) (i lo n v : Nat) : (s.addF r i lo n v).mgmt = s.mgmt := rfl
@[simp] theorem State.addF_cx (r : Reg) (i lo n v : Nat) : (s.addF r i lo n v).cx = s.cx := rfl
@[simp] theorem State.addF_rdByte (r : Reg) (i lo n v : Nat) (a1 : Nat) : (s.addF r i lo n v).rdByte a1 = s.rdByte a1 := rfl
@[simp] theorem State.addF_tagAt (r : Reg) (i lo n v : Nat) (a1 : Nat) : (s.addF r i lo n v).tagAt a1 = s.tagAt a1 := rfl
@[simp] theorem State.addF_poisonAt (r : Reg) (i lo n v : Nat) (a1 : Nat) : (s.addF r i lo n v).poisonAt a1 = s.poisonAt a1 := rfl

@[simp] theorem State.emit_card (o : Out) : (s.emit o).card = s.card := rfl
@[simp] theorem State.emit_now (o : Out) : (s.emit o).now = s.now := rfl
@[simp] theorem State.emit_pending (o : Out) : (s.emit o).pending = s.pending := rfl
@[simp] theorem State.emit_regs (o : Out) : (s.emit o).regs = s.regs := rfl
@[simp] theorem State.emit_lows (o : Out) : (s.emit o).lows = s.lows := rfl
@[simp] theorem State.emit_caps (o : Out) : (s.emit o).caps = s.caps := rfl
@[simp] theorem State.emit_mem (o : Out) : (s.emit o).mem = s.mem := rfl
@[simp] theorem State.emit_poison (o : Out) : (s.emit o).poison = s.poison := rfl
@[simp] theorem State.emit_dpoison (o : Out) : (s.emit o).dpoison = s.dpoison := rfl
@[simp] theorem State.emit_full (o : Out) : (s.emit o).full = s.full := rfl
@[simp] theorem State.emit_dbase (o : Out) : (s.emit o).dbase = s.dbase := rfl
@[simp] theorem State.emit_free (o : Out) : (s.emit o).free = s.free := rfl
@[simp] theorem State.emit_ras (o : Out) : (s.emit o).ras = s.ras := rfl
@[simp] theorem State.emit_stage (o : Out) : (s.emit o).stage = s.stage := rfl
@[simp] theorem State.emit_link (o : Out) : (s.emit o).link = s.link := rfl
@[simp] theorem State.emit_dcoh (o : Out) : (s.emit o).dcoh = s.dcoh := rfl
@[simp] theorem State.emit_gb (o : Out) : (s.emit o).gb = s.gb := rfl
@[simp] theorem State.emit_tack (o : Out) : (s.emit o).tack = s.tack := rfl
@[simp] theorem State.emit_q (o : Out) : (s.emit o).q = s.q := rfl
@[simp] theorem State.emit_kv (o : Out) : (s.emit o).kv = s.kv := rfl
@[simp] theorem State.emit_bridle (o : Out) : (s.emit o).bridle = s.bridle := rfl
@[simp] theorem State.emit_scrub (o : Out) : (s.emit o).scrub = s.scrub := rfl
@[simp] theorem State.emit_pw (o : Out) : (s.emit o).pw = s.pw := rfl
@[simp] theorem State.emit_mgmt (o : Out) : (s.emit o).mgmt = s.mgmt := rfl
@[simp] theorem State.emit_cx (o : Out) : (s.emit o).cx = s.cx := rfl
@[simp] theorem State.emit_reg (o : Out) (r1 : Reg) (i1 : Nat) : (s.emit o).reg r1 i1 = s.reg r1 i1 := rfl
@[simp] theorem State.emit_f (o : Out) (r1 : Reg) (i1 lo1 n1 : Nat) : (s.emit o).f r1 i1 lo1 n1 = s.f r1 i1 lo1 n1 := rfl
@[simp] theorem State.emit_rdByte (o : Out) (a1 : Nat) : (s.emit o).rdByte a1 = s.rdByte a1 := rfl
@[simp] theorem State.emit_tagAt (o : Out) (a1 : Nat) : (s.emit o).tagAt a1 = s.tagAt a1 := rfl
@[simp] theorem State.emit_poisonAt (o : Out) (a1 : Nat) : (s.emit o).poisonAt a1 = s.poisonAt a1 := rfl

@[simp] theorem State.wrByte_card (a : Nat) (v : Byte) : (s.wrByte a v).card = s.card := rfl
@[simp] theorem State.wrByte_now (a : Nat) (v : Byte) : (s.wrByte a v).now = s.now := rfl
@[simp] theorem State.wrByte_pending (a : Nat) (v : Byte) : (s.wrByte a v).pending = s.pending := rfl
@[simp] theorem State.wrByte_regs (a : Nat) (v : Byte) : (s.wrByte a v).regs = s.regs := rfl
@[simp] theorem State.wrByte_lows (a : Nat) (v : Byte) : (s.wrByte a v).lows = s.lows := rfl
@[simp] theorem State.wrByte_caps (a : Nat) (v : Byte) : (s.wrByte a v).caps = s.caps := rfl
@[simp] theorem State.wrByte_poison (a : Nat) (v : Byte) : (s.wrByte a v).poison = s.poison := rfl
@[simp] theorem State.wrByte_dpoison (a : Nat) (v : Byte) : (s.wrByte a v).dpoison = s.dpoison := rfl
@[simp] theorem State.wrByte_full (a : Nat) (v : Byte) : (s.wrByte a v).full = s.full := rfl
@[simp] theorem State.wrByte_dbase (a : Nat) (v : Byte) : (s.wrByte a v).dbase = s.dbase := rfl
@[simp] theorem State.wrByte_free (a : Nat) (v : Byte) : (s.wrByte a v).free = s.free := rfl
@[simp] theorem State.wrByte_out (a : Nat) (v : Byte) : (s.wrByte a v).out = s.out := rfl
@[simp] theorem State.wrByte_ras (a : Nat) (v : Byte) : (s.wrByte a v).ras = s.ras := rfl
@[simp] theorem State.wrByte_stage (a : Nat) (v : Byte) : (s.wrByte a v).stage = s.stage := rfl
@[simp] theorem State.wrByte_link (a : Nat) (v : Byte) : (s.wrByte a v).link = s.link := rfl
@[simp] theorem State.wrByte_dcoh (a : Nat) (v : Byte) : (s.wrByte a v).dcoh = s.dcoh := rfl
@[simp] theorem State.wrByte_gb (a : Nat) (v : Byte) : (s.wrByte a v).gb = s.gb := rfl
@[simp] theorem State.wrByte_tack (a : Nat) (v : Byte) : (s.wrByte a v).tack = s.tack := rfl
@[simp] theorem State.wrByte_q (a : Nat) (v : Byte) : (s.wrByte a v).q = s.q := rfl
@[simp] theorem State.wrByte_kv (a : Nat) (v : Byte) : (s.wrByte a v).kv = s.kv := rfl
@[simp] theorem State.wrByte_bridle (a : Nat) (v : Byte) : (s.wrByte a v).bridle = s.bridle := rfl
@[simp] theorem State.wrByte_scrub (a : Nat) (v : Byte) : (s.wrByte a v).scrub = s.scrub := rfl
@[simp] theorem State.wrByte_pw (a : Nat) (v : Byte) : (s.wrByte a v).pw = s.pw := rfl
@[simp] theorem State.wrByte_mgmt (a : Nat) (v : Byte) : (s.wrByte a v).mgmt = s.mgmt := rfl
@[simp] theorem State.wrByte_cx (a : Nat) (v : Byte) : (s.wrByte a v).cx = s.cx := rfl
@[simp] theorem State.wrByte_reg (a : Nat) (v : Byte) (r1 : Reg) (i1 : Nat) : (s.wrByte a v).reg r1 i1 = s.reg r1 i1 := rfl
@[simp] theorem State.wrByte_f (a : Nat) (v : Byte) (r1 : Reg) (i1 lo1 n1 : Nat) : (s.wrByte a v).f r1 i1 lo1 n1 = s.f r1 i1 lo1 n1 := rfl
@[simp] theorem State.wrByte_tagAt (a : Nat) (v : Byte) (a1 : Nat) : (s.wrByte a v).tagAt a1 = s.tagAt a1 := rfl
@[simp] theorem State.wrByte_poisonAt (a : Nat) (v : Byte) (a1 : Nat) : (s.wrByte a v).poisonAt a1 = s.poisonAt a1 := rfl

@[simp] theorem State.setTag_card (a : Nat) (b : Bool) : (s.setTag a b).card = s.card := rfl
@[simp] theorem State.setTag_now (a : Nat) (b : Bool) : (s.setTag a b).now = s.now := rfl
@[simp] theorem State.setTag_pending (a : Nat) (b : Bool) : (s.setTag a b).pending = s.pending := rfl
@[simp] theorem State.setTag_regs (a : Nat) (b : Bool) : (s.setTag a b).regs = s.regs := rfl
@[simp] theorem State.setTag_lows (a : Nat) (b : Bool) : (s.setTag a b).lows = s.lows := rfl
@[simp] theorem State.setTag_caps (a : Nat) (b : Bool) : (s.setTag a b).caps = s.caps := rfl
@[simp] theorem State.setTag_mem (a : Nat) (b : Bool) : (s.setTag a b).mem = s.mem := rfl
@[simp] theorem State.setTag_poison (a : Nat) (b : Bool) : (s.setTag a b).poison = s.poison := rfl
@[simp] theorem State.setTag_dpoison (a : Nat) (b : Bool) : (s.setTag a b).dpoison = s.dpoison := rfl
@[simp] theorem State.setTag_dbase (a : Nat) (b : Bool) : (s.setTag a b).dbase = s.dbase := rfl
@[simp] theorem State.setTag_free (a : Nat) (b : Bool) : (s.setTag a b).free = s.free := rfl
@[simp] theorem State.setTag_out (a : Nat) (b : Bool) : (s.setTag a b).out = s.out := rfl
@[simp] theorem State.setTag_ras (a : Nat) (b : Bool) : (s.setTag a b).ras = s.ras := rfl
@[simp] theorem State.setTag_stage (a : Nat) (b : Bool) : (s.setTag a b).stage = s.stage := rfl
@[simp] theorem State.setTag_link (a : Nat) (b : Bool) : (s.setTag a b).link = s.link := rfl
@[simp] theorem State.setTag_dcoh (a : Nat) (b : Bool) : (s.setTag a b).dcoh = s.dcoh := rfl
@[simp] theorem State.setTag_gb (a : Nat) (b : Bool) : (s.setTag a b).gb = s.gb := rfl
@[simp] theorem State.setTag_tack (a : Nat) (b : Bool) : (s.setTag a b).tack = s.tack := rfl
@[simp] theorem State.setTag_q (a : Nat) (b : Bool) : (s.setTag a b).q = s.q := rfl
@[simp] theorem State.setTag_kv (a : Nat) (b : Bool) : (s.setTag a b).kv = s.kv := rfl
@[simp] theorem State.setTag_bridle (a : Nat) (b : Bool) : (s.setTag a b).bridle = s.bridle := rfl
@[simp] theorem State.setTag_scrub (a : Nat) (b : Bool) : (s.setTag a b).scrub = s.scrub := rfl
@[simp] theorem State.setTag_pw (a : Nat) (b : Bool) : (s.setTag a b).pw = s.pw := rfl
@[simp] theorem State.setTag_mgmt (a : Nat) (b : Bool) : (s.setTag a b).mgmt = s.mgmt := rfl
@[simp] theorem State.setTag_cx (a : Nat) (b : Bool) : (s.setTag a b).cx = s.cx := rfl
@[simp] theorem State.setTag_reg (a : Nat) (b : Bool) (r1 : Reg) (i1 : Nat) : (s.setTag a b).reg r1 i1 = s.reg r1 i1 := rfl
@[simp] theorem State.setTag_f (a : Nat) (b : Bool) (r1 : Reg) (i1 lo1 n1 : Nat) : (s.setTag a b).f r1 i1 lo1 n1 = s.f r1 i1 lo1 n1 := rfl
@[simp] theorem State.setTag_rdByte (a : Nat) (b : Bool) (a1 : Nat) : (s.setTag a b).rdByte a1 = s.rdByte a1 := rfl
@[simp] theorem State.setTag_poisonAt (a : Nat) (b : Bool) (a1 : Nat) : (s.setTag a b).poisonAt a1 = s.poisonAt a1 := rfl

@[simp] theorem State.setMbox_card (r : Nat) (m : Mailbox) : (s.setMbox r m).card = s.card := rfl
@[simp] theorem State.setMbox_now (r : Nat) (m : Mailbox) : (s.setMbox r m).now = s.now := rfl
@[simp] theorem State.setMbox_pending (r : Nat) (m : Mailbox) : (s.setMbox r m).pending = s.pending := rfl
@[simp] theorem State.setMbox_regs (r : Nat) (m : Mailbox) : (s.setMbox r m).regs = s.regs := rfl
@[simp] theorem State.setMbox_lows (r : Nat) (m : Mailbox) : (s.setMbox r m).lows = s.lows := rfl
@[simp] theorem State.setMbox_caps (r : Nat) (m : Mailbox) : (s.setMbox r m).caps = s.caps := rfl
@[simp] theorem State.setMbox_mem (r : Nat) (m : Mailbox) : (s.setMbox r m).mem = s.mem := rfl
@[simp] theorem State.setMbox_poison (r : Nat) (m : Mailbox) : (s.setMbox r m).poison = s.poison := rfl
@[simp] theorem State.setMbox_dpoison (r : Nat) (m : Mailbox) : (s.setMbox r m).dpoison = s.dpoison := rfl
@[simp] theorem State.setMbox_full (r : Nat) (m : Mailbox) : (s.setMbox r m).full = s.full := rfl
@[simp] theorem State.setMbox_dbase (r : Nat) (m : Mailbox) : (s.setMbox r m).dbase = s.dbase := rfl
@[simp] theorem State.setMbox_free (r : Nat) (m : Mailbox) : (s.setMbox r m).free = s.free := rfl
@[simp] theorem State.setMbox_out (r : Nat) (m : Mailbox) : (s.setMbox r m).out = s.out := rfl
@[simp] theorem State.setMbox_ras (r : Nat) (m : Mailbox) : (s.setMbox r m).ras = s.ras := rfl
@[simp] theorem State.setMbox_stage (r : Nat) (m : Mailbox) : (s.setMbox r m).stage = s.stage := rfl
@[simp] theorem State.setMbox_dcoh (r : Nat) (m : Mailbox) : (s.setMbox r m).dcoh = s.dcoh := rfl
@[simp] theorem State.setMbox_gb (r : Nat) (m : Mailbox) : (s.setMbox r m).gb = s.gb := rfl
@[simp] theorem State.setMbox_tack (r : Nat) (m : Mailbox) : (s.setMbox r m).tack = s.tack := rfl
@[simp] theorem State.setMbox_q (r : Nat) (m : Mailbox) : (s.setMbox r m).q = s.q := rfl
@[simp] theorem State.setMbox_kv (r : Nat) (m : Mailbox) : (s.setMbox r m).kv = s.kv := rfl
@[simp] theorem State.setMbox_bridle (r : Nat) (m : Mailbox) : (s.setMbox r m).bridle = s.bridle := rfl
@[simp] theorem State.setMbox_scrub (r : Nat) (m : Mailbox) : (s.setMbox r m).scrub = s.scrub := rfl
@[simp] theorem State.setMbox_pw (r : Nat) (m : Mailbox) : (s.setMbox r m).pw = s.pw := rfl
@[simp] theorem State.setMbox_mgmt (r : Nat) (m : Mailbox) : (s.setMbox r m).mgmt = s.mgmt := rfl
@[simp] theorem State.setMbox_cx (r : Nat) (m : Mailbox) : (s.setMbox r m).cx = s.cx := rfl
@[simp] theorem State.setMbox_reg (r : Nat) (m : Mailbox) (r1 : Reg) (i1 : Nat) : (s.setMbox r m).reg r1 i1 = s.reg r1 i1 := rfl
@[simp] theorem State.setMbox_f (r : Nat) (m : Mailbox) (r1 : Reg) (i1 lo1 n1 : Nat) : (s.setMbox r m).f r1 i1 lo1 n1 = s.f r1 i1 lo1 n1 := rfl
@[simp] theorem State.setMbox_rdByte (r : Nat) (m : Mailbox) (a1 : Nat) : (s.setMbox r m).rdByte a1 = s.rdByte a1 := rfl
@[simp] theorem State.setMbox_tagAt (r : Nat) (m : Mailbox) (a1 : Nat) : (s.setMbox r m).tagAt a1 = s.tagAt a1 := rfl
@[simp] theorem State.setMbox_poisonAt (r : Nat) (m : Mailbox) (a1 : Nat) : (s.setMbox r m).poisonAt a1 = s.poisonAt a1 := rfl

@[simp] theorem State.notBefore_card (t : Nat) : (s.notBefore t).card = s.card := rfl
@[simp] theorem State.notBefore_pending (t : Nat) : (s.notBefore t).pending = s.pending := rfl
@[simp] theorem State.notBefore_regs (t : Nat) : (s.notBefore t).regs = s.regs := rfl
@[simp] theorem State.notBefore_lows (t : Nat) : (s.notBefore t).lows = s.lows := rfl
@[simp] theorem State.notBefore_caps (t : Nat) : (s.notBefore t).caps = s.caps := rfl
@[simp] theorem State.notBefore_mem (t : Nat) : (s.notBefore t).mem = s.mem := rfl
@[simp] theorem State.notBefore_poison (t : Nat) : (s.notBefore t).poison = s.poison := rfl
@[simp] theorem State.notBefore_dpoison (t : Nat) : (s.notBefore t).dpoison = s.dpoison := rfl
@[simp] theorem State.notBefore_full (t : Nat) : (s.notBefore t).full = s.full := rfl
@[simp] theorem State.notBefore_dbase (t : Nat) : (s.notBefore t).dbase = s.dbase := rfl
@[simp] theorem State.notBefore_free (t : Nat) : (s.notBefore t).free = s.free := rfl
@[simp] theorem State.notBefore_out (t : Nat) : (s.notBefore t).out = s.out := rfl
@[simp] theorem State.notBefore_ras (t : Nat) : (s.notBefore t).ras = s.ras := rfl
@[simp] theorem State.notBefore_stage (t : Nat) : (s.notBefore t).stage = s.stage := rfl
@[simp] theorem State.notBefore_link (t : Nat) : (s.notBefore t).link = s.link := rfl
@[simp] theorem State.notBefore_dcoh (t : Nat) : (s.notBefore t).dcoh = s.dcoh := rfl
@[simp] theorem State.notBefore_gb (t : Nat) : (s.notBefore t).gb = s.gb := rfl
@[simp] theorem State.notBefore_tack (t : Nat) : (s.notBefore t).tack = s.tack := rfl
@[simp] theorem State.notBefore_q (t : Nat) : (s.notBefore t).q = s.q := rfl
@[simp] theorem State.notBefore_kv (t : Nat) : (s.notBefore t).kv = s.kv := rfl
@[simp] theorem State.notBefore_bridle (t : Nat) : (s.notBefore t).bridle = s.bridle := rfl
@[simp] theorem State.notBefore_scrub (t : Nat) : (s.notBefore t).scrub = s.scrub := rfl
@[simp] theorem State.notBefore_pw (t : Nat) : (s.notBefore t).pw = s.pw := rfl
@[simp] theorem State.notBefore_mgmt (t : Nat) : (s.notBefore t).mgmt = s.mgmt := rfl
@[simp] theorem State.notBefore_cx (t : Nat) : (s.notBefore t).cx = s.cx := rfl
@[simp] theorem State.notBefore_reg (t : Nat) (r1 : Reg) (i1 : Nat) : (s.notBefore t).reg r1 i1 = s.reg r1 i1 := rfl
@[simp] theorem State.notBefore_f (t : Nat) (r1 : Reg) (i1 lo1 n1 : Nat) : (s.notBefore t).f r1 i1 lo1 n1 = s.f r1 i1 lo1 n1 := rfl
@[simp] theorem State.notBefore_rdByte (t : Nat) (a1 : Nat) : (s.notBefore t).rdByte a1 = s.rdByte a1 := rfl
@[simp] theorem State.notBefore_tagAt (t : Nat) (a1 : Nat) : (s.notBefore t).tagAt a1 = s.tagAt a1 := rfl
@[simp] theorem State.notBefore_poisonAt (t : Nat) (a1 : Nat) : (s.notBefore t).poisonAt a1 = s.poisonAt a1 := rfl

@[simp] theorem State.setCore_card (c : Nat) (k : ShuzoCore) : (s.setCore c k).card = s.card := rfl
@[simp] theorem State.setCore_now (c : Nat) (k : ShuzoCore) : (s.setCore c k).now = s.now := rfl
@[simp] theorem State.setCore_pending (c : Nat) (k : ShuzoCore) : (s.setCore c k).pending = s.pending := rfl
@[simp] theorem State.setCore_regs (c : Nat) (k : ShuzoCore) : (s.setCore c k).regs = s.regs := rfl
@[simp] theorem State.setCore_lows (c : Nat) (k : ShuzoCore) : (s.setCore c k).lows = s.lows := rfl
@[simp] theorem State.setCore_caps (c : Nat) (k : ShuzoCore) : (s.setCore c k).caps = s.caps := rfl
@[simp] theorem State.setCore_mem (c : Nat) (k : ShuzoCore) : (s.setCore c k).mem = s.mem := rfl
@[simp] theorem State.setCore_poison (c : Nat) (k : ShuzoCore) : (s.setCore c k).poison = s.poison := rfl
@[simp] theorem State.setCore_dpoison (c : Nat) (k : ShuzoCore) : (s.setCore c k).dpoison = s.dpoison := rfl
@[simp] theorem State.setCore_full (c : Nat) (k : ShuzoCore) : (s.setCore c k).full = s.full := rfl
@[simp] theorem State.setCore_dbase (c : Nat) (k : ShuzoCore) : (s.setCore c k).dbase = s.dbase := rfl
@[simp] theorem State.setCore_free (c : Nat) (k : ShuzoCore) : (s.setCore c k).free = s.free := rfl
@[simp] theorem State.setCore_out (c : Nat) (k : ShuzoCore) : (s.setCore c k).out = s.out := rfl
@[simp] theorem State.setCore_ras (c : Nat) (k : ShuzoCore) : (s.setCore c k).ras = s.ras := rfl
@[simp] theorem State.setCore_stage (c : Nat) (k : ShuzoCore) : (s.setCore c k).stage = s.stage := rfl
@[simp] theorem State.setCore_link (c : Nat) (k : ShuzoCore) : (s.setCore c k).link = s.link := rfl
@[simp] theorem State.setCore_dcoh (c : Nat) (k : ShuzoCore) : (s.setCore c k).dcoh = s.dcoh := rfl
@[simp] theorem State.setCore_gb (c : Nat) (k : ShuzoCore) : (s.setCore c k).gb = s.gb := rfl
@[simp] theorem State.setCore_tack (c : Nat) (k : ShuzoCore) : (s.setCore c k).tack = s.tack := rfl
@[simp] theorem State.setCore_q (c : Nat) (k : ShuzoCore) : (s.setCore c k).q = s.q := rfl
@[simp] theorem State.setCore_kv (c : Nat) (k : ShuzoCore) : (s.setCore c k).kv = s.kv := rfl
@[simp] theorem State.setCore_bridle (c : Nat) (k : ShuzoCore) : (s.setCore c k).bridle = s.bridle := rfl
@[simp] theorem State.setCore_scrub (c : Nat) (k : ShuzoCore) : (s.setCore c k).scrub = s.scrub := rfl
@[simp] theorem State.setCore_pw (c : Nat) (k : ShuzoCore) : (s.setCore c k).pw = s.pw := rfl
@[simp] theorem State.setCore_mgmt (c : Nat) (k : ShuzoCore) : (s.setCore c k).mgmt = s.mgmt := rfl
@[simp] theorem State.setCore_reg (c : Nat) (k : ShuzoCore) (r1 : Reg) (i1 : Nat) : (s.setCore c k).reg r1 i1 = s.reg r1 i1 := rfl
@[simp] theorem State.setCore_f (c : Nat) (k : ShuzoCore) (r1 : Reg) (i1 lo1 n1 : Nat) : (s.setCore c k).f r1 i1 lo1 n1 = s.f r1 i1 lo1 n1 := rfl
@[simp] theorem State.setCore_rdByte (c : Nat) (k : ShuzoCore) (a1 : Nat) : (s.setCore c k).rdByte a1 = s.rdByte a1 := rfl
@[simp] theorem State.setCore_tagAt (c : Nat) (k : ShuzoCore) (a1 : Nat) : (s.setCore c k).tagAt a1 = s.tagAt a1 := rfl
@[simp] theorem State.setCore_poisonAt (c : Nat) (k : ShuzoCore) (a1 : Nat) : (s.setCore c k).poisonAt a1 = s.poisonAt a1 := rfl

@[simp] theorem State.setCtx_card (c x : Nat) (k : Ctx) : (s.setCtx c x k).card = s.card := rfl
@[simp] theorem State.setCtx_now (c x : Nat) (k : Ctx) : (s.setCtx c x k).now = s.now := rfl
@[simp] theorem State.setCtx_pending (c x : Nat) (k : Ctx) : (s.setCtx c x k).pending = s.pending := rfl
@[simp] theorem State.setCtx_regs (c x : Nat) (k : Ctx) : (s.setCtx c x k).regs = s.regs := rfl
@[simp] theorem State.setCtx_lows (c x : Nat) (k : Ctx) : (s.setCtx c x k).lows = s.lows := rfl
@[simp] theorem State.setCtx_caps (c x : Nat) (k : Ctx) : (s.setCtx c x k).caps = s.caps := rfl
@[simp] theorem State.setCtx_mem (c x : Nat) (k : Ctx) : (s.setCtx c x k).mem = s.mem := rfl
@[simp] theorem State.setCtx_poison (c x : Nat) (k : Ctx) : (s.setCtx c x k).poison = s.poison := rfl
@[simp] theorem State.setCtx_dpoison (c x : Nat) (k : Ctx) : (s.setCtx c x k).dpoison = s.dpoison := rfl
@[simp] theorem State.setCtx_full (c x : Nat) (k : Ctx) : (s.setCtx c x k).full = s.full := rfl
@[simp] theorem State.setCtx_dbase (c x : Nat) (k : Ctx) : (s.setCtx c x k).dbase = s.dbase := rfl
@[simp] theorem State.setCtx_free (c x : Nat) (k : Ctx) : (s.setCtx c x k).free = s.free := rfl
@[simp] theorem State.setCtx_out (c x : Nat) (k : Ctx) : (s.setCtx c x k).out = s.out := rfl
@[simp] theorem State.setCtx_ras (c x : Nat) (k : Ctx) : (s.setCtx c x k).ras = s.ras := rfl
@[simp] theorem State.setCtx_stage (c x : Nat) (k : Ctx) : (s.setCtx c x k).stage = s.stage := rfl
@[simp] theorem State.setCtx_link (c x : Nat) (k : Ctx) : (s.setCtx c x k).link = s.link := rfl
@[simp] theorem State.setCtx_dcoh (c x : Nat) (k : Ctx) : (s.setCtx c x k).dcoh = s.dcoh := rfl
@[simp] theorem State.setCtx_gb (c x : Nat) (k : Ctx) : (s.setCtx c x k).gb = s.gb := rfl
@[simp] theorem State.setCtx_tack (c x : Nat) (k : Ctx) : (s.setCtx c x k).tack = s.tack := rfl
@[simp] theorem State.setCtx_q (c x : Nat) (k : Ctx) : (s.setCtx c x k).q = s.q := rfl
@[simp] theorem State.setCtx_kv (c x : Nat) (k : Ctx) : (s.setCtx c x k).kv = s.kv := rfl
@[simp] theorem State.setCtx_bridle (c x : Nat) (k : Ctx) : (s.setCtx c x k).bridle = s.bridle := rfl
@[simp] theorem State.setCtx_scrub (c x : Nat) (k : Ctx) : (s.setCtx c x k).scrub = s.scrub := rfl
@[simp] theorem State.setCtx_pw (c x : Nat) (k : Ctx) : (s.setCtx c x k).pw = s.pw := rfl
@[simp] theorem State.setCtx_mgmt (c x : Nat) (k : Ctx) : (s.setCtx c x k).mgmt = s.mgmt := rfl
@[simp] theorem State.setCtx_reg (c x : Nat) (k : Ctx) (r1 : Reg) (i1 : Nat) : (s.setCtx c x k).reg r1 i1 = s.reg r1 i1 := rfl
@[simp] theorem State.setCtx_f (c x : Nat) (k : Ctx) (r1 : Reg) (i1 lo1 n1 : Nat) : (s.setCtx c x k).f r1 i1 lo1 n1 = s.f r1 i1 lo1 n1 := rfl
@[simp] theorem State.setCtx_rdByte (c x : Nat) (k : Ctx) (a1 : Nat) : (s.setCtx c x k).rdByte a1 = s.rdByte a1 := rfl
@[simp] theorem State.setCtx_tagAt (c x : Nat) (k : Ctx) (a1 : Nat) : (s.setCtx c x k).tagAt a1 = s.tagAt a1 := rfl
@[simp] theorem State.setCtx_poisonAt (c x : Nat) (k : Ctx) (a1 : Nat) : (s.setCtx c x k).poisonAt a1 = s.poisonAt a1 := rfl

@[simp] theorem State.setHs_card (h : HitchStore) : (s.setHs h).card = s.card := rfl
@[simp] theorem State.setHs_now (h : HitchStore) : (s.setHs h).now = s.now := rfl
@[simp] theorem State.setHs_pending (h : HitchStore) : (s.setHs h).pending = s.pending := rfl
@[simp] theorem State.setHs_regs (h : HitchStore) : (s.setHs h).regs = s.regs := rfl
@[simp] theorem State.setHs_lows (h : HitchStore) : (s.setHs h).lows = s.lows := rfl
@[simp] theorem State.setHs_caps (h : HitchStore) : (s.setHs h).caps = s.caps := rfl
@[simp] theorem State.setHs_mem (h : HitchStore) : (s.setHs h).mem = s.mem := rfl
@[simp] theorem State.setHs_poison (h : HitchStore) : (s.setHs h).poison = s.poison := rfl
@[simp] theorem State.setHs_dpoison (h : HitchStore) : (s.setHs h).dpoison = s.dpoison := rfl
@[simp] theorem State.setHs_full (h : HitchStore) : (s.setHs h).full = s.full := rfl
@[simp] theorem State.setHs_dbase (h : HitchStore) : (s.setHs h).dbase = s.dbase := rfl
@[simp] theorem State.setHs_free (h : HitchStore) : (s.setHs h).free = s.free := rfl
@[simp] theorem State.setHs_out (h : HitchStore) : (s.setHs h).out = s.out := rfl
@[simp] theorem State.setHs_ras (h : HitchStore) : (s.setHs h).ras = s.ras := rfl
@[simp] theorem State.setHs_stage (h : HitchStore) : (s.setHs h).stage = s.stage := rfl
@[simp] theorem State.setHs_link (h : HitchStore) : (s.setHs h).link = s.link := rfl
@[simp] theorem State.setHs_dcoh (h : HitchStore) : (s.setHs h).dcoh = s.dcoh := rfl
@[simp] theorem State.setHs_gb (h : HitchStore) : (s.setHs h).gb = s.gb := rfl
@[simp] theorem State.setHs_tack (h : HitchStore) : (s.setHs h).tack = s.tack := rfl
@[simp] theorem State.setHs_q (h : HitchStore) : (s.setHs h).q = s.q := rfl
@[simp] theorem State.setHs_kv (h : HitchStore) : (s.setHs h).kv = s.kv := rfl
@[simp] theorem State.setHs_bridle (h : HitchStore) : (s.setHs h).bridle = s.bridle := rfl
@[simp] theorem State.setHs_scrub (h : HitchStore) : (s.setHs h).scrub = s.scrub := rfl
@[simp] theorem State.setHs_pw (h : HitchStore) : (s.setHs h).pw = s.pw := rfl
@[simp] theorem State.setHs_mgmt (h : HitchStore) : (s.setHs h).mgmt = s.mgmt := rfl
@[simp] theorem State.setHs_reg (h : HitchStore) (r1 : Reg) (i1 : Nat) : (s.setHs h).reg r1 i1 = s.reg r1 i1 := rfl
@[simp] theorem State.setHs_f (h : HitchStore) (r1 : Reg) (i1 lo1 n1 : Nat) : (s.setHs h).f r1 i1 lo1 n1 = s.f r1 i1 lo1 n1 := rfl
@[simp] theorem State.setHs_rdByte (h : HitchStore) (a1 : Nat) : (s.setHs h).rdByte a1 = s.rdByte a1 := rfl
@[simp] theorem State.setHs_tagAt (h : HitchStore) (a1 : Nat) : (s.setHs h).tagAt a1 = s.tagAt a1 := rfl
@[simp] theorem State.setHs_poisonAt (h : HitchStore) (a1 : Nat) : (s.setHs h).poisonAt a1 = s.poisonAt a1 := rfl

@[simp] theorem State.setRing_card (i : Nat) (r : Ring) : (s.setRing i r).card = s.card := rfl
@[simp] theorem State.setRing_now (i : Nat) (r : Ring) : (s.setRing i r).now = s.now := rfl
@[simp] theorem State.setRing_pending (i : Nat) (r : Ring) : (s.setRing i r).pending = s.pending := rfl
@[simp] theorem State.setRing_regs (i : Nat) (r : Ring) : (s.setRing i r).regs = s.regs := rfl
@[simp] theorem State.setRing_lows (i : Nat) (r : Ring) : (s.setRing i r).lows = s.lows := rfl
@[simp] theorem State.setRing_caps (i : Nat) (r : Ring) : (s.setRing i r).caps = s.caps := rfl
@[simp] theorem State.setRing_mem (i : Nat) (r : Ring) : (s.setRing i r).mem = s.mem := rfl
@[simp] theorem State.setRing_poison (i : Nat) (r : Ring) : (s.setRing i r).poison = s.poison := rfl
@[simp] theorem State.setRing_dpoison (i : Nat) (r : Ring) : (s.setRing i r).dpoison = s.dpoison := rfl
@[simp] theorem State.setRing_full (i : Nat) (r : Ring) : (s.setRing i r).full = s.full := rfl
@[simp] theorem State.setRing_dbase (i : Nat) (r : Ring) : (s.setRing i r).dbase = s.dbase := rfl
@[simp] theorem State.setRing_free (i : Nat) (r : Ring) : (s.setRing i r).free = s.free := rfl
@[simp] theorem State.setRing_out (i : Nat) (r : Ring) : (s.setRing i r).out = s.out := rfl
@[simp] theorem State.setRing_ras (i : Nat) (r : Ring) : (s.setRing i r).ras = s.ras := rfl
@[simp] theorem State.setRing_stage (i : Nat) (r : Ring) : (s.setRing i r).stage = s.stage := rfl
@[simp] theorem State.setRing_link (i : Nat) (r : Ring) : (s.setRing i r).link = s.link := rfl
@[simp] theorem State.setRing_dcoh (i : Nat) (r : Ring) : (s.setRing i r).dcoh = s.dcoh := rfl
@[simp] theorem State.setRing_gb (i : Nat) (r : Ring) : (s.setRing i r).gb = s.gb := rfl
@[simp] theorem State.setRing_tack (i : Nat) (r : Ring) : (s.setRing i r).tack = s.tack := rfl
@[simp] theorem State.setRing_q (i : Nat) (r : Ring) : (s.setRing i r).q = s.q := rfl
@[simp] theorem State.setRing_kv (i : Nat) (r : Ring) : (s.setRing i r).kv = s.kv := rfl
@[simp] theorem State.setRing_bridle (i : Nat) (r : Ring) : (s.setRing i r).bridle = s.bridle := rfl
@[simp] theorem State.setRing_scrub (i : Nat) (r : Ring) : (s.setRing i r).scrub = s.scrub := rfl
@[simp] theorem State.setRing_pw (i : Nat) (r : Ring) : (s.setRing i r).pw = s.pw := rfl
@[simp] theorem State.setRing_mgmt (i : Nat) (r : Ring) : (s.setRing i r).mgmt = s.mgmt := rfl
@[simp] theorem State.setRing_reg (i : Nat) (r : Ring) (r1 : Reg) (i1 : Nat) : (s.setRing i r).reg r1 i1 = s.reg r1 i1 := rfl
@[simp] theorem State.setRing_f (i : Nat) (r : Ring) (r1 : Reg) (i1 lo1 n1 : Nat) : (s.setRing i r).f r1 i1 lo1 n1 = s.f r1 i1 lo1 n1 := rfl
@[simp] theorem State.setRing_rdByte (i : Nat) (r : Ring) (a1 : Nat) : (s.setRing i r).rdByte a1 = s.rdByte a1 := rfl
@[simp] theorem State.setRing_tagAt (i : Nat) (r : Ring) (a1 : Nat) : (s.setRing i r).tagAt a1 = s.tagAt a1 := rfl
@[simp] theorem State.setRing_poisonAt (i : Nat) (r : Ring) (a1 : Nat) : (s.setRing i r).poisonAt a1 = s.poisonAt a1 := rfl

@[simp] theorem State.setPort_card (p : Nat) (k : ReinPort) : (s.setPort p k).card = s.card := rfl
@[simp] theorem State.setPort_now (p : Nat) (k : ReinPort) : (s.setPort p k).now = s.now := rfl
@[simp] theorem State.setPort_pending (p : Nat) (k : ReinPort) : (s.setPort p k).pending = s.pending := rfl
@[simp] theorem State.setPort_regs (p : Nat) (k : ReinPort) : (s.setPort p k).regs = s.regs := rfl
@[simp] theorem State.setPort_lows (p : Nat) (k : ReinPort) : (s.setPort p k).lows = s.lows := rfl
@[simp] theorem State.setPort_caps (p : Nat) (k : ReinPort) : (s.setPort p k).caps = s.caps := rfl
@[simp] theorem State.setPort_mem (p : Nat) (k : ReinPort) : (s.setPort p k).mem = s.mem := rfl
@[simp] theorem State.setPort_poison (p : Nat) (k : ReinPort) : (s.setPort p k).poison = s.poison := rfl
@[simp] theorem State.setPort_dpoison (p : Nat) (k : ReinPort) : (s.setPort p k).dpoison = s.dpoison := rfl
@[simp] theorem State.setPort_full (p : Nat) (k : ReinPort) : (s.setPort p k).full = s.full := rfl
@[simp] theorem State.setPort_dbase (p : Nat) (k : ReinPort) : (s.setPort p k).dbase = s.dbase := rfl
@[simp] theorem State.setPort_free (p : Nat) (k : ReinPort) : (s.setPort p k).free = s.free := rfl
@[simp] theorem State.setPort_out (p : Nat) (k : ReinPort) : (s.setPort p k).out = s.out := rfl
@[simp] theorem State.setPort_ras (p : Nat) (k : ReinPort) : (s.setPort p k).ras = s.ras := rfl
@[simp] theorem State.setPort_stage (p : Nat) (k : ReinPort) : (s.setPort p k).stage = s.stage := rfl
@[simp] theorem State.setPort_link (p : Nat) (k : ReinPort) : (s.setPort p k).link = s.link := rfl
@[simp] theorem State.setPort_dcoh (p : Nat) (k : ReinPort) : (s.setPort p k).dcoh = s.dcoh := rfl
@[simp] theorem State.setPort_gb (p : Nat) (k : ReinPort) : (s.setPort p k).gb = s.gb := rfl
@[simp] theorem State.setPort_tack (p : Nat) (k : ReinPort) : (s.setPort p k).tack = s.tack := rfl
@[simp] theorem State.setPort_q (p : Nat) (k : ReinPort) : (s.setPort p k).q = s.q := rfl
@[simp] theorem State.setPort_kv (p : Nat) (k : ReinPort) : (s.setPort p k).kv = s.kv := rfl
@[simp] theorem State.setPort_bridle (p : Nat) (k : ReinPort) : (s.setPort p k).bridle = s.bridle := rfl
@[simp] theorem State.setPort_scrub (p : Nat) (k : ReinPort) : (s.setPort p k).scrub = s.scrub := rfl
@[simp] theorem State.setPort_pw (p : Nat) (k : ReinPort) : (s.setPort p k).pw = s.pw := rfl
@[simp] theorem State.setPort_mgmt (p : Nat) (k : ReinPort) : (s.setPort p k).mgmt = s.mgmt := rfl
@[simp] theorem State.setPort_reg (p : Nat) (k : ReinPort) (r1 : Reg) (i1 : Nat) : (s.setPort p k).reg r1 i1 = s.reg r1 i1 := rfl
@[simp] theorem State.setPort_f (p : Nat) (k : ReinPort) (r1 : Reg) (i1 lo1 n1 : Nat) : (s.setPort p k).f r1 i1 lo1 n1 = s.f r1 i1 lo1 n1 := rfl
@[simp] theorem State.setPort_rdByte (p : Nat) (k : ReinPort) (a1 : Nat) : (s.setPort p k).rdByte a1 = s.rdByte a1 := rfl
@[simp] theorem State.setPort_tagAt (p : Nat) (k : ReinPort) (a1 : Nat) : (s.setPort p k).tagAt a1 = s.tagAt a1 := rfl
@[simp] theorem State.setPort_poisonAt (p : Nat) (k : ReinPort) (a1 : Nat) : (s.setPort p k).poisonAt a1 = s.poisonAt a1 := rfl

@[simp] theorem State.setPdQueue_card (b : Nat) (l : List PdReq) : (s.setPdQueue b l).card = s.card := rfl
@[simp] theorem State.setPdQueue_now (b : Nat) (l : List PdReq) : (s.setPdQueue b l).now = s.now := rfl
@[simp] theorem State.setPdQueue_pending (b : Nat) (l : List PdReq) : (s.setPdQueue b l).pending = s.pending := rfl
@[simp] theorem State.setPdQueue_regs (b : Nat) (l : List PdReq) : (s.setPdQueue b l).regs = s.regs := rfl
@[simp] theorem State.setPdQueue_lows (b : Nat) (l : List PdReq) : (s.setPdQueue b l).lows = s.lows := rfl
@[simp] theorem State.setPdQueue_caps (b : Nat) (l : List PdReq) : (s.setPdQueue b l).caps = s.caps := rfl
@[simp] theorem State.setPdQueue_mem (b : Nat) (l : List PdReq) : (s.setPdQueue b l).mem = s.mem := rfl
@[simp] theorem State.setPdQueue_poison (b : Nat) (l : List PdReq) : (s.setPdQueue b l).poison = s.poison := rfl
@[simp] theorem State.setPdQueue_dpoison (b : Nat) (l : List PdReq) : (s.setPdQueue b l).dpoison = s.dpoison := rfl
@[simp] theorem State.setPdQueue_full (b : Nat) (l : List PdReq) : (s.setPdQueue b l).full = s.full := rfl
@[simp] theorem State.setPdQueue_dbase (b : Nat) (l : List PdReq) : (s.setPdQueue b l).dbase = s.dbase := rfl
@[simp] theorem State.setPdQueue_free (b : Nat) (l : List PdReq) : (s.setPdQueue b l).free = s.free := rfl
@[simp] theorem State.setPdQueue_out (b : Nat) (l : List PdReq) : (s.setPdQueue b l).out = s.out := rfl
@[simp] theorem State.setPdQueue_ras (b : Nat) (l : List PdReq) : (s.setPdQueue b l).ras = s.ras := rfl
@[simp] theorem State.setPdQueue_stage (b : Nat) (l : List PdReq) : (s.setPdQueue b l).stage = s.stage := rfl
@[simp] theorem State.setPdQueue_link (b : Nat) (l : List PdReq) : (s.setPdQueue b l).link = s.link := rfl
@[simp] theorem State.setPdQueue_dcoh (b : Nat) (l : List PdReq) : (s.setPdQueue b l).dcoh = s.dcoh := rfl
@[simp] theorem State.setPdQueue_gb (b : Nat) (l : List PdReq) : (s.setPdQueue b l).gb = s.gb := rfl
@[simp] theorem State.setPdQueue_tack (b : Nat) (l : List PdReq) : (s.setPdQueue b l).tack = s.tack := rfl
@[simp] theorem State.setPdQueue_q (b : Nat) (l : List PdReq) : (s.setPdQueue b l).q = s.q := rfl
@[simp] theorem State.setPdQueue_kv (b : Nat) (l : List PdReq) : (s.setPdQueue b l).kv = s.kv := rfl
@[simp] theorem State.setPdQueue_bridle (b : Nat) (l : List PdReq) : (s.setPdQueue b l).bridle = s.bridle := rfl
@[simp] theorem State.setPdQueue_scrub (b : Nat) (l : List PdReq) : (s.setPdQueue b l).scrub = s.scrub := rfl
@[simp] theorem State.setPdQueue_pw (b : Nat) (l : List PdReq) : (s.setPdQueue b l).pw = s.pw := rfl
@[simp] theorem State.setPdQueue_mgmt (b : Nat) (l : List PdReq) : (s.setPdQueue b l).mgmt = s.mgmt := rfl
@[simp] theorem State.setPdQueue_reg (b : Nat) (l : List PdReq) (r1 : Reg) (i1 : Nat) : (s.setPdQueue b l).reg r1 i1 = s.reg r1 i1 := rfl
@[simp] theorem State.setPdQueue_f (b : Nat) (l : List PdReq) (r1 : Reg) (i1 lo1 n1 : Nat) : (s.setPdQueue b l).f r1 i1 lo1 n1 = s.f r1 i1 lo1 n1 := rfl
@[simp] theorem State.setPdQueue_rdByte (b : Nat) (l : List PdReq) (a1 : Nat) : (s.setPdQueue b l).rdByte a1 = s.rdByte a1 := rfl
@[simp] theorem State.setPdQueue_tagAt (b : Nat) (l : List PdReq) (a1 : Nat) : (s.setPdQueue b l).tagAt a1 = s.tagAt a1 := rfl
@[simp] theorem State.setPdQueue_poisonAt (b : Nat) (l : List PdReq) (a1 : Nat) : (s.setPdQueue b l).poisonAt a1 = s.poisonAt a1 := rfl

@[simp] theorem State.updTask_card (i : Nat) (g : Task → Task) : (s.updTask i g).card = s.card := rfl
@[simp] theorem State.updTask_now (i : Nat) (g : Task → Task) : (s.updTask i g).now = s.now := rfl
@[simp] theorem State.updTask_pending (i : Nat) (g : Task → Task) : (s.updTask i g).pending = s.pending := rfl
@[simp] theorem State.updTask_regs (i : Nat) (g : Task → Task) : (s.updTask i g).regs = s.regs := rfl
@[simp] theorem State.updTask_lows (i : Nat) (g : Task → Task) : (s.updTask i g).lows = s.lows := rfl
@[simp] theorem State.updTask_caps (i : Nat) (g : Task → Task) : (s.updTask i g).caps = s.caps := rfl
@[simp] theorem State.updTask_mem (i : Nat) (g : Task → Task) : (s.updTask i g).mem = s.mem := rfl
@[simp] theorem State.updTask_poison (i : Nat) (g : Task → Task) : (s.updTask i g).poison = s.poison := rfl
@[simp] theorem State.updTask_dpoison (i : Nat) (g : Task → Task) : (s.updTask i g).dpoison = s.dpoison := rfl
@[simp] theorem State.updTask_full (i : Nat) (g : Task → Task) : (s.updTask i g).full = s.full := rfl
@[simp] theorem State.updTask_dbase (i : Nat) (g : Task → Task) : (s.updTask i g).dbase = s.dbase := rfl
@[simp] theorem State.updTask_free (i : Nat) (g : Task → Task) : (s.updTask i g).free = s.free := rfl
@[simp] theorem State.updTask_out (i : Nat) (g : Task → Task) : (s.updTask i g).out = s.out := rfl
@[simp] theorem State.updTask_ras (i : Nat) (g : Task → Task) : (s.updTask i g).ras = s.ras := rfl
@[simp] theorem State.updTask_stage (i : Nat) (g : Task → Task) : (s.updTask i g).stage = s.stage := rfl
@[simp] theorem State.updTask_link (i : Nat) (g : Task → Task) : (s.updTask i g).link = s.link := rfl
@[simp] theorem State.updTask_dcoh (i : Nat) (g : Task → Task) : (s.updTask i g).dcoh = s.dcoh := rfl
@[simp] theorem State.updTask_gb (i : Nat) (g : Task → Task) : (s.updTask i g).gb = s.gb := rfl
@[simp] theorem State.updTask_tack (i : Nat) (g : Task → Task) : (s.updTask i g).tack = s.tack := rfl
@[simp] theorem State.updTask_kv (i : Nat) (g : Task → Task) : (s.updTask i g).kv = s.kv := rfl
@[simp] theorem State.updTask_bridle (i : Nat) (g : Task → Task) : (s.updTask i g).bridle = s.bridle := rfl
@[simp] theorem State.updTask_scrub (i : Nat) (g : Task → Task) : (s.updTask i g).scrub = s.scrub := rfl
@[simp] theorem State.updTask_pw (i : Nat) (g : Task → Task) : (s.updTask i g).pw = s.pw := rfl
@[simp] theorem State.updTask_mgmt (i : Nat) (g : Task → Task) : (s.updTask i g).mgmt = s.mgmt := rfl
@[simp] theorem State.updTask_cx (i : Nat) (g : Task → Task) : (s.updTask i g).cx = s.cx := rfl
@[simp] theorem State.updTask_reg (i : Nat) (g : Task → Task) (r1 : Reg) (i1 : Nat) : (s.updTask i g).reg r1 i1 = s.reg r1 i1 := rfl
@[simp] theorem State.updTask_f (i : Nat) (g : Task → Task) (r1 : Reg) (i1 lo1 n1 : Nat) : (s.updTask i g).f r1 i1 lo1 n1 = s.f r1 i1 lo1 n1 := rfl
@[simp] theorem State.updTask_rdByte (i : Nat) (g : Task → Task) (a1 : Nat) : (s.updTask i g).rdByte a1 = s.rdByte a1 := rfl
@[simp] theorem State.updTask_tagAt (i : Nat) (g : Task → Task) (a1 : Nat) : (s.updTask i g).tagAt a1 = s.tagAt a1 := rfl
@[simp] theorem State.updTask_poisonAt (i : Nat) (g : Task → Task) (a1 : Nat) : (s.updTask i g).poisonAt a1 = s.poisonAt a1 := rfl

@[simp] theorem State.setSq_card (n : Nat) (k : Sq) : (s.setSq n k).card = s.card := rfl
@[simp] theorem State.setSq_now (n : Nat) (k : Sq) : (s.setSq n k).now = s.now := rfl
@[simp] theorem State.setSq_pending (n : Nat) (k : Sq) : (s.setSq n k).pending = s.pending := rfl
@[simp] theorem State.setSq_regs (n : Nat) (k : Sq) : (s.setSq n k).regs = s.regs := rfl
@[simp] theorem State.setSq_lows (n : Nat) (k : Sq) : (s.setSq n k).lows = s.lows := rfl
@[simp] theorem State.setSq_caps (n : Nat) (k : Sq) : (s.setSq n k).caps = s.caps := rfl
@[simp] theorem State.setSq_mem (n : Nat) (k : Sq) : (s.setSq n k).mem = s.mem := rfl
@[simp] theorem State.setSq_poison (n : Nat) (k : Sq) : (s.setSq n k).poison = s.poison := rfl
@[simp] theorem State.setSq_dpoison (n : Nat) (k : Sq) : (s.setSq n k).dpoison = s.dpoison := rfl
@[simp] theorem State.setSq_full (n : Nat) (k : Sq) : (s.setSq n k).full = s.full := rfl
@[simp] theorem State.setSq_dbase (n : Nat) (k : Sq) : (s.setSq n k).dbase = s.dbase := rfl
@[simp] theorem State.setSq_free (n : Nat) (k : Sq) : (s.setSq n k).free = s.free := rfl
@[simp] theorem State.setSq_out (n : Nat) (k : Sq) : (s.setSq n k).out = s.out := rfl
@[simp] theorem State.setSq_ras (n : Nat) (k : Sq) : (s.setSq n k).ras = s.ras := rfl
@[simp] theorem State.setSq_stage (n : Nat) (k : Sq) : (s.setSq n k).stage = s.stage := rfl
@[simp] theorem State.setSq_link (n : Nat) (k : Sq) : (s.setSq n k).link = s.link := rfl
@[simp] theorem State.setSq_dcoh (n : Nat) (k : Sq) : (s.setSq n k).dcoh = s.dcoh := rfl
@[simp] theorem State.setSq_gb (n : Nat) (k : Sq) : (s.setSq n k).gb = s.gb := rfl
@[simp] theorem State.setSq_tack (n : Nat) (k : Sq) : (s.setSq n k).tack = s.tack := rfl
@[simp] theorem State.setSq_kv (n : Nat) (k : Sq) : (s.setSq n k).kv = s.kv := rfl
@[simp] theorem State.setSq_bridle (n : Nat) (k : Sq) : (s.setSq n k).bridle = s.bridle := rfl
@[simp] theorem State.setSq_scrub (n : Nat) (k : Sq) : (s.setSq n k).scrub = s.scrub := rfl
@[simp] theorem State.setSq_pw (n : Nat) (k : Sq) : (s.setSq n k).pw = s.pw := rfl
@[simp] theorem State.setSq_mgmt (n : Nat) (k : Sq) : (s.setSq n k).mgmt = s.mgmt := rfl
@[simp] theorem State.setSq_cx (n : Nat) (k : Sq) : (s.setSq n k).cx = s.cx := rfl
@[simp] theorem State.setSq_reg (n : Nat) (k : Sq) (r1 : Reg) (i1 : Nat) : (s.setSq n k).reg r1 i1 = s.reg r1 i1 := rfl
@[simp] theorem State.setSq_f (n : Nat) (k : Sq) (r1 : Reg) (i1 lo1 n1 : Nat) : (s.setSq n k).f r1 i1 lo1 n1 = s.f r1 i1 lo1 n1 := rfl
@[simp] theorem State.setSq_rdByte (n : Nat) (k : Sq) (a1 : Nat) : (s.setSq n k).rdByte a1 = s.rdByte a1 := rfl
@[simp] theorem State.setSq_tagAt (n : Nat) (k : Sq) (a1 : Nat) : (s.setSq n k).tagAt a1 = s.tagAt a1 := rfl
@[simp] theorem State.setSq_poisonAt (n : Nat) (k : Sq) (a1 : Nat) : (s.setSq n k).poisonAt a1 = s.poisonAt a1 := rfl

@[simp] theorem State.setCq_card (n : Nat) (k : Cq) : (s.setCq n k).card = s.card := rfl
@[simp] theorem State.setCq_now (n : Nat) (k : Cq) : (s.setCq n k).now = s.now := rfl
@[simp] theorem State.setCq_pending (n : Nat) (k : Cq) : (s.setCq n k).pending = s.pending := rfl
@[simp] theorem State.setCq_regs (n : Nat) (k : Cq) : (s.setCq n k).regs = s.regs := rfl
@[simp] theorem State.setCq_lows (n : Nat) (k : Cq) : (s.setCq n k).lows = s.lows := rfl
@[simp] theorem State.setCq_caps (n : Nat) (k : Cq) : (s.setCq n k).caps = s.caps := rfl
@[simp] theorem State.setCq_mem (n : Nat) (k : Cq) : (s.setCq n k).mem = s.mem := rfl
@[simp] theorem State.setCq_poison (n : Nat) (k : Cq) : (s.setCq n k).poison = s.poison := rfl
@[simp] theorem State.setCq_dpoison (n : Nat) (k : Cq) : (s.setCq n k).dpoison = s.dpoison := rfl
@[simp] theorem State.setCq_full (n : Nat) (k : Cq) : (s.setCq n k).full = s.full := rfl
@[simp] theorem State.setCq_dbase (n : Nat) (k : Cq) : (s.setCq n k).dbase = s.dbase := rfl
@[simp] theorem State.setCq_free (n : Nat) (k : Cq) : (s.setCq n k).free = s.free := rfl
@[simp] theorem State.setCq_out (n : Nat) (k : Cq) : (s.setCq n k).out = s.out := rfl
@[simp] theorem State.setCq_ras (n : Nat) (k : Cq) : (s.setCq n k).ras = s.ras := rfl
@[simp] theorem State.setCq_stage (n : Nat) (k : Cq) : (s.setCq n k).stage = s.stage := rfl
@[simp] theorem State.setCq_link (n : Nat) (k : Cq) : (s.setCq n k).link = s.link := rfl
@[simp] theorem State.setCq_dcoh (n : Nat) (k : Cq) : (s.setCq n k).dcoh = s.dcoh := rfl
@[simp] theorem State.setCq_gb (n : Nat) (k : Cq) : (s.setCq n k).gb = s.gb := rfl
@[simp] theorem State.setCq_tack (n : Nat) (k : Cq) : (s.setCq n k).tack = s.tack := rfl
@[simp] theorem State.setCq_kv (n : Nat) (k : Cq) : (s.setCq n k).kv = s.kv := rfl
@[simp] theorem State.setCq_bridle (n : Nat) (k : Cq) : (s.setCq n k).bridle = s.bridle := rfl
@[simp] theorem State.setCq_scrub (n : Nat) (k : Cq) : (s.setCq n k).scrub = s.scrub := rfl
@[simp] theorem State.setCq_pw (n : Nat) (k : Cq) : (s.setCq n k).pw = s.pw := rfl
@[simp] theorem State.setCq_mgmt (n : Nat) (k : Cq) : (s.setCq n k).mgmt = s.mgmt := rfl
@[simp] theorem State.setCq_cx (n : Nat) (k : Cq) : (s.setCq n k).cx = s.cx := rfl
@[simp] theorem State.setCq_reg (n : Nat) (k : Cq) (r1 : Reg) (i1 : Nat) : (s.setCq n k).reg r1 i1 = s.reg r1 i1 := rfl
@[simp] theorem State.setCq_f (n : Nat) (k : Cq) (r1 : Reg) (i1 lo1 n1 : Nat) : (s.setCq n k).f r1 i1 lo1 n1 = s.f r1 i1 lo1 n1 := rfl
@[simp] theorem State.setCq_rdByte (n : Nat) (k : Cq) (a1 : Nat) : (s.setCq n k).rdByte a1 = s.rdByte a1 := rfl
@[simp] theorem State.setCq_tagAt (n : Nat) (k : Cq) (a1 : Nat) : (s.setCq n k).tagAt a1 = s.tagAt a1 := rfl
@[simp] theorem State.setCq_poisonAt (n : Nat) (k : Cq) (a1 : Nat) : (s.setCq n k).poisonAt a1 = s.poisonAt a1 := rfl

@[simp] theorem State.setTracker_card (l : Nat) (t : Tracker) : (s.setTracker l t).card = s.card := rfl
@[simp] theorem State.setTracker_now (l : Nat) (t : Tracker) : (s.setTracker l t).now = s.now := rfl
@[simp] theorem State.setTracker_pending (l : Nat) (t : Tracker) : (s.setTracker l t).pending = s.pending := rfl
@[simp] theorem State.setTracker_regs (l : Nat) (t : Tracker) : (s.setTracker l t).regs = s.regs := rfl
@[simp] theorem State.setTracker_lows (l : Nat) (t : Tracker) : (s.setTracker l t).lows = s.lows := rfl
@[simp] theorem State.setTracker_caps (l : Nat) (t : Tracker) : (s.setTracker l t).caps = s.caps := rfl
@[simp] theorem State.setTracker_mem (l : Nat) (t : Tracker) : (s.setTracker l t).mem = s.mem := rfl
@[simp] theorem State.setTracker_poison (l : Nat) (t : Tracker) : (s.setTracker l t).poison = s.poison := rfl
@[simp] theorem State.setTracker_dpoison (l : Nat) (t : Tracker) : (s.setTracker l t).dpoison = s.dpoison := rfl
@[simp] theorem State.setTracker_full (l : Nat) (t : Tracker) : (s.setTracker l t).full = s.full := rfl
@[simp] theorem State.setTracker_dbase (l : Nat) (t : Tracker) : (s.setTracker l t).dbase = s.dbase := rfl
@[simp] theorem State.setTracker_free (l : Nat) (t : Tracker) : (s.setTracker l t).free = s.free := rfl
@[simp] theorem State.setTracker_out (l : Nat) (t : Tracker) : (s.setTracker l t).out = s.out := rfl
@[simp] theorem State.setTracker_ras (l : Nat) (t : Tracker) : (s.setTracker l t).ras = s.ras := rfl
@[simp] theorem State.setTracker_stage (l : Nat) (t : Tracker) : (s.setTracker l t).stage = s.stage := rfl
@[simp] theorem State.setTracker_link (l : Nat) (t : Tracker) : (s.setTracker l t).link = s.link := rfl
@[simp] theorem State.setTracker_gb (l : Nat) (t : Tracker) : (s.setTracker l t).gb = s.gb := rfl
@[simp] theorem State.setTracker_tack (l : Nat) (t : Tracker) : (s.setTracker l t).tack = s.tack := rfl
@[simp] theorem State.setTracker_q (l : Nat) (t : Tracker) : (s.setTracker l t).q = s.q := rfl
@[simp] theorem State.setTracker_kv (l : Nat) (t : Tracker) : (s.setTracker l t).kv = s.kv := rfl
@[simp] theorem State.setTracker_bridle (l : Nat) (t : Tracker) : (s.setTracker l t).bridle = s.bridle := rfl
@[simp] theorem State.setTracker_scrub (l : Nat) (t : Tracker) : (s.setTracker l t).scrub = s.scrub := rfl
@[simp] theorem State.setTracker_pw (l : Nat) (t : Tracker) : (s.setTracker l t).pw = s.pw := rfl
@[simp] theorem State.setTracker_mgmt (l : Nat) (t : Tracker) : (s.setTracker l t).mgmt = s.mgmt := rfl
@[simp] theorem State.setTracker_cx (l : Nat) (t : Tracker) : (s.setTracker l t).cx = s.cx := rfl
@[simp] theorem State.setTracker_reg (l : Nat) (t : Tracker) (r1 : Reg) (i1 : Nat) : (s.setTracker l t).reg r1 i1 = s.reg r1 i1 := rfl
@[simp] theorem State.setTracker_f (l : Nat) (t : Tracker) (r1 : Reg) (i1 lo1 n1 : Nat) : (s.setTracker l t).f r1 i1 lo1 n1 = s.f r1 i1 lo1 n1 := rfl
@[simp] theorem State.setTracker_rdByte (l : Nat) (t : Tracker) (a1 : Nat) : (s.setTracker l t).rdByte a1 = s.rdByte a1 := rfl
@[simp] theorem State.setTracker_tagAt (l : Nat) (t : Tracker) (a1 : Nat) : (s.setTracker l t).tagAt a1 = s.tagAt a1 := rfl
@[simp] theorem State.setTracker_poisonAt (l : Nat) (t : Tracker) (a1 : Nat) : (s.setTracker l t).poisonAt a1 = s.poisonAt a1 := rfl

@[simp] theorem State.setKseq_card (i : Nat) (k : KSeq) : (s.setKseq i k).card = s.card := rfl
@[simp] theorem State.setKseq_now (i : Nat) (k : KSeq) : (s.setKseq i k).now = s.now := rfl
@[simp] theorem State.setKseq_pending (i : Nat) (k : KSeq) : (s.setKseq i k).pending = s.pending := rfl
@[simp] theorem State.setKseq_regs (i : Nat) (k : KSeq) : (s.setKseq i k).regs = s.regs := rfl
@[simp] theorem State.setKseq_lows (i : Nat) (k : KSeq) : (s.setKseq i k).lows = s.lows := rfl
@[simp] theorem State.setKseq_caps (i : Nat) (k : KSeq) : (s.setKseq i k).caps = s.caps := rfl
@[simp] theorem State.setKseq_mem (i : Nat) (k : KSeq) : (s.setKseq i k).mem = s.mem := rfl
@[simp] theorem State.setKseq_poison (i : Nat) (k : KSeq) : (s.setKseq i k).poison = s.poison := rfl
@[simp] theorem State.setKseq_dpoison (i : Nat) (k : KSeq) : (s.setKseq i k).dpoison = s.dpoison := rfl
@[simp] theorem State.setKseq_full (i : Nat) (k : KSeq) : (s.setKseq i k).full = s.full := rfl
@[simp] theorem State.setKseq_dbase (i : Nat) (k : KSeq) : (s.setKseq i k).dbase = s.dbase := rfl
@[simp] theorem State.setKseq_free (i : Nat) (k : KSeq) : (s.setKseq i k).free = s.free := rfl
@[simp] theorem State.setKseq_out (i : Nat) (k : KSeq) : (s.setKseq i k).out = s.out := rfl
@[simp] theorem State.setKseq_ras (i : Nat) (k : KSeq) : (s.setKseq i k).ras = s.ras := rfl
@[simp] theorem State.setKseq_stage (i : Nat) (k : KSeq) : (s.setKseq i k).stage = s.stage := rfl
@[simp] theorem State.setKseq_link (i : Nat) (k : KSeq) : (s.setKseq i k).link = s.link := rfl
@[simp] theorem State.setKseq_dcoh (i : Nat) (k : KSeq) : (s.setKseq i k).dcoh = s.dcoh := rfl
@[simp] theorem State.setKseq_gb (i : Nat) (k : KSeq) : (s.setKseq i k).gb = s.gb := rfl
@[simp] theorem State.setKseq_tack (i : Nat) (k : KSeq) : (s.setKseq i k).tack = s.tack := rfl
@[simp] theorem State.setKseq_q (i : Nat) (k : KSeq) : (s.setKseq i k).q = s.q := rfl
@[simp] theorem State.setKseq_bridle (i : Nat) (k : KSeq) : (s.setKseq i k).bridle = s.bridle := rfl
@[simp] theorem State.setKseq_scrub (i : Nat) (k : KSeq) : (s.setKseq i k).scrub = s.scrub := rfl
@[simp] theorem State.setKseq_pw (i : Nat) (k : KSeq) : (s.setKseq i k).pw = s.pw := rfl
@[simp] theorem State.setKseq_mgmt (i : Nat) (k : KSeq) : (s.setKseq i k).mgmt = s.mgmt := rfl
@[simp] theorem State.setKseq_cx (i : Nat) (k : KSeq) : (s.setKseq i k).cx = s.cx := rfl
@[simp] theorem State.setKseq_reg (i : Nat) (k : KSeq) (r1 : Reg) (i1 : Nat) : (s.setKseq i k).reg r1 i1 = s.reg r1 i1 := rfl
@[simp] theorem State.setKseq_f (i : Nat) (k : KSeq) (r1 : Reg) (i1 lo1 n1 : Nat) : (s.setKseq i k).f r1 i1 lo1 n1 = s.f r1 i1 lo1 n1 := rfl
@[simp] theorem State.setKseq_rdByte (i : Nat) (k : KSeq) (a1 : Nat) : (s.setKseq i k).rdByte a1 = s.rdByte a1 := rfl
@[simp] theorem State.setKseq_tagAt (i : Nat) (k : KSeq) (a1 : Nat) : (s.setKseq i k).tagAt a1 = s.tagAt a1 := rfl
@[simp] theorem State.setKseq_poisonAt (i : Nat) (k : KSeq) (a1 : Nat) : (s.setKseq i k).poisonAt a1 = s.poisonAt a1 := rfl

@[simp] theorem State.setChecks_card (b : Nat) (l : List Check) : (s.setChecks b l).card = s.card := rfl
@[simp] theorem State.setChecks_now (b : Nat) (l : List Check) : (s.setChecks b l).now = s.now := rfl
@[simp] theorem State.setChecks_pending (b : Nat) (l : List Check) : (s.setChecks b l).pending = s.pending := rfl
@[simp] theorem State.setChecks_regs (b : Nat) (l : List Check) : (s.setChecks b l).regs = s.regs := rfl
@[simp] theorem State.setChecks_lows (b : Nat) (l : List Check) : (s.setChecks b l).lows = s.lows := rfl
@[simp] theorem State.setChecks_caps (b : Nat) (l : List Check) : (s.setChecks b l).caps = s.caps := rfl
@[simp] theorem State.setChecks_mem (b : Nat) (l : List Check) : (s.setChecks b l).mem = s.mem := rfl
@[simp] theorem State.setChecks_poison (b : Nat) (l : List Check) : (s.setChecks b l).poison = s.poison := rfl
@[simp] theorem State.setChecks_dpoison (b : Nat) (l : List Check) : (s.setChecks b l).dpoison = s.dpoison := rfl
@[simp] theorem State.setChecks_full (b : Nat) (l : List Check) : (s.setChecks b l).full = s.full := rfl
@[simp] theorem State.setChecks_dbase (b : Nat) (l : List Check) : (s.setChecks b l).dbase = s.dbase := rfl
@[simp] theorem State.setChecks_free (b : Nat) (l : List Check) : (s.setChecks b l).free = s.free := rfl
@[simp] theorem State.setChecks_out (b : Nat) (l : List Check) : (s.setChecks b l).out = s.out := rfl
@[simp] theorem State.setChecks_ras (b : Nat) (l : List Check) : (s.setChecks b l).ras = s.ras := rfl
@[simp] theorem State.setChecks_stage (b : Nat) (l : List Check) : (s.setChecks b l).stage = s.stage := rfl
@[simp] theorem State.setChecks_link (b : Nat) (l : List Check) : (s.setChecks b l).link = s.link := rfl
@[simp] theorem State.setChecks_dcoh (b : Nat) (l : List Check) : (s.setChecks b l).dcoh = s.dcoh := rfl
@[simp] theorem State.setChecks_gb (b : Nat) (l : List Check) : (s.setChecks b l).gb = s.gb := rfl
@[simp] theorem State.setChecks_q (b : Nat) (l : List Check) : (s.setChecks b l).q = s.q := rfl
@[simp] theorem State.setChecks_kv (b : Nat) (l : List Check) : (s.setChecks b l).kv = s.kv := rfl
@[simp] theorem State.setChecks_bridle (b : Nat) (l : List Check) : (s.setChecks b l).bridle = s.bridle := rfl
@[simp] theorem State.setChecks_scrub (b : Nat) (l : List Check) : (s.setChecks b l).scrub = s.scrub := rfl
@[simp] theorem State.setChecks_pw (b : Nat) (l : List Check) : (s.setChecks b l).pw = s.pw := rfl
@[simp] theorem State.setChecks_mgmt (b : Nat) (l : List Check) : (s.setChecks b l).mgmt = s.mgmt := rfl
@[simp] theorem State.setChecks_cx (b : Nat) (l : List Check) : (s.setChecks b l).cx = s.cx := rfl
@[simp] theorem State.setChecks_reg (b : Nat) (l : List Check) (r1 : Reg) (i1 : Nat) : (s.setChecks b l).reg r1 i1 = s.reg r1 i1 := rfl
@[simp] theorem State.setChecks_f (b : Nat) (l : List Check) (r1 : Reg) (i1 lo1 n1 : Nat) : (s.setChecks b l).f r1 i1 lo1 n1 = s.f r1 i1 lo1 n1 := rfl
@[simp] theorem State.setChecks_rdByte (b : Nat) (l : List Check) (a1 : Nat) : (s.setChecks b l).rdByte a1 = s.rdByte a1 := rfl
@[simp] theorem State.setChecks_tagAt (b : Nat) (l : List Check) (a1 : Nat) : (s.setChecks b l).tagAt a1 = s.tagAt a1 := rfl
@[simp] theorem State.setChecks_poisonAt (b : Nat) (l : List Check) (a1 : Nat) : (s.setChecks b l).poisonAt a1 = s.poisonAt a1 := rfl

@[simp] theorem State.updStage_card (g : Stage → Stage) : (s.updStage g).card = s.card := rfl
@[simp] theorem State.updStage_now (g : Stage → Stage) : (s.updStage g).now = s.now := rfl
@[simp] theorem State.updStage_pending (g : Stage → Stage) : (s.updStage g).pending = s.pending := rfl
@[simp] theorem State.updStage_regs (g : Stage → Stage) : (s.updStage g).regs = s.regs := rfl
@[simp] theorem State.updStage_lows (g : Stage → Stage) : (s.updStage g).lows = s.lows := rfl
@[simp] theorem State.updStage_caps (g : Stage → Stage) : (s.updStage g).caps = s.caps := rfl
@[simp] theorem State.updStage_mem (g : Stage → Stage) : (s.updStage g).mem = s.mem := rfl
@[simp] theorem State.updStage_poison (g : Stage → Stage) : (s.updStage g).poison = s.poison := rfl
@[simp] theorem State.updStage_dpoison (g : Stage → Stage) : (s.updStage g).dpoison = s.dpoison := rfl
@[simp] theorem State.updStage_full (g : Stage → Stage) : (s.updStage g).full = s.full := rfl
@[simp] theorem State.updStage_dbase (g : Stage → Stage) : (s.updStage g).dbase = s.dbase := rfl
@[simp] theorem State.updStage_free (g : Stage → Stage) : (s.updStage g).free = s.free := rfl
@[simp] theorem State.updStage_out (g : Stage → Stage) : (s.updStage g).out = s.out := rfl
@[simp] theorem State.updStage_ras (g : Stage → Stage) : (s.updStage g).ras = s.ras := rfl
@[simp] theorem State.updStage_link (g : Stage → Stage) : (s.updStage g).link = s.link := rfl
@[simp] theorem State.updStage_dcoh (g : Stage → Stage) : (s.updStage g).dcoh = s.dcoh := rfl
@[simp] theorem State.updStage_gb (g : Stage → Stage) : (s.updStage g).gb = s.gb := rfl
@[simp] theorem State.updStage_tack (g : Stage → Stage) : (s.updStage g).tack = s.tack := rfl
@[simp] theorem State.updStage_q (g : Stage → Stage) : (s.updStage g).q = s.q := rfl
@[simp] theorem State.updStage_kv (g : Stage → Stage) : (s.updStage g).kv = s.kv := rfl
@[simp] theorem State.updStage_bridle (g : Stage → Stage) : (s.updStage g).bridle = s.bridle := rfl
@[simp] theorem State.updStage_scrub (g : Stage → Stage) : (s.updStage g).scrub = s.scrub := rfl
@[simp] theorem State.updStage_pw (g : Stage → Stage) : (s.updStage g).pw = s.pw := rfl
@[simp] theorem State.updStage_mgmt (g : Stage → Stage) : (s.updStage g).mgmt = s.mgmt := rfl
@[simp] theorem State.updStage_cx (g : Stage → Stage) : (s.updStage g).cx = s.cx := rfl
@[simp] theorem State.updStage_reg (g : Stage → Stage) (r1 : Reg) (i1 : Nat) : (s.updStage g).reg r1 i1 = s.reg r1 i1 := rfl
@[simp] theorem State.updStage_f (g : Stage → Stage) (r1 : Reg) (i1 lo1 n1 : Nat) : (s.updStage g).f r1 i1 lo1 n1 = s.f r1 i1 lo1 n1 := rfl
@[simp] theorem State.updStage_rdByte (g : Stage → Stage) (a1 : Nat) : (s.updStage g).rdByte a1 = s.rdByte a1 := rfl
@[simp] theorem State.updStage_tagAt (g : Stage → Stage) (a1 : Nat) : (s.updStage g).tagAt a1 = s.tagAt a1 := rfl
@[simp] theorem State.updStage_poisonAt (g : Stage → Stage) (a1 : Nat) : (s.updStage g).poisonAt a1 = s.poisonAt a1 := rfl

@[simp] theorem State.updPw_card (g : Power → Power) : (s.updPw g).card = s.card := rfl
@[simp] theorem State.updPw_now (g : Power → Power) : (s.updPw g).now = s.now := rfl
@[simp] theorem State.updPw_pending (g : Power → Power) : (s.updPw g).pending = s.pending := rfl
@[simp] theorem State.updPw_regs (g : Power → Power) : (s.updPw g).regs = s.regs := rfl
@[simp] theorem State.updPw_lows (g : Power → Power) : (s.updPw g).lows = s.lows := rfl
@[simp] theorem State.updPw_caps (g : Power → Power) : (s.updPw g).caps = s.caps := rfl
@[simp] theorem State.updPw_mem (g : Power → Power) : (s.updPw g).mem = s.mem := rfl
@[simp] theorem State.updPw_poison (g : Power → Power) : (s.updPw g).poison = s.poison := rfl
@[simp] theorem State.updPw_dpoison (g : Power → Power) : (s.updPw g).dpoison = s.dpoison := rfl
@[simp] theorem State.updPw_full (g : Power → Power) : (s.updPw g).full = s.full := rfl
@[simp] theorem State.updPw_dbase (g : Power → Power) : (s.updPw g).dbase = s.dbase := rfl
@[simp] theorem State.updPw_free (g : Power → Power) : (s.updPw g).free = s.free := rfl
@[simp] theorem State.updPw_out (g : Power → Power) : (s.updPw g).out = s.out := rfl
@[simp] theorem State.updPw_ras (g : Power → Power) : (s.updPw g).ras = s.ras := rfl
@[simp] theorem State.updPw_stage (g : Power → Power) : (s.updPw g).stage = s.stage := rfl
@[simp] theorem State.updPw_link (g : Power → Power) : (s.updPw g).link = s.link := rfl
@[simp] theorem State.updPw_dcoh (g : Power → Power) : (s.updPw g).dcoh = s.dcoh := rfl
@[simp] theorem State.updPw_gb (g : Power → Power) : (s.updPw g).gb = s.gb := rfl
@[simp] theorem State.updPw_tack (g : Power → Power) : (s.updPw g).tack = s.tack := rfl
@[simp] theorem State.updPw_q (g : Power → Power) : (s.updPw g).q = s.q := rfl
@[simp] theorem State.updPw_kv (g : Power → Power) : (s.updPw g).kv = s.kv := rfl
@[simp] theorem State.updPw_bridle (g : Power → Power) : (s.updPw g).bridle = s.bridle := rfl
@[simp] theorem State.updPw_scrub (g : Power → Power) : (s.updPw g).scrub = s.scrub := rfl
@[simp] theorem State.updPw_mgmt (g : Power → Power) : (s.updPw g).mgmt = s.mgmt := rfl
@[simp] theorem State.updPw_cx (g : Power → Power) : (s.updPw g).cx = s.cx := rfl
@[simp] theorem State.updPw_reg (g : Power → Power) (r1 : Reg) (i1 : Nat) : (s.updPw g).reg r1 i1 = s.reg r1 i1 := rfl
@[simp] theorem State.updPw_f (g : Power → Power) (r1 : Reg) (i1 lo1 n1 : Nat) : (s.updPw g).f r1 i1 lo1 n1 = s.f r1 i1 lo1 n1 := rfl
@[simp] theorem State.updPw_rdByte (g : Power → Power) (a1 : Nat) : (s.updPw g).rdByte a1 = s.rdByte a1 := rfl
@[simp] theorem State.updPw_tagAt (g : Power → Power) (a1 : Nat) : (s.updPw g).tagAt a1 = s.tagAt a1 := rfl
@[simp] theorem State.updPw_poisonAt (g : Power → Power) (a1 : Nat) : (s.updPw g).poisonAt a1 = s.poisonAt a1 := rfl

@[simp] theorem State.updMgmt_card (g : Mgmt → Mgmt) : (s.updMgmt g).card = s.card := rfl
@[simp] theorem State.updMgmt_now (g : Mgmt → Mgmt) : (s.updMgmt g).now = s.now := rfl
@[simp] theorem State.updMgmt_pending (g : Mgmt → Mgmt) : (s.updMgmt g).pending = s.pending := rfl
@[simp] theorem State.updMgmt_regs (g : Mgmt → Mgmt) : (s.updMgmt g).regs = s.regs := rfl
@[simp] theorem State.updMgmt_lows (g : Mgmt → Mgmt) : (s.updMgmt g).lows = s.lows := rfl
@[simp] theorem State.updMgmt_caps (g : Mgmt → Mgmt) : (s.updMgmt g).caps = s.caps := rfl
@[simp] theorem State.updMgmt_mem (g : Mgmt → Mgmt) : (s.updMgmt g).mem = s.mem := rfl
@[simp] theorem State.updMgmt_poison (g : Mgmt → Mgmt) : (s.updMgmt g).poison = s.poison := rfl
@[simp] theorem State.updMgmt_dpoison (g : Mgmt → Mgmt) : (s.updMgmt g).dpoison = s.dpoison := rfl
@[simp] theorem State.updMgmt_full (g : Mgmt → Mgmt) : (s.updMgmt g).full = s.full := rfl
@[simp] theorem State.updMgmt_dbase (g : Mgmt → Mgmt) : (s.updMgmt g).dbase = s.dbase := rfl
@[simp] theorem State.updMgmt_free (g : Mgmt → Mgmt) : (s.updMgmt g).free = s.free := rfl
@[simp] theorem State.updMgmt_out (g : Mgmt → Mgmt) : (s.updMgmt g).out = s.out := rfl
@[simp] theorem State.updMgmt_ras (g : Mgmt → Mgmt) : (s.updMgmt g).ras = s.ras := rfl
@[simp] theorem State.updMgmt_stage (g : Mgmt → Mgmt) : (s.updMgmt g).stage = s.stage := rfl
@[simp] theorem State.updMgmt_link (g : Mgmt → Mgmt) : (s.updMgmt g).link = s.link := rfl
@[simp] theorem State.updMgmt_dcoh (g : Mgmt → Mgmt) : (s.updMgmt g).dcoh = s.dcoh := rfl
@[simp] theorem State.updMgmt_gb (g : Mgmt → Mgmt) : (s.updMgmt g).gb = s.gb := rfl
@[simp] theorem State.updMgmt_tack (g : Mgmt → Mgmt) : (s.updMgmt g).tack = s.tack := rfl
@[simp] theorem State.updMgmt_q (g : Mgmt → Mgmt) : (s.updMgmt g).q = s.q := rfl
@[simp] theorem State.updMgmt_kv (g : Mgmt → Mgmt) : (s.updMgmt g).kv = s.kv := rfl
@[simp] theorem State.updMgmt_bridle (g : Mgmt → Mgmt) : (s.updMgmt g).bridle = s.bridle := rfl
@[simp] theorem State.updMgmt_scrub (g : Mgmt → Mgmt) : (s.updMgmt g).scrub = s.scrub := rfl
@[simp] theorem State.updMgmt_pw (g : Mgmt → Mgmt) : (s.updMgmt g).pw = s.pw := rfl
@[simp] theorem State.updMgmt_cx (g : Mgmt → Mgmt) : (s.updMgmt g).cx = s.cx := rfl
@[simp] theorem State.updMgmt_reg (g : Mgmt → Mgmt) (r1 : Reg) (i1 : Nat) : (s.updMgmt g).reg r1 i1 = s.reg r1 i1 := rfl
@[simp] theorem State.updMgmt_f (g : Mgmt → Mgmt) (r1 : Reg) (i1 lo1 n1 : Nat) : (s.updMgmt g).f r1 i1 lo1 n1 = s.f r1 i1 lo1 n1 := rfl
@[simp] theorem State.updMgmt_rdByte (g : Mgmt → Mgmt) (a1 : Nat) : (s.updMgmt g).rdByte a1 = s.rdByte a1 := rfl
@[simp] theorem State.updMgmt_tagAt (g : Mgmt → Mgmt) (a1 : Nat) : (s.updMgmt g).tagAt a1 = s.tagAt a1 := rfl
@[simp] theorem State.updMgmt_poisonAt (g : Mgmt → Mgmt) (a1 : Nat) : (s.updMgmt g).poisonAt a1 = s.poisonAt a1 := rfl

end Sys2Proof.Machine
end

