-- ==== Sys2Proof/Tests/Slice0.lean ====
section
/-! SUPPORT. Tests: ill-formed commands, and for each clause of the statements a state and operands that meet its
hypotheses. -/

namespace Sys2Proof.Tests

open Sys2Proof
open Sys2Proof.Machine

set_option Elab.async false

/-! ## Ill-formed commands are told -/

theorem test_ill_formed_1 : ([.registerWrite 18 0 4 0 false [], .registerWrite 0 0 3 0 false [], .registerReadCapture 18 0 4,
    .registerReadCapture 0 0 3, .configRequest 16 0, .configRequest 0 2, .tamper 8, .restage 18 0,
    .drvHandshake 16 4 false 0, .drvHandshake 0 3 false 0, .f0Flr 16, .ldBind 16, .memRd 16 0 (.any),
    .memWr 16 0 (.any) 0 false, .birsp 16 0 (.i) none, .biconflict 16 0, .bar2PaddockAccess 16 0 1 none,
    .bar2PaddockAccess 0 0 65 none, .rslotAck 16 0 1 0, .rslotAck 0 0 65 0,
    .initiateDynamicCapacityAdd 18 [] 0 [] none, .initiateDynamicCapacityRelease 18 0 0 false,
    .initiateDynamicCapacityRelease 0 0 16 false, .addDynamicCapacityResponse 16 0 false] : List Instr).all (fun c => !wellFormed c) = true := by
  decide

theorem test_ill_formed_2 : ([.getEventRecords 16 0, .getEventRecords 0 4, .clearEventRecords 16 0 0, .clearEventRecords 0 4 0,
    .setEventInterruptPolicy 16 0, .setTimestamp 16 0, .getLog 16 false, .getPoisonList 16 0 0,
    .clearPoison 16 0 0, .unsupportedMailboxCommand 16 0, .unsupportedMailboxCommand 0 65536,
    .keyExchange 16 0 0 false, .editTake 18, .debugSubmit 18 false none, .sqEnable 18 0 0, .sqEnable 0 1024 0,
    .streamQEnable 18 0 0, .streamQEnable 0 256 0, .ringEnable 18 0 0, .ringEnable 0 2304 0,
    .barrierEnable 18 0 0, .barrierEnable 0 512 0, .hitchCfgEnable 18 0 0, .hitchCfgEnable 0 16 0] : List Instr).all (fun c => !wellFormed c) = true := by
  decide

theorem test_ill_formed_3 : ([.bridleEnable 18 0 0, .bridleEnable 0 36 0, .reinPortEnable 18 0 0, .reinPortEnable 0 2 0,
    .tackCheckComplete 16, .dmaSlotAccess 32 [], .cmdmaTakeEffect 32, .paddockBankAccess 4 0,
    .paddockBankAccess 0 32, .tagRetry 32 0 0 false, .tagRetry 0 4 0 false, .tagRetry 0 0 8 false,
    .tagWaitRejoin 4, .tagTimeout 32 0 0, .tagTimeout 0 4 0, .tagTimeout 0 0 8, .ringResvGrant 8192,
    .eccWriteback 0 0 0 5 false none, .onchipScrub 37 [], .dramPatrol 32 [], .scrubLate 37, .dramPatrolLate 32,
    .engineIssue ⟨32, 0, 0, false⟩, .engineIssue ⟨0, 8, 0, false⟩] : List Instr).all (fun c => !wellFormed c) = true := by
  decide

theorem test_ill_formed_4 : ([.contextWake 32 0 0 false, .contextWake 0 8 0 false, .mxLda 32 false, .barArrive ⟨32, 0, 0, false⟩ 0,
    .barArrive ⟨0, 8, 0, false⟩ 0, .barArrive ⟨0, 0, 0, false⟩ 4, .kvWalk 32 0, .kvWalk 0 8, .kvAppend 32 [] [],
    .dmaTransferComplete 32 0 [], .commandAccept 1024, .sqFlush 18 0 0 [], .sqFlush 0 1024 0 [],
    .cqIrqTimer 1024, .memCopy 1024 [], .hrnLoad 1024 [], .bridleGrant 36 0 false false [], .bridleHoldLimit 36,
    .dataFlit 2 false ⟨0, 0, [], false, [], 0, 0⟩, .replayTimeout 2, .init 2 0 0 false false 0 0 [],
    .credSync 2 0 0 0 false, .syncAck 2 false, .retrain 2 none] : List Instr).all (fun c => !wellFormed c) = true := by
  decide

theorem test_ill_formed_5 : ([.reinLinkDown 2 0, .rresvRetry 0 4096, .stallFatal 16 0, .coreReset 32 0, .pwmPeriod 6 0,
    .overcurrentTrip 6 false, .thermalTick 6 0, .tempSensorFrozen 6 false, .thermalTrip 6,
    .fanControlTick 101 0, .setEndpointId 3 0, .setEndpointId 0 256, .getEndpointId 3,
    .getMctpVersionSupport 3 0, .getMctpVersionSupport 0 256, .setTid 3 0, .setTid 0 256, .getPdr 3 0,
    .setEventReceiver 3 false, .passComponentTable 3 [], .updateComponent 3 0, .updateComponent 0 2,
    .identify 18, .setLdAllocations 18 [] []] : List Instr).all (fun c => !wellFormed c) = true := by
  decide

theorem test_ill_formed_6 : ([.setQosControl 18 0, .setQosAllocatedBw 18 [], .getHostDcRegionConfiguration 18 0,
    .getHostDcRegionConfiguration 0 16, .traceStart 18 0 0, .traceStart 0 16 0, .dbgRead 18 none,
    .dbgHalt (some 18) 0, .headLinkL0 2 0 0 false false false, .headLinkL0 0 6 0 false false false,
    .headLinkL0 0 0 5 false false false, .hitchBankAccess 16] : List Instr).all (fun c => !wellFormed c) = true := by
  decide

/-! ## Small machines -/

/-- The next state of an outcome. -/
def got (o : Host.Outcome State Fault Refusal) : State :=
  match o with
  | .next t => t
  | _ => State.reset

/-- The card in Canter: power-good, both images running, requester 0 present and host Owner, DRAM zero; stall 0 is valid
for requester 0, with cores 0 and 1, hitches 0 to 15, barriers, Paddock rings, SQs, CQs and result slots from 0, the
Paddock's first 64 KiB and DRAM blocks 0 and 1. -/
def tUp : State :=
  { State.reset with
    dbase := [(0, 960, 0)]
    stage := { State.reset.stage with perst := false, mgmtVerified := true, ctrlVerified := true, bistDone := true }
    regs := [(Reg.off .devReqPresent 0, 1), (Reg.off .stageStatus 0, 0xC3), (Reg.off .activeCfg 0, 5), (Reg.off .activeCores 0, 3),
      (Reg.off .activeHitch 0, 0x100000), (Reg.off .activeBarrier 0, 0x40000), (Reg.off .activePring 0, 0x40000),
      (Reg.off .activeSq 0, 0x20000), (Reg.off .activeCq 0, 0x20000), (Reg.off .activeRslot 0, 0x10000),
      (Reg.off .activePwin 0, 0x100000001), (Reg.off .activeDwin 0, 0x2000000000001), (Reg.off .vrCtl 0, 0x6B),
      (Reg.off .vrStatus 0, 0x100000), (Reg.off .gbOwner 0, 3)] }

theorem wit_up_canonical : tUp.Inv := by unfold State.Inv; decide

/-- Task 1 of stall 0 on core 0. -/
def tTask : Task :=
  { id := 1, stall := 0, sq := 0, seq := 1, entry := 0, team := [0], phase := .running, args := 0, resAddr := 0x100000000000
    limitMs := 100, ranNs := 0, startNs := 0, abort := none, resumed := false, hitches := [], frame := 0, resume := []
    preempt := none, kill := none, saved := none, cut := false, accw := [], remote := [], inline_ := [] }

/-- Bytes from an address on, the zeros unlisted. -/
def cells (a : Nat) : List Byte → List Host.Cell
  | [] => []
  | b :: t => (if b = 0 then [] else [(a, b)]) ++ cells (a + 1) t

/-- Core 0 runs task 1 of a harness of 2 words, with one context, the words at its PC. -/
def tCore (w : Nat) (k : Ctx) : State :=
  { tUp with
    mem := cells (isBase 0 + 4 * k.pc) (leBytes 8 w) ++ cells (hrnBase 0 + 0x0A) (leBytes 2 (k.pc + 2)) ++ cells (hrnBase 0 + 0x12) [1]
    q := { Queues.idle with tasks := [tTask] }
    cx := { Complex.idle with cores := [(0, { ShuzoCore.idle with task := some 1, ctxs := [(0, k)] })] } }

/-- A started context with g registers. -/
def tCtx (g : List (Nat × Word)) : Ctx := { Ctx.idle with started := true, g := g }

/-- The issue of context 0 of core 0. -/
def tIs (w : Nat) : Issue := ⟨0, 0, BitVec.ofNat 64 w, false⟩

/-- A 32-bit instruction with RD 3, RS1 1 and RS2 2 (R355): MAJOR [31:26], PRED [25:23], PNEG [22], RD [21:17], RS1
[16:12], RS2 [11:7], MINOR [6:0]. -/
def w3 (major minor : Nat) : Nat := major * 2 ^ 26 + 3 * 2 ^ 17 + 1 * 2 ^ 12 + 2 * 2 ^ 7 + minor
/-- With RS2 zero. -/
def w2 (major minor : Nat) : Nat := major * 2 ^ 26 + 3 * 2 ^ 17 + 1 * 2 ^ 12 + minor
/-- With RD zero. -/
def wn (major minor : Nat) : Nat := major * 2 ^ 26 + 1 * 2 ^ 12 + 2 * 2 ^ 7 + minor

/-- Context 0 of core 0 issues the words, which spell the instruction. -/
abbrev tIssues (o : Op) (w : Nat) (k : Ctx) : Prop := Issues (tIs w) o (tCore w k) tTask

/-- What g3 holds after. -/
def g3 (o : Host.Outcome State Fault Refusal) : Word × Bool := ((got o).ctx 0 0).rg 3

/-- The code of the newest fault-log entry. -/
def lastFault (s : State) : Nat := fld (s.reg .rasLogEntry (8 * (s.nextSeq - 1))) 32 16

/-- Registers set. -/
def regs (s : State) (l : List (Reg × Nat × Word)) : State := l.foldl (fun s e => s.setReg e.1 e.2.1 e.2.2) s

/-! ## The scalar unit -/

/-- Two operands at the corners: −2^63 and −1. -/
def tMin : Ctx := tCtx [(1, 0x8000000000000000), (2, 0xFFFFFFFFFFFFFFFF)]
/-- A divisor of zero. -/
def tDiv0 : Ctx := tCtx [(1, 7)]

theorem wit_alu_binary : ([(Op.add, 0x00), (.sub, 0x01), (.and, 0x02), (.or, 0x03), (.xor, 0x04), (.andn, 0x05),
    (.sll, 0x06), (.srl, 0x07), (.sra, 0x08), (.ror, 0x09), (.mul, 0x0A), (.mulhu, 0x0B), (.mulhs, 0x0C), (.divu, 0x0D),
    (.divs, 0x0E), (.remu, 0x0F), (.rems, 0x10), (.min, 0x11), (.max, 0x12), (.minu, 0x13), (.maxu, 0x14), (.addw, 0x1C),
    (.subw, 0x1D), (.slt, 0x1E), (.sltu, 0x1F)] : List (Op × Nat)).all
    (fun e => decide (tIssues e.1 (w3 0 e.2) tMin) && decide (tIssues e.1 (w3 0 e.2) tDiv0)) = true := by decide

theorem wit_alu_unary : ([(Op.clz, 0x15), (.ctz, 0x16), (.popc, 0x17), (.sextb, 0x18), (.sexth, 0x19), (.sextw, 0x1A),
    (.zextw, 0x1B)] : List (Op × Nat)).all (fun e => decide (tIssues e.1 (w2 0 e.2) tMin)) = true := by decide

theorem test_divu_zero : g3 (exec (.divu (tIs (w3 0 0x0D))) (tCore (w3 0 0x0D) tDiv0)) = (BitVec.allOnes 64, false) := by decide
theorem test_remu_zero : g3 (exec (.remu (tIs (w3 0 0x0F))) (tCore (w3 0 0x0F) tDiv0)) = (7, false) := by decide
theorem test_divs_overflow : g3 (exec (.divs (tIs (w3 0 0x0E))) (tCore (w3 0 0x0E) tMin)) = (0x8000000000000000, false) := by decide
theorem test_rems_overflow : g3 (exec (.rems (tIs (w3 0 0x10))) (tCore (w3 0 0x10) tMin)) = (0, false) := by decide
theorem test_mulhs : g3 (exec (.mulhs (tIs (w3 0 0x0C))) (tCore (w3 0 0x0C) tMin)) = (0, false) := by decide
theorem test_subw : g3 (exec (.subw (tIs (w3 0 0x1D))) (tCore (w3 0 0x1D) (tCtx [(2, 0x80000000)]))) =
    (0xFFFFFFFF80000000, false) := by decide
theorem test_sra_63 : g3 (exec (.sra (tIs (w3 0 0x08))) (tCore (w3 0 0x08) tMin)) = (BitVec.allOnes 64, false) := by decide
theorem test_add_poison : g3 (exec (.add (tIs (w3 0 0))) (tCore (w3 0 0) { tCtx [(1, 7), (2, 1)] with gp := [2] })) = (8, true) := by decide

theorem wit_immediates : (decide (tIssues .addi (w2 1 0xFFF) tMin) && decide (tIssues .andi (w2 2 0xFFF) tMin)
    && decide (tIssues .ori (w2 3 0x800) tMin) && decide (tIssues .xori (w2 4 0) tMin)
    && (List.range 4).all fun kind => decide (tIssues .shi (w2 5 (64 * kind + 63)) tMin)) = true := by decide
theorem wit_movw : tIssues .movw (0x06 * 2 ^ 26 + 3 * 2 ^ 21 + 3 * 2 ^ 19 + 2 ^ 18 + 0xFFFF) tMin := by decide
theorem test_addi_minus : g3 (exec (.addi (tIs (w2 1 0xFFF))) (tCore (w2 1 0xFFF) (tCtx []))) = (BitVec.allOnes 64, false) := by decide
theorem test_movw_keep : g3 (exec (.movw (tIs (0x06 * 2 ^ 26 + 3 * 2 ^ 21 + 3 * 2 ^ 19 + 2 ^ 18 + 0x1234)))
    (tCore (0x06 * 2 ^ 26 + 3 * 2 ^ 21 + 3 * 2 ^ 19 + 2 ^ 18 + 0x1234) (tCtx [(3, 5)]))) = (0x1234000000000005, false) := by decide

theorem wit_compares : (decide (tIssues .cmp (w3 7 6) tMin) && decide (tIssues .cmpi (w2 0xF 0x1FF) tMin)
    && decide (tIssues .plog (7 * 2 ^ 26 + 7 * 2 ^ 17 + 7 * 2 ^ 12 + 7 * 2 ^ 7 + 8 + 3) tMin)
    && decide (tIssues .prd (7 * 2 ^ 26 + 31 * 2 ^ 7 + 16) tMin) && decide (tIssues .pwr (7 * 2 ^ 26 + 31 * 2 ^ 12 + 24) tMin)
    && decide (tIssues .ptst (0xE * 2 ^ 26 + 7 * 2 ^ 17 + 1 * 2 ^ 12 + 2) tMin)) = true := by decide
theorem test_cmp_poison : lastFault (got (exec (.cmp (tIs (w3 7 0))) (tCore (w3 7 0) { tMin with gp := [1] }))) =
    FaultCode.poisonConsumed.code := by decide
theorem test_plog : (((got (exec (.pwr (tIs (7 * 2 ^ 26 + 1 * 2 ^ 12 + 24))) (tCore (7 * 2 ^ 26 + 1 * 2 ^ 12 + 24)
    (tCtx [(1, 0xA4)])))).ctx 0 0).p) = [2, 5, 7] := by decide

/-- VGET of lane 31 of v7 to g3. -/
def wVget : Nat := 0xE * 2 ^ 26 + 3 * 2 ^ 17 + 7 * 2 ^ 12 + 31 * 2 ^ 7
/-- A context with lane 31 of v7 not zero and poisoned. -/
def tLanes : Ctx := { tCtx [(1, 9)] with v := [(7, (5 : VReg) <<< 1984)], vp := [(7, 0x80000000)] }
theorem wit_lanes : tIssues .vget wVget tLanes ∧ (tCore wVget tLanes).vBusy 0 0 7 = false
    ∧ tIssues .vput (0xE * 2 ^ 26 + 7 * 2 ^ 17 + 1 * 2 ^ 12 + 31 * 2 ^ 7 + 1) tLanes
    ∧ tIssues .vpmask (0xE * 2 ^ 26 + 3 * 2 ^ 17 + 7 * 2 ^ 12 + 3) tLanes := by decide
theorem test_vget : g3 (exec (.vget (tIs wVget)) (tCore wVget tLanes)) = (5, true) := by decide +kernel

/-- An engine instruction of context 0 in a queue, its words and captured registers. -/
def tOp (w : Word) (a b c : Word) : EOp :=
  { ctx := 0, pc := 0, word := w, ga := a, gb := b, gc := c, gap := false, gbp := false, gcp := false, tick := 0, c4 := 0
    c5 := 0, c6 := 0, done := 0, since := none, began := false }
/-- The core with a VXE instruction queued. -/
def withVxe (s : State) (o : EOp) : State := s.updCore 0 fun k => { k with vxq := [o] }
/-- VMOV v7, v1. -/
def wVmov : Word := 0x30 * 2 ^ 26 + 0x0D * 2 ^ 16 + 7 * 2 ^ 12 + 1 * 2 ^ 9
theorem wit_lanes_busy : (withVxe (tCore wVget tLanes) (tOp wVmov 0 0 0)).vBusy 0 0 7 = true
    ∧ Issues (tIs wVget) .vget (withVxe (tCore wVget tLanes) (tOp wVmov 0 0 0)) tTask := by decide

theorem wit_branches : tIssues .br (0x08 * 2 ^ 26 + 0xFFFF) tMin ∧ tIssues .bal (0x09 * 2 ^ 26 + 3 * 2 ^ 17 + 0x7FFF) tMin
    ∧ tIssues .jr (0xC * 2 ^ 26 + 1 * 2 ^ 12 + 0x20) (tCtx [(1, 0x3FFF)])
    ∧ tIssues .jalr (0xC * 2 ^ 26 + 1 * 2 ^ 17 + 1 * 2 ^ 12 + 0x21) (tCtx [(1, 0x3FFF)])
    ∧ (tCtx [(1, 0x3FFF)]).rg 1 = (0x3FFF, false) ∧ (0x3FFF : Word).toNat < 2 ^ 14 := by decide
theorem wit_jumps_fault : tIssues .jr (0xC * 2 ^ 26 + 1 * 2 ^ 12 + 0x20) (tCtx [(1, 0x4000)])
    ∧ tIssues .jalr (0xC * 2 ^ 26 + 3 * 2 ^ 17 + 1 * 2 ^ 12 + 0x21) { tCtx [(1, 0x4000)] with gp := [1] }
    ∧ 2 ^ 14 ≤ (0x4000 : Word).toNat := by decide
theorem test_br_back : ((got (exec (.br (tIs (0x08 * 2 ^ 26 + 0xFFFF))) (tCore (0x08 * 2 ^ 26 + 0xFFFF) { tMin with pc := 5 }))).ctx 0 0).pc = 4 := by
  decide
theorem test_jalr_same : ((got (exec (.jalr (tIs (0xC * 2 ^ 26 + 1 * 2 ^ 17 + 1 * 2 ^ 12 + 0x21)))
    (tCore (0xC * 2 ^ 26 + 1 * 2 ^ 17 + 1 * 2 ^ 12 + 0x21) (tCtx [(1, 0x3FFF)])))).ctx 0 0) =
    { tCtx [(1, 1)] with pc := 0x3FFF } := by decide

theorem wit_cregs : tIssues .crr (0x10 * 2 ^ 26 + 3 * 2 ^ 17 + 0xF) tMin
    ∧ [3, 4, 5, 6, 7, 8].all (fun n => decide (tIssues .crw (0x11 * 2 ^ 26 + 1 * 2 ^ 12 + n) tMin)) = true := by decide
theorem wit_cmdma : (((tCore 0 tMin).updCore 31 fun k => { k with cmdma := some (3, 0xFFFF) }).core 31).cmdma = some (3, 0xFFFF) := by
  decide

theorem wit_yield : tIssues .yield (0x12 * 2 ^ 26) tMin
    ∧ 0 < (issueTook (tIs (0x12 * 2 ^ 26)) (tCore (0x12 * 2 ^ 26) tMin)).hdr 0 0x12 2 := by decide
/-- CTXGO of context 7 at g1. -/
def wCtxgo : Nat := 0x13 * 2 ^ 26 + 7 * 2 ^ 17 + 1 * 2 ^ 12 + 2 * 2 ^ 7
theorem wit_ctxgo : tIssues .ctxgo wCtxgo (tCtx [(1, 0x3FFF)])
    ∧ ((issueTook (tIs wCtxgo) (tCore wCtxgo (tCtx [(1, 0x3FFF)]))).ctx 0 7).started = false := by decide
theorem wit_context_ends : tIssues .ctxend (0x14 * 2 ^ 26) tMin ∧ tIssues .drain (0x15 * 2 ^ 26 + 0xF) tMin
    ∧ tIssues .abort (0x16 * 2 ^ 26 + 0xFFF) tMin := by decide
theorem test_ctxgo : ((got (exec (.ctxgo (tIs wCtxgo)) (tCore wCtxgo (tCtx [(1, 0x3FFF), (2, 9)])))).ctx 0 7) =
    { tCtx [(1, 9)] with pc := 0x3FFF } := by decide
theorem test_abort_code : fld ((got (exec (.abort (tIs (0x16 * 2 ^ 26 + 0xFFF))) (tCore (0x16 * 2 ^ 26 + 0xFFF) tMin))).reg .rasLogEntry 6) 0 64 =
    0xFFF := by decide

/-- A context that waits. -/
def tWaits (w : Wait) (r : Option (Word × Bool)) : Ctx := { tMin with wait := w, ret := r }
theorem wit_context_wake : ((tCore 0 (tWaits (.result (some 31)) (some (5, true)))).taskOn 0 = some tTask ∧ tTask.phase.live = true)
    ∧ (tCore 0 (tWaits (.host 31 8 false) none)).present ((tCore 0 (tWaits (.host 31 8 false) none)).active.hostReq 0) = true
    ∧ (tCore 0 (tWaits (.drain 0xF) none)).drained 0 0 0xF = true := by decide

theorem wit_pc_range : (tCore 0 { tMin with pc := 0x3FFF }).taskOn 0 = some tTask
    ∧ ({ tCore 0 tMin with mem := [] }).hdr 0 0x0A 2 ≤ 0 ∧ (tCore 0 tMin).mayIssue 0 = true := by decide
theorem wit_illegal : (tCore 0x7FFFFFFF tMin).fetch 0 0 = (tIs 0x7FFFFFFF).word ∧ decodeOp (tIs 0x7FFFFFFF).word = none
    ∧ 0 + wordsOf (tIs 0x7FFFFFFF).word ≤ (tCore 0x7FFFFFFF tMin).hdr 0 0x0A 2 := by decide
theorem wit_predicate_false : (tCore (w3 0 0 + 2 ^ 22) tMin).fetch 0 0 = (tIs (w3 0 0 + 2 ^ 22)).word
    ∧ decodeOp (tIs (w3 0 0 + 2 ^ 22)).word = some .add ∧ tMin.executes (tIs (w3 0 0 + 2 ^ 22)).word = false := by decide
theorem test_illegal_op : lastFault (got (exec (.add (tIs 0x7FFFFFFF)) (tCore 0x7FFFFFFF tMin))) = FaultCode.illegalOp.code := by decide
theorem wit_address : (0xFFFFFFFFFFFF : Word).toNat < 2 ^ 48 ∧ 2 ^ 48 ≤ (0x1000000000000 : Word).toNat := by decide

/-! ## Loads, stores, atomics and tags -/

/-- LD, LDX, ST and STX of 8 bytes at g1. -/
def wLd : Nat := 0xA * 2 ^ 26 + 3 * 2 ^ 17 + 1 * 2 ^ 12 + 3 * 2 ^ 10
def wSt : Nat := 0xB * 2 ^ 26 + 3 * 2 ^ 17 + 1 * 2 ^ 12 + 3 * 2 ^ 10
def wLdx : Nat := 0xC * 2 ^ 26 + 3 * 2 ^ 17 + 1 * 2 ^ 12 + 3
def wStx : Nat := 0xC * 2 ^ 26 + 3 * 2 ^ 17 + 1 * 2 ^ 12 + 0x13
/-- g1 at an address, g3 with data. -/
def tAt (a : Nat) : Ctx := tCtx [(1, BitVec.ofNat 64 a), (3, 0x1122334455667788)]

theorem wit_loads_stores : ([(Op.ld, wLd), (.st, wSt), (.ldx, wLdx), (.stx, wStx)] : List (Op × Nat)).all
    (fun e => decide (tIssues e.1 e.2 (tAt (2 ^ 48 - 8)))) = true
    ∧ (2 ^ 48 - 8) % 8 = 0 ∧ ((2 ^ 48 - 8 : Nat)) < 2 ^ 48 := by decide

/-- What the instruction works with. -/
def tX (w : Nat) (k : Ctx) : X := issueX (tIs w) (tCore w k) tTask

theorem wit_load_local : (regionOf 0x1FFFF8).isCm = true ∧ ((tX wLd (tAt 0)).touch (tCore wLd (tAt 0)) 0x1FFFF8 false).1 = .ok
    ∧ ((tX wLd (tAt 0)).touch (tCore wLd (tAt 0)) 0 true).1 = .ok := by decide
theorem wit_load_busy_buffer : regionOf 0x83FFF8 = .ob 2
    ∧ ((tCore wLd (tAt 0)).updCore 0 fun k => { k with mxq := [tOp 0 0 0 0] }).mxeIdle 0 = false := by decide
theorem wit_access_dram : regionOf 0x100000000000 = .dram
    ∧ (tCore wLd (tAt 0)).place 0 (0x100020000000 - 8) false = some (.dram (2 ^ 29 - 8))
    ∧ (tCore wLd (tAt 0)).place 0 0x100000000000 true = some (.dram 0)
    ∧ ((tCore wLd (tAt 0)).hdmDb 0 && !(tCore wLd (tAt 0)).lineFree 0 true) = false
    ∧ (tCore wLd (tAt 0)).place 0 0x100020000000 false = none ∧ regionOf 0x100020000000 = .dram := by decide
theorem wit_access_paddock : regionOf 0x001000000000 = .paddock
    ∧ (tCore wLd (tAt 0)).place 0 0x00100000FFF8 false = some (.paddock 0xFFF8)
    ∧ (tCore wLd (tAt 0)).place 0 0x001000000000 true = some (.paddock 0) := by decide
theorem wit_access_host : regionOf 0x200000000000 = .host
    ∧ (tCore wLd (tAt 0)).place 0 0x200000000008 false = some (.host 0 8)
    ∧ (tCore wLd (tAt 0)).place 0 0x3FFFFFFFFFF8 true = some (.host 0 0x1FFFFFFFFFF8) := by decide
theorem wit_access_elsewhere : regionOf 0x000100000000 = .core ∧ regionOf 0x400000000000 = .remote
    ∧ regionOf 0x002000000000 = .hitch ∧ regionOf 0x200000 = .none_ := by decide
theorem test_ld_misaligned : lastFault (got (exec (.ld (tIs wLd)) (tCore wLd (tAt 4)))) = FaultCode.misalignedAccess.code := by decide
theorem test_st_dram : ((got (exec (.st (tIs wSt)) (tCore wSt (tAt 0x100000000008)))).rdNat 0 24) = 0x1122334455667788 * 2 ^ 64 := by
  decide +kernel
theorem test_ld_beyond : lastFault (got (exec (.ld (tIs wLd)) (tCore wLd (tAt (2 ^ 48))))) = FaultCode.windowViolation.code := by decide

/-- Data line 0 to 2 of a fill lie in blocks 0 and 1; byte 0x300 does not. -/
theorem wit_fill_frame : (List.range 3).all (fun j => decide (tUp.place 0 (0x100000000000 + 256 * j) true = some (.dram (256 * j)))) = true
    ∧ ¬ (0x300 : Nat) < 2 * 256 ∧ 2 * 256 + 256 ≤ 0x300 := by decide
theorem wit_store_frame : (7 : Nat) < 8 ∨ 8 + 8 ≤ 7 := by decide
theorem wit_quiet : ([.opChange, .opChangeComplete, .droopAlarm, .adaptTick 0, .fanStart, .auxDetect true, .v12bUndervoltage true,
    .powerGoodRetry, .ldQosInterval, .getTimestamp 0, .getEventRecords 0 3, .getPoisonList 0 0 64, .setEndpointId 2 255,
    .syncAck 1 true, .credSyncResend 1, .dbgAccessTimeout, .rresvRetry 0 0] : List Instr).all
    (fun c => match exec c tUp with
      | .next _ => true
      | _ => false) = true := by decide +kernel

/-- Element atomics of the P-region at g1, with data in g2. -/
theorem wit_atomics : ([(Op.aaddW, wn 0xD 0), (.aaddWR, w3 0xD 1), (.aaddD, wn 0xD 2), (.aaddDR, w3 0xD 3), (.afxaddD, wn 0xD 6),
    (.afxaddS, wn 0xD 8), (.aswapW, w3 0xD 0xA), (.aswapD, w3 0xD 0xB), (.afaddS, wn 0xD 4), (.afaddSR, w3 0xD 5)] : List (Op × Nat)).all
    (fun e => decide (tIssues e.1 e.2 (tAt 0x1FFFF8))) = true := by decide
/-- Accumulator window 3 of core 0 over the last line of the P-region, scale 5. -/
def tWindow : State := (tCore (wn 0xD 6) (tAt 0x1FFFF8)).setReg .cmAccw 3 (1 + 5 * 2 ^ 8 + 1535 * 2 ^ 16 + 2 ^ 32)
theorem wit_atomic_region : regionOf 0x1FFFF8 = .p ∧ Atom.addD.aligned 0x1FFFF8 = true ∧ regionOf 0xFFFF8 = .w
    ∧ ((tX (wn 0xD 2) (tAt 0x1FFFF8)).touch tWindow 0x1FFFF8 true).1 = .ok ∧ tWindow.cmScale 0 0x1FFFF8 = some 5
    ∧ 0x1FFFF8 % 4 = 0 ∧ 0x1FFFF8 < 2 ^ 48 := by decide
theorem wit_atomic_paddock : tIssues .afaddSR (w3 0xD 5) (tAt 0x00100000FFF8)
    ∧ (issueTook (tIs (w3 0xD 5)) (tCore (w3 0xD 5) (tAt 0x00100000FFF8))).place 0 0x00100000FFF8 true = some (.paddock 0xFFF8) := by decide
theorem test_aadd_returns : g3 (exec (.aaddDR (tIs (w3 0xD 3))) ((tCore (w3 0xD 3) (tCtx [(1, 0x1A0000), (2, 2)])).wrNat
    (cmBase 0 + 0x1A0000) 8 (2 ^ 64 - 1))) = (BitVec.allOnes 64, false) := by decide

/-- TLD (consuming, peeking) and TST of the last slot of the A-region. -/
def wTld : Nat := 0x18 * 2 ^ 26 + 3 * 2 ^ 17 + 1 * 2 ^ 12 + 3 * 2 ^ 10
def wTst : Nat := 0x19 * 2 ^ 26 + 3 * 2 ^ 17 + 1 * 2 ^ 12 + 3 * 2 ^ 10
theorem wit_tagged : tIssues .tld wTld (tAt 0x19FFF8) ∧ tIssues .tst wTst (tAt 0x19FFF8) ∧ tIssues .tset (wn 0x1A 0 - 256) (tAt 0x19FF00)
    ∧ tIssues .tclr (wn 0x1A 1 - 256) (tAt 0x19FF00) ∧ tIssues .tprobe (w2 0x1A 2) (tAt 0x19FF00) := by decide
theorem wit_tags : regionOf 0x19FFF8 = .a ∧ (tCore wTld (tAt 0x19FFF8)).tagAt (cmBase 0 + 0x19FFF8) = false
    ∧ ((tCore wTld (tAt 0x19FFF8)).putTag (cmBase 0 + 0x19FFF8) true).tagAt (cmBase 0 + 0x19FFF8) = true
    ∧ ((tX wTld (tAt 0x19FFF8)).touch ((tCore wTld (tAt 0x19FFF8)).putTag (cmBase 0 + 0x19FFF8) true) 0x19FFF8 false).1 = .ok
    ∧ bitAt ((tCore wTld (tAt 0x19FFF8)).reg .cmCfg 0) (32 + bankAt 0x19FF00) = false := by decide
theorem test_tld_consumes : (got (exec (.tld (tIs wTld)) ((tCore wTld (tAt 0x19FFF8)).putTag (cmBase 0 + 0x19FFF8) true))).tagAt
    (cmBase 0 + 0x19FFF8) = false := by decide
theorem test_tst_waits : ((got (exec (.tst (tIs wTst)) ((tCore wTst (tAt 0x100000)).putTag (cmBase 0 + 0x100000) true))).ctx 0 0).wait =
    .tag (cmBase 0 + 0x100000) 0 := by decide

/-! ## Rings -/

/-- Ring 63 of core 0 with 2 slots at the start of the A-region, its RESV and HEAD. -/
def withRing (s : State) (ptr : Word) : State :=
  ((s.setReg .ringCtl 63 (1 + 2 * 2 ^ 16)).setReg .ringBase 63 0x100000).setReg .ringPtr 63 ptr
/-- A reference to it in g1: ring 63 of the own core. -/
def tRef : Ctx := tCtx [(1, 0x403F), (2, 0), (3, 9)]
/-- RING.RESV 1, FILL, PUSH, POP, PEEK and STATE. -/
def wRing (minor rd rs2 : Nat) : Nat := 0x1B * 2 ^ 26 + rd * 2 ^ 17 + 1 * 2 ^ 12 + rs2 * 2 ^ 7 + minor * 16
theorem wit_at_ring : AtRing (tIs (wRing 0 3 0)) (withRing (tCore (wRing 0 3 0) tRef) 0) tTask 63 ∧ ringCore 63 = some 0 := by decide
theorem wit_ring_instructions : ([(Op.ringResv, wRing 0 3 0), (.ringFill, wRing 1 3 2), (.ringPush, wRing 2 3 2), (.ringPop, wRing 3 3 0),
    (.ringPeek, wRing 4 3 2), (.ringState, wRing 5 3 0)] : List (Op × Nat)).all
    (fun e => decide (Issues (tIs e.2) e.1 (withRing (tCore e.2 tRef) 0) tTask)) = true := by decide
theorem wit_ring_grants : (withRing (tCore 0 tRef) 0).canGrant 63 2 = true ∧ (withRing (tCore 0 tRef) (2 ^ 33)).canGrant 63 1 = false := by
  decide
/-- The slot at HEAD is full. -/
def tFull : State := (withRing (tCore (wRing 3 3 0) tRef) (2 ^ 32)).putTag (cmBase 0 + 0x100000) true
theorem wit_ring_pop : tFull.firstPop 63 0 0 = true ∧ tFull.tagAt (tFull.ringKey 63 (tFull.ringHead 63)) = true
    ∧ ((tX (wRing 3 3 0) tRef).touch (tFull.dropPop 63 0 0) (tFull.ringAddr 63 (tFull.ringHead 63)) false).1 = .ok
    ∧ tFull.tagAt (cmBase 0 + tFull.ringAddr 63 ((tFull.ringHead 63 + 0 % 16) % 2 ^ 32)) = true := by decide
/-- A ring of which task 1 holds the last index before the count wraps. -/
def tCredit : State := (withRing (tCore (wRing 1 3 2) tRef) 0).setRing 63 { Ring.idle with credits := [(2 ^ 32 - 1, some 1, 0)] }
theorem wit_ring_fill : tCredit.holdsCredit 63 (2 ^ 32 - 1) (some 1) 0 = true ∧ tCredit.holdsCredit 63 0 (some 1) 0 = false
    ∧ tCredit.tagAt (cmBase 0 + tCredit.ringAddr 63 (2 ^ 32 - 1)) = false
    ∧ ((tX (wRing 1 3 2) tRef).touch tCredit (tCredit.ringAddr 63 (2 ^ 32 - 1) + 8 * (tX (wRing 1 3 2) tRef).imm4) true).1 = .ok := by
  decide
/-- A reservation of 2 of context 0 waits. -/
def tWaiter : State := (withRing (tCore 0 (tWaits (.resv 63 0) none)) 0).setRing 63
  { Ring.idle with waiters := [⟨.ctx 0 0, some 1, 2, 0⟩] }
theorem wit_ring_waiter : (tWaiter.ring 63).waiters = [⟨.ctx 0 0, some 1, 2, 0⟩] ∧ 2 ≤ tWaiter.ringCredits 63 ∧ tWaiter.ringOn 63 = true
    ∧ tWaiter.taskOn 0 = some tTask ∧ (tWaiter.ctx 0 0).wait = .resv 63 0 ∧ (tWaiter.ctx 0 0).ret = none
    ∧ ((tCore 0 (tWaits (.tag (cmBase 0 + 0x100000) 0) none)).ctx 0 0).wait = .tag (cmBase 0 + 0x100000) 0 := by decide
theorem test_ring_resv : g3 (exec (.ringResv (tIs (wRing 0 3 0 + 1))) (withRing (tCore (wRing 0 3 0 + 1) tRef) (2 ^ 64 - 2 ^ 32 + (2 ^ 32 - 1)))) =
    (0xFFFFFFFF, false) := by decide
theorem test_fill_no_credit : lastFault (got (exec (.ringFill (tIs (wRing 1 3 2))) (withRing (tCore (wRing 1 3 2) tRef) 0))) =
    FaultCode.noCredit.code := by decide
theorem test_pop_advances : ((got (exec (.ringPop (tIs (wRing 3 3 0))) tFull)).ringHead 63) = 1 := by decide
theorem test_credit_timeout : lastFault (got (exec (.creditTimeout 0 0 0) tWaiter)) = FaultCode.creditTimeout.code := by decide

/-! ## Hitches and barriers -/

/-- g1 at the last hitch of the stall, g2 a value. -/
def tHitch : Ctx := tCtx [(1, 0x002000000078), (2, 0x7FFFFFFFFFFFFFFF)]
/-- HITCH minors with RD 3, RS1 1 and RS2 2. -/
theorem wit_hitch : ([(Op.hwr, wn 0x1C 1), (.haddn, wn 0x1C 3), (.hadd, w3 0x1C 2), (.hwaitGe, w3 0x1C 4), (.hwaitEq, w3 0x1C 5),
    (.hwaitNe, w3 0x1C 6), (.hrd, w2 0x1C 0), (.hmon, w2 0x1C 8)] : List (Op × Nat)).all
    (fun e => decide (tIssues e.1 e.2 tHitch) && decide (AtHitch (tIs e.2) (tCore e.2 tHitch) tTask 15)) = true := by decide
/-- All four monitor slots hold other hitches; one of them has fired. -/
def tMons : Ctx := { tHitch with mon := [(0, ⟨1, false⟩), (1, ⟨2, false⟩), (2, ⟨3, true⟩), (3, ⟨4, false⟩)] }
theorem wit_monitors : (decide (4 ≤ tHitch.mon.length) && tHitch.mon.all fun m => m.2.idx != 15) = false
    ∧ tIssues .hmwait (0x1C * 2 ^ 26 + 3 * 2 ^ 17 + 9) tMons ∧ tMons.mon ≠ [] ∧ tMons.firedSlot = some (2, 3)
    ∧ tIssues .hmclr (0x1C * 2 ^ 26 + 10) tMons := by decide
theorem test_hmwait : g3 (exec (.hmwait (tIs (0x1C * 2 ^ 26 + 3 * 2 ^ 17 + 9))) (tCore (0x1C * 2 ^ 26 + 3 * 2 ^ 17 + 9) tMons)) =
    (0x002000000018, false) := by decide

/-- Hitch 15 holds a value. -/
def withHitch (v : Word) (poison : List Nat) : State :=
  (tCore 0 tHitch).setHs { (tCore 0 tHitch).cx.hs with val := [(15, v)], poison := poison }
/-- A request of context 0 at hitch 15. -/
def tReq (op : HOp) : HReq := ⟨15, op, 0, 0, 0, 1, 0, 0⟩
theorem wit_hitch_operations : (withHitch 5 [15]).hitchPoison 15 = true ∧ (withHitch 5 []).hitchPoison 15 = false
    ∧ bitAt ((withHitch 0x8000000000000000 []).hitch 15) 63 = true ∧ bitAt ((withHitch 0x7FFFFFFFFFFFFFFF []).hitch 15) 63 = false
    ∧ HCond.ge.met ((withHitch 0x7FFFFFFFFFFFFFFF []).hitch 15) 0x7FFFFFFFFFFFFFFF = true := by decide
theorem test_hadd_wraps : ((withHitch 0x7FFFFFFFFFFFFFFF []).hitchDo (tReq (.add 0x8000000000000001 false))).hitch 15 = 0 := by decide +kernel
theorem test_hadd_aborted : lastFault ((withHitch 0x8000000000000000 []).hitchDo (tReq (.add 1 false))) = FaultCode.hitchAborted.code := by
  decide
theorem test_write_cleans : ((withHitch 5 [15]).hitchDo (tReq (.write 6))).hitchPoison 15 = false := by decide +kernel

/-- A release-bus message is on its way to core 0. -/
def tBus : State := (tCore 0 tHitch).updCore 0 fun k => { k with bus := [(15, 7)] }
theorem wit_bus : (tBus.core 0).bus = [(15, 7)] ∧ (tBus.updCore 0 fun q => { q with bus := [] }).taskOn 0 = some tTask := by decide
theorem wit_hitch_timeout : ((tCore 0 (tWaits (.hitch .ge 15 9 0 5) none)).ctx 0 0).wait = .hitch .ge 15 9 0 5
    ∧ (tCore 0 (tWaits (.hitch .ge 15 9 0 5) none)).taskOn 0 = some tTask := by decide
theorem test_hitch_timeout : ((got (exec (.hitchTimeout 0 0 0) (tCore 0 (tWaits (.hitch .ge 15 9 0 5) none)))).now) = 250000000 := by decide

/-- Barrier 3, of 2 arrivals at hitch 15, enabled. -/
def withBarrier (s : State) : State := s.setReg .barrierCtl 3 (1 + 2 * 2 ^ 16 + 15 * 2 ^ 32)
/-- BAR.ARRIVE, BAR.WAIT and BAR.SYNC of barrier 3 with ENG 3. -/
def wBar (minor : Nat) : Nat := 0x3E * 2 ^ 26 + minor * 2 ^ 16 + 3 * 2 ^ 14 + 3 * 2 ^ 32
/-- A context that has joined barrier 3 at GEN 0. -/
def tJoined : Ctx := { tHitch with joined := some (3, 0) }
theorem wit_barriers : ([(Op.barArrive, wBar 1), (.barWait, wBar 2), (.barSync, wBar 3)] : List (Op × Nat)).all
    (fun e => decide (Issues (tIs e.2) e.1 (withBarrier (tCore e.2 tJoined)) tTask)
      && decide (queueOf (tIs e.2).word = 3) && decide (fld (tIs e.2).word 32 9 < (tUp.active.barrier 0).2)) = true := by decide
theorem wit_barrier_enabled : (issueTook (tIs 0) (withBarrier (tCore 0 tJoined))).inView (fun b => b.inRange Copy.barrier 0 3) = true
    ∧ (issueTook (tIs 0) (withBarrier (tCore 0 tJoined))).f .barrierCtl 3 0 1 ≠ 0 ∧ tJoined.joined = some (3, 0)
    ∧ ((tCore 0 (tWaits (.barrier 3 15 0 0) (some (1, false)))).ctx 0 0).wait = .barrier 3 15 0 0 := by decide
/-- One arrival so far, GEN at its last value. -/
def tArrived : State := withBarrier (withHitch 0x7FFFFFFF00000001 [])
theorem wit_arrivals : tArrived.f .barrierCtl 3 0 1 ≠ 0 ∧ tArrived.hitchPoison 15 = false ∧ bitAt (tArrived.hitch 15) 63 = false
    ∧ tArrived.f .barrierCtl 3 16 10 ≤ arrivedOf (tArrived.hitch 15) + 1
    ∧ arrivedOf ((withBarrier (withHitch 0x7FFFFFFF00000000 [])).hitch 15) + 1 < (withBarrier (withHitch 0x7FFFFFFF00000000 [])).f .barrierCtl 3 16 10 := by
  decide
theorem test_last_arrival : (tArrived.hitchDo (tReq (.arrive 3 3 false))).hitch 15 = 0 := by decide +kernel

/-! ## Engines -/

/-- VMOV v7, v1 as issued. -/
def nVmov : Nat := 0x30 * 2 ^ 26 + 0x0D * 2 ^ 16 + 7 * 2 ^ 12 + 1 * 2 ^ 9
/-- VSPLAT v7, g31. -/
def nVsplat : Nat := 0x30 * 2 ^ 26 + 0x0E * 2 ^ 16 + 7 * 2 ^ 12 + 31 * 2 ^ 59
/-- VST of v0 at g1. -/
def nVst : Nat := 0x35 * 2 ^ 26 + 1 * 2 ^ 59
/-- A full VXE queue. -/
def tFullQueue (s : State) : State := s.updCore 0 fun k => { k with vxq := List.replicate 17 (tOp wVmov 0 0 0) }
theorem wit_engine_issue : tIssues .vmov nVmov tMin ∧ isWide (tIs nVmov).word = true ∧ queueOf (tIs nVmov).word ≠ 3
    ∧ depth (((issueTook (tIs nVmov) (tCore nVmov tMin)).core 0).queue 1) < queuePlaces
    ∧ Issues (tIs nVmov) .vmov (tFullQueue (tCore nVmov tMin)) tTask
    ∧ queuePlaces ≤ depth (((issueTook (tIs nVmov) (tFullQueue (tCore nVmov tMin))).core 0).queue 1) := by decide +kernel
theorem wit_engine_poison : tIssues .vst nVst { tMin with gp := [1] } ∧ (addressOperands .vst (tIs nVst).word).1 = true
    ∧ ({ tMin with gp := [1] }.rg 1).2 = true := by decide +kernel
theorem test_engine_issue : (((got (exec (.engineIssue (tIs nVsplat)) (tCore nVsplat tMin))).core 0).vxq.map EOp.word) = [BitVec.ofNat 64 nVsplat] := by
  decide +kernel

/-- The head of the VXE's queue. -/
def tHead (w : Word) : State := withVxe (tCore 0 tLanes) (tOp w 0 0 0)
/-- VD 7, VA 7, VB 7, T 1. -/
def wV (major minor : Nat) : Word := BitVec.ofNat 64 (major * 2 ^ 26 + minor * 2 ^ 16 + 0x8000 + 7 * 2 ^ 12 + 7 * 2 ^ 9 + 7 * 2 ^ 6)
/-- The same without VB, with T and word 1 given; and with VC 7; without T. -/
def wVu (major minor t w1 : Nat) : Word :=
  BitVec.ofNat 64 (major * 2 ^ 26 + minor * 2 ^ 16 + 0x8000 * t + 7 * 2 ^ 12 + 7 * 2 ^ 9 + w1 * 2 ^ 32)
def wVt (major minor t : Nat) : Word :=
  BitVec.ofNat 64 (major * 2 ^ 26 + minor * 2 ^ 16 + 0x8000 * t + 7 * 2 ^ 12 + 7 * 2 ^ 9 + 7 * 2 ^ 6 + 7 * 2 ^ 3)
def wVi (major minor : Nat) : Word := BitVec.ofNat 64 (major * 2 ^ 26 + minor * 2 ^ 16 + 7 * 2 ^ 12 + 7 * 2 ^ 9 + 7 * 2 ^ 6)
/-- The instruction is at the head of the VXE's queue. -/
abbrev tHeads (op : Op) (w : Word) : Prop := Heads 0 1 op (tHead w) tTask (tOp w 0 0 0) []
theorem wit_vector_lanes : ([(Op.vadd, wV 0x30 0), (.vsub, wV 0x30 1), (.vmul, wV 0x30 2), (.vmin, wV 0x30 3), (.vmax, wV 0x30 4),
    (.vand, wVi 0x30 5), (.vor, wVi 0x30 6), (.vxor, wVi 0x30 7), (.vsll, wVi 0x30 8), (.vsrl, wVi 0x30 9), (.vsra, wVi 0x30 10),
    (.vcmpeq, wV 0x30 0x10), (.vcmplt, wV 0x30 0x11), (.vcmple, wV 0x30 0x12), (.vabs, wVu 0x30 11 1 0), (.vneg, wVu 0x30 12 1 0),
    (.vmov, wVmov), (.vsel, wVt 0x30 0x13 0), (.vfma, wVt 0x31 0 1), (.vfms, wVt 0x31 1 1), (.vfnma, wVt 0x31 2 1)] : List (Op × Word)).all
    (fun e => decide (tHeads e.1 e.2)) = true := by decide
theorem wit_vector_functions : ([(Op.vsplat, BitVec.ofNat 64 nVsplat), (.viota, BitVec.ofNat 64 (0x30 * 2 ^ 26 + 0x0F * 2 ^ 16 + 7 * 2 ^ 12 + 0xFFFF * 2 ^ 32)),
    (.vbexp, BitVec.ofNat 64 (0x36 * 2 ^ 26 + 3 * 2 ^ 16 + 7 * 2 ^ 12)), (.vrsum, wVu 0x32 0 1 6), (.vrmax, wVu 0x32 1 1 1),
    (.vrmin, wVu 0x32 2 1 7), (.vexp2, wVu 0x33 0 1 0), (.vlog2, wVu 0x33 1 1 0), (.vrcp, wVu 0x33 2 1 0), (.vrsqrt, wVu 0x33 3 1 0),
    (.vsqrt, wVu 0x33 4 1 0), (.vsqrt, wVu 0x33 4 0 0), (.vcvt, wVu 0x36 0 1 0), (.vslide, wVu 0x36 2 0 255),
    (.vmxq, wVu 0x36 1 1 0x200000)] : List (Op × Word)).all (fun e => decide (tHeads e.1 e.2)) = true := by decide
theorem wit_vector_fields : iImm22 (wVu 0x32 0 1 6) % 8 = 6 ∧ iImm22 (wVu 0x32 2 1 7) % 8 = 7
    ∧ iT (wVu 0x33 4 0 0) = false ∧ iT (wVu 0x33 3 1 0) = true ∧ isMx (fld (wVu 0x36 1 1 0x200000) 50 4) = true := by decide
theorem test_viota_top : lane (((got (exec (.viota 0) (tHead (0x30 * 2 ^ 26 + 0x0F * 2 ^ 16 + 7 * 2 ^ 12 + 0xFFFF * 2 ^ 32)))).ctx 0 0).rv 7).1 63 =
    0xFFFF + 63 := by decide +kernel
theorem test_vadd_lanes : lane (((got (exec (.vadd 0) (tHead (wVi 0x30 0)))).ctx 0 0).rv 7).1 62 = 10 := by decide +kernel
theorem test_reduce_all_lanes : lane (((got (exec (.vrsum 0) (tHead (wVu 0x32 0 0 6)))).ctx 0 0).rv 7).1 0 = 5 := by
  decide +kernel

/-- A load or store of 32-bit lanes (format 7) at g1, the core's memory address in the captured register. -/
def tMem (w : Word) (a : Word) : State := withVxe (tCore 0 tLanes) (tOp w a 0 0)
def wVld (minor : Nat) : Word := BitVec.ofNat 64 (0x34 * 2 ^ 26 + minor * 2 ^ 16 + 0x8000 + 7 * 2 ^ 12 + 1 * 2 ^ 59 + 7 * 2 ^ 50)
def wVst (minor : Nat) : Word := BitVec.ofNat 64 (0x35 * 2 ^ 26 + minor * 2 ^ 16 + 0x8000 + 7 * 2 ^ 9 + 1 * 2 ^ 59 + 7 * 2 ^ 50)
def wVaa (minor : Nat) : Word := BitVec.ofNat 64 (0x37 * 2 ^ 26 + minor * 2 ^ 16 + 7 * 2 ^ 9 + 1 * 2 ^ 59)
/-- A whole line was read or written; or its tag holds it. -/
def lineDone : LineEnd → Bool
  | .ok _ _ _ => true
  | _ => false
def lineHeld : LineEnd → Bool
  | .blocked _ => true
  | _ => false
theorem wit_vector_memory : ([(Op.vld, wVld 0), (.vldC, wVld 1), (.vldP, wVld 2), (.vst, wVst 0), (.vstF, wVst 1), (.vaaddW, wVaa 0),
    (.vaaddWR, wVaa 1), (.vaaddD, wVaa 2), (.vaaddDR, wVaa 3), (.vfxadd, wVaa 4), (.vfxaddR, wVaa 5)] : List (Op × Word)).all
    (fun e => decide (Heads 0 1 e.1 (tMem e.2 0x19FF00) tTask (tOp e.2 0x19FF00 0 0) [])) = true := by decide
/-- What the VXE works with for a load of an A-region slot. -/
def tE (w : Word) (a : Word) : E := headE 0 1 tTask (tOp w a 0 0) true
theorem wit_vector_lines : fld (wVld 1) 50 4 = 7 ∧ fld (wVld 1) 47 3 < groups 7 ∧ lineCheck (tE (wVld 1) 0x19FF00).lineAddr .cmOb true = none
    ∧ (regionOf (tE (wVld 1) 0x19FF00).lineAddr.toNat).isOb = false ∧ iVA (wVst 1) + 32 / fmtBits 7 - 1 ≤ 7
    ∧ lineDone ((tE (wVld 1) 0x19FF00).readLine ((vxeCounted 0 (tMem (wVld 1) 0x19FF00)).putTag (cmBase 0 + 0x19FF00) true) portVxe 0x19FF00
      true true true) = true
    ∧ lineDone ((tE (wVst 1) 0x19FF00).writeLine (vxeCounted 0 (tMem (wVst 1) 0x19FF00)) portVxe 0x19FF00 0 0 true true) = true
    ∧ lineDone ((tE (wVld 0) 0).readLine (vxeCounted 0 (tMem (wVld 0) 0)) portVxe 0 true false false) = true := by decide +kernel
/-- A window of scale 0 over the last line of the P-region. -/
def tScaled : State := (tMem (wVaa 5) 0x1FFF00).setReg .cmAccw 0 (1 + 1535 * 2 ^ 16 + 2 ^ 32)
theorem wit_line_atomics : Heads 0 1 .vfxaddR tScaled tTask (tOp (wVaa 5) 0x1FFF00 0 0) [] ∧ fld (wVaa 5) 47 2 ≠ 3
    ∧ (tE (wVaa 5) 0x1FFF00).lineAddr.toNat % 256 = 0 ∧ regionOf (tE (wVaa 5) 0x1FFF00).lineAddr.toNat = .p
    ∧ (vxeCounted 0 tScaled).cmScale 0 0x1FFF00 = some 0
    ∧ ((vxeCounted 0 tScaled).cmTouch 0 portVxe 0x1FFF00 true true 0 0 (wVaa 5)).1 = .ok := by decide +kernel
theorem test_vld_consumes : ((got (exec (.vldC 0 false) ((tMem (wVld 1) 0x19FF00).putTag (cmBase 0 + 0x19FF00) true))).tagAt (cmBase 0 + 0x19FF00)) =
    false := by decide +kernel

/-! ## The MXE -/

/-- An instruction at the head of the MXE's queue, g1 captured. -/
def tMxe (w : Word) (a : Word) : State := (tCore 0 tLanes).updCore 0 fun k => { k with mxq := [tOp w a 0 0] }
/-- MX.LDA, LDB, LDC of one line to the last line of their buffer, consuming. -/
def wMxl (minor line : Nat) : Word := BitVec.ofNat 64 (0x38 * 2 ^ 26 + minor * 2 ^ 16 + 0x8000 + 1 * 2 ^ 59 + line * 2 ^ 50 + 1 * 2 ^ 32)
/-- MX.MMA of BF16 panels of depth 8 to tile 15; MX.DRAIN of row 31 as FP32 of tile 15; MX.ZERO of tiles 0 to 15. -/
def wMma : Word := BitVec.ofNat 64 (0x39 * 2 ^ 26 + 6 * 2 ^ 12 + 6 * 2 ^ 8 + 15 * 2 ^ 4)
def wDrain : Word := BitVec.ofNat 64 (0x3A * 2 ^ 26 + 7 * 2 ^ 12 + 15 * 2 ^ 4 + 31 * 2 ^ 54 + 1 * 2 ^ 48)
def wZero : Word := BitVec.ofNat 64 (0x3B * 2 ^ 26 + 15 * 2 ^ 32)
theorem wit_matrix : ([(Op.mxLda, wMxl 0 255), (.mxLdb, wMxl 1 255), (.mxLdc, wMxl 2 511), (.mxMma, wMma), (.mxDrain, wDrain),
    (.mxZero, wZero)] : List (Op × Word)).all
    (fun e => decide (Heads 0 0 e.1 (tMxe e.2 0x19FF00) tTask (tOp e.2 0x19FF00 0 0) [])) = true := by decide
theorem wit_matrix_fields : fld (wMxl 0 255) 32 10 ≠ 0 ∧ fld (wMxl 0 255) 50 9 + fld (wMxl 0 255) 32 10 ≤ obLines 0
    ∧ fld (wMxl 1 255) 50 9 + 1 ≤ obLines 1 ∧ fld (wMxl 2 511) 50 9 + 1 ≤ obLines 2
    ∧ (familyOf 6 6).any (fun f => !f.mx) = true ∧ 2048 * 0 + 32 * 8 * fmtBits 6 ≤ 65536 * 8 ∧ 2048 * 0 + 64 * 8 * fmtBits 6 ≤ 65536 * 8
    ∧ fld wDrain 12 4 ≤ 7 ∧ fld wDrain 48 6 ≠ 0 ∧ fld wDrain 54 5 + fld wDrain 48 6 ≤ 32 ∧ fld wDrain 48 6 * 64 * fmtBits 7 % 2048 = 0
    ∧ fld wZero 4 4 + fld wZero 32 4 + 1 ≤ 16 := by decide
/-- What the MXE works with for a consuming load of the slot. -/
def tEm : E := headE 0 0 tTask (tOp (wMxl 0 255) 0x19FF00 0 0) true
theorem wit_matrix_lines : lineCheck (0x19FF00 + BitVec.ofNat 64 (256 * 0)) .cm true = none
    ∧ lineDone (tEm.readLine ((tMxe (wMxl 0 255) 0x19FF00).putTag (cmBase 0 + 0x19FF00) true) portMxe 0x19FF00 true true true) = true
    ∧ lineHeld (tEm.readLine (tMxe (wMxl 0 255) 0x19FF00) portMxe 0x19FF00 true true true) = true := by decide +kernel

/-! ## The DMA engine -/

/-- An instruction at the head of the DMA queue with its captured registers; stream queue 7 enabled at priority 7. -/
def tDma (w a b c : Word) : State :=
  (regs (tCore 0 tLanes) [(.streamQCtl, 7, 0x701)]).updCore 0 fun k => { k with dmaq := [tOp w a b c] }
def wDma (major minor low : Nat) : Word := BitVec.ofNat 64 (major * 2 ^ 26 + minor * 2 ^ 16 + low)
theorem wit_dma : ([(Op.streamGo, wDma 0x3C 0 7), (.streamCancel, wDma 0x3C 1 7), (.mset, wDma 0x3C 2 1), (.mcopy, wDma 0x3C 3 0),
    (.carouselStep, wDma 0x3E 0 0x800 ||| BitVec.ofNat 64 (0x800 * 2 ^ 52)), (.kvWalk, wDma 0x3D 0 7), (.kvAppend, wDma 0x3D 1 0)] : List (Op × Word)).all
    (fun e => decide (Heads 0 2 e.1 (tDma e.2 0x100000 1 0) tTask (tOp e.2 0x100000 1 0) [])) = true := by decide
theorem wit_stream_go : (tDma (wDma 0x3C 0 7) 0xFFFE0 1 0).streamOn 0 7 = true ∧ (0xFFFE0 : Word).toNat % 32 = 0
    ∧ ((List.range 1).all fun j => (tDma (wDma 0x3C 0 7) 0xFFFE0 1 0).listEntryOk 0 (0xFFFE0 + 32 * j)) = true
    ∧ ((tDma (wDma 0x3C 0 7) 0xFFFE0 1 0).streamQ 0 7).length < 4
    ∧ (tDma (wDma 0x3C 0 7) 0xFFFE0 1 0).outstanding 0 < outstandingMax := by decide
/-- What the DMA engine works with. -/
def tEd (w a b c : Word) : E := headE 0 2 tTask (tOp w a b c) false
theorem wit_mset : (tEd (wDma 0x3C 2 1) 0x19FF00 1 5).mopCheck (tDma (wDma 0x3C 2 1) 0x19FF00 1 5) 1 none = none := by decide +kernel
theorem wit_mcopy : (tEd (wDma 0x3C 3 0) 0x1000 0x1100 1).mopCheck (tDma (wDma 0x3C 3 0) 0x1000 0x1100 1) 1 (some 0x1100) = none := by
  decide +kernel
theorem wit_carousel : (1 ≤ 2048 ∧ 2048 ≤ 4096 ∧ 2048 + 2048 ≤ 4096 ∧ 0 + 2048 ≤ 4096 ∧ 0 + 2048 ≤ 2048)
    ∧ fld (wDma 0x3E 0 0x800 ||| BitVec.ofNat 64 (0x800 * 2 ^ 52)) 0 13 = 2048
    ∧ fld (wDma 0x3E 0 0x800 ||| BitVec.ofNat 64 (0x800 * 2 ^ 52)) 52 12 = 2048
    ∧ fld (wDma 0x3E 0 0x800 ||| BitVec.ofNat 64 (0x800 * 2 ^ 52)) 40 12 = 0 := by decide
theorem wit_mset_line : ((tEd (wDma 0x3C 2 1) 0x19FF00 1 5).mopKey (tDma (wDma 0x3C 2 1) 0x19FF00 1 5) 0x19FF00 true).isSome = true
    ∧ fld (wDma 0x3C 2 1) 0 2 = 1 ∧ fld (wDma 0x3C 2 2) 0 2 = 2 ∧ fld (wDma 0x3C 2 0) 0 2 = 0 := by decide +kernel
theorem test_stream_go : (((got (exec (.streamGo 0) (tDma (wDma 0x3C 0 7) 0xFFFE0 1 0))).streamQ 0 7).map Stream.count) = [1] := by decide
theorem test_stream_full : (((got (exec (.streamGo 0) (tDma (wDma 0x3C 0 7) 0xFFFE0 0 0))).streamQ 0 7).length) = 0 := by decide

/-- A transfer of a line from DRAM to the W-region, and a stream that has read its one entry. -/
def tXfer : Xfer :=
  { id := 0, entry := 0, op := 0, smode := 0, dmode := 0, fence := false, src := 0x100000000000, dst := 0, left := 256, buf := []
    done := 0, put := 0, ring := 0, asked := none, idx := none, issued := false, since := none, ends := [(0, 256, 0)], staged := []
    got := [], asking := false, acks := 0, cut := none }
def tStream : Stream :=
  { id := 0, ctx := 0, pc := 0, word := wDma 0x3C 0 7, base := 0x20, count := 1, read := 1, xfers := [tXfer], runAt := some 0
    walk := none, seqn := none, early := 0, tick := 0 }
/-- Core 0 with a stream in queue 7. -/
def tQueued (st : Stream) : State :=
  (regs (tCore 0 tLanes) [(.streamQCtl, 7, 0x701)]).updCore 0 fun k => { k with streams := [(7, [st])] }
theorem wit_runs_task : RunsTask (tQueued tStream) 0 tTask := by decide
/-- The entry at 0x20 of the W-region: a line from DRAM to 0. -/
def tEntry : State := (tQueued { tStream with read := 0, xfers := [], runAt := none }).wrBytes (cmBase 0 + 0x20)
  (leBytes 8 0x100000000000 ++ leBytes 8 0 ++ leBytes 8 4 ++ leBytes 8 0)
theorem wit_entry : (tEntry.readingStream 0 7).isSome = true ∧ tEntry.place 0 (0x20 + 32 * 0) false = some (.local_ 0x20)
    ∧ ((tEntry.readEntry 0 (.local_ 0x20)).map fun e => (e.2.1, e.1.check)) = some (false, none)
    ∧ ((tEntry.streamQ 0 7).span (fun y => y.runAt.isSome)).1 = [] := by decide +kernel
theorem wit_transfer : ((tQueued tStream).askRings 0 tTask).pickQueue 0 (readyXfer ((tQueued tStream).askRings 0 tTask) 0)
      (((tQueued tStream).askRings 0 tTask).core 0).lastQ = some 7
    ∧ ((tQueued tStream).askRings 0 tTask).nextXfer 0 7 = some (tStream, tXfer, false)
    ∧ ((tQueued tStream).askRings 0 tTask).xferCheck 0 0 tXfer = none ∧ regionOf tXfer.src ≠ .remote
    ∧ ((tQueued tStream).askRings 0 tTask).outstanding 0 < outstandingMax := by decide +kernel
/-- A transfer whose line is staged. -/
def tStaged : Xfer := { tXfer with staged := [(5, true)] }
theorem wit_prefetch : (tQueued { tStream with xfers := [tStaged] }).nextXfer 0 7 = some ({ tStream with xfers := [tStaged] }, tStaged, false)
    ∧ tStaged.staged ≠ [] ∧ canIssue { tStream with xfers := [tStaged] } tStaged false = true := by decide +kernel
/-- An issued transfer. -/
def tIssued : State := tQueued { tStream with xfers := [{ tXfer with issued := true }] }
theorem wit_complete : ((tIssued.issuedXfers 0 tTask).find? (fun e => e.2 == 0)).isSome = true
    ∧ (((tIssued.issuedXfers 0 tTask).find? (fun e => e.2 == 0)).bind fun e => e.1.again tIssued 0).isSome = true := by decide +kernel
theorem wit_retry : (tCore 0 (tWaits (.tag 7 0) none)).ctx 0 0 = tWaits (.tag 7 0) none
    ∧ ((tDma (wDma 0x3C 2 1) 0x19FF00 1 5).updCore 0 fun k => { k with dmaq := [{ tOp (wDma 0x3C 2 1) 0x19FF00 1 5 with since := some 0 }] }).taskOn 0 =
      some tTask := by decide
theorem test_slot_moves : (got (exec (.dmaSlotAccess 0 []) (tIssued.wrNat 56 8 0x1122334455667788))).rdNat (cmBase 0 + 56) 8 =
    0x1122334455667788 := by decide +kernel

/-! ## The KV store -/

/-- Pool 15 of stall 0 over sequences 5 and 6: 2 tokens of 64 bytes a page, one layer, pages from DRAM offset 0x10000, a free
list of 2 pages at 0x8000. -/
def tPool (s : State) : State :=
  regs s [(.kvPoolCtl, 15, 1 + 2 * 2 ^ 8 + 1 * 2 ^ 16 + 1 * 2 ^ 24), (.kvPoolPages, 15, 0x100000010000),
    (.kvPoolCount, 15, 5 * 2 ^ 32), (.kvPoolSeq, 15, 2), (.kvPoolFree, 15, 0x100000008000), (.kvPoolLimits, 15, 2 + 0 * 2 ^ 32 + 1 * 2 ^ 40 + 2 * 2 ^ 48),
    (.kvPoolStat, 15, 2)]
/-- Sequence 6, open, its list at DRAM offset 0. -/
def tSeq : KSeq := { KSeq.closed with valid := true, pool := 15, stall := 0, list := 0x100000000000, cap := 4, tailFill := 2
                                      lastpos := noPage, budget := 2, anchor := 0, recent := 1 }
/-- With a position. -/
def tSeq1 : KSeq := { tSeq with pages := 2, length := 3, tailFill := 1, lastpos := 2 }
def withSeq (s : State) (k : KSeq) : State := (tPool s).setKseq 6 k
/-- An append descriptor at 0x100 of the W-region: sequence 6, layer 0, 1 token at 0x200, positions in order. -/
def tAppend : State := (withSeq (tDma (wDma 0x3D 1 0) 0x100 0 0) tSeq).wrBytes (cmBase 0 + 0x100)
  (leBytes 4 6 ++ [0, 1, 0, 0] ++ leBytes 8 0x200 ++ leBytes 8 0 ++ leBytes 8 0)
/-- What an engine read came to. -/
def gotOk : Got → Option Nat
  | .ok v false _ => some v
  | _ => none
def wentOn : AppendPlan → Option (Nat × Bool)
  | .go tail _ newPage _ => some (tail, newPage)
  | _ => none
/-- The descriptor as read. -/
def tD : Append := ⟨6, 0, 1, 0x200, 0, false⟩
theorem wit_append : Heads 0 2 .kvAppend tAppend tTask (tOp (wDma 0x3D 1 0) 0x100 0 0) [] ∧ tAppend.outstanding 0 < outstandingMax
    ∧ tAppend.listEntryOk 0 0x100 = true ∧ (gotOk (tAppend.engineRead 0 0 0x100 32 [])).map Append.of = some tD
    ∧ (tAppend.kseq 6).committing = false ∧ tD.rsv = false ∧ tD.n ≠ 0 ∧ tD.src % 64 = 0 ∧ tD.pos % 4 = 0 ∧ (tAppend.kseq 6).valid = true
    ∧ tD.layer < tAppend.poolLayers 15 ∧ tD.n ≤ tAppend.poolT 15 ∧ (tAppend.kseq 6).poisoned = false
    ∧ (gotOk (tAppend.engineRead 0 0 0x200 (1 * tAppend.poolB 15) [])).isSome = true := by decide +kernel
theorem wit_append_plan : wentOn (tAppend.planAppend tD [0]) = some (0, true)
    ∧ (tAppend.append tD 0 true true 0 (fun _ => false) [0]).isSome = true := by decide +kernel
theorem test_append : ((got (exec (.kvAppend 0 [] []) tAppend)).kseq 6).pages = 1 := by decide +kernel
theorem wit_walk : ((tDma (wDma 0x3D 0 7) 0x100 0 0).streamQ 0 7).find? (fun y => y.runAt.isSome && y.walk.isSome) = none
    ∧ (tDma (wDma 0x3D 0 7) 0x100 0 0).listEntryOk 0 0x100 = true
    ∧ ((tQueued { tStream with walk := some 0x100 }).streamQ 0 7).find? (fun y => y.runAt.isSome && y.walk.isSome) =
      some { tStream with walk := some 0x100 } := by decide +kernel
/-- VPSCORE of v7 to sequence 6, position 1, step 0. -/
def tScore : State := withVxe (withSeq (tCore 0 { tCtx [] with v := [(7, (0x3F800000 : VReg))] }) tSeq1)
  (tOp (BitVec.ofNat 64 (0x36 * 2 ^ 26 + 4 * 2 ^ 16 + 7 * 2 ^ 9)) (BitVec.ofNat 64 (6 + 1 * 2 ^ 17)) 0 0)
theorem wit_score : Heads 0 1 .vpscore tScore tTask (tOp (BitVec.ofNat 64 (0x36 * 2 ^ 26 + 4 * 2 ^ 16 + 7 * 2 ^ 9)) (BitVec.ofNat 64 (6 + 1 * 2 ^ 17)) 0 0) []
    ∧ fld (BitVec.ofNat 64 (6 + 1 * 2 ^ 17)) 48 16 = 0 ∧ ((vxeCounted 0 tScore).kseq 6).valid = true
    ∧ ((vxeCounted 0 tScore).postScore 6 1 0 5).isSome = true := by decide +kernel

/-! ## Commands of the queues -/

/-- An accepted command of SQ 1 with its 64-byte record. -/
def tCmd (op : Nat) (rec_ : Nat) : Cmd :=
  { seq := 9, op := op, fence := false, first := BitVec.ofNat 512 rec_, inline_ := [], req := 0, started := false, slot := none
    task := none, run := none }
def withCmds (s : State) (l : List Cmd) : State :=
  { regs s [(.sqCtl, 1, 0x401), (.cqCtl, 0, 0x401), (.sqBase, 1, 0x100000100000), (.cqBase, 0, 0x100000200000)] with
    q := { s.q with sqs := [(1, { Sq.reset with accepted := l })] } }
/-- A field of `n` bytes of a command, at its offset. -/
def at_ (o v : Nat) : Nat := v * 2 ^ (8 * o)
theorem wit_starts : [0x00, 0x01, 0x02, 0x10, 0x11, 0x20, 0x21, 0x22, 0x23, 0x30, 0x31, 0x32, 0x33, 0x34, 0x35, 0x36].all (fun op =>
    decide (Starts 1 op (withCmds tUp [tCmd op 0]) (tCmd op 0) 0)) = true := by decide +kernel
/-- KV_SEQ_OPEN of sequence 6 in pool 15: list at DRAM 0, CAP 4, the pool's limits. -/
def tOpen : State := withCmds (tPool tUp) [tCmd 0x30 (at_ 0x10 6 + at_ 0x14 4 + at_ 0x18 0x100000000000 + at_ 0x24 15)]
theorem wit_open : tOpen.stallPool 0 15 = true ∧ tOpen.inPool 15 6 = true ∧ (tOpen.kseq 6).valid = false
    ∧ tOpen.cpRange 0 0x100000000000 (max 1 (listBytes 4 (tOpen.poolLayers 15))) true false false = true
    ∧ badLimits (tOpen.f .kvPoolLimits 15 48 16) (tOpen.f .kvPoolLimits 15 32 8) (tOpen.f .kvPoolLimits 15 40 8) 4 0 = false
    ∧ (tCmd 0x30 (at_ 0x10 6 + at_ 0x14 4 + at_ 0x18 0x100000000000 + at_ 0x24 15)).field 0x10 4 = 6 := by decide +kernel
theorem test_open : ((got (exec (.kvSeqOpen 1) tOpen)).kseq 6).budget = 2 := by decide +kernel
theorem wit_kv_open_sequence : (withCmds (withSeq tUp tSeq1) []).kvRefusal 0 6 true = none
    ∧ (withCmds (withSeq tUp tSeq1) []).kvRefusal 0 6 false = none ∧ tSeq1.committing = false ∧ tSeq1.holders = [] ∧ tSeq1.poisoned = false
    ∧ badLimits 3 1 1 tSeq1.cap tSeq1.pages = false ∧ 0 + 1 < tSeq1.pages := by decide +kernel
theorem wit_kv_close : (withCmds (withSeq tUp tSeq1) [tCmd 0x31 (at_ 0x10 6)]).startedCmd 1 0x31
    (fun y => y.run.isNone && ((withCmds (withSeq tUp tSeq1) [tCmd 0x31 (at_ 0x10 6)]).kseq (y.field 0x10 4)).holders.isEmpty) = none := by
  decide +kernel
theorem wit_kv_drop : ((withSeq tUp tSeq1).kvRead 0 ((withSeq tUp tSeq1).recordAt tSeq1 0) 16) = some (0, false)
    ∧ ((withSeq tUp tSeq1).kvWrite 0 ((withSeq tUp tSeq1).recordAt tSeq1 0) 8 (2 ^ 48)).isSome = true := by decide +kernel
theorem wit_kv_batch : (withSeq tUp tSeq1).cpRange 0 0x100000000000 (max 1 (4 * min 1 ((withSeq tUp tSeq1).f .kvPoolSeq 15 0 18))) true true true = true := by
  decide +kernel
/-- A KV_COMMIT that stands at sequence 6. -/
def tCommitting : Cmd := { tCmd 0x33 (at_ 0x14 1) with
  started := true, run := some ⟨[], 0, 0, 0, none, some 6⟩ }
theorem wit_kv_commit : (withCmds (withSeq tUp tSeq1) [tCommitting]).startedCmd 1 0x33 (fun _ => true) = some tCommitting
    ∧ (((withCmds (withSeq tUp tSeq1) [tCommitting]).sqStall 1).getD 16) = 0
    ∧ ((withCmds (withSeq tUp tSeq1) [tCommitting]).commitSeq 6).isSome = true := by decide +kernel
theorem test_kv_drop : (((got (exec (.kvDrop 1) (withCmds (withSeq tUp tSeq1) [tCmd 0x35 (at_ 0x10 6)]))).kvRead 0
    ((withSeq tUp tSeq1).recordAt tSeq1 0) 16).map fun r => recDrop r.1) = some true := by decide +kernel

/-! ## The Paddock -/

/-- Bank 31 of slice 3 with a request at its queue, for core 0's context 0. -/
def tPdReq (op : PdOp) : PdReq := ⟨0x1801F00, op, 0, 0, some 1, 0, 0, none⟩
def tBank (op : PdOp) : State := (tCore 0 tMin).setPdQueue 127 [tPdReq op]
theorem wit_paddock_bank : pdBank 0x1801F00 = 127 ∧ (tBank (.load 8 false)).pdQueue (32 * 3 + 31) = [tPdReq (.load 8 false)]
    ∧ (((tBank (.load 8 false)).setPdQueue 127 []).pdCount 0x1801F00 0 0).pdHeld 127 = []
    ∧ (PdOp.load 8 false).wants = none
    ∧ ((((tBank (.load 8 false)).setPdQueue 127 []).pdCount 0x1801F00 0 0).pdPerform (tPdReq (.load 8 false))).pdHeld 127 = [] := by decide +kernel
theorem wit_paddock_park : (PdOp.tagged 8 false false).wants = some true
    ∧ ((tBank (.tagged 8 false false)).tagAt (pdBase + 0x1801F00)) ≠ true
    ∧ ((((tBank (.tagged 8 false false)).setPdQueue 127 []).pdCount 0x1801F00 0 0).pdPark (tPdReq (.tagged 8 false false))).pdHeld 127 = [] := by
  decide +kernel
/-- A request returned from slice 3's table. -/
def tReturned : State := { tUp with cx := { tUp.cx with pd := { tUp.cx.pd with returned := [(3, [(tPdReq .probe, 7)])] } } }
theorem wit_paddock_return : Tbl.get [] tReturned.cx.pd.returned 3 = [(tPdReq .probe, 7)] := by decide
theorem test_paddock_consume : ((tCore 0 tMin).putTag (pdBase + 0x1801F00) true |>.pdPerform (tPdReq (.tagged 8 false false))).tagAt (pdBase + 0x1801F00) =
    false := by decide +kernel
theorem test_paddock_return : (got (exec (.tagWaitReturn 3) tReturned)).now = 39 := by decide

/-! ## Memory errors, faults and recovery -/

/-- A register field set. -/
def flds (s : State) (l : List (Reg × Nat × Nat × Nat × Nat)) : State :=
  l.foldl (fun s e => s.setF e.1 e.2.1 e.2.2.1 e.2.2.2.1 e.2.2.2.2) s
/-- Both scrubbers on. -/
def tScrub : State := flds tUp [(.eccCfg, 0, 0, 2, 3)]
theorem wit_memory_errors : tScrub.alive = true ∧ tScrub.f .eccCfg 0 0 1 = 1 ∧ tScrub.scrubSkips 36 (Tbl.get 0 tScrub.scrub.pos 36) = false
    ∧ tScrub.scrubSkips 31 (Tbl.get 0 tScrub.scrub.pos 31) = false ∧ tScrub.f .eccCfg 0 1 1 = 1 ∧ tScrub.stageNow ≠ 0
    ∧ tScrub.filling (patrolLine 31 (Tbl.get 0 tScrub.scrub.pos (64 + 31)) / blockSize) = false
    ∧ KSet.has tScrub.scrub.late 36 = false ∧ KSet.has tScrub.scrub.late (64 + 31) = false := by decide +kernel
theorem wit_bad_codewords : (⟨5, 31, 0x1FFFF8⟩ : Codeword).key = none ∧ (⟨6, 0, 2 ^ 25 - 8⟩ : Codeword).key = some (pdBase + 2 ^ 25 - 8)
    ∧ (⟨0, 31, 0⟩ : Codeword).key = some (cmBase 31) ∧ tUp.poisonAt (cmBase 31) = false
    ∧ (tUp.setPoison (cmBase 31) true).poisonAt (cmBase 31) = true := by decide +kernel
theorem test_bad_word_poisons : (got (exec (.eccWriteback 0 31 0 0 true none) tScrub)).poisonAt (cmBase 31) = true := by decide +kernel
theorem test_corrected_counts : (got (exec (.eccWriteback 0 31 0 0 false none) tScrub)).f .eccStatus 0 0 16 = 1 := by decide +kernel

/-- Task 1 aborting, MEMORY state otherwise as tUp. -/
def withTask (s : State) (t : Task) : State := { s with q := { s.q with tasks := [t] } }
def tAborting : Task := { tTask with phase := .aborting, abort := some (stFault, 5) }
/-- In the internal reset of a class A fault. -/
def tInternal : State := { tUp with ras := { tUp.ras with internalReset := some 3 } }
theorem wit_faults : tUp.alive = true ∧ tUp.stageNow ≠ 0 ∧ tUp.f .stageStatus 0 7 1 = 1 ∧  ({ tInternal with ras := { tInternal.ras with internalReset := none } }).inReset = false ∧ tInternal.ras.internalReset.isSome = true ∧ (withTask tUp tAborting).task? 1 = some tAborting ∧ tUp.ras.cpInReset = false
    ∧ (withTask tUp tTask).task? 1 = some tTask ∧ tTask.phase.live = true ∧ tUp.active.valid 0 = true ∧ tUp.mgmtUp = true
    ∧ tUp.ras.ostlerHeld = false := by decide +kernel
theorem wit_cp_in_reset : ({ withTask tUp tAborting with ras := { tUp.ras with cpInReset := true } }).ras.cpInReset = true
    ∧ ({ withTask tUp tAborting with ras := { tUp.ras with cpInReset := true } }).task? 1 = some tAborting := by decide +kernel
theorem wit_core_reset : ({ tCore 0 tMin with q := { tUp.q with tasks := [tAborting] } }).taskOn 0 = some tAborting := by decide
theorem wit_ostler : (escalate tUp.ras.ostTimes 500000000 minute).2 = false := by decide
theorem test_task_timeout : (got (exec (.taskTimeout 1) (withTask tUp tTask))).now = 100000000
    ∧ lastFault (got (exec (.taskTimeout 1) (withTask tUp tTask))) = FaultCode.taskTimeout.code := by decide +kernel
theorem test_class_a : (got (exec (.classAFault true 0 0) tUp)).inReset = true := by decide +kernel
theorem test_fence : (got (exec (.computeFence 11) tUp)).stage.fences = [11] := by decide +kernel

/-! ## Coherence -/

/-- A host block of requester 0 outside HDM-DB, and an extent of region 1 held by it over block 900. -/
def tHost : State := { tUp with link := { tUp.link with
  held := [(0, 4, none), (4, 924, some 0)]
  extents := [⟨7, [900], 1, [], [0], true, 0⟩], biEnabled := [0] } }
theorem wit_mem : tHost.present 0 = true ∧ tHost.memOpen 0 = true
    ∧ (tHost.hostMap 0 0).isSome = true ∧ ((tHost.hostMap 0 0).map tHost.hdmDb) = some false
    ∧ ((tHost.hostMap 0 (dcBase 1 + 900 * blockSize)).map tHost.hdmDb) = some true
    ∧ tHost.hostMap 0 (dcBase 0 + 2 * blockSize) = none := by decide +kernel
theorem wit_memwr : ((tHost.hostMap 0 (dcBase 1 + 900 * blockSize)).map fun p => (tHost.dcoh.late.contains (0, p / 64), tHost.isWriteback 0 (p / 64))) = some (false, false) := by
  decide +kernel
/-- A snoop of requester 0 for line 0x40 not answered. -/
def tSnooped : State := tHost.setTracker 0x40 { Tracker.idle with snoops := [(0, .inv, 5)] }
theorem wit_snooped : tSnooped.dcoh.late.contains (0, 0x40) = false ∧ (tSnooped.tracker 0x40).snoops.find? (fun e => e.1 == 0) = some (0, .inv, 5)
    ∧ tSnooped.sf 0x40 = none ∧ (tSnooped.tracker 0x40).snoops.any (fun e => e.1 == 0) = true
    ∧ (tSnooped.tracker 0x40).queue.any (fun q => q.kind.requester == some 0) = false := by decide +kernel
theorem test_mem_rd_unmapped : (got (exec (.memRd 0 (dcBase 0 + 2 * blockSize) .any) tHost)).out.any
    (fun o => o == .memData 0 (dcBase 0 + 2 * blockSize) 0 true .invalid) = true := by decide +kernel
theorem test_mem_wr : ((tHost.hostMap 0 0).map fun p => (got (exec (.memWr 0 0 .any 0xAB false) tHost)).rdNat p 1) = some 0xAB := by decide +kernel

/-! ## The Bridle -/

/-- A read of core 1's DMA holds arbiter 35; one write request waits. -/
def tBurst : State := { withTask tUp tTask with bridle := { Bridle.idle with held := [(35, ⟨1, some 1, some 0, 2, none, 100⟩)] } }
theorem wit_bridle_held : tBurst.heldBurst 35 = some ⟨1, some 1, some 0, 2, none, 100⟩ ∧ tBurst.f .bridleHoldLog 0 63 1 = 0
    ∧ ((tBurst.notBefore (100 + 4096)).endBurst 35 ⟨1, some 1, some 0, 2, none, 100⟩).f .bridleHoldLog 0 63 1 = 0 := by decide +kernel
/-- A read of core 2 that arrived 5 NCLK before. -/
def tBReq : BReq := ⟨2, 3, 2, none, some 0, none, true, 2, none, 0⟩
theorem wit_bridle_choice : tUp.heldBurst 32 = none ∧ tUp.chooseReq 32 0 [] = none
    ∧ (tUp.chooseReq 32 0 [tBReq]).map Prod.fst = some tBReq := by decide +kernel
theorem test_bridle_grant : (got (exec (.bridleGrant 32 0 true false [tBReq]) tUp)).heldBurst 32 |>.isSome := by decide +kernel
theorem test_bridle_limit : (got (exec (.bridleHoldLimit 35) tBurst)).f .bridleHoldCount 0 0 32 = 1 := by decide +kernel
theorem test_ld_interval : (got (exec .ldQosInterval { tUp with bridle := { Bridle.idle with ld := [(16, 3)] } })).bridle.ld = [] := by decide

/-! ## Submission and completion queues -/

/-- A record: S, E, FENCE in byte 0, opcode, NREC, SEQ, and a body. -/
def rec_ (b0 op n seq body : Nat) : Nat := b0 + op * 2 ^ 8 + n * 2 ^ 16 + seq * 2 ^ 64 + body
/-- SQ 1 of CQ 0, both of 16 places in DRAM, one record pending at its head; requester 0's driver accepted. -/
def tSq (r : Nat) : State :=
  regs ((withCmds tUp []).wrNat 0x100000 64 r) [(.sqTail, 1, 1), (.stageDrvSummary, 0, 1)]
/-- The same record read: the command being assembled. -/
def tAsm (r : Nat) : State :=
  { tSq r with q := { tUp.q with sqs := [(1, { Sq.reset with asm := [BitVec.ofNat 512 r] })] } }
def rNop : Nat := rec_ 3 0x00 1 1 0
theorem wit_fetch : (tSq rNop).cpRuns = true ∧ (tSq rNop).fetchable 1 = true
    ∧ (List.range sqCount).foldl (fun m k => if (tSq rNop).fetchable k then max m ((tSq rNop).sqPrio k) else m) 0 = 0
    ∧ roundRobin (fun k => (tSq rNop).fetchable k && (tSq rNop).sqPrio k == 0) (Tbl.get (sqCount - 1) (tSq rNop).q.last 0) sqCount = some 1
    ∧ ((tSq rNop).readRecord 1 0 []).1 = some (BitVec.ofNat 512 rNop) ∧ recS (BitVec.ofNat 512 rNop) = true
    ∧ recE (BitVec.ofNat 512 rNop) = true ∧ 1 ≤ (tSq rNop).sqPending 1 := by decide +kernel
theorem wit_fetch_orphan : ((tSq (rec_ 2 0 1 1 0)).readRecord 1 0 []).1 = some (BitVec.ofNat 512 (rec_ 2 0 1 1 0))
    ∧ recS (BitVec.ofNat 512 (rec_ 2 0 1 1 0)) = false ∧ (tSq (rec_ 2 0 1 1 0)).fetchable 1 = true := by decide +kernel
theorem wit_accept : (tAsm rNop).cpRuns = true ∧ (tAsm rNop).cqRoom ((tAsm rNop).sqCq 1) = true ∧ (tAsm rNop).sqLast 1 < 1
    ∧ recSeq (BitVec.ofNat 512 rNop) = 1 ∧ (tAsm rNop).refusal 0 [BitVec.ofNat 512 rNop] = none
    ∧ recOp (BitVec.ofNat 512 rNop) < 0x30 := by decide +kernel
theorem wit_accept_again : recSeq (BitVec.ofNat 512 rNop) ≤ ((tAsm rNop).setReg .sqSeq 1 1).sqLast 1 := by decide +kernel
theorem wit_accept_refused : (tAsm (rec_ 3 0x7F 1 1 0)).refusal 0 [BitVec.ofNat 512 (rec_ 3 0x7F 1 1 0)] = some stBadOpcode := by decide +kernel
theorem wit_accept_kv : (tAsm (rec_ 3 0x36 1 1 (6 * 2 ^ 128))).refusal 0 [BitVec.ofNat 512 (rec_ 3 0x36 1 1 (6 * 2 ^ 128))] = none := by
  decide +kernel
theorem test_fetch : ((got (exec (.cpFetch []) (tSq rNop))).sq 1).asm = [BitVec.ofNat 512 rNop] := by decide +kernel
theorem test_orphan : (got (exec (.cpFetch []) (tSq (rec_ 2 0 1 1 0)))).f .sqStat 1 0 16 = 1 := by decide +kernel
theorem test_accept : ((got (exec (.commandAccept 1) (tAsm rNop))).sq 1).accepted.map Cmd.seq = [1] := by decide +kernel

/-- CQ 0 with its timer running, TIME 100. -/
def tTimer : State := flds { withCmds tUp [] with q := { tUp.q with cqs := [(0, ⟨1, some 7⟩)] } } [(.cqCtl, 0, 1, 1, 1), (.cqIrq, 0, 16, 16, 100)]
theorem wit_timer : (tTimer.cq 0).firstAt = some 7 ∧ tTimer.cqOn 0 = true ∧ tTimer.f .cqCtl 0 1 1 = 1 ∧ tTimer.f .cqIrq 0 16 16 ≠ 0 := by
  decide +kernel
theorem test_timer : (got (exec (.cqIrqTimer 0) tTimer)).now = 100007 := by decide +kernel

theorem wit_doorbell : Accepts (withCmds tUp []) 0 .sqTail 1 15
    ∧ fld ((15 : Word) &&& carriedBits .sqTail) 0 16 = 15 ∧ (wroteFields (withCmds tUp []) 0 .sqTail 1 15).f .sqTail 1 0 16 = 0
    ∧ (wroteFields (withCmds tUp []) 0 .sqTail 1 15).sqDepth 1 = 16 := by decide +kernel
theorem wit_doorbell_beyond : Accepts (withCmds tUp []) 0 .sqTail 1 16 ∧ fld ((16 : Word) &&& carriedBits .sqTail) 0 16 = 16 := by decide +kernel
theorem wit_cq_head : Accepts (withCmds tUp []) 0 .cqHead 0 15 ∧ Accepts (withCmds tUp []) 0 .cqHead 0 16
    ∧ (wroteFields (withCmds tUp []) 0 .cqHead 0 15).f .cqHead 0 0 16 = 0 ∧ (wroteFields (withCmds tUp []) 0 .cqHead 0 15).cqDepth 0 = 16 := by
  decide +kernel
theorem wit_flush : Accepts (tSq rNop) 0 .sqCtl 1 (0x401 ||| 2) ∧ bitAt (0x401 : Word) 0 = true
    ∧ (wroteFields (tSq rNop) 0 .sqCtl 1 (0x401 ||| 2)).sqOn 1 = true
    ∧ ((wroteFields (tSq rNop) 0 .sqCtl 1 (0x401 ||| 2)).flushedSeqs 1 [] 0 1).2.f .sqTail 1 0 16 = 1 := by decide +kernel
theorem test_doorbell : (got (exec (.sqDoorbell 0 1 15) (withCmds tUp []))).sqPending 1 = 15 := by decide +kernel
theorem test_doorbell_beyond : (got (exec (.sqDoorbell 0 1 16) (withCmds tUp []))).sqPending 1 = 0 := by decide +kernel
theorem test_flush : (got (exec (.sqFlush 0 1 0x401 []) (tSq rNop))).sqPending 1 = 0 := by decide +kernel

/-! ## Memory operations -/

/-- MEM_FILL of two lines of the last 512 bytes of block 0, and MEM_COPY of them to the first line after. -/
def bFill : Nat := at_ 0x10 0x100000000E00 + at_ 0x18 512 + at_ 0x20 0x0102030405060708
def bCopy : Nat := at_ 0x10 0x100000000200 + at_ 0x18 512 + at_ 0x20 0x100000000000
theorem wit_mem_fill : (withCmds tUp [tCmd 0x01 bFill]).memRange 0 0x100000000E00 512 true = true ∧ memLenOk 512 = true
    ∧ ((withCmds tUp [tCmd 0x01 bFill]).memReady 0 0x100000000E00 true 2).1 = true ∧ (tCmd 0x01 bFill).field 0x10 8 = 0x100000000E00
    ∧ (tCmd 0x01 bFill).field 0x18 8 = 512 ∧ memLenOk 257 = false ∧ (withCmds tUp []).memRange 0 0x100000000E80 512 true = false := by decide +kernel
theorem wit_mem_copy : (withCmds tUp []).memRange 0 0x100000000200 512 true = true ∧ (withCmds tUp []).memRange 0 0x100000000000 512 false = true
    ∧ (withCmds tUp []).hostThere 0 0x100000000000 = true ∧ ((withCmds tUp []).memReady 0 0x100000000000 false 2).1 = true
    ∧ (0x100000000000 + 512 ≤ 0x100000000200 ∨ 0x100000000200 + 512 ≤ 0x100000000000) := by decide +kernel
theorem test_mem_fill : (got (exec (.memFill 1) (withCmds tUp [tCmd 0x01 bFill]))).rdNat 0xFF8 8 = 0x0102030405060708 := by decide +kernel
theorem test_mem_copy : (got (exec (.memCopy 1 []) ((withCmds tUp [tCmd 0x02 bCopy]).wrNat 0x1F8 8 7))).rdNat 0x3F8 8 = 7 := by decide +kernel

/-! ## Tasks -/

/-- Harness entry 5 of stall 0, enabled: 1 core, 2 words. -/
def withHrn (s : State) : State :=
  { flds s [(.hrnCtl, 5, 0, 1, 1), (.hrnCtl, 5, 5, 1, 1)] with
    mem := s.mem ++ cells (hrnBase 5 + 8) [1] ++ cells (hrnBase 5 + 0x0A) [2] }
/-- TASK_RUN of entry 5, ARGS and RES_ADDR in DRAM, slot 1,023 of the stall. -/
def rRun : Nat := rec_ 3 0x20 1 1 (at_ 0x10 5 + at_ 0x18 0x100000000000 + at_ 0x20 0x100000000040 + at_ 0x28 (2 ^ 31 + 255))
def tRun : State := { withHrn (tSq 0) with q := { tUp.q with sqs := [(1, { Sq.reset with asm := [BitVec.ofNat 512 rRun] })] } }
def gotTeam : Nat ⊕ List Nat → Option (List Nat)
  | .inr l => some l
  | _ => none
theorem wit_task_run : tRun.cpRuns = true ∧ tRun.cqRoom (tRun.sqCq 1) = true ∧ tRun.sqLast 1 < recSeq (BitVec.ofNat 512 rRun)
    ∧ recOp (BitVec.ofNat 512 rRun) = 0x20 ∧ tRun.refusal 0 [BitVec.ofNat 512 rRun] = none ∧ (tRun.sqStall 1).getD 16 = 0
    ∧ gotTeam (tRun.runRefusal 0 [BitVec.ofNat 512 rRun] (tRun.namedSlot 0 (2 ^ 31 + 255))) = some [0]
    ∧ recField (BitVec.ofNat 512 rRun) 0x28 4 = 2 ^ 31 + 255 := by decide +kernel
/-- A waiting task of entry 5, and its command. -/
def tWaiting : Task := { tTask with phase := .waiting, entry := 5, sq := 1, seq := 9, args := 0x100000000000, resAddr := 0x100000000040 }
def tStart : State := withTask (withHrn (withCmds tUp [{ tCmd 0x20 (at_ 0x10 5) with task := some 1 }])) tWaiting
def gotSum : Nat ⊕ (List Nat × State) → Bool
  | .inr _ => true
  | _ => false
theorem wit_task_start : (tStart.startable 1 0x20).bind (fun c => c.task.bind tStart.task?) = some tWaiting
    ∧ tWaiting.team.all (fun k => tStart.active.hasCore 0 k && !bitAt (tStart.reg .stageBist 0) k) = true
    ∧ tStart.teamFree [0] = true ∧ tStart.firstInOrder 1 [0] = true ∧ tStart.f .hrnCtl 5 0 1 = 1 ∧ tStart.f .hrnCtl 5 1 4 = 0
    ∧ (tStart.argsReady 0 0x100000000000 (inlinePieces [])).1 = true
    ∧ gotSum ((tStart.argsReady 0 0x100000000000 (inlinePieces [])).2.dispatchAccw 0 5) = true := by decide +kernel
/-- The running task with its context ended. -/
def tEnded : State := withTask ((tCore 0 { Ctx.idle with started := false }).updCore 0 fun k => k) { tTask with resAddr := 0x100000000040 }
theorem wit_task_end : tEnded.task? 1 = some { tTask with resAddr := 0x100000000040 } ∧ tTask.phase.live = true ∧ tEnded.ras.cpInReset = false
    ∧ [0].all (fun k => (tEnded.core k).partDone) = true ∧ tEnded.hostThere 0 0x100000000040 = true
    ∧ (tEnded.resultReady { tTask with resAddr := 0x100000000040 }).1 = true
    ∧ ((tEnded.cpRead 0 0x100000000040 48 [] false).map fun r => r.2.1) = some false := by decide +kernel
/-- The running task with room in a save area of 1 MiB, and a TASK_PREEMPT, TASK_RESUME or TASK_KILL of it. -/
def tNamed (op : Nat) (t : Task) (k : Ctx) : State :=
  let s := withTask (flds (withCmds (tCore 0 k) [tCmd op (at_ 0x10 1)]) [(.taskCfg, 0, 32, 16, 1)]) t
  { s with mem := s.mem ++ cells (hrnBase 0 + 8) [] }
theorem wit_task_preempt : (tNamed 0x21 tTask (tCtx [])).namedTask 0 1 (· == .running) = some tTask ∧ (tNamed 0x21 tTask (tCtx [])).anyStarted tTask = true
    ∧ (tNamed 0x21 tTask (tCtx [])).saveUsed 0 + (tNamed 0x21 tTask (tCtx [])).frameBytes 0 ≤ (tNamed 0x21 tTask (tCtx [])).saveBytes 0
    ∧ Starts 1 0x21 (tNamed 0x21 tTask (tCtx [])) (tCmd 0x21 (at_ 0x10 1)) 0 := by decide +kernel
def tParking : Task := { tTask with phase := .parking, preempt := some (1, 9), frame := 4096 }
theorem wit_task_save : (tNamed 0 tParking { tCtx [] with wait := .parked 0 }).task? 1 = some tParking ∧ tUp.ras.cpInReset = false
    ∧ (tNamed 0 tParking { tCtx [] with wait := .parked 0 }).anyStarted tParking = true
    ∧ [0].all (fun k => ((tNamed 0 tParking { tCtx [] with wait := .parked 0 }).core k).savable) = true := by decide +kernel
def tSaved : Task := { tTask with phase := .saved, frame := 4096, saved := some ⟨[], []⟩ }
def tResume : State := { tNamed 0x22 tSaved (tCtx []) with cx := Complex.idle }
theorem wit_task_resume : Starts 1 0x22 tResume (tCmd 0x22 (at_ 0x10 1)) 0 ∧ tResume.stage.fences = [] ∧ tSaved.cut = false
    ∧ tResume.namedTask 0 1 (· == .saved) = some tSaved ∧ [0].all (fun k => tResume.active.hasCore 0 k) = true
    ∧ tResume.teamFree [0] = true ∧ tSaved.saved = some ⟨[], []⟩ := by decide +kernel
theorem wit_task_kill : (tNamed 0x23 tTask (tCtx [])).namedTask 0 1 (fun p => p.live || p == .saved) = some tTask
    ∧ Starts 1 0x23 (tNamed 0x23 tTask (tCtx [])) (tCmd 0x23 (at_ 0x10 1)) 0 := by decide +kernel
theorem wit_task_refused : ({ tResume with stage := { tResume.stage with fences := [1] } }).stage.fences ≠ []
    ∧ (withCmds tUp [tCmd 0x21 (at_ 0x10 1)]).namedTask 0 1 (· == .running) = none := by decide +kernel
theorem test_task_run : ((got (exec (.taskRun 1) tRun)).q.tasks.map fun t => (t.id, t.entry, t.team)) = [(1, 5, [0])] := by decide +kernel
theorem test_task_start : ((got (exec (.taskStart 1) tStart)).ctx 0 0).started = true := by decide +kernel
theorem test_task_resume : ((got (exec (.taskResume 1) tResume)).task? 1).map Task.phase = some .running := by decide +kernel

/-! ## Sessions, tokens and the mailbox -/

def tSes : Session := ⟨6, 0, 77, true, false, 50⟩
/-- Requester 0 with session 6, the card unclaimed or claimed with key 5. -/
def tSess (k : Option Nat) : State := { tUp with gb := { tUp.gb with ownerKey := k, sessions := [tSes] } }
theorem wit_sessions : (tSess none).spdmUp 0 = true ∧ (tSess none).gb.sessions.any (fun e => e.id == 7) = false
    ∧ (tSess none).gb.sessions.length < 4 ∧ (tSess (some 5)).gb.ownerKey ≠ some 4 ∧ (tSess none).session? 0 6 = some tSes
    ∧ tSes.mutual_ = true ∧ spdmCodes.contains 0x84 = true ∧ (tSess none).gb.sessions.any (fun e => e.req == 0) = true
    ∧ (tSess none).gb.sessions.find? (fun e => e.id == 6) = some tSes := by decide +kernel
theorem wit_other_owner : (flds (tSess (some 5)) [(.gbOwner, 0, 2, 4, 3)]).spdmUp 0 = true ∧ (tSess (some 5)).gb.ownerKey = some 5
    ∧ (flds (tSess (some 5)) [(.gbOwner, 0, 2, 4, 3)]).f .gbOwner 0 1 1 = 1 ∧ (flds (tSess (some 5)) [(.gbOwner, 0, 2, 4, 3)]).f .gbOwner 0 2 4 ≠ 0 := by
  decide +kernel
theorem wit_ide : ({ tUp with link := { tUp.link with ideSecure := [0] } }).link.ideSecure.contains 0 = true ∧ tUp.present 0 = true := by decide
/-- No stall valid, claimed; and a token of level 1 for this card, with the nonce in force. -/
def tClosed : State := { regs tUp [(.activeCfg, 0, 0)] with gb := { tUp.gb with ownerKey := some 5 } }
def tToken : List Word := [0x14B544A47, 0, 0] ++ (List.range 4).map (Config.freeNonce 0) ++ List.replicate 13 0
theorem wit_token : tClosed.tokenRefused (bytesOf (tToken.take 20)) true = none := by
  have h0 : tokenField (bytesOf (tToken.take 20)) 0 4 = 0x4B544A47 := by decide +kernel
  have h1 : tokenField (bytesOf (tToken.take 20)) 5 3 = 0 := by decide +kernel
  have h2 : tokenField (bytesOf (tToken.take 20)) 0x38 8 = 0 := by decide +kernel
  have h3 : tokenField (bytesOf (tToken.take 20)) 4 1 = 1 := by decide +kernel
  have h4 : tokenField (bytesOf (tToken.take 20)) 8 16 = tClosed.card.uid.toNat := by decide +kernel
  have h5 : tokenField (bytesOf (tToken.take 20)) 0x18 32 = tClosed.nonce := rfl
  have h6 : (allStalls.any fun st => tClosed.active.valid st) = false := by decide +kernel
  have h7 : tClosed.gb.ownerKey.isNone = false := by decide
  simp [State.tokenRefused, h0, h1, h2, h3, h4, h5, h6, h7]
theorem wit_token_refused : tUp.pw.rails ≠ 0 ∧ tUp.inReset = false ∧ tUp.tokenRefused (bytesOf []) true = some 5 := by decide +kernel
theorem wit_claimed : (tSess (some 5)).gb.ownerKey = some 5 := by decide
theorem test_claim : (got (exec (.ownerClaim 0 6) (tSess none))).gb.ownerKey = some 77 := by decide +kernel
theorem test_claim_claimed : (got (exec (.ownerClaim 0 6) (tSess (some 5)))).gb.ownerKey = some 5 := by decide +kernel

theorem wit_mailbox : tUp.present 0 = true ∧ (tUp.mbox 0).stampSet = none
    ∧ (({ tUp with link := { tUp.link with mbox := [(0, { Mailbox.reset with stampSet := some (9, 4) })] } }).mbox 0).stampSet = some (9, 4)
    ∧ 0 ≤ (Tbl.get [] (tUp.mbox 0).logs 3).length ∧ mailboxOpcodes.contains 0xFFFF = false ∧ tHost.hasOwner 0 = true
    ∧ (tHost.hostMap 0 64).isSome = true ∧ (regs tUp [(.gbOwner, 0, 0)]).hasOwner 0 = false ∧ (tUp.mbox 0).sanitize = false
    ∧ (({ tUp with link := { tUp.link with mbox := [(0, { Mailbox.reset with sanitize := true })] } }).mbox 0).sanitize = true := by decide +kernel
theorem wit_event_policy : ([0, 1, 2, 3].all fun k => decide ((0x01000101 : Word32).toNat / 2 ^ (8 * k) % 4 ≤ 1)) = true := by decide
theorem test_unsupported : (got (exec (.transferFw 0) tUp)).out.head? = some (.mailbox 0 .unsupported []) := by decide +kernel
theorem test_inject : (((tHost.hostMap 0 64).map fun p => (got (exec (.injectPoison 0 64) tHost)).poisonAt p)) = some true := by decide +kernel

/-! ## Dynamic capacity and the FM API -/

/-- Blocks 10 and 900 device-only, requester 0's back-invalidate decoder enabled; an extent of block 901 offered to requester 0,
posted or not, or held by it. -/
def tDc (e : Extent) : State := { flds tUp [(.devLink, 0, 10, 1, 1)] with link := { tUp.link with
  held := [(0, 10, some 0)], assigned := [(0, 10, some 0)], biEnabled := [0], extents := [e] } }
def eOffered : Extent := ⟨7, [901], 1, [0], [], true, 33⟩
def eHeld : Extent := ⟨7, [901], 1, [], [0], true, 33⟩
theorem wit_dc : (tDc eHeld).mgmtUp = true ∧ (tDc eHeld).hasOwner 0 = true ∧ (tDc eHeld).addOk [900] 0 [0] = true
    ∧ (tDc eHeld).addOk [10, 900] 1 [0] = true ∧ (tDc eHeld).freeSlot = some 34 ∧ (tDc eHeld).extentsOf 0 < extentsMax
    ∧ (tDc eHeld).link.extents.find? (fun e => e.id == 7 && (e.holders.contains 0 || e.offered.contains 0)) = some eHeld
    ∧ (tDc { eOffered with posted := false }).link.extents.find? (fun e => e.id == 7 && !e.posted) = some { eOffered with posted := false }
    ∧ (tDc eHeld).stageNow ≠ 0 ∧ (tDc eHeld).present 0 = true
    ∧ (tDc eOffered).link.extents.find? (fun e => e.id == 7 && e.posted && e.offered.contains 0) = some eOffered
    ∧ (tDc eHeld).link.extents.find? (fun e => e.id == 7 && e.holders.contains 0) = some eHeld
    ∧ ((tDc eHeld).linesHeld 0 eHeld).all (fun l => decide (((tDc eHeld).tracker l).queue.length < trackerPlaces)) = true := by decide +kernel
theorem test_dc_response : (got (exec (.addDynamicCapacityResponse 0 7 true) (tDc eOffered))).link.extents.map Extent.holders = [[0]] := by
  decide +kernel
theorem wit_fm : tUp.mgmtUp = true ∧ 0 ≤ fmAgent ∧ (flds tUp [(.devLink, 0, 0, 2, 2)]).f .devLink 0 0 2 = 2
    ∧ (flds tUp [(.devLink, 0, 0, 2, 1)]).f .devLink 0 0 2 = 1 ∧ (flds tUp [(.devLink, 0, 0, 2, 1)]).hasOwner 0 = true
    ∧ (regs tUp [(.gbOwner, 0, 0)]).hasOwner 0 = false
    ∧ ([(15, 255)] : List (Nat × Nat)).all (fun e => decide (e.1 < 16 ∧ e.2 < 256)) = true := by decide +kernel
theorem test_qos : (got (exec (.setQosBwLimit 0 [(15, 255)]) (flds tUp [(.devLink, 0, 0, 2, 1)]))).f .bridleLdq 15 8 8 = 255 := by decide +kernel

/-! ## Management -/

theorem wit_mgmt : tUp.mgmtUp = true ∧ tUp.endpoint 0 = true ∧ mctpTypes.contains 7 = true ∧ pldmCommands 5 ≠ [] ∧ tUp.sensors.contains 12 = true
    ∧ (tUp.sensor 12).isSome = true ∧ stateSensors.contains 102 = true
    ∧ (flds tUp [(.mgmtStatus, 0, 35, 1, 1)]).f .mgmtStatus 0 35 1 ≠ 0 ∧ eventSensors.contains 102 = true
    ∧ Tbl.get 0 ((flds tUp [(.mgmtStatus, 0, 35, 1, 1)]).updMgmt fun m => { m with seen := [(102, 99)] }).mgmt.seen 102 ≠
      ((flds tUp [(.mgmtStatus, 0, 35, 1, 1)]).updMgmt fun m => { m with seen := [(102, 99)] }).eventState 102 := by decide +kernel
theorem test_tid : (got (exec (.setTid 0 0xFE) tUp)).mgmt.tid = 0xFE := by decide +kernel
/-- An update of pair B in a phase. -/
def tUpdate (phase : Nat) (u : Update) : State := tUp.setUpdate phase (some u)
def tU : Update := ⟨true, [1, 2], some 1, [], 9⟩
theorem wit_update : tUp.mayManage true = true ∧ tUp.mgmt.update = none
    ∧ ({ regs tUp [(.gbOwnerCfg, 0, 0)] with gb := { tUp.gb with ownerKey := some 5 } }).mayManage false = false
    ∧ (tUpdate 1 { tU with cur := none }).mgmt.update = some { tU with cur := none } ∧ (tUpdate 1 { tU with cur := none }).updatePhase = 1
    ∧ tU.comps.contains 2 = true ∧ tU.done.contains 2 = false ∧ (tUpdate 5 tU).updatePhase = 5 ∧ (tUpdate 2 tU).updatePhase = 2
    ∧ (tUpdate 3 tU).updatePhase = 3 ∧ (tUpdate 4 tU).updatePhase = 4 ∧ tU.cur = some 1 := by decide +kernel
theorem wit_update_verifies : ((tUpdate 3 tU).copyLacking tU).verifies tU 1 = true := by decide +kernel
theorem test_activate : (got (exec (.activateFirmware 0) (tUpdate 5 { tU with cur := none }))).stage.bootB = true := by decide +kernel
theorem test_data_unverified : ((got (exec (.requestFirmwareData 0 4096) (tUpdate 2 tU))).stage.image true 1).sigOk = false := by decide +kernel

/-! ## Enables and disables -/

theorem wit_enables : ([(.sqCtl, 1, 2, 1, 0x400), (.cqCtl, 511, 2, 1024 + 511, 0x400), (.streamQCtl, 15, 3, 15, 0), (.ringCtl, 127, 4, 127, 0),
    (.barrierCtl, 255, 5, 255, 0), (.hitchCfg, 3, 5, 512 + 3, 0), (.kvPoolCtl, 15, 6, 15, 0), (.reinPortCtl, 1, 7, 1, 0), (.vrCtl, 0, 8, 0, 0),
    (.fanCtl, 0, 9, 0, 0), (.thermCtl, 0, 9, 1, 0), (.bridleCtl, 35, 0xA, 35, 0), (.hrnCtl, 255, 0xB, 255, 0)] : List (Reg × Nat × Nat × Nat × Word)).all
    (fun e => let s := flds tUp [(e.1, e.2.1, 0, 1, 0)]
      decide (Accepts s 0 e.1 e.2.1 (e.2.2.2.2 ||| 1))
        && decide (Asks (wroteFields s 0 e.1 e.2.1 (e.2.2.2.2 ||| 1)) e.1 e.2.1 e.2.2.1 e.2.2.2.1)) = true := by decide +kernel
theorem wit_disables : ([(.sqCtl, 1, 2, 1, 0x401), (.cqCtl, 511, 2, 1024 + 511, 0x401), (.streamQCtl, 15, 3, 15, 1), (.ringCtl, 127, 4, 127, 1),
    (.barrierCtl, 255, 5, 255, 1), (.kvPoolCtl, 15, 6, 15, 1), (.reinPortCtl, 1, 7, 1, 1), (.vrCtl, 0, 8, 0, 0x6B)] : List (Reg × Nat × Nat × Nat × Word)).all
    (fun e => let s := flds tUp [(e.1, e.2.1, 0, 1, 1)]
      decide (Accepts s 0 e.1 e.2.1 (e.2.2.2.2 &&& ~~~1))
        && decide (Runs (wroteFields s 0 e.1 e.2.1 (e.2.2.2.2 &&& ~~~1)) e.1 e.2.1 e.2.2.1 e.2.2.2.1)) = true := by decide +kernel
theorem test_enable_asks : ((got (exec (.sqEnable 0 1 0x400) (flds tUp [(.sqCtl, 1, 0, 1, 0)]))).checks 2).length = 1 := by decide +kernel

/-! ## The stall table -/

/-- Requester 0 holds the staged copy. -/
def tHold : State := flds tUp [(.stallEdit, 0, 0, 5, holderCode 0)]
theorem wit_stall_table : Accepts tHold 0 .stallCommit 0 1 ∧ (wroteFields tHold 0 .stallCommit 0 1).gb.commit = none
    ∧ (wroteFields tHold 0 .stallCommit 0 1).holds 0 = true ∧ (wroteFields tHold 0 .stallCommit 0 1).checking 1 0 = false
    ∧ Accepts tHold 0 .stallCommit 0 4 ∧ (wroteFields tHold 0 .stallCommit 0 4).holds 0 = true
    ∧ Accepts tUp 0 .stallEdit 0 0x20 ∧ (wroteFields tUp 0 .stallEdit 0 0x20).f .stallEdit 0 0 5 = 0x1F
    ∧ Accepts tHold 0 .stallEdit 0 0x40 ∧ (wroteFields tHold 0 .stallEdit 0 0x40).holds 0 = true := by decide +kernel
/-- A commit in progress. -/
def tCommit : State := { tHold with gb := { tHold.gb with commit := some ⟨[], [], [], 0⟩ } }
theorem wit_stall_reset : Accepts tUp 0 .stallReset 0 (BitVec.ofNat 64 (2 ^ 15)) ∧ Accepts tCommit 0 .stallReset 0 (BitVec.ofNat 64 (2 ^ 15))
    ∧ (wroteFields tUp 0 .stallReset 0 (BitVec.ofNat 64 (2 ^ 15))).gb.commit = none
    ∧ (wroteFields tCommit 0 .stallReset 0 (BitVec.ofNat 64 (2 ^ 15))).gb.commit.isSome = true := by decide +kernel
/-- GO: 2 blocks from 10, to requester 0; and none. -/
def wCap (n : Nat) : Word := BitVec.ofNat 64 (2 ^ 63 + 10 + n * 2 ^ 16 + 2 ^ 36)
theorem wit_cap_assign : Accepts tUp 0 .stallCapAssign 0 (wCap 2) ∧ bitAt (wCap 2) 63 = true
    ∧ (wroteFields tUp 0 .stallCapAssign 0 (wCap 2)).capRefused = false ∧ Accepts tUp 0 .stallCapAssign 0 (wCap 0)
    ∧ (wroteFields tUp 0 .stallCapAssign 0 (wCap 0)).capRefused = true := by decide +kernel
theorem wit_release : Accepts (regs tUp [(.gbOwnerCfg, 0, 0)]) 0 .gbOwnerCfg 0 (0 ||| 4) ∧ bitAt ((regs tUp [(.gbOwnerCfg, 0, 0)]).regOf 0 .gbOwnerCfg 0) 0 = false := by decide +kernel
theorem test_edit_take : (got (exec (.editTake 0) tUp)).holds 0 = true := by decide +kernel
theorem test_cap : (got (exec (.capAssign 0 (wCap 2)) tUp)).link.assigned.head? = some (10, 2, some 0) := by decide +kernel
theorem wit_active_takes_staged : tUp.Inv ∧ Tbl.risingFrom 0 [(0, (3 : Word)), (0xF9C, 7)] = true
    ∧ ([(0, (3 : Word)), (0xF9C, 7)] : List (Nat × Word)).all (fun e => decide (e.1 < 0x1000)) = true := ⟨wit_up_canonical, by decide⟩

/-! ## Checks and harnesses -/

/-- A check of SQ 1 in the host's bank that will accept, or refuses with code 3 at field 4. -/
def tCheck (code field : Nat) : State := tUp.setChecks 2 [⟨1, 0, true, code, field, false⟩]
theorem wit_check : (tCheck 0 0).checks 2 = [⟨1, 0, true, 0, 0, false⟩] ∧ (tCheck 3 4).checks 2 = [⟨1, 0, true, 3, 4, false⟩]
    ∧ Accepts tUp 0 .tackAudit 0 1 ∧ (wroteFields tUp 0 .tackAudit 0 1).f .tackAudit 0 1 1 = 0 := by decide +kernel
/-- An audit busy; and with an enabled SQ of depth 0. -/
def tAudit (s : State) : State := { s with tack := { s.tack with audit := some 0 } }
theorem wit_audit : (tAudit State.reset).tack.audit.isSome = true ∧ (tAudit State.reset).findings.length = 0
    ∧ 0 < (tAudit (flds tUp [(.sqCtl, 1, 0, 1, 1)])).findings.length := by decide +kernel
theorem test_check_accepts : (got (exec (.tackCheckComplete 2) (tCheck 0 0))).f .sqCtl 1 0 1 = 1 := by decide +kernel
theorem test_check_refuses : (got (exec (.tackCheckComplete 2) (tCheck 3 4))).f .sqCtl 1 0 1 = 0
    ∧ (got (exec (.tackCheckComplete 2) (tCheck 3 4))).f .tackCount 0 32 32 = 1 := by decide +kernel
/-- HRN_LOAD of 512 bytes at DRAM 0, or of too many, into entry 255; HRN_UNLOAD of entry 5. -/
def bLoad (n : Nat) : Nat := at_ 0x10 255 + at_ 0x18 0x100000000000 + at_ 0x20 n
theorem wit_hrn_load : Starts 1 0x10 (withCmds tUp [tCmd 0x10 (bLoad 512)]) (tCmd 0x10 (bLoad 512)) 0 ∧ tUp.checkerUp 0xB = true
    ∧ tUp.hostThere 0 0x100000000000 = true ∧ tUp.hrnOn 255 = false ∧ tUp.checking 0xB 255 = false ∧ tUp.hrnLoaded 255 = false
    ∧ tUp.cpRange 0 0x100000000000 512 false true true = true ∧ (tUp.cpRead 0 0x100000000000 512 []).isSome = true ∧ hrnMax < 65793
    ∧ (tCmd 0x10 (bLoad 65793)).field 0x20 4 = 65793 := by decide +kernel
theorem wit_hrn_refused : (flds tUp [(.hrnCtl, 255, 0, 1, 1)]).hrnOn 255 = true ∧ (withHrn tUp).hrnUsers 5 = 0 ∧ (withHrn tUp).hrnLoaded 5 = true
    ∧ (withHrn tUp).hrnStall 5 = 0 ∧ (withTask tUp { tTask with entry := 5 }).hrnUsers 5 ≠ 0 := by decide +kernel
theorem test_hrn_unload : (got (exec (.hrnUnload 1) (withHrn (withCmds tUp [tCmd 0x11 (at_ 0x10 5)])))).hrnLoaded 5 = false := by decide +kernel

/-! ## Register accesses and debug -/

/-- Requester 0 is present, but holds neither Owner authority nor a stall. -/
def tPlain : State := regs tUp [(.gbOwner, 0, 0), (.activeCfg, 0, 0)]
/-- SQ_TAIL 1's offset: whole, and as its low half. -/
def oSqTail : Nat := Reg.off .sqTail 1
theorem wit_register_accesses : Accepts tUp 0 .sqTail 1 5 ∧ tUp.reaches 0 = true ∧ target 0 3 = .misaligned ∧ target 0x1FFFFF8 8 = .reserved
    ∧ tUp.reaches 1 = false ∧ target oSqTail (Reg.sqTail.row.width / 8) = .whole .sqTail 1 ∧ tUp.permits 0 .sqTail 1 = true
    ∧ tPlain.reaches 0 = true ∧ tPlain.permits 0 .sqTail 1 = false
    ∧ target (Reg.off .sqBase 1) 4 = .low .sqBase 1 ∧ tUp.permits 0 .sqBase 1 = true := by decide +kernel
theorem test_refused_read : (got (exec (.registerReadCapture 0 oSqTail (Reg.sqTail.row.width / 8)) tPlain)).out.head? =
    some (.read 0 oSqTail (Reg.sqTail.row.width / 8) 0 false) := by decide +kernel

/-- Rein port 1 up and enabled, as chip 2 of a ring, with chip 5 beyond it; stall 4 of chip 5 is bound to stall 0. -/
def tRein : State := flds tUp [(.reinPortStat, 1, 0, 3, 3), (.reinPortCtl, 1, 0, 1, 1), (.reinChip, 0, 0, 4, 2), (.reinRoute, 0, 10, 2, 2),
  (.reinRoute, 0, 12, 2, 1), (.reinBind1, 5, 4, 1, 1)]
theorem wit_register_effects : Accepts tUp 0 .bridleCntCtl 0 2 ∧ bitAt (2 : Word) 1 = true ∧ Accepts tRein 0 .reinPortCtl 1 0x11
    ∧ (wroteFields tRein 0 .reinPortCtl 1 0x11).f .reinPortCtl 1 0 1 = 1 ∧ (wroteFields tRein 0 .reinPortCtl 1 0x11).portUp 1 = true
    ∧ Accepts tRein 0 .reinPortCtl 1 0x21 ∧ (wroteFields tRein 0 .reinPortCtl 1 0x21).portUp 1 = true ∧ tRein.portUp 1 = true
    ∧ Accepts tUp 0 .hitchForce 0 (2 ^ 16 + 15) ∧ bitAt (BitVec.ofNat 64 (2 ^ 16 + 15)) 16 = true
    ∧ Accepts tUp 0 .stageCtl 0 1 ∧ bitAt (1 : Word) 0 = true ∧ tUp.pw.rails = 7
    ∧ Accepts tUp 0 .stageDrvHandshake 0 (2 ^ 64 - 1) ∧ tUp.present 0 = true := by decide +kernel
theorem test_config_request : (got (exec (.configRequest 15 1) State.reset)).out = [.config 15 1 true] := by decide +kernel
theorem test_hitch_force : (got (exec (.hitchForce 0 (2 ^ 16 + 15)) (regs tUp [(.hitchForceValue, 0, 9)]))).hitch 15 = 9 := by decide +kernel

/-- A trace ring of 4 KiB at DRAM 0 of stall 0. -/
def tTrace : State := regs tUp [(.traceBase, 0, 0x100000000000)]
theorem wit_trace : Accepts tTrace 0 .traceCtl 0 (0x700 ||| 1) ∧ (wroteFields tTrace 0 .traceCtl 0 (0x700 ||| 1)).traceRingOk 0 = true
    ∧ Accepts tTrace 0 .traceCtl 0 (0x600 ||| 1) ∧ (wroteFields tTrace 0 .traceCtl 0 (0x600 ||| 1)).traceRingOk 0 = false := by decide +kernel
theorem wit_session_open : Accepts tUp 0 .dbgSession 0 1 ∧ (wroteFields tUp 0 .dbgSession 0 1).stallValid ((wroteFields tUp 0 .dbgSession 0 1).f .dbgSession 0 4 4) = true
    ∧ Accepts tUp 0 .dbgSession 0 0xF1
    ∧ (wroteFields tUp 0 .dbgSession 0 0xF1).stallValid ((wroteFields tUp 0 .dbgSession 0 0xF1).f .dbgSession 0 4 4) = false := by decide +kernel
/-- An Owner debug session of stall 0, at an address. -/
def tDbg (a : Nat) : State := flds tUp [(.dbgSession, 0, 0, 1, 1), (.dbgAddr, 0, 0, 48, a)]
theorem wit_dbg_commands : [0, 1, 2].all (fun op =>
    decide (Accepts tUp 0 .dbgCmd 0 (BitVec.ofNat 64 (op + 4 * 3))) && decide ((wroteFields tUp 0 .dbgCmd 0 (BitVec.ofNat 64 (op + 4 * 3))).mgmt.dbg = none)
      && decide ((wroteFields tUp 0 .dbgCmd 0 (BitVec.ofNat 64 (op + 4 * 3))).f .dbgSession 0 0 1 = 0)
      && decide ((wroteFields (tDbg 0) 0 .dbgCmd 0 (BitVec.ofNat 64 (op + 4 * 3))).f .dbgSession 0 0 1 = 1)) = true := by decide +kernel
theorem wit_dbg_timeout : ({ tUp with mgmt := { tUp.mgmt with dbg := some (12, 0x100, 7) } }).dbgWaiting = some ⟨0, 8, 0, 0x100, 7⟩
    ∧ (flds tUp [(.gbOwner, 0, 6, 1, 1)]).debugOpen = true ∧ tUp.debugOpen = false := by decide +kernel
theorem wit_dbg_access : (0x100000FFFFF8 % 8 = 0) ∧ regionOf 0x100000FFFFF8 = .dram ∧ tUp.place 0 0x100000FFFFF8 true = some (.dram 0xFFFFF8)
    ∧ tUp.place 0 0x100000FFFFF8 false = some (.dram 0xFFFFF8) ∧ (tUp.devReady 0xFFFFF8 8 true cpPort).1 = true ∧ (tUp.devReady 0xFFFFF8 8 false cpPort).1 = true
    ∧ (paddockSpace % 256 = 0 ∧ regionOf paddockSpace = .paddock) ∧ tUp.place 0 (0x100000000000 + 2 * blockSize) true = none
    ∧ tUp.place 0 paddockSpace false = some (.paddock 0) ∧ 0x100000FFFFF9 % 8 ≠ 0 := by decide +kernel
theorem test_dbg_read : (got (exec (.dbgRead 0 (some 3)) ((tDbg 0x100000FFFFF8).wrNat 0xFFFFF8 8 0x55))).reg .dbgData 0 = 0x55 := by decide +kernel
theorem test_dbg_misaligned : (got (exec (.dbgRead 0 (some 3)) (tDbg 0x100000FFFFF9))).f .dbgStatus 0 1 3 = dbgMisaligned := by decide +kernel

/-! ## The host's windows -/

/-- Stall 0 is open to requester 0; result slot 255 is READY with GEN 3. -/
def tWin : State := tUp.setSlot 255 0x30002 9
theorem wit_windows : tWin.bar2Up 0 = true ∧ 2 ≤ tWin.stageNow ∧ tWin.paddockBound 0 0xFFC0 64 = true ∧ tWin.paddockBound 0 0xFFF0 64 = false
    ∧ 0xFFC0 + 64 ≤ bar2Size ∧ 0xFFC0 < rslotAperture := by decide +kernel
theorem wit_rslot_ack : tWin.rslotOpen 0 255 = true ∧ (rslotAperture + 64 * 255 - rslotAperture) / 64 = 255 ∧ rslotAperture + 64 * 255 < 0x3000000
    ∧ fld (0x30003 : Word) 0 16 = 3 ∧ tWin.slotState 255 = 2 ∧ fld (0x30003 : Word) 16 16 = fld (tWin.slotWords 255).1 16 16
    ∧ fld (0x20003 : Word) 16 16 ≠ fld (tWin.slotWords 255).1 16 16 ∧ (regs tWin [(.gbOwner, 0, 0), (.activeCfg, 0, 0)]).rslotOpen 0 255 = false := by decide +kernel
/-- A context that waits for host memory, and an HRN_LOAD from the host window. -/
def tHostWait : State := tCore 0 { tCtx [] with wait := .host 0x40000000000 8 false }
theorem wit_host_reads : tHostWait.task? 1 = some tTask ∧ tHostWait.hostReader tTask = some (0, 0, 0)
    ∧ ((withCmds tUp [tCmd 0x10 (at_ 0x18 hostSpace)]).hostCommand 1).map (fun e => e.1.op) = some 0x10 := by decide +kernel
theorem test_ack : (got (exec (.rslotAck 0 (rslotAperture + 64 * 255) 4 0x30003) tWin)).slotState 255 = 3 := by decide +kernel
theorem test_ack_old : (got (exec (.rslotAck 0 (rslotAperture + 64 * 255) 4 0x20003) tWin)).slotState 255 = 2 := by decide +kernel

/-! ## Rein -/

/-- A DATA flit: a hitch write from chip 5, or one whose first slot is neither header nor zero. -/
def tFlit (fseq : Nat) (ok : Bool) : Flit :=
  ⟨fseq, 0, [0, 0, 0, 0, 0, 0], false, [(header0 tHwr 0 2 5 0 4 0 0 0 0 15).setWidth 128 ||| (7 <<< 64)] ++ List.replicate 13 0, bit ok, 0⟩
theorem wit_data_flit : tRein.portUp 1 = true ∧ ((tFlit 1 true).fseq + 4096 - (tRein.port 1).rxSeq) % 4096 = 1
    ∧ (takeSlots (tFlit 1 true) ((tFlit 1 true).slots.take 14).zipIdx (tRein.port 1)).isSome = true
    ∧ takeSlots (tFlit 1 false) ((tFlit 1 false).slots.take 14).zipIdx (tRein.port 1) = none
    ∧ ((tFlit 0 true).fseq + 4096 - (tRein.port 1).rxSeq) % 4096 = 0 ∧ 2048 ≤ ((tFlit 2048 true).fseq + 4096 - (tRein.port 1).rxSeq) % 4096
    ∧ ((tFlit 2047 true).fseq + 4096 - (tRein.port 1).rxSeq) % 4096 = 2047 := by decide +kernel
/-- Flits 1 to 3 not acknowledged; a rebuild in progress. -/
def tReplay : State := tRein.updPort 1 fun q => { q with replay := [(1, 0, 1, []), (2, 0, 1, []), (3, 0, 1, [])], syncAt := some 4 }
theorem wit_replay : (tReplay.port 1).replay ≠ [] ∧ (tReplay.port 1).replay = [(1, 0, 1, [])] ++ (2, 0, 1, []) :: [(3, 0, 1, [])]
    ∧ (∀ x ∈ ([(1, 0, 1, [])] : List (Nat × Nat × Nat × List Nat)), x.1 ≠ 2) ∧ ((tReplay.port 1).replay.all fun x => x.1 != 4) = true
    ∧ (tRein.port 1).replay = [] ∧ (tReplay.port 1).syncAt = some 4 ∧ (tReplay.port 1).epoch = false := by decide
theorem test_ack_frees : ((tReplay.takeAck 1 2).port 1).replay = [(3, 0, 1, [])] := by decide
theorem test_flit_taken : ((got (exec (.dataFlit 1 true (tFlit 1 true)) tRein)).port 1).rx.length = 1 := by decide +kernel
theorem test_flit_ahead : ((got (exec (.dataFlit 1 true (tFlit 3 true)) tRein)).port 1).rxSeq = 0 := by decide +kernel

/-- Port 1 in a state, its PHY in L0. -/
def tPort (st : Nat) (q : ReinPort) : State := (flds tRein [(.reinPortStat, 1, 0, 3, st)]).setPort 1 q
def qFresh : ReinPort := { ReinPort.idle with l0 := true }
theorem wit_training : (tPort psTraining qFresh).portState 1 = psTraining ∧ (tPort psInit qFresh).portState 1 = psInit
    ∧ (tPort psInit qFresh).port 1 = qFresh ∧ qFresh.l0 = true ∧ qFresh.initOk = false ∧ qFresh.fresh = true
    ∧ (((tPort psInit qFresh).setF .reinPortStat 1 3 1 1).setF .reinPortStat 1 4 4 5).initCheck 1 5 0 1 false = none
    ∧ (((tPort psInit qFresh).setF .reinPortStat 1 3 1 1).setF .reinPortStat 1 4 4 2).initCheck 1 2 0 1 false = some 2
    ∧ ((tPort psInit { qFresh with fresh := false }).port 1).fresh = false ∧ psInit ≠ 0 ∧ psInit ≠ psDown
    ∧ (tPort psRetrain qFresh).portState 1 = psRetrain := by decide +kernel
theorem test_init_brings_up : (got (exec (.init 1 5 0 false true 1 0 [9, 8, 7, 6, 5, 4]) (tPort psInit qFresh))).portUp 1 = true := by decide +kernel
theorem test_init_own_chip : (got (exec (.init 1 2 0 false true 1 0 [9, 8, 7, 6, 5, 4]) (tPort psInit qFresh))).portState 1 = psDown := by decide +kernel

/-- Port 1 has received a packet of unit 7 and stall 4 of chip 5. -/
def tRecv (s : State) (typ cls dst dslots tag idx : Nat) (w1 : Word) (slots : List (Slot × Bool)) : State :=
  s.updPort 1 fun q => { q with rx := [⟨header0 typ cls dst 5 7 4 0 0 dslots tag idx, w1, slots, none⟩] }
def gotRing : Except Nat Nat → Option Nat
  | .ok r => some r
  | _ => none
def gotErr : Except Nat Nat → Option Nat
  | .error c => some c
  | _ => none
theorem wit_forward : ([5, 6, 9].map fun d => (((tRecv tRein tHwr 0 d 0 0 0 0 []).port 1).next? fun k => hDst k.w0 != tRein.chipId).map Prod.fst) = [some 0, some 0, some 0]
    ∧ tRein.route 6 = some 0 ∧ tRein.route 5 = some 1 ∧ tRein.route 9 = none := by decide +kernel
/-- Ring 63 of core 0 as another chip names it; with the credit of index 7 held by its unit 7. -/
def wFar : Word := 63
def tFar : State := withRing tRein 0
def tFarHeld : State := tFar.setRing 63 { Ring.idle with credits := [(7, none, 5 * 2 ^ 8 + 7)] }
/-- A fill of index 7. -/
def wFill : Word := BitVec.ofNat 64 (63 + 7 * 2 ^ 21)
theorem wit_rfill : ((tRecv tFarHeld tRfill 0 2 16 3 0 wFill (List.replicate 16 (1, false))).nextOf 1 tRfill).isSome = true
    ∧ gotRing (tFarHeld.remoteRing (header0 tRfill 0 2 5 7 4 0 0 16 3 0) wFill) = some 63
    ∧ tFarHeld.holdsCredit 63 (fld wFill 21 32) none (remoteKey (header0 tRfill 0 2 5 7 4 0 0 16 3 0)) = true
    ∧ tFar.holdsCredit 63 (fld wFill 21 32) none (remoteKey (header0 tRfill 0 2 5 7 4 0 0 16 3 0)) = false ∧ ringCore 63 = some 0
    ∧ gotErr (tRein.remoteRing (header0 tRfill 0 2 5 7 4 0 0 16 3 0) wFill) = some 4 := by decide +kernel
theorem wit_ord : (tRein.port 1).hold = [] ∧ tRein.fillsOf (header0 tHwr 0 2 5 7 4 0 0 0 0 15) = false
    ∧ [tHwr, tHadd, tRrel].all (fun t => ((tRecv tRein t 0 2 0 0 0 0 []).nextOf 1 t).any fun e => hType e.2.w0 == t) = true := by decide +kernel
theorem wit_rd : ((tRecv tRein tRd 1 2 0 3 0 (BitVec.ofNat 64 (paddockSpace + 2 ^ 48)) []).nextOf 1 tRd).isSome = true
    ∧ tRein.bound (header0 tRd 1 2 5 7 4 0 0 0 3 0) = some 0 ∧ tUp.bound (header0 tRd 1 2 5 7 4 0 0 0 3 0) = none
    ∧ tRein.place 0 paddockSpace false = some (.paddock 0) ∧ tRein.place 0 (paddockSpace + 63) false = some (.paddock 63) := by decide +kernel
theorem wit_rresv : ((tRecv tFar tRresv 1 2 0 3 0 (BitVec.ofNat 64 (63 + 1 * 2 ^ 21)) []).nextOf 1 tRresv).isSome = true ∧ tFar.remoteWaiting < remoteTable
    ∧ gotRing (tFar.remoteRing (header0 tRresv 1 2 5 7 4 0 0 0 3 0) wFar) = some 63 ∧ tFar.canGrant 63 2 = true ∧ tFar.canGrant 63 3 = false
    ∧ gotErr (tUp.remoteRing (header0 tRresv 1 2 5 7 4 0 0 0 3 0) wFar) = some 1 := by decide +kernel
/-- Tag 3 of unit 7 is outstanding at chip 5. -/
def tTag (f : RFor) (busy : Bool) : Tagged := ⟨3, 1, 5, 7, some 1, f, 0, 0, 100, busy⟩
def withTag (f : RFor) (busy : Bool) : State := { tRein with cx := { tRein.cx with rein := { tRein.cx.rein with tagged := [tTag f busy] } } }
theorem wit_responses : [(tWack, 0), (tRgnt, 0), (tRgnt, 5), (tWack, 2)].all (fun e =>
      ((tRecv (withTag (.resv (.ctx 7 0) 0 1) false) e.1 2 2 0 3 0 (BitVec.ofNat 64 e.2) []).nextOf 1 e.1).isSome) = true
    ∧ ((tRecv (withTag (.read 7 0 0 0) false) tRdata 2 2 4 3 0 0 (List.replicate 4 (1, false))).nextOf 1 tRdata).isSome = true
    ∧ ([(RFor.fill (some (7, 0, 0))), .read 7 0 0 0, .resv (.ctx 7 0) 0 1].all fun f =>
      (withTag f false).tagOf (header0 tWack 2 2 5 7 4 0 0 0 3 0) == some (tTag f false)) = true
    ∧ tRein.tagOf (header0 tWack 2 2 5 7 4 0 0 0 3 0) = none
    ∧ (withTag (.resv (.ctx 7 0) 0 1) true).cx.rein.tagged.find? (fun g => g.unit == 7 && g.tag == 3 && g.busy) = some (tTag (.resv (.ctx 7 0) 0 1) true)
    ∧ (withTag (.fill none) false).cx.rein.tagged.find? (fun g => g.unit == 7 && g.tag == 3 && !g.busy) = some (tTag (.fill none) false) := by decide +kernel
theorem test_remote_write : ((got (exec (.remoteHwr 1) (tRecv tRein tHwr 0 2 0 0 15 7 []))).hitchQueue (hitchBank 15)).map HReq.op = [.write 7] := by decide +kernel
theorem test_rein_timeout : (got (exec (.reinTimeout 7 3) (withTag (.fill none) false))).now = 100 + 1000 * max 1 (tRein.f .reinLimits 0 0 16) := by
  decide +kernel

/-! ## Power, reset and start-up -/

/-- In PERST# with rails up as given, sensors at 20 °C or sensor 0 at 100 °C. -/
def tRails (r : Nat) (hot : Bool) : State :=
  { regs tUp [(.thermStatus, 0, if hot then 0x141414141464 else 0x141414141414)] with
    pw := { Power.cold with rails := r }, stage := { tUp.stage with perst := true } }
theorem wit_power : ({ tUp with pw := { tUp.pw with rails := 0 } }).pw.rails = 0 ∧ tUp.pw.rails ≠ 0 ∧ tUp.ostlerOn = true
    ∧ tUp.link.jumper2x8 = false ∧ tUp.stage.perst = false ∧ tUp.trippedOff = false ∧ (tRails 7 false).pw.rails = 7 ∧ (tRails 3 false).pw.rails = 3
    ∧ (tRails 3 false).stage.perst = true ∧ ((tRails 3 false).updStage fun g => { g with perst := false }).coolEnough = true
    ∧ ((tRails 3 true).updStage fun g => { g with perst := false }).coolEnough = false := by decide +kernel
theorem test_cold_hot : (got (exec (.perstDeassert false) (tRails 3 true))).pw.rails = 3 ∧ (got (exec (.perstDeassert false) (tRails 3 false))).pw.rails = 7 := by
  decide +kernel
theorem test_trip : (got (exec (.thermalTrip 5) tUp)).pw.rails = 3 := by decide +kernel

/-- The device at a stage with images verified and running as given. -/
def tStage (st : Nat) (mgmt ctrl : Bool) : State :=
  { flds tUp [(.stageStatus, 0, 0, 2, st), (.stageStatus, 0, 6, 1, bit mgmt), (.stageStatus, 0, 7, 1, bit ctrl), (.stageStatus, 0, 16, 6, 32),
      (.stageDrvSummary, 0, 0, 1, 1)] with
    stage := { tUp.stage with mgmtStart := some 5, ctrlStart := some 6, trainValid := true } }
def tFresh (st : Nat) (mgmt ctrl : Bool) : State :=
  { tStage st mgmt ctrl with stage := { (tStage st mgmt ctrl).stage with mgmtVerified := false, ctrlVerified := false, bistDone := false } }
theorem wit_start_up : (tStage 0 false false).inReset = false ∧ (tStage 0 false false).stageNow = 0 ∧ (tStage 0 false false).stage.trainFail = none
    ∧ (tStage 0 false false).stage.trainValid = true ∧ (tFresh 1 false false).stageNow ≠ 0 ∧ (tFresh 1 false false).stage.mgmtVerified = false
    ∧ tUp.ras.ostlerHeld = false ∧ (tFresh 1 false false).mgmtHeld = false ∧ (tFresh 2 true false).stageNow = 2
    ∧ (tFresh 2 true false).stage.ctrlVerified = false ∧ (tFresh 2 true false).mgmtUp = true ∧ (tFresh 2 true false).ctrlHeld = false := by decide +kernel
theorem wit_images_run : (tStage 1 false false).stage.mgmtVerified = true ∧ (tStage 1 false false).mgmtUp = false
    ∧ (tStage 1 false false).stage.mgmtStart = some 5 ∧ (tStage 2 true false).stage.ctrlVerified = true ∧ (tStage 2 true false).f .stageStatus 0 7 1 = 0
    ∧ (tStage 2 true false).stage.ctrlStart = some 6 ∧ (tStage 2 true false).stage.fences.contains 8 = false ∧ (tStage 1 true false).inReset = false := by
  decide +kernel
theorem wit_trot : (flds (tStage 1 true false) [(.vrStatus, 0, 20, 1, 0)]).corePg = false ∧ (tStage 1 true false).stage.vrReason = none
    ∧ (tStage 1 true false).stageNow = 1 ∧ (tStage 1 true false).mgmtUp = true ∧ (tStage 1 true false).corePg = true ∧ 2 ≤ (tFresh 2 true true).stageNow
    ∧ (tFresh 2 true true).stage.bistDone = false ∧ (tStage 2 true true).imagesReady = true ∧ (tStage 2 true true).noneAccepted = false
    ∧ (tStage 2 true true).stage.fences = [] ∧ (tStage 2 true true).stageNow = 2 := by decide +kernel
theorem wit_pair_fails : (flds tUp [(.stageCtl, 0, 2, 1, 1), (.stageStatus, 0, 5, 1, 0)]).f .stageCtl 0 2 1 = 1
    ∧ (flds tUp [(.stageCtl, 0, 2, 1, 1), (.stageStatus, 0, 5, 1, 0)]).f .stageStatus 0 5 1 = 0
    ∧ (flds tUp [(.stageCtl, 0, 2, 1, 0)]).f .stageCtl 0 2 1 = 0 ∧ tUp.stage.fallback = false := by decide +kernel
theorem wit_canter : (got (exec .canterEntry (tStage 2 true true))).f .stageStatus 0 0 2 = 3 ∧ (tStage 2 true true).f .stageStatus 0 0 2 ≠ 3 := by decide +kernel
theorem test_no_canter : (got (exec .canterEntry { tStage 2 true true with stage := { (tStage 2 true true).stage with fences := [7] } })).f .stageStatus 0 0 2 = 2 := by
  decide +kernel

/-! ## Links and functions -/

/-- The 2 × x8 jumper, the device not at Walk yet, both heads released. -/
def tTwoHeads : State := { flds tUp [(.devLink, 0, 0, 24, 2), (.stageStatus, 0, 0, 2, 0)] with
  link := { tUp.link with jumper2x8 := true, refclk1 := true }, stage := { tUp.stage with perst1 := false } }
theorem wit_heads : tTwoHeads.inReset = false ∧ tTwoHeads.link.jumper2x8 = true ∧ tTwoHeads.stage.perst1 = false ∧ tTwoHeads.link.refclk1 = true
    ∧ tTwoHeads.f .devLink 0 12 1 = 0 ∧ tTwoHeads.f .devLink 0 2 1 = 0 ∧ tTwoHeads.stageNow = 0 := by decide +kernel
theorem wit_ld : (flds tUp [(.devLink, 0, 0, 10, 0x205), (.stageStatus, 0, 0, 2, 0)]).f .devLink 0 0 2 = 1
    ∧ (flds tUp [(.devLink, 0, 0, 10, 0x205), (.stageStatus, 0, 0, 2, 0)]).headsMem.contains 0 = true ∧ tUp.link.f1D3 = false
    ∧ ({ tUp with link := { tUp.link with f1D3 := true } }).link.f1D3 = true := by decide +kernel
theorem test_head_link : (got (exec (.headLinkL0 1 3 3 false false false) tTwoHeads)).present 1 = true := by decide +kernel
theorem test_d3hot : (got (exec .f1D3hot tUp)).stage.fences = [6] := by decide +kernel

/-! ## The regulator and the monitors -/

/-- VDD_CORE off and on its ramp: at its set-point. -/
def tRamp : State := flds tUp [(.vrStatus, 0, 20, 1, 0), (.vrPhase, 0, 0, 6, 0x3F)]
theorem wit_power_good : tRamp.corePg = false ∧ tRamp.f .vrCtl 0 0 1 = 1 ∧ tRamp.pw.rails = 7 ∧ tRamp.pw.latched = false ∧ tRamp.pw.undervolt = false
    ∧ tRamp.pw.pgFaultAt = none ∧ tRamp.mgmtUp = true ∧ tRamp.stageNow ≠ 0
    ∧ tRamp.setpointOf (tRamp.f .vrCtl 0 3 2) ≤ tRamp.setpointOf (tRamp.f .vrCtl 0 3 2) + 50 ∧ tUp.corePg = true := by decide +kernel
/-- A power-good fault waits for its ramp. -/
def tPgFault : State := { tRamp with pw := { tRamp.pw with pgFaultAt := some 3 } }
theorem wit_retry_ramp : tPgFault.pw.pgFaultAt = some 3 ∧ tPgFault.pw.retried = false ∧ tPgFault.pw.latched = false ∧ tPgFault.f .vrCtl 0 0 1 = 1 := by decide +kernel
theorem wit_phases : tRamp.switches 5 = true ∧ tRamp.f .vrStatus 0 22 1 = 0 ∧ (tRamp.phase 5).hsNow = false ∧ (tRamp.phase 5).hs + 1 < 8
    ∧ 8 ≤ ((tRamp.setPhase 5 { Phase.idle with hs := 7 }).phase 5).hs + 1 ∧ (tRamp.setPhase 5 { Phase.idle with hs := 7 }).switches 5 = true
    ∧ tRamp.f .vrStatus 0 21 1 = 0 := by decide +kernel
theorem wit_on_time : (0 < (100 : Int) ∧ 10 * ((100 : Int) + 0) < 64 * (50 : Nat)) ∧ (0 < (3000 : Int) ∧ 64 * ((50 : Nat) : Int) ≤ 10 * (3000 + 0)
    ∧ 64 * ((20 : Nat) : Int) + 64 * (40 : Nat) ≤ 10 * (8000 - (3000 + 0))) := by decide
theorem test_skip_carries : onTime 50 40 20 255 0 0 100 = (0, 100, 1, true) ∧ onTime 50 40 20 255 0 4 100 = (320, 0, 0, false) := by decide +kernel
theorem test_leg_fault : (got (exec (.hardShort 5 false) tRamp)).pw.legFaults.length = 1 := by decide +kernel

/-- OP 1 asked for and OP 3 in force; an OP change in progress. -/
def tOp1 : State := flds tUp [(.vrCtl, 0, 1, 2, 1), (.vrCtl, 0, 3, 2, 3)]
theorem wit_op_change : tOp1.mgmtUp = true ∧ tOp1.corePg = true ∧ tOp1.pw.target = none ∧ tOp1.effOp ≠ tOp1.f .vrCtl 0 3 2
    ∧ ¬tOp1.f .vrCtl 0 3 2 < tOp1.effOp
    ∧ ({ tOp1 with pw := { tOp1.pw with target := some (1, 44) } }).pw.target = some (1, 44) := by decide +kernel
/-- ADAPT on with SLACK_LO 10, SLACK_HI 20. -/
def tAdapt : State := flds tUp [(.vrAdapt, 0, 0, 1, 1), (.vrAdapt, 0, 16, 8, 10), (.vrAdapt, 0, 24, 8, 20)]
theorem wit_adapt : tAdapt.mgmtUp = true ∧ tAdapt.corePg = true ∧ tAdapt.f .vrAdapt 0 0 1 = 1 ∧ tAdapt.pw.adaptAt = none ∧ tAdapt.pw.droopAt = none
    ∧ ((tAdapt.updPw fun p => { p with adaptAt := some tAdapt.now, droopAt := none }).f .vrAdapt 0 16 8) <
      ((tAdapt.updPw fun p => { p with adaptAt := some tAdapt.now, droopAt := none }).f .vrAdapt 0 24 8) := by decide +kernel
theorem wit_monitors_power : tUp.ostlerOn = true ∧ ((0 : Int) + (min 2500 (tUp.f .refCfg 0 0 12) : Nat)).natAbs ≤ 2500 ∧ tUp.pw.clkOkAt = none
    ∧ (flds tUp [(.refStatus, 0, 49, 1, 0)]).feeds true = true ∧ tUp.f .refStatus 0 51 1 = 0 ∧ tUp.frozen 5 = false := by decide +kernel
theorem wit_clock_deviation : ((-(min 2500 (tUp.f .refCfg 0 0 12) : Nat) : Int) + (min 2500 (tUp.f .refCfg 0 0 12) : Nat)).natAbs ≤ 200 := by decide +kernel
theorem wit_power_average : ({ tUp with pw := { tUp.pw with powerAt := some 8 } }).pw.powerAt = some 8 ∧ 10 * tUp.effLimit < 65535 := by decide +kernel
/-- The fan in a state. -/
def tFan (st starts : Nat) : State := flds { tUp with pw := { tUp.pw with fanWant := true } } [(.fanStatus, 0, 16, 3, st), (.fanStatus, 0, 20, 4, starts),
  (.thermStatus, 0, 0, 48, 0x141414141414)]
theorem wit_fan : tUp.card.order = .a256 ∧ tUp.mgmtUp = true ∧ (tFan 2 0).fanState = 2 ∧ (tFan 0 0).fanState = 0 ∧ (tFan 0 0).pw.fanWant = true
    ∧ (tFan 3 0).fanState = 3 ∧ (tFan 1 2).fanState = 1 ∧ (tFan 1 2).f .fanStatus 0 20 4 < 3 ∧ (tFan 3 0).junctionWarm < (tFan 3 0).warnC
    ∧ (tFan 3 0).anyFrozen = false ∧ (flds (tFan 3 0) [(.thermStatus, 0, 48, 1, 1)]).anyFrozen = true
    ∧ (flds (tFan 3 0) [(.fanCtl, 0, 1, 1, 0)]).f .fanCtl 0 1 1 = 0 := by decide +kernel
theorem test_fan_stalls : (got (exec (.fanStartCheck 300) (tFan 1 2))).fanState = 2 ∧ (got (exec (.fanStartCheck 301) (tFan 1 2))).fanState = 3 := by decide +kernel
theorem test_adapt_down : signed 8 ((got (exec (.adaptTick 20) tAdapt)).f .vrStatus 0 24 8) = -5 := by decide +kernel

/-! ## The queue of commands -/

theorem wit_empty_queue : State.reset.pending = [] := by decide
theorem wit_front : ({ State.reset with pending := [Instr.coldPowerOn, .supplyDrop] }).pending = [.coldPowerOn, .supplyDrop] := by decide
theorem test_front : (got (step { tUp with pending := [Instr.auxDetect true, .supplyDrop] })).pending = [.supplyDrop] := by decide +kernel
theorem test_idle : (got (step State.reset)).now = State.reset.now + 1 := by decide

end Sys2Proof.Tests
end

