-- ==== Sys2Proof/Proofs/LinksAndFunctions.lean ====
section
/-! PROOFS. Heads, LDs and function resets (O57): what each command of the host link comes to once its guard holds. -/

namespace Sys2Proof.Machine

open Sys2Proof

/-! ## What DEV_LINK and DEV_REQ_PRESENT leave of the Stage -/

/-- A field write of a register elsewhere in BAR0 leaves the Stage. -/
theorem State.stageNow_setF (s : State) {r : Reg} {i : Nat} (lo n v : Nat) (h : Reg.stageStatus.off 0 ≠ r.off i) :
    (s.setF r i lo n v).stageNow = s.stageNow := by
  unfold State.stageNow State.f State.setF
  rw [State.reg_setReg_ne s h]

@[simp] theorem State.stageNow_setF_devLink (s : State) (lo n v : Nat) :
    (s.setF .devLink 0 lo n v).stageNow = s.stageNow := s.stageNow_setF lo n v (by decide)

@[simp] theorem State.stageNow_setF_devReqPresent (s : State) (lo n v : Nat) :
    (s.setF .devReqPresent 0 lo n v).stageNow = s.stageNow := s.stageNow_setF lo n v (by decide)

/-! ## Heads and LDs -/

/-- In 2 × x8 mode, before Walk, a head with its PERST# released (and for head 1 its reference clock) whose link
reaches L0 without CXL is up in DEV_LINK and its requester present (R86, R131). -/
theorem exec_headLinkL0_jumper {s : State} {h rate width : Nat} (hr : s.inReset = false) (hj : s.link.jumper2x8 = true)
    (hh : h = 0 ∧ s.stage.perst = false ∨ h = 1 ∧ s.stage.perst1 = false ∧ s.link.refclk1 = true)
    (hrate : rate ≤ 3) (hwidth : width ≤ 3) (hdown : s.f .devLink 0 (if h = 0 then 2 else 12) 1 = 0)
    (hstage : s.stageNow = 0) :
    exec (.headLinkL0 h rate width false false false) s = .next
      ((s.setF .devLink 0 (if h = 0 then 2 else 12) 10 (1 + 2 * rate + 2 ^ 4 * width)).setF .devReqPresent 0 h 1 1) := by
  change execHeadLinkL0 h rate width false false false s = _
  have hrate5 : ¬ 5 < rate := by omega
  have hwidth3 : ¬ 3 < width := by omega
  obtain ⟨rfl, hp⟩ | ⟨rfl, hp, hc⟩ := hh
  · simp [execHeadLinkL0, bit, hr, hj, hp, hrate5, hwidth3, hstage, show s.f .devLink 0 2 1 = 0 from hdown]
  · simp [execHeadLinkL0, bit, hr, hj, hp, hc, hrate5, hwidth3, hstage, show s.f .devLink 0 12 1 = 0 from hdown]

/-- In MLD mode, before Walk, an LD is bound on a head 0 with CXL.mem active and its requester is present (R109). -/
theorem exec_ldBind_mld {s : State} {ld : Nat} (hr : s.inReset = false) (hld : ld < 16) (hmld : s.f .devLink 0 0 2 = 1)
    (hmem : s.headsMem.contains 0 = true) (hstage : s.stageNow = 0) :
    exec (.ldBind ld) s =
      .next (({ s with link := { s.link with bound := KSet.add ld s.link.bound } }).setF .devReqPresent 0 ld 1 1) := by
  change execLdBind ld s = _
  have hguard : (s.inReset || 16 ≤ ld || s.f .devLink 0 0 2 ≠ 1 || !s.headsMem.contains 0) = false := by
    rw [hr, hmem, hmld]
    simp [hld]
  have hkept : ({ s with link := { s.link with bound := KSet.add ld s.link.bound } } : State).stageNow = 0 := hstage
  simp only [execLdBind, hguard, State.stageNow_setF_devReqPresent, hkept, Bool.false_eq_true, if_false, Nat.lt_irrefl]

/-! ## F0 and requester resets -/

section
variable {s : State} {req : Nat} (hp : s.present req = true)
include hp

/-- F0_D3HOT only answers the configuration request (R135). -/
theorem exec_f0D3hot_present : exec (.f0D3hot req) s = .next (s.emit (.config req 0 false)) := by
  change execF0D3hot req s = _
  rw [execF0D3hot, if_pos hp]

/-- F0_FLR resets the mailbox and keeps a Sanitize in progress (R127). -/
theorem exec_f0Flr_present :
    exec (.f0Flr req) s = .next (s.setMbox req { Mailbox.reset with sanitize := (s.mbox req).sanitize }) := by
  change execF0Flr req s = _
  rw [execF0Flr, if_pos hp]

/-- A requester reset takes the steps of R129; only in MLD mode does its head stay up. -/
theorem exec_requesterReset_present :
    exec (.requesterReset req) s = .next (if (s.requesterReset req).f .devLink 0 0 2 = 1 then s.requesterReset req
      else (s.requesterReset req).headDown req) := by
  change execRequesterReset req s = _
  rw [execRequesterReset, if_neg (by simp [hp])]

end

/-! ## F1 -/

section
variable {s : State} (hr : s.inReset = false)
include hr

/-- Out of reset, F1_FLR acts (R77). -/
theorem exec_f1Flr_outOfReset : exec .f1Flr s = .next s.f1Flr := by
  change execF1Flr s = _
  rw [execF1Flr, if_neg (by simp [hr])]

/-- F1 entering D3hot fences compute with cause 6 (R136). -/
theorem exec_f1D3hot_of_d0 (hd : s.link.f1D3 = false) :
    exec .f1D3hot s = .next (({ s with link := { s.link with f1D3 := true } }).fenceOn 6) := by
  change execF1D3hot s = _
  rw [execF1D3hot, if_neg (by simp [hr, hd])]

/-- F1 returning to D0 resets F1 and then lifts cause 6 (R136). -/
theorem exec_f1D0Return_of_d3 (hd : s.link.f1D3 = true) :
    exec .f1D0Return s = .next ((({ s with link := { s.link with f1D3 := false } }).f1Flr).fenceOff 6) := by
  change execF1D0Return s = _
  rw [execF1D0Return, if_neg (by simp [hr, hd])]

end

/-- Settles O57: each clause is its command past its guard; before Walk a head or LD that comes up makes no memory
active, for its register writes leave the Stage. -/
theorem linksAndFunctions : Obligations.LinksAndFunctions := by
  unfold Obligations.LinksAndFunctions
  intro s req ld rate width
  refine ⟨fun hr hj => ?heads, exec_ldBind_mld, fun hp => ?requester, fun hr => ?f1⟩
  case heads =>
    intro h hh hrate hwidth lo hdown hstage
    exact exec_headLinkL0_jumper hr hj hh hrate hwidth hdown hstage
  case requester => exact ⟨exec_f0D3hot_present hp, exec_f0Flr_present hp, exec_requesterReset_present hp⟩
  case f1 => exact ⟨exec_f1Flr_outOfReset hr, exec_f1D3hot_of_d0 hr, exec_f1D0Return_of_d3 hr⟩

end Sys2Proof.Machine
end

