-- ==== Sys2Proof/Proofs/ScalarIssue.lean ====
section
/-! PROOFS. What a scalar instruction that issues answers, from what its effect does: the rules that the scalar
instructions' statements share. -/

namespace Sys2Proof.Machine

open Sys2Proof

variable {c : Instr} {i : Issue} {o : Op} {s : State} {t : Task}

/-- A command that is one issue answers, when its instruction issues, what the effect makes of the issue (R343). -/
theorem exec_of_issueOf {run : X → State → State} {u : State} (hc : exec c s = .next (issueOf i o run s))
    (hu : run (issueX i s t) (issueTook i s) = u) (h : Issues i o s t) : exec c s = .next u := by
  rw [hc, issueOf_issues run h, hu]

/-- A register ALU instruction retires with f(rs1, rs2) in rd, poisoned by either source (R330, R361). -/
theorem exec_of_alu {f : Word → Word → Word} {v : Word} (hc : exec c s = .next (alu i o f s))
    (hv : f (issueX i s t).a.1 (issueX i s t).b.1 = v) (h : Issues i o s t) :
    exec c s = .next (retires i s fun k =>
      k.wg (iRd i.word) v ((issueX i s t).a.2 || (issueX i s t).b.2)) := by
  subst hv
  exact exec_of_issueOf hc (issueX_ret ..) h

/-- An immediate ALU instruction retires with f(rs1, word) in rd, poisoned by rs1 (R330, R363). -/
theorem exec_of_aluImm {f : Word → Word → Word} {v : Word} (hc : exec c s = .next (aluImm i o f s))
    (hv : f (issueX i s t).a.1 i.word = v) (h : Issues i o s t) :
    exec c s = .next (retires i s fun k => k.wg (iRd i.word) v (issueX i s t).a.2) := by
  subst hv
  exact exec_of_issueOf hc (issueX_ret ..) h

end Sys2Proof.Machine
end

