-- ==== Sys2Proof/Proofs/ScalarAlu.lean ====
section
/-! PROOFS. Register ALU instructions (O7). -/

namespace Sys2Proof.Machine

open Sys2Proof

/-- ZEXTW's function as a number: the low 32 bits (R361). -/
theorem setWidth_32_64 (a : Word) : (a.setWidth 32).setWidth 64 = BitVec.ofNat 64 (a.toNat % 2 ^ 32) := by
  rw [← BitVec.toNat_setWidth, BitVec.ofNat_toNat]

/-- Settles O7: each register ALU instruction is the rule of `alu` with its own function; only for ZEXTW the statement
writes that function otherwise than the model. -/
theorem scalarAluResults : Obligations.ScalarAluResults := by
  unfold Obligations.ScalarAluResults
  intro i s t k a b p gives
  have holds {c : Issue → Instr} {o : Op} {f : Word → Word → Word} {v : Word}
      (hc : exec (c i) s = .next (alu i o f s)) (hv : f a b = v) : gives c o v := exec_of_alu hc hv
  exact ⟨
    -- sums and bitwise operations
    holds rfl rfl, holds rfl rfl, holds rfl rfl, holds rfl rfl, holds rfl rfl, holds rfl rfl,
    -- shifts and the rotate
    holds rfl rfl, holds rfl rfl, holds rfl rfl, holds rfl rfl,
    -- products, quotients and remainders (R362)
    holds rfl rfl, holds rfl rfl, holds rfl rfl, holds rfl rfl, holds rfl rfl, holds rfl rfl, holds rfl rfl,
    -- minima and maxima
    holds rfl rfl, holds rfl rfl, holds rfl rfl, holds rfl rfl,
    -- bit counts
    holds rfl rfl, holds rfl rfl, holds rfl rfl,
    -- extensions and the W forms
    holds rfl rfl, holds rfl rfl, holds rfl rfl, holds rfl (setWidth_32_64 a), holds rfl rfl, holds rfl rfl,
    -- set on less than
    holds rfl rfl, holds rfl rfl⟩

end Sys2Proof.Machine
end

