-- ==== Sys2Proof/Proofs/ScalarPredicates.lean ====
section
/-! PROOFS. Immediate ALU instructions, MOVW, compares, predicates and moves between v and g registers (O8). -/

namespace Sys2Proof.Machine

open Sys2Proof

/-! ## SHI: the shift that IMM12[7:6] names (R363) -/

section
variable {a w : Word}

theorem shiftImm_left (h : ib w 6 2 = 0) : shiftImm a w = a <<< ib w 0 6 := by
  simp [shiftImm, h]

theorem shiftImm_right (h : ib w 6 2 = 1) : shiftImm a w = a >>> ib w 0 6 := by
  simp [shiftImm, h]

theorem shiftImm_arith (h : ib w 6 2 = 2) : shiftImm a w = a.sshiftRight (ib w 0 6) := by
  simp [shiftImm, h]

theorem shiftImm_rotate (h : ib w 6 2 = 3) : shiftImm a w = a.rotateRight (ib w 0 6) := by
  simp [shiftImm, h]

end

/-! ## Compares (R365) -/

/-- What a compare makes of the issue: POISON_CONSUMED, or PD combined with the condition. -/
theorem issueX_compare (i : Issue) (s : State) (t : Task) (p c : Bool) :
    (issueX i s t).compare (issueTook i s) p c =
      if p then (issueX i s t).fault (issueTook i s) .poisonConsumed
      else retires i s fun k => k.wp (ib i.word 17 3) (combine (ib i.word 20 2) (k.rp (ib i.word 17 3)) c) := rfl

/-- Settles O8: the immediates are the rule of `aluImm` with their functions, SHI's by its kind; the others are their
effect on the issue, for the lane moves split on whether a queued VXE instruction writes the v register. -/
theorem scalarImmediatesAndPredicates : Obligations.ScalarImmediatesAndPredicates := by
  unfold Obligations.ScalarImmediatesAndPredicates
  refine ⟨fun i s t => ⟨?addi, ?andi, ?ori, ?xori, ?left, ?right, ?arith, ?rotate, ?movw⟩,
    fun i s t => ⟨?cmp, ?cmpi, ?plog, ?prd, ?pwr, ?ptst, ?vget, ?vput, ?vpmask, ?busy⟩⟩
  case addi => exact exec_of_aluImm rfl rfl
  case andi => exact exec_of_aluImm rfl rfl
  case ori => exact exec_of_aluImm rfl rfl
  case xori => exact exec_of_aluImm rfl rfl
  case left => exact fun hk => exec_of_aluImm rfl (shiftImm_left hk)
  case right => exact fun hk => exec_of_aluImm rfl (shiftImm_right hk)
  case arith => exact fun hk => exec_of_aluImm rfl (shiftImm_arith hk)
  case rotate => exact fun hk => exec_of_aluImm rfl (shiftImm_rotate hk)
  case movw => exact exec_of_issueOf rfl (issueX_next ..)
  case cmp => exact exec_of_issueOf rfl (issueX_compare ..)
  case cmpi => exact exec_of_issueOf rfl (issueX_compare ..)
  case plog => exact exec_of_issueOf rfl (issueX_next ..)
  case prd => exact exec_of_issueOf rfl (issueX_next ..)
  case pwr => exact exec_of_issueOf rfl (if_congr Iff.rfl rfl (issueX_next ..))
  case ptst => exact exec_of_issueOf rfl (issueX_next ..)
  case vget => exact fun h hfree => exec_of_issueOf rfl (if_neg (Bool.eq_false_iff.mp hfree)) h
  case vput => exact fun h hfree => exec_of_issueOf rfl (if_neg (Bool.eq_false_iff.mp hfree)) h
  case vpmask => exact fun h hfree => exec_of_issueOf rfl (if_neg (Bool.eq_false_iff.mp hfree)) h
  case busy => exact fun hbusy => ⟨exec_of_issueOf rfl (if_pos hbusy), exec_of_issueOf rfl (if_pos hbusy)⟩

end Sys2Proof.Machine
end

