-- ==== Sys2Proof/Proofs/ScalarBranches.lean ====
section
/-! PROOFS. Branches and register jumps (O10). -/

namespace Sys2Proof.Machine

open Sys2Proof

section
variable {x : X} {s : State} {f : Ctx → Ctx}

/-! ## The three outcomes of a register jump (R367) -/

theorem X.jumpReg_poisoned (hp : x.a.2 = true) : x.jumpReg s f = x.fault s .poisonConsumed := by
  rw [X.jumpReg, if_pos hp]

theorem X.jumpReg_outOfRange (hp : x.a.2 = false) (hr : 2 ^ 14 ≤ x.a.1.toNat) :
    x.jumpReg s f = x.fault s .pcRange := by
  have hq : x.a.1.toNat / 2 ^ 14 ≠ 0 := by omega
  rw [X.jumpReg, if_neg (Bool.eq_false_iff.mp hp), if_pos hq]

theorem X.jumpReg_inRange (hp : x.a.2 = false) (hr : x.a.1.toNat < 2 ^ 14) :
    x.jumpReg s f = x.jump s x.a.1.toNat f := by
  have hq : x.a.1.toNat / 2 ^ 14 = 0 := Nat.div_eq_of_lt hr
  rw [X.jumpReg, if_neg (Bool.eq_false_iff.mp hp), if_neg (not_not_intro hq)]

end

/-- Settles O10: BR and BAL jump at once; JR and JALR by the three outcomes of a register jump. -/
theorem scalarBranches : Obligations.ScalarBranches := by
  unfold Obligations.ScalarBranches
  refine ⟨fun i s t => ⟨?br, ?bal, fun hp hr => ?inRange⟩, fun i s t => ⟨fun hp => ?poisoned, fun hp hr => ?outOfRange⟩⟩
  case br => exact exec_of_issueOf rfl (issueX_jump ..)
  case bal => exact exec_of_issueOf rfl (issueX_jump ..)
  case inRange => exact ⟨exec_of_issueOf rfl (X.jumpReg_inRange hp hr), exec_of_issueOf rfl (X.jumpReg_inRange hp hr)⟩
  case poisoned => exact ⟨exec_of_issueOf rfl (X.jumpReg_poisoned hp), exec_of_issueOf rfl (X.jumpReg_poisoned hp)⟩
  case outOfRange =>
    exact ⟨exec_of_issueOf rfl (X.jumpReg_outOfRange hp hr), exec_of_issueOf rfl (X.jumpReg_outOfRange hp hr)⟩

end Sys2Proof.Machine
end

