-- ==== Sys2Proof/Proofs/HostWindows.lean ====
section
/-! PROOFS. BAR2, result slots and host reads that fail (O49): what each command comes to once its guard holds. -/

namespace Sys2Proof.Machine

open Sys2Proof

/-! ## The Paddock aperture (R98, R99) -/

section
variable {s : State} {req off size : Nat} (hup : s.bar2Up req = true) (hpos : 0 < size) (hmax : size ≤ 64)
  (hend : off + size ≤ bar2Size) (hstage : 2 ≤ s.stageNow) (hap : off < rslotAperture)
include hup hpos hmax hend hstage hap

/-- From Trot on, an access of 1 to 64 bytes at the Paddock aperture is performed within a bound window and refused
outside. -/
theorem exec_bar2PaddockAccess_paddock (write : Option Line64) :
    exec (.bar2PaddockAccess req off size write) s = .next (
      if s.paddockBound req off size then
        let u := (s.pdSettle off).pdSettle (off + size - 1)
        write.elim (u.bar2Data req off size (u.rdNat (pdBase + off) size) (u.poisonIn (pdBase + off) size))
          fun d => u.paddockPut off size d.toNat
      else s.bar2Refused req off size write.isSome) := by
  have hguard : (!s.bar2Up req || decide (size = 0) || decide (64 < size)
      || decide (bar2Size < off + size)) = false := by
    simp [hup, hend, hmax, Nat.ne_of_gt hpos]
  have hstage' : ¬ s.stageNow < stTrot := Nat.not_lt.mpr hstage
  change execBar2PaddockAccess req off size write s = _
  rw [execBar2PaddockAccess, if_neg (Bool.eq_false_iff.mp hguard), if_neg hstage', if_pos hap]
  cases hbound : s.paddockBound req off size <;> cases write <;> rfl

theorem exec_bar2PaddockAccess_bound (hbound : s.paddockBound req off size = true) (write : Option Line64) :
    let u := (s.pdSettle off).pdSettle (off + size - 1)
    exec (.bar2PaddockAccess req off size write) s = .next (
      write.elim (u.bar2Data req off size (u.rdNat (pdBase + off) size) (u.poisonIn (pdBase + off) size))
        fun d => u.paddockPut off size d.toNat) := by
  rw [exec_bar2PaddockAccess_paddock hup hpos hmax hend hstage hap, if_pos hbound]

theorem exec_bar2PaddockAccess_unbound (hbound : s.paddockBound req off size = false) (write : Option Line64) :
    exec (.bar2PaddockAccess req off size write) s = .next (s.bar2Refused req off size write.isSome) := by
  rw [exec_bar2PaddockAccess_paddock hup hpos hmax hend hstage hap, if_neg (Bool.eq_false_iff.mp hbound)]

end

/-! ## Result slots (R548) -/

/-- The write of `size` bytes at byte `o` of the slot aperture is an ACK that matches its slot: four bytes at the
slot's first word, 0b11 with the slot's GEN, and the slot is READY. -/
abbrev State.Acks (s : State) (o size : Nat) (val : Word) : Prop :=
  size = 4 ∧ o % 64 = 0 ∧ fld val 0 16 = 3 ∧ s.slotState (o / 64) = 2
    ∧ fld val 16 16 = fld (s.slotWords (o / 64)).1 16 16

section
variable {s : State} {req off size : Nat} {val : Word} (hup : s.bar2Up req = true) (hlow : rslotAperture ≤ off)
  (hhigh : off < 0x3000000) (hstage : 2 ≤ s.stageNow)
include hup hlow hhigh hstage

/-- From Trot on, a write to the slot aperture marks the slot CONSUMED if the requester may access it and
the write is an ACK that matches; else it is recorded. -/
theorem exec_rslotAck_aperture :
    let k := (off - rslotAperture) / 64
    exec (.rslotAck req off size val) s = .next (
      if s.rslotOpen req k = true ∧ s.Acks (off - rslotAperture) size val then
        s.setSlot k (setFld (s.slotWords k).1 0 2 3) (s.slotWords k).2
      else s.refuseAccess req off true true) := by
  have hguard : (!s.bar2Up req || decide (off < rslotAperture) || decide (0x3000000 ≤ off)
      || decide (s.stageNow < stTrot)) = false := by
    simp [hup, hlow, hhigh, show stTrot ≤ s.stageNow from hstage]
  change execRslotAck req off size val s = _
  rw [execRslotAck, if_neg (Bool.eq_false_iff.mp hguard)]
  refine congrArg _ (if_congr ?_ rfl rfl)
  simp only [State.Acks, Bool.and_eq_true, decide_eq_true_eq, and_assoc]

theorem exec_rslotAck_matching (hopen : s.rslotOpen req ((off - rslotAperture) / 64) = true)
    (hack : s.Acks (off - rslotAperture) size val) :
    let k := (off - rslotAperture) / 64
    exec (.rslotAck req off size val) s =
      .next (s.setSlot k (setFld (s.slotWords k).1 0 2 3) (s.slotWords k).2) := by
  rw [exec_rslotAck_aperture hup hlow hhigh hstage, if_pos ⟨hopen, hack⟩]

theorem exec_rslotAck_refused (h : s.rslotOpen req ((off - rslotAperture) / 64) = false
    ∨ ¬ s.Acks (off - rslotAperture) size val) :
    exec (.rslotAck req off size val) s = .next (s.refuseAccess req off true true) := by
  have hno : ¬ (s.rslotOpen req ((off - rslotAperture) / 64) = true ∧ s.Acks (off - rslotAperture) size val) := by
    rwa [not_and_or, Bool.not_eq_true]
  rw [exec_rslotAck_aperture hup hlow hhigh hstage, if_neg hno]

end

/-! ## Host reads that fail (R133) -/

/-- The failing read of a waiting context faults its task. -/
theorem exec_hostReadError_context {s : State} {id x c : Nat} {t : Task} (ht : s.task? id = some t)
    (hr : s.hostReader t = some (0, x, c)) :
    exec (.hostReadError (.task id)) s = .next (s.taskFault id .hostLinkDown 0 c (some x) (s.ctx c x).pc
      (s.fetch c (s.ctx c x).pc) 0 (s.active.hostReq t.stall)) := by
  change execHostReadError (.task id) s = _
  simp only [execHostReadError, State.taskHostDown, ht, hr]

/-- The failing read of a command other than MEM_COPY only logs HOST_LINK_DOWN and completes it FAULT (R530). -/
theorem exec_hostReadError_command {s : State} {sq src : Nat} {c : Cmd} (before : List HostLine)
    (hc : s.hostCommand sq = some (c, src)) (hop : c.op ≠ 0x02) :
    let st := (s.sqStall sq).getD 16
    exec (.hostReadError (.command sq before)) s = .next
      (((s.logFault
        { code := .hostLinkDown, cls := .c, stall := some st, unit := 5, detail := s.active.hostReq st }).completeCmd
          sq c.seq stFault s.nextSeq).postFlushes sq) := by
  change execHostReadError (.command sq before) s = _
  simp only [execHostReadError, State.commandHostDown, hc, if_neg hop]

/-- Settles O49: a Paddock access is split on whether its window is bound, a slot write on whether it is a matching ACK
by a requester that may; the two failed host reads are one case each of who reads. -/
theorem hostWindowCommands : Obligations.HostWindowCommands := by
  unfold Obligations.HostWindowCommands
  intro s req off size d val id sq
  refine ⟨?paddock, ?slot, fun t x c => exec_hostReadError_context, fun c src => exec_hostReadError_command []⟩
  case paddock =>
    intro hup hpos hmax hend hstage hap
    exact ⟨fun hbound => ⟨exec_bar2PaddockAccess_bound hup hpos hmax hend hstage hap hbound (some d),
        exec_bar2PaddockAccess_bound hup hpos hmax hend hstage hap hbound none⟩,
      fun hbound => exec_bar2PaddockAccess_unbound hup hpos hmax hend hstage hap hbound (some d)⟩
  case slot =>
    intro k acks hup hlow hhigh hstage
    exact ⟨exec_rslotAck_matching hup hlow hhigh hstage, exec_rslotAck_refused hup hlow hhigh hstage⟩

end Sys2Proof.Machine
end

