-- ==== Sys2Proof/Proofs/Steps.lean ====
section
/-! PROOFS. What every step keeps: the queue of commands, the card's identity and the canonical form (O1 to O6). -/

namespace Sys2Proof.Machine

open Sys2Proof

/-- Every command completes, and keeps the card, the queue and the canonical form: its own lemma, one per command. -/
theorem exec_keeps (c : Instr) (s : State) : KeepsRes s (exec c s) := by
  have h := Keeps.refl s
  cases c with
  | registerWrite => exact execRegisterWrite_keeps h
  | registerReadCapture => exact execRegisterReadCapture_keeps h
  | configRequest => exact execConfigRequest_keeps h
  | coldPowerOn => exact execColdPowerOn_keeps h
  | supplyDrop => exact execSupplyDrop_keeps h
  | tamper => exact execTamper_keeps h
  | auxDetect => exact execAuxDetect_keeps h
  | v12bUndervoltage => exact execV12bUndervoltage_keeps h
  | perstAssert => exact execPerstAssert_keeps h
  | perstDeassert => exact execPerstDeassert_keeps h
  | walkEntry => exact execWalkEntry_keeps h
  | imageVerify => exact execImageVerify_keeps h
  | mgmtStartTimeout => exact execMgmtStartTimeout_keeps h
  | ctrlStartTimeout => exact execCtrlStartTimeout_keeps h
  | vrNotReady => exact execVrNotReady_keeps h
  | trotEntry => exact execTrotEntry_keeps h
  | bistComplete => exact execBistComplete_keeps h
  | canterEntry => exact execCanterEntry_keeps h
  | restage => exact execRestage_keeps h
  | drvHandshake => exact execDrvHandshake_keeps h
  | f1Flr => exact execF1Flr_keeps h
  | f0Flr => exact execF0Flr_keeps h
  | f1D3hot => exact execF1D3hot_keeps h
  | f1D0Return => exact execF1D0Return_keeps h
  | f0D3hot => exact execF0D3hot_keeps h
  | requesterReset => exact execRequesterReset_keeps h
  | ldBind => exact execLdBind_keeps h
  | memRd => exact execMemRd_keeps h
  | memWr => exact execMemWr_keeps h
  | dcohRequestServe => exact execDcohRequestServe_keeps h
  | birsp => exact execBirsp_keeps h
  | biconflict => exact execBiconflict_keeps h
  | biTimeout => exact execBiTimeout_keeps h
  | ideIntegrityFail => exact execIdeIntegrityFail_keeps h
  | ideKm => exact execIdeKm_keeps h
  | bar2PaddockAccess => exact execBar2PaddockAccess_keeps h
  | rslotAck => exact execRslotAck_keeps h
  | hostReadError => exact execHostReadError_keeps h
  | initiateDynamicCapacityAdd => exact execInitiateDynamicCapacityAdd_keeps h
  | extentOffer => exact execExtentOffer_keeps h
  | initiateDynamicCapacityRelease => exact execInitiateDynamicCapacityRelease_keeps h
  | addDynamicCapacityResponse => exact execAddDynamicCapacityResponse_keeps h
  | releaseDynamicCapacity => exact execReleaseDynamicCapacity_keeps h
  | getDynamicCapacityConfiguration => exact execGetDynamicCapacityConfiguration_keeps h
  | getDynamicCapacityExtentList => exact execGetDynamicCapacityExtentList_keeps h
  | getEventRecords => exact execGetEventRecords_keeps h
  | clearEventRecords => exact execClearEventRecords_keeps h
  | getEventInterruptPolicy => exact execGetEventInterruptPolicy_keeps h
  | setEventInterruptPolicy => exact execSetEventInterruptPolicy_keeps h
  | getTimestamp => exact execGetTimestamp_keeps h
  | setTimestamp => exact execSetTimestamp_keeps h
  | getSupportedLogs => exact execGetSupportedLogs_keeps h
  | getLog => exact execGetLog_keeps h
  | getFwInfo => exact execGetFwInfo_keeps h
  | transferFw => exact execTransferFw_keeps h
  | activateFw => exact execActivateFw_keeps h
  | identifyMemoryDevice => exact execIdentifyMemoryDevice_keeps h
  | getHealthInfo => exact execGetHealthInfo_keeps h
  | getAlertConfiguration => exact execGetAlertConfiguration_keeps h
  | setAlertConfiguration => exact execSetAlertConfiguration_keeps h
  | getPoisonList => exact execGetPoisonList_keeps h
  | injectPoison => exact execInjectPoison_keeps h
  | clearPoison => exact execClearPoison_keeps h
  | scanMedia => exact execScanMedia_keeps h
  | getScanMediaResults => exact execGetScanMediaResults_keeps h
  | sanitize => exact execSanitize_keeps h
  | sanitizeDone => exact execSanitizeDone_keeps h
  | secureErase => exact execSecureErase_keeps h
  | unsupportedMailboxCommand => exact execUnsupportedMailboxCommand_keeps h
  | ownerClaim => exact execOwnerClaim_keeps h
  | keyExchange => exact execKeyExchange_keeps h
  | endSession => exact execEndSession_keeps h
  | heartbeat => exact execHeartbeat_keeps h
  | ownerSessionTimeout => exact execOwnerSessionTimeout_keeps h
  | getMeasurements => exact execGetMeasurements_keeps h
  | spdmRequest => exact execSpdmRequest_keeps h
  | ownerRelease => exact execOwnerRelease_keeps h
  | capAssign => exact execCapAssign_keeps h
  | editTake => exact execEditTake_keeps h
  | editDrop => exact execEditDrop_keeps h
  | stallDiscard => exact execStallDiscard_keeps h
  | stallCommit => exact execStallCommit_keeps h
  | commitComplete => exact execCommitComplete_keeps h
  | stallReset => exact execStallReset_keeps h
  | debugSubmit => exact execDebugSubmit_keeps h
  | sqEnable => exact execSqEnable_keeps h
  | sqDisable => exact execSqDisable_keeps h
  | cqEnable => exact execCqEnable_keeps h
  | cqDisable => exact execCqDisable_keeps h
  | streamQEnable => exact execStreamQEnable_keeps h
  | streamQDisable => exact execStreamQDisable_keeps h
  | ringEnable => exact execRingEnable_keeps h
  | ringDisable => exact execRingDisable_keeps h
  | barrierEnable => exact execBarrierEnable_keeps h
  | barrierDisable => exact execBarrierDisable_keeps h
  | hitchCfgEnable => exact execHitchCfgEnable_keeps h
  | kvPoolEnable => exact execKvPoolEnable_keeps h
  | kvPoolDisable => exact execKvPoolDisable_keeps h
  | hrnEnable => exact execHrnEnable_keeps h
  | bridleEnable => exact execBridleEnable_keeps h
  | reinPortEnable => exact execReinPortEnable_keeps h
  | reinPortDisable => exact execReinPortDisable_keeps h
  | vrEnable => exact execVrEnable_keeps h
  | vrDisable => exact execVrDisable_keeps h
  | fanEnable => exact execFanEnable_keeps h
  | thermEnable => exact execThermEnable_keeps h
  | tackCheckComplete => exact execTackCheckComplete_keeps h
  | tackAudit => exact execTackAudit_keeps h
  | auditComplete => exact execAuditComplete_keeps h
  | dmaSlotAccess => exact execDmaSlotAccess_keeps h
  | cmdmaTakeEffect => exact execCmdmaTakeEffect_keeps h
  | paddockBankAccess => exact execPaddockBankAccess_keeps h
  | tagRetry => exact execTagRetry_keeps h
  | tagWaitRejoin => exact execTagWaitRejoin_keeps h
  | tagWaitReturn => exact execTagWaitReturn_keeps h
  | tagTimeout => exact execTagTimeout_keeps h
  | creditTimeout => exact execCreditTimeout_keeps h
  | ringResvGrant => exact execRingResvGrant_keeps h
  | eccWriteback => exact execEccWriteback_keeps h
  | onchipScrub => exact execOnchipScrub_keeps h
  | dramPatrol => exact execDramPatrol_keeps h
  | scrubLate => exact execScrubLate_keeps h
  | dramPatrolLate => exact execDramPatrolLate_keeps h
  | engineIssue => exact execEngineIssue_keeps h
  | add => exact execAdd_keeps h
  | sub => exact execSub_keeps h
  | and => exact execAnd_keeps h
  | or => exact execOr_keeps h
  | xor => exact execXor_keeps h
  | andn => exact execAndn_keeps h
  | sll => exact execSll_keeps h
  | srl => exact execSrl_keeps h
  | sra => exact execSra_keeps h
  | ror => exact execRor_keeps h
  | mul => exact execMul_keeps h
  | mulhu => exact execMulhu_keeps h
  | mulhs => exact execMulhs_keeps h
  | divu => exact execDivu_keeps h
  | divs => exact execDivs_keeps h
  | remu => exact execRemu_keeps h
  | rems => exact execRems_keeps h
  | min => exact execMin_keeps h
  | max => exact execMax_keeps h
  | minu => exact execMinu_keeps h
  | maxu => exact execMaxu_keeps h
  | clz => exact execClz_keeps h
  | ctz => exact execCtz_keeps h
  | popc => exact execPopc_keeps h
  | sextb => exact execSextb_keeps h
  | sexth => exact execSexth_keeps h
  | sextw => exact execSextw_keeps h
  | zextw => exact execZextw_keeps h
  | addw => exact execAddw_keeps h
  | subw => exact execSubw_keeps h
  | slt => exact execSlt_keeps h
  | sltu => exact execSltu_keeps h
  | addi => exact execAddi_keeps h
  | andi => exact execAndi_keeps h
  | ori => exact execOri_keeps h
  | xori => exact execXori_keeps h
  | shi => exact execShi_keeps h
  | movw => exact execMovw_keeps h
  | cmp => exact execCmp_keeps h
  | cmpi => exact execCmpi_keeps h
  | plog => exact execPlog_keeps h
  | prd => exact execPrd_keeps h
  | pwr => exact execPwr_keeps h
  | br => exact execBr_keeps h
  | bal => exact execBal_keeps h
  | jr => exact execJr_keeps h
  | jalr => exact execJalr_keeps h
  | ld => exact execLd_keeps h
  | st => exact execSt_keeps h
  | ldx => exact execLdx_keeps h
  | stx => exact execStx_keeps h
  | aaddW => exact execAaddW_keeps h
  | aaddWR => exact execAaddWR_keeps h
  | aaddD => exact execAaddD_keeps h
  | aaddDR => exact execAaddDR_keeps h
  | afaddS => exact execAfaddS_keeps h
  | afaddSR => exact execAfaddSR_keeps h
  | afxaddD => exact execAfxaddD_keeps h
  | afxaddS => exact execAfxaddS_keeps h
  | aswapW => exact execAswapW_keeps h
  | aswapD => exact execAswapD_keeps h
  | vget => exact execVget_keeps h
  | vput => exact execVput_keeps h
  | ptst => exact execPtst_keeps h
  | vpmask => exact execVpmask_keeps h
  | crr => exact execCrr_keeps h
  | crw => exact execCrw_keeps h
  | yield => exact execYield_keeps h
  | ctxgo => exact execCtxgo_keeps h
  | ctxend => exact execCtxend_keeps h
  | drain => exact execDrain_keeps h
  | abort => exact execAbort_keeps h
  | tld => exact execTld_keeps h
  | tst => exact execTst_keeps h
  | tset => exact execTset_keeps h
  | tclr => exact execTclr_keeps h
  | tprobe => exact execTprobe_keeps h
  | ringResv => exact execRingResv_keeps h
  | ringFill => exact execRingFill_keeps h
  | ringPush => exact execRingPush_keeps h
  | ringPop => exact execRingPop_keeps h
  | ringPeek => exact execRingPeek_keeps h
  | ringState => exact execRingState_keeps h
  | hrd => exact execHrd_keeps h
  | hwr => exact execHwr_keeps h
  | hadd => exact execHadd_keeps h
  | haddn => exact execHaddn_keeps h
  | hwaitGe => exact execHwaitGe_keeps h
  | hwaitEq => exact execHwaitEq_keeps h
  | hwaitNe => exact execHwaitNe_keeps h
  | hmon => exact execHmon_keeps h
  | hmwait => exact execHmwait_keeps h
  | hmclr => exact execHmclr_keeps h
  | hitchReleaseSeen => exact execHitchReleaseSeen_keeps h
  | contextWake => exact execContextWake_keeps h
  | mxLda => exact execMxLda_keeps h
  | mxLdb => exact execMxLdb_keeps h
  | mxLdc => exact execMxLdc_keeps h
  | mxMma => exact execMxMma_keeps h
  | mxDrain => exact execMxDrain_keeps h
  | mxZero => exact execMxZero_keeps h
  | vadd => exact execVadd_keeps h
  | vsub => exact execVsub_keeps h
  | vmul => exact execVmul_keeps h
  | vmin => exact execVmin_keeps h
  | vmax => exact execVmax_keeps h
  | vand => exact execVand_keeps h
  | vor => exact execVor_keeps h
  | vxor => exact execVxor_keeps h
  | vsll => exact execVsll_keeps h
  | vsrl => exact execVsrl_keeps h
  | vsra => exact execVsra_keeps h
  | vabs => exact execVabs_keeps h
  | vneg => exact execVneg_keeps h
  | vmov => exact execVmov_keeps h
  | vsplat => exact execVsplat_keeps h
  | viota => exact execViota_keeps h
  | vcmpeq => exact execVcmpeq_keeps h
  | vcmplt => exact execVcmplt_keeps h
  | vcmple => exact execVcmple_keeps h
  | vsel => exact execVsel_keeps h
  | vfma => exact execVfma_keeps h
  | vfms => exact execVfms_keeps h
  | vfnma => exact execVfnma_keeps h
  | vrsum => exact execVrsum_keeps h
  | vrmax => exact execVrmax_keeps h
  | vrmin => exact execVrmin_keeps h
  | vexp2 => exact execVexp2_keeps h
  | vlog2 => exact execVlog2_keeps h
  | vrcp => exact execVrcp_keeps h
  | vrsqrt => exact execVrsqrt_keeps h
  | vsqrt => exact execVsqrt_keeps h
  | vld => exact execVld_keeps h
  | vldC => exact execVldC_keeps h
  | vldP => exact execVldP_keeps h
  | vst => exact execVst_keeps h
  | vstF => exact execVstF_keeps h
  | vcvt => exact execVcvt_keeps h
  | vmxq => exact execVmxq_keeps h
  | vslide => exact execVslide_keeps h
  | vbexp => exact execVbexp_keeps h
  | vpscore => exact execVpscore_keeps h
  | vaaddW => exact execVaaddW_keeps h
  | vaaddWR => exact execVaaddWR_keeps h
  | vaaddD => exact execVaaddD_keeps h
  | vaaddDR => exact execVaaddDR_keeps h
  | vfxadd => exact execVfxadd_keeps h
  | vfxaddR => exact execVfxaddR_keeps h
  | carouselStep => exact execCarouselStep_keeps h
  | barArrive => exact execBarArrive_keeps h
  | barWait => exact execBarWait_keeps h
  | barSync => exact execBarSync_keeps h
  | barrierWake => exact execBarrierWake_keeps h
  | streamGo => exact execStreamGo_keeps h
  | streamCancel => exact execStreamCancel_keeps h
  | mset => exact execMset_keeps h
  | mcopy => exact execMcopy_keeps h
  | kvWalk => exact execKvWalk_keeps h
  | kvAppend => exact execKvAppend_keeps h
  | streamRun => exact execStreamRun_keeps h
  | blockListEntryRead => exact execBlockListEntryRead_keeps h
  | transferIssue => exact execTransferIssue_keeps h
  | dmaTransferComplete => exact execDmaTransferComplete_keeps h
  | prefetchCommit => exact execPrefetchCommit_keeps h
  | cpFetch => exact execCpFetch_keeps h
  | commandAccept => exact execCommandAccept_keeps h
  | sqDoorbell => exact execSqDoorbell_keeps h
  | cqHeadWrite => exact execCqHeadWrite_keeps h
  | sqFlush => exact execSqFlush_keeps h
  | cqIrqTimer => exact execCqIrqTimer_keeps h
  | nop => exact execNop_keeps h
  | memFill => exact execMemFill_keeps h
  | memCopy => exact execMemCopy_keeps h
  | hrnLoad => exact execHrnLoad_keeps h
  | hrnUnload => exact execHrnUnload_keeps h
  | taskRun => exact execTaskRun_keeps h
  | taskStart => exact execTaskStart_keeps h
  | taskEnd => exact execTaskEnd_keeps h
  | taskPreempt => exact execTaskPreempt_keeps h
  | taskSave => exact execTaskSave_keeps h
  | taskResume => exact execTaskResume_keeps h
  | taskKill => exact execTaskKill_keeps h
  | taskTimeout => exact execTaskTimeout_keeps h
  | kvSeqOpen => exact execKvSeqOpen_keeps h
  | kvSeqClose => exact execKvSeqClose_keeps h
  | kvSeqSet => exact execKvSeqSet_keeps h
  | kvCommit => exact execKvCommit_keeps h
  | kvCommitProceed => exact execKvCommitProceed_keeps h
  | kvBatch => exact execKvBatch_keeps h
  | kvDrop => exact execKvDrop_keeps h
  | kvSeqRead => exact execKvSeqRead_keeps h
  | bridleGrant => exact execBridleGrant_keeps h
  | bridleHoldLimit => exact execBridleHoldLimit_keeps h
  | ldQosInterval => exact execLdQosInterval_keeps h
  | bridleCounterClear => exact execBridleCounterClear_keeps h
  | dataFlit => exact execDataFlit_keeps h
  | idleFlit => exact execIdleFlit_keeps h
  | nak => exact execNak_keeps h
  | replayTimeout => exact execReplayTimeout_keeps h
  | init => exact execInit_keeps h
  | initResend => exact execInitResend_keeps h
  | reinTrainTimeout => exact execReinTrainTimeout_keeps h
  | credSync => exact execCredSync_keeps h
  | syncAck => exact execSyncAck_keeps h
  | credSyncResend => exact execCredSyncResend_keeps h
  | down => exact execDown_keeps h
  | credRebuild => exact execCredRebuild_keeps h
  | retrain => exact execRetrain_keeps h
  | reinDownLimit => exact execReinDownLimit_keeps h
  | reinLinkDown => exact execReinLinkDown_keeps h
  | packetForward => exact execPacketForward_keeps h
  | rfill => exact execRfill_keeps h
  | remoteHwr => exact execRemoteHwr_keeps h
  | remoteHadd => exact execRemoteHadd_keeps h
  | rrel => exact execRrel_keeps h
  | rd => exact execRd_keeps h
  | rresv => exact execRresv_keeps h
  | rdata => exact execRdata_keeps h
  | rgnt => exact execRgnt_keeps h
  | wack => exact execWack_keeps h
  | rresvRetry => exact execRresvRetry_keeps h
  | reinTimeout => exact execReinTimeout_keeps h
  | computeFence => exact execComputeFence_keeps h
  | taskAbort => exact execTaskAbort_keeps h
  | classAFault => exact execClassAFault_keeps h
  | stallFatal => exact execStallFatal_keeps h
  | cpReset => exact execCpReset_keeps h
  | cpLivenessTimeout => exact execCpLivenessTimeout_keeps h
  | ostlerSelfReset => exact execOstlerSelfReset_keeps h
  | coreReset => exact execCoreReset_keeps h
  | pwmPeriod => exact execPwmPeriod_keeps h
  | overcurrentTrip => exact execOvercurrentTrip_keeps h
  | hardShort => exact execHardShort_keeps h
  | powerGoodFault => exact execPowerGoodFault_keeps h
  | powerGoodRetry => exact execPowerGoodRetry_keeps h
  | remoteSenseLost => exact execRemoteSenseLost_keeps h
  | adcFrozen => exact execAdcFrozen_keeps h
  | opChange => exact execOpChange_keeps h
  | adaptTick => exact execAdaptTick_keeps h
  | droopAlarm => exact execDroopAlarm_keeps h
  | clockRefCheck => exact execClockRefCheck_keeps h
  | refclkLoss => exact execRefclkLoss_keeps h
  | vrefCheck => exact execVrefCheck_keeps h
  | thermalTick => exact execThermalTick_keeps h
  | tempSensorFrozen => exact execTempSensorFrozen_keeps h
  | thermalTrip => exact execThermalTrip_keeps h
  | powerLimitTick => exact execPowerLimitTick_keeps h
  | fanStart => exact execFanStart_keeps h
  | fanStartCheck => exact execFanStartCheck_keeps h
  | fanControlTick => exact execFanControlTick_keeps h
  | tachLost => exact execTachLost_keeps h
  | setEndpointId => exact execSetEndpointId_keeps h
  | getEndpointId => exact execGetEndpointId_keeps h
  | getEndpointUuid => exact execGetEndpointUuid_keeps h
  | getMctpVersionSupport => exact execGetMctpVersionSupport_keeps h
  | getMessageTypeSupport => exact execGetMessageTypeSupport_keeps h
  | getVendorDefinedMessageSupport => exact execGetVendorDefinedMessageSupport_keeps h
  | getTid => exact execGetTid_keeps h
  | setTid => exact execSetTid_keeps h
  | getPldmVersion => exact execGetPldmVersion_keeps h
  | getPldmTypes => exact execGetPldmTypes_keeps h
  | getPldmCommands => exact execGetPldmCommands_keeps h
  | getPdrRepositoryInfo => exact execGetPdrRepositoryInfo_keeps h
  | getPdr => exact execGetPdr_keeps h
  | getSensorReading => exact execGetSensorReading_keeps h
  | getStateSensorReadings => exact execGetStateSensorReadings_keeps h
  | setEventReceiver => exact execSetEventReceiver_keeps h
  | getEventReceiver => exact execGetEventReceiver_keeps h
  | platformEventMessage => exact execPlatformEventMessage_keeps h
  | queryDeviceIdentifiers => exact execQueryDeviceIdentifiers_keeps h
  | getFirmwareParameters => exact execGetFirmwareParameters_keeps h
  | requestUpdate => exact execRequestUpdate_keeps h
  | passComponentTable => exact execPassComponentTable_keeps h
  | updateComponent => exact execUpdateComponent_keeps h
  | requestFirmwareData => exact execRequestFirmwareData_keeps h
  | transferComplete => exact execTransferComplete_keeps h
  | verifyComplete => exact execVerifyComplete_keeps h
  | applyComplete => exact execApplyComplete_keeps h
  | activateFirmware => exact execActivateFirmware_keeps h
  | getStatus => exact execGetStatus_keeps h
  | cancelUpdateComponent => exact execCancelUpdateComponent_keeps h
  | cancelUpdate => exact execCancelUpdate_keeps h
  | updateTimeout => exact execUpdateTimeout_keeps h
  | identify => exact execIdentify_keeps h
  | getLdInfo => exact execGetLdInfo_keeps h
  | getMultiHeadedInfo => exact execGetMultiHeadedInfo_keeps h
  | getLdAllocations => exact execGetLdAllocations_keeps h
  | setLdAllocations => exact execSetLdAllocations_keeps h
  | getQosControl => exact execGetQosControl_keeps h
  | setQosControl => exact execSetQosControl_keeps h
  | getQosStatus => exact execGetQosStatus_keeps h
  | getQosAllocatedBw => exact execGetQosAllocatedBw_keeps h
  | setQosAllocatedBw => exact execSetQosAllocatedBw_keeps h
  | getQosBwLimit => exact execGetQosBwLimit_keeps h
  | setQosBwLimit => exact execSetQosBwLimit_keeps h
  | getDcdInfo => exact execGetDcdInfo_keeps h
  | getHostDcRegionConfiguration => exact execGetHostDcRegionConfiguration_keeps h
  | getDcRegionExtentLists => exact execGetDcRegionExtentLists_keeps h
  | traceStart => exact execTraceStart_keeps h
  | dbgSessionOpen => exact execDbgSessionOpen_keeps h
  | dbgRead => exact execDbgRead_keeps h
  | dbgWrite => exact execDbgWrite_keeps h
  | dbgTagRead => exact execDbgTagRead_keeps h
  | dbgAccessTimeout => exact execDbgAccessTimeout_keeps h
  | dbgHalt => exact execDbgHalt_keeps h
  | dbgStep => exact execDbgStep_keeps h
  | hitchForce => exact execHitchForce_keeps h
  | hitchTimeout => exact execHitchTimeout_keeps h
  | imageReportsRunning => exact execImageReportsRunning_keeps h
  | headLinkL0 => exact execHeadLinkL0_keeps h
  | reinPortL0 => exact execReinPortL0_keeps h
  | vddSocPowerGoodLoss => exact execVddSocPowerGoodLoss_keeps h
  | powerGoodAssert => exact execPowerGoodAssert_keeps h
  | opChangeComplete => exact execOpChangeComplete_keeps h
  | internalResetEnd => exact execInternalResetEnd_keeps h
  | hitchBankAccess => exact execHitchBankAccess_keeps h

/-- What a command's answer keeps. -/
theorem keeps_of_exec {c : Instr} {s t : State} (h : exec c s = .next t) : Keeps s t := by
  obtain ⟨u, hu, hk⟩ := exec_keeps c s
  obtain rfl : u = t := Host.Outcome.next.inj (hu.symm.trans h)
  exact hk

theorem step_of_pending_cons {s : State} {c : Instr} {rest : List Instr} (h : s.pending = c :: rest) :
    step s = exec c { s with pending := rest } := by
  rw [step, h]

theorem step_of_pending_nil {s : State} (h : s.pending = []) : step s = .next { s with now := s.now + 1 } := by
  rw [step, h]

/-- The canonical form is a matter of registers, memories and their marks: the queue and the clock have no part in it. -/
theorem State.inv_of_waiting {s : State} (h : s.Inv) (p : List Instr) : State.Inv { s with pending := p } := h

theorem State.inv_of_clock {s : State} (h : s.Inv) (n : Nat) : State.Inv { s with now := n } := h

/-- Settles O1: it is how `step` reads a queue that holds a command. -/
theorem stepRunsFront : Obligations.StepRunsFront := by
  unfold Obligations.StepRunsFront
  exact fun c rest s => step_of_pending_cons rfl

/-- Settles O2: it is how `step` reads an empty queue. -/
theorem stepIdles : Obligations.StepIdles := by
  unfold Obligations.StepIdles
  exact fun s h => step_of_pending_nil h

/-- Settles O3: the state after reset is that of a cold power-on. -/
theorem resetCanonical : Obligations.ResetCanonical := by
  unfold Obligations.ResetCanonical
  exact State.cold_inv

/-- Settles O4: a waiting command keeps the canonical form by its own lemma, and idling changes only the clock. -/
theorem stepKeepsCanonical : Obligations.StepKeepsCanonical := by
  unfold Obligations.StepKeepsCanonical
  intro s t hinv hstep
  cases hp : s.pending with
  | nil =>
    obtain rfl : _ = t := Host.Outcome.next.inj ((step_of_pending_nil hp).symm.trans hstep)
    exact State.inv_of_clock hinv _
  | cons c rest =>
    rw [step_of_pending_cons hp] at hstep
    exact (keeps_of_exec hstep).inv (State.inv_of_waiting hinv rest)

/-- Settles O5. -/
theorem execKeepsQueue : Obligations.ExecKeepsQueue := by
  unfold Obligations.ExecKeepsQueue
  intro c s t h
  exact ⟨(keeps_of_exec h).pending, (keeps_of_exec h).card⟩

/-- Settles O6. -/
theorem everyCommandCompletes : Obligations.EveryCommandCompletes := by
  unfold Obligations.EveryCommandCompletes Completes
  intro c s
  obtain ⟨t, ht, -⟩ := exec_keeps c s
  exact ⟨t, ht⟩

end Sys2Proof.Machine
end

