-- ==== Sys2Proof/Proofs/ActiveCopy.lean ====
section
/-! PROOFS. What a claim leaves of the Owner key (O36) and what a commit makes of the active copy (O44). -/

namespace Sys2Proof.Machine

open Sys2Proof

/-! ## The Owner key (R201) -/

@[simp] theorem State.ownerKey_spdmError (s : State) (req c : Nat) : (s.spdmError req c).gb.ownerKey = s.gb.ownerKey := rfl

@[simp] theorem State.ownerKey_touch (s : State) (sid : Nat) : (s.touch sid).gb.ownerKey = s.gb.ownerKey := rfl

/-- A claim of a claimed card touches the session at most, and answers with an error. -/
theorem execOwnerClaim_claimed {s : State} {req sid k : Nat} (hk : s.gb.ownerKey = some k) :
    execOwnerClaim req sid s = .next (
      if !s.spdmUp req then s
      else match s.session? req sid with
        | none => s.spdmError req spUnexpected
        | some _ => (s.touch sid).spdmError req spUnexpected) := by
  unfold execOwnerClaim
  cases s.session? req sid <;> simp [hk]

/-- Settles O36: none of the answers to a claim of a claimed card changes the key. -/
theorem claimedStaysClaimed : Obligations.ClaimedStaysClaimed := by
  unfold Obligations.ClaimedStaysClaimed
  intro s t req sid k hk h
  change execOwnerClaim req sid s = _ at h
  rw [execOwnerClaim_claimed hk] at h
  obtain rfl := Host.Outcome.next.inj h
  split
  · exact hk
  · cases s.session? req sid with
    | none => rw [State.ownerKey_spdmError, hk]
    | some e => rw [State.ownerKey_spdmError, State.ownerKey_touch, hk]

/-! ## Tables written entry by entry -/

/-- In a table with rising keys, the first entry is the one that its key finds. -/
theorem Tbl.find?_of_rising_tail {α : Type} {b k : Nat} {v : α} {t : List (Nat × α)}
    (h : Tbl.risingFrom b ((k, v) :: t) = true) : Tbl.find? k t = none := by
  simp only [Tbl.risingFrom, Bool.and_eq_true] at h
  exact Tbl.find?_of_rising h.2 (Nat.lt_succ_self k)

/-- Writing the entries of a rising table, each at its key plus a base, gives each of these keys its entry's value and
leaves it where the table has none. -/
theorem Tbl.get_foldl_put {α β : Type} [DecidableEq α] {d : α} {base j : Nat} (f : Nat → β → α) (l : List (Nat × β)) :
    ∀ {b : Nat} {t : List (Nat × α)}, Tbl.risingFrom 0 t = true → Tbl.risingFrom b l = true →
      Tbl.get d (l.foldl (fun t e => Tbl.put d t (base + e.1) (f e.1 e.2)) t) (base + j) =
        (Tbl.find? j l).elim (Tbl.get d t (base + j)) (f j) := by
  induction l with
  | nil => intro b t _ _; rfl
  | cons e l ih =>
    intro b t ht hl
    obtain ⟨k, v⟩ := e
    have htail : Tbl.risingFrom (k + 1) l = true := by
      simp only [Tbl.risingFrom, Bool.and_eq_true] at hl
      exact hl.2
    have hput : Tbl.risingFrom 0 (Tbl.put d t (base + k) (f k v)) = true := Tbl.risingFrom_put ht (Nat.zero_le _)
    rw [List.foldl_cons, ih hput htail]
    by_cases hk : k = j
    · subst hk
      rw [Tbl.find?_of_rising_tail hl]
      simp [Tbl.find?, Tbl.get_put_self ht]
    · have hne : base + j ≠ base + k := by omega
      simp [Tbl.find?, hk, Tbl.get_put_ne hne]

/-- A key that a filter drops reads the default. -/
theorem Tbl.get_keep_dropped {α : Type} {d : α} {p : Nat → Bool} {t : List (Nat × α)} {k : Nat} (hk : p k = false) :
    Tbl.get d (Tbl.keep p t) k = d := by
  have hnone : Tbl.find? k (Tbl.keep p t) = none := by
    induction t with
    | nil => rfl
    | cons e t ih =>
      obtain ⟨j, v⟩ := e
      unfold Tbl.keep at ih ⊢
      rw [List.filter_cons]
      split
      · next hj =>
        have hne : j ≠ k := by rintro rfl; simp [hk] at hj
        simp only [Tbl.find?, hne, if_false]
        exact ih
      · exact ih
  rw [Tbl.get, hnone]

/-! ## The active copy (R189, R196) -/

/-- The word that a commit puts in the active copy at an offset: word 0 of a stall without KEY_RENEW. -/
def withoutRenew (o : Nat) (v : Word) : Word := if o % 0x100 = 0 then v &&& ~~~2 else v

/-- The active copy lies elsewhere than the staged registers, so a write of those leaves it. -/
theorem State.active_setF_stagedCfg (s : State) {st o : Nat} (ho : o < 0xA0) (hst : st < 16) (i lo n v : Nat) (hi : i < 16) :
    (s.setF .stagedCfg i lo n v).active st o = s.active st o := by
  unfold State.active State.activeWord State.setF State.setReg
  refine Tbl.get_put_ne ?_
  change 0x102000 + 0x100 * st + o ≠ 0x101000 + 0x100 * i
  omega

theorem State.active_foldl_stagedCfg {st o : Nat} (ho : o < 0xA0) (hst : st < 16) (l : List Nat) :
    ∀ (s : State), (∀ i ∈ l, i < 16) →
      (l.foldl (fun s i => s.setF .stagedCfg i 1 1 0) s).active st o = s.active st o := by
  induction l with
  | nil => intro s _; rfl
  | cons i l ih =>
    intro s hl
    rw [List.foldl_cons, ih _ fun j hj => hl j (List.mem_cons_of_mem _ hj),
      State.active_setF_stagedCfg s ho hst i 1 1 0 (hl i List.mem_cons_self)]

/-- The registers with a copy's words for the active copy. -/
def State.regsWithCopy (s : State) (next : List (Nat × Word)) : List (Nat × Word) :=
  next.foldl (fun r e => Tbl.put 0 r (0x102000 + e.1) (withoutRenew e.1 e.2)) (Tbl.keep (fun k => !activeKey k) s.regs)

theorem State.applyCopy_eq (s : State) (next : List (Nat × Word)) : s.applyCopy next =
    allStalls.foldl (fun s i => s.setF .stagedCfg i 1 1 0) { s with regs := s.regsWithCopy next } := rfl

/-- After a copy is applied the active word is the copy's, its first without KEY_RENEW. -/
theorem State.active_applyCopy {s : State} {next : List (Nat × Word)} {st o : Nat} (hs : s.Inv)
    (hnext : Tbl.risingFrom 0 next = true) (hst : st < 16) (ho : o < 0xA0) :
    (s.applyCopy next).active st o = withoutRenew (0x100 * st + o) (Tbl.get 0 next (0x100 * st + o)) := by
  obtain ⟨-, hregs, -⟩ := hs
  have hkey : (fun k => !activeKey k) (0x102000 + (0x100 * st + o)) = false := by
    simp only [activeKey]
    have hmod : (0x102000 + (0x100 * st + o)) % 0x100 = o := by omega
    have hne : o ≠ 0xA0 := by omega
    have hlow : 0x102000 + (0x100 * st + o) < 0x103000 := by omega
    simp [hmod, hne, hlow]
  rw [State.applyCopy_eq, State.active_foldl_stagedCfg ho hst allStalls _ fun i hi => List.mem_range.mp hi]
  change Tbl.get 0 (s.regsWithCopy next) (0x102000 + 0x100 * st + o) = _
  rw [State.regsWithCopy, Nat.add_assoc, Tbl.get_foldl_put withoutRenew next (Tbl.risingFrom_keep _ hregs) hnext,
    Tbl.get_keep_dropped hkey]
  unfold Tbl.get
  cases Tbl.find? (0x100 * st + o) next with
  | none => simp [withoutRenew]
  | some v => rfl

/-- Settles O44: of a stall's words only word 0 lies at a multiple of 0x100. -/
theorem activeTakesStaged : Obligations.ActiveTakesStaged := by
  unfold Obligations.ActiveTakesStaged
  intro s next st o hs hnext _ hst ho
  rw [State.active_applyCopy hs hnext hst ho, withoutRenew]
  by_cases h0 : o = 0
  · subst h0
    rw [if_pos (by omega), if_pos rfl, Nat.add_zero]
  · rw [if_neg (by omega), if_neg h0]

end Sys2Proof.Machine
end

