-- ==== Sys2Proof/Proofs/StartUp.lean ====
section
/-! PROOFS. The conditions of Canter (O56). -/

namespace Sys2Proof.Machine

open Sys2Proof

/-- What CANTER_ENTRY finds when it changes anything (R54). -/
theorem execCanterEntry_cases {s t : State} (h : execCanterEntry s = .next t) :
    t = s ∨ s.stageNow = 2 ∧ s.mgmtUp = true ∧ s.f .stageStatus 0 7 1 = 1 ∧ s.stage.bistDone = true
      ∧ s.noneAccepted = false ∧ s.stage.fences = [] ∧ s.corePg = true := by
  unfold execCanterEntry at h
  obtain rfl := Host.Outcome.next.inj h
  extract_lets ready
  split
  · exact .inl rfl
  · next hguard =>
    simp only [Bool.or_eq_true, decide_eq_true_eq, Bool.not_eq_true', not_or, ne_eq, not_not, Bool.not_eq_false,
      Bool.not_eq_true, List.isEmpty_iff] at hguard
    obtain ⟨⟨⟨⟨⟨-, hstage⟩, hready⟩, haccepted⟩, hfences⟩, hpg⟩ := hguard
    simp only [State.imagesReady, Bool.and_eq_true, beq_iff_eq] at hready
    obtain ⟨⟨⟨⟨⟨hmgmt, hctrl⟩, -⟩, -⟩, hbist⟩, -⟩ := hready
    exact .inr ⟨hstage, hmgmt, hctrl, hbist, haccepted, hfences, hpg⟩

/-- Settles O56: a CANTER_ENTRY that reaches Canter has changed the Stage, so it found its conditions. -/
theorem canterNeedsAll : Obligations.CanterNeedsAll := by
  unfold Obligations.CanterNeedsAll
  intro s t h hbefore hafter
  change execCanterEntry s = _ at h
  obtain rfl | ⟨hstage, hmgmt, hctrl, hbist, haccepted, hfences, hpg⟩ := execCanterEntry_cases h
  · exact absurd hafter hbefore
  · exact ⟨hfences, haccepted, hpg, hmgmt, hctrl, hstage, hbist⟩

end Sys2Proof.Machine
end

