-- ==== Sys2Proof/Proofs/ReinLink.lean ====
section
/-! PROOFS. An acknowledgement of a Rein port (O51). -/

namespace Sys2Proof.Machine

open Sys2Proof

/-- An acknowledgement that names a flit of the replay buffer frees it up to there (R646). -/
theorem State.takeAck_named {s : State} {p ack : Nat} {a b : List (Nat × Nat × Nat × List Nat)}
    {e : Nat × Nat × Nat × List Nat}
    (hq : (s.port p).replay = a ++ e :: b) (he : e.1 = ack) (ha : ∀ x ∈ a, x.1 ≠ ack) :
    s.takeAck p ack = s.setPort p { s.port p with replay := b, ackAt := s.now, tries := 0 } := by
  have hany : ((s.port p).replay.any fun x => x.1 == ack) = true := by simp [hq, he]
  have hrest : ((s.port p).replay.dropWhile fun x => x.1 != ack) = e :: b := by
    rw [hq, List.dropWhile_append_of_pos (by simpa using ha), List.dropWhile_cons_of_neg (by simp [he])]
  simp only [State.takeAck, if_pos hany, hrest, List.tail_cons]

/-- One that names none changes nothing. -/
theorem State.takeAck_unnamed {s : State} {p ack : Nat} (h : ∀ x ∈ (s.port p).replay, x.1 ≠ ack) :
    s.takeAck p ack = s := by
  have hany : ((s.port p).replay.any fun x => x.1 == ack) = false := by simpa using h
  simp only [State.takeAck, hany, Bool.false_eq_true, if_false]

/-- Settles O51. -/
theorem ackFreesReplay : Obligations.AckFreesReplay := by
  unfold Obligations.AckFreesReplay
  exact fun s p ack => ⟨fun a e b hq he ha => State.takeAck_named hq he ha, State.takeAck_unnamed⟩

end Sys2Proof.Machine
end

