-- ==== Sys2Proof/Proofs/ScalarControl.lean ====
section
/-! PROOFS. Control registers, contexts and waits that end (O11), and the checks before an instruction acts (O12). -/

namespace Sys2Proof.Machine

open Sys2Proof

/-! ## Control registers and contexts -/

section
variable {i : Issue} {s : State} {t : Task}

/-- CRW by its register: c4, c5 and c6 at once, c7 at its stamp (R350, R372). -/
theorem exec_crw_writable (h : Issues i .crw s t) (hp : ((s.ctx i.core i.ctx).rg (iRs1 i.word)).2 = false) :
    let n := ib i.word 0 4
    let a := ((s.ctx i.core i.ctx).rg (iRs1 i.word)).1
    (n = 4 → exec (.crw i) s = .next (retires i s fun k => { k with c4 := a }))
    ∧ (n = 5 → exec (.crw i) s = .next (retires i s fun k => { k with c5 := a }))
    ∧ (n = 6 → exec (.crw i) s = .next (retires i s fun k => { k with c6 := a }))
    ∧ (n = 7 → exec (.crw i) s = .next ((issueX i s t).next
        ((issueTook i s).updCore i.core fun k => { k with cmdma := some (fld a 0 2, fld a 16 16) }) id)) := by
  have hp' : ¬ ((issueX i s t).a.2 = true) := Bool.eq_false_iff.mp hp
  intro n a
  refine ⟨fun hn => ?_, fun hn => ?_, fun hn => ?_, fun hn => ?_⟩ <;>
  · refine exec_of_issueOf rfl ?_ h
    have hn' : ib (issueX i s t).w 0 4 = _ := hn
    simp only [hn', hp']
    rfl

theorem exec_crw_reserved (h : Issues i .crw s t) (hn : ¬(4 ≤ ib i.word 0 4 ∧ ib i.word 0 4 ≤ 7)) :
    exec (.crw i) s = .next ((issueX i s t).fault (issueTook i s) .cregAccess) := by
  refine exec_of_issueOf rfl (if_pos ?_) h
  have hnone : ib i.word 0 4 ≠ 4 ∧ ib i.word 0 4 ≠ 5 ∧ ib i.word 0 4 ≠ 6 ∧ ib i.word 0 4 ≠ 7 := by omega
  simpa [issueX, and_assoc] using hnone

theorem exec_cmdmaTakeEffect_pending {c p b : Nat} (h : (s.core c).cmdma = some (p, b)) :
    exec (.cmdmaTakeEffect c) s =
      .next (((s.setF .cmCfg c 2 2 p).setF .cmCfg c 16 16 b).updCore c fun k => { k with cmdma := none }) := by
  change execCmdmaTakeEffect c s = _
  rw [execCmdmaTakeEffect, h]

/-- YIELD at one of the harness's yield points parks the context only while the task is asked to park (R384). -/
theorem exec_yield_inRange (h : Issues i .yield s t) (hn : ib i.word 0 12 < (issueTook i s).hdr t.entry 0x12 2) :
    exec (.yield i) s = .next (if t.phase = .parking
      then retires i s fun k => { k with wait := .parked (ib i.word 0 12), ret := none } else retires i s id) :=
  exec_of_issueOf rfl (if_neg (Nat.not_le.mpr hn)) h

/-- CTXGO of another context that has not started (R373). -/
theorem exec_ctxgo_fresh (h : Issues i .ctxgo s t) (hp : ((s.ctx i.core i.ctx).rg (iRs1 i.word)).2 = false)
    (hother : ib i.word 17 3 ≠ i.ctx) (hidle : ((issueTook i s).ctx i.core (ib i.word 17 3)).started = false)
    (hpc : ((s.ctx i.core i.ctx).rg (iRs1 i.word)).1.toNat < 2 ^ 14) :
    let n := ib i.word 17 3
    let u := issueTook i s
    let k := s.ctx i.core i.ctx
    exec (.ctxgo i) s = .next ((issueX i s t).next (u.setCtx i.core n
      ({ Ctx.idle with started := true, pc := (k.rg (iRs1 i.word)).1.toNat, mon := (u.ctx i.core n).mon
                       joined := (u.ctx i.core n).joined }.wg 1 (k.rg (iRs2 i.word)).1 (k.rg (iRs2 i.word)).2)) id) := by
  refine exec_of_issueOf rfl ?_ h
  have hp' : ¬ ((issueX i s t).a.2 = true) := Bool.eq_false_iff.mp hp
  have hbusy : ¬ (ib (issueX i s t).w 17 3 = (issueX i s t).ctx
      ∨ ((issueTook i s).ctx (issueX i s t).core (ib (issueX i s t).w 17 3)).started = true) :=
    not_or.mpr ⟨hother, Bool.eq_false_iff.mp hidle⟩
  have hrange : ¬ ((issueX i s t).a.1.toNat / 2 ^ 14 ≠ 0) := not_not_intro (Nat.div_eq_of_lt hpc)
  dsimp only
  rw [if_neg hp', if_neg (by simpa using hbusy), if_neg hrange]
  rfl

end

/-! ## Waits that end (R346) -/

/-- A waiting context of a task that runs completes as its wait directs. -/
theorem exec_contextWake_live {c x : Nat} {s : State} {t : Task} (d : Word) (p : Bool) (ht : s.taskOn c = some t)
    (hlive : t.phase.live = true) (hstarted : (s.ctx c x).started = true) :
    (∀ rd v q, (s.ctx c x).wait = .result rd → (s.ctx c x).ret = some (v, q) →
        exec (.contextWake c x d p) s = .next (s.complete c x rd v q))
    ∧ (∀ rd n sx, (s.ctx c x).wait = .host rd n sx → s.present (s.active.hostReq t.stall) = true →
        exec (.contextWake c x d p) s = .next (s.complete c x (some rd) (extend n sx d) p))
    ∧ (∀ m, (s.ctx c x).wait = .drain m → s.drained c x m = true →
        exec (.contextWake c x d p) s = .next (s.complete c x none 0 false)) := by
  refine ⟨fun rd v q hw hr => ?_, fun rd n sx hw hpres => ?_, fun m hw hdrained => ?_⟩
  · change execContextWake c x d p s = _
    simp [execContextWake, ht, hlive, hstarted, hw, hr]
  · change execContextWake c x d p s = _
    simp [execContextWake, ht, hlive, hstarted, hw, hpres]
  · change execContextWake c x d p s = _
    simp [execContextWake, ht, hlive, hstarted, hw, hdrained]

/-- Settles O11: each instruction is its effect on the issue, CRW split by its register; the wake-ups by what the context
waits for. -/
theorem contextsAndControlRegisters : Obligations.ContextsAndControlRegisters := by
  unfold Obligations.ContextsAndControlRegisters
  refine ⟨fun i s t => ⟨?crr, ?reserved, ?crw, ?takeEffect⟩, fun i s t => ⟨?yield, ?ctxgo, ?ctxend, ?drain, ?abort⟩, ?wake⟩
  case crr => exact exec_of_issueOf rfl rfl
  case reserved => exact exec_crw_reserved
  case crw => exact exec_crw_writable
  case takeEffect => exact fun c p b => exec_cmdmaTakeEffect_pending
  case yield => exact exec_yield_inRange
  case ctxgo => exact exec_ctxgo_fresh
  case ctxend => exact exec_of_issueOf rfl rfl
  case drain => exact exec_of_issueOf rfl rfl
  case abort => exact exec_of_issueOf rfl rfl
  case wake => exact fun c x d p s t => exec_contextWake_live d p

/-! ## An issue that ends early (R356, R357, R359) -/

section
variable {i : Issue} {o : Op} {s : State} {t : Task}

/-- A ready context of a running task on a core that may issue. -/
abbrev MayIssue (i : Issue) (s : State) (t : Task) : Prop :=
  s.taskOn i.core = some t ∧ t.phase.live = true ∧ i.core < 32 ∧ i.ctx < 8 ∧ (s.ctx i.core i.ctx).started = true ∧
    (s.ctx i.core i.ctx).wait = .ready ∧ s.mayIssue i.core = true

/-- Its words lie in range and are those given. -/
abbrev Fetches (i : Issue) (s : State) (t : Task) : Prop :=
  (s.ctx i.core i.ctx).pc + wordsOf i.word ≤ s.hdr t.entry 0x0A 2 ∧ s.fetch i.core (s.ctx i.core i.ctx).pc = i.word

/-- What an issue comes to at a context that may issue. -/
theorem issueOf_mayIssue (run : X → State → State) (h : MayIssue i s t) : issueOf i o run s =
    if s.hdr t.entry 0x0A 2 ≤ (s.ctx i.core i.ctx).pc
        || (isWide (BitVec.ofNat 64 (s.rdNat (isBase i.core + 4 * (s.ctx i.core i.ctx).pc) 4))
          && decide (s.hdr t.entry 0x0A 2 ≤ (s.ctx i.core i.ctx).pc + 1)) then
      { issueX i s t with w := 0 }.fault (issueTook i s) .pcRange
    else if s.fetch i.core (s.ctx i.core i.ctx).pc ≠ i.word then s
    else match decodeOp i.word with
      | none => (issueX i s t).fault (issueTook i s) .illegalOp
      | some o' =>
        if o' ≠ o then s
        else if !(s.ctx i.core i.ctx).executes i.word then (issueX i s t).next (issueTook i s) id
        else run (issueX i s t) (issueTook i s) := by
  obtain ⟨htask, hlive, hcore, hctx, hstarted, hready, hmay⟩ := h
  unfold issueOf
  rw [htask]
  dsimp only
  rw [if_neg (by simp [hlive, hcore, hctx, hstarted, hready, hmay])]
  rfl

theorem issueOf_pcRange (run : X → State → State) (h : MayIssue i s t)
    (hpc : s.hdr t.entry 0x0A 2 ≤ (s.ctx i.core i.ctx).pc) :
    issueOf i o run s = { issueX i s t with w := 0 }.fault (issueTook i s) .pcRange := by
  rw [issueOf_mayIssue run h, if_pos (by simp [hpc])]

/-- Words in range that are fetched as given reach their decoding. -/
theorem issueOf_fetches (run : X → State → State) (h : MayIssue i s t) (hf : Fetches i s t) : issueOf i o run s =
    match decodeOp i.word with
      | none => (issueX i s t).fault (issueTook i s) .illegalOp
      | some o' =>
        if o' ≠ o then s
        else if !(s.ctx i.core i.ctx).executes i.word then (issueX i s t).next (issueTook i s) id
        else run (issueX i s t) (issueTook i s) := by
  obtain ⟨hrange, hword⟩ := hf
  have hwide := fetch_wide hword
  have hin : ¬ ((decide (s.hdr t.entry 0x0A 2 ≤ (s.ctx i.core i.ctx).pc) || (isWide i.word
      && decide (s.hdr t.entry 0x0A 2 ≤ (s.ctx i.core i.ctx).pc + 1))) = true) := by
    unfold wordsOf at hrange
    cases hw : isWide i.word <;> simp [hw] at hrange ⊢ <;> omega
  rw [issueOf_mayIssue run h, hwide, if_neg hin, if_neg (not_not_intro hword)]

end

/-! ## The address check (R333, R352) -/

section
variable {x : X} {s : State} {a : Word} {poison aligned : Bool} {go : Nat → State}

theorem X.withAddr_poisoned (hp : poison = true) : x.withAddr s a poison aligned go = x.fault s .poisonConsumed := by
  rw [X.withAddr, if_pos hp]

theorem X.withAddr_misaligned (hp : poison = false) (ha : aligned = false) :
    x.withAddr s a poison aligned go = x.fault s .misalignedAccess a.toNat := by
  rw [X.withAddr, if_neg (Bool.eq_false_iff.mp hp), if_pos (by rw [ha]; rfl)]

theorem X.withAddr_high (hp : poison = false) (ha : aligned = true) (hhigh : 2 ^ 48 ≤ a.toNat) :
    x.withAddr s a poison aligned go = x.fault s .windowViolation a.toNat := by
  have hq : a.toNat / 2 ^ 48 ≠ 0 := by omega
  rw [X.withAddr, if_neg (Bool.eq_false_iff.mp hp), if_neg (by rw [ha]; decide), if_pos hq]

theorem X.withAddr_good (hp : poison = false) (ha : aligned = true) (hlow : a.toNat < 2 ^ 48) :
    x.withAddr s a poison aligned go = go a.toNat := by
  have hq : a.toNat / 2 ^ 48 = 0 := Nat.div_eq_of_lt hlow
  rw [X.withAddr, if_neg (Bool.eq_false_iff.mp hp), if_neg (by rw [ha]; decide), if_neg (not_not_intro hq)]

end

/-- Settles O12: the three ways an issue ends before the instruction acts, and the four outcomes of the address check. -/
theorem issueAndAddressChecks : Obligations.IssueAndAddressChecks := by
  unfold Obligations.IssueAndAddressChecks
  refine ⟨fun i s t => ⟨fun hcan hpc => ?range, fun hcan hin hword hnone => ?illegal,
      fun hcan hin hword hadd hpred => ?skipped⟩,
    fun x s a poison aligned go => ⟨X.withAddr_poisoned, X.withAddr_misaligned, X.withAddr_high, X.withAddr_good⟩⟩
  case range => exact congrArg Host.Outcome.next (issueOf_pcRange _ hcan hpc)
  case illegal => exact congrArg Host.Outcome.next ((issueOf_fetches _ hcan ⟨hin, hword⟩).trans (by rw [hnone]))
  case skipped =>
    refine congrArg Host.Outcome.next ((issueOf_fetches _ hcan ⟨hin, hword⟩).trans ?_)
    rw [hadd]
    dsimp only
    rw [if_neg (not_not_intro rfl), if_pos (by rw [hpred]; rfl)]
    rfl

/-! ## Regions (R232, R353) -/

/-- No region reaches 2^48. -/
theorem regionOf_high {a : Nat} (h : 2 ^ 48 ≤ a) : regionOf a = .none_ := by
  unfold regionOf coreSpace paddockSpace hitchSpace dramSpace hostSpace remoteSpace
  repeat rw [if_neg (by omega)]

theorem lt_of_regionOf {a : Nat} {r : Region} (h : regionOf a = r) (hr : r ≠ .none_) : a < 2 ^ 48 :=
  Nat.lt_of_not_le fun hhigh => hr (h.symm.trans (regionOf_high hhigh))

end Sys2Proof.Machine
end

