-- ==== Sys2Proof/Proofs/ScalarMemory.lean ====
section
/-! PROOFS. Loads and stores (O13), element atomics (O15) and tagged accesses (O16) of scalar contexts. -/

namespace Sys2Proof.Machine

open Sys2Proof

/-! ## Accesses of local memory -/

theorem Region.isCm_iff {r : Region} : r.isCm = true ↔ r = .w ∨ r = .a ∨ r = .p := by
  cases r <;> simp [Region.isCm]

section
variable {x : X} {s0 s : State} {a n : Nat}

/-- A load of local memory whose bank answers returns the bytes with their poison (R238). -/
theorem X.localLoad_ok (sx : Bool) (after : State → State) (h : (x.touch s a false).1 = .ok) :
    x.localLoad s a n sx after =
      let u := (x.touch s a false).2
      x.ret (after u) (extend n sx (BitVec.ofNat 64 (u.rdNat (cmBase x.core + a) n))) (u.poisonAt (cmBase x.core + a)) := by
  unfold X.localLoad
  rcases hx : x.touch s a false with ⟨e, u⟩
  obtain rfl : e = .ok := by simpa [hx] using h
  rfl

/-- A store to local memory whose bank answers writes them (R241). -/
theorem X.localStore_ok (v : Word) (poison : Bool) (after : State → State) (h : (x.touch s a true).1 = .ok) :
    x.localStore s a n v poison after =
      x.next (after ((x.touch s a true).2.narrowWrite (cmBase x.core + a) n v poison)) id := by
  unfold X.localStore
  rcases hx : x.touch s a true with ⟨e, u⟩
  obtain rfl : e = .ok := by simpa [hx] using h
  rfl

/-! ## Loads by region (R353, R354, R368) -/

section
variable {sx : Bool}

theorem X.load_cm (hr : (regionOf a).isCm = true) : x.load s0 s a n sx = x.localLoad s a n sx id := by
  obtain hr | hr | hr := Region.isCm_iff.mp hr <;> simp only [X.load, hr]

theorem X.load_ob_busy {b : Nat} (hr : regionOf a = .ob b) (hbusy : s.mxeIdle x.core = false) :
    x.load s0 s a n sx = s0 := by
  simp only [X.load, hr, hbusy, Bool.false_eq_true, if_false]

theorem X.load_dram_free {p : Nat} (hr : regionOf a = .dram) (hp : s.place x.t.stall a false = some (.dram p))
    (hfree : (s.hdmDb p && !s.lineFree (p / 64) false) = false) :
    x.load s0 s a n sx = (x.wait s (.result (some (iRd x.w)))).deliver x.core x.ctx (some x.t.id)
      (extend n sx (BitVec.ofNat 64 (s.rdNat p n))) (s.poisonAt p) := by
  simp only [X.load, hr, hp, hfree, Bool.false_eq_true, if_false]
  rfl

theorem X.load_paddock {o : Nat} (hr : regionOf a = .paddock) (hp : s.place x.t.stall a false = some (.paddock o)) :
    x.load s0 s a n sx = x.wait (s.pdSend (x.pdReq s o (.load n sx))) (.result (some (iRd x.w))) := by
  simp only [X.load, hr, hp]

theorem X.load_host {q b : Nat} (hr : regionOf a = .host) (hp : s.place x.t.stall a false = some (.host q b)) :
    x.load s0 s a n sx = x.wait (s.emit (.hostRead q b n)) (.host (iRd x.w) n sx) := by
  simp only [X.load, hr, hp]

theorem X.load_dram_unplaced (hr : regionOf a = .dram) (hp : s.place x.t.stall a false = none) :
    x.load s0 s a n sx = x.fault s .windowViolation a := by
  simp only [X.load, hr, hp]

theorem X.load_elsewhere (hr : regionOf a = .core ∨ regionOf a = .remote ∨ regionOf a = .hitch ∨ regionOf a = .none_) :
    x.load s0 s a n sx = x.fault s .windowViolation a := by
  obtain hr | hr | hr | hr := hr <;> simp only [X.load, hr]

end

/-! ## Stores by region (R334, R353, R354, R368) -/

section
variable {v : Word} {poison : Bool}

theorem X.store_cm (hr : (regionOf a).isCm = true) : x.store s0 s a n v poison = x.localStore s a n v poison id := by
  obtain hr | hr | hr := Region.isCm_iff.mp hr <;> simp only [X.store, hr]

theorem X.store_dram_free {p : Nat} (hr : regionOf a = .dram) (hp : s.place x.t.stall a true = some (.dram p))
    (hfree : (s.hdmDb p && !s.lineFree (p / 64) true) = false) :
    x.store s0 s a n v poison = x.next (s.narrowWrite p n v poison) id := by
  simp only [X.store, hr, hp, hfree, Bool.false_eq_true, if_false]

theorem X.store_paddock {o : Nat} (hr : regionOf a = .paddock) (hp : s.place x.t.stall a true = some (.paddock o)) :
    x.store s0 s a n v poison = x.next (s.pdSend (x.pdReq s o (.store n v poison))) id := by
  simp only [X.store, hr, hp]

theorem X.store_host {q b : Nat} (hr : regionOf a = .host) (hp : s.place x.t.stall a true = some (.host q b))
    (hclean : poison = false) :
    x.store s0 s a n v poison = x.next (s.emit (.hostWrite q b (leBytes n v.toNat) poison)) id := by
  subst hclean
  simp only [X.store, hr, hp, Bool.false_eq_true, if_false]

theorem X.store_far (hr : regionOf a = .core ∨ regionOf a = .remote) :
    x.store s0 s a n v poison = x.fault s .noCredit a := by
  obtain hr | hr := hr <;> simp only [X.store, hr]

theorem X.store_elsewhere (hr : regionOf a = .hitch ∨ regionOf a = .none_) :
    x.store s0 s a n v poison = x.fault s .windowViolation a := by
  obtain hr | hr := hr <;> simp only [X.store, hr]

end

end

/-- Settles O13: the four forms pass the address check; loads and stores go by the region of their address. -/
theorem loadsAndStores : Obligations.LoadsAndStores := by
  unfold Obligations.LoadsAndStores
  refine ⟨fun i s t => ⟨fun hp halign hlow => ?direct, fun hp hq halign hlow => ?indexed⟩,
    fun x s0 s a n sx => ⟨?loadCm, ?loadOb, ?loadDram, ?loadPaddock, ?loadHost, ?loadUnplaced, ?loadElse⟩,
    fun x s0 s a n v poison => ⟨?storeCm, ?storeDram, ?storePaddock, ?storeHost, ?storeFar, ?storeElse⟩⟩
  case direct =>
    have haligned := beq_iff_eq.mpr halign
    exact ⟨exec_of_issueOf rfl (X.withAddr_good hp haligned hlow), exec_of_issueOf rfl (X.withAddr_good hp haligned hlow)⟩
  case indexed =>
    have hclean := Bool.or_eq_false_iff.mpr ⟨hp, hq⟩
    have haligned := beq_iff_eq.mpr halign
    exact ⟨exec_of_issueOf rfl (X.withAddr_good hclean haligned hlow),
      exec_of_issueOf rfl (X.withAddr_good hclean haligned hlow)⟩
  case loadCm => exact fun hr hok => (X.load_cm hr).trans (X.localLoad_ok sx id hok)
  case loadOb => exact fun b => X.load_ob_busy
  case loadDram => exact fun p => X.load_dram_free
  case loadPaddock => exact fun o => X.load_paddock
  case loadHost => exact fun q b => X.load_host
  case loadUnplaced => exact X.load_dram_unplaced
  case loadElse => exact X.load_elsewhere
  case storeCm => exact fun hr hok => (X.store_cm hr).trans (X.localStore_ok v poison id hok)
  case storeDram => exact fun p => X.store_dram_free
  case storePaddock => exact fun o => X.store_paddock
  case storeHost => exact fun q b => X.store_host
  case storeFar => exact X.store_far
  case storeElse => exact X.store_elsewhere

/-! ## Element atomics (R303 to R307, R370) -/

section
variable {x : X} {s : State} {f : Atom} {ret : Bool}

/-- In the P-region an atomic whose bank answers, and whose window gives a scale if it is a fixed-point one, changes the
memory (R304, R313). -/
theorem X.atom_p {sc : Nat} (hp : x.a.2 = false) (ha : f.aligned x.a.1.toNat = true) (hf : f ≠ .addS)
    (hr : regionOf x.a.1.toNat = .p) (hok : (x.touch s x.a.1.toNat true).1 = .ok)
    (hsc : f.isFx = true → s.cmScale x.core x.a.1.toNat = some sc) :
    x.atom s f ret =
      let r := (x.touch s x.a.1.toNat true).2.atomic (cmBase x.core + x.a.1.toNat) f x.b.1 x.b.2 (if f.isFx then sc else 0)
      if ret then x.ret r.2.2 r.1 r.2.1 else x.next r.2.2 id := by
  have hscale : (if f.isFx then s.cmScale x.core x.a.1.toNat else some 0) = some (if f.isFx then sc else 0) := by
    cases hfx : f.isFx
    · rfl
    · exact hsc hfx
  rcases hx : x.touch s x.a.1.toNat true with ⟨e, u⟩
  obtain rfl : e = .ok := by simpa [hx] using hok
  rw [X.atom, X.withAddr_good hp ha (lt_of_regionOf hr (by decide))]
  simp only [hr, hf, if_false, hscale, hx]

theorem X.atom_w (hp : x.a.2 = false) (ha : f.aligned x.a.1.toNat = true) (hr : regionOf x.a.1.toNat = .w) :
    x.atom s f ret = x.fault s .atomicRegion x.a.1.toNat := by
  rw [X.atom, X.withAddr_good hp ha (lt_of_regionOf hr (by decide))]
  simp only [hr]

/-- AFADD in the Paddock is a request at its bank (R303). -/
theorem X.atom_addS_paddock {p : Nat} (hp : x.a.2 = false) (ha : x.a.1.toNat % 4 = 0)
    (hr : regionOf x.a.1.toNat = .paddock) (hplace : s.place x.t.stall x.a.1.toNat true = some (.paddock p)) :
    x.atom s .addS ret =
      let v := s.pdSend (x.pdReq s p (.atom .addS x.b.1 x.b.2))
      if ret then x.wait v (.result (some (iRd x.w))) else x.next v id := by
  have haligned : Atom.addS.aligned x.a.1.toNat = true := by simp [Atom.aligned, Atom.isFx, Atom.size, ha]
  rw [X.atom, X.withAddr_good hp haligned (lt_of_regionOf hr (by decide))]
  simp only [hr, hplace, Atom.isFx, Bool.false_and, Bool.false_eq_true, if_false]

theorem X.atom_addS_p (hp : x.a.2 = false) (ha : x.a.1.toNat % 4 = 0) (hr : regionOf x.a.1.toNat = .p) :
    x.atom s .addS ret = x.fault s .atomicRegion x.a.1.toNat := by
  have haligned : Atom.addS.aligned x.a.1.toNat = true := by simp [Atom.aligned, Atom.isFx, Atom.size, ha]
  rw [X.atom, X.withAddr_good hp haligned (lt_of_regionOf hr (by decide))]
  simp only [hr, if_true]

end

/-- Settles O15: the eight forms that act in the P-region are one rule with their element and whether they return;
AFADD's two forms are the Paddock's. -/
theorem elementAtomics : Obligations.ElementAtomics := by
  unfold Obligations.ElementAtomics
  intro i s t x u k a b adr touched acts paddockOnly
  have local_ {c : Issue → Instr} {o : Op} {f : Atom} {sc : Nat} {ret : Bool}
      (hc : exec (c i) s = .next (issueOf i o (fun x t => x.atom t f ret) s)) (hf : f ≠ .addS) : acts c o f sc ret :=
    fun hi hp ha => ⟨fun hr hok hsc => exec_of_issueOf hc (X.atom_p hp ha hf hr hok hsc) hi,
      fun hr => exec_of_issueOf hc (X.atom_w hp ha hr) hi⟩
  have far {c : Issue → Instr} {o : Op} {ret : Bool}
      (hc : exec (c i) s = .next (issueOf i o (fun x t => x.atom t .addS ret) s)) : paddockOnly c o ret :=
    fun hi hp ha _ => ⟨fun p hr hplace => exec_of_issueOf hc (X.atom_addS_paddock hp ha hr hplace) hi,
      fun hr => exec_of_issueOf hc (X.atom_addS_p hp ha hr) hi⟩
  exact ⟨fun sc => ⟨local_ rfl (by decide), local_ rfl (by decide), local_ rfl (by decide), local_ rfl (by decide),
    local_ rfl (by decide), local_ rfl (by decide), local_ rfl (by decide), local_ rfl (by decide)⟩, far rfl, far rfl⟩

/-! ## Tagged accesses (R275 to R280, R376) -/

section
variable {i : Issue} {s : State} {t : Task}

/-- The address of TLD. -/
abbrev tldAddr (i : Issue) (s : State) : Word :=
  ((s.ctx i.core i.ctx).rg (iRs1 i.word)).1 + sext 8 (ib i.word 0 8) * BitVec.ofNat 64 (2 ^ ib i.word 10 2)

/-- The address of TST. -/
abbrev tstAddr (i : Issue) (s : State) : Word :=
  ((s.ctx i.core i.ctx).rg (iRs1 i.word)).1 + sext 9 (ib i.word 0 9) * BitVec.ofNat 64 (2 ^ ib i.word 10 2)

/-- TLD of a slot of the A-region by its tag. -/
theorem exec_tld_a (h : Issues i .tld s t) (hp : ((s.ctx i.core i.ctx).rg (iRs1 i.word)).2 = false)
    (ha : (tldAddr i s).toNat % 2 ^ ib i.word 10 2 = 0) (hr : regionOf (tldAddr i s).toNat = .a) :
    let x := issueX i s t
    let u := issueTook i s
    let a := (tldAddr i s).toNat
    exec (.tld i) s = .next (
      if !u.tagAt (cmBase i.core + a) then x.wait u (.tag (cmBase i.core + a) ((u.ctx i.core i.ctx).since.getD u.now))
      else x.localLoad u a (2 ^ ib i.word 10 2) (bitAt i.word 9) fun v =>
        if bitAt i.word 8 then v else v.putTag (cmBase i.core + a) false) := by
  refine exec_of_issueOf rfl ((X.withAddr_good hp (beq_iff_eq.mpr ha) (lt_of_regionOf hr (by decide))).trans ?_) h
  simp only [hr]
  rfl

/-- TST of a slot of the A-region by its tag. -/
theorem exec_tst_a (h : Issues i .tst s t) (hp : ((s.ctx i.core i.ctx).rg (iRs1 i.word)).2 = false)
    (ha : (tstAddr i s).toNat % 2 ^ ib i.word 10 2 = 0) (hr : regionOf (tstAddr i s).toNat = .a) :
    let x := issueX i s t
    let u := issueTook i s
    let a := (tstAddr i s).toNat
    let d := (s.ctx i.core i.ctx).rg (iRd i.word)
    exec (.tst i) s = .next (
      if u.tagAt (cmBase i.core + a) then x.wait u (.tag (cmBase i.core + a) ((u.ctx i.core i.ctx).since.getD u.now))
      else x.localStore u a (2 ^ ib i.word 10 2) d.1 d.2 fun v => v.putTag (cmBase i.core + a) true) := by
  refine exec_of_issueOf rfl ((X.withAddr_good hp (beq_iff_eq.mpr ha) (lt_of_regionOf hr (by decide))).trans ?_) h
  simp only [hr]
  rfl

/-- A tag-only access of a slot of the A-region whose bank is on acts on the tag at once (R279). -/
theorem X.tagOnly_a {x : X} {u : State} {write : Bool} {op : PdOp} {cm : State → Nat → State} (hp : x.a.2 = false)
    (hr : regionOf x.a.1.toNat = .a) (hon : bitAt (u.reg .cmCfg x.core) (32 + bankAt x.a.1.toNat) = false) :
    x.tagOnly u write op cm = cm u (cmBase x.core + x.a.1.toNat) := by
  refine (X.withAddr_good hp rfl (lt_of_regionOf hr (by decide))).trans ?_
  simp only [hr, hon, Bool.false_eq_true, if_false]

end

/-- Settles O16: TLD and TST are split on the slot's tag; the three tag-only instructions are one rule. -/
theorem taggedAccesses : Obligations.TaggedAccesses := by
  unfold Obligations.TaggedAccesses
  intro i s t w x u k r a n al as key waits bankOn
  refine ⟨fun hi hp ha hr => ⟨fun htag => ?empty, fun htag hok => ?full⟩,
    fun hi hp ha hr => ⟨fun htag => ?waits, fun htag hok => ?fills⟩, fun hp hr hon => ?tagOnly⟩
  case empty => rw [exec_tld_a hi hp ha hr, if_pos (by rw [htag]; rfl)]
  case full => rw [exec_tld_a hi hp ha hr, if_neg (by rw [htag]; decide), X.localLoad_ok _ _ hok]; rfl
  case waits => rw [exec_tst_a hi hp ha hr, if_pos htag]
  case fills => rw [exec_tst_a hi hp ha hr, if_neg (Bool.eq_false_iff.mp htag), X.localStore_ok _ _ _ hok]; rfl
  case tagOnly =>
    exact ⟨exec_of_issueOf rfl (X.tagOnly_a hp hr hon), exec_of_issueOf rfl (X.tagOnly_a hp hr hon),
      exec_of_issueOf rfl (X.tagOnly_a hp hr hon)⟩

end Sys2Proof.Machine
end

