-- ==== Sys2Proof/Proofs/Hitches.lean ====
section
/-! PROOFS. Hitch instructions and the hitch store (O18), and barriers (O19). -/

namespace Sys2Proof.Machine

open Sys2Proof

/-! ## What a write of the store leaves -/

theorem State.regs_broadcast (s : State) (i : Nat) (v : Word) :
    (s.broadcast i v).regs = s.regs ∧ (s.broadcast i v).card = s.card := by
  unfold State.broadcast
  induction List.range coreCount generalizing s with
  | nil => exact ⟨rfl, rfl⟩
  | cons c l ih =>
    rw [List.foldl_cons]
    split
    · exact ih _
    · exact ih s

/-- A write of a hitch changes no register. -/
@[simp] theorem State.f_hitchWrite (s : State) (i : Nat) (v : Word) (r : Reg) (j lo n : Nat) :
    (s.hitchWrite i v).f r j lo n = s.f r j lo n := by
  obtain ⟨hregs, hcard⟩ := State.regs_broadcast
    (s.setHs { s.cx.hs with val := Tbl.put 0 s.cx.hs.val i v, poison := KSet.del i s.cx.hs.poison }) i v
  unfold State.hitchWrite State.f State.reg State.regReset
  rw [hregs, hcard]
  rfl

/-- Keeping a joined record changes no register. -/
@[simp] theorem HReq.f_join (r : HReq) (s : State) (b g : Nat) (q : Reg) (j lo n : Nat) :
    (r.join s b g).f q j lo n = s.f q j lo n := by
  unfold HReq.join
  split <;> rfl

/-! ## Hitch instructions (R379 to R381) -/

section
variable {i : Issue} {s : State} {t : Task} {h : Nat}

/-- An unpoisoned address of a hitch in the stall's range reaches that hitch (R379). -/
theorem X.hitchAt_hitch (hat : AtHitch i s t h) (far : Bool) (go : Nat → State) (remote : Nat → Nat → State) :
    (issueX i s t).hitchAt (issueTook i s) false far go remote = go h := by
  obtain ⟨hpoison, halign, hregion, hplace⟩ := hat
  have hpoison' : ¬ (((issueX i s t).a.2 || false) = true) := by
    rw [Bool.or_false]
    exact Bool.eq_false_iff.mp hpoison
  have halign' : (issueX i s t).a.1.toNat % 8 = 0 := halign
  have hlow : (issueX i s t).a.1.toNat / 2 ^ 48 = 0 := Nat.div_eq_of_lt (lt_of_regionOf hregion (by decide))
  have hregion' : regionOf (issueX i s t).a.1.toNat = .hitch := hregion
  have hplace' : (issueTook i s).place (issueX i s t).t.stall (issueX i s t).a.1.toNat true = some (.hitch h) := hplace
  rw [X.hitchAt, if_neg hpoison', if_neg (not_not_intro halign'), if_neg (not_not_intro hlow)]
  simp only [hregion', hplace']

/-- An operation whose value returns is sent, and the context waits for it. -/
theorem X.hitchRet_hitch (hat : AtHitch i s t h) {operand : Bool} (hop : operand = false) (op : HOp) :
    (issueX i s t).hitchRet (issueTook i s) operand op =
      ((issueX i s t).wait ((issueTook i s).inHitchSet (some t.id) h) (.result (some (iRd i.word)))).hitchSend
        ⟨h, op, i.core, 0, i.ctx, t.id, (s.ctx i.core i.ctx).pc, i.word⟩ := by
  subst hop
  exact X.hitchAt_hitch hat ..

/-- An operation that returns nothing is sent, and the context goes on (R380). -/
theorem X.hitchGo_hitch (hat : AtHitch i s t h) (hop : ((s.ctx i.core i.ctx).rg (iRs2 i.word)).2 = false) (op : HOp)
    (add : Bool) : (issueX i s t).hitchGo (issueTook i s) op add =
      ((issueX i s t).next ((issueTook i s).inHitchSet (some t.id) h) id).hitchSend
        ⟨h, op, i.core, 0, i.ctx, t.id, (s.ctx i.core i.ctx).pc, i.word⟩ := by
  have hop' : (issueX i s t).b.2 = false := hop
  rw [X.hitchGo, hop']
  exact X.hitchAt_hitch hat ..

/-- HMON with a slot for the hitch asks for it (R458). -/
theorem exec_hmon_room (hat : AtHitch i s t h) (hi : Issues i .hmon s t)
    (hroom : (decide (4 ≤ (s.ctx i.core i.ctx).mon.length) && (s.ctx i.core i.ctx).mon.all fun m => m.2.idx != h) = false) :
    exec (.hmon i) s = .next (((issueX i s t).wait ((issueTook i s).inHitchSet (some t.id) h)
      (.result (some (iRd i.word)))).hitchSend ⟨h, .mon, i.core, 0, i.ctx, t.id, (s.ctx i.core i.ctx).pc, i.word⟩) :=
  exec_of_issueOf rfl ((X.hitchAt_hitch hat ..).trans (if_neg (Bool.eq_false_iff.mp hroom))) hi

/-- HMWAIT with a fired slot returns its hitch's address and disarms it (R459). -/
theorem exec_hmwait_fired (hi : Issues i .hmwait s t) (harmed : (s.ctx i.core i.ctx).mon ≠ []) {n j : Nat}
    (hfired : (s.ctx i.core i.ctx).firedSlot = some (n, j)) :
    exec (.hmwait i) s = .next (retires i s fun c => { c with mon := Tbl.erase n c.mon }.wg (iRd i.word)
      (BitVec.ofNat 64 ((issueTook i s).hitchAddr t.stall j)) false) := by
  refine exec_of_issueOf rfl ?_ hi
  have harmed' : ¬ ((issueX i s t).k.mon.isEmpty = true) := mt List.isEmpty_iff.mp harmed
  have hfired' : (issueX i s t).k.firedSlot = some (n, j) := hfired
  simp only [harmed', hfired']
  rfl

end

/-! ## Operations performed in the store (R448, R453, R456) -/

section
variable {s : State} {r : HReq}

theorem State.hitchDo_write {w : Word} (hop : r.op = .write w) : s.hitchDo r = s.hitchWrite r.idx w := by
  simp only [State.hitchDo, hop]

theorem State.hitchDo_poisoned (hp : s.hitchPoison r.idx = true) (hop : r.op = .read ∨ ∃ w ret, r.op = .add w ret) :
    s.hitchDo r = r.fault s .poisonConsumed := by
  obtain hop | ⟨w, ret, hop⟩ := hop <;> simp only [State.hitchDo, hop, hp, if_true]

section
variable (hp : s.hitchPoison r.idx = false)
include hp

theorem State.hitchDo_read (hop : r.op = .read) :
    s.hitchDo r = s.deliver r.core r.ctx (some r.task) (s.hitch r.idx) false := by
  simp only [State.hitchDo, hop, hp, Bool.false_eq_true, if_false]

theorem State.hitchDo_add_marked {w : Word} {ret : Bool} (hop : r.op = .add w ret) (hm : bitAt (s.hitch r.idx) 63 = true) :
    s.hitchDo r = r.fault s .hitchAborted := by
  simp only [State.hitchDo, hop, hp, hm, Bool.false_eq_true, if_false, if_true]

theorem State.hitchDo_add {w : Word} {ret : Bool} (hop : r.op = .add w ret) (hm : bitAt (s.hitch r.idx) 63 = false) :
    s.hitchDo r =
      let u := s.hitchWrite r.idx (s.hitch r.idx + w)
      if ret then u.deliver r.core r.ctx (some r.task) (s.hitch r.idx) false else u := by
  simp only [State.hitchDo, hop, hp, hm, Bool.false_eq_true, if_false]

theorem State.hitchDo_wait_marked {c : HCond} {w : Word} (hop : r.op = .wait c w) (hm : bitAt (s.hitch r.idx) 63 = true) :
    s.hitchDo r = r.fault (s.countAborted (s.stallOfTask r.task)) .hitchAborted := by
  simp only [State.hitchDo, hop, hp, hm, Bool.false_eq_true, if_false, if_true]

theorem State.hitchDo_wait_met {c : HCond} {w : Word} (hop : r.op = .wait c w) (hm : bitAt (s.hitch r.idx) 63 = false)
    (hmet : c.met (s.hitch r.idx) w = true) :
    s.hitchDo r = s.deliver r.core r.ctx (some r.task) (s.hitch r.idx) false := by
  simp only [State.hitchDo, hop, hp, hm, hmet, Bool.false_eq_true, if_false, if_true]

end

/-- An arrival at a barrier that is on, whose counter is neither poisoned nor aborted: the last one sets ARRIVED to 0,
moves GEN on and is traced, another adds one (R464). -/
theorem State.hitchDo_arrive {b e : Nat} (hop : r.op = .arrive b e false) (hon : s.f .barrierCtl b 0 1 ≠ 0)
    (hp : s.hitchPoison r.idx = false) (hm : bitAt (s.hitch r.idx) 63 = false) :
    let v := s.hitch r.idx
    let joined := fun (new : Nat) => r.join (s.hitchWrite r.idx (BitVec.ofNat 64 new)) b (genOf v)
    s.hitchDo r = r.finish (if s.f .barrierCtl b 16 10 ≤ arrivedOf v + 1 then
        let u := joined ((genOf v + 1) % 2 ^ 31 * 2 ^ 32)
        u.trace (u.stallOfTask r.task) 7 noCore 0 r.task b
      else joined (arrivedOf v + 1 + genOf v * 2 ^ 32)) (BitVec.ofNat 64 (genOf v)) := by
  by_cases hlast : s.f .barrierCtl b 16 10 ≤ arrivedOf (s.hitch r.idx) + 1 <;>
    simp only [State.hitchDo, hop, hon, hp, hm, hlast, HReq.f_join, State.f_hitchWrite, Bool.false_eq_true, if_false,
      if_true]

end

/-! ## Banks, release messages and limits (R448, R454, R460) -/

section
variable {s : State} {t : Task} {c x : Nat}

theorem exec_hitchBankAccess_bank {b : Nat} (hb : b < 16) : exec (.hitchBankAccess b) s =
    .next (((((s.deliverPort b 0).deliverPort b 1).deliverPort b 2).deliverPort b 3).hitchBankStep b) := by
  change execHitchBankAccess b s = _
  have hports : List.range 4 = [0, 1, 2, 3] := rfl
  simp only [execHitchBankAccess, Nat.mod_eq_of_lt hb, hports, List.foldl_cons, List.foldl_nil]

/-- The oldest release message of a core with a live task is shown to its contexts and then to its engines. -/
theorem exec_hitchReleaseSeen_live {j : Nat} {v : Word} {rest : List (Nat × Word)} (hbus : (s.core c).bus = (j, v) :: rest)
    (ht : (s.updCore c fun q => { q with bus := rest }).taskOn c = some t) (hlive : t.phase.live = true) :
    exec (.hitchReleaseSeen c) s = .next ((List.range 3).foldl (fun s e => s.spinSees c t.stall j v e)
      ((List.range 8).foldl (fun s x => s.ctxSees c t.stall j v x) (s.updCore c fun q => { q with bus := rest }))) := by
  change execHitchReleaseSeen c s = _
  simp only [execHitchReleaseSeen, hbus, ht, hlive, Bool.not_true, Bool.false_eq_true, if_false]

/-- A hitch wait past its limit is counted and faults (R460). -/
theorem exec_hitchTimeout_waiting {q : HCond} {j since : Nat} {w v : Word} (ht : s.taskOn c = some t)
    (hlive : t.phase.live = true) (hret : (s.ctx c x).ret = none) (hwait : (s.ctx c x).wait = .hitch q j w since v) :
    exec (.hitchTimeout c 0 x) s = .next (((s.notBefore (since + s.hitchLimit t.stall)).addF .hitchStat t.stall 16 16 1
      ).waiterFault c 0 x .hitchTimeout j (w.toNat + 2 ^ 64 * v.toNat)) := by
  change execHitchTimeout c 0 x s = _
  simp only [execHitchTimeout, ht, hlive, hret, hwait, Bool.not_true, Bool.false_eq_true, if_false, if_true,
    Option.isSome_none]

end

/-- Settles O18: the instructions send their operation from the hitch that rs1 reaches; the store's operations and the
commands are their cases. -/
theorem hitchCommands : Obligations.HitchCommands := by
  unfold Obligations.HitchCommands
  refine ⟨fun i s t h => ⟨fun hat hb => ?sends, fun hat => ?hrd, exec_hmon_room, ?hmwait, exec_of_issueOf rfl rfl⟩,
    fun s r => ⟨fun w => State.hitchDo_write, State.hitchDo_poisoned, fun hp => ?clean⟩,
    fun s t c x => ⟨fun b => exec_hitchBankAccess_bank, fun j v rest hbus => exec_hitchReleaseSeen_live hbus,
      fun ht hlive hret q j w since v => exec_hitchTimeout_waiting ht hlive hret⟩⟩
  case sends =>
    exact ⟨exec_of_issueOf rfl (X.hitchGo_hitch hat hb ..), exec_of_issueOf rfl (X.hitchGo_hitch hat hb ..),
      exec_of_issueOf rfl (X.hitchRet_hitch hat hb _), exec_of_issueOf rfl (X.hitchRet_hitch hat hb _),
      exec_of_issueOf rfl (X.hitchRet_hitch hat hb _), exec_of_issueOf rfl (X.hitchRet_hitch hat hb _)⟩
  case hrd => exact exec_of_issueOf rfl (X.hitchRet_hitch hat rfl _)
  case hmwait => exact fun hi harmed n j => exec_hmwait_fired hi harmed
  case clean =>
    exact ⟨State.hitchDo_read hp, fun w ret => State.hitchDo_add_marked hp, fun w hop hm => (State.hitchDo_add hp hop hm).trans (if_pos rfl),
      fun w hop hm => (State.hitchDo_add hp hop hm).trans (if_neg Bool.false_ne_true), fun c w => State.hitchDo_wait_marked hp, fun c w => State.hitchDo_wait_met hp⟩

/-! ## Barriers (R422, R464, R466, R468) -/

/-- A barrier instruction at an enabled barrier of the stall sends its operation to the counter hitch. -/
theorem BarStart.go_enabled {b : BarStart} {s : State} {pre : State → State} {op : Nat → Option HOp} {o : HOp}
    (hn : fld b.word 32 9 < (s.active.barrier b.task.stall).2)
    (hview : s.inView (fun c => c.inRange Copy.barrier b.task.stall
      ((s.active.barrier b.task.stall).1 + fld b.word 32 9)) = true)
    (hon : s.f .barrierCtl ((s.active.barrier b.task.stall).1 + fld b.word 32 9) 0 1 ≠ 0)
    (hop : op ((s.active.barrier b.task.stall).1 + fld b.word 32 9) = some o) :
    b.go s pre op =
      let h := (s.active.hitch b.task.stall).1
        + s.f .barrierCtl ((s.active.barrier b.task.stall).1 + fld b.word 32 9) 32 14
      (pre (s.inHitchSet (some b.task.id) h)).hitchSend ⟨h, o, b.core, b.unit, b.ctx, b.task.id, b.pc, b.word⟩ := by
  have hguard : (!(decide (fld b.word 32 9 < (s.active.barrier b.task.stall).2) && s.inView fun c =>
      c.inRange Copy.barrier b.task.stall ((s.active.barrier b.task.stall).1 + fld b.word 32 9))) = false := by
    simp [hn, hview]
  simp only [BarStart.go, hguard, hon, hop, Bool.false_eq_true, if_false]

/-- With ENG 3 the issuing context starts the barrier instruction (R422). -/
theorem exec_of_barrier {c : Instr} {i : Issue} {o : Op} {s u : State} {t : Task} {quiet : Bool}
    {op : Option (Nat × Nat) → Nat → Option HOp} (hc : exec c s = .next (barrier i 3 o op quiet s))
    (heng : queueOf i.word = 3)
    (hu : BarStart.go ⟨i.core, 0, i.ctx, t, (s.ctx i.core i.ctx).pc, i.word⟩ (issueTook i s)
      (fun v => (issueX i s t).wait v (.result none)) (op (s.ctx i.core i.ctx).joined) = u)
    (hi : Issues i o s t) : exec c s = .next u :=
  exec_of_issueOf (hc.trans (by rw [barrier, if_pos rfl])) ((if_neg (not_not_intro heng)).trans hu) hi

/-- A context whose release has come completes its barrier instruction. -/
theorem exec_barrierWake_released {s : State} {c y b j g since : Nat} {v : Word} {p : Bool}
    (hwait : (s.ctx c y).wait = .barrier b j g since) (hret : (s.ctx c y).ret = some (v, p)) :
    exec (.barrierWake c 0 y) s = .next (s.complete c y none 0 false) := by
  have hwait' : ((s.core c).ctx y).wait = .barrier b j g since := hwait
  have hret' : ((s.core c).ctx y).ret = some (v, p) := hret
  change execBarrierWake c 0 y s = _
  simp only [execBarrierWake, hwait', hret', if_true]

/-- Settles O19: the three instructions start at the counter hitch; an arrival is split on whether it is the last. -/
theorem barrierCommands : Obligations.BarrierCommands := by
  unfold Obligations.BarrierCommands
  refine ⟨fun i s t => ⟨fun heng hn hview hon => ?starts, fun c y b j g since v p => exec_barrierWake_released⟩,
    fun s r b e => ?arrives⟩
  case starts =>
    refine ⟨exec_of_barrier rfl heng (BarStart.go_enabled hn hview hon rfl), fun g hjoined =>
      exec_of_barrier rfl heng (BarStart.go_enabled hn hview hon ?_),
      exec_of_barrier rfl heng (BarStart.go_enabled hn hview hon rfl)⟩
    simp only [hjoined, if_true]
  case arrives =>
    intro v count hop hon hp hm
    refine ⟨fun hbelow => ?_, fun hlast => ?_⟩
    · rw [State.hitchDo_arrive hop hon hp hm, if_neg (Nat.not_le.mpr hbelow)]
    · rw [State.hitchDo_arrive hop hon hp hm, if_pos hlast]

end Sys2Proof.Machine
end

