-- ==== Sys2Proof/Proofs/MemoryFrames.lean ====
section
/-! PROOFS. What stores, fills and quiet commands leave unchanged (O14). -/

namespace Sys2Proof.Machine

open Sys2Proof

/-! ## Bytes outside a write -/

@[simp] theorem State.rdByte_setPoison (s : State) (a b : Nat) (p : Bool) : (s.setPoison a p).rdByte b = s.rdByte b := by
  unfold State.setPoison
  split <;> rfl

theorem State.rdByte_narrowWrite_ne (s : State) {key n b : Nat} (v : Word) (poison : Bool) (h : b < key ∨ key + n ≤ b) :
    (s.narrowWrite key n v poison).rdByte b = s.rdByte b := by
  unfold State.narrowWrite
  split
  · rw [State.rdByte_setPoison, State.rdByte_wrNat_ne s key n _ b h]
  · split
    · rw [State.rdByte_setPoison, State.rdByte_wrNat_ne s key n _ b h]
    · exact State.rdByte_wrNat_ne s key n _ b h

/-- Setting poison marks one by one leaves every byte. -/
theorem State.rdByte_foldl_setPoison (at_ : Nat → Nat) (p : Nat → Bool) (b : Nat) (l : List Nat) :
    ∀ s : State, (l.foldl (fun s i => s.setPoison (at_ i) (p i)) s).rdByte b = s.rdByte b := by
  induction l with
  | nil => intro s; rfl
  | cons i l ih => intro s; rw [List.foldl_cons, ih, State.rdByte_setPoison]

theorem State.rdByte_wrLine_ne (s : State) {a b : Nat} (d : Line256) (p : Word32) (h : b < a ∨ a + 256 ≤ b) :
    (s.wrLine a d p).rdByte b = s.rdByte b := by
  unfold State.wrLine
  dsimp only
  split
  · rw [State.rdByte_foldl_setPoison, State.rdByte_wrNat_ne s a 256 _ b h]
  · rw [State.rdByte_foldl_setPoison, State.rdByte_wrNat_ne s a 256 _ b h]

/-! ## Where addresses lie, after a write of memory (R171, R353) -/

/-- The two states hold the same registers and the same stall table: an address lies in both at the same place. -/
structure SameTable (s t : State) : Prop where
  regs : t.regs = s.regs
  gb   : t.gb = s.gb

theorem SameTable.refl (s : State) : SameTable s s := ⟨rfl, rfl⟩

theorem SameTable.trans {s t u : State} (h : SameTable s t) (k : SameTable t u) : SameTable s u :=
  ⟨k.regs.trans h.regs, k.gb.trans h.gb⟩

theorem SameTable.place {s t : State} (h : SameTable s t) (st a : Nat) (write : Bool) :
    t.place st a write = s.place st a write := by
  unfold State.place State.inView State.active State.activeWord
  rw [h.regs, h.gb]

theorem SameTable.wrBytes (l : List Byte) : ∀ (s : State) (a : Nat), SameTable s (s.wrBytes a l) := by
  induction l with
  | nil => exact fun s a => .refl s
  | cons v l ih => 
    intro s a
    have hrest := ih (s.wrByte a v) (a + 1)
    exact ⟨hrest.regs, hrest.gb⟩

theorem SameTable.setPoison (s : State) (a : Nat) (p : Bool) : SameTable s (s.setPoison a p) := by
  unfold State.setPoison
  split <;> exact ⟨rfl, rfl⟩

theorem SameTable.foldl_setPoison (at_ : Nat → Nat) (p : Nat → Bool) (l : List Nat) :
    ∀ s : State, SameTable s (l.foldl (fun s i => s.setPoison (at_ i) (p i)) s) := by
  induction l with
  | nil => exact fun s => .refl s
  | cons i l ih => exact fun s => (SameTable.setPoison s _ _).trans (ih _)

theorem SameTable.wrLine (s : State) (a : Nat) (d : Line256) (p : Word32) : SameTable s (s.wrLine a d p) := by
  unfold State.wrLine
  dsimp only
  split
  · exact (SameTable.wrBytes _ s a).trans (SameTable.foldl_setPoison _ _ _ _)
  · exact (SameTable.wrBytes _ s a).trans (SameTable.foldl_setPoison _ _ _ _)

theorem State.memPut_dram {s : State} {st a q : Nat} (h : s.place st a true = some (.dram q)) (d : Line256) (p : Word32) :
    s.memPut st a d p = s.wrLine q d p := by
  simp only [State.memPut, h]

/-- A fill of lines of DRAM leaves the bytes outside all of them: the lines still to fill stay where they lie. -/
theorem State.rdByte_memFill_dram {st b : Nat} {d : Line256} (n : Nat) : ∀ {s : State} {a : Nat},
    (∀ j, j < n → ∃ p, s.place st (a + 256 * j) true = some (.dram p) ∧ (b < p ∨ p + 256 ≤ b)) →
      (s.memFill st a d n).rdByte b = s.rdByte b := by
  induction n with
  | zero => intro s a _; rfl
  | succ n ih =>
    intro s a h
    obtain ⟨p, hp, hb⟩ := h 0 (Nat.succ_pos n)
    rw [Nat.mul_zero, Nat.add_zero] at hp
    rw [State.memFill, State.memPut_dram hp, ih, State.rdByte_wrLine_ne s d 0 hb]
    intro j hj
    obtain ⟨q, hq, hqb⟩ := h (j + 1) (Nat.succ_lt_succ hj)
    refine ⟨q, ?_, hqb⟩
    rw [(SameTable.wrLine s p d 0).place, ← hq]
    congr 1
    omega

/-! ## States with the same bytes -/

/-- The two states hold the same bytes with the same poison. -/
structure SameBytes (s t : State) : Prop where
  mem     : t.mem = s.mem
  dbase   : t.dbase = s.dbase
  poison  : t.poison = s.poison
  dpoison : t.dpoison = s.dpoison

theorem SameBytes.refl (s : State) : SameBytes s s := ⟨rfl, rfl, rfl, rfl⟩

theorem SameBytes.trans {s t u : State} (h : SameBytes s t) (k : SameBytes t u) : SameBytes s u :=
  ⟨k.mem.trans h.mem, k.dbase.trans h.dbase, k.poison.trans h.poison, k.dpoison.trans h.dpoison⟩

/-- After a change of other fields. -/
theorem SameBytes.after {s t u : State} (k : SameBytes t u) (hm : t.mem = s.mem) (hb : t.dbase = s.dbase)
    (hp : t.poison = s.poison) (hd : t.dpoison = s.dpoison) : SameBytes s u :=
  ⟨k.mem.trans hm, k.dbase.trans hb, k.poison.trans hp, k.dpoison.trans hd⟩

theorem SameBytes.reads {s t : State} (h : SameBytes s t) (a : Nat) :
    t.rdByte a = s.rdByte a ∧ t.poisonAt a = s.poisonAt a := by
  unfold State.rdByte State.poisonAt
  rw [h.mem, h.dbase, h.poison, h.dpoison]
  exact ⟨rfl, rfl⟩

theorem SameBytes.ite {s t u : State} {c : Prop} [Decidable c] (ht : SameBytes s t) (hu : SameBytes s u) :
    SameBytes s (if c then t else u) := by
  split
  · exact ht
  · exact hu

theorem SameBytes.foldl {α : Type} {f : State → α → State} (h : ∀ s x, SameBytes s (f s x)) (l : List α) :
    ∀ s : State, SameBytes s (l.foldl f s) := by
  induction l with
  | nil => exact SameBytes.refl
  | cons x l ih => exact fun s => (h s x).trans (ih (f s x))

/-! ## Operations that keep them: power, Rein ports and answers -/

theorem SameBytes.beginOp (s : State) : SameBytes s s.beginOp := .ite (.refl s) ⟨rfl, rfl, rfl, rfl⟩

theorem SameBytes.setAdapt (s : State) (v : Int) : SameBytes s (s.setAdapt v) := ⟨rfl, rfl, rfl, rfl⟩

theorem SameBytes.fanFull (s : State) : SameBytes s s.fanFull := .ite ⟨rfl, rfl, rfl, rfl⟩ (.refl s)

theorem SameBytes.transmit (s : State) (p : Nat) (k : Packet) : SameBytes s (s.transmit p k) := by
  unfold State.transmit
  extract_lets fs u v
  have hu : SameBytes s u := by
    unfold u
    apply SameBytes.foldl
    exact fun _ _ => ⟨rfl, rfl, rfl, rfl⟩
  have hv : SameBytes s v := hu.trans ⟨rfl, rfl, rfl, rfl⟩
  cases k.held with
  | none => exact hv
  | some r => exact hv.trans ⟨rfl, rfl, rfl, rfl⟩

theorem SameBytes.pumpN (p n : Nat) : ∀ s : State, SameBytes s (s.pumpN p n) := by
  induction n with
  | zero => exact SameBytes.refl
  | succ n ih =>
    intro s
    unfold State.pumpN
    split
    · exact .refl s
    · split
      · exact .refl s
      · exact ((SameBytes.transmit _ p _).trans (ih _)).after rfl rfl rfl rfl

theorem SameBytes.sendPacket (s : State) (w0 w1 : Word) (slots : List (Slot × Bool)) :
    SameBytes s (s.sendPacket w0 w1 slots) := by
  unfold State.sendPacket
  split
  · exact (SameBytes.pumpN _ _ _).after rfl rfl rfl rfl
  · exact .refl s

/-! ## The quiet commands -/

/-- Whatever state a command answers holds the bytes of s. -/
def Quiet (s : State) (r : Res) : Prop := ∀ t, r = .next t → SameBytes s t

theorem Quiet.next {s t : State} (h : SameBytes s t) : Quiet s (.next t) :=
  fun _ e => Host.Outcome.next.inj e ▸ h

section
variable (s : State)

theorem execOpChange_quiet : Quiet s (execOpChange s) := .next (.ite (.beginOp s) (.refl s))

theorem execOpChangeComplete_quiet : Quiet s (execOpChangeComplete s) := by
  refine .next ?_
  split
  · exact .refl s
  · exact .ite ((SameBytes.beginOp _).after rfl rfl rfl rfl) ⟨rfl, rfl, rfl, rfl⟩

theorem execDroopAlarm_quiet : Quiet s (execDroopAlarm s) := .next (.ite ⟨rfl, rfl, rfl, rfl⟩ (.refl s))

theorem execAdaptTick_quiet (slack : Nat) : Quiet s (execAdaptTick slack s) := by
  refine .next (.ite (.refl s) ?_)
  extract_lets u v w lo hi a
  have hv : SameBytes s v := by
    unfold v
    split
    · exact ⟨rfl, rfl, rfl, rfl⟩
    · exact ⟨rfl, rfl, rfl, rfl⟩
  have hw : SameBytes s w := hv.trans ⟨rfl, rfl, rfl, rfl⟩
  exact .ite (hw.trans (.setAdapt w _)) (.ite (hw.trans (.setAdapt w _)) hw)

theorem execFanStart_quiet : Quiet s (execFanStart s) :=
  .next (.ite (.refl s) (.ite ((SameBytes.fanFull _).after rfl rfl rfl rfl)
    (.ite ((SameBytes.fanFull _).after rfl rfl rfl rfl) (.refl s))))

theorem execAuxDetect_quiet (v : Bool) : Quiet s (execAuxDetect v s) := .next (.ite ⟨rfl, rfl, rfl, rfl⟩ (.refl s))

theorem execV12bUndervoltage_quiet (v : Bool) : Quiet s (execV12bUndervoltage v s) := .next ⟨rfl, rfl, rfl, rfl⟩

theorem execPowerGoodRetry_quiet : Quiet s (execPowerGoodRetry s) := by
  refine .next ?_
  split
  · exact .ite (.refl s) ⟨rfl, rfl, rfl, rfl⟩
  · exact .refl s

theorem execLdQosInterval_quiet : Quiet s (execLdQosInterval s) := .next ⟨rfl, rfl, rfl, rfl⟩

theorem execGetTimestamp_quiet (req : Nat) : Quiet s (execGetTimestamp req s) :=
  .next (.ite ⟨rfl, rfl, rfl, rfl⟩ (.refl s))

theorem execGetEventRecords_quiet (req log : Nat) : Quiet s (execGetEventRecords req log s) :=
  .next (.ite (.ite ⟨rfl, rfl, rfl, rfl⟩ ⟨rfl, rfl, rfl, rfl⟩) (.refl s))

theorem execGetPoisonList_quiet (req dpa len : Nat) : Quiet s (execGetPoisonList req dpa len s) :=
  .next (.ite ⟨rfl, rfl, rfl, rfl⟩ (.refl s))

theorem execSetEndpointId_quiet (ep eid : Nat) : Quiet s (execSetEndpointId ep eid s) :=
  .next (.ite ⟨rfl, rfl, rfl, rfl⟩ (.refl s))

theorem execSyncAck_quiet (p : Nat) (e : Bool) : Quiet s (execSyncAck p e s) := .next (.ite ⟨rfl, rfl, rfl, rfl⟩ (.refl s))

theorem execCredSyncResend_quiet (p : Nat) : Quiet s (execCredSyncResend p s) := by
  refine .next ?_
  split
  · exact .ite ⟨rfl, rfl, rfl, rfl⟩ (.refl s)
  · exact .refl s

theorem execDbgAccessTimeout_quiet : Quiet s (execDbgAccessTimeout s) := by
  refine .next ?_
  split
  · exact ⟨rfl, rfl, rfl, rfl⟩
  · exact .refl s

theorem execRresvRetry_quiet (unit tag : Nat) : Quiet s (execRresvRetry unit tag s) := by
  refine .next ?_
  split
  · exact .refl s
  · exact (SameBytes.sendPacket _ _ _ _).after rfl rfl rfl rfl

end

/-- Settles O14: a store and a fill of DRAM leave what lies outside them; each quiet command by its own lemma. -/
theorem memoryFrames : Obligations.MemoryFrames := by
  unfold Obligations.MemoryFrames
  refine ⟨fun x s0 s a n p b v poison hr hp hfree hb => ?store, fun s st a b d n => State.rdByte_memFill_dram n,
    fun s t c req a b v hc he => ?quiet⟩
  case store =>
    rw [X.store_dram_free hr hp hfree]
    exact State.rdByte_narrowWrite_ne s v poison hb
  case quiet =>
    have hquiet : Quiet s (exec c s) := by
      obtain rfl | rfl | rfl | rfl | rfl | rfl | rfl | rfl | rfl | rfl | rfl | rfl | rfl | rfl | rfl | rfl | rfl := hc
      · exact execOpChange_quiet s
      · exact execOpChangeComplete_quiet s
      · exact execDroopAlarm_quiet s
      · exact execAdaptTick_quiet s a
      · exact execFanStart_quiet s
      · exact execAuxDetect_quiet s v
      · exact execV12bUndervoltage_quiet s v
      · exact execPowerGoodRetry_quiet s
      · exact execLdQosInterval_quiet s
      · exact execGetTimestamp_quiet s req
      · exact execGetEventRecords_quiet s req a
      · exact execGetPoisonList_quiet s req a b
      · exact execSetEndpointId_quiet s a b
      · exact execSyncAck_quiet s a v
      · exact execCredSyncResend_quiet s a
      · exact execDbgAccessTimeout_quiet s
      · exact execRresvRetry_quiet s a b
    exact fun x => (hquiet t he).reads x

end Sys2Proof.Machine
end

