-- ==== Sys2Proof/Proofs/MemoryErrors.lean ====
section
/-! PROOFS. Errors in memories and the scrubbers (O28). -/

namespace Sys2Proof.Machine

open Sys2Proof

/-! ## What a record of an error leaves (R323, R679) -/

/-- From s to t the bytes with their poison stay, and so do the scrubbers, the coherence machine, the Stage, the power
and the number of resets. -/
structure OnlyRecords (s t : State) : Prop where
  bytes  : SameBytes s t
  scrub  : t.scrub = s.scrub
  dcoh   : t.dcoh = s.dcoh
  stage  : t.stage = s.stage
  pw     : t.pw = s.pw
  resets : t.ras.resets = s.ras.resets

theorem OnlyRecords.refl (s : State) : OnlyRecords s s := ⟨.refl s, rfl, rfl, rfl, rfl, rfl⟩

theorem OnlyRecords.trans {s t u : State} (h : OnlyRecords s t) (k : OnlyRecords t u) : OnlyRecords s u :=
  ⟨h.bytes.trans k.bytes, k.scrub.trans h.scrub, k.dcoh.trans h.dcoh, k.stage.trans h.stage, k.pw.trans h.pw,
    k.resets.trans h.resets⟩

theorem OnlyRecords.ite {s t u : State} {c : Prop} [Decidable c] (ht : OnlyRecords s t) (hu : OnlyRecords s u) :
    OnlyRecords s (if c then t else u) := by
  split
  · exact ht
  · exact hu

theorem OnlyRecords.setReg (s : State) (r : Reg) (i : Nat) (v : Word) : OnlyRecords s (s.setReg r i v) :=
  ⟨⟨rfl, rfl, rfl, rfl⟩, rfl, rfl, rfl, rfl, rfl⟩

theorem OnlyRecords.addF (s : State) (r : Reg) (i lo n v : Nat) : OnlyRecords s (s.addF r i lo n v) := .setReg s r i _

theorem OnlyRecords.putLog (k : Nat) (l : List Word) : ∀ (s : State) (w : Nat), OnlyRecords s (s.putLog k w l) := by
  induction l with
  | nil => exact fun s w => .refl s
  | cons v l ih => exact fun s w => (OnlyRecords.setReg s .rasLogEntry (w + 8 * k) v).trans (ih _ _)

theorem OnlyRecords.msix (s : State) (req vec : Nat) : OnlyRecords s (s.msix req vec) :=
  .ite ⟨⟨rfl, rfl, rfl, rfl⟩, rfl, rfl, rfl, rfl, rfl⟩ (.refl s)

theorem OnlyRecords.withRas {s t : State} (h : OnlyRecords s t) {r : Ras} (hr : r.resets = t.ras.resets) :
    OnlyRecords s { t with ras := r } :=
  ⟨⟨h.bytes.mem, h.bytes.dbase, h.bytes.poison, h.bytes.dpoison⟩, h.scrub, h.dcoh, h.stage, h.pw, hr.trans h.resets⟩

theorem OnlyRecords.posted (s : State) (req : Nat) (m : Mailbox) (o : Out) :
    OnlyRecords s ((s.setMbox req m).emit o) :=
  ⟨⟨rfl, rfl, rfl, rfl⟩, rfl, rfl, rfl, rfl, rfl⟩

theorem OnlyRecords.newEntry (s : State) (e : Entry) : OnlyRecords s (s.newEntry e) := by
  unfold State.newEntry
  extract_lets seq k u v w ras x
  have hu : OnlyRecords s u := .ite (.addF s _ _ _ _ _) (.refl s)
  have hw : OnlyRecords s w := (hu.trans (.putLog _ _ u 0)).trans (.setReg v _ _ _)
  have hx : OnlyRecords s x := hw.withRas rfl
  exact .ite (hx.trans (.msix x _ _)) hx

theorem OnlyRecords.logFault (s : State) (e : Entry) : OnlyRecords s (s.logFault e) := by
  unfold State.logFault
  extract_lets u
  have hu : OnlyRecords s u := .addF s _ _ _ _ _
  split
  · exact .ite (hu.trans (.addF u _ _ _ _ _)) (hu.trans (.newEntry u e))
  · exact hu.trans (.newEntry u e)

theorem OnlyRecords.advise (s : State) (c : FaultCode) (unit detail addr : Nat) :
    OnlyRecords s (s.advise c unit detail addr) := .logFault s _

theorem OnlyRecords.postEvent (log : Nat) (r : EventRec) (reqs : List Nat) :
    ∀ s : State, OnlyRecords s (s.postEvent log r reqs) := by
  induction reqs with
  | nil => exact OnlyRecords.refl
  | cons req reqs ih =>
    intro s
    exact (OnlyRecords.posted s req _ _).trans (ih _)

theorem OnlyRecords.recordUe (s : State) (c : Codeword) (finder : Nat) (latent : Bool) :
    OnlyRecords s (s.recordUe c finder latent) := by
  unfold State.recordUe
  extract_lets w u v x
  have hu : OnlyRecords s u := by
    unfold u State.countUe
    extract_lets l m
    have hl : OnlyRecords s l := .ite (.addF s _ _ _ _ _) (.refl s)
    have hm : OnlyRecords s m := hl.trans (.addF l _ _ _ _ _)
    exact .ite ((hl.trans (.addF l _ _ _ _ _)).trans (.addF _ _ _ _ _ _)) (.ite (hm.trans (.addF m _ _ _ _ _)) hm)
  have hv : OnlyRecords s v := .ite hu ((hu.trans (.setReg u _ _ _)).trans (.setReg _ _ _ _))
  have hx : OnlyRecords s x := hv.trans (.logFault v _)
  exact .ite (hx.trans (.postEvent _ _ _ x)) hx

/-! ## Errors that are found (R323, R325, R813) -/

/-- A codeword of byte memory found uncorrectable that is marked already changes nothing. -/
theorem State.foundBad_marked {s : State} {c : Codeword} {key : Nat} (finder : Nat) (latent : Bool) (hmem : c.mem < 8)
    (hkey : c.key = some key) (hp : s.poisonAt key = true) : s.foundBad c finder latent = s := by
  have hbyte : c.mem ≠ 8 := Nat.ne_of_lt hmem
  simp only [State.foundBad, hbyte, hkey, hp, if_false, if_true]

/-- One that is not is poisoned, whatever its data. -/
theorem State.foundBad_poisons {s : State} {c : Codeword} {key : Nat} (finder : Nat) (latent : Bool) (hmem : c.mem < 8)
    (hkey : c.key = some key) (hp : s.poisonAt key = false) : (s.foundBad c finder latent).poisonAt key = true := by
  have hbyte : c.mem ≠ 8 := Nat.ne_of_lt hmem
  have hfound : s.foundBad c finder latent = (s.markWord c key).recordUe c finder latent := by
    simp only [State.foundBad, hbyte, hkey, hp, Bool.false_eq_true, if_false]
  rw [hfound, ((OnlyRecords.recordUe (s.markWord c key) c finder latent).bytes.reads key).2]
  exact State.poisonAt_setPoison_self _ key true

/-- A pass that was not late is marked late (R339, R341). -/
theorem State.scrubLate_late {s : State} {u : Nat} (interval : Nat) (dram : Bool) (h : KSet.has s.scrub.late u = false) :
    (s.scrubLate u interval dram).scrub.late = KSet.add u s.scrub.late := by
  unfold State.scrubLate
  rw [if_neg (Bool.eq_false_iff.mp h)]
  extract_lets v w x
  rw [(OnlyRecords.advise (x.setF .scrubStatus 0 (if dram then 49 else 48) 1 1) .scrubLate 4 (bit dram) 0).scrub]
  rfl

section
variable {s : State} (halive : s.alive = true)
include halive

theorem exec_eccWriteback_corrected (mem who addr finder : Nat) :
    exec (.eccWriteback mem who addr finder false none) s = .next (s.foundGood ⟨mem, who, addr⟩) := by
  change execEccWriteback mem who addr finder false none s = _
  simp only [execEccWriteback, halive, Bool.not_true, Bool.not_false, Bool.false_eq_true, if_false, if_true]

theorem exec_eccWriteback_uncorrectable {mem : Nat} (who addr finder : Nat) (hmem : mem ≤ 8) :
    exec (.eccWriteback mem who addr finder true none) s = .next (s.foundBad ⟨mem, who, addr⟩ finder false) := by
  have h9 : mem ≠ 9 := by omega
  have h11 : mem ≠ 11 := by omega
  have h12 : mem ≠ 12 := by omega
  change execEccWriteback mem who addr finder true none s = _
  simp only [execEccWriteback, halive, h9, h11, h12, Bool.not_true, Bool.false_eq_true, if_false]

/-! ## Scrubbers (R337 to R341) -/

/-- An on-chip scrubber that may read its line deals with its errors, moves on and shows the passes (R338). -/
theorem exec_onchipScrub_reads {u : Nat} (found : List (Nat × Bool)) (hon : s.f .eccCfg 0 0 1 = 1) (hu : u ≤ 36)
    (hread : s.scrubSkips u (Tbl.get 0 s.scrub.pos u) = false) :
    let v := ((found.filter fun e => decide (e.1 < 32)).foldl
      (fun t e => t.scrubFinds (scrubWord u (Tbl.get 0 s.scrub.pos u) e.1) e.2) s).scrubOn u (scrubLines u)
    exec (.onchipScrub u found) s = .next (v.setF .scrubStatus 0 0 32 (v.scrub.least (List.range 37))) := by
  have hguard : (!s.alive || decide (s.f .eccCfg 0 0 1 = 0) || decide (36 < u)) = false := by
    simp [halive, hon, hu]
  change execOnchipScrub u found s = _
  simp only [execOnchipScrub, hguard, hread, Bool.false_and, Bool.false_eq_true, if_false]

/-- So does a channel's patrol of a line whose block is not being filled (R341). -/
theorem exec_dramPatrol_reads {ch : Nat} (found : List (Nat × Bool)) (hon : s.f .eccCfg 0 1 1 = 1) (hch : ch < 32)
    (hstage : s.stageNow ≠ 0) (hfill : s.filling (patrolLine ch (Tbl.get 0 s.scrub.pos (64 + ch)) / blockSize) = false) :
    let t := (found.filter fun e => decide (e.1 < 4)).foldl
      (fun t e => t.scrubFinds ⟨7, 0, patrolLine ch (Tbl.get 0 s.scrub.pos (64 + ch)) + 64 * e.1⟩ e.2) s
    let v := t.scrubOn (64 + ch) t.channelLines
    exec (.dramPatrol ch found) s =
      .next (v.setF .scrubStatus 0 32 16 (v.scrub.least ((List.range 32).map (64 + ·)))) := by
  have hguard : (!s.alive || decide (s.f .eccCfg 0 1 1 = 0) || decide (31 < ch) || decide (s.stageNow = 0)) = false := by
    simp [halive, hon, hstage, Nat.le_of_lt_succ hch]
  change execDramPatrol ch found s = _
  simp only [execDramPatrol, hguard, hfill, Bool.false_eq_true, if_false]

theorem exec_scrubLate_marks {u : Nat} (hon : s.f .eccCfg 0 0 1 = 1) (hu : u < 37)
    (h : KSet.has s.scrub.late u = false) :
    ∃ t, exec (.scrubLate u) s = .next t ∧ t.scrub.late = KSet.add u s.scrub.late := by
  have hguard : (s.alive && s.f .eccCfg 0 0 1 == 1 && decide (u < 37)) = true := by simp [halive, hon, hu]
  refine ⟨_, ?_, State.scrubLate_late (max 1 (s.f .eccCfg 0 16 16) * 10 ^ 7) false h⟩
  exact congrArg Host.Outcome.next (if_pos hguard)

theorem exec_dramPatrolLate_marks {ch : Nat} (hon : s.f .eccCfg 0 1 1 = 1) (hch : ch < 32)
    (h : KSet.has s.scrub.late (64 + ch) = false) :
    ∃ t, exec (.dramPatrolLate ch) s = .next t ∧ t.scrub.late = KSet.add (64 + ch) s.scrub.late := by
  have hguard : (s.alive && s.f .eccCfg 0 1 1 == 1 && decide (ch < 32)) = true := by simp [halive, hon, hch]
  refine ⟨_, ?_, State.scrubLate_late (max 1 (s.f .eccCfg 0 32 8) * 3600 * 10 ^ 9) true h⟩
  exact congrArg Host.Outcome.next (if_pos hguard)

end

/-- Settles O28: each command past its guard; the record of an error leaves the mark that the error has set. -/
theorem memoryErrors : Obligations.MemoryErrors := by
  unfold Obligations.MemoryErrors
  refine ⟨fun s halive => ⟨?corrected, ?uncorrectable, ?scrub, ?patrol, ?late, ?patrolLate⟩,
    fun s c finder key latent hmem hkey =>
      ⟨State.foundBad_marked finder latent hmem hkey, State.foundBad_poisons finder latent hmem hkey⟩⟩
  case corrected => exact exec_eccWriteback_corrected halive
  case uncorrectable => exact fun mem who addr finder => exec_eccWriteback_uncorrectable halive who addr finder
  case scrub => exact fun u found => exec_onchipScrub_reads halive found
  case patrol => exact fun ch found hon hch hstage hfill =>
    exec_dramPatrol_reads halive found hon hch hstage hfill
  case late => exact fun u => exec_scrubLate_marks halive
  case patrolLate => exact fun ch => exec_dramPatrolLate_marks halive

end Sys2Proof.Machine
end

