-- ==== Sys2Proof/Proofs/Rings.lean ====
section
/-! PROOFS. Rings (O17). -/

namespace Sys2Proof.Machine

open Sys2Proof

/-! ## Where a ring operation goes, and a fill -/

section
variable {x : X} {s : State} {r : Nat}

/-- An operation at an enabled ring, with nothing poisoned, goes to the ring (R269). -/
theorem X.ringAt_enabled {poison : Bool} (far : Bool) (go : Nat → State) (remote : Nat → Word → State)
    (ha : x.a.2 = false) (hp : poison = false) (hr : s.ringRef x.core x.t.stall x.a.1 = .ring r) (hon : s.ringOn r = true) :
    x.ringAt s poison far go remote = go r := by
  simp only [X.ringAt, ha, hp, hr, hon, Bool.or_self, Bool.false_eq_true, if_false, if_true]

theorem X.ownRing_of_core (h : ringCore r = some x.core) : x.ownRing r = true := by
  rw [X.ownRing, h]; exact beq_self_eq_true _

theorem X.fillRing_noCredit {k : Nat} (v : Word) (p : Bool) (done : State → State)
    (h : s.holdsCredit r k (some x.t.id) 0 = false) : x.fillRing s r k v p done = x.fault s .noCredit := by
  rw [X.fillRing, h]; rfl

/-- A fill of an empty slot of the own core's memory (R278). -/
theorem X.fillRing_empty {k : Nat} (v : Word) (p : Bool) (done : State → State)
    (hcredit : s.holdsCredit r k (some x.t.id) 0 = true) (hcore : ringCore r = some x.core)
    (hempty : s.tagAt (cmBase x.core + s.ringAddr r k) = false)
    (hok : (x.touch s (s.ringAddr r k + 8 * x.imm4) true).1 = .ok) :
    x.fillRing s r k v p done = done ((((x.touch s (s.ringAddr r k + 8 * x.imm4) true).2.narrowWrite
      (cmBase x.core + (s.ringAddr r k + 8 * x.imm4)) 8 v p).putTag (cmBase x.core + s.ringAddr r k) true).spendCredit r k) := by
  simp only [X.fillRing, hcredit, hcore, hempty, Bool.not_true, Bool.false_eq_true, not_true, ne_eq, if_false]
  rcases hx : x.touch s (s.ringAddr r k + 8 * x.imm4) true with ⟨e, u⟩
  obtain rfl : e = .ok := by simpa [hx] using hok
  rfl

end

/-! ## Ring instructions at an enabled ring of the own core (R273 to R283) -/

section
variable {i : Issue} {s : State} {t : Task} {r : Nat}

/-- What an instruction does at an enabled ring when none of its operands is poisoned. -/
theorem exec_of_ringAt {c : Instr} {o : Op} {poison : X → Bool} {far : Bool} {go : X → State → Nat → State}
    {remote : X → State → Nat → Word → State} {u : State}
    (hc : exec c s = .next (issueOf i o (fun x t => x.ringAt t (poison x) far (go x t) (remote x t)) s))
    (h : Issues i o s t) (hring : AtRing i s t r) (hp : poison (issueX i s t) = false)
    (hgo : go (issueX i s t) (issueTook i s) r = u) : exec c s = .next u := by
  obtain ⟨ha, href, hon⟩ := hring
  exact exec_of_issueOf hc ((X.ringAt_enabled (x := issueX i s t) far _ _ ha hp href hon).trans hgo) h

theorem exec_ringResv_granted (h : Issues i .ringResv s t) (hring : AtRing i s t r) (hown : ringCore r = some i.core)
    (hgrant : (issueTook i s).canGrant r (ib i.word 0 4 + 1) = true) :
    exec (.ringResv i) s = .next ((issueX i s t).ret ((issueTook i s).grantCredits r (ib i.word 0 4 + 1) (some t.id) 0)
      (BitVec.ofNat 64 ((issueTook i s).ringResv r)) false) := by
  refine exec_of_ringAt (poison := fun _ => false) rfl h hring rfl ?_
  exact (if_pos hgrant).trans (if_pos (X.ownRing_of_core (x := issueX i s t) hown))

theorem exec_ringResv_waits (h : Issues i .ringResv s t) (hring : AtRing i s t r)
    (hgrant : (issueTook i s).canGrant r (ib i.word 0 4 + 1) = false) :
    exec (.ringResv i) s = .next (((issueX i s t).wait (issueTook i s) (.resv r
      (((issueTook i s).ctx i.core i.ctx).since.getD (issueTook i s).now))).waitResv r (ib i.word 0 4 + 1)
        (.ctx i.core i.ctx) (some t.id)) :=
  exec_of_ringAt (poison := fun _ => false) rfl h hring rfl (if_neg (Bool.eq_false_iff.mp hgrant))

theorem exec_ringPush_granted (h : Issues i .ringPush s t) (hring : AtRing i s t r) (hown : ringCore r = some i.core)
    (hpush : (s.ctx i.core i.ctx).push = none) (hgrant : (issueTook i s).canGrant r 1 = true) :
    let x := issueX i s t
    let u := issueTook i s
    exec (.ringPush i) s = .next (x.fillRing ((u.grantCredits r 1 (some t.id) 0).updCtx i.core i.ctx
      fun c => { c with push := some (r, u.ringResv r) }) r (u.ringResv r) x.b.1 x.b.2
        fun v => x.ret (v.updCtx i.core i.ctx fun c => { c with push := none }) (BitVec.ofNat 64 (u.ringResv r)) false) := by
  refine exec_of_ringAt (poison := fun _ => false) rfl h hring rfl ?_
  have hpush' : (issueX i s t).k.push = none := hpush
  have hfar : (!(issueX i s t).ownRing r) = false := by rw [X.ownRing_of_core (x := issueX i s t) hown]; rfl
  simp only [hpush', hgrant, hfar, if_true, Bool.false_eq_true, if_false]
  rfl

/-- POP of the first waiter in order whose slot is full and whose bank is free (R279). -/
theorem exec_ringPop_full (h : Issues i .ringPop s t) (hring : AtRing i s t r) (hown : ringCore r = some i.core)
    (hfirst : (issueTook i s).firstPop r i.core i.ctx = true)
    (hfull : (issueTook i s).tagAt ((issueTook i s).ringKey r ((issueTook i s).ringHead r)) = true)
    (hok : ((issueX i s t).touch ((issueTook i s).dropPop r i.core i.ctx)
      ((issueTook i s).ringAddr r ((issueTook i s).ringHead r) + 8 * ib i.word 0 4) false).1 = .ok) :
    let u := issueTook i s
    let adr := u.ringAddr r (u.ringHead r) + 8 * ib i.word 0 4
    let v := ((issueX i s t).touch (u.dropPop r i.core i.ctx) adr false).2
    exec (.ringPop i) s = .next ((issueX i s t).ret ((v.putTag (u.ringKey r (u.ringHead r)) false).advanceHead r)
      (extend 8 false (BitVec.ofNat 64 (v.rdNat (cmBase i.core + adr) 8))) (v.poisonAt (cmBase i.core + adr))) := by
  refine exec_of_ringAt (poison := fun _ => false) rfl h hring rfl ?_
  have hboth : ((issueTook i s).firstPop r (issueX i s t).core (issueX i s t).ctx
      && (issueTook i s).tagAt ((issueTook i s).ringKey r ((issueTook i s).ringHead r))) = true :=
    Bool.and_eq_true_iff.mpr ⟨hfirst, hfull⟩
  simp only [hown, issueX, ne_eq, not_true, if_false]
  exact (if_pos hboth).trans (X.localLoad_ok (x := issueX i s t) false _ hok)

theorem exec_ringPeek_full (h : Issues i .ringPeek s t) (hring : AtRing i s t r) (hown : ringCore r = some i.core)
    (hb : ((s.ctx i.core i.ctx).rg (iRs2 i.word)).2 = false) :
    let u := issueTook i s
    let o := u.ringAddr r ((u.ringHead r + ((s.ctx i.core i.ctx).rg (iRs2 i.word)).1.toNat % 16) % 2 ^ 32)
    u.tagAt (cmBase i.core + o) = true →
    exec (.ringPeek i) s = .next ((issueX i s t).localLoad u (o + 8 * ib i.word 0 4) 8 false id) := by
  intro u o hfull
  refine exec_of_ringAt (poison := fun x => x.b.2) rfl h hring hb ?_
  simp only [hown, issueX, ne_eq, not_true, if_false]
  exact if_pos hfull

theorem exec_ringState_own (h : Issues i .ringState s t) (hring : AtRing i s t r) (hown : ringCore r = some i.core) :
    let u := issueTook i s
    exec (.ringState i) s = .next ((issueX i s t).ret u
      (BitVec.ofNat 64 (u.ringResv r * 2 ^ 32 + u.ringHead r)) false) := by
  refine exec_of_ringAt (poison := fun _ => false) rfl h hring rfl ?_
  exact if_pos (X.ownRing_of_core (x := issueX i s t) hown)

end

/-! ## Grants and limits (R274, R284) -/

section
variable {s : State}

/-- The oldest waiting reservation of a local party is granted once the credits allow (R274). -/
theorem exec_ringResvGrant_local {r : Nat} {q : RWait} {rest : List RWait} (hq : (s.ring r).waiters = q :: rest)
    (hn : q.n ≤ s.ringCredits r) (hon : s.ringOn r = true) (hlocal : ∀ core h, q.who ≠ .remote core h) :
    exec (.ringResvGrant r) s = .next (((s.setRing r { s.ring r with waiters := rest }).grantCredits r q.n q.task 0).granted
      q r (s.ringResv r)) := by
  have hguard : (decide (s.ringCredits r < q.n) || !s.ringOn r) = false := by simp [hn, hon]
  change Host.Outcome.next (s.grantNext r) = _
  simp only [State.grantNext, hq, hguard, Bool.false_eq_true, if_false]

variable {t : Task} {c x : Nat} (ht : s.taskOn c = some t) (hlive : t.phase.live = true) (hret : (s.ctx c x).ret = none)
include ht hlive hret

theorem exec_creditTimeout_waiting {r since : Nat} (hwait : (s.ctx c x).wait = .resv r since) :
    let u := (s.notBefore (since + s.tagLimit t.stall)).dropResv r (.ctx c x)
    exec (.creditTimeout c 0 x) s = .next (u.taskFault t.id .creditTimeout 0 c (some x) (s.ctx c x).pc
      (u.fetch c (s.ctx c x).pc) 0 ((s.ctx c x).rg (iRs1 (u.fetch c (s.ctx c x).pc))).1.toNat) := by
  change execCreditTimeout c 0 x s = _
  simp only [execCreditTimeout, ht, hlive, hwait, hret, Bool.not_true, Bool.false_eq_true, if_false, if_true]

theorem exec_tagTimeout_waiting {key since : Nat} (hwait : (s.ctx c x).wait = .tag key since) :
    let u := s.notBefore (since + s.tagLimit t.stall)
    exec (.tagTimeout c 0 x) s = .next (u.taskFault t.id .tagTimeout 0 c (some x) (s.ctx c x).pc
      (s.fetch c (s.ctx c x).pc) (devAddr c key) (bit (u.tagAt key))) := by
  change execTagTimeout c 0 x s = _
  simp only [execTagTimeout, State.ctxTagTimeout, ht, hlive, hwait, hret, Bool.not_true, Bool.false_eq_true, if_false,
    if_true, Option.isSome_none]

end

/-- Settles O17: every instruction past the checks of its ring; a fill by its credit; the grant and the limits. -/
theorem ringCommands : Obligations.RingCommands := by
  unfold Obligations.RingCommands
  refine ⟨?instructions, fun x s r k v p done => ⟨X.fillRing_noCredit v p done, X.fillRing_empty v p done⟩,
    fun s t c x => ⟨?grant, ?credit, ?tag⟩⟩
  case instructions =>
    intro i s t r x u k d b w head key adr hring hown
    refine ⟨?resv, ?resvWaits, ?fill, ?push, ?pop, ?peek, ?state⟩
    case resv => exact fun h => exec_ringResv_granted h hring hown
    case resvWaits => exact fun h => exec_ringResv_waits h hring
    case fill => exact fun h hb => exec_of_ringAt (poison := fun x => x.b.2) rfl h hring hb rfl
    case push => exact fun h => exec_ringPush_granted h hring hown
    case pop => exact fun h => exec_ringPop_full h hring hown
    case peek => exact fun h hb => exec_ringPeek_full h hring hown hb
    case state => exact fun h => exec_ringState_own h hring hown
  case grant => exact fun r q rest => exec_ringResvGrant_local
  case credit => exact fun ht hlive hret r since => exec_creditTimeout_waiting ht hlive hret
  case tag => exact fun ht hlive hret key since => exec_tagTimeout_waiting ht hlive hret

end Sys2Proof.Machine
end

