-- ==== Sys2Proof/Proofs/Engines.lean ====
section
/-! PROOFS. Engine instructions entering their queue, and the lanes and functions of the vector engine (O20, O21). -/

namespace Sys2Proof.Machine

open Sys2Proof

/-! ## Issue into a queue (R343, R391, R392) -/

/-- The operation that an issue captures: its operands with their poison, its place and its control registers. -/
def capturedOp (i : Issue) (s : State) : EOp :=
  let k := s.ctx i.core i.ctx
  { ctx := i.ctx, pc := k.pc, word := i.word, ga := (k.rg (iGA i.word)).1, gb := (k.rg (iGB i.word)).1
    gc := (k.rg (iGC i.word)).1, gap := (k.rg (iGA i.word)).2, gbp := (k.rg (iGB i.word)).2, gcp := (k.rg (iGC i.word)).2
    tick := (issueTook i s).cx.issued, c4 := k.c4, c5 := k.c5, c6 := k.c6, done := 0, since := none, began := false }

/-- The state with that operation at the end of its queue. -/
def enqueued (i : Issue) (s : State) : State :=
  let u := issueTook i s
  let e := queueOf i.word
  let v := u.setCore i.core ((u.core i.core).setQueue e ((u.core i.core).queue e ++ [capturedOp i s]))
  { v with cx := { v.cx with issued := v.cx.issued + 1 } }

/-- A used address operand is poisoned (R391). -/
def operandBad (i : Issue) (o : Op) (s : State) : Bool :=
  let used := addressOperands o i.word
  (used.1 && (capturedOp i s).gap) || (used.2.1 && (capturedOp i s).gbp) || (used.2.2 && (capturedOp i s).gcp)

/-- ENGINE_ISSUE of an instruction that issues, by the room in its queue and the poison of its operands. -/
theorem exec_engineIssue_issues {i : Issue} {s : State} {t : Task} {o : Op} (h : Issues i o s t)
    (hwide : isWide i.word = true) (hq : queueOf i.word ≠ 3) :
    exec (.engineIssue i) s = .next
      (if queuePlaces ≤ depth (((issueTook i s).core i.core).queue (queueOf i.word)) then s
      else if operandBad i o s = true then (issueX i s t).fault (issueTook i s) .poisonConsumed
      else (issueX i s t).next (enqueued i s) id) := by
  have hop : decodeOp i.word = some o := h.2.2.2.2.2.2.2.2.2.1
  have hguard : (!isWide i.word || decide (queueOf i.word = 3)) = false := by simp [hwide, hq]
  change execEngineIssue i s = _
  simp only [execEngineIssue, hop, hguard, Bool.false_eq_true, if_false]
  exact congrArg Host.Outcome.next (issueOf_issues _ h)

/-- Settles O20: the three cases of an issue, by room and by poison. -/
theorem engineIssue : Obligations.EngineIssue := by
  unfold Obligations.EngineIssue
  intro i s t o x u k a b c e used bad op v h hwide hq
  have hcases := exec_engineIssue_issues h hwide hq
  refine ⟨fun hroom hgood => ?enters, fun hfull => ?full, fun hroom hbad => ?poisoned⟩
  case enters => exact hcases.trans (congrArg _ ((if_neg (Nat.not_le.mpr hroom)).trans (if_neg (Bool.eq_false_iff.mp hgood))))
  case full => exact hcases.trans (congrArg _ (if_pos hfull))
  case poisoned => exact hcases.trans (congrArg _ ((if_neg (Nat.not_le.mpr hroom)).trans (if_pos hbad)))

/-! ## The instruction at the head of a queue (R393) -/

section
variable {c core : Nat} {instr : Instr} {op : Op} {meet : Bool} {s : State} {t : Task} {o : EOp} {q : List EOp}

theorem exec_of_engineOp {eng : Nat} {run : E → State → State} {u : State}
    (hc : exec instr s = .next (engineOp core eng op meet run s)) (h : Heads core eng op s t o q)
    (hu : run (headE core eng t o meet) (if eng = 1 then vxeCounted core s else s) = u) : exec instr s = .next u := by
  rw [hc, engineOp_heads run h, hu]

/-- The vector engine counts the instruction (R394). -/
theorem exec_of_vxeOp {run : E → State → State} {u : State} (hc : exec instr s = .next (engineOp core 1 op meet run s))
    (h : Heads core 1 op s t o q) (hu : run (headE core 1 t o meet) (vxeCounted core s) = u) : exec instr s = .next u :=
  exec_of_engineOp hc h hu

/-! ## Lane operations (R409 to R413) -/

variable (h : Heads c 1 op s t o q)
include h

theorem exec_of_vUn {f : Bool → Nat → Nat} (hc : exec instr s = .next (vUn c op f s)) :
    let e := headE c 1 t o false
    let u := vxeCounted c s
    exec instr s = .next (e.put u (ofLanes fun n => f (iT o.word) (lane (e.va u).1 n)) (e.va u).2) :=
  exec_of_vxeOp hc h rfl

theorem exec_of_vBin {f : Bool → Nat → Nat → Nat} (hc : exec instr s = .next (vBin c op f s)) :
    let e := headE c 1 t o false
    let u := vxeCounted c s
    exec instr s = .next (e.put u (ofLanes fun n => f (iT o.word) (lane (e.va u).1 n) (lane (e.vb u).1 n))
      ((e.va u).2 ||| (e.vb u).2)) :=
  exec_of_vxeOp hc h rfl

theorem exec_of_vTri {f : Bool → Nat → Nat → Nat → Nat} (hc : exec instr s = .next (vTri c op f s)) :
    let e := headE c 1 t o false
    let u := vxeCounted c s
    exec instr s = .next (e.put u
      (ofLanes fun n => f (iT o.word) (lane (e.va u).1 n) (lane (e.vb u).1 n) (lane (e.vc u).1 n))
      ((e.va u).2 ||| (e.vb u).2 ||| (e.vc u).2)) :=
  exec_of_vxeOp hc h rfl

/-- A reduction of segments of 2 to 64 lanes; no other size is defined (R412). -/
theorem exec_of_vReduce {f : Bool → Nat → Nat → Nat} (hc : exec instr s = .next (vReduce c op f s)) :
    let e := headE c 1 t o false
    let u := vxeCounted c s
    let m := iImm22 o.word
    (1 ≤ m % 8 → m % 8 ≤ 6 → exec instr s = .next (e.put u
      (ofLanes fun j => nth (tree (f (iT o.word)) (m % 8) ((List.range 64).map (lane (e.va u).1))) (j / 2 ^ (m % 8)))
      (segmentPoison (e.va u).2 (m % 8))))
    ∧ ((m % 8 = 0 ∨ m % 8 = 7) → exec instr s = .next (e.fault u .undefOperand)) := by
  intro e u m
  refine ⟨fun hlow hhigh => exec_of_vxeOp hc h (if_neg ?_), fun hm => exec_of_vxeOp hc h (if_pos ?_)⟩
  · have hguard : (decide (m % 8 = 0) || decide (m % 8 = 7)) = false := by
      simp only [Bool.or_eq_false_iff, decide_eq_false_iff_not]
      omega
    exact Bool.eq_false_iff.mp hguard
  · have hguard : (decide (m % 8 = 0) || decide (m % 8 = 7)) = true := by simpa using hm
    exact hguard

/-- A function of FP32 lanes; it is not defined for INT32 (R413). -/
theorem exec_of_vFun {f : Num → Num} (hc : exec instr s = .next (vFun c op f s)) :
    let e := headE c 1 t o false
    let u := vxeCounted c s
    (iT o.word = true → exec instr s = .next (e.put u (ofLanes fun n => toF32 (f (ofF32 (lane (e.va u).1 n)))) (e.va u).2))
    ∧ (iT o.word = false → exec instr s = .next (e.fault u .undefOperand)) := by
  intro e u
  refine ⟨fun hT => exec_of_vxeOp hc h (if_neg ?_), fun hT => exec_of_vxeOp hc h (if_pos ?_)⟩
  · exact fun hn => Bool.false_ne_true ((Bool.not_eq_true' _ |>.mp hn).symm.trans hT)
  · exact (Bool.not_eq_true' _).mpr hT

end

/-! ## Rearrangement and quantisation (R416, R430) -/

/-- A mask of the words that a test picks is empty when it picks none. -/
theorem maskOfWords_eq_zero {p : Nat → Bool} (l : List Nat) (h : ∀ i, p i = false) :
    l.foldl (fun (m : Word32) i => if p i then m ||| (1 <<< i) else m) 0 = 0 := by
  induction l with
  | nil => rfl
  | cons i l ih => rw [List.foldl_cons, h i]; exact ih

theorem exec_vslide_heads {c : Nat} {s : State} {t : Task} {o : EOp} {q : List EOp} (h : Heads c 1 .vslide s t o q) :
    let e := headE c 1 t o false
    let u := vxeCounted c s
    ∃ p : Word32, exec (.vslide c) s = .next (e.put u ((e.va u).1 <<< (8 * (iImm22 o.word % 256))) p)
      ∧ ((e.va u).2 = 0 → p = 0) := by
  refine ⟨_, exec_of_vxeOp rfl h rfl, fun hp => maskOfWords_eq_zero (List.range 32) fun i => ?_⟩
  have hclear : ∀ n, ((headE c 1 t o false).va (vxeCounted c s)).2.toNat.testBit n = false := by
    rw [hp]; exact Nat.zero_testBit
  simp only [hclear, Bool.and_false, List.any_eq_false, Bool.false_eq_true, not_false_eq_true, implies_true]

/-- A float format's codes lie below a bound that its NaN and its largest magnitude lie below. -/
theorem FloatFmt.encode_lt {f : FloatFmt} {B : Nat} (k : Rnd) (x : Num) (hinf : f.inf = false) (hnan : f.nan.getD 0 < B)
    (hmax : f.signBit true + f.maxBits < B) : f.encode k false x < B := by
  have hsign : ∀ s n, n ≤ f.maxBits → f.signBit s + n < B := by
    intro s n hn
    have : f.signBit s ≤ f.signBit true := by cases s <;> simp [FloatFmt.signBit]
    omega
  have hovf : ∀ s, f.overflow false s < B := fun s => hsign s _ le_rfl
  have hclamp : ∀ s bits, (if f.maxBits < bits then f.overflow false s else f.signBit s + bits) < B := by
    intro s bits
    split
    · exact hovf s
    · next hle => exact hsign s bits (Nat.le_of_not_lt hle)
  cases x with
  | nan => exact hnan
  | inf s => simpa [FloatFmt.encode, hinf] using hovf s
  | fin s m e =>
    simp only [FloatFmt.encode]
    split
    · exact hsign s 0 (Nat.zero_le _)
    · exact hclamp s _

theorem intBits_lt (n : Nat) (i : Int) : intBits n i < 2 ^ n := by
  have hpos : (0 : Int) < 2 ^ n := by positivity
  have hlt := Int.emod_lt_of_pos i hpos
  exact (Int.toNat_lt (Int.emod_nonneg i hpos.ne')).mpr (by exact_mod_cast hlt)

/-- An element of an MX format is a byte at most. -/
theorem mxElement_lt (c : Nat) (k : Rnd) (x : Num) : mxElement c k x < 2 ^ 8 := by
  unfold mxElement
  split
  · exact intBits_lt 8 _
  · exact FloatFmt.encode_lt k x rfl (by decide) (by decide)
  · exact FloatFmt.encode_lt k x rfl (by decide) (by decide)
  · exact FloatFmt.encode_lt k x rfl (by decide) (by decide)
  · exact FloatFmt.encode_lt k x rfl (by decide) (by decide)

theorem fmtBits_le_of_isMx {c : Nat} (h : isMx c = true) : fmtBits c ≤ 8 := by
  simp only [isMx, Bool.and_eq_true, decide_eq_true_eq] at h
  obtain ⟨hlow, hhigh⟩ := h
  interval_cases c <;> decide

theorem mxZero_lt {c : Nat} (neg : Bool) (h : isMx c = true) : mxZero c neg < 2 ^ 8 := by
  have hbits := fmtBits_le_of_isMx h
  have hpow : 2 ^ (fmtBits c - 1) < 2 ^ 8 := Nat.pow_lt_pow_right (by norm_num) (by omega)
  unfold mxZero
  split
  · norm_num
  · split
    · exact hpow
    · norm_num

theorem E.quantise_lt (e : E) {c : Nat} (n0 : Nat) (v : VReg) (n : Nat) (h : isMx c = true) :
    (e.quantise c n0 v).2 n < 2 ^ 8 := by
  unfold E.quantise
  extract_lets x ls
  split
  · norm_num
  · split
    · exact mxZero_lt _ h
    · exact mxElement_lt c _ _

/-- The bits from 512 up of a register packed of 64 elements of at most a byte. -/
theorem packed_testBit_high {bits : Nat} {f : Nat → Nat} (hbits : bits ≤ 8) (hf : ∀ n, f n < 2 ^ 8) {j : Nat} (hj : 512 ≤ j)
    (l : List Nat) (hl : ∀ n ∈ l, n < 64) (v : VReg) (hv : v.getLsbD j = false) :
    (l.foldl (fun v n => v ||| (BitVec.ofNat 2048 (f n) <<< (bits * n))) v).getLsbD j = false := by
  induction l generalizing v with
  | nil => exact hv
  | cons n l ih =>
    refine ih (fun m hm => hl m (List.mem_cons_of_mem _ hm)) _ ?_
    have hn : n ≤ 63 := Nat.le_of_lt_succ (hl n List.mem_cons_self)
    have hplace : bits * n + 8 ≤ j := by
      have := Nat.mul_le_mul hbits hn
      omega
    have hbit : (f n).testBit (j - bits * n) = false :=
      Nat.testBit_lt_two_pow ((hf n).trans_le (Nat.pow_le_pow_right (by norm_num) (by omega)))
    simp [hv, hbit, BitVec.getLsbD_ofNat]

/-- Byte 252 of a register whose bits from 512 up are those of a value at bit 2016. -/
theorem byte_252_of_scales {v : VReg} (hv : ∀ j, 512 ≤ j → v.getLsbD j = false) (a b : Nat) :
    (v ||| (BitVec.ofNat 2048 (a + 256 * b) <<< 2016)).toNat >>> 2016 % 2 ^ 8 = a % 2 ^ 8 := by
  refine Nat.eq_of_testBit_eq fun j => ?_
  rw [Nat.testBit_mod_two_pow, Nat.testBit_mod_two_pow, Nat.testBit_shiftRight, BitVec.testBit_toNat, BitVec.getLsbD_or,
    hv (2016 + j) (by omega), BitVec.getLsbD_shiftLeft, BitVec.getLsbD_ofNat, Nat.add_sub_cancel_left]
  by_cases hj : j < 8
  · have hlow : (a + 256 * b).testBit j = a.testBit j := by
      have hmod : (a + 256 * b) % 2 ^ 8 = a % 2 ^ 8 := by omega
      simpa only [Nat.testBit_mod_two_pow, hj, decide_true, Bool.true_and] using congrArg (Nat.testBit · j) hmod
    have hin : 2016 + j < 2048 ∧ ¬ 2016 + j < 2016 ∧ j < 2048 := by omega
    simp [hj, hin, hlow]
  · simp [hj]

theorem exec_vmxq_heads {c : Nat} {s : State} {t : Task} {o : EOp} {q : List EOp} (h : Heads c 1 .vmxq s t o q)
    (hT : iT o.word = true) (hmx : isMx (fld o.word 50 4) = true) :
    let e := headE c 1 t o false
    let u := vxeCounted c s
    ∃ d p, exec (.vmxq c) s = .next (e.put u d p)
      ∧ d.toNat >>> 2016 % 2 ^ 8 = (e.quantise (fld o.word 50 4) 0 (e.va u).1).1 % 2 ^ 8 := by
  have hguard : (!iT o.word || !isMx (fld o.word 50 4)) = false := by simp [hT, hmx]
  refine ⟨_, _, exec_of_vxeOp rfl h (if_neg (Bool.eq_false_iff.mp hguard)), ?_⟩
  refine byte_252_of_scales (fun j hj => packed_testBit_high (fmtBits_le_of_isMx hmx) (fun n => ?_) hj _
    (fun n => List.mem_range.mp) 0 (by simp)) _ _
  split
  · exact E.quantise_lt _ _ _ n hmx
  · exact E.quantise_lt _ _ _ (n - 32) hmx

/-- Settles O21: each instruction is an operation on its source lanes at the head of its queue. -/
theorem vectorLanesAndFunctions : Obligations.VectorLanesAndFunctions := by
  unfold Obligations.VectorLanesAndFunctions
  refine ⟨?lanes, ?rest⟩
  case lanes =>
    intro c s t o q e u ty a b d one two three
    exact ⟨fun h => (exec_of_vBin (instr := .vadd c) h rfl :), fun h => (exec_of_vBin (instr := .vsub c) h rfl :),
      fun h => (exec_of_vBin (instr := .vmul c) h rfl :), fun h => (exec_of_vBin (instr := .vmin c) h rfl :),
      fun h => (exec_of_vBin (instr := .vmax c) h rfl :), fun h => (exec_of_vBin (instr := .vand c) h rfl :),
      fun h => (exec_of_vBin (instr := .vor c) h rfl :), fun h => (exec_of_vBin (instr := .vxor c) h rfl :),
      fun h => (exec_of_vBin (instr := .vsll c) h rfl :), fun h => (exec_of_vBin (instr := .vsrl c) h rfl :),
      fun h => (exec_of_vBin (instr := .vsra c) h rfl :), fun h => (exec_of_vBin (instr := .vcmpeq c) h rfl :),
      fun h => (exec_of_vBin (instr := .vcmplt c) h rfl :), fun h => (exec_of_vBin (instr := .vcmple c) h rfl :),
      fun h => (exec_of_vUn (instr := .vabs c) h rfl :), fun h => (exec_of_vUn (instr := .vneg c) h rfl :),
      fun h => (exec_of_vUn (instr := .vmov c) h rfl :), fun h => (exec_of_vTri (instr := .vsel c) h rfl :),
      fun h => (exec_of_vTri (instr := .vfma c) h rfl :), fun h => (exec_of_vTri (instr := .vfms c) h rfl :),
      fun h => (exec_of_vTri (instr := .vfnma c) h rfl :)⟩
  case rest =>
    intro c s t o q e u ty a m red fn
    refine ⟨?splat, ?iota, ?bexp, fun h => exec_of_vReduce h rfl, fun h => exec_of_vReduce h rfl,
      fun h => exec_of_vReduce h rfl, fun h => exec_of_vFun h rfl, fun h => exec_of_vFun h rfl, fun h => exec_of_vFun h rfl,
      fun h => exec_of_vFun h rfl, ?rsqrt, ?cvt, exec_vslide_heads, exec_vmxq_heads⟩
    case splat => exact fun h => exec_of_vxeOp rfl h rfl
    case iota => exact fun h => exec_of_vxeOp rfl h rfl
    case bexp => exact fun h => exec_of_vxeOp rfl h rfl
    case rsqrt => exact fun h hT => exec_of_vxeOp rfl h (if_neg (Bool.eq_false_iff.mp ((Bool.not_eq_false' _).mpr hT)))
    case cvt => exact fun h => exec_of_vxeOp rfl h rfl

end Sys2Proof.Machine
end

