-- ==== Sys2Proof/Proofs/VectorMemory.lean ====
section
/-! PROOFS. Loads, stores and line atomics of the vector engine (O22). -/

namespace Sys2Proof.Machine

open Sys2Proof

/-! ## Lines of the vector engine (R414, R415) -/

section
variable {e : E} {s : State} {tag fill : Bool}

/-- A plain format is none of the MX formats and not FX96. -/
theorem isMx_of_le {fmt : Nat} (h : fmt ≤ 7) : isMx fmt = false := by
  have : ¬ 8 ≤ fmt := by omega
  simp [isMx, this]

/-- VLD of a plain format outside the operand buffers, its line answering. -/
theorem E.runVld_plain {consume : Bool} {d : Line256} {p : Word32} {v : State} (hfmt : fld e.o.word 50 4 ≤ 7)
    (hgroup : fld e.o.word 47 3 < groups (fld e.o.word 50 4)) (hline : lineCheck e.lineAddr .cmOb tag = none)
    (hob : (regionOf e.lineAddr.toNat).isOb = false)
    (hread : e.readLine s portVxe e.lineAddr.toNat e.meet tag consume = .ok d p v) :
    e.runVld tag consume s = e.put v (ofLanes (e.loadLane d (0, 0) 0)) (e.loadPoison p false) := by
  have hmx := isMx_of_le hfmt
  have hfx : fld e.o.word 50 4 ≠ 0xD := by omega
  have hdefined : e.loadDefined = true := by
    have : fld e.o.word 50 4 ≤ 0xD := by omega
    simp [E.loadDefined, this, hgroup, hmx]
  simp only [E.runVld, hdefined, hline, hmx, hob, hfx, hread, Bool.not_true, Bool.not_false, Bool.false_and, Bool.or_self,
    Bool.false_eq_true, if_false, if_true]

/-- VST of a plain format outside the operand buffers, its line taken. -/
theorem E.runVst_plain {d : Line256} {p : Word32} {v : State} (hfmt : fld e.o.word 50 4 ≤ 7)
    (hregs : iVA e.o.word + 32 / fmtBits (fld e.o.word 50 4) - 1 ≤ 7) (hline : lineCheck e.lineAddr .cmOb fill = none)
    (hob : (regionOf e.lineAddr.toNat).isOb = false)
    (hwrite : e.writeLine s portVxe e.lineAddr.toNat (e.storeLine s (fld e.o.word 50 4) e.lineAddr.toNat).1
      (e.storeLine s (fld e.o.word 50 4) e.lineAddr.toNat).2 e.meet fill = .ok d p v) :
    e.runVst fill s = e.over v := by
  have hguard : (decide (7 < fld e.o.word 50 4) || decide (7 < iVA e.o.word + 32 / fmtBits (fld e.o.word 50 4) - 1)) = false := by
    simp only [Bool.or_eq_false_iff, decide_eq_false_iff_not]
    omega
  simp only [E.runVst, hguard, hline, hob, hwrite, Bool.false_and, Bool.false_eq_true, if_false]

end

/-! ## Line atomics (R303, R304, R417) -/

/-- A line atomic on an aligned line of the P-region whose bank answers. -/
theorem exec_of_vAtomic {instr : Instr} {c : Nat} {op : Op} {meet fx : Bool} {s v : State} {t : Task} {o : EOp}
    {q : List EOp} {f : E → State → Line256 × Word32 → Nat → Line256 × Word32} {sc : Nat} (ret : Bool)
    (hc : exec instr s = .next (vAtomic c op meet ret fx f s)) (h : Heads c 1 op s t o q)
    (hsel : fx = true → fld o.word 47 2 ≠ 3) (halign : (headE c 1 t o meet).lineAddr.toNat % 256 = 0)
    (hp : regionOf (headE c 1 t o meet).lineAddr.toNat = .p)
    (hscale : (if fx then (vxeCounted c s).cmScale c (headE c 1 t o meet).lineAddr.toNat else some 0) = some sc)
    (htouch : (vxeCounted c s).cmTouch c portVxe (headE c 1 t o meet).lineAddr.toNat true meet o.ctx o.pc o.word = (.ok, v)) :
    let e := headE c 1 t o meet
    let key := cmBase c + e.lineAddr.toNat
    let new := f e v (v.rdLine key) sc
    exec instr s = .next (if ret then e.put (v.wrLine key new.1 new.2) (v.rdLine key).1 new.2
      else e.over (v.wrLine key new.1 new.2)) := by
  have hlow : ¬ 2 ^ 48 ≤ (headE c 1 t o meet).lineAddr.toNat :=
    Nat.not_le.mpr (lt_of_regionOf hp (by decide))
  have hdefined : (fx && fld o.word 47 2 == 3) = false := by
    cases fx with
    | false => rfl
    | true => exact beq_eq_false_iff_ne.mpr (hsel rfl)
  refine exec_of_vxeOp hc h ((if_neg (Bool.eq_false_iff.mp hdefined)).trans ?_)
  rw [if_neg (not_not_intro halign), if_neg hlow]
  simp only [hp]
  have hscale' : (if fx then (vxeCounted c s).cmScale (headE c 1 t o meet).core (headE c 1 t o meet).lineAddr.toNat
    else some 0) = some sc := hscale
  have htouch' : (vxeCounted c s).cmTouch (headE c 1 t o meet).core portVxe (headE c 1 t o meet).lineAddr.toNat true meet
    (headE c 1 t o meet).o.ctx (headE c 1 t o meet).o.pc (headE c 1 t o meet).o.word = (.ok, v) := htouch
  simp only [hscale', htouch']
  rfl

/-- Settles O22: a line that answers, loaded, stored or added to. -/
theorem vectorMemory : Obligations.VectorMemory := by
  unfold Obligations.VectorMemory
  intro c meet s t o q e u a fmt key load stores adds
  refine ⟨?vld, ?vldC, ?vldP, ?vst, ?vstF, ?addW, ?addWR, ?addD, ?addDR, ?addFx, ?addFxR⟩
  case vld =>
    exact fun h hfmt hgroup hline hob d p v hread => exec_of_vxeOp rfl h (E.runVld_plain (e := e) hfmt hgroup hline hob hread)
  case vldC =>
    exact fun h hfmt hgroup hline hob d p v hread => exec_of_vxeOp rfl h (E.runVld_plain (e := e) hfmt hgroup hline hob hread)
  case vldP =>
    exact fun h hfmt hgroup hline hob d p v hread => exec_of_vxeOp rfl h (E.runVld_plain (e := e) hfmt hgroup hline hob hread)
  case vst =>
    exact fun h hfmt hregs hline hob d p v hwrite => exec_of_vxeOp rfl h (E.runVst_plain (e := e) hfmt hregs hline hob hwrite)
  case vstF =>
    exact fun h hfmt hregs hline hob d p v hwrite => exec_of_vxeOp rfl h (E.runVst_plain (e := e) hfmt hregs hline hob hwrite)
  case addW => exact fun h hsel ha hp sc hsc v hv =>
    (exec_of_vAtomic (instr := .vaaddW c meet) false rfl h hsel ha hp hsc hv :)
  case addWR => exact fun h hsel ha hp sc hsc v hv =>
    (exec_of_vAtomic (instr := .vaaddWR c meet) true rfl h hsel ha hp hsc hv :)
  case addD => exact fun h hsel ha hp sc hsc v hv =>
    (exec_of_vAtomic (instr := .vaaddD c meet) false rfl h hsel ha hp hsc hv :)
  case addDR => exact fun h hsel ha hp sc hsc v hv =>
    (exec_of_vAtomic (instr := .vaaddDR c meet) true rfl h hsel ha hp hsc hv :)
  case addFx => exact fun h hsel ha hp sc hsc v hv =>
    (exec_of_vAtomic (instr := .vfxadd c meet) false rfl h hsel ha hp hsc hv :)
  case addFxR => exact fun h hsel ha hp sc hsc v hv =>
    (exec_of_vAtomic (instr := .vfxaddR c meet) true rfl h hsel ha hp hsc hv :)

end Sys2Proof.Machine
end

