-- ==== Sys2Proof/Proofs/Matrix.lean ====
section
/-! PROOFS. The instructions of the matrix engine (O23). -/

namespace Sys2Proof.Machine

open Sys2Proof

/-! ## What a line leaves unchanged outside itself -/

/-- From s to u the bytes of on-chip memory outside [lo, hi) stay, with their poison. -/
structure SameOutside (lo hi : Nat) (s u : State) : Prop where
  byte  : ∀ b, b < lo ∨ hi ≤ b → u.rdByte b = s.rdByte b
  mark  : ∀ b, dramTop ≤ b → b < lo ∨ hi ≤ b → u.poisonAt b = s.poisonAt b

theorem SameOutside.refl (lo hi : Nat) (s : State) : SameOutside lo hi s s := ⟨fun _ _ => rfl, fun _ _ _ => rfl⟩

/-- Two writes one after the other, in ranges that follow each other. -/
theorem SameOutside.append {a b c : Nat} {s u v : State} (hab : a ≤ b) (hbc : b ≤ c) (h : SameOutside a b s u)
    (k : SameOutside b c u v) : SameOutside a c s v := by
  refine ⟨fun x hx => ?_, fun x htop hx => ?_⟩
  · rw [k.byte x (by omega), h.byte x (by omega)]
  · rw [k.mark x htop (by omega), h.mark x htop (by omega)]

theorem State.poisonAt_wrBytes (l : List Byte) (b : Nat) : ∀ (s : State) (a : Nat), (s.wrBytes a l).poisonAt b = s.poisonAt b := by
  induction l with
  | nil => exact fun s a => rfl
  | cons v l ih => exact fun s a => (ih _ _).trans rfl

theorem State.poisonAt_setPoison_ne (s : State) {a b : Nat} (ha : dramTop ≤ a) (hb : dramTop ≤ b) (h : b / 8 ≠ a / 8) (p : Bool) :
    (s.setPoison a p).poisonAt b = s.poisonAt b := by
  unfold State.poisonAt State.setPoison
  rw [if_neg (Nat.not_lt.mpr ha), if_neg (Nat.not_lt.mpr hb), if_neg (Nat.not_lt.mpr hb)]
  exact KSet.has_set_ne h p _

theorem State.poisonAt_foldl_setPoison {b : Nat} (at_ : Nat → Nat) (p : Nat → Bool) (hb : dramTop ≤ b) (l : List Nat)
    (h : ∀ i ∈ l, dramTop ≤ at_ i ∧ b / 8 ≠ at_ i / 8) :
    ∀ s : State, (l.foldl (fun s i => s.setPoison (at_ i) (p i)) s).poisonAt b = s.poisonAt b := by
  induction l with
  | nil => exact fun s => rfl
  | cons i l ih =>
    intro s
    obtain ⟨htop, hne⟩ := h i List.mem_cons_self
    rw [List.foldl_cons, ih (fun j hj => h j (List.mem_cons_of_mem _ hj)), State.poisonAt_setPoison_ne s htop hb hne]

theorem SameOutside.wrLine (s : State) {a : Nat} (htop : dramTop ≤ a) (halign : a % 8 = 0) (d : Line256) (p : Word32) :
    SameOutside a (a + 256) s (s.wrLine a d p) := by
  refine ⟨fun b hb => State.rdByte_wrLine_ne s d p hb, fun b hbtop hb => ?_⟩
  unfold State.wrLine
  dsimp only
  rw [if_neg (Nat.not_lt.mpr htop), State.poisonAt_foldl_setPoison (a + 8 * ·) _ hbtop]
  · exact State.poisonAt_wrBytes _ b s a
  · intro i hi
    have := List.mem_range.mp hi
    exact ⟨Nat.le_add_right_of_le htop, by omega⟩

/-! ## Reads outside the range -/

theorem any_range_congr {n : Nat} {p q : Nat → Bool} (h : ∀ i < n, p i = q i) :
    (List.range n).any p = (List.range n).any q := by
  rw [Bool.eq_iff_iff, List.any_eq_true, List.any_eq_true]
  refine exists_congr fun i => and_congr_right fun hi => ?_
  rw [h i (List.mem_range.mp hi)]

theorem fmtBits_pos (c : Nat) : 0 < fmtBits c := by
  unfold fmtBits
  split <;> decide

/-- Bytes that element idx of an array ends before (R398). -/
theorem element_end {bits idx n : Nat} (h : idx < n) :
    idx * bits / 8 + (idx * bits % 8 + bits + 7) / 8 ≤ (n * bits + 7) / 8 := by
  have hle : (idx + 1) * bits ≤ n * bits := Nat.mul_le_mul_right bits h
  rw [Nat.add_mul, Nat.one_mul] at hle
  omega

section
variable {lo hi : Nat} {s u : State} (h : SameOutside lo hi s u)
include h

theorem SameOutside.rdNat {a n : Nat} (hout : a + n ≤ lo ∨ hi ≤ a) : u.rdNat a n = s.rdNat a n := by
  unfold State.rdNat State.rdBytes
  refine congrArg leNat (List.map_congr_left fun i hi => h.byte _ ?_)
  have := List.mem_range.mp hi
  omega

theorem SameOutside.poisonIn {a n : Nat} (htop : dramTop ≤ a) (hn : 0 < n) (hout : a + n ≤ lo) :
    u.poisonIn a n = s.poisonIn a n := by
  have htop8 : dramTop % 8 = 0 := by decide
  unfold State.poisonIn
  rw [if_neg (Nat.not_lt.mpr htop)]
  refine any_range_congr fun i hi => h.mark _ ?_ (.inl ?_)
  · have : dramTop / 8 ≤ a / 8 := Nat.div_le_div_right htop
    omega
  · omega

/-- An element of an array of n elements that ends below the range. -/
theorem SameOutside.element {key c idx n : Nat} (htop : dramTop ≤ key) (hidx : idx < n)
    (hend : key + (n * fmtBits c + 7) / 8 ≤ lo) :
    u.elemBits key c idx = s.elemBits key c idx ∧ u.elemPoison key c idx = s.elemPoison key c idx := by
  have hbytes := element_end (bits := fmtBits c) hidx
  have hpos := fmtBits_pos c
  unfold State.elemBits State.elemPoison
  dsimp only
  rw [h.rdNat (.inl (by omega)), h.poisonIn (by omega) (by omega) (by omega)]
  exact ⟨rfl, rfl⟩

/-- A row of a product whose panels of plain formats end below the range and whose accumulators lie from its end on. -/
theorem SameOutside.mmaRow {p : Panels} {c tile n : Nat} (accz : Bool) (hmx : p.f.mx = false) (ha : dramTop ≤ p.a)
    (hb : dramTop ≤ p.b) (haend : p.a + (32 * p.k * fmtBits p.fa + 7) / 8 ≤ lo)
    (hbend : p.b + (64 * p.k * fmtBits p.fb + 7) / 8 ≤ lo) (hn : n < 32) (htop : dramTop ≤ hi)
    (hrow : hi ≤ accKey c tile n 0) : u.mmaRow p c tile accz n = s.mmaRow p c tile accz n := by
  have hA : ∀ k < p.k, u.elemBits p.a p.fa (32 * k + n) = s.elemBits p.a p.fa (32 * k + n)
      ∧ u.elemPoison p.a p.fa (32 * k + n) = s.elemPoison p.a p.fa (32 * k + n) :=
    fun k hk => h.element ha (by omega) haend
  have hB : ∀ j < 64, ∀ k < p.k, u.elemBits p.b p.fb (64 * k + j) = s.elemBits p.b p.fb (64 * k + j)
      ∧ u.elemPoison p.b p.fb (64 * k + j) = s.elemPoison p.b p.fb (64 * k + j) :=
    fun j hj k hk => h.element hb (by omega) hbend
  have hproduct : ∀ j < 64, ∀ k < p.k, u.product p n j k = s.product p n j k := by
    intro j hj k hk
    simp only [State.product, hmx, (hA k hk).1, (hB j hj k hk).1, Bool.false_eq_true, if_false]
  have hint : ∀ j < 64, ∀ k < p.k, u.productInt p n j k = s.productInt p n j k := by
    intro j hj k hk
    simp only [State.productInt, (hA k hk).1, (hB j hj k hk).1]
  have haccumulate : ∀ j < 64, ∀ acc, u.accumulate p n j acc = s.accumulate p n j acc := by
    intro j hj acc
    unfold State.accumulate
    split
    · refine congrArg (intBits 32) (List.foldl_ext _ _ _ fun a k hk => ?_)
      rw [hint j hj k (List.mem_range.mp hk)]
    · refine List.foldl_ext _ _ _ fun a b hb => ?_
      refine congrArg (fun l => toF32 ((ofF32 a).add (sumNum l))) (List.map_congr_left fun q hq => hproduct j hj _ ?_)
      have hchunk : (b + 1) * p.f.r ≤ p.k := (Nat.le_div_iff_mul_le (by have := List.mem_range.mp hq; omega)).mp
        (List.mem_range.mp hb)
      have := List.mem_range.mp hq
      rw [Nat.add_mul, Nat.one_mul] at hchunk
      omega
  have hpoison : ∀ j < 64, u.productsPoison p n j = s.productsPoison p n j := by
    intro j hj
    refine any_range_congr fun k hk => ?_
    simp only [hmx, (hA k hk).2, (hB j hj k hk).2, Bool.false_and]
  have hacc : ∀ j < 64, u.rdNat (accKey c tile n j) 4 = s.rdNat (accKey c tile n j) 4
      ∧ u.poisonAt (accKey c tile n j) = s.poisonAt (accKey c tile n j) := by
    intro j hj
    have hkey : hi ≤ accKey c tile n j := hrow.trans (by unfold accKey; omega)
    exact ⟨h.rdNat (.inr hkey), h.mark _ (htop.trans hkey) (.inr hkey)⟩
  refine List.foldl_ext _ _ _ fun r j hj => ?_
  have hj' := List.mem_range.mp hj
  simp only [haccumulate j hj', hpoison j hj', (hacc j hj').1, (hacc j hj').2]

end

/-! ## The rows of a product, written one after the other -/

theorem le_obKey (c n line : Nat) : dramTop ≤ obKey c n line := by
  unfold obKey cmBase dramTop
  omega

theorem accKey_succ (c tile n : Nat) : accKey c tile (n + 1) 0 = accKey c tile n 0 + 256 := by
  unfold accKey
  omega

theorem accKey_le_succ (c tile n : Nat) : accKey c tile n 0 ≤ accKey c tile (n + 1) 0 := by
  unfold accKey
  omega

theorem accKey_first_le (c tile n : Nat) : accKey c tile 0 0 ≤ accKey c tile n 0 := by
  unfold accKey
  omega

theorem accKey_aligned (c tile n : Nat) : accKey c tile n 0 % 8 = 0 := by
  have hbase : obBase 2 = 0x820000 := rfl
  unfold accKey cmBase
  omega

theorem le_accKey (c tile n : Nat) : dramTop ≤ accKey c tile n 0 := by
  unfold accKey cmBase dramTop
  omega

/-- A panel of OB-A or OB-B ends below the accumulators. -/
theorem panel_end_le {c m line n bits tile : Nat} (hm : m ≤ 1) (hfit : 2048 * line + n * bits ≤ 65536 * 8) :
    obKey c m line + (n * bits + 7) / 8 ≤ accKey c tile 0 0 := by
  have hbase : obBase m + 65536 ≤ obBase 2 := by
    interval_cases m <;> decide
  unfold obKey accKey
  omega

/-- Row i of a product, its operands read in one state, written in another. -/
def rowWritten (p : Panels) (c tile : Nat) (accz : Bool) (read u : State) (i : Nat) : State :=
  u.wrLine (accKey c tile i 0) (read.mmaRow p c tile accz i).1 (read.mmaRow p c tile accz i).2

/-- Rows computed as they are written are those computed before: a row reads nothing that the rows before it write. -/
theorem mmaRows_in_place {s : State} {p : Panels} {c tile : Nat} (accz : Bool) (hmx : p.f.mx = false) (ha : dramTop ≤ p.a)
    (hb : dramTop ≤ p.b) (haend : p.a + (32 * p.k * fmtBits p.fa + 7) / 8 ≤ accKey c tile 0 0)
    (hbend : p.b + (64 * p.k * fmtBits p.fb + 7) / 8 ≤ accKey c tile 0 0) (n : Nat) (hn : n ≤ 32) :
    (List.range n).foldl (fun u i => rowWritten p c tile accz u u i) s
        = (List.range n).foldl (rowWritten p c tile accz s) s
      ∧ SameOutside (accKey c tile 0 0) (accKey c tile n 0) s ((List.range n).foldl (rowWritten p c tile accz s) s) := by
  induction n with
  | zero => exact ⟨List.foldl_nil.trans List.foldl_nil.symm, .refl _ _ s⟩
  | succ n ih =>
    obtain ⟨hsame, hout⟩ := ih (by omega)
    have hrow := hout.mmaRow accz hmx ha hb haend hbend hn (le_accKey c tile n) le_rfl
    rw [List.range_succ, List.foldl_append, List.foldl_append, hsame, List.foldl_cons, List.foldl_cons, List.foldl_nil,
      List.foldl_nil]
    generalize (List.range n).foldl (rowWritten p c tile accz s) s = v at hout hrow ⊢
    refine ⟨?same, hout.append (accKey_first_le c tile n) (accKey_le_succ c tile n) ?outside⟩
    case same => unfold rowWritten; rw [hrow]
    case outside => exact accKey_succ c tile n ▸ .wrLine v (le_accKey c tile n) (accKey_aligned c tile n) _ _

/-! ## The matrix engine (R401 to R408) -/

theorem exec_of_mxeOp {c : Nat} {instr : Instr} {op : Op} {meet : Bool} {s : State} {t : Task} {o : EOp} {q : List EOp}
    {run : E → State → State} {u : State} (hc : exec instr s = .next (engineOp c 0 op meet run s)) (h : Heads c 0 op s t o q)
    (hu : run (headE c 0 t o meet) s = u) : exec instr s = .next u :=
  exec_of_engineOp hc h hu

section
variable {e : E} {s : State}

theorem E.runMxLd_fits {n : Nat} (hlines : fld e.o.word 32 10 ≠ 0) (hfit : fld e.o.word 50 9 + fld e.o.word 32 10 ≤ obLines n) :
    e.runMxLd n s = e.mxLoad n (fld e.o.word 50 9) (fld e.o.word 32 10 - e.o.done) e.o.done s := by
  have hguard : (decide (fld e.o.word 32 10 = 0) || decide (obLines n < fld e.o.word 50 9 + fld e.o.word 32 10)) = false := by
    simp [hlines, hfit]
  exact if_neg (Bool.eq_false_iff.mp hguard)

/-- A line that answers is written to its place in the buffer. -/
theorem E.mxLoad_ok {n doff f r : Nat} {d : Line256} {p : Word32} {v : State}
    (hline : lineCheck (e.o.ga + BitVec.ofNat 64 (256 * r)) .cm (bitAt e.o.word 15) = none)
    (hread : e.readLine s portMxe (e.o.ga + BitVec.ofNat 64 (256 * r)).toNat (e.meet && r == e.o.done) (bitAt e.o.word 15)
      (bitAt e.o.word 15) = .ok d p v) :
    e.mxLoad n doff (f + 1) r s = e.mxLoad n doff f (r + 1) (v.wrLine (obKey e.core n (doff + r)) d p) := by
  rw [E.mxLoad]
  simp only [hline, hread]

/-- A blocked one holds the instruction there. -/
theorem E.mxLoad_blocked {n doff f r : Nat} {v : State}
    (hline : lineCheck (e.o.ga + BitVec.ofNat 64 (256 * r)) .cm (bitAt e.o.word 15) = none)
    (hread : e.readLine s portMxe (e.o.ga + BitVec.ofNat 64 (256 * r)).toNat (e.meet && r == e.o.done) (bitAt e.o.word 15)
      (bitAt e.o.word 15) = .blocked v) :
    e.mxLoad n doff (f + 1) r s = e.block v r := by
  rw [E.mxLoad]
  simp only [hline, hread]

theorem E.runDrain_fits (hfmt : fld e.o.word 12 4 ≤ 7) (hrows : fld e.o.word 48 6 ≠ 0)
    (hfit : fld e.o.word 54 5 + fld e.o.word 48 6 ≤ 32) (hlines : fld e.o.word 48 6 * 64 * fmtBits (fld e.o.word 12 4) % 2048 = 0) :
    e.runDrain s = e.drainFrom (fld e.o.word 4 4) (fld e.o.word 54 5) (fld e.o.word 12 4) (bitAt e.o.word 3) (bitAt e.o.word 2)
      (KSet.has (s.core e.core).intTiles (fld e.o.word 4 4))
      (fld e.o.word 48 6 * 64 * fmtBits (fld e.o.word 12 4) / 2048 - e.o.done) e.o.done s := by
  simp only [E.runDrain, Nat.not_lt.mpr hfmt, hrows, Nat.not_lt.mpr hfit, hlines, ne_eq, not_true, decide_false, Bool.or_self,
    Bool.false_eq_true, if_false]

end

section
variable {c : Nat} {s : State} {t : Task} {o : EOp} {q : List EOp}

/-- MX.MMA of a family of plain formats whose panels fit. -/
theorem exec_mxMma_fits {fam : Family} (h : Heads c 0 .mxMma s t o q)
    (hfam : familyOf (fld o.word 12 4) (fld o.word 8 4) = some fam) (hmx : fam.mx = false)
    (ha : 2048 * fld o.word 56 8 + 32 * (8 * (fld o.word 32 8 + 1)) * fmtBits (fld o.word 12 4) ≤ 65536 * 8)
    (hb : 2048 * fld o.word 48 8 + 64 * (8 * (fld o.word 32 8 + 1)) * fmtBits (fld o.word 8 4) ≤ 65536 * 8) :
    let w := o.word
    let p : Panels := ⟨fld w 12 4, fld w 8 4, obKey c 0 (fld w 56 8), obKey c 1 (fld w 48 8),
      obKey c 0 (fld w 40 8), obKey c 1 (fld w 40 8), 8 * (fld w 32 8 + 1), fam⟩
    exec (.mxMma c) s = .next ((headE c 0 t o false).over (((List.range 32).foldl (fun u n =>
        rowWritten p c (fld w 4 4) (bitAt w 3) u u n) s).updCore c
      fun g => { g with intTiles := KSet.set fam.int (fld w 4 4) g.intTiles })) := by
  intro w p
  have hrows := (mmaRows_in_place (s := s) (p := p) (tile := fld w 4 4) (bitAt w 3) hmx (le_obKey c 0 _) (le_obKey c 1 _)
    (panel_end_le (by omega) ha) (panel_end_le (by omega) hb) 32 le_rfl).1
  refine exec_of_mxeOp rfl h ?_
  rw [hrows]
  simp only [E.runMma, headE, hfam, hmx, Nat.not_lt.mpr ha, Nat.not_lt.mpr hb, Bool.false_and, decide_false, Bool.or_self,
    Bool.false_eq_true, if_false]
  rfl

theorem exec_mxZero_fits (h : Heads c 0 .mxZero s t o q) (hfit : fld o.word 4 4 + fld o.word 32 4 + 1 ≤ 16) :
    exec (.mxZero c) s = .next ((headE c 0 t o false).over ((List.range (32 * (fld o.word 32 4 + 1))).foldl
      (fun u n => u.zeroRow c (fld o.word 4 4 + n / 32) (n % 32)) s)) :=
  exec_of_mxeOp rfl h (if_neg (Nat.not_lt.mpr hfit))

end

/-- Settles O23: each instruction past its operand checks, and a load line by line. -/
theorem matrixInstructions : Obligations.MatrixInstructions := by
  unfold Obligations.MatrixInstructions
  refine ⟨?heads, fun e n doff f r s => ⟨rfl, fun hline d p v => E.mxLoad_ok hline, fun hline v => E.mxLoad_blocked hline⟩⟩
  case heads =>
    intro c meet s t o q e f w lines tile load
    refine ⟨?lda, ?ldb, ?ldc, ?mma, ?drain, ?zero⟩
    case lda => exact fun h hlines hfit => exec_of_mxeOp rfl h (E.runMxLd_fits (e := e) hlines hfit)
    case ldb => exact fun h hlines hfit => exec_of_mxeOp rfl h (E.runMxLd_fits (e := e) hlines hfit)
    case ldc => exact fun h hlines hfit => exec_of_mxeOp rfl h (E.runMxLd_fits (e := e) hlines hfit)
    case mma => exact fun fam h hfam hmx ha hb => exec_mxMma_fits h hfam hmx ha hb
    case drain => exact fun h hfmt hrows hfit hl => exec_of_mxeOp rfl h (E.runDrain_fits (e := e) hfmt hrows hfit hl)
    case zero => exact fun h hfit => exec_mxZero_fits h hfit

end Sys2Proof.Machine
end

