-- ==== Sys2Proof/Proofs/Streams.lean ====
section
/-! PROOFS. The instructions of the DMA engine (O24) and the steps of streams (O25). -/

namespace Sys2Proof.Machine

open Sys2Proof

/-! ## The instructions at the head of the DMA queue (R302, R480, R499) -/

section
variable {c : Nat} {s : State} {t : Task} {o : EOp} {q : List EOp}

theorem exec_of_dmaOp {instr : Instr} {op : Op} {run : E → State → State} {u : State}
    (hc : exec instr s = .next (engineOp c 2 op false run s)) (h : Heads c 2 op s t o q)
    (hu : run (headE c 2 t o false) s = u) : exec instr s = .next u :=
  exec_of_engineOp hc h hu

/-- STREAM.GO of an aligned list of 1 to 65,535 readable entries with a place free (R484). -/
theorem exec_streamGo_good (h : Heads c 2 .streamGo s t o q) (hlow : 1 ≤ o.gb.toNat) (hhigh : o.gb.toNat ≤ 65535)
    (hon : s.streamOn c (fld o.word 0 3) = true) (halign : o.ga.toNat % 32 = 0) (haddr : o.ga.toNat < 2 ^ 48)
    (hlist : ∀ j, j < o.gb.toNat → s.listEntryOk t.stall (o.ga.toNat + 32 * j) = true)
    (hroom : (s.streamQ c (fld o.word 0 3)).length < 4) :
    let st : Stream := { id := (s.freshId c).1, ctx := o.ctx, pc := o.pc, word := o.word, base := o.ga.toNat
                         count := o.gb.toNat, read := 0, xfers := [], runAt := none, walk := none, seqn := none, early := 0
                         tick := o.tick }
    exec (.streamGo c) s = .next ((headE c 2 t o false).over
      ((s.freshId c).2.setStreamQ c (fld o.word 0 3) (s.streamQ c (fld o.word 0 3) ++ [st]))) := by
  have hcount : (decide (o.gb.toNat = 0) || decide (65535 < o.gb.toNat) || !s.streamOn c (fld o.word 0 3)) = false := by
    have hne : o.gb.toNat ≠ 0 := by omega
    simp [hne, hhigh, hon]
  have hread : (decide (2 ^ 48 ≤ o.ga.toNat)
      || (List.range o.gb.toNat).any fun j => !s.listEntryOk t.stall (o.ga.toNat + 32 * j)) = false := by
    rw [Bool.or_eq_false_iff, List.any_eq_false]
    exact ⟨decide_eq_false (Nat.not_le.mpr haddr), fun j hj => by simp [hlist j (List.mem_range.mp hj)]⟩
  intro st
  refine exec_of_dmaOp rfl h ?_
  exact (if_neg (Bool.eq_false_iff.mp hcount)).trans ((if_neg (not_not_intro halign)).trans
    ((if_neg (Bool.eq_false_iff.mp hread)).trans (if_neg (Nat.not_le.mpr hroom))))

/-- MSET and MCOPY that pass their checks begin at their first line (R302). -/
theorem E.runMop_good {e : E} {n : Nat} {src : Option Word} (hnew : e.o.since = none) (hcheck : e.mopCheck s n src = none)
    (hroom : s.outstanding e.core < outstandingMax) : e.runMop n src s = e.mopFrom src n 0 s := by
  simp only [E.runMop, hnew, hcheck, Nat.not_le.mpr hroom, Option.isSome_none, Bool.false_eq_true, if_false]

/-- CAROUSEL.STEP of lines of the unit that do not overlap (R516). -/
theorem exec_carouselStep_good (h : Heads c 2 .carouselStep s t o q) (hlow : 1 ≤ fld o.word 0 13)
    (hhigh : fld o.word 0 13 ≤ 4096) (hsrc : fld o.word 52 12 + fld o.word 0 13 ≤ 4096)
    (hdst : fld o.word 40 12 + fld o.word 0 13 ≤ 4096)
    (hapart : fld o.word 40 12 + fld o.word 0 13 ≤ fld o.word 52 12 ∨ fld o.word 52 12 + fld o.word 0 13 ≤ fld o.word 40 12)
    (hroom : s.outstanding c < outstandingMax) :
    exec (.carouselStep c) s = .next ((s.beginHead c 2).updCar c fun g => { g with
      step := g.step + 1, src := fld o.word 52 12, dst := fld o.word 40 12, lines := fld o.word 0 13, sent := 0, got := 0
      active := true, lastRead := false }) := by
  have hguard : (decide (fld o.word 0 13 = 0) || decide (4096 < fld o.word 0 13)
      || decide (4096 < fld o.word 52 12 + fld o.word 0 13) || decide (4096 < fld o.word 40 12 + fld o.word 0 13)
      || (decide (fld o.word 52 12 < fld o.word 40 12 + fld o.word 0 13)
        && decide (fld o.word 40 12 < fld o.word 52 12 + fld o.word 0 13))) = false := by
    simp only [Bool.or_eq_false_iff, Bool.and_eq_false_iff, decide_eq_false_iff_not]
    omega
  exact exec_of_dmaOp rfl h ((if_neg (Bool.eq_false_iff.mp hguard)).trans (if_neg (Nat.not_le.mpr hroom)))

/-- STREAM.CANCEL that has not begun (R499). -/
theorem exec_streamCancel_begins (h : Heads c 2 .streamCancel s t o q) :
    let u := ((s.beginHead c 2).cancelQueue c (fld o.word 0 3) t).settleStaged
    exec (.streamCancel c) s = .next (if u.poisonPending then u else u.popQueue c 2) := by
  obtain ⟨ht, hlive, hq, hop, hbegan, -⟩ := h
  have hq' : (s.core c).dmaq = o :: q := hq
  change execStreamCancel c s = _
  simp only [execStreamCancel, ht, hq', hop, hlive, hbegan, ne_eq, not_true, decide_false, Bool.not_true, Bool.or_self,
    Bool.false_eq_true, if_false]

end

/-! ## The lines of an MSET (R297, R302) -/

section
variable {e : E} {f j key : Nat} {s u : State}

/-- The line of an MSET: its pattern, written with its poison. -/
def msetLine (e : E) (key : Nat) (u : State) : State :=
  u.wrLine key ((List.range 32).foldl (fun v i => v ||| (e.o.gc.setWidth 2048 <<< (64 * i))) 0)
    (if e.o.gcp then BitVec.allOnes 32 else 0)

/-- A line that can be reached is held by a full slot with TAGMODE 1, and otherwise written with its tag as TAGMODE says. -/
theorem E.mopFrom_mset (hkey : e.mopKey s (e.o.ga.toNat + 256 * j) true = some (key, u)) :
    e.mopFrom none (f + 1) j s =
      if (fld e.o.word 0 2 = 1 && u.tagAt key) = true then e.block u j
      else e.mopFrom none f (j + 1) (if fld e.o.word 0 2 = 1 then (msetLine e key u).putTag key true
        else if fld e.o.word 0 2 = 2 then (msetLine e key u).putTag key false else msetLine e key u) := by
  rw [E.mopFrom]
  simp only [hkey]
  rfl

end

/-- Settles O24: each instruction past its checks; a line of an MSET by its TAGMODE. -/
theorem dmaInstructions : Obligations.DmaInstructions := by
  unfold Obligations.DmaInstructions
  refine ⟨?heads, ?lines⟩
  case heads =>
    intro c s t o q e n k a room st
    refine ⟨?go, ?mset, ?mcopy, ?step, ?cancel⟩
    case go => exact exec_streamGo_good
    case mset => exact fun h hcheck hroom => exec_of_dmaOp rfl h (E.runMop_good (e := e) h.2.2.2.2.2 hcheck hroom)
    case mcopy => exact fun h hcheck hroom => exec_of_dmaOp rfl h (E.runMop_good (e := e) h.2.2.2.2.2 hcheck hroom)
    case step => exact exec_carouselStep_good
    case cancel => exact exec_streamCancel_begins
  case lines =>
    intro e f j key s u mode d v w hkey
    refine ⟨rfl, fun hmode hfull => ?held, fun hmode hempty => ?fills, fun hmode => ?empties, fun hmode => ?untagged⟩
    all_goals refine (E.mopFrom_mset hkey).trans ?_
    case held => exact if_pos (by simp [show fld e.o.word 0 2 = 1 from hmode, hfull])
    case fills =>
      rw [if_neg (by simp [hempty]), if_pos (show fld e.o.word 0 2 = 1 from hmode)]
      rfl
    case empties =>
      have hmode' : fld e.o.word 0 2 = 2 := hmode
      rw [if_neg (by simp [hmode']), if_neg (by omega), if_pos hmode']
      rfl
    case untagged =>
      have hmode' : fld e.o.word 0 2 = 0 := hmode
      rw [if_neg (by simp [hmode']), if_neg (by omega), if_neg (by omega)]
      rfl

/-! ## Two transfers of one identifier (R481)

TRANSFER_ISSUE marks every transfer of the queue that has the chosen one's identifier, each `asking` by its own source.
Identifiers are drawn without repetition (State.freshId), but a state is any data: in the one below a second transfer
with the first one's identifier has its source at another chip. -/

/-- A running task of core 0. -/
def twinTask : Task :=
  { id := 1, stall := 0, sq := 0, seq := 0, entry := 0, team := [0], phase := .running, args := 0, resAddr := 0
    limitMs := 0, ranNs := 0, startNs := 0, abort := none, resumed := false, hitches := [], frame := 0, resume := []
    preempt := none, kill := none, saved := none, cut := false, accw := [], remote := [], inline_ := [] }

/-- A transfer of no bytes with identifier 0, from src to core memory. -/
def twinXfer (src : Nat) : Xfer :=
  { id := 0, entry := 0, op := 0, smode := 0, dmode := 0, fence := false, src := src, dst := 0, left := 0, buf := []
    done := 0, put := 0, ring := 0, asked := none, idx := none, issued := false, since := none, ends := [], staged := []
    got := [], asking := false, acks := 0, cut := none }

/-- A running stream of the two. -/
def twinStream : Stream :=
  { id := 0, ctx := 0, pc := 0, word := 0, base := 0, count := 1, read := 1, xfers := [twinXfer 0, twinXfer remoteSpace]
    runAt := some 0, walk := none, seqn := none, early := 0, tick := 0 }

/-- The card after reset with that task and that stream in queue 0 of core 0. -/
def twinState : State :=
  let s := State.reset
  { s with
    q := { s.q with tasks := [twinTask] }
    cx := { s.cx with cores := [(0, { ShuzoCore.idle with task := some 1, streams := [(0, [twinStream])] })] } }

/-- Which transfers of queue 0 of core 0 ask another chip. -/
def askingIn (r : Res) : List (List Bool) :=
  match r with
  | .next s => (s.streamQ 0 0).map fun st => st.xfers.map Xfer.asking
  | _ => []

theorem askingIn_transferIssue_twinState : askingIn (exec (.transferIssue 0) twinState) = [[false, true]] := by decide

/-- Refutes O25: TRANSFER_ISSUE of a local transfer does not clear `asking` of another transfer with its identifier. -/
theorem not_streamSteps : ¬ Obligations.StreamSteps := by
  unfold Obligations.StreamSteps
  intro h
  obtain ⟨-, -, hissue, -⟩ := h.1 0 0 twinState twinTask (by decide)
  have hclear := congrArg askingIn
    (hissue twinStream (twinXfer 0) false (by decide) (by decide) (by decide) (by decide) (by decide))
  rw [askingIn_transferIssue_twinState] at hclear
  exact absurd hclear (by decide)

end Sys2Proof.Machine
end

