-- ==== Sys2Proof/Proofs/Kv.lean ====
section
/-! PROOFS. KV instructions and KV commands (O26). -/

namespace Sys2Proof.Machine

open Sys2Proof

/-! ## KV instructions (R590 to R603) -/

section
variable {c : Nat} {s : State} {t : Task} {o : EOp} {q : List EOp}

/-- KV.APPEND whose descriptor passes its checks goes on to its positions (R590). -/
theorem exec_kvAppend_good {src pos : List HostByte} {v data : Nat} {b : Bool} {u w : State} (h : Heads c 2 .kvAppend s t o q)
    (hroom : s.outstanding c < outstandingMax) (halign : o.ga.toNat % 32 = 0) (haddr : o.ga.toNat < 2 ^ 48)
    (hentry : s.listEntryOk t.stall o.ga.toNat = true) (hread : s.engineRead c t.stall o.ga.toNat 32 [] = .ok v false u)
    (hfree : (u.kseq (Append.of v).seq).committing = false ∨ (u.kseq (Append.of v).seq).holders.contains t.id = true)
    (hrsv : (Append.of v).rsv = false) (hn : (Append.of v).n ≠ 0) (hsrc : (Append.of v).src % 64 = 0)
    (hpos : (Append.of v).pos % 4 = 0) (hvalid : (u.kseq (Append.of v).seq).valid = true)
    (hlayer : (Append.of v).layer < u.poolLayers (u.kseq (Append.of v).seq).pool)
    (htokens : (Append.of v).n ≤ u.poolT (u.kseq (Append.of v).seq).pool) (hstall : (u.kseq (Append.of v).seq).stall = t.stall)
    (hclean : (u.kseq (Append.of v).seq).poisoned = false)
    (hdata : u.engineRead c t.stall (Append.of v).src ((Append.of v).n * u.poolB (u.kseq (Append.of v).seq).pool) src
      = .ok data b w)
    (hplaces : (Append.of v).pos = 0
      ∨ ∃ pv pb x, u.engineRead c t.stall (Append.of v).pos (4 * (Append.of v).n) pos = .ok pv pb x) :
    exec (.kvAppend c src pos) s = .next ((headE c 2 t o false).appendPos (Append.of v) src pos data w) := by
  have hrange : (decide (2 ^ 48 ≤ o.ga.toNat) || !s.listEntryOk t.stall o.ga.toNat) = false := by
    rw [decide_eq_false (Nat.not_le.mpr haddr), hentry]; rfl
  have hheld : ((u.kseq (Append.of v).seq).valid && (u.kseq (Append.of v).seq).committing
      && !(u.kseq (Append.of v).seq).holders.contains t.id) = false := by
    rcases hfree with hfree | hfree
    · rw [hfree, Bool.and_false, Bool.false_and]
    · rw [hfree, Bool.not_true, Bool.and_false]
  have hform : ((Append.of v).rsv || decide ((Append.of v).n = 0) || decide ((Append.of v).src % 64 ≠ 0)
      || decide ((Append.of v).pos % 4 ≠ 0) || ((u.kseq (Append.of v).seq).valid
        && (decide (u.poolLayers (u.kseq (Append.of v).seq).pool ≤ (Append.of v).layer)
          || decide (u.poolT (u.kseq (Append.of v).seq).pool < (Append.of v).n)))) = false := by
    simp [hrsv, hn, hsrc, hpos, hlayer, htokens]
  have hmine : (!(u.kseq (Append.of v).seq).valid || decide ((u.kseq (Append.of v).seq).stall ≠ t.stall)) = false := by
    simp [hvalid, hstall]
  refine exec_of_dmaOp rfl h ((if_neg (Nat.not_le.mpr hroom)).trans ((if_neg (not_not_intro halign)).trans
    ((if_neg (Bool.eq_false_iff.mp hrange)).trans ?_)))
  simp only [headE, hread]
  refine (if_neg Bool.false_ne_true).trans ((if_neg (Bool.eq_false_iff.mp hheld)).trans
    ((if_neg (Bool.eq_false_iff.mp hform)).trans ((if_neg (Bool.eq_false_iff.mp hmine)).trans
      ((if_neg (Bool.eq_false_iff.mp hclean)).trans ?_))))
  simp only [hdata]
  by_cases hz : (Append.of v).pos = 0
  · simp only [hz, if_true]
  · obtain ⟨pv, pb, x, hp⟩ := hplaces.resolve_left hz
    simp only [hz, hp, if_false]

/-- The positions of an append that names none follow the last one; a plan that begins a page stores its tokens there. -/
theorem E.appendData_newPage {e : E} {d : Append} {u v w : State} {src : List HostByte} {data pv tail : Nat} {np npg : Bool}
    (hpos : d.pos = 0)
    (hplan : u.planAppend d ((List.range d.n).map fun j => ((u.kseq d.seq).lastpos + 1) % 2 ^ 32 + j) = .go tail np npg v)
    (htail : tail = 0) (hpage : npg = true)
    (happend : v.append d tail np npg data (tokenPoison u e.core e.t.stall d.src src)
      ((List.range d.n).map fun j => ((u.kseq d.seq).lastpos + 1) % 2 ^ 32 + j) = some w) :
    e.appendData d src data pv false u = e.over w := by
  subst htail hpage
  unfold E.appendData
  simp only [hpos, hplan, if_true, Bool.true_or, Bool.false_eq_true, if_false]
  split
  · next x hx => exact congrArg e.over (Option.some.inj (hx.symm.trans happend))
  · next hx => exact nomatch hx.symm.trans happend

theorem exec_kvWalk_queues {m : Nat} (h : Heads c 2 .kvWalk s t o q)
    (hnone : (s.streamQ c m).find? (fun y => y.runAt.isSome && y.walk.isSome) = none)
    (hon : s.streamOn c (fld o.word 0 3) = true) (halign : o.ga.toNat % 32 = 0) (haddr : o.ga.toNat < 2 ^ 48)
    (hentry : s.listEntryOk t.stall o.ga.toNat = true) (hroom : (s.streamQ c (fld o.word 0 3)).length < 4) :
    let n := fld o.word 0 3
    let st : Stream := { id := (s.freshId c).1, ctx := o.ctx, pc := o.pc, word := o.word, base := o.ga.toNat, count := 0
                         read := 0, xfers := [], runAt := none, walk := some o.ga.toNat, seqn := none, early := 0
                         tick := o.tick }
    exec (.kvWalk c m) s = .next ((headE c 2 t o false).over
      ((s.freshId c).2.setStreamQ c n ((s.freshId c).2.streamQ c n ++ [st]))) := by
  have ht : s.taskOn c = some t := h.1
  have hlive : t.phase.live = true := h.2.1
  have hrange : (decide (2 ^ 48 ≤ o.ga.toNat) || !s.listEntryOk t.stall o.ga.toNat) = false := by
    rw [decide_eq_false (Nat.not_le.mpr haddr), hentry]; rfl
  have hoff : (!s.streamOn c (fld o.word 0 3)) = false := by rw [hon]; rfl
  change execKvWalk c m s = _
  simp only [execKvWalk, ht, hlive, hnone, Bool.not_true, Bool.false_eq_true, if_false]
  exact congrArg Host.Outcome.next ((engineOp_heads _ h).trans ((if_neg (Bool.eq_false_iff.mp hoff)).trans
    ((if_neg (not_not_intro halign)).trans ((if_neg (Bool.eq_false_iff.mp hrange)).trans (if_neg (Nat.not_le.mpr hroom))))))

theorem exec_kvWalk_starts {m : Nat} {y : Stream} (h : RunsTask s c t)
    (hy : (s.streamQ c m).find? (fun y => y.runAt.isSome && y.walk.isSome) = some y) :
    exec (.kvWalk c m) s = .next (s.startWalk c m t y (y.walk.getD 0)) := by
  obtain ⟨ht, hlive⟩ := h
  change execKvWalk c m s = _
  simp only [execKvWalk, ht, hlive, hy, Bool.not_true, Bool.false_eq_true, if_false]

theorem exec_vpscore_posts {w : State} (h : Heads c 1 .vpscore s t o q) (hrsv : fld o.ga 48 16 = 0)
    (hvalid : ((vxeCounted c s).kseq (fld o.ga 0 17)).valid = true)
    (hstall : ((vxeCounted c s).kseq (fld o.ga 0 17)).stall = t.stall)
    (hclean : ((headE c 1 t o false).va (vxeCounted c s)).2 = 0)
    (hpost : (vxeCounted c s).postScore (fld o.ga 0 17) (fld o.ga 17 23) (fld o.ga 40 8)
      (scoreOf (nth (tree (addLane true) 6 ((List.range 64).map (lane ((headE c 1 t o false).va (vxeCounted c s)).1))) 0))
        = some w) :
    exec (.vpscore c) s = .next ((headE c 1 t o false).over w) := by
  have hmine : (!((vxeCounted c s).kseq (fld o.ga 0 17)).valid
      || decide (((vxeCounted c s).kseq (fld o.ga 0 17)).stall ≠ t.stall)) = false := by simp [hvalid, hstall]
  refine exec_of_vxeOp rfl h ?_
  unfold headE at hclean hpost ⊢
  simp only [hrsv, hmine, hclean, hpost, ne_eq, not_true, Bool.false_eq_true, if_false]

end

/-! ## A command that its queue starts (R526) -/

section
variable {sq st : Nat} {s : State} {c : Cmd}

theorem exec_of_runCmd {instr : Instr} {op : Nat} {f : Cmd → Nat → State → State} {u : State}
    (hc : exec instr s = .next (s.runCmd sq op f)) (h : Starts sq op s c st) (hu : f c st s = u) :
    exec instr s = .next (u.postFlushes sq) := by
  obtain ⟨hstart, rfl⟩ := h
  rw [hc, State.runCmd, hstart, ← hu]

/-! ## KV commands (R604 to R614) -/

theorem exec_kvSeqOpen_good (h : Starts sq 0x30 s c st) (halign : c.field 0x18 8 % 256 = 0)
    (hpool : s.stallPool st (c.field 0x24 1) = true) (hin : s.inPool (c.field 0x24 1) (c.field 0x10 4) = true)
    (hfree : (s.kseq (c.field 0x10 4)).valid = false)
    (hlist : s.cpRange st (c.field 0x18 8) (max 1 (listBytes (c.field 0x14 2) (s.poolLayers (c.field 0x24 1)))) true false
      false = true) :
    let cap := c.field 0x14 2
    let p := c.field 0x24 1
    let lim := if (c.field 0x20 2, c.field 0x22 1, c.field 0x23 1) = (0, 0, 0) then
      (s.f .kvPoolLimits p 48 16, s.f .kvPoolLimits p 32 8, s.f .kvPoolLimits p 40 8)
      else (c.field 0x20 2, c.field 0x22 1, c.field 0x23 1)
    badLimits lim.1 lim.2.1 lim.2.2 cap 0 = false →
      exec (.kvSeqOpen sq) s = .next (((s.setKseq (c.field 0x10 4) { KSeq.closed with
        valid := true, pool := p, stall := st, list := c.field 0x18 8, cap := cap, tailFill := s.poolT p, lastpos := noPage
        budget := lim.1, anchor := lim.2.1, recent := lim.2.2 }).kvDone sq c 0).postFlushes sq) := by
  intro cap p lim hlim
  refine exec_of_runCmd rfl h ?_
  have hrange : (decide (c.field 0x18 8 % 256 ≠ 0) || !s.cpRange st (c.field 0x18 8)
      (if s.stallPool st (c.field 0x24 1) = true then max 1 (listBytes (c.field 0x14 2) (s.poolLayers (c.field 0x24 1)))
        else 1) true false false) = false := by
    rw [if_pos hpool, hlist, halign]; rfl
  have hmine : (!s.stallPool st (c.field 0x24 1) || !s.inPool (c.field 0x24 1) (c.field 0x10 4)) = false := by
    rw [hpool, hin]; rfl
  exact (if_neg (Bool.eq_false_iff.mp hrange)).trans ((if_neg (Bool.eq_false_iff.mp hmine)).trans
    ((if_neg (Bool.eq_false_iff.mp hfree)).trans (if_neg (Bool.eq_false_iff.mp hlim))))

theorem exec_kvSeqClose_free (h : Starts sq 0x31 s c st)
    (hnone : s.startedCmd sq 0x31 (fun y => y.run.isNone && (s.kseq (y.field 0x10 4)).holders.isEmpty) = none)
    (hok : s.kvRefusal st (c.field 0x10 4) true = none) (hcommit : (s.kseq (c.field 0x10 4)).committing = false)
    (hfree : (s.kseq (c.field 0x10 4)).holders = []) :
    exec (.kvSeqClose sq) s = .next (((s.closeSeq (c.field 0x10 4)).kvDone sq c 0).postFlushes sq) := by
  obtain ⟨hstart, rfl⟩ := h
  change execKvSeqClose sq s = _
  simp only [execKvSeqClose, hnone, State.runCmd, hstart, hok, hcommit, hfree, List.isEmpty_nil, Bool.false_eq_true, if_false,
    if_true]

theorem exec_kvSeqSet_good (h : Starts sq 0x32 s c st) (hok : s.kvRefusal st (c.field 0x10 4) true = none)
    (hclean : (s.kseq (c.field 0x10 4)).poisoned = false)
    (hlim : badLimits (c.field 0x20 2) (c.field 0x22 1) (c.field 0x23 1) (s.kseq (c.field 0x10 4)).cap
      (s.kseq (c.field 0x10 4)).pages = false) :
    exec (.kvSeqSet sq) s = .next (((s.setKseq (c.field 0x10 4) { s.kseq (c.field 0x10 4) with
      budget := c.field 0x20 2, anchor := c.field 0x22 1, recent := c.field 0x23 1 }).kvDone sq c 0).postFlushes sq) := by
  refine exec_of_runCmd rfl h ?_
  simp only [hok, hlim, hclean, Bool.false_eq_true, if_false]

theorem exec_kvDrop_marks (h : Starts sq 0x35 s c st) (hok : s.kvRefusal st (c.field 0x10 4) false = none)
    (hpage : c.field 0x14 4 + 1 < (s.kseq (c.field 0x10 4)).pages) {r : Nat} {u : State}
    (hread : s.kvRead (s.kseq (c.field 0x10 4)).stall (s.recordAt (s.kseq (c.field 0x10 4)) (c.field 0x14 4)) 16
      = some (r, false))
    (hwrite : s.kvWrite (s.kseq (c.field 0x10 4)).stall (s.recordAt (s.kseq (c.field 0x10 4)) (c.field 0x14 4)) 8
      (r % 2 ^ 48 + 2 ^ 48) = some u) :
    exec (.kvDrop sq) s = .next ((u.kvDone sq c 0).postFlushes sq) := by
  refine exec_of_runCmd rfl h ?_
  simp only [hok, Nat.not_le.mpr hpage, hread, hwrite, if_false]

theorem exec_kvSeqRead_record (h : Starts sq 0x36 s c st) (hok : s.kvRefusal st (c.field 0x10 4) false = none) :
    exec (.kvSeqRead sq) s =
      .next ((s.completeCmd sq c.seq stSuccess 0 0 0 (s.kseq (c.field 0x10 4)).bytes).postFlushes sq) := by
  refine exec_of_runCmd rfl h ?_
  simp only [hok]

/-- The valid, unpoisoned sequences of the pool that the mask picks, from the one asked for on (R609). -/
def batchAll (s : State) (c : Cmd) : List Nat :=
  let base := s.f .kvPoolCount (c.field 0x10 1) 32 17
  let start := max (c.field 0x20 4) base
  ((List.range (base + s.f .kvPoolSeq (c.field 0x10 1) 0 18 - start)).map fun j => start + j).filter fun i =>
    (s.kseq i).valid && !(s.kseq i).poisoned && (c.field 0x12 2).testBit (s.kseq i).bucket

/-- The sequence to go on from, if the list is as long as asked for and more are left. -/
def batchNext (s : State) (c : Cmd) : Nat :=
  let l := (batchAll s c).take (c.field 0x14 4)
  let last := l.getLast?.getD 0
  if l.length = c.field 0x14 4
      && decide (last + 1 < s.f .kvPoolCount (c.field 0x10 1) 32 17 + s.f .kvPoolSeq (c.field 0x10 1) 0 18) then last + 1
  else noPage

theorem mem_batchAll {j : Nat} (h : j ∈ batchAll s c) : (s.kseq j).valid = true ∧ (s.kseq j).poisoned = false := by
  obtain ⟨-, hj⟩ := List.mem_filter.mp h
  simp only [Bool.and_eq_true, Bool.not_eq_true'] at hj
  obtain ⟨⟨hvalid, hclean⟩, -⟩ := hj
  exact ⟨hvalid, hclean⟩

theorem exec_kvBatch_lists (h : Starts sq 0x34 s c st) (halign : c.field 0x18 8 % 256 = 0)
    (hpool : s.stallPool st (c.field 0x10 1) = true)
    (hdst : s.cpRange st (c.field 0x18 8) (max 1 (4 * min (c.field 0x14 4) (s.f .kvPoolSeq (c.field 0x10 1) 0 18))) true true
      true = true) :
    ∃ (l : List Nat) (next : Nat), exec (.kvBatch sq) s = .next (((l.zipIdx.foldl (fun u e =>
        u.cpWrite st (c.field 0x18 8 + 4 * e.2) (leBytes 4 e.1)) s).kvDone sq c 0
          (leBytes 4 l.length ++ leBytes 4 next)).postFlushes sq)
      ∧ l.length ≤ c.field 0x14 4 ∧ ∀ j ∈ l, (s.kseq j).valid = true ∧ (s.kseq j).poisoned = false := by
  have hrange : (decide (c.field 0x18 8 % 256 ≠ 0) || !s.cpRange st (c.field 0x18 8)
      (if s.stallPool st (c.field 0x10 1) = true then max 1 (4 * min (c.field 0x14 4) (s.f .kvPoolSeq (c.field 0x10 1) 0 18))
        else 1) true true true) = false := by
    rw [if_pos hpool, hdst, halign]; rfl
  have hmine : (!s.stallPool st (c.field 0x10 1)) = false := by rw [hpool]; rfl
  refine ⟨(batchAll s c).take (c.field 0x14 4), batchNext s c, exec_of_runCmd rfl h ?run, List.length_take_le _ _,
    fun j hj => mem_batchAll (List.mem_of_mem_take hj)⟩
  case run => exact (if_neg (Bool.eq_false_iff.mp hrange)).trans (if_neg (Bool.eq_false_iff.mp hmine))

theorem exec_kvCommit_one {host : List Byte} (h : Starts sq 0x33 s c st) (hn : c.field 0x14 4 = 0) :
    exec (.kvCommit sq host) s = .next ((s.nextCommit sq st c
      { todo := [], done := 0, skipped := 0, evicted := 0, first := none, cur := none } [c.field 0x10 4]).postFlushes sq) :=
  exec_of_runCmd rfl h (if_pos hn)

theorem exec_kvCommitProceed_commits {r : KvRun} {j n : Nat} {u : State}
    (hc : s.startedCmd sq 0x33 (fun _ => true) = some c) (hr : c.run = some r) (hj : r.cur = some j)
    (hst : (s.sqStall sq).getD 16 = st) (hvalid : (s.kseq j).valid = true) (hfree : (s.kseq j).holders = [])
    (hclean : (s.kseq j).poisoned = false) (hcommit : s.commitSeq j = some (n, u)) :
    exec (.kvCommitProceed sq) s = .next (u.nextCommit sq st c
      { r with done := r.done + 1, evicted := r.evicted + n, cur := none } r.todo) := by
  change execKvCommitProceed sq s = _
  simp only [execKvCommitProceed, hc, hr, hj, hst, hvalid, hfree, hclean, hcommit, List.isEmpty_nil, Bool.not_true,
    Bool.false_eq_true, if_false]

end

/-- Settles O26: each instruction and command past its checks. -/
theorem kvCommands : Obligations.KvCommands := by
  unfold Obligations.KvCommands
  refine ⟨?instructions, ?commands⟩
  case instructions =>
    intro c s t o q e a
    refine ⟨?append, ?tokens, ?walk, ?walkStarts, ?score⟩
    case append =>
      intro src pos v u data w b h hroom halign haddr hentry hread d k hfree hrsv hn hsrc hpos hvalid hlayer htokens hstall
        hclean hdata hplaces
      exact exec_kvAppend_good h hroom halign haddr hentry hread hfree hrsv hn hsrc hpos hvalid hlayer htokens hstall hclean
        hdata hplaces
    case tokens => exact fun d src data pv u tail np npg v w hpos => E.appendData_newPage (e := e) hpos
    case walk => exact fun m => exec_kvWalk_queues
    case walkStarts => exact fun h m y => exec_kvWalk_starts h
    case score => exact fun w => exec_vpscore_posts
  case commands =>
    intro s sq st c i k done
    refine ⟨exec_kvSeqOpen_good, exec_kvSeqClose_free, exec_kvSeqSet_good, fun h hok hpage r u => exec_kvDrop_marks h hok hpage,
      exec_kvSeqRead_record, exec_kvBatch_lists, fun host => exec_kvCommit_one, fun r j n u => exec_kvCommitProceed_commits⟩

end Sys2Proof.Machine
end

