-- ==== Sys2Proof/Proofs/Paddock.lean ====
section
/-! PROOFS. The steps of the Paddock and its operations (O27). -/

namespace Sys2Proof.Machine

open Sys2Proof

section
variable {s : State} {r : PdReq}

/-! ## A bank's oldest request (R265, R268, R282) -/

/-- The state once bank b's oldest request has left its queue. -/
def pdTaken (s : State) (b : Nat) (r : PdReq) (rest : List PdReq) : State :=
  (s.setPdQueue b rest).pdCount r.off r.index (s.now - r.arrival)

section
variable {slice bank : Nat} {rest : List PdReq} (hslice : slice < 4) (hbank : bank < 32)
  (hq : s.pdQueue (32 * slice + bank) = r :: rest)
include hslice hbank hq

/-- A request that wants no tag is performed. -/
theorem exec_paddockBankAccess_performs (hwants : r.op.wants = none)
    (hheld : ((pdTaken s (32 * slice + bank) r rest).pdPerform r).pdHeld (32 * slice + bank) = []) :
    exec (.paddockBankAccess slice bank) s = .next ((pdTaken s (32 * slice + bank) r rest).pdPerform r) := by
  change Host.Outcome.next (s.pdStep (32 * (slice % 4) + bank % 32)) = _
  rw [Nat.mod_eq_of_lt hslice, Nat.mod_eq_of_lt hbank, State.pdStep, hq]
  unfold pdTaken at hheld ⊢
  simp only [hwants, hheld]

/-- A request whose tag is not as it wants is parked. -/
theorem exec_paddockBankAccess_parks {f : Bool} (hwants : r.op.wants = some f)
    (htag : (pdTaken s (32 * slice + bank) r rest).tagAt (pdBase + r.off) ≠ f)
    (hheld : ((pdTaken s (32 * slice + bank) r rest).pdPark r).pdHeld (32 * slice + bank) = []) :
    exec (.paddockBankAccess slice bank) s = .next ((pdTaken s (32 * slice + bank) r rest).pdPark r) := by
  change Host.Outcome.next (s.pdStep (32 * (slice % 4) + bank % 32)) = _
  rw [Nat.mod_eq_of_lt hslice, Nat.mod_eq_of_lt hbank, State.pdStep, hq]
  unfold pdTaken at hheld htag ⊢
  simp only [hwants, htag, hheld, if_false]

end

theorem exec_tagWaitReturn_oldest {slice t : Nat} {rest : List (PdReq × Nat)}
    (h : Tbl.get [] s.cx.pd.returned slice = (r, t) :: rest) :
    let u := s.notBefore (t + 32)
    let v := { u with cx := { u.cx with pd := { u.cx.pd with returned := Tbl.put [] u.cx.pd.returned slice rest } } }
    exec (.tagWaitReturn slice) s = .next (v.pdSend { r with arrival := v.now }) := by
  change execTagWaitReturn slice s = _
  rw [execTagWaitReturn, h]

/-! ## Operations (R265 to R282) -/

theorem State.pdPerform_load {n : Nat} {sx : Bool} (h : r.op = .load n sx) : s.pdPerform r =
    s.deliver r.core r.ctx r.task (extend n sx (BitVec.ofNat 64 (s.rdNat (pdBase + r.off) n))) (s.poisonAt (pdBase + r.off)) := by
  unfold State.pdPerform; rw [h]; rfl

theorem State.pdPerform_store {n : Nat} {d : Word} {p : Bool} (h : r.op = .store n d p) :
    s.pdPerform r = s.narrowWrite (pdBase + r.off) n d p := by
  unfold State.pdPerform; rw [h]

/-- A tagged load empties its slot unless it peeks. -/
theorem State.pdPerform_tagged {n : Nat} {sx peek : Bool} (h : r.op = .tagged n sx peek) : s.pdPerform r =
    (if peek then s else s.putTag (pdBase + r.off) false).deliver r.core r.ctx r.task
      (extend n sx (BitVec.ofNat 64 (s.rdNat (pdBase + r.off) n))) (s.poisonAt (pdBase + r.off)) := by
  unfold State.pdPerform; rw [h]; rfl

theorem State.pdPerform_fill {n : Nat} {d : Word} {p : Bool} (h : r.op = .fill n d p) : s.pdPerform r =
    ((s.narrowWrite (pdBase + r.off) n d p).putTag (pdBase + r.off) true).deliver r.core r.ctx r.task 0 false := by
  unfold State.pdPerform; rw [h]

theorem State.pdPerform_tset (h : r.op = .tset) : s.pdPerform r = s.putTag (pdBase + r.off) true := by
  unfold State.pdPerform; rw [h]

theorem State.pdPerform_tclr (h : r.op = .tclr) : s.pdPerform r = s.putTag (pdBase + r.off) false := by
  unfold State.pdPerform; rw [h]

theorem State.pdPerform_probe (h : r.op = .probe) : s.pdPerform r =
    s.deliver r.core r.ctx r.task (if s.tagAt (pdBase + r.off) then 1 else 0) false := by
  unfold State.pdPerform; rw [h]

end

/-- Settles O27: a bank's oldest request by what its tag wants, the returned and the parked ones, and each operation. -/
theorem paddockCommands : Obligations.PaddockCommands := by
  unfold Obligations.PaddockCommands
  refine ⟨fun s slice bank => ⟨?bank, fun r t rest => exec_tagWaitReturn_oldest, rfl⟩, fun s r => ?operations⟩
  case bank =>
    intro r rest hslice hbank hq u hnone
    exact ⟨exec_paddockBankAccess_performs hslice hbank hq, fun f => exec_paddockBankAccess_parks hslice hbank hq⟩
  case operations =>
    exact ⟨fun n sx => State.pdPerform_load, fun n d p => State.pdPerform_store, fun n sx => State.pdPerform_tagged,
      fun n sx => State.pdPerform_tagged, fun n d p => State.pdPerform_fill, State.pdPerform_tset, State.pdPerform_tclr,
      State.pdPerform_probe⟩

end Sys2Proof.Machine
end

