-- ==== Sys2Proof/Proofs/Coherence.lean ====
section
/-! PROOFS. The order stage and snoops (O30). -/

namespace Sys2Proof.Machine

open Sys2Proof

/-! ## Host accesses and answers (R114, R139, R147 to R154) -/

section
variable {s : State} {req dpa p line : Nat}

section
variable (hpresent : s.present req = true) (hopen : s.memOpen req = true)
include hpresent hopen

theorem exec_memRd_outside (hp : s.hostMap req dpa = some p) (hdb : s.hdmDb p = false) (mv : MetaValue) :
    let d := s.readLine64 (p / 64)
    let u := s.emit (.memData req dpa d.1 d.2 .invalid)
    exec (.memRd req dpa mv) s = .next (if d.2 then u.mediaEvent 2 p else u) := by
  change execMemRd req dpa mv s = _
  simp only [execMemRd, hpresent, hopen, hp, hdb, Bool.not_true, Bool.false_eq_true, if_false]

theorem exec_memRd_hdmDb (hp : s.hostMap req dpa = some p) (hdb : s.hdmDb p = true) (mv : MetaValue) :
    exec (.memRd req dpa mv) s = .next (s.enterOrder (p / 64) (.hostRd req dpa mv) (s.tieKey req).1 (s.tieKey req).2) := by
  change execMemRd req dpa mv s = _
  simp only [execMemRd, hpresent, hopen, hp, hdb, Bool.not_true, Bool.false_eq_true, if_false, if_true]

theorem exec_memRd_unmapped (hp : s.hostMap req dpa = none) (mv : MetaValue) :
    exec (.memRd req dpa mv) s = .next ((s.emit (.memData req dpa 0 true .invalid)).refuseMem req dpa) := by
  change execMemRd req dpa mv s = _
  simp only [execMemRd, hpresent, hopen, hp, Bool.not_true, Bool.false_eq_true, if_false]

theorem exec_memWr_outside (hp : s.hostMap req dpa = some p) (hdb : s.hdmDb p = false) (mv : MetaValue) (d : Line64)
    (poison : Bool) :
    exec (.memWr req dpa mv d poison) s = .next ((s.writeLine64 (p / 64) d poison).emit (.memCmp req dpa)) := by
  change execMemWr req dpa mv d poison s = _
  simp only [execMemWr, hpresent, hopen, hp, hdb, Bool.not_true, Bool.not_false, Bool.false_eq_true, if_false, if_true]

theorem exec_memWr_hdmDb (hp : s.hostMap req dpa = some p) (hdb : s.hdmDb p = true)
    (hlate : s.dcoh.late.contains (req, p / 64) = false) (hwb : s.isWriteback req (p / 64) = false) (mv : MetaValue)
    (d : Line64) (poison : Bool) :
    exec (.memWr req dpa mv d poison) s =
      .next (s.enterOrder (p / 64) (.hostWr req dpa mv d poison) (s.tieKey req).1 (s.tieKey req).2) := by
  change execMemWr req dpa mv d poison s = _
  simp only [execMemWr, hpresent, hopen, hp, hdb, hlate, hwb, Bool.not_true, Bool.false_eq_true, if_false]

end

theorem exec_birsp_unlisted (hlate : s.dcoh.late.contains (req, line) = false) {k : BiSnp} {sent : Nat} (rsp : BiRsp)
    (hsnoop : (s.tracker line).snoops.find? (fun e => e.1 == req) = some (req, k, sent)) (hsf : s.sf line = none) :
    exec (.birsp req line rsp none) s = .next ((s.setTracker line { s.tracker line with
      snoops := (s.tracker line).snoops.filter fun e => e.1 != req }).snoopsDone line) := by
  change execBirsp req line rsp none s = _
  simp only [execBirsp, hlate, hsnoop, hsf, Bool.false_eq_true, if_false]

theorem exec_biconflict_free (hasked : (s.tracker line).snoops.any (fun e => e.1 == req) = true)
    (hown : (s.tracker line).queue.any (fun q => q.kind.requester == some req) = false) :
    exec (.biconflict req line) s = .next (s.emit (.biConflictAck req line)) := by
  change execBiconflict req line s = _
  simp only [execBiconflict, hasked, hown, Bool.not_true, Bool.false_eq_true, if_false]

end

/-! ## What keeps the marks of late snoops (R153)

BI_TIMEOUT marks its snoop late and then lets the line go on; nothing on that way looks at the marks. -/

/-- From s to t the marks of late snoops stay. -/
def SameLate (s t : State) : Prop := t.dcoh.late = s.dcoh.late

theorem SameLate.refl (s : State) : SameLate s s := rfl

theorem SameLate.trans {s t u : State} (h : SameLate s t) (k : SameLate t u) : SameLate s u := Eq.trans k h

theorem SameLate.ite {s t u : State} {c : Prop} [Decidable c] (ht : SameLate s t) (hu : SameLate s u) :
    SameLate s (if c then t else u) := by
  split
  · exact ht
  · exact hu

theorem SameLate.foldl {α : Type} {f : State → α → State} (hf : ∀ s a, SameLate s (f s a)) (l : List α) :
    ∀ s, SameLate s (l.foldl f s) := by
  induction l with
  | nil => exact SameLate.refl
  | cons a l ih => exact fun s => (hf s a).trans (ih _)

theorem SameLate.setHolders (s : State) (line : Nat) (excl : Bool) (present : List Nat) :
    SameLate s (s.setHolders line excl present) := by
  unfold State.setHolders
  extract_lets rest
  refine .ite rfl ?_
  split
  · rfl
  · rfl

theorem SameLate.wrBytes (l : List Byte) : ∀ (s : State) (a : Nat), SameLate s (s.wrBytes a l) := by
  induction l with
  | nil => exact fun s a => .refl s
  | cons v l ih => exact fun s a => SameLate.trans (t := s.wrByte a v) rfl (ih _ _)

theorem SameLate.setPoison (s : State) (a : Nat) (b : Bool) : SameLate s (s.setPoison a b) := .ite rfl rfl

theorem SameLate.writeLine64 (s : State) (line : Nat) (d : Line64) (poison : Bool) :
    SameLate s (s.writeLine64 line d poison) := (SameLate.wrBytes _ s _).trans (.setPoison _ _ _)

theorem SameLate.narrowWrite (s : State) (key n : Nat) (v : Word) (poison : Bool) :
    SameLate s (s.narrowWrite key n v poison) := by
  have hbytes : SameLate s (s.wrNat key n v.toNat) := .wrBytes _ s _
  unfold State.narrowWrite
  exact .ite (hbytes.trans (.setPoison _ _ _)) (.ite (hbytes.trans (.setPoison _ _ _)) hbytes)

theorem OnlyRecords.sameLate {s t : State} (h : OnlyRecords s t) : SameLate s t := congrArg Dcoh.late h.dcoh

theorem SameLate.snoop (s : State) (line : Nat) (kind : BiSnp) (reqs : List Nat) : SameLate s (s.snoop line kind reqs) := by
  unfold State.snoop
  extract_lets t u
  have hu : SameLate s u := rfl
  refine hu.trans (SameLate.foldl ?_ reqs u)
  exact fun _ _ => rfl

theorem SameLate.deliver (s : State) (core ctx : Nat) (task : Option Nat) (v : Word) (p : Bool) :
    SameLate s (s.deliver core ctx task v p) := .ite rfl rfl

theorem SameLate.afterWrite (s : State) (line req : Nat) (mv : MetaValue) : SameLate s (s.afterWrite line req mv) := by
  cases mv with
  | invalid => exact .setHolders s _ _ _
  | shared => exact .setHolders s _ _ _
  | any => exact .setHolders s _ _ _

theorem SameLate.performReq (s : State) (line : Nat) (r : DReq) : SameLate s (s.performReq line r) := by
  unfold State.performReq
  split
  · next req dpa mv _ =>
    extract_lets d u v
    have hu : SameLate s u := rfl
    have hv : SameLate s v := .ite (hu.trans (OnlyRecords.postEvent _ _ _ u).sameLate) hu
    cases mv with
    | invalid => exact hv
    | shared => exact hv.trans (.setHolders v _ _ _)
    | any => exact hv.trans (.setHolders v _ _ _)
  · next req dpa mv data poison _ =>
    have hemit : SameLate (s.writeLine64 line data poison) ((s.writeLine64 line data poison).emit (.memCmp req dpa)) := rfl
    exact ((SameLate.writeLine64 s line data poison).trans hemit).trans (.afterWrite _ line req mv)
  · split
    · exact .ite (.narrowWrite s _ _ _ _) (.deliver s _ _ _ _ _)
    · rfl
  · exact (SameLate.setHolders s _ _ _).trans (.ite rfl rfl)

theorem SameLate.serveLine (s : State) (line : Nat) : SameLate s (s.serveLine line) := by
  unfold State.serveLine
  extract_lets t asked
  split
  · rfl
  · next r rest _ =>
    refine .ite rfl ?_
    split
    · exact .snoop s _ _ _
    · extract_lets full taken done tracked
      have htaken : SameLate s taken := rfl
      have hdone : SameLate s done := htaken.trans (.performReq taken line r)
      split
      · exact .ite rfl (SameLate.trans rfl (.snoop _ _ _ _))
      · split
        · exact .ite (hdone.trans rfl) hdone
        · exact hdone

theorem SameLate.snoopsDone (s : State) (line : Nat) : SameLate s (s.snoopsDone line) := by
  unfold State.snoopsDone
  extract_lets t freed ws others left
  refine .ite rfl (.ite ?_ (SameLate.trans rfl (.serveLine _ line)))
  have hfreed : SameLate s freed := .setHolders (s.setTracker line { t with evict := false }) line false []
  have hleft : SameLate freed left := rfl
  exact (hfreed.trans hleft).trans (.foldl (fun w e => .serveLine w e.1) ws left)

/-- A requester's snoop of a line is marked late. -/
def LateSnoop (req line : Nat) (t : State) : Prop := t.dcoh.late.contains (req, line) = true

theorem LateSnoop.of_marked {s t : State} {req line : Nat}
    (h : SameLate { s with dcoh := { s.dcoh with late := (req, line) :: s.dcoh.late } } t) : LateSnoop req line t := by
  unfold LateSnoop
  rw [h]
  exact List.contains_iff_mem.mpr List.mem_cons_self

/-- A snoop whose answer does not come is marked late (R153). -/
theorem exec_biTimeout_late {s : State} {req line sent : Nat} {k : BiSnp}
    (h : (s.tracker line).snoops.find? (fun e => e.1 == req) = some (req, k, sent)) :
    ∃ t, exec (.biTimeout req line) s = .next t ∧ LateSnoop req line t := by
  refine ⟨_, rfl, ?_⟩
  extract_lets t
  split
  · next hnone => exact absurd (hnone.symm.trans h) (by simp)
  extract_lets waited held poisoned d marked hosts posted advised counted
  have hadvised : SameLate marked advised :=
    .trans (OnlyRecords.postEvent _ _ _ marked).sameLate (OnlyRecords.advise posted _ _ _ _).sameLate
  exact LateSnoop.of_marked (s := poisoned) ((hadvised.trans rfl).trans (.snoopsDone _ line))

/-- Settles O30: each access past its checks; what a late snoop leaves. -/
theorem coherenceCommands : Obligations.CoherenceCommands := by
  unfold Obligations.CoherenceCommands
  intro s req dpa line p
  refine ⟨rfl, fun hpresent hopen hp => ⟨?rdOutside, ?rdDb, ?wrOutside, ?wrDb⟩, ?unmapped, ?answer, exec_biconflict_free,
    fun k sent => exec_biTimeout_late⟩
  case rdOutside => exact exec_memRd_outside hpresent hopen hp
  case rdDb => exact exec_memRd_hdmDb hpresent hopen hp
  case wrOutside => exact exec_memWr_outside hpresent hopen hp
  case wrDb => exact exec_memWr_hdmDb hpresent hopen hp
  case unmapped => exact fun hpresent hopen hp => exec_memRd_unmapped hpresent hopen hp
  case answer => exact fun hlate k sent rsp => exec_birsp_unlisted hlate rsp

end Sys2Proof.Machine
end

