-- ==== Sys2Proof/Proofs/Bridle.lean ====
section
/-! PROOFS. Grants, held bursts and intervals of the Bridle (O31). -/

namespace Sys2Proof.Machine

open Sys2Proof

section
variable {s : State} {a : Nat}

/-! ## What a grant leaves (R632 to R637) -/

theorem State.levelOf_fabric (occ : Nat) (ha : 32 ≤ a) : s.levelOf a occ = 0 := by
  have h : (!isDramArb a) = true := by simp [isDramArb, ha]
  rw [State.levelOf, if_pos h]

/-- A request's priority rests on the clock alone. -/
theorem State.prioOf_congr {t : State} (r : BReq) (h : t.now = s.now) : t.prioOf r = s.prioOf r := by
  unfold State.prioOf
  rw [h]

theorem State.countGrant_now (r : BReq) (rank : Nat) : (s.countGrant a r rank).now = s.now := by
  unfold State.countGrant State.bridleCount
  extract_lets i wait d
  split
  · rfl
  · simp only [apply_ite State.now, State.maxF, State.setF_now, State.addF_now, ite_self]

theorem State.countWindow_now (k beats : Nat) : (s.countWindow a k beats).now = s.now := by
  unfold State.countWindow
  extract_lets total w
  split
  · rfl
  · rfl

theorem State.passBeat_last (b : Burst) : (s.passBeat a b).bridle.last = s.bridle.last := by
  unfold State.passBeat
  split
  · rfl
  · rfl

theorem State.setHeld_last (b : Option Burst) : (s.setHeld a b).bridle.last = s.bridle.last := rfl

/-- The state after a grant at an arbiter that is no DRAM channel's: the counters, and the source granted last. -/
def fabricGranted (s : State) (a : Nat) (r : BReq) (rank : Nat) : State :=
  let u := (s.countGrant a { r with beats := max 1 r.beats } rank).countWindow a (rank % 8) (max 1 r.beats)
  { u with bridle := { u.bridle with last := Tbl.insert (64 * a + 8 * (rank % 8) + u.prioOf r) r.src u.bridle.last } }

theorem fabricGranted_last (r : BReq) (rank : Nat) :
    Tbl.get 0 (fabricGranted s a r rank).bridle.last (64 * a + 8 * (rank % 8) + s.prioOf r) = r.src := by
  unfold fabricGranted
  extract_lets u
  have hprio : u.prioOf r = s.prioOf r :=
    State.prioOf_congr r ((State.countWindow_now _ _).trans (State.countGrant_now _ _))
  rw [hprio, Tbl.get, Tbl.find?_insert_self]

/-! ## The commands (R632 to R640) -/

section
variable (ha : a < 36) (hfabric : 32 ≤ a) (occ : Nat) (reqs : List BReq)
include ha hfabric

theorem exec_bridleGrant_held (room : Bool) {b : Burst} (hb : s.heldBurst a = some b) :
    exec (.bridleGrant a occ room true reqs) s = .next (s.passBeat a b) := by
  have hdram : isDramArb a = false := decide_eq_false (Nat.not_lt.mpr hfabric)
  change execBridleGrant a occ room true reqs s = _
  simp only [execBridleGrant, Nat.not_le.mpr ha, State.levelOf_fabric occ hfabric, hdram, hb, Bool.false_eq_true, if_false,
    if_true, OfNat.zero_ne_ofNat]

theorem exec_bridleGrant_none (supply : Bool) (hb : s.heldBurst a = none) (hnone : s.chooseReq a 0 reqs = none) :
    exec (.bridleGrant a occ true supply reqs) s = .next s := by
  have hdram : isDramArb a = false := decide_eq_false (Nat.not_lt.mpr hfabric)
  change execBridleGrant a occ true supply reqs s = _
  simp only [execBridleGrant, Nat.not_le.mpr ha, State.levelOf_fabric occ hfabric, hdram, hb, hnone, Bool.not_true,
    Bool.false_eq_true, if_false, OfNat.zero_ne_ofNat]

/-- A request that is chosen: its first beat passes if it is there, else its burst is held. -/
theorem exec_bridleGrant_chosen (supply : Bool) (hb : s.heldBurst a = none) {r : BReq} {rank : Nat}
    (hr : s.chooseReq a 0 reqs = some (r, rank)) :
    let u := fabricGranted s a r rank
    let b : Burst := ⟨r.src, r.task, r.stall, max 1 r.beats, none, u.now⟩
    exec (.bridleGrant a occ true supply reqs) s = .next (if supply then u.passBeat a b else u.setHeld a (some b)) := by
  have hdram : isDramArb a = false := decide_eq_false (Nat.not_lt.mpr hfabric)
  change execBridleGrant a occ true supply reqs s = _
  simp only [execBridleGrant, Nat.not_le.mpr ha, State.levelOf_fabric occ hfabric, hdram, hb, hr, State.ldOf, Bool.not_true,
    Bool.false_and, Bool.false_eq_true, if_false, OfNat.zero_ne_ofNat]
  rfl

end

theorem exec_bridleHoldLimit_task {b : Burst} {id : Nat} (hb : s.heldBurst a = some b) (hid : b.task = some id) :
    let u := (s.notBefore (b.since + 4096)).endBurst a b
    u.f .bridleHoldLog 0 63 1 = 0 →
    exec (.bridleHoldLimit a) s = .next (((u.setReg .bridleHoldLog 0 (BitVec.ofNat 64 (holdRecord a b))).addF
      .bridleHoldCount 0 0 32 1).taskFault id .bridleHold 4 (if b.src < 32 then b.src else 255) none 0 0 0 (holdRecord a b)) := by
  intro u hempty
  change execBridleHoldLimit a s = _
  unfold u at hempty ⊢
  simp only [execBridleHoldLimit, hb, hid, hempty, zero_ne_one, if_false]

end

/-- Settles O31: a grant by what is held and what is chosen; the hold limit and the interval as they stand. -/
theorem bridleCommands : Obligations.BridleCommands := by
  unfold Obligations.BridleCommands
  intro s a occ room supply reqs
  refine ⟨fun ha hfabric b hb hsupply => ?held, fun ha hfabric hb hroom hnone => ?none, fun ha hfabric hb hroom r rank hr => ?chosen,
    fun b id hb hid _ => exec_bridleHoldLimit_task hb hid, rfl⟩
  case held => exact hsupply ▸ exec_bridleGrant_held ha hfabric occ reqs room hb
  case none => exact hroom ▸ exec_bridleGrant_none ha hfabric occ reqs supply hb hnone
  case chosen =>
    subst hroom
    refine ⟨_, exec_bridleGrant_chosen ha hfabric occ reqs supply hb hr, ?_⟩
    cases supply with
    | true => rw [if_pos rfl, State.passBeat_last, fabricGranted_last]
    | false => rw [if_neg Bool.false_ne_true, State.setHeld_last, fabricGranted_last]

end Sys2Proof.Machine
end

