-- ==== Sys2Proof/Proofs/Faults.lean ====
section
/-! PROOFS. Class A faults, resets, aborts and fences (O29). -/

namespace Sys2Proof.Machine

open Sys2Proof

section
variable {s : State} {t : Task} {id core reason st mem cause : Nat}

/-! ## Faults and resets of a live device (R676, R705 to R713) -/

section
variable (halive : s.alive = true)
include halive

theorem exec_classAFault_alive (sf : Bool) (a b : Word) : exec (.classAFault sf a b) s =
    .next (s.classA { code := if sf then .sfLost else .uncoreStateLost, cls := .a, unit := 4
                      detail := a.toNat + 2 ^ 64 * b.toNat }) := by
  change execClassAFault sf a b s = _
  simp only [execClassAFault, halive, Bool.not_true, Bool.false_eq_true, if_false]

theorem exec_tamper_monitor {m : Nat} (hlow : 1 ≤ m) (hhigh : m ≤ 3) : exec (.tamper m) s =
    .next (s.classA { code := .tamper, cls := .a, unit := 6, detail := m }) := by
  have hguard : (!s.alive || decide (m = 0) || decide (3 < m)) = false := by
    have hne : m ≠ 0 := by omega
    simp [halive, hne, hhigh]
  exact congrArg Host.Outcome.next (if_neg (Bool.eq_false_iff.mp hguard))

/-- CP_RESET outside Stage 0 for a reason that holds. -/
theorem exec_cpReset_resets {r : Nat} (hstage : s.stageNow ≠ 0)
    (hr : (r = 1 ∧ (s.f .stageStatus 0 7 1 == 1) = true) ∨ r = 2 ∨ r = 4) : exec (.cpReset r) s = .next (s.cpReset r) := by
  have hguard : (!s.alive || decide (s.stageNow = 0)) = false := by simp [halive, hstage]
  exact congrArg Host.Outcome.next ((if_neg (Bool.eq_false_iff.mp hguard)).trans (if_pos hr))

theorem exec_cpLivenessTimeout_runs (hruns : s.f .stageStatus 0 7 1 = 1) :
    exec .cpLivenessTimeout s = .next ((s.notBefore (s.ras.cpAlive + s.cpLimit)).cpReset 3) := by
  have hguard : (s.alive && s.f .stageStatus 0 7 1 == 1) = true := by simp [halive, hruns]
  exact congrArg Host.Outcome.next (if_pos hguard)

end

theorem exec_internalResetEnd_starts (h : s.ras.internalReset.isSome = true) :
    let u := { s with ras := { s.ras with internalReset := none } }
    u.inReset = false → exec .internalResetEnd s = .next u.beginStart := by
  intro u hu
  have hguard : ¬ s.ras.internalReset.isNone = true := by
    rw [← Option.not_isSome, h]; decide
  exact congrArg Host.Outcome.next ((if_neg hguard).trans (if_neg (Bool.eq_false_iff.mp hu)))

/-! ## Aborts and fences (R684 to R698) -/

theorem exec_taskAbort_ends (ht : s.task? id = some t) (hphase : t.phase = .aborting) (hcp : s.ras.cpInReset = false) :
    exec (.taskAbort id) s = .next (s.abortTasks [id] stFault 0) := by
  change execTaskAbort id s = _
  simp only [execTaskAbort, ht, hphase, hcp, ne_eq, not_true, Bool.false_eq_true, if_false]

theorem exec_taskAbort_orders (ht : s.task? id = some t) (hphase : t.phase = .aborting) (hcp : s.ras.cpInReset = true) :
    exec (.taskAbort id) s = .next (s.abortOrder [id]) := by
  change execTaskAbort id s = _
  simp only [execTaskAbort, ht, hphase, hcp, ne_eq, not_true, if_false, if_true]

theorem exec_taskTimeout_live (ht : s.task? id = some t) (hlive : t.phase.live = true) :
    let u := s.notBefore (t.startNs + (1000000 * t.limitMs - t.ranNs))
    exec (.taskTimeout id) s = .next ((u.addF .taskStat t.stall 32 16 1).taskFault id .taskTimeout 5 255 none 0 0 0 t.limitMs) := by
  change execTaskTimeout id s = _
  simp only [execTaskTimeout, ht, hlive, Bool.not_true, Bool.false_eq_true, if_false]

theorem exec_coreReset_resets (hcore : core < 32)
    (h : reason = 2 ∨ reason = 1 ∧ ∃ t, s.taskOn core = some t ∧ t.phase = .aborting) :
    exec (.coreReset core reason) s = .next (s.resetCore core reason) := by
  change execCoreReset core reason s = _
  rcases h with rfl | ⟨rfl, t, ht, hphase⟩
  · simp [execCoreReset, hcore]
  · simp [execCoreReset, hcore, ht, hphase]

theorem exec_computeFence_fences (hlow : 1 ≤ cause) (hhigh : cause ≤ 11) :
    exec (.computeFence cause) s = .next (s.fenceOn cause) := by
  have hguard : (decide (1 ≤ cause) && decide (cause ≤ 11)) = true := by simp [hlow, hhigh]
  exact congrArg Host.Outcome.next (if_pos hguard)

/-- A restart of Ostler that does not escalate (R693). -/
theorem exec_ostlerSelfReset_restarts (hup : s.mgmtUp = true) :
    let w := s.notBefore (s.ras.ostAlive + 500000000)
    let u := ((w.updPw fun p => { p with leds := w.ledsShown }).mgmtStop.advise .ostlerReset 6).addF .rasRecovery 0 16 16 1
    let r := escalate u.ras.ostTimes u.now minute
    r.2 = false → u.ras.ostlerHeld = false → exec .ostlerSelfReset s =
      .next { u with ras := { u.ras with ostTimes := r.1, ostlerDown := true, ostlerHeld := false } } := by
  intro w u r hr hheld
  change execOstlerSelfReset s = _
  unfold r u w at hr ⊢
  unfold u w at hheld
  simp only [execOstlerSelfReset, hup, hr, hheld, Bool.not_true, Bool.or_self, Bool.false_eq_true, if_false]

end

/-- Settles O29: each command past its guard. -/
theorem faultsAndRecovery : Obligations.FaultsAndRecovery := by
  unfold Obligations.FaultsAndRecovery
  refine ⟨fun s => ⟨fun halive => ⟨exec_classAFault_alive halive, fun m => exec_tamper_monitor halive, ?reset, ?running⟩,
      exec_internalResetEnd_starts⟩,
    fun s id core reason st mem cause t => ⟨fun ht hphase => ⟨exec_taskAbort_ends ht hphase, exec_taskAbort_orders ht hphase⟩,
      exec_taskTimeout_live, exec_coreReset_resets, ?stall, exec_computeFence_fences, exec_ostlerSelfReset_restarts⟩⟩
  case reset => exact fun r hstage hr => exec_cpReset_resets halive hstage (.inr hr)
  case running =>
    exact fun hruns => ⟨fun hstage => exec_cpReset_resets halive hstage (.inl ⟨rfl, beq_iff_eq.mpr hruns⟩),
      exec_cpLivenessTimeout_runs halive hruns⟩
  case stall => exact fun hvalid => congrArg Host.Outcome.next (if_pos hvalid)

end Sys2Proof.Machine
end

