-- ==== Sys2Proof/Proofs/Queues.lean ====
section
/-! PROOFS. Queues: fetch, acceptance, their registers, and the memory operations (O32, O33). -/

namespace Sys2Proof.Machine

open Sys2Proof

/-! ## Fetch and acceptance (R521 to R528) -/

section
variable {s : State} {n : Nat}

section
variable {top : Nat} {host h : List Line64} {r : Line64} {u : State} (hruns : s.cpRuns = true)
  (htop : (List.range sqCount).foldl (fun m k => if s.fetchable k then max m (s.sqPrio k) else m) 0 = top)
  (hn : roundRobin (fun k => s.fetchable k && s.sqPrio k == top) (Tbl.get (sqCount - 1) s.q.last top) sqCount = some n)
  (hr : s.readRecord n (s.f .sqHead n 0 16) host = (some r, h, u))
include hruns htop hn hr

/-- A record that starts a one-record command is kept. -/
theorem exec_cpFetch_starts (hs : recS r = true) (he : recE r = true) :
    let v := { u with q := { u.q with last := Tbl.insert top n u.q.last } }
    1 ≤ v.sqPending n →
      exec (.cpFetch host) s = .next (v.updSq n fun k => { k with asm := [r], asmReq := v.f .sqHead n 16 4 }) := by
  intro v hpending
  subst htop
  change execCpFetch host s = _
  have hrecords : recordsOf r = 1 := if_pos he
  have hroom : ¬ v.sqPending n < 1 := Nat.not_lt.mpr hpending
  unfold v at hroom ⊢
  simp only [execCpFetch, hruns, hn, hr, hs, hrecords, hroom, Bool.not_true, Bool.false_eq_true, if_false]
  rfl

/-- A record out of place is dropped. -/
theorem exec_cpFetch_drops (hs : recS r = false) :
    let v := { u with q := { u.q with last := Tbl.insert top n u.q.last } }
    exec (.cpFetch host) s = .next ((v.setF .sqHead n 0 16 ((s.f .sqHead n 0 16 + 1) % v.sqDepth n)).addF .sqStat n 0 16 1) := by
  subst htop
  change execCpFetch host s = _
  simp only [execCpFetch, hruns, hn, hr, hs, Bool.not_true, Bool.not_false, Bool.false_eq_true, if_false, if_true]

end

section
variable {r : Line64} {rest : List Line64} (hasm : (s.sq n).asm = r :: rest) (hruns : s.cpRuns = true)
  (hroom : s.cqRoom (s.sqCq n) = true)
include hasm hruns hroom

theorem exec_commandAccept_duplicate (hseq : recSeq r ≤ s.sqLast n) :
    exec (.commandAccept n) s = .next ((s.consumeAsm n).duplicate n (recSeq r)) := by
  change execCommandAccept n s = _
  simp only [execCommandAccept, hasm, hruns, hroom, hseq, Bool.not_true, Bool.or_self, Bool.false_eq_true, if_false, if_true]

variable (hseq : s.sqLast n < recSeq r)
include hseq

theorem exec_commandAccept_refused {st : Nat} (href : s.refusal (s.sq n).asmReq (s.sq n).asm = some st) :
    exec (.commandAccept n) s = .next (((s.consumeAsm n).setReg .sqSeq n (BitVec.ofNat 64 (recSeq r))).refuseCmd n (recSeq r) st) := by
  rw [hasm] at href
  change execCommandAccept n s = _
  simp only [execCommandAccept, hasm, hruns, hroom, href, Nat.not_le.mpr hseq, Bool.not_true, Bool.or_self,
    Bool.false_eq_true, if_false]

variable (href : s.refusal (s.sq n).asmReq (s.sq n).asm = none)
include href

/-- A good command outside the KV unit's. -/
theorem exec_commandAccept_plain (hop : recOp r ≠ 0x20) (hlow : recOp r < 0x30) :
    exec (.commandAccept n) s = .next (((s.consumeAsm n).setReg .sqSeq n (BitVec.ofNat 64 (recSeq r))).accept n r rest
      (s.sq n).asmReq none none) := by
  rw [hasm] at href
  change execCommandAccept n s = _
  simp only [execCommandAccept, hasm, hruns, hroom, href, hop, Nat.not_le.mpr hseq, Nat.not_le.mpr hlow, State.slotBusy,
    Bool.not_true, Bool.or_self, Bool.false_eq_true, if_false]

/-- One of the KV unit's: its result slot must be free. -/
theorem exec_commandAccept_kv (hhigh : 0x30 ≤ recOp r) :
    let u := (s.consumeAsm n).setReg .sqSeq n (BitVec.ofNat 64 (recSeq r))
    let named := s.namedSlot ((s.sqStall n).getD 16) (recField r 0x28 4)
    exec (.commandAccept n) s = .next (if u.slotBusy named then u.refuseCmd n (recSeq r) stRslotBusy
      else u.accept n r rest (s.sq n).asmReq none named) := by
  rw [hasm] at href
  have hop : recOp r ≠ 0x20 := by omega
  change execCommandAccept n s = _
  simp only [execCommandAccept, hasm, hruns, hroom, href, hop, hhigh, Nat.not_le.mpr hseq, Bool.not_true, Bool.or_self,
    Bool.false_eq_true, if_false, if_true]

end

theorem exec_cqIrqTimer_due {at_ : Nat} (hat : (s.cq n).firstAt = some at_) (hon : s.cqOn n = true)
    (hirq : s.f .cqCtl n 1 1 = 1) (htime : s.f .cqIrq n 16 16 ≠ 0) :
    exec (.cqIrqTimer n) s = .next ((s.notBefore (at_ + 1000 * s.f .cqIrq n 16 16)).cqInterrupt n) := by
  have hguard : (s.cqOn n && s.f .cqCtl n 1 1 == 1 && s.f .cqIrq n 16 16 != 0) = true := by simp [hon, hirq, htime]
  change execCqIrqTimer n s = _
  simp only [execCqIrqTimer, hat, hguard, if_true]

end

/-! ## Their registers (R519, R535, R782) -/

/-- A pointer written with another value below the depth takes it. -/
theorem State.pointerAct_moves {ptr : Reg} {depth : State → Nat → Nat} {go : State → State} {w : Written} {u : State}
    (hne : fld w.val 0 16 ≠ u.f ptr w.idx 0 16) (hlt : fld w.val 0 16 < depth u w.idx) :
    State.pointerAct ptr depth go w u = go (u.setF ptr w.idx 0 16 (fld w.val 0 16)) :=
  (if_neg hne).trans (if_neg (Nat.not_le.mpr hlt))

/-- One from the depth on is recorded. -/
theorem State.pointerAct_refused {ptr : Reg} {depth : State → Nat → Nat} {go : State → State} {w : Written} {u : State}
    (hne : fld w.val 0 16 ≠ u.f ptr w.idx 0 16) (hge : depth u w.idx ≤ fld w.val 0 16) :
    State.pointerAct ptr depth go w u = u.refuseAccess w.agent (ptr.off w.idx) false true :=
  (if_neg hne).trans (if_pos hge)

section
variable {s : State} {agent i : Nat} {r : Reg} {val : Word}

/-- A command that writes a register does what the register's own steps do. -/
theorem exec_of_regWrite {c : Instr} {act : Written → State → State} {u : State}
    (hc : exec c s = .next (s.regWrite agent r i val act)) (h : Accepts s agent r i val)
    (hu : act (writtenAs s agent r i val) (wroteFields s agent r i val) = u) : exec c s = .next u := by
  rw [hc, regWrite_accepts act h, hu]

end

theorem bitAt_or (a b : Word) (k : Nat) : bitAt (a ||| b) k = (bitAt a k || bitAt b k) := by simp [bitAt]

/-- SQ_CTL.FLUSH of an enabled queue (R782). -/
theorem exec_sqFlush_flushes {s : State} {req n : Nat} {val : Word} {host : List Line64} (h : Accepts s req .sqCtl n (val ||| 2))
    (henable : bitAt val 0 = true) :
    let u := wroteFields s req .sqCtl n (val ||| 2)
    let r := u.flushedSeqs n host (u.f .sqHead n 0 16) (u.sqPending n)
    let hi := r.1.foldl max 0
    let v := r.2.setF .sqHead n 0 16 (r.2.f .sqTail n 0 16)
    u.sqOn n = true → r.2.f .sqTail n 0 16 = u.f .sqTail n 0 16 →
      exec (.sqFlush req n val host) s = .next ((v.updSq n fun q => { q with
        asm := [], flushes := q.flushes ++ [(r.1.length, hi, r.1.foldl min hi)] }).postFlushes n) := by
  intro u r hi v hon htail
  refine exec_of_regWrite rfl h ?_
  have hset : (writtenAs s req .sqCtl n (val ||| 2)).set 0 = true := by
    rw [writtenAs_set (by norm_num), bitAt_or, henable, Bool.true_or]
  have hflush : (writtenAs s req .sqCtl n (val ||| 2)).set 1 = true := by
    rw [writtenAs_set (by norm_num), bitAt_or, show bitAt (2 : Word) 1 = true by decide, Bool.or_true]
  have hkeeps : u.enableAct (writtenAs s req .sqCtl n (val ||| 2)) = u :=
    enableAct_runs (w := writtenAs s req .sqCtl n (val ||| 2)) rfl hset (beq_iff_eq.mp hon)
  have hguard : (!(writtenAs s req .sqCtl n (val ||| 2)).set 1 || !u.sqOn n) = false := by rw [hflush, hon]; rfl
  unfold State.sqCtlAct
  rw [hkeeps]
  refine (if_neg (Bool.eq_false_iff.mp hguard)).trans ?_
  unfold v
  rw [htail]
  rfl

/-- Settles O32: fetch and acceptance past their checks; a pointer by its value; FLUSH of an enabled queue. -/
theorem queueCommands : Obligations.QueueCommands := by
  unfold Obligations.QueueCommands
  refine ⟨fun s n => ⟨?fetch, ?accept, fun at_ => exec_cqIrqTimer_due⟩,
    fun s req n val host => ⟨fun h => ⟨?tail, ?tailHigh⟩, fun h => ⟨?head, ?headHigh⟩, exec_sqFlush_flushes⟩⟩
  case fetch =>
    exact fun top host r h u hruns htop hn hr => ⟨exec_cpFetch_starts hruns htop hn hr, exec_cpFetch_drops hruns htop hn hr⟩
  case accept =>
    rintro r rest hasm ⟨hruns, hroom⟩
    exact ⟨exec_commandAccept_duplicate hasm hruns hroom, fun hseq st => exec_commandAccept_refused hasm hruns hroom hseq,
      exec_commandAccept_plain hasm hruns hroom, exec_commandAccept_kv hasm hruns hroom⟩
  case tail => exact fun hne hlt => exec_of_regWrite rfl h (State.pointerAct_moves hne hlt)
  case tailHigh => exact fun hne hge => exec_of_regWrite rfl h (State.pointerAct_refused hne hge)
  case head => exact fun hne hlt => exec_of_regWrite rfl h (State.pointerAct_moves hne hlt)
  case headHigh => exact fun hne hge => exec_of_regWrite rfl h (State.pointerAct_refused hne hge)

/-! ## NOP, MEM_FILL and MEM_COPY (R530) -/

section
variable {s u v : State} {sq st : Nat} {c : Cmd}

theorem exec_memFill_good (h : Starts sq 0x01 s c st) (hlen : memLenOk (c.field 0x18 8) = true)
    (hrange : s.memRange st (c.field 0x10 8) (c.field 0x18 8) true = true)
    (hready : s.memReady st (c.field 0x10 8) true (c.field 0x18 8 / 256) = (true, u)) :
    let line : Line256 := (List.range 32).foldl (fun v j => v ||| (BitVec.ofNat 2048 (c.field 0x20 8) <<< (64 * j))) 0
    exec (.memFill sq) s = .next (((u.memFill st (c.field 0x10 8) line (c.field 0x18 8 / 256)).completeCmd sq c.seq
      stSuccess).postFlushes sq) := by
  refine exec_of_runCmd rfl h ?_
  simp only [hlen, hrange, hready, Bool.not_true, Bool.or_self, Bool.false_eq_true, if_false]

theorem exec_memFill_bad (h : Starts sq 0x01 s c st)
    (hbad : memLenOk (c.field 0x18 8) = false ∨ s.memRange st (c.field 0x10 8) (c.field 0x18 8) true = false) :
    exec (.memFill sq) s = .next ((s.completeCmd sq c.seq stBadAddress).postFlushes sq) := by
  have hguard : (!memLenOk (c.field 0x18 8) || !s.memRange st (c.field 0x10 8) (c.field 0x18 8) true) = true := by
    rcases hbad with hbad | hbad <;> simp [hbad]
  exact exec_of_runCmd rfl h (if_pos hguard)

theorem exec_memCopy_good (host : List HostLine) (h : Starts sq 0x02 s c st) (hlen : memLenOk (c.field 0x18 8) = true)
    (hdst : s.memRange st (c.field 0x10 8) (c.field 0x18 8) true = true)
    (hsrc : s.memRange st (c.field 0x20 8) (c.field 0x18 8) false = true)
    (hapart : c.field 0x20 8 + c.field 0x18 8 ≤ c.field 0x10 8 ∨ c.field 0x10 8 + c.field 0x18 8 ≤ c.field 0x20 8)
    (hthere : s.hostThere st (c.field 0x20 8) = true)
    (hread : s.memReady st (c.field 0x20 8) false (c.field 0x18 8 / 256) = (true, u))
    (hwrite : u.memReady st (c.field 0x10 8) true (c.field 0x18 8 / 256) = (true, v)) :
    exec (.memCopy sq host) s = .next (((v.memCopy st (c.field 0x10 8) (c.field 0x20 8) host (c.field 0x18 8 / 256)).completeCmd
      sq c.seq stSuccess).postFlushes sq) := by
  have hover : (decide (c.field 0x10 8 < c.field 0x20 8 + c.field 0x18 8)
      && decide (c.field 0x20 8 < c.field 0x10 8 + c.field 0x18 8)) = false := by
    simp only [Bool.and_eq_false_iff, decide_eq_false_iff_not]
    omega
  refine exec_of_runCmd rfl h ?_
  simp only [hlen, hdst, hsrc, hover, hthere, hread, hwrite, Bool.not_true, Bool.or_self, Bool.false_eq_true, if_false]

end

/-- Settles O33: each command past its checks. -/
theorem memoryOperations : Obligations.MemoryOperations := by
  unfold Obligations.MemoryOperations
  intro s sq st c dst n src line
  exact ⟨fun h => exec_of_runCmd rfl h rfl, fun h hlen hrange u => exec_memFill_good h hlen hrange, exec_memFill_bad,
    fun h hlen hdst hsrc hapart hthere u v host => exec_memCopy_good host h hlen hdst hsrc hapart hthere⟩

end Sys2Proof.Machine
end

