-- ==== Sys2Proof/Proofs/Management.lean ====
section
/-! PROOFS. Sessions and tokens, mailbox commands and dynamic capacity (O35, O37, O38). -/

namespace Sys2Proof.Machine

open Sys2Proof

/-! ## Sessions (R220 to R226) -/

section
variable {s : State} {req sid key : Nat} {e : Session} (hup : s.spdmUp req = true)
include hup

theorem exec_keyExchange_opens (hnew : s.gb.sessions.any (fun e => e.id == sid) = false) (hroom : s.gb.sessions.length < 4)
    (hkey : s.gb.ownerKey ≠ some key) (m : Bool) :
    exec (.keyExchange req sid key m) s =
      .next ((s.setSessions (s.gb.sessions ++ [⟨sid, req, key, m, false, s.now⟩])).spdmOk req [sid]) := by
  have howner : (s.gb.ownerKey == some key) = false := beq_eq_false_iff_ne.mpr hkey
  have hroom' : ¬ sessionsMax ≤ s.gb.sessions.length := Nat.not_le.mpr hroom
  change execKeyExchange req sid key m s = _
  simp only [execKeyExchange, hup, hnew, howner, hroom', Bool.not_true, Bool.not_false, Bool.and_false, Bool.false_and, Bool.or_self,
    Bool.false_eq_true, if_false, List.filter_true]

/-- While another requester holds the host session, its key opens none. -/
theorem exec_keyExchange_busy (hnew : s.gb.sessions.any (fun e => e.id == sid) = false) (hkey : s.gb.ownerKey = some key)
    (hheld : s.f .gbOwner 0 1 1 = 1) (hother : s.f .gbOwner 0 2 4 ≠ req) :
    ∃ c, exec (.keyExchange req sid key true) s = .next (s.emit (.spdm req false [c])) := by
  have howner : (s.gb.ownerKey == some key) = true := beq_iff_eq.mpr hkey
  have hbusy : (s.f .gbOwner 0 1 1 == 1 && s.f .gbOwner 0 2 4 != req) = true := by simp [hheld, hother]
  refine ⟨spBusy, ?_⟩
  change execKeyExchange req sid key true s = _
  simp only [execKeyExchange, hup, hnew, howner, hbusy, Bool.not_true, Bool.and_self, Bool.or_self, Bool.false_eq_true,
    if_false, if_true]
  rfl

theorem exec_endSession_known (he : s.session? req sid = some e) :
    exec (.endSession req sid) s = .next ((s.endSession sid).spdmOk req) := by
  change execEndSession req sid s = _
  simp only [execEndSession, hup, he]

theorem exec_heartbeat_known (he : s.session? req sid = some e) :
    exec (.heartbeat req sid) s = .next ((s.touch sid).spdmOk req) := by
  change execHeartbeat req sid s = _
  simp only [execHeartbeat, hup, he]

theorem exec_spdmRequest_known {c : Nat} (hc : spdmCodes.contains c = true) :
    exec (.spdmRequest req c) s = .next ((s.touchAll req).spdmOk req [c]) := by
  change execSpdmRequest req c s = _
  simp only [execSpdmRequest, hup, hc, Bool.not_true, Bool.false_eq_true, if_false, if_true]

theorem exec_ownerClaim_unclaimed (he : s.session? req sid = some e) (hkey : s.gb.ownerKey = none) (hm : e.mutual_ = true) :
    exec (.ownerClaim req sid) s = .next (((({ s with gb := { s.gb with ownerKey := some e.key } }.setF .gbOwner 0 0 1 1).touch
      sid).becomeOwner req sid).spdmOk req) := by
  change execOwnerClaim req sid s = _
  simp only [execOwnerClaim, hup, he, hkey, hm, Option.isSome_none, Bool.not_true, Bool.or_self, Bool.false_eq_true, if_false]

theorem exec_ideKm_inSession (hs : s.gb.sessions.any (fun e => e.req == req) = true) :
    exec (.ideKm req) s = .next ((s.touchAll req).setIde (s.streamMates req) true) := by
  have hguard : (s.spdmUp req && s.gb.sessions.any fun e => e.req == req) = true := by rw [hup, hs]; rfl
  exact congrArg Host.Outcome.next (if_pos hguard)

end

theorem exec_ownerSessionTimeout_known {s : State} {sid : Nat} {e : Session}
    (he : s.gb.sessions.find? (fun e => e.id == sid) = some e) :
    exec (.ownerSessionTimeout sid) s = .next ((s.notBefore (e.last + heartbeats)).endSession sid) := by
  change execOwnerSessionTimeout sid s = _
  simp only [execOwnerSessionTimeout, he]

theorem exec_ideIntegrityFail_secure {s : State} {req : Nat} (hp : s.present req = true)
    (hs : s.link.ideSecure.contains req = true) :
    exec (.ideIntegrityFail req) s = .next (((s.setIde (s.streamMates req) false).postEvent 2
      ⟨.memoryModule, FaultCode.ideFailure.code⟩ (s.streamMates req)).advise .ideFailure 7 req) := by
  have hguard : (!s.present req || !s.link.ideSecure.contains req) = false := by rw [hp, hs]; rfl
  exact congrArg Host.Outcome.next (if_neg (Bool.eq_false_iff.mp hguard))

/-! ## Debug tokens (R793 to R797) -/

section
variable {s : State} {req : Nat} {sig : Bool} {words : List Word}

theorem exec_debugSubmit_connector (hpower : s.pw.rails ≠ 0) (hreset : s.inReset = false) :
    exec (.debugSubmit req sig (some words)) s = .next (s.submitToken (bytesOf (words.take 20)) sig) := by
  have hguard : (decide (s.pw.rails = 0) || s.inReset) = false := by simp [hpower, hreset]
  exact congrArg Host.Outcome.next (if_neg (Bool.eq_false_iff.mp hguard))

/-- A test that answers when it fails, and passes on otherwise. -/
theorem ite_some_eq_none {α : Type} {p : Prop} [Decidable p] {a : α} {b : Option α} :
    (if p then some a else b) = none ↔ ¬ p ∧ b = none := by
  split
  · next hp => simp [hp]
  · next hp => simp [hp]

/-- A token that nothing refuses has passed every test. -/
theorem State.tokenRefused_eq_none {t : List Byte} (h : s.tokenRefused t sig = none) :
    sig = true ∧ (∀ st, st < 16 → s.active.valid st = false) ∧ tokenField t 8 16 = s.card.uid.toNat
      ∧ tokenField t 0x18 32 = s.nonce := by
  simp only [State.tokenRefused, ite_some_eq_none] at h
  obtain ⟨-, huid, hnonce, hsig, hstalls, -⟩ := h
  refine ⟨?_, fun st hst => ?_, not_not.mp huid, not_not.mp hnonce⟩
  · simp only [Bool.or_eq_true, not_or, Bool.not_eq_true', Bool.not_eq_false] at hsig
    exact hsig.1
  · exact List.any_eq_false.mp (Bool.eq_false_iff.mpr hstalls) st (List.mem_range.mpr hst) |> Bool.eq_false_iff.mpr

end

/-- Settles O35: each request past its checks; a token refused or not. -/
theorem sessionsAndTokens : Obligations.SessionsAndTokens := by
  unfold Obligations.SessionsAndTokens
  refine ⟨fun s req sid key e => ⟨fun hup => ⟨?opens, ?busy, ?ends, ?measures, ?requests, ?claims, ?ide⟩,
      exec_ownerSessionTimeout_known, exec_ideIntegrityFail_secure⟩,
    fun s req sig words => ?token, fun s t sig => State.tokenRefused_eq_none⟩
  case opens => exact exec_keyExchange_opens hup
  case busy => exact exec_keyExchange_busy hup
  case ends => exact fun he => ⟨exec_endSession_known hup he, exec_heartbeat_known hup he⟩
  case measures => exact congrArg Host.Outcome.next (if_pos hup)
  case requests => exact fun c => exec_spdmRequest_known hup
  case claims => exact exec_ownerClaim_unclaimed hup
  case ide => exact exec_ideKm_inSession hup
  case token =>
    intro t u hpower hreset
    refine ⟨fun c hc => ?refused, fun hc => ?unlocks⟩
    all_goals rw [exec_debugSubmit_connector hpower hreset, State.submitToken, hc]
    case refused => rfl

/-! ## Mailbox commands (R117 to R124) -/

section
variable {s : State} {req : Nat} (hp : s.present req = true)
include hp

/-- A command of a present requester's mailbox runs. -/
theorem exec_of_mailbox {c : Instr} {go : State → State} {u : State} (hc : exec c s = .next (s.mailbox req go))
    (hu : go s = u) : exec c s = .next u := by
  rw [hc, State.mailbox, if_pos hp, hu]

theorem exec_getTimestamp_set {v t : Nat} (h : (s.mbox req).stampSet = some (v, t)) :
    exec (.getTimestamp req) s = .next (s.mail req .success [v + (s.now - t)]) := by
  refine exec_of_mailbox hp rfl ?_
  rw [h]

theorem exec_getTimestamp_unset (h : (s.mbox req).stampSet = none) :
    exec (.getTimestamp req) s = .next (s.mail req .success [0]) := by
  refine exec_of_mailbox hp rfl ?_
  rw [h]

theorem exec_clearEventRecords_inRange {log n : Nat} (hlog : log ≤ 3) (hn : n ≤ (Tbl.get [] (s.mbox req).logs log).length) :
    exec (.clearEventRecords req log n) s = .next ((s.updMbox req fun m => { m with
      logs := Tbl.put [] m.logs log ((Tbl.get [] (s.mbox req).logs log).drop n)
      overflow := if (Tbl.get [] (s.mbox req).logs log).length = n then Tbl.put 0 m.overflow log 0 else m.overflow }).mail req
        .success) := by
  have hguard : (decide (3 < log) || decide ((Tbl.get [] (s.mbox req).logs log).length < n)) = false := by
    simp [hlog, hn]
  exact exec_of_mailbox hp rfl (if_neg (Bool.eq_false_iff.mp hguard))

theorem exec_setEventInterruptPolicy_defined {policy : Word32} (h : ∀ k, k < 4 → policy.toNat / 2 ^ (8 * k) % 4 ≤ 1) :
    exec (.setEventInterruptPolicy req policy) s =
      .next ((s.updMbox req fun m => { m with policy := policy }).mail req .success) := by
  have hguard : ((List.range 4).any fun k => decide (1 < policy.toNat / 2 ^ (8 * k) % 4)) = false := by
    rw [List.any_eq_false]
    exact fun k hk => by simpa using h k (List.mem_range.mp hk)
  exact exec_of_mailbox hp rfl (if_neg (Bool.eq_false_iff.mp hguard))

/-- A poison command of the Owner at a mapped, aligned line (R119). -/
theorem exec_of_poisonCmd {c : Instr} {dpa p : Nat} {go : Nat → State → State} (hc : exec c s = .next (s.poisonCmd req dpa go))
    (howner : s.hasOwner req = true) (halign : dpa % 64 = 0) (hmap : s.hostMap req dpa = some p) :
    exec c s = .next ((go p s).mail req .success) := by
  refine exec_of_mailbox hp hc ?_
  simp only [howner, halign, hmap, Bool.not_true, Bool.false_eq_true, if_false, if_true]

theorem exec_injectPoison_stranger {dpa : Nat} (howner : s.hasOwner req = false) :
    exec (.injectPoison req dpa) s = .next (s.mail req .invalidSecurityState) := by
  refine exec_of_mailbox hp rfl (if_pos ?_)
  rw [howner]; rfl

end

theorem exec_sanitizeDone_busy {s : State} {req : Nat} (h : (s.mbox req).sanitize = true) :
    exec (.sanitizeDone req) s = .next (((runsOf (s.ownBlocks req)).foldl (fun s r => s.zeroBlocks r.1 r.2) s).updMbox req
      fun m => { m with sanitize := false }) := by
  have hguard : (!(s.mbox req).sanitize) = false := by rw [h]; rfl
  exact congrArg Host.Outcome.next (if_neg (Bool.eq_false_iff.mp hguard))

/-- Settles O37: each command of a present requester's mailbox. -/
theorem mailboxCommands : Obligations.MailboxCommands := by
  unfold Obligations.MailboxCommands
  refine ⟨?reads, ?writes⟩
  case reads =>
    intro s req log dpa len m tells n hp
    refine ⟨fun hlog => ?records, ?policy, exec_getTimestamp_unset hp, fun v t => exec_getTimestamp_set hp, ?logs, ?log, ?fw,
      ?identity, ?health, ?alert, ?poison, ?scan, ?dcConfig, ?dcList⟩
    case records => exact exec_of_mailbox hp rfl (if_neg (Nat.not_lt.mpr hlog))
    all_goals exact exec_of_mailbox hp rfl rfl
  case writes =>
    intro s req log n dpa len op policy w d m l ends hp
    refine ⟨exec_clearEventRecords_inRange hp, exec_setEventInterruptPolicy_defined hp, ?stamp, ?setAlert, ?transfer, ?activate,
      fun hop => ?unsupported, fun p howner halign hmap => ⟨?inject, ?clear⟩, exec_injectPoison_stranger hp,
      fun hidle => ⟨?scanned, ?sanitize, ?erase⟩, exec_sanitizeDone_busy⟩
    case unsupported => exact exec_of_mailbox hp rfl (if_neg (Bool.eq_false_iff.mp hop))
    case inject => exact (exec_of_poisonCmd (c := .injectPoison req dpa) hp rfl howner halign hmap :)
    case clear => exact (exec_of_poisonCmd (c := .clearPoison req dpa d) hp rfl howner halign hmap :)
    case scanned => exact (exec_of_mailbox (c := .scanMedia req dpa len) hp rfl (if_neg (Bool.eq_false_iff.mp hidle)) :)
    case sanitize => exact (exec_of_mailbox (c := .sanitize req) hp rfl (if_neg (Bool.eq_false_iff.mp hidle)) :)
    case erase => exact (exec_of_mailbox (c := .secureErase req) hp rfl (if_neg (Bool.eq_false_iff.mp hidle)) :)
    all_goals exact exec_of_mailbox hp rfl rfl

/-! ## Dynamic capacity (R115, R116) -/

section
variable {s : State} {agent ext req : Nat} {e : Extent}

section
variable (hup : s.mgmtUp = true) (hagent : agent ≤ fmAgent) (howner : s.hasOwner agent = true)
include hup hagent howner

theorem exec_initiateDynamicCapacityAdd_good {blocks reqs : List Nat} {region k : Nat} (hok : s.addOk blocks region reqs = true)
    (hroom : ∀ r ∈ reqs, s.extentsOf r < extentsMax)
    (hk : (if region = 1 then s.freeSlot else some (17 + reqs.headD 0)) = some k) :
    exec (.initiateDynamicCapacityAdd agent blocks region reqs none) s =
      .next ((s.addExtent blocks region k reqs).fm .success [s.link.nextExtent]) := by
  have hguard : (!s.mgmtUp || decide (fmAgent < agent)) = false := by simp [hup, hagent]
  have hfull : (reqs.any fun r => decide (extentsMax ≤ s.extentsOf r)) = false := by
    rw [List.any_eq_false]
    exact fun r hr => by simpa using hroom r hr
  change execInitiateDynamicCapacityAdd agent blocks region reqs none s = _
  simp only [execInitiateDynamicCapacityAdd, hguard, howner, hok, hfull, hk, Bool.not_true, Bool.false_eq_true, if_false]

theorem exec_initiateDynamicCapacityRelease_forced
    (he : s.link.extents.find? (fun e => e.id == ext && (e.holders.contains req || e.offered.contains req)) = some e) :
    exec (.initiateDynamicCapacityRelease agent ext req true) s = .next (((s.dcEvent ext [req]).forceRemove req e).fm .success) := by
  have hguard : (!s.mgmtUp || decide (fmAgent < agent)) = false := by simp [hup, hagent]
  change execInitiateDynamicCapacityRelease agent ext req true s = _
  simp only [execInitiateDynamicCapacityRelease, hguard, howner, he, Bool.not_true, Bool.true_or, Bool.false_eq_true, if_false,
    if_true]

end

theorem exec_extentOffer_new (he : s.link.extents.find? (fun e => e.id == ext && !e.posted) = some e) (hstage : s.stageNow ≠ 0) :
    exec (.extentOffer ext) s = .next (((e.blocks.foldl (fun s b => s.zeroBlocks b 1) s).updExtent ext fun x =>
      { x with posted := true }).dcEvent ext e.offered) := by
  change execExtentOffer ext s = _
  simp only [execExtentOffer, he, hstage, if_false]

section
variable (hp : s.present req = true)
include hp

theorem exec_addDynamicCapacityResponse_offered
    (he : s.link.extents.find? (fun e => e.id == ext && e.posted && e.offered.contains req) = some e) (accept : Bool) :
    exec (.addDynamicCapacityResponse req ext accept) s = .next ((s.updExtent ext fun e => { e with
      offered := e.offered.filter (· != req)
      holders := if accept then KSet.add req e.holders else e.holders }).sweepExtents.mail req .success) := by
  refine exec_of_mailbox hp rfl ?_
  simp only [he]

theorem exec_releaseDynamicCapacity_held
    (he : s.link.extents.find? (fun e => e.id == ext && e.holders.contains req) = some e)
    (hroom : ∀ l ∈ s.linesHeld req e, (s.tracker l).queue.length < trackerPlaces) :
    exec (.releaseDynamicCapacity req ext) s = .next ((((s.linesHeld req e).foldl (fun u l =>
      u.enterOrder l (.release req ext) (s.tieKey req).1 (s.tieKey req).2) s).finishRelease req ext).mail req .success) := by
  have hfull : ((s.linesHeld req e).any fun l => decide (trackerPlaces ≤ (s.tracker l).queue.length)) = false := by
    rw [List.any_eq_false]
    exact fun l hl => by simpa using hroom l hl
  refine exec_of_mailbox hp rfl ?_
  simp only [he, hfull, Bool.false_eq_true, if_false]

end
end

/-- Settles O38: each command past its checks. -/
theorem dynamicCapacity : Obligations.DynamicCapacity := by
  unfold Obligations.DynamicCapacity
  intro s agent ext req region e blocks reqs
  refine ⟨fun hup hagent howner => ⟨?add, exec_initiateDynamicCapacityRelease_forced hup hagent howner⟩, exec_extentOffer_new,
    fun hp => ⟨exec_addDynamicCapacityResponse_offered hp, exec_releaseDynamicCapacity_held hp⟩⟩
  case add => exact fun hok hroom k => exec_initiateDynamicCapacityAdd_good hup hagent howner hok hroom

end Sys2Proof.Machine
end

