-- ==== Sys2Proof/Proofs/Agents.lean ====
section
/-! PROOFS. The FM API, MCTP and PLDM requests, and firmware update (O39, O40, O41). -/

namespace Sys2Proof.Machine

open Sys2Proof

/-! ## The FM API (R756) -/

theorem State.mldOnly_mld {s : State} {go : State → State} (h : s.f .devLink 0 0 2 = 1) : s.mldOnly go = go s := if_pos h

theorem State.setFractions_good {s : State} {lo : Nat} {fr : List (Nat × Nat)} (h : ∀ e ∈ fr, e.1 < 16 ∧ e.2 < 256) :
    s.setFractions lo fr = (fr.foldl (fun u e => u.setF .bridleLdq e.1 lo 8 e.2) s).fm .success :=
  if_pos (List.all_eq_true.mpr fun e he => by simpa using h e he)

section
variable {s : State} {agent : Nat} {c : Instr} {go : State → State} {u : State} (hup : s.mgmtUp = true)
  (hagent : agent ≤ fmAgent)
include hup hagent

/-- A message of the FM API while the MGMT image runs. -/
theorem exec_of_fmRequest (hc : exec c s = .next (s.fmRequest agent go)) (hu : go s = u) : exec c s = .next u := by
  have hguard : (s.mgmtUp && decide (agent ≤ fmAgent)) = true := by simp [hup, hagent]
  rw [hc, State.fmRequest, if_pos hguard, hu]

/-- One that changes state, of an agent with Owner authority. -/
theorem exec_of_fmChange (hc : exec c s = .next (s.fmChange agent go)) (howner : s.hasOwner agent = true) (hu : go s = u) :
    exec c s = .next u :=
  exec_of_fmRequest hup hagent hc ((if_pos howner).trans hu)

/-- Of one without. -/
theorem exec_of_fmChange_refused (hc : exec c s = .next (s.fmChange agent go)) (howner : s.hasOwner agent = false) :
    exec c s = .next (s.fm .invalidSecurityState) :=
  exec_of_fmRequest hup hagent hc (if_neg (Bool.eq_false_iff.mp howner))

/-- Allocations taken from LDs and given to none. -/
theorem exec_setLdAllocations_taken {lds : List Nat} (howner : s.hasOwner agent = true) (hmld : s.f .devLink 0 0 2 = 1)
    (hlds : ∀ l ∈ lds, l < 16) :
    exec (.setLdAllocations agent lds []) s = .next (({ s with link := { s.link with
      assigned := s.link.assigned.map fun (r : Nat × Nat × Option Nat) =>
        (r.1, r.2.1, if r.2.2.any lds.contains then none else r.2.2) } }).fm .success) := by
  refine exec_of_fmChange hup hagent rfl howner ((State.mldOnly_mld hmld).trans (if_neg ?_))
  have hall : (lds.all fun l => decide (l < 16)) = true := List.all_eq_true.mpr fun l hl => by simpa using hlds l hl
  simp [hall, allocBlocks]

end

/-- Settles O39: each message past its checks. -/
theorem fmApi : Obligations.FmApi := by
  unfold Obligations.FmApi
  intro s agent req w fr lds tells region hup hagent
  refine ⟨?identify, ?ldInfo, fun hmode => ?heads, ?dcdInfo, fun hreq => ?regions, fun hreq => ?extents,
    fun hmld => ⟨?alloc, ?qosCtl, ?qosStatus, ?bw, ?limit⟩,
    fun hmld howner => ⟨?setCtl, fun hfr => ⟨?setBw, ?setLimit⟩, exec_setLdAllocations_taken hup hagent howner hmld⟩,
    fun howner => ⟨?refusedCtl, ?refusedAlloc⟩⟩
  case identify => exact exec_of_fmRequest hup hagent rfl rfl
  case ldInfo => exact exec_of_fmRequest hup hagent rfl rfl
  case heads => exact exec_of_fmRequest hup hagent rfl (if_pos hmode)
  case dcdInfo => exact exec_of_fmRequest hup hagent rfl rfl
  case regions => exact exec_of_fmRequest hup hagent rfl (if_neg (Nat.not_le.mpr hreq))
  case extents => exact exec_of_fmRequest hup hagent rfl (if_neg (Nat.not_le.mpr hreq))
  case alloc => exact exec_of_fmRequest hup hagent rfl (State.mldOnly_mld hmld)
  case qosCtl => exact exec_of_fmRequest hup hagent rfl (State.mldOnly_mld hmld)
  case qosStatus => exact exec_of_fmRequest hup hagent rfl (State.mldOnly_mld hmld)
  case bw => exact exec_of_fmRequest hup hagent rfl (State.mldOnly_mld hmld)
  case limit => exact exec_of_fmRequest hup hagent rfl (State.mldOnly_mld hmld)
  case setCtl => exact exec_of_fmChange hup hagent rfl howner (State.mldOnly_mld hmld)
  case setBw => exact exec_of_fmChange hup hagent rfl howner ((State.mldOnly_mld hmld).trans (State.setFractions_good hfr))
  case setLimit => exact exec_of_fmChange hup hagent rfl howner ((State.mldOnly_mld hmld).trans (State.setFractions_good hfr))
  case refusedCtl => exact exec_of_fmChange_refused hup hagent rfl howner
  case refusedAlloc => exact exec_of_fmChange_refused hup hagent rfl howner

/-! ## MCTP and PLDM requests (R747 to R750) -/

section
variable {s : State} {ep x : Nat} (hup : s.mgmtUp = true) (hep : s.endpoint ep = true)
include hup hep

/-- A request at a reachable endpoint while the MGMT image runs. -/
theorem exec_of_request {c : Instr} {go : State → State} {u : State} (hc : exec c s = .next (s.request ep go)) (hu : go s = u) :
    exec c s = .next u := by
  have hguard : (s.mgmtUp && s.endpoint ep) = true := by rw [hup, hep]; rfl
  rw [hc, State.request, if_pos hguard, hu]

theorem exec_getMctpVersionSupport_known (hx : mctpTypes.contains x = true) :
    exec (.getMctpVersionSupport ep x) s = .next (s.respond 4 0 [1]) := by
  have hguard : (decide (x = 0xFF) || mctpTypes.contains x) = true := by rw [hx, Bool.or_true]
  exact exec_of_request hup hep rfl (if_pos hguard)

theorem exec_setTid_valid (hlow : x ≠ 0) (hhigh : x < 0xFF) :
    exec (.setTid ep x) s = .next ((s.updMgmt fun m => { m with tid := x }).respond (pldm 0 1) 0) := by
  have hguard : (decide (x = 0) || decide (0xFF ≤ x)) = false := by simp [hlow, hhigh]
  exact exec_of_request hup hep rfl (if_neg (Bool.eq_false_iff.mp hguard))

theorem exec_getSensorReading_known {v : Nat} (hx : s.sensors.contains x = true) (hv : s.sensor x = some v) :
    exec (.getSensorReading ep x) s = .next (s.respond (pldm 2 0x11) 0 [0, v]) := by
  refine exec_of_request hup hep rfl ?_
  simp only [hx, hv, Bool.not_true, Bool.false_eq_true, if_false]

/-- Record 7 is the hottest sensor's. -/
theorem exec_getPdr_seven : exec (.getPdr ep 7) s =
    .next (s.respond (pldm 2 0x51) 0 [7, lowBits 8 s.warnC, lowBits 8 s.fenceC, 120]) := by
  have hrecord : (s.sensors ++ stateSensors)[7 - 1]? = some 7 := rfl
  refine exec_of_request hup hep rfl ?_
  rw [hrecord]
  rfl

end

/-- A changed event source whose message is acknowledged is noted as seen (R750). -/
theorem exec_platformEventMessage_acknowledged {s : State} {x : Nat} (hup : s.mgmtUp = true)
    (hon : s.f .mgmtStatus 0 35 1 ≠ 0) (hx : eventSensors.contains x = true) (hnew : Tbl.get 0 s.mgmt.seen x ≠ s.eventState x) :
    exec (.platformEventMessage x true) s = .next ((s.updMgmt fun m => { m with
      seen := Tbl.insert x (s.eventState x) m.seen, unacked := Tbl.erase x m.unacked }).respond (pldm 2 0xA) 0
        [x, s.eventState x]) := by
  have hguard : (!s.mgmtUp || decide (s.f .mgmtStatus 0 35 1 = 0) || !eventSensors.contains x) = false := by
    rw [hup, hx, decide_eq_false hon]; rfl
  exact congrArg Host.Outcome.next ((if_neg (Bool.eq_false_iff.mp hguard)).trans (if_pos hnew))

/-- Settles O40: each request at a reachable endpoint. -/
theorem mgmtRequests : Obligations.MgmtRequests := by
  unfold Obligations.MgmtRequests
  intro s ep x on tells hup hep
  refine ⟨?setEid, ?eid, ?uuid, exec_getMctpVersionSupport_known hup hep, ?types, ?vendor, ?tid, exec_setTid_valid hup hep,
    fun hx => ⟨?version, ?commands⟩, ?pldmTypes, fun v => exec_getSensorReading_known hup hep, fun hx => ?states, ?repository,
    exec_getPdr_seven hup hep, ?setReceiver, ?receiver, exec_platformEventMessage_acknowledged hup⟩
  case version => exact exec_of_request hup hep rfl (if_neg fun h => hx (List.isEmpty_iff.mp h))
  case commands => exact exec_of_request hup hep rfl (if_neg fun h => hx (List.isEmpty_iff.mp h))
  case states => exact exec_of_request hup hep rfl (if_pos hx)
  all_goals exact exec_of_request hup hep rfl rfl

/-! ## Firmware update (R751 to R753) -/

section
variable {s : State} {ep comp : Nat} {u : Update}

/-- A request of the update agent in update mode. -/
theorem exec_of_agentRequest {c : Instr} {cmd : Nat} {go : Update → State → State} {v : State} (hup : s.mgmtUp = true)
    (hep : s.endpoint ep = true) (hu : s.mgmt.update = some u) (hc : exec c s = .next (s.agentRequest ep cmd go))
    (hv : go { u with last := s.now } (s.setUpdate s.updatePhase (some { u with last := s.now })) = v) : exec c s = .next v := by
  refine exec_of_request hup hep hc ?_
  rw [hu]
  exact hv

/-- The device's own step in its phase. -/
theorem exec_of_updateStep {c : Instr} {phase : Nat} {go : Update → Nat → State → State} {v : State} (hup : s.mgmtUp = true)
    (hu : s.mgmt.update = some u) (hcur : u.cur = some comp) (hphase : s.updatePhase = phase)
    (hc : exec c s = .next (s.updateStep phase go)) (hv : go u comp s = v) : exec c s = .next v := by
  rw [hc, State.updateStep, hup, hu]
  simp only [hcur, hphase, if_true, hv]

section
variable (hup : s.mgmtUp = true) (hep : s.endpoint ep = true)
include hup hep

theorem exec_queryDeviceIdentifiers_answers : exec (.queryDeviceIdentifiers ep) s =
    .next (s.respond (pldm 5 1) 0 [0x1F9E, 0x4820, 0x1F9E,
      if s.card.order = .p256 then 1 else if s.card.order = .a256 then 2 else 3]) := by
  refine exec_of_request hup hep rfl ?_
  cases s.card.order with
  | p256 => rfl
  | a256 => rfl
  | p128 => rfl

theorem exec_requestUpdate_begins {owner : Bool} (hmay : s.mayManage owner = true) (hnone : s.mgmt.update = none) :
    exec (.requestUpdate ep owner) s =
      .next ((s.setUpdate 1 (some ⟨!s.pairB, [], none, [], s.now⟩)).respond (pldm 5 0x10) 0) := by
  refine exec_of_request hup hep rfl ?_
  simp only [hmay, hnone, Bool.not_true, Option.isSome_none, Bool.false_eq_true, if_false]

theorem exec_requestUpdate_refused {owner : Bool} (hmay : s.mayManage owner = false) :
    exec (.requestUpdate ep owner) s = .next (s.respond (pldm 5 0x10) 1) := by
  refine exec_of_request hup hep rfl (if_pos ?_)
  rw [hmay]; rfl

variable (hu : s.mgmt.update = some u)
include hu

theorem exec_passComponentTable_ready {comps : List Nat} (hcur : u.cur = none) :
    let v := { u with last := s.now }
    let t := s.setUpdate s.updatePhase (some v)
    t.updatePhase = 1 → exec (.passComponentTable ep comps) s =
      .next ((t.setUpdate 1 (some { v with comps := knownComps.filter comps.contains })).respond (pldm 5 0x13) 0) := by
  intro v t hphase
  have hguard : (decide (t.updatePhase ≠ 1) || v.cur.isSome) = false := by
    have hnone : v.cur = none := hcur
    rw [hphase, hnone]; rfl
  exact exec_of_agentRequest hup hep hu rfl (if_neg (Bool.eq_false_iff.mp hguard))

theorem exec_updateComponent_begins (hin : u.comps.contains comp = true) (hnew : u.done.contains comp = false) :
    let v := { u with last := s.now }
    let t := s.setUpdate s.updatePhase (some v)
    t.updatePhase = 1 → exec (.updateComponent ep comp) s =
      .next ((t.setUpdate 2 (some { v with cur := some comp })).respond (pldm 5 0x14) 0) := by
  intro v t hphase
  have hguard : (decide (t.updatePhase ≠ 1) || !v.comps.contains comp || v.done.contains comp) = false := by
    have hin' : v.comps.contains comp = true := hin
    have hnew' : v.done.contains comp = false := hnew
    rw [hphase, hin', hnew']; rfl
  exact exec_of_agentRequest hup hep hu rfl (if_neg (Bool.eq_false_iff.mp hguard))

theorem exec_activateFirmware_ready :
    let t := s.setUpdate s.updatePhase (some { u with last := s.now })
    t.updatePhase = 5 → exec (.activateFirmware ep) s =
      .next (({ t with stage := { t.stage with bootB := u.pairB, bootSeq := t.stage.bootSeq + 1 } }.setUpdate 0 none).respond
        (pldm 5 0x1A) 0) :=
  fun hphase => exec_of_agentRequest hup hep hu rfl (if_neg (not_not_intro hphase))

theorem exec_cancelUpdateComponent_current (hcur : u.cur ≠ none) :
    let v := { u with last := s.now }
    exec (.cancelUpdateComponent ep) s =
      .next (((s.setUpdate s.updatePhase (some v)).setUpdate 1 (some { v with cur := none })).respond (pldm 5 0x1C) 0) :=
  exec_of_agentRequest hup hep hu rfl (if_neg fun h => hcur (Option.isNone_iff_eq_none.mp h))

end

theorem exec_updateTimeout_drops (hup : s.mgmtUp = true) (hu : s.mgmt.update = some u) :
    exec .updateTimeout s = .next ((s.notBefore (u.last + minute)).dropUpdate) := by
  change execUpdateTimeout s = _
  simp only [execUpdateTimeout, hu, hup, if_true]

section
variable (hup : s.mgmtUp = true) (hu : s.mgmt.update = some u) (hcur : u.cur = some comp)
include hup hu hcur

theorem exec_requestFirmwareData_asks {off len : Nat} (hphase : s.updatePhase = 2) (hlow : len ≠ 0) (hhigh : len ≤ 4096) :
    exec (.requestFirmwareData off len) s =
      .next (({ s with stage := s.stage.setImage u.pairB comp { s.stage.image u.pairB comp with sigOk := false } }.setUpdate 2
        (some { u with last := s.now })).respond (pldm 5 0x15) 0 [off, len]) := by
  have hguard : (decide (len = 0) || decide (4096 < len)) = false := by simp [hlow, hhigh]
  exact exec_of_updateStep hup hu hcur hphase (congrArg Host.Outcome.next (if_neg (Bool.eq_false_iff.mp hguard))) rfl

theorem exec_verifyComplete_verifies (hphase : s.updatePhase = 3) (h : (s.copyLacking u).verifies u comp = true) :
    exec .verifyComplete s =
      .next (((s.copyLacking u).setUpdate 4 (some { u with last := (s.copyLacking u).now })).respond (pldm 5 0x17) 0 [0]) :=
  exec_of_updateStep hup hu hcur hphase rfl (if_pos h)

end
end

/-- Settles O41: each request and each step of the device in its phase. -/
theorem firmwareUpdate : Obligations.FirmwareUpdate := by
  unfold Obligations.FirmwareUpdate
  intro s ep comp comps u img now_ t tells
  refine ⟨fun hup hep => ⟨exec_queryDeviceIdentifiers_answers hup hep, ?parameters, fun owner => exec_requestUpdate_begins hup hep,
      fun owner => exec_requestUpdate_refused hup hep, ?status, fun hu => ⟨?table, ?component, ?activate, ?cancelOne, ?cancel⟩⟩,
    exec_updateTimeout_drops, fun hup hu hcur => ⟨?data, fun hphase => ?transfer, exec_verifyComplete_verifies hup hu hcur,
      fun hphase => ?apply⟩⟩
  case parameters => exact exec_of_request hup hep rfl rfl
  case status => exact exec_of_request hup hep rfl rfl
  case table => exact fun hphase hcur => exec_passComponentTable_ready hup hep hu hcur hphase
  case component => exact fun hphase hin hnew => exec_updateComponent_begins hup hep hu hin hnew hphase
  case activate => exact exec_activateFirmware_ready hup hep hu
  case cancelOne => exact exec_cancelUpdateComponent_current hup hep hu
  case cancel => exact exec_of_agentRequest hup hep hu rfl rfl
  case data => exact fun off len hphase hlow hhigh => exec_requestFirmwareData_asks hup hu hcur hphase hlow hhigh
  case transfer => exact exec_of_updateStep hup hu hcur hphase rfl rfl
  case apply => exact exec_of_updateStep hup hu hcur hphase rfl rfl

end Sys2Proof.Machine
end

