-- ==== Sys2Proof/Proofs/RegisterWrites.lean ====
section
/-! PROOFS. Writes of registers: ENABLE, the stall table, checks and harnesses, single effects (O42, O43, O45, O47). -/

namespace Sys2Proof.Machine

open Sys2Proof

/-! ## ENABLE (R212, R214, R780) -/

theorem bitAt_and (a b : Word) (k : Nat) : bitAt (a &&& b) k = (bitAt a k && bitAt b k) := by simp [bitAt]

section
variable {s : State} {req n block inst : Nat} {r : Reg} {val : Word} {c : Instr}

/-- What a write of ENABLE = 1 over 0 does, before the register's other fields. -/
theorem enableAct_enable (hck : checkOf r n = some (block, inst))
    (ha : Asks (wroteFields s req r n (val ||| 1)) r n block inst) :
    (wroteFields s req r n (val ||| 1)).enableAct (writtenAs s req r n (val ||| 1)) =
      (wroteFields s req r n (val ||| 1)).askCheck block inst (bankOf req) :=
  enableAct_asks (w := writtenAs s req r n (val ||| 1)) hck ((writtenAs_set (by norm_num)).trans (bitAt_or_one val)) ha

/-- And one of ENABLE = 0 over 1. -/
theorem enableAct_disable (hck : checkOf r n = some (block, inst))
    (hr : Runs (wroteFields s req r n (val &&& ~~~1)) r n block inst) :
    (wroteFields s req r n (val &&& ~~~1)).enableAct (writtenAs s req r n (val &&& ~~~1)) =
      (wroteFields s req r n (val &&& ~~~1)).disableInst r n := by
  have hbit := bitAt_and_not_one val
  refine enableAct_clears (w := writtenAs s req r n (val &&& ~~~1)) hck ((writtenAs_set (by norm_num)).trans hbit) ?_ hr
  rw [writtenAs_clr (by norm_num), hbit]
  rfl

/-- Of a register whose only action is its ENABLE. -/
theorem exec_enable (hc : exec c s = .next (s.writeEnable req r n val State.enableAct)) (hck : checkOf r n = some (block, inst))
    (h : Accepts s req r n (val ||| 1)) (ha : Asks (wroteFields s req r n (val ||| 1)) r n block inst) :
    exec c s = .next ((wroteFields s req r n (val ||| 1)).askCheck block inst (bankOf req)) :=
  exec_of_regWrite hc h (enableAct_enable hck ha)

theorem exec_disable (hc : exec c s = .next (s.writeDisable req r n val State.enableAct)) (hck : checkOf r n = some (block, inst))
    (h : Accepts s req r n (val &&& ~~~1)) (hr : Runs (wroteFields s req r n (val &&& ~~~1)) r n block inst) :
    exec c s = .next ((wroteFields s req r n (val &&& ~~~1)).disableInst r n) :=
  exec_of_regWrite hc h (enableAct_disable hck hr)

end

section
variable {s : State} {req n : Nat} {val : Word}

/-- A write of SQ_CTL without FLUSH is its ENABLE alone. -/
theorem State.sqCtlAct_enableOnly {host : List Line64} {v : Word} {u : State} (hflush : bitAt v 1 = false) :
    State.sqCtlAct host (writtenAs s req .sqCtl n v) u = u.enableAct (writtenAs s req .sqCtl n v) := by
  refine if_pos ?_
  rw [writtenAs_set (by norm_num), hflush]
  rfl

/-- A write of REIN_PORT_CTL without CRED_REBUILD and RETRAIN likewise. -/
theorem State.reinCtlAct_enableOnly {v : Word} {u : State} (hrebuild : bitAt v 4 = false) (hretrain : bitAt v 5 = false) :
    State.reinCtlAct (writtenAs s req .reinPortCtl n v) u = u.enableAct (writtenAs s req .reinPortCtl n v) := by
  have hset4 : (writtenAs s req .reinPortCtl n v).set 4 = false := (writtenAs_set (by norm_num)).trans hrebuild
  have hset5 : (writtenAs s req .reinPortCtl n v).set 5 = false := (writtenAs_set (by norm_num)).trans hretrain
  simp only [State.reinCtlAct, State.reinPortAct, hset4, hset5, Bool.false_and, Bool.false_eq_true, if_false]

/-- The other bits of a write of ENABLE are those given. -/
theorem bitAt_or_of_eq_false {v : Word} {k : Nat} (h : bitAt val k = false) (hv : bitAt v k = false) : bitAt (val ||| v) k = false := by
  rw [bitAt_or, h, hv, Bool.or_false]

theorem bitAt_and_of_eq_false {v : Word} {k : Nat} (h : bitAt val k = false) : bitAt (val &&& v) k = false := by
  rw [bitAt_and, h, Bool.false_and]

end

/-- Settles O42: a write of ENABLE acts through the register's own steps, its other control bits being zero. -/
theorem enablesAndDisables : Obligations.EnablesAndDisables := by
  unfold Obligations.EnablesAndDisables
  refine ⟨fun s req n val => ?enable, fun s req n val => ?disable⟩
  case enable =>
    refine ⟨fun hflush h ha => ?sqOn, exec_enable rfl rfl, exec_enable rfl rfl, exec_enable rfl rfl, exec_enable rfl rfl,
      exec_enable rfl rfl, exec_enable rfl rfl, fun hrebuild hretrain h ha => ?portOn, exec_enable rfl rfl, exec_enable rfl rfl,
      exec_enable rfl rfl, exec_enable rfl rfl, exec_enable rfl rfl⟩
    case sqOn =>
      exact exec_of_regWrite rfl h ((State.sqCtlAct_enableOnly (bitAt_or_of_eq_false hflush (by decide))).trans (enableAct_enable rfl ha))
    case portOn =>
      exact exec_of_regWrite rfl h ((State.reinCtlAct_enableOnly (bitAt_or_of_eq_false hrebuild (by decide))
        (bitAt_or_of_eq_false hretrain (by decide))).trans (enableAct_enable rfl ha))
  case disable =>
    refine ⟨fun hflush h hr => ?sqOff, exec_disable rfl rfl, exec_disable rfl rfl, exec_disable rfl rfl, exec_disable rfl rfl,
      fun hrebuild hretrain h hr => ?portOff, exec_disable rfl rfl, exec_disable rfl rfl⟩
    case sqOff =>
      exact exec_of_regWrite rfl h ((State.sqCtlAct_enableOnly (bitAt_and_of_eq_false hflush)).trans (enableAct_disable rfl hr))
    case portOff =>
      exact exec_of_regWrite rfl h ((State.reinCtlAct_enableOnly (bitAt_and_of_eq_false hrebuild)
        (bitAt_and_of_eq_false hretrain)).trans (enableAct_disable rfl hr))

/-! ## The stall table (R181 to R197) -/

section
variable {s : State} {req : Nat} {val : Word}

theorem State.commitAct_commits {w : Written} (hset : w.set 0 = true) (hidle : s.gb.commit = none) (hholds : s.holds w.agent = true)
    (hcheck : s.checking 1 0 = false) : s.commitAct w = s.askCheck 1 0 (bankOf w.agent) := by
  simp only [State.commitAct, hset, hidle, hholds, hcheck, Option.isSome_none, Bool.not_false, Bool.and_self, Bool.false_eq_true,
    if_false, if_true]

theorem State.commitAct_discards {w : Written} (hset : w.set 0 = false) (hdiscard : w.set 2 = true) (hidle : s.gb.commit = none)
    (hholds : s.holds w.agent = true) (hcheck : s.checking 1 0 = false) : s.commitAct w = s.reloadStaged := by
  simp only [State.commitAct, hset, hdiscard, hidle, hholds, hcheck, Option.isSome_none, Bool.not_false, Bool.and_self,
    Bool.false_eq_true, if_false, if_true]

theorem State.editAct_takes {w : Written} (hset : w.set 5 = true) (hfree : s.f .stallEdit 0 0 5 = 0x1F) :
    s.editAct w = s.setF .stallEdit 0 0 5 (holderCode w.agent) :=
  (if_pos hset).trans (if_pos hfree)

theorem State.editAct_drops {w : Written} (hset : w.set 5 = false) (hdrop : w.set 6 = true) (hholds : s.holds w.agent = true) :
    s.editAct w = s.reloadStaged.setF .stallEdit 0 0 5 0x1F :=
  (if_neg (Bool.eq_false_iff.mp hset)).trans (if_pos (by rw [hdrop, hholds]; rfl))

/-- A write of one stall's bit resets that stall alone. -/
theorem allStalls_filter_set {st : Nat} (hst : st < 16) :
    allStalls.filter (writtenAs s req .stallReset 0 (BitVec.ofNat 64 (2 ^ st))).set = [st] := by
  have hbits : ∀ st < 16, allStalls.filter (bitAt (BitVec.ofNat 64 (2 ^ st))) = [st] := by decide
  rw [← hbits st hst]
  refine List.filter_congr fun k hk => writtenAs_set ?_
  have := List.mem_range.mp hk
  omega

/-- A write of STALL_CAP_ASSIGN carries all of its bits, GO the highest. -/
theorem writtenAs_set_go : (writtenAs s req .stallCapAssign 0 val).set 63 = bitAt val 63 := by
  have hcarried : bitAt (carriedBits .stallCapAssign) 63 = true := by decide
  unfold Written.set writtenAs
  rw [bitAt_and, bitAt_and, hcarried, Bool.and_true, Bool.and_true]

theorem State.capAct_assigns {u : State} {w : Written} (hgo : w.set 63 = true) (hok : u.capRefused = false) :
    u.capAct w = ({ u with link := { u.link with
        assigned := (u.f .stallCapAssign 0 0 10, u.f .stallCapAssign 0 16 10,
          if u.f .stallCapAssign 0 36 2 = 1 then some (u.f .stallCapAssign 0 32 4) else none) :: u.link.assigned } }.setF
      .stallCapStatus 0 1 1 1) := by
  simp only [State.capAct, hgo, hok, Bool.not_true, Bool.false_eq_true, if_false]

theorem State.capAct_refuses {u : State} {w : Written} (hgo : w.set 63 = true) (hbad : u.capRefused = true) :
    u.capAct w = u.setF .stallCapStatus 0 2 1 1 := by
  simp only [State.capAct, hgo, hbad, Bool.not_true, Bool.false_eq_true, if_false, if_true]

/-- RELEASE while FM_TRUST was 0 before the write. -/
theorem State.ownerCfgAct_releases {u : State} {w : Written} (hold : bitAt w.old 0 = false) (hrelease : w.set 2 = true) :
    u.ownerCfgAct w = u.release := by
  simp only [State.ownerCfgAct, hold, hrelease, Bool.false_and, Bool.false_eq_true, if_false, if_true]

end

/-- Settles O43: each accepted write, by its action past its checks. -/
theorem stallTableCommands : Obligations.StallTableCommands := by
  unfold Obligations.StallTableCommands
  intro s req val
  refine ⟨fun h hidle hholds hcheck => ?commit, fun h hidle hholds hcheck => ?discard, fun h hfree => ?take,
    fun h hholds => ?drop, fun st hst h => ⟨fun hidle => ?reset, fun hbusy => ?waits⟩,
    fun h hgo => ⟨fun hok => ?assigned, fun hbad => ?refused⟩, rfl, fun h hold => ?release⟩
  case commit =>
    exact exec_of_regWrite rfl h (State.commitAct_commits (writtenAs_set (by norm_num)) hidle hholds hcheck)
  case discard =>
    exact exec_of_regWrite rfl h (State.commitAct_discards (writtenAs_set (by norm_num)) (writtenAs_set (by norm_num)) hidle hholds
      hcheck)
  case take => exact exec_of_regWrite rfl h (State.editAct_takes (writtenAs_set (by norm_num)) hfree)
  case drop =>
    exact exec_of_regWrite rfl h (State.editAct_drops (writtenAs_set (by norm_num)) (writtenAs_set (by norm_num)) hholds)
  case reset =>
    refine exec_of_regWrite rfl h ?_
    rw [State.stallResetAct, allStalls_filter_set hst]
    exact if_neg (by rw [hidle]; decide)
  case waits =>
    refine exec_of_regWrite rfl h ?_
    rw [State.stallResetAct, allStalls_filter_set hst]
    exact if_pos hbusy
  case assigned => exact exec_of_regWrite rfl h (State.capAct_assigns (writtenAs_set_go.trans hgo) hok)
  case refused => exact exec_of_regWrite rfl h (State.capAct_refuses (writtenAs_set_go.trans hgo) hbad)
  case release =>
    refine exec_of_regWrite rfl h (State.ownerCfgAct_releases hold ?_)
    rw [writtenAs_set (by norm_num), bitAt_or, show bitAt (4 : Word) 2 = true by decide, Bool.or_true]

/-! ## Checks and harnesses (R212 to R224, R566, R567) -/

section
variable {s : State} {block : Nat} {c : Check}

section
variable (hlow : 2 ≤ block) (hhigh : block ≤ 0xA) (hc : s.checks block = [c]) (hoff : c.off = false)
include hlow hhigh hc hoff

/-- The only check of a block below 0xB, without a write of 0 that waits, ends. -/
theorem State.checkEnds_alone :
    s.checkEnds block = (if c.code ≠ 0 then (s.setChecks block []).tackResult block c.inst c.bank c.code c.field
      else ((s.setChecks block []).tackResult block c.inst c.bank c.code c.field).enableInst block c.inst).startCheck block := by
  have hcommit : block ≠ 1 := by omega
  have hharness : block ≠ 0xB := by omega
  have hinst : reportInst block c.inst c.field = c.inst := if_neg hcommit
  have hload : (block == 0xB) = false := beq_eq_false_iff_ne.mpr hharness
  unfold State.checkEnds
  simp only [hc, hoff, hinst, hcommit, hharness, if_false, decide_false, Bool.false_and, Bool.false_eq_true]

theorem exec_tackCheckComplete_accepts (hcode : c.code = 0) :
    exec (.tackCheckComplete block) s = .next (((((s.setChecks block []).setRegB (tackReg block) c.bank 1).addF .tackCount 0 0 32
      1).enableInst block c.inst).startCheck block) := by
  refine congrArg Host.Outcome.next ((State.checkEnds_alone hlow hhigh hc hoff).trans ?_)
  rw [if_neg (not_not_intro hcode), State.tackResult, if_pos hcode]

theorem exec_tackCheckComplete_refuses (hcode : c.code ≠ 0) :
    exec (.tackCheckComplete block) s = .next ((((s.setChecks block []).setRegB (tackReg block) c.bank
        (BitVec.ofNat 64 (2 + 16 * (c.field % 4096) + 2 ^ 16 * c.code))).setReg .tackLast 0
          (BitVec.ofNat 64 (c.code + 2 ^ 16 * (c.field % 4096) + 2 ^ 32 * (c.inst % 4096) + 2 ^ 44 * c.bank + 2 ^ 63))).addF
        .tackCount 0 32 32 1 |>.startCheck block) := by
  refine congrArg Host.Outcome.next ((State.checkEnds_alone hlow hhigh hc hoff).trans ?_)
  rw [if_pos hcode, State.tackResult, if_neg hcode]

end

theorem State.auditAct_starts {u : State} {w : Written} (hgo : w.set 0 = true) (hidle : u.f .tackAudit 0 1 1 = 0) :
    u.auditAct w = { (u.setF .tackAudit 0 1 1 1) with tack := { u.tack with audit := some u.now } } := by
  refine if_pos ?_
  rw [hgo, hidle]
  rfl

section
variable (haudit : s.tack.audit.isSome = true)
include haudit

theorem exec_auditComplete_clean (hnone : s.findings = []) :
    exec .auditComplete s = .next { (s.setReg .tackAudit 0 0) with tack := { s.tack with audit := none } } := by
  have hbusy : s.tack.audit.isNone = false := by rw [← Option.not_isSome, haudit]; rfl
  change execAuditComplete s = _
  simp only [execAuditComplete, hbusy, hnone, Bool.false_eq_true, if_false]
  rfl

theorem exec_auditComplete_finds {b i code field : Nat} {rest : List (Nat × Nat × Nat × Nat)}
    (hl : s.findings = (b, i, code, field) :: rest) :
    exec .auditComplete s = .next { (s.setReg .tackAudit 0 (BitVec.ofNat 64 (4 + 2 ^ 4 * (field % 4096) + 2 ^ 16 * code
      + 2 ^ 32 * (i % 4096) + 2 ^ 48 * min (rest.length + 1) 0xFFF))) with tack := { s.tack with audit := none } } := by
  have hbusy : s.tack.audit.isNone = false := by rw [← Option.not_isSome, haudit]; rfl
  change execAuditComplete s = _
  simp only [execAuditComplete, hbusy, hl, List.length_cons, Bool.false_eq_true, if_false]

end
end

section
variable {s : State} {sq st : Nat} {c : Cmd} {host : List Byte}

/-- An entry of the stall or of none passes the owner's check. -/
theorem hrn_owned {e : Nat} (howner : s.hrnLoaded e = true → s.hrnStall e = st) : (s.hrnLoaded e && s.hrnStall e != st) = false := by
  cases hl : s.hrnLoaded e
  · rfl
  · simp [howner hl]

/-- A free entry that HRN_LOAD may use. -/
theorem hrnLoad_entry_free {e : Nat} (hentry : e < 256) (hoff : s.hrnOn e = false) (hcheck : s.checking 0xB e = false)
    (howner : s.hrnLoaded e = true → s.hrnStall e = st) :
    (decide (256 ≤ e) || s.hrnOn e || s.checking 0xB e || (s.hrnLoaded e && s.hrnStall e != st)) = false := by
  rw [hoff, hcheck, hrn_owned howner, decide_eq_false (Nat.not_le.mpr hentry)]
  rfl

section
variable (h : Starts sq 0x10 s c st) (hup : s.checkerUp 0xB = true) (hthere : s.hostThere st (c.field 0x18 8) = true)
include h hup hthere

section
variable (hentry : c.field 0x10 2 < 256) (hoff : s.hrnOn (c.field 0x10 2) = false) (hcheck : s.checking 0xB (c.field 0x10 2) = false)
  (howner : s.hrnLoaded (c.field 0x10 2) = true → s.hrnStall (c.field 0x10 2) = st)
include hentry hoff hcheck howner

theorem exec_hrnLoad_good {d : List Byte} {p : Bool} {u : State} (hlen : c.field 0x20 4 ≤ hrnMax)
    (hrange : s.cpRange st (c.field 0x18 8) (max (c.field 0x20 4) 1) false true true = true)
    (hread : s.cpRead st (c.field 0x18 8) (c.field 0x20 4) host = some (d, p, u)) :
    let e := c.field 0x10 2
    let n := c.field 0x20 4
    let v := ((u.clearOnChip (hrnBase e) (2 ^ 17)).wrBytes (hrnBase e) d).wrNat (hrnBase e + hrnMax) 4 n
    let v := (v.setF .hrnCtl e 1 4 st).setF .hrnCtl e 5 1 1
    exec (.hrnLoad sq host) s = .next (((v.updCmd sq c.seq fun c => { c with started := true, task := some e }).askCheck
      0xB e 16).postFlushes sq) := by
  intro e n v v'
  have hguard := hrnLoad_entry_free hentry hoff hcheck howner
  have hshort : (decide (hrnMax < c.field 0x20 4) || !s.cpRange st (c.field 0x18 8) (max (c.field 0x20 4) 1) false true true) = false := by
    rw [hrange, decide_eq_false (Nat.not_lt.mpr hlen)]; rfl
  refine exec_of_runCmd rfl h ?_
  simp only [hup, hthere, hguard, hshort, hread, Bool.not_true, Bool.or_self, Bool.false_eq_true, if_false]
  rfl

theorem exec_hrnLoad_tooLong (hlen : hrnMax < c.field 0x20 4) :
    exec (.hrnLoad sq host) s = .next ((s.completeCmd sq c.seq stBadAddress).postFlushes sq) := by
  have hguard := hrnLoad_entry_free hentry hoff hcheck howner
  have hlong : (decide (hrnMax < c.field 0x20 4) || !s.cpRange st (c.field 0x18 8) (max (c.field 0x20 4) 1) false true true) = true := by
    rw [decide_eq_true hlen, Bool.true_or]
  refine exec_of_runCmd rfl h ?_
  simp only [hup, hthere, hguard, hlong, Bool.not_true, Bool.or_self, Bool.false_eq_true, if_false, if_true]

end

theorem exec_hrnLoad_enabled (hon : s.hrnOn (c.field 0x10 2) = true) :
    exec (.hrnLoad sq host) s = .next ((s.completeCmd sq c.seq stBadEntry).postFlushes sq) := by
  refine exec_of_runCmd rfl h ?_
  simp only [hup, hthere, hon, Bool.not_true, Bool.or_self, Bool.or_true, Bool.true_or, Bool.false_eq_true, if_false, if_true]

end

section
variable (h : Starts sq 0x11 s c st) (hentry : c.field 0x10 2 < 256)
  (howner : s.hrnLoaded (c.field 0x10 2) = true → s.hrnStall (c.field 0x10 2) = st)
include h hentry howner

theorem exec_hrnUnload_unused (husers : s.hrnUsers (c.field 0x10 2) = 0) :
    exec (.hrnUnload sq) s = .next ((((s.clearEnable .hrnCtl (c.field 0x10 2) 0xB (c.field 0x10 2)).setF .hrnCtl (c.field 0x10 2) 5
      1 0).completeCmd sq c.seq stSuccess).postFlushes sq) := by
  have hguard : (decide (256 ≤ c.field 0x10 2) || (s.hrnLoaded (c.field 0x10 2) && s.hrnStall (c.field 0x10 2) != st)) = false := by
    rw [hrn_owned howner, decide_eq_false (Nat.not_le.mpr hentry)]; rfl
  exact exec_of_runCmd rfl h ((if_neg (Bool.eq_false_iff.mp hguard)).trans (if_neg (not_not_intro husers)))

theorem exec_hrnUnload_used (husers : s.hrnUsers (c.field 0x10 2) ≠ 0) :
    exec (.hrnUnload sq) s = .next ((s.completeCmd sq c.seq stEntryBusy).postFlushes sq) := by
  have hguard : (decide (256 ≤ c.field 0x10 2) || (s.hrnLoaded (c.field 0x10 2) && s.hrnStall (c.field 0x10 2) != st)) = false := by
    rw [hrn_owned howner, decide_eq_false (Nat.not_le.mpr hentry)]; rfl
  exact exec_of_runCmd rfl h ((if_neg (Bool.eq_false_iff.mp hguard)).trans (if_pos husers))

end
end

/-- Settles O45: a check that ends, an audit and each harness command past its checks. -/
theorem checksAndHarnesses : Obligations.ChecksAndHarnesses := by
  unfold Obligations.ChecksAndHarnesses
  refine ⟨fun s req block c => ⟨fun hlow hhigh hc hoff => ⟨exec_tackCheckComplete_accepts hlow hhigh hc hoff,
      exec_tackCheckComplete_refuses hlow hhigh hc hoff⟩, fun h hidle => ?audit,
      fun haudit => ⟨exec_auditComplete_clean haudit, fun b i code field rest => exec_auditComplete_finds haudit⟩⟩,
    fun s sq st c host => ⟨fun h hup hthere hentry hoff hcheck howner => ⟨?load, ?tooLong⟩,
      fun h hup hthere hon => exec_hrnLoad_enabled h hup hthere hon,
      fun h hentry howner => ⟨exec_hrnUnload_unused h hentry howner, exec_hrnUnload_used h hentry howner⟩⟩⟩
  case audit => exact exec_of_regWrite rfl h (State.auditAct_starts (writtenAs_set (by norm_num)) hidle)
  case load =>
    exact fun hlen hrange d p u hread => exec_hrnLoad_good h hup hthere hentry hoff hcheck howner hlen hrange hread
  case tooLong => exact exec_hrnLoad_tooLong h hup hthere hentry hoff hcheck howner

/-! ## Writes with effects of their own (R43, R69, R478, R638, R668, R670) -/

/-- A bound on the addresses of a register's instances. -/
def Reg.span (r : Reg) : Nat := r.row.base + (r.row.dims.map fun d => d.1 * d.2).sum + r.row.width / 8

/-- A place of a grid of c places of stride s, each of less than w bytes. -/
theorem lt_grid {d s c w : Nat} (hdiv : d / s < c) (hmod : d % s < w) : d < s * c + w := by
  have hsplit := Nat.div_add_mod d s
  have hmul := Nat.mul_le_mul_left s (Nat.le_of_lt hdiv)
  omega

theorem Reg.lt_span_of_index? {r : Reg} {o i : Nat} (h : r.index? o = some i) : o < r.span := by
  unfold Reg.index? at h
  unfold Reg.span
  split at h
  · cases h
  · generalize hd : o - r.row.base = d at h
    generalize r.row.width / 8 = w at h ⊢
    dsimp only at h
    split at h
    · split at h
      · omega
      · cases h
    · next s c hdims =>
      rw [hdims, List.map_cons, List.sum_cons]
      dsimp only
      split at h
      · next hfits =>
        obtain ⟨hdiv, hmod⟩ := Bool.and_eq_true_iff.mp hfits
        have := lt_grid (of_decide_eq_true hdiv) (of_decide_eq_true hmod)
        omega
      · cases h
    · next s c t e rest hdims =>
      rw [hdims, List.map_cons, List.sum_cons, List.map_cons, List.sum_cons]
      dsimp only
      split at h
      · next hfits =>
        obtain ⟨hpair, hmod⟩ := Bool.and_eq_true_iff.mp hfits
        obtain ⟨htop, hdiv⟩ := Bool.and_eq_true_iff.mp hpair
        have hin := lt_grid (of_decide_eq_true hdiv) (of_decide_eq_true hmod)
        have := lt_grid (of_decide_eq_true htop) hin
        omega
      · cases h

theorem Reg.index?_of_regAt {o i : Nat} {r : Reg} (h : regAt o = some (r, i)) : r.index? o = some i := by
  obtain ⟨q, -, hq⟩ := List.exists_of_findSome?_eq_some h
  obtain ⟨j, hj, heq⟩ := Option.map_eq_some_iff.mp hq
  cases heq
  exact hj

/-- Every counter of the Bridle lies below 2^32 and resets to 0. -/
theorem bridleCounter_row {r : Reg} (h : bridleCounter r = true) : r.span < 2 ^ 32 ∧ ∀ (s : State) (i : Nat), s.regReset r i = 0 := by
  unfold bridleCounter at h
  split at h
  case h_12 => cases h
  all_goals exact ⟨by decide, fun s i => rfl⟩

/-- CLEAR: every counter of the Bridle reads zero (R638). -/
theorem State.bridleCntAct_clears {s : State} {w : Written} (hclear : w.set 1 = true) {r : Reg} {i : Nat}
    (hr : bridleCounter r = true) (hat : regAt (r.off i) = some (r, i)) : (s.bridleCntAct w).reg r i = 0 := by
  obtain ⟨hspan, hreset⟩ := bridleCounter_row hr
  have hlow : r.off i % 2 ^ 32 = r.off i :=
    Nat.mod_eq_of_lt ((Reg.lt_span_of_index? (Reg.index?_of_regAt hat)).trans hspan)
  rw [State.bridleCntAct, if_pos hclear, State.reg, hreset]
  dsimp only
  refine Tbl.get_keep_dropped ?_
  rw [hlow, hat]
  exact congrArg not hr

section
variable {s : State} {req n : Nat} {val : Word}

theorem exec_bridleCounterClear_clears (h : Accepts s req .bridleCntCtl 0 val) (hclear : bitAt val 1 = true) :
    ∃ t, exec (.bridleCounterClear req val) s = .next t
      ∧ ∀ r i, bridleCounter r = true → regAt (r.off i) = some (r, i) → t.reg r i = 0 :=
  ⟨_, exec_of_regWrite (congrArg Host.Outcome.next (if_pos hclear)) h rfl,
    fun _ _ => State.bridleCntAct_clears ((writtenAs_set (by norm_num)).trans hclear)⟩

/-- What a write of REIN_PORT_CTL with ENABLE does at an enabled port. -/
theorem State.reinCtlAct_enabled {v : Word} {u : State} (henable : bitAt v 0 = true) (hon : u.f .reinPortCtl n 0 1 = 1) :
    State.reinCtlAct (writtenAs s req .reinPortCtl n v) u = u.reinPortAct (writtenAs s req .reinPortCtl n v) := by
  unfold State.reinCtlAct
  rw [enableAct_runs (w := writtenAs s req .reinPortCtl n v) rfl ((writtenAs_set (by norm_num)).trans henable) hon]

theorem State.reinPortAct_rebuilds {u : State} {w : Written} (hset : w.set 4 = true) (hretrain : w.set 5 = false)
    (hport : u.portUp w.idx = true) : u.reinPortAct w = ((u.updPort w.idx fun q => { q with
      epoch := !q.epoch, freed := bump (bump q.freed 0 fun _ => 0) 1 fun _ => 0
      skip := bump (bump q.skip 0 fun _ => 0) 1 fun _ => 0 }).sendCredSync w.idx).setF .reinPortStat w.idx 12 1 1 := by
  simp only [State.reinPortAct, State.credRebuild, hset, hretrain, hport, Bool.not_true, Bool.false_and, Bool.false_eq_true,
    if_false, if_true]

theorem State.reinPortAct_retrains {u : State} {w : Written} (hset : w.set 4 = false) (hretrain : w.set 5 = true)
    (hport : u.portUp w.idx = true) : u.reinPortAct w = u.retrain w.idx := by
  simp only [State.reinPortAct, hset, hretrain, hport, Bool.and_self, Bool.false_eq_true, if_false, if_true]

theorem exec_credRebuild_up (h : Accepts s req .reinPortCtl n 0x11) :
    let u := wroteFields s req .reinPortCtl n 0x11
    u.f .reinPortCtl n 0 1 = 1 → u.portUp n = true → exec (.credRebuild req n 1) s =
      .next (((u.updPort n fun q => { q with
          epoch := !q.epoch, freed := bump (bump q.freed 0 fun _ => 0) 1 fun _ => 0
          skip := bump (bump q.skip 0 fun _ => 0) 1 fun _ => 0 }).sendCredSync n).setF .reinPortStat n 12 1 1) := by
  intro u hon hport
  exact exec_of_regWrite rfl h ((State.reinCtlAct_enabled (by decide) hon).trans
    (State.reinPortAct_rebuilds (w := writtenAs s req .reinPortCtl n 0x11) ((writtenAs_set (by norm_num)).trans (by decide))
      ((writtenAs_set (by norm_num)).trans (by decide)) hport))

theorem exec_retrain_written (h : Accepts s req .reinPortCtl n 0x21) :
    let u := wroteFields s req .reinPortCtl n 0x21
    u.f .reinPortCtl n 0 1 = 1 → u.portUp n = true → exec (.retrain n (some (req, 1))) s = .next (u.retrain n) := by
  intro u hon hport
  exact exec_of_regWrite rfl h ((State.reinCtlAct_enabled (by decide) hon).trans
    (State.reinPortAct_retrains (w := writtenAs s req .reinPortCtl n 0x21) ((writtenAs_set (by norm_num)).trans (by decide))
      ((writtenAs_set (by norm_num)).trans (by decide)) hport))

theorem State.hitchForceAct_go {u : State} {w : Written} (hgo : w.set 16 = true) :
    let h := u.f .hitchForce 0 0 14
    let v := u.hitchBankDrain (hitchBank h) (u.hitchQueue (hitchBank h)).length
    let new := u.reg .hitchForceValue 0
    u.hitchForceAct w =
      (v.hitchWrite h new).logFault { code := .hitchForced, cls := .d, unit := 4, addr := h, detail := (v.hitch h).toNat + 2 ^ 64 * new.toNat } :=
  if_neg (by rw [hgo]; decide)

theorem exec_configRequest_answered (hrails : s.pw.rails = 7) (hreq : req < 16) (hn : n < 2) :
    exec (.configRequest req n) s =
      .next (s.emit (.config req n (s.inReset || decide (s.now < s.stage.perstAt + 100000000)))) := by
  have hguard : (decide (s.pw.rails = 7) && decide (req < 16) && decide (n < 2)) = true := by simp [hrails, hreq, hn]
  exact congrArg Host.Outcome.next (if_pos hguard)

theorem State.handshakeAct_own {u : State} (hreq : req < 16) :
    let v := (u.markHandshake req false false).updStage fun g => { g with hsWritten := KSet.add req g.hsWritten }
    u.handshakeAct (writtenAs s req .stageDrvHandshake 0 val) = if u.stage.ctrlVerified then v.evalHandshake req else v := by
  have hguard : (decide ((writtenAs s req .stageDrvHandshake 0 val).reg ≠ .stageDrvHandshake)
      || decide (16 ≤ (writtenAs s req .stageDrvHandshake 0 val).agent)) = false := by
    have hown : ¬ 16 ≤ (writtenAs s req .stageDrvHandshake 0 val).agent := Nat.not_le.mpr hreq
    rw [decide_eq_false hown]
    rfl
  exact if_neg (Bool.eq_false_iff.mp hguard)

end

/-- Settles O47: each write past its register's checks. -/
theorem registerEffects : Obligations.RegisterEffects := by
  unfold Obligations.RegisterEffects
  intro s req n val
  refine ⟨exec_bridleCounterClear_clears, exec_credRebuild_up, exec_retrain_written,
    fun hport => congrArg Host.Outcome.next (if_pos hport), fun h hgo => ?force, fun h hgo => ?restage, exec_configRequest_answered,
    fun h hpresent hreq => ?handshake⟩
  case force => exact exec_of_regWrite rfl h (State.hitchForceAct_go ((writtenAs_set (by norm_num)).trans hgo))
  case restage => exact exec_of_regWrite rfl h (if_pos ((writtenAs_set (by norm_num)).trans hgo))
  case handshake =>
    exact exec_of_regWrite (congrArg Host.Outcome.next (if_pos hpresent)) h (State.handshakeAct_own hreq)

end Sys2Proof.Machine
end

