-- ==== Sys2Proof/Proofs/DebugOps.lean ====
section
/-! PROOFS. Traces, debug sessions, debug accesses and halts (O48). -/

namespace Sys2Proof.Machine

open Sys2Proof

/-! ## Traces and sessions (R763, R764) -/

section
variable {u : State} {w : Written}

theorem State.traceAct_starts (hrun : w.set 0 = true) (hok : u.traceRingOk w.idx = true) :
    u.traceAct w = u.setReg .tracePtr w.idx 0 := by
  simp only [State.traceAct, hrun, hok, Bool.not_true, Bool.false_eq_true, if_false, if_true]

theorem State.traceAct_takenBack (hrun : w.set 0 = true) (hbad : u.traceRingOk w.idx = false) :
    u.traceAct w = (u.setF .traceCtl w.idx 0 1 0).setF .traceStat w.idx 16 1 1 := by
  simp only [State.traceAct, hrun, hbad, Bool.not_true, Bool.false_eq_true, if_false]

theorem State.sessionAct_valid (hst : u.stallValid (u.f .dbgSession 0 4 4) = true) : u.sessionAct w = u :=
  if_neg (by rw [hst, Bool.not_true, Bool.and_false]; decide)

theorem State.sessionAct_invalid (hopen : w.set 0 = true) (hst : u.stallValid (u.f .dbgSession 0 4 4) = false) :
    u.sessionAct w = u.setF .dbgSession 0 0 1 0 :=
  if_pos (by rw [hopen, hst]; rfl)

end

/-! ## Debug accesses (R765 to R767) -/

/-- DBG_CMD's word spells its operation and size. -/
theorem dbgCmd_fields {op sz : Nat} (hop : op < 4) (hsz : sz < 4) :
    fld (BitVec.ofNat 64 (op + 4 * sz) &&& carriedBits .dbgCmd) 0 2 = op
      ∧ fld (BitVec.ofNat 64 (op + 4 * sz) &&& carriedBits .dbgCmd) 2 2 = sz := by
  have hall : ∀ op < 4, ∀ sz < 4, fld (BitVec.ofNat 64 (op + 4 * sz) &&& carriedBits .dbgCmd) 0 2 = op
      ∧ fld (BitVec.ofNat 64 (op + 4 * sz) &&& carriedBits .dbgCmd) 2 2 = sz := by decide
  exact hall op hop sz hsz

/-- A write of DBG_CMD with a size code below 4. -/
theorem exec_of_dbgCmd {s u : State} {req op sz : Nat} {c : Instr} (hc : exec c s = .next (s.dbgRow req op (some sz)))
    (hsz : sz < 4) (h : Accepts s req .dbgCmd 0 (BitVec.ofNat 64 (op + 4 * sz)))
    (hu : (wroteFields s req .dbgCmd 0 (BitVec.ofNat 64 (op + 4 * sz))).dbgCmdAct
      (writtenAs s req .dbgCmd 0 (BitVec.ofNat 64 (op + 4 * sz))) = u) : exec c s = .next u := by
  refine exec_of_regWrite (act := State.dbgCmdAct) ?_ h hu
  rw [hc, State.dbgRow, Nat.mod_eq_of_lt hsz]

section
variable {s : State} {req op sz : Nat} {c : Instr} (hc : exec c s = .next (s.dbgRow req op (some sz))) (hsz : sz < 4)
  (h : Accepts s req .dbgCmd 0 (BitVec.ofNat 64 (op + 4 * sz)))
  (hidle : (wroteFields s req .dbgCmd 0 (BitVec.ofNat 64 (op + 4 * sz))).mgmt.dbg = none)
include hc hsz h hidle

/-- A command without an open session ends at once. -/
theorem exec_dbgRow_noSession :
    let u := wroteFields s req .dbgCmd 0 (BitVec.ofNat 64 (op + 4 * sz))
    u.f .dbgSession 0 0 1 = 0 → exec c s = .next (u.dbgEnd dbgNoSession) := by
  intro u hclosed
  refine exec_of_dbgCmd hc hsz h ((if_neg ?_).trans (if_pos hclosed))
  rw [hidle]
  decide

/-- In one the access goes as far as it can. -/
theorem exec_dbgRow_session (hop : op < 3) :
    let u := wroteFields s req .dbgCmd 0 (BitVec.ofNat 64 (op + 4 * sz))
    u.f .dbgSession 0 0 1 = 1 →
      exec c s = .next (u.dbgGo ⟨op, 2 ^ sz, u.f .dbgSession 0 4 4, u.f .dbgAddr 0 0 48, u.now⟩) := by
  intro u hopen
  obtain ⟨hopBits, hszBits⟩ := dbgCmd_fields (Nat.lt_succ_of_lt hop) hsz
  have hfree : ¬ u.mgmt.dbg.isSome = true := by rw [hidle]; decide
  have hsession : ¬ u.f .dbgSession 0 0 1 = 0 := by omega
  have hdefined : ¬ fld (writtenAs s req .dbgCmd 0 (BitVec.ofNat 64 (op + 4 * sz))).val 0 2 = 3 := by
    unfold writtenAs
    rw [hopBits]
    omega
  refine exec_of_dbgCmd hc hsz h ((if_neg hfree).trans ((if_neg hsession).trans ((if_neg hdefined).trans ?_)))
  unfold writtenAs
  rw [hopBits, hszBits]

end

section
variable {s : State} {d : DbgAcc}

section
variable {p : Nat} {u : State} (hop : d.op ≤ 1) (halign : d.a % d.n = 0) (hreg : regionOf d.a = .dram)
  (hplace : s.place d.st d.a (d.op == 1) = some (.dram p)) (hready : s.devReady p d.n (d.op == 1) cpPort = (true, u))
include hop halign hreg hplace hready

/-- An aligned access to a ready place of DRAM is performed. -/
theorem State.dbgGo_dram : s.dbgGo d = u.dbgAt d p := by
  have hdata : d.op ≠ 2 := by omega
  simp only [State.dbgGo, halign, hreg, hplace, hready, hdata, ne_eq, not_true_eq_false, decide_false, Bool.and_false,
    Bool.false_eq_true, if_false]

end

theorem State.dbgGo_misaligned (hop : d.op ≠ 2) (h : d.a % d.n ≠ 0) : s.dbgGo d = s.dbgEnd dbgMisaligned :=
  if_pos (by simp [hop, h])

/-- A write outside the stall's windows. -/
theorem State.dbgGo_outside (hop : d.op = 1) (halign : d.a % d.n = 0) (hreg : regionOf d.a = .dram)
    (hplace : s.place d.st d.a true = none) : s.dbgGo d = s.dbgEnd dbgWindow := by
  have hwrite : (d.op == 1) = true := beq_iff_eq.mpr hop
  have hdata : d.op ≠ 2 := by omega
  have hnotRead : d.op ≠ 0 := by omega
  simp only [State.dbgGo, State.dbgRefuse, halign, hreg, hwrite, hplace, hdata, hnotRead, ne_eq, not_true_eq_false, decide_false,
    Bool.and_false, Bool.false_eq_true, if_false]

theorem State.dbgGo_tag {o : Nat} (hop : d.op = 2) (hreg : regionOf d.a = .paddock)
    (hplace : s.place d.st d.a false = some (.paddock o)) :
    s.dbgGo d = ((s.pdSettle o).pdCount o 1 0).dbgEnd dbgOk false (((s.pdSettle o).pdCount o 1 0).tagAt (pdBase + o)) := by
  have hread : ((2 : Nat) == 1) = false := rfl
  have haligned : (decide ((2 : Nat) ≠ 2) && decide (d.a % d.n ≠ 0)) = false := rfl
  simp only [State.dbgGo, State.dbgAt, hop, hreg, hread, haligned, hplace]
  rfl

end

theorem State.dbgWaiting_timeout {s : State} {d : DbgAcc} (h : s.dbgWaiting = some d) :
    exec .dbgAccessTimeout s = .next ((s.notBefore (d.since + 1000000)).dbgEnd dbgTimeout) := by
  change execDbgAccessTimeout s = _
  rw [execDbgAccessTimeout, h]

/-- Settles O48: writes, accesses and the connector's commands past their checks. -/
theorem debugCommands : Obligations.DebugCommands := by
  unfold Obligations.DebugCommands
  refine ⟨fun s req st sz val mask => ⟨fun h => ⟨fun hok => ?runs, fun hbad => ?taken⟩,
      fun h hopen => ⟨fun hok => ?opens, fun hbad => ?closes⟩, ?read, ?write, ?tag, fun d => State.dbgWaiting_timeout,
      fun hopen => ⟨congrArg Host.Outcome.next (if_pos hopen), congrArg Host.Outcome.next (if_pos hopen)⟩, fun hclosed => ?connector⟩,
    fun s d p o u => ⟨fun hop halign hreg hplace hready => ⟨fun hread => ?reads, fun hwrite => ?writes⟩, State.dbgGo_tag,
      State.dbgGo_outside, State.dbgGo_misaligned⟩⟩
  case runs =>
    exact exec_of_regWrite rfl h (State.traceAct_starts ((writtenAs_set (by norm_num)).trans (bitAt_or_one val)) hok)
  case taken =>
    exact exec_of_regWrite rfl h (State.traceAct_takenBack ((writtenAs_set (by norm_num)).trans (bitAt_or_one val)) hbad)
  case opens => exact exec_of_regWrite rfl h (State.sessionAct_valid hok)
  case closes =>
    exact exec_of_regWrite rfl h (State.sessionAct_invalid ((writtenAs_set (by norm_num)).trans hopen) hbad)
  case read =>
    exact fun hsz h hidle => ⟨exec_dbgRow_noSession rfl hsz h hidle, exec_dbgRow_session rfl hsz h hidle (by norm_num)⟩
  case write =>
    exact fun hsz h hidle => ⟨exec_dbgRow_noSession rfl hsz h hidle, exec_dbgRow_session rfl hsz h hidle (by norm_num)⟩
  case tag =>
    exact fun hsz h hidle => ⟨exec_dbgRow_noSession rfl hsz h hidle, exec_dbgRow_session rfl hsz h hidle (by norm_num)⟩
  case connector =>
    have hno := Bool.eq_false_iff.mp hclosed
    exact ⟨congrArg Host.Outcome.next (if_neg hno), congrArg Host.Outcome.next (if_neg hno)⟩
  case reads => exact (State.dbgGo_dram hop halign hreg hplace hready).trans (if_pos hread)
  case writes =>
    exact (State.dbgGo_dram hop halign hreg hplace hready).trans ((if_neg (by omega)).trans (if_pos hwrite))

end Sys2Proof.Machine
end

