-- ==== Sys2Proof/Proofs/ReinPorts.lean ====
section
/-! PROOFS. Flits, the credit rebuild and training of Rein ports (O50, O52). -/

namespace Sys2Proof.Machine

open Sys2Proof

/-! ## Flits (R643 to R646) -/

section
variable {s : State} {p : Nat} {f : Flit}

/-- A flit with a good CRC at a port that is up. -/
theorem if_up_good {α : Type} {x y z : α} (hup : s.portUp p = true) :
    (if (!s.portUp p) = true then x else if (!true) = true then y else z) = z := by
  rw [hup]
  rfl

section
variable (hup : s.portUp p = true)
include hup

/-- A good DATA flit next in order, by its slots. -/
theorem exec_dataFlit_next {v : ReinPort} (hahead : (f.fseq + 4096 - (s.port p).rxSeq) % 4096 = 1)
    (hslots : takeSlots f (f.slots.take 14).zipIdx (s.port p) = some v) :
    exec (.dataFlit p true f) s = .next ((s.setPort p { v with rxSeq := f.fseq }).takeLink p f) := by
  refine congrArg Host.Outcome.next ((if_up_good hup).trans ((if_pos hahead).trans ?_))
  rw [hslots]

theorem exec_dataFlit_malformed (hahead : (f.fseq + 4096 - (s.port p).rxSeq) % 4096 = 1)
    (hslots : takeSlots f (f.slots.take 14).zipIdx (s.port p) = none) :
    exec (.dataFlit p true f) s = .next (s.linkDown p 9) := by
  refine congrArg Host.Outcome.next ((if_up_good hup).trans ((if_pos hahead).trans ?_))
  rw [hslots]

theorem exec_dataFlit_repeated
    (hahead : (f.fseq + 4096 - (s.port p).rxSeq) % 4096 = 0 ∨ 2048 ≤ (f.fseq + 4096 - (s.port p).rxSeq) % 4096) :
    exec (.dataFlit p true f) s = .next s := by
  have hnext : ¬ (f.fseq + 4096 - (s.port p).rxSeq) % 4096 = 1 := by omega
  refine congrArg Host.Outcome.next ((if_up_good hup).trans ((if_neg hnext).trans (if_pos ?_)))
  rcases hahead with hahead | hahead <;> simp [hahead]

theorem exec_dataFlit_skipped (hlow : 1 < (f.fseq + 4096 - (s.port p).rxSeq) % 4096)
    (hhigh : (f.fseq + 4096 - (s.port p).rxSeq) % 4096 < 2048) :
    exec (.dataFlit p true f) s = .next (s.sendOther p 2 []) := by
  refine congrArg Host.Outcome.next ((if_up_good hup).trans ((if_neg (by omega)).trans (if_neg ?_)))
  rw [decide_eq_false (Nat.ne_of_gt (Nat.zero_lt_of_lt hlow)), decide_eq_false (Nat.not_le.mpr hhigh)]
  decide

theorem exec_dataFlit_bad (f : Flit) :
    exec (.dataFlit p false f) s = .next ((s.addF .reinPortErr p 24 16 1).sendOther p 2 []) := by
  change execDataFlit p false f s = _
  rw [execDataFlit, hup]
  rfl

theorem exec_idleFlit_good (f : Flit) : exec (.idleFlit p true f) s = .next (s.takeLink p f) := by
  change execIdleFlit p true f s = _
  rw [execIdleFlit, hup]
  rfl

theorem exec_replayTimeout_resends (hreplay : (s.port p).replay ≠ []) :
    exec (.replayTimeout p) s = .next ((s.notBefore ((s.port p).ackAt + 2000)).replayNow p) := by
  have hguard : (!s.portUp p || (s.port p).replay.isEmpty) = false := by simp [hup, hreplay]
  exact congrArg Host.Outcome.next (if_neg (Bool.eq_false_iff.mp hguard))

/-! ## The credit rebuild (R670, R671) -/

/-- A CRED_SYNC with nothing unacknowledged is adopted as it stands. -/
theorem exec_credSync_adopts {fseq free0 free1 : Nat} {e : Bool} (hreplay : (s.port p).replay = []) :
    exec (.credSync p fseq free0 free1 e) s =
      .next (((s.updPort p fun q => { q with
        adopted := e, credit := bump (bump q.credit 0 fun _ => free0) 1 fun _ => free1
        base := bump (bump q.base 0 fun _ => 0) 1 fun _ => 0 }).sendOther p 3 [3, bit e]).pump p) := by
  change execCredSync p fseq free0 free1 e s = _
  simp only [execCredSync, State.updPort, hup, hreplay, List.filter_nil, List.foldl_nil, Bool.not_true, Bool.false_eq_true, if_false]

theorem exec_credSyncResend_due {t : Nat} (hsync : (s.port p).syncAt = some t) :
    exec (.credSyncResend p) s = .next ((s.notBefore (t + 10000)).sendCredSync p) := by
  change execCredSyncResend p s = _
  simp only [execCredSyncResend, hsync, hup, if_true]

end

theorem exec_syncAck_ends {e : Bool} (hsync : (s.port p).syncAt.isSome = true) (hepoch : (s.port p).epoch = e) :
    exec (.syncAck p e) s = .next (((s.setPort p { s.port p with syncAt := none }).setF .reinPortStat p 12 1 0).setF .reinPortStat
      p 32 13 0) :=
  congrArg Host.Outcome.next (if_pos (by rw [hsync, hepoch, beq_self_eq_true]; rfl))

theorem exec_syncAck_old {e : Bool} (hepoch : (s.port p).epoch ≠ e) : exec (.syncAck p e) s = .next s :=
  congrArg Host.Outcome.next (if_neg (by rw [beq_eq_false_iff_ne.mpr hepoch, Bool.and_false]; decide))

end

/-- Settles O50: each flit by its CRC and sequence number; each step of the rebuild by its epoch. -/
theorem reinFlitsAndCredits : Obligations.ReinFlitsAndCredits := by
  unfold Obligations.ReinFlitsAndCredits
  refine ⟨fun s p f => fun hup => ⟨fun v => exec_dataFlit_next hup, exec_dataFlit_malformed hup, exec_dataFlit_repeated hup,
      exec_dataFlit_skipped hup, exec_dataFlit_bad hup f, exec_idleFlit_good hup f, congrArg Host.Outcome.next (if_up_good hup),
      exec_replayTimeout_resends hup⟩,
    fun s p fseq free0 free1 e => ⟨fun hup hreplay => exec_credSync_adopts hup hreplay, exec_syncAck_ends, exec_syncAck_old,
      fun t hsync hup => exec_credSyncResend_due hup hsync⟩⟩

/-! ## Training (R648, R649, R668, R672) -/

section
variable {s : State} {p : Nat}

theorem exec_reinPortL0_training (h : s.portState p = psTraining) : exec (.reinPortL0 p) s =
    .next (((s.setPortState p psInit).updPort p fun q => { q with l0 := true, initOk := false }).sendInit p) := by
  change execReinPortL0 p s = _
  simp only [execReinPortL0, h, decide_true, Bool.true_or, if_true]

theorem exec_initResend_due (h : s.portState p = psInit) (hl0 : (s.port p).l0 = true) (hok : (s.port p).initOk = false) :
    exec (.initResend p) s = .next ((s.notBefore ((s.port p).initAt + 1000)).sendInit p) := by
  change execInitResend p s = _
  simp only [execInitResend, h, hl0, hok, decide_true, Bool.true_or, Bool.not_false, Bool.and_self, if_true]

section
variable {chip topo rev ack : Nat} {dateline fresh : Bool} {free : List Nat} (h : s.portState p = psInit)
include h

theorem exec_init_unfit {c : Nat}
    (hcheck : ((s.setF .reinPortStat p 3 1 1).setF .reinPortStat p 4 4 chip).initCheck p chip topo rev dateline = some c) :
    exec (.init p chip topo dateline fresh rev ack free) s =
      .next ((((s.setF .reinPortStat p 3 1 1).setF .reinPortStat p 4 4 chip).linkDown p c).sendOther p 3 [4, c]) := by
  change execInit p chip topo dateline fresh rev ack free s = _
  simp only [execInit, h, hcheck, decide_true, Bool.true_or, Bool.not_true, Bool.false_eq_true, if_false]

section
variable (hcheck : ((s.setF .reinPortStat p 3 1 1).setF .reinPortStat p 4 4 chip).initCheck p chip topo rev dateline = none)
include hcheck

theorem exec_init_fresh (hfresh : (s.port p).fresh = true) :
    let heard := (s.setF .reinPortStat p 3 1 1).setF .reinPortStat p 4 4 chip
    exec (.init p chip topo dateline true rev ack free) s =
      .next (((heard.setPortState p psUp).setPort p { s.port p with
        fresh := false, txSeq := 1, rxSeq := 0, replay := [], credit := free, base := [0, 0, 0, 0, 0, 0]
        freed := [0, 0, 0, 0, 0, 0], skip := [0, 0, 0, 0, 0, 0], initOk := true, epoch := false, adopted := false
        syncAt := none, ackAt := heard.now, tries := 0 }).pump p) := by
  intro heard
  have hdown : psInit ≠ psUp := by decide
  change execInit p chip topo dateline true rev ack free s = _
  simp only [execInit, h, hcheck, hfresh, hdown, decide_true, Bool.true_or, Bool.not_true, Bool.false_eq_true, if_false, if_true]
  rfl

/-- A fresh peer at a port with link state. -/
theorem exec_init_freshPeer (hfresh : (s.port p).fresh = false) :
    exec (.init p chip topo dateline true rev ack free) s =
      .next (((s.setF .reinPortStat p 3 1 1).setF .reinPortStat p 4 4 chip).linkDown p 1) := by
  have hdown : psInit ≠ psUp := by decide
  change execInit p chip topo dateline true rev ack free s = _
  simp only [execInit, h, hcheck, hfresh, hdown, decide_true, Bool.true_or, Bool.not_true, Bool.not_false, Bool.false_eq_true,
    if_false, if_true]

end
end

/-- A link that is neither off nor down. -/
theorem portState_linked (hon : s.portState p ≠ 0) (hup : s.portState p ≠ psDown) :
    (decide (s.portState p = 0) || decide (s.portState p = psDown)) = false := by simp [hon, hup]

end

/-- Settles O52: each event by the port's state. -/
theorem reinTraining : Obligations.ReinTraining := by
  unfold Obligations.ReinTraining
  intro s p chip topo cause dateline fresh rev ack free st q heard
  refine ⟨exec_reinPortL0_training, fun h => congrArg Host.Outcome.next (if_pos h), exec_initResend_due,
    fun h c => exec_init_unfit h, exec_init_fresh, exec_init_freshPeer, fun hon hup => ?lost,
    fun h => congrArg Host.Outcome.next (if_pos h)⟩
  case lost =>
    have hguard := Bool.eq_false_iff.mp (portState_linked hon hup)
    exact ⟨congrArg Host.Outcome.next (if_neg hguard), congrArg Host.Outcome.next (if_neg hguard)⟩

end Sys2Proof.Machine
end

