-- ==== Sys2Proof/Proofs/ReinPackets.lean ====
section
/-! PROOFS. Rein packets and responses (O53). -/

namespace Sys2Proof.Machine

open Sys2Proof

section
variable {s : State} {p i r st o : Nat} {k : Packet}

/-! ## Packets received (R657 to R666) -/

section
variable (hk : (s.port p).next? (fun k => hDst k.w0 != s.chipId) = some (i, k))
include hk

theorem exec_packetForward_routed (hr : s.route (hDst k.w0) = some r) (hne : r ≠ p) :
    exec (.packetForward p) s = .next ((s.takeRx p i).sendVia r { k with held := some (p, k.vc) }) := by
  change execPacketForward p s = _
  simp only [execPacketForward, hk, hr, hne, if_false]

theorem exec_packetForward_dropped (hr : s.route (hDst k.w0) = none ∨ s.route (hDst k.w0) = some p) :
    exec (.packetForward p) s = .next ((s.doneRx p i k).addF .reinPortErr p 40 12 1) := by
  change execPacketForward p s = _
  rcases hr with hr | hr
  · simp only [execPacketForward, hk, hr]
  · simp only [execPacketForward, hk, hr, if_true]

end

section
variable (hk : s.nextOf p tRfill = some (i, k))
include hk

theorem exec_rfill_noRing {c : Nat} (hring : (s.takeRx p i).remoteRing k.w0 k.w1 = .error c) :
    exec (.rfill p) s = .next ((s.takeRx p i).wackFill (some (p, k.w0)) c) := by
  change execRfill p s = _
  simp only [execRfill, hk, hring]

variable (hring : (s.takeRx p i).remoteRing k.w0 k.w1 = .ok r)
include hring

theorem exec_rfill_credited {c : Nat} (hcredit : (s.takeRx p i).holdsCredit r (fld k.w1 21 32) none (remoteKey k.w0) = true)
    (hcore : ringCore r = some c) :
    let d := fillData k
    exec (.rfill p) s = .next ((s.takeRx p i).inject c
      ⟨r, .fill (fld k.w1 21 32) d.1 d.2.1 d.2.2 (some (p, k.w0)) none, none⟩) := by
  intro d
  change execRfill p s = _
  simp only [execRfill, hk, hring, hcredit, hcore, Bool.not_true, Bool.false_eq_true, if_false]
  rfl

theorem exec_rfill_uncredited (hcredit : (s.takeRx p i).holdsCredit r (fld k.w1 21 32) none (remoteKey k.w0) = false) :
    exec (.rfill p) s = .next ((s.takeRx p i).wackFill (some (p, k.w0)) 3) := by
  change execRfill p s = _
  simp only [execRfill, hk, hring, hcredit, Bool.not_false, if_true]

end

/-- With nothing held and no fills of its source inside, the first ORD packet of its type is performed. -/
theorem State.ordNext_first {typ : Nat} (hhold : (s.port p).hold = []) (hfills : s.fillsOf k.w0 = false)
    (hk : s.nextOf p typ = some (i, k)) : s.ordNext p typ = (s.doneRx p i k).ordDo k := by
  simp only [State.ordNext, hhold, hk, hfills, List.zipIdx_nil, List.find?_nil, List.take_nil, List.all_nil, Bool.not_false,
    Bool.and_self, if_true]

/-- What a type of ORD packet without data does. -/
theorem State.ordDo_hwr {u : State} (h : hType k.w0 = tHwr) : u.ordDo k = u.remoteHitch k.w0 k.w1 false := by
  rw [State.ordDo, h]; rfl
theorem State.ordDo_hadd {u : State} (h : hType k.w0 = tHadd) : u.ordDo k = u.remoteHitch k.w0 k.w1 true := by
  rw [State.ordDo, h]; rfl
theorem State.ordDo_rrel {u : State} (h : hType k.w0 = tRrel) : u.ordDo k = u.releaseRemote fun n => n == remoteKey k.w0 := by
  rw [State.ordDo, h]; rfl

section
variable (hk : s.nextOf p tRd = some (i, k))
include hk

theorem exec_rd_unbound (hbound : s.bound k.w0 = none) :
    let beats := fld k.w1 48 3
    exec (.rd p) s = .next ((s.doneRx p i k).sendPacket (answer0 k.w0 tRdata (4 * beats)) 1
      (List.replicate (4 * beats) (BitVec.allOnes 128, true))) := by
  intro beats
  change execRd p s = _
  simp only [execRd, hk, hbound]
  rfl

theorem exec_rd_paddock {e : Place} (hbound : s.bound k.w0 = some st) (halign : fld k.w1 0 48 % 64 = 0)
    (hfirst : s.place st (fld k.w1 0 48) false = some (.paddock o))
    (hlast : s.place st (fld k.w1 0 48 + 64 * fld k.w1 48 3 - 1) false = some e) :
    let beats := fld k.w1 48 3
    exec (.rd p) s = .next (((s.pdSettle o).doneRx p i k).sendPacket (answer0 k.w0 tRdata (4 * beats)) 0
      ((s.pdSettle o).beatSlots (pdBase + o) beats)) := by
  intro beats
  change execRd p s = _
  simp only [execRd, hk, hbound, halign, hfirst, hlast, ne_eq, not_true_eq_false, if_false]
  rfl

end

section
variable (hk : s.nextOf p tRresv = some (i, k)) (hroom : (s.doneRx p i k).remoteWaiting < remoteTable)
include hk hroom

theorem exec_rresv_noRing {c : Nat} (hring : (s.doneRx p i k).remoteRing k.w0 k.w1 = .error c) :
    exec (.rresv p) s =
      .next ((s.doneRx p i k).sendPacket (answer0 k.w0 tRgnt 0) (BitVec.ofNat 64 (c + 0 * 2 ^ 32)) []) := by
  change execRresv p s = _
  simp only [execRresv, hk, hring, Nat.not_le.mpr hroom, if_false]

variable (hring : (s.doneRx p i k).remoteRing k.w0 k.w1 = .ok r)
include hring

theorem exec_rresv_granted (hgrant : (s.doneRx p i k).canGrant r (fld k.w1 21 4 + 1) = true) :
    let u := s.doneRx p i k
    exec (.rresv p) s = .next ((u.grantCredits r (fld k.w1 21 4 + 1) none (remoteKey k.w0)).sendPacket (answer0 k.w0 tRgnt 0)
      (BitVec.ofNat 64 (0 + u.ringResv r * 2 ^ 32)) []) := by
  intro u
  change execRresv p s = _
  simp only [execRresv, hk, hring, hgrant, Nat.not_le.mpr hroom, if_false, if_true]
  rfl

theorem exec_rresv_waits (hgrant : (s.doneRx p i k).canGrant r (fld k.w1 21 4 + 1) = false) :
    exec (.rresv p) s = .next ((s.doneRx p i k).waitResv r (fld k.w1 21 4 + 1) (.remote p k.w0) none) := by
  change execRresv p s = _
  simp only [execRresv, hk, hring, hgrant, Nat.not_le.mpr hroom, Bool.false_eq_true, if_false]

end

/-! ## Responses (R653, R661 to R664) -/

section
variable {typ : Nat} {g : Tagged} {c : Instr} {go : Tagged → Packet → State → State} (hc : exec c s = .next (s.response p typ go))
  (hk : s.nextOf p typ = some (i, k))
include hc hk

/-- A response with a live tag is its request's. -/
theorem exec_of_response {u : State} (hg : (s.doneRx p i k).tagOf k.w0 = some g) (hu : go g k ((s.doneRx p i k).endTag g) = u) :
    exec c s = .next u := by
  rw [hc, State.response, hk]
  simp only [hg, hu]

/-- One without is late. -/
theorem exec_of_response_late (hg : (s.doneRx p i k).tagOf k.w0 = none) :
    exec c s = .next ((s.doneRx p i k).addF .reinPortErr p 52 12 1) := by
  rw [hc, State.response, hk]
  simp only [hg]

end

section
variable {g : Tagged} {core q x : Nat} (hg : (s.doneRx p i k).tagOf k.w0 = some g)
include hg

theorem exec_wack_fill (hk : s.nextOf p tWack = some (i, k)) (hok : fld k.w1 0 8 = 0) (hwhat : g.what = .fill (some (core, q, x))) :
    exec (.wack p) s = .next (((s.doneRx p i k).endTag g).updXfer core q x fun x => { x with acks := x.acks - 1 }) := by
  refine exec_of_response rfl hk hg ?_
  simp only [hok, hwhat, ne_eq, not_true_eq_false, if_false]

theorem exec_rdata_read {beat : Nat} (hk : s.nextOf p tRdata = some (i, k)) (hok : fld k.w1 0 8 = 0)
    (hwhat : g.what = .read core q x beat) :
    exec (.rdata p) s =
      .next (((s.doneRx p i k).endTag g).updXfer core q x fun x => { x with got := x.got ++ k.beatsFrom beat }) := by
  refine exec_of_response rfl hk hg ?_
  simp only [hok, hwhat, ne_eq, not_true_eq_false, if_false]
  rfl

section
variable {who : RWho} {ring : Word} {n : Nat} (hk : s.nextOf p tRgnt = some (i, k)) (hwhat : g.what = .resv who ring n)
include hk hwhat

theorem exec_rgnt_busy (hbusy : fld k.w1 0 8 = 5) :
    let v := (s.doneRx p i k).endTag g
    exec (.rgnt p) s = .next (v.setTagged (v.cx.rein.tagged ++ [{ g with busy := true, sent := v.now }])) := by
  refine exec_of_response rfl hk hg ?_
  simp only [hwhat, hbusy, if_true]

theorem exec_rgnt_context {core ctx : Nat} (hok : fld k.w1 0 8 = 0) (hwho : who = .ctx core ctx) :
    exec (.rgnt p) s = .next (((s.doneRx p i k).endTag g).granted ⟨who, g.task, n, g.sent⟩ (farRing g.chip) (fld k.w1 32 32)) := by
  refine exec_of_response rfl hk hg ?_
  simp only [hwhat, hok, hwho, ne_eq, not_true_eq_false, OfNat.zero_ne_ofNat, if_false]

end
end
end

section
variable {s : State} {unit tag : Nat} {g : Tagged}

theorem exec_rresvRetry_resends (hg : s.cx.rein.tagged.find? (fun g => g.unit == unit && g.tag == tag && g.busy) = some g) :
    let w := s.notBefore (g.sent + 1000)
    exec (.rresvRetry unit tag) s = .next ((w.setTagged (w.cx.rein.tagged.map fun o =>
      if o.unit = unit ∧ o.tag = tag then { o with busy := false, sent := w.now } else o)).sendPacket g.w0 g.w1 []) := by
  intro w
  change execRresvRetry unit tag s = _
  rw [execRresvRetry, hg]

theorem exec_reinTimeout_faults (hg : s.cx.rein.tagged.find? (fun g => g.unit == unit && g.tag == tag && !g.busy) = some g) :
    let w := s.notBefore (g.sent + 1000 * max 1 (s.f .reinLimits 0 0 16))
    exec (.reinTimeout unit tag) s = .next (g.fault (w.endTag g) .reinTimeout (g.chip + g.tag * 2 ^ 16)) := by
  intro w
  change execReinTimeout unit tag s = _
  rw [execReinTimeout, hg]

end

/-- Settles O53: each packet by its type and checks, each response by its tag and status. -/
theorem reinPackets : Obligations.ReinPackets := by
  unfold Obligations.ReinPackets
  refine ⟨fun s p i r st o k => ⟨fun hk => ⟨exec_packetForward_routed hk, exec_packetForward_dropped hk⟩,
      fun hk => ⟨fun c => exec_rfill_noRing hk, fun c hring hcredit hcore => exec_rfill_credited hk hring hcredit hcore,
        exec_rfill_uncredited hk⟩,
      fun hhold hfills => ⟨fun hk htype => ?hwr, fun hk htype => ?hadd, fun hk htype => ?rrel⟩,
      fun hk => ⟨exec_rd_unbound hk, fun e => exec_rd_paddock hk⟩,
      fun hk hroom => ⟨fun c => exec_rresv_noRing hk hroom, exec_rresv_granted hk hroom, exec_rresv_waits hk hroom⟩⟩,
    fun s p i unit tag k g => ⟨fun core q x hk hg => exec_wack_fill hg hk, fun hk hg hbad => ?refused,
      fun hk hg => exec_of_response_late rfl hk hg, fun core q x beat hk hg => exec_rdata_read hg hk,
      fun who ring n hk hg hwhat => ⟨exec_rgnt_busy hg hk hwhat, fun c x hok hwho => exec_rgnt_context hg hk hwhat hok hwho⟩,
      exec_rresvRetry_resends, exec_reinTimeout_faults⟩⟩
  case hwr => exact congrArg Host.Outcome.next ((State.ordNext_first hhold hfills hk).trans (State.ordDo_hwr htype))
  case hadd => exact congrArg Host.Outcome.next ((State.ordNext_first hhold hfills hk).trans (State.ordDo_hadd htype))
  case rrel => exact congrArg Host.Outcome.next ((State.ordNext_first hhold hfills hk).trans (State.ordDo_rrel htype))
  case refused => exact exec_of_response rfl hk hg (if_pos hbad)

end Sys2Proof.Machine
end

