-- ==== Sys2Proof/Proofs/RegisterFields.lean ====
section
/-! PROOFS. Fields of registers: what a field reads after a write of one. -/

namespace Sys2Proof.Machine

open Sys2Proof

/-! ## Fields of a word -/

theorem testBit_fld (w : Word) (lo n k : Nat) : (fld w lo n).testBit k = (decide (k < n) && w.toNat.testBit (lo + k)) := by
  rw [fld, Nat.testBit_mod_two_pow, Nat.testBit_shiftRight]

/-- The bits of a written word: the field's come from the value, the others stay. -/
theorem testBit_setFld (w : Word) {lo n v k : Nat} (hk : k < 64) :
    (setFld w lo n v).toNat.testBit k = if lo ≤ k ∧ k < lo + n then v.testBit (k - lo) else w.toNat.testBit k := by
  rw [BitVec.testBit_toNat, BitVec.testBit_toNat]
  simp only [setFld, BitVec.getLsbD_or, BitVec.getLsbD_and, BitVec.getLsbD_not, BitVec.getLsbD_shiftLeft, BitVec.getLsbD_ofNat,
    Nat.testBit_two_pow_sub_one, Nat.testBit_mod_two_pow, hk, decide_true, Bool.true_and]
  have hlow : k - lo < 64 := by omega
  by_cases hlo : lo ≤ k
  · by_cases hhi : k < lo + n
    · have hin : k - lo < n := by omega
      simp [hlo, hhi, hin, hlow, Nat.not_lt.mpr hlo]
    · have hout : ¬ k - lo < n := by omega
      simp [hhi, hout]
  · have hbelow : k < lo := Nat.lt_of_not_le hlo
    simp [hlo, hbelow]

/-- Another field reads as before. -/
theorem fld_setFld_disjoint (w : Word) {lo n v lo' n' : Nat} (hfit : lo' + n' ≤ 64) (h : lo' + n' ≤ lo ∨ lo + n ≤ lo') :
    fld (setFld w lo n v) lo' n' = fld w lo' n' := by
  refine Nat.eq_of_testBit_eq fun k => ?_
  rw [testBit_fld, testBit_fld]
  by_cases hk : k < n'
  · rw [testBit_setFld w (by omega), if_neg (by omega)]
  · simp [hk]

/-- The field written reads the value. -/
theorem fld_setFld_self (w : Word) {lo n v : Nat} (hfit : lo + n ≤ 64) (hv : v < 2 ^ n) : fld (setFld w lo n v) lo n = v := by
  refine Nat.eq_of_testBit_eq fun k => ?_
  rw [testBit_fld]
  by_cases hk : k < n
  · rw [testBit_setFld w (by omega), if_pos (by omega), Nat.add_sub_cancel_left]
    simp [hk]
  · have hzero : v.testBit k = false :=
      Nat.testBit_lt_two_pow (hv.trans_le (Nat.pow_le_pow_right (by norm_num) (Nat.le_of_not_lt hk)))
    simp [hk, hzero]

/-! ## Fields of a register -/

section
variable {s : State} {r q : Reg} {i j lo n v lo' n' : Nat}

/-- A field of a register at another address reads as before. -/
theorem State.f_setReg_ne (w : Word) (h : q.off j ≠ r.off i) : (s.setReg r i w).f q j lo n = s.f q j lo n := by
  unfold State.f
  rw [State.reg_setReg_ne s h]

theorem State.f_setF_ne (h : q.off j ≠ r.off i) : (s.setF r i lo n v).f q j lo' n' = s.f q j lo' n' :=
  State.f_setReg_ne _ h

/-- Another field of the register, the registers being in canonical form. -/
theorem State.f_setF_disjoint (hs : Tbl.risingFrom 0 s.regs = true) (hfit : lo' + n' ≤ 64) (h : lo' + n' ≤ lo ∨ lo + n ≤ lo') :
    (s.setF r i lo n v).f r i lo' n' = s.f r i lo' n' := by
  unfold State.f State.setF
  rw [State.reg_setReg_self hs, fld_setFld_disjoint _ hfit h]

theorem State.f_setF_self (hs : Tbl.risingFrom 0 s.regs = true) (hfit : lo + n ≤ 64) (hv : v < 2 ^ n) :
    (s.setF r i lo n v).f r i lo n = v := by
  unfold State.f State.setF
  rw [State.reg_setReg_self hs, fld_setFld_self _ hfit hv]

/-- Another field that is not zero, of a register that resets to zero, whatever the form of the registers. -/
theorem State.f_setF_disjoint_of_ne_zero (hreset : s.regReset r i = 0) (hfit : lo' + n' ≤ 64)
    (h : lo' + n' ≤ lo ∨ lo + n ≤ lo') (hne : s.f r i lo' n' ≠ 0) : (s.setF r i lo n v).f r i lo' n' = s.f r i lo' n' := by
  have hfield : fld (setFld (s.reg r i) lo n v) lo' n' = s.f r i lo' n' := fld_setFld_disjoint _ hfit h
  have hlisted : setFld (s.reg r i) lo n v ≠ 0 := by
    intro hzero
    rw [hzero] at hfield
    exact hne (hfield.symm.trans (by simp [fld]))
  have hread : (s.setReg r i (setFld (s.reg r i) lo n v)).reg r i = setFld (s.reg r i) lo n v := by
    change Tbl.get _ (Tbl.put _ s.regs _ _) _ = _
    rw [hreset, Tbl.put, if_neg hlisted, Tbl.get, Tbl.find?_insert_self]
  exact (congrArg (fun w => fld w lo' n') hread).trans hfield

/-- Registers in canonical form stay so. -/
theorem State.rising_setF (hs : Tbl.risingFrom 0 s.regs = true) : Tbl.risingFrom 0 (s.setF r i lo n v).regs = true :=
  Tbl.risingFrom_put hs (Nat.zero_le _)

theorem State.rising_setReg (w : Word) (hs : Tbl.risingFrom 0 s.regs = true) : Tbl.risingFrom 0 (s.setReg r i w).regs = true :=
  Tbl.risingFrom_put hs (Nat.zero_le _)

end

end Sys2Proof.Machine
end

