-- ==== Sys2Proof/Proofs/PowerReset.lean ====
section
/-! PROOFS. Power, PERST# and what a reset of the device leaves (O54). -/

namespace Sys2Proof.Machine

open Sys2Proof

/-! ## What a reset of the device keeps -/

/-- From s to t the power and the number of resets stay. -/
structure SamePower (s t : State) : Prop where
  pw     : t.pw = s.pw
  resets : t.ras.resets = s.ras.resets

theorem SamePower.refl (s : State) : SamePower s s := ⟨rfl, rfl⟩

theorem SamePower.trans {s t u : State} (h : SamePower s t) (k : SamePower t u) : SamePower s u :=
  ⟨k.pw.trans h.pw, k.resets.trans h.resets⟩

theorem SamePower.ite {s t u : State} {c : Prop} [Decidable c] (ht : SamePower s t) (hu : SamePower s u) :
    SamePower s (if c then t else u) := by
  split
  · exact ht
  · exact hu

theorem SamePower.foldl {α : Type} {f : State → α → State} (h : ∀ s x, SamePower s (f s x)) (l : List α) :
    ∀ s, SamePower s (l.foldl f s) := by
  induction l with
  | nil => exact SamePower.refl
  | cons x l ih => exact fun s => (h s x).trans (ih _)

theorem SamePower.setF (s : State) (r : Reg) (i lo n v : Nat) : SamePower s (s.setF r i lo n v) := ⟨rfl, rfl⟩

theorem SamePower.setReg (s : State) (r : Reg) (i : Nat) (w : Word) : SamePower s (s.setReg r i w) := ⟨rfl, rfl⟩

theorem SamePower.dropUpdate (s : State) : SamePower s s.dropUpdate := ⟨rfl, rfl⟩

theorem SamePower.headDown (s : State) (head : Nat) : SamePower s (s.headDown head) := by
  refine SamePower.trans ?_ (.setF _ _ _ _ _ _)
  exact .ite ⟨rfl, rfl⟩ (.refl s)

theorem SamePower.fenceOff (s : State) (cause : Nat) : SamePower s (s.fenceOff cause) := by
  unfold State.fenceOff
  refine .ite (.refl s) ?_
  generalize hu : ({ s with stage := { s.stage with fences := KSet.del cause s.stage.fences } } : State) = u
  have hstage : SamePower s u := hu ▸ ⟨rfl, rfl⟩
  have hrecord := OnlyRecords.advise u .fenceLifted 6 cause 0
  exact hstage.trans ⟨hrecord.pw, hrecord.resets⟩

theorem SamePower.perstRegs (s : State) : SamePower s s.perstRegs := by
  unfold State.perstRegs
  extract_lets a b c d e f g h k l
  have hd : SamePower s d := ⟨rfl, rfl⟩
  have he : SamePower s e := .ite hd (hd.trans (.setF _ _ _ _ _ _))
  have hg : SamePower s g := ((he.trans (.setF _ _ _ _ _ _)).trans (.setF _ _ _ _ _ _)).trans (.setF _ _ _ _ _ _)
  have hh : SamePower s h := .ite (hg.trans (.setF _ _ _ _ _ _)) (.ite (hg.trans (.setF _ _ _ _ _ _)) hg)
  exact ((hh.trans (.setF _ _ _ _ _ _)).trans (.setF _ _ _ _ _ _)).trans (.setF _ _ _ _ _ _)

/-! ## What it clears -/

/-- A state u that a reset of s has cleared, before it turns VDD_CORE off. -/
structure ResetLeaves (s u : State) (count : Bool) : Prop where
  mem          : u.mem = []
  poison       : u.poison = []
  q            : u.q = Queues.idle
  cx           : u.cx = Complex.idle
  dcoh         : u.dcoh = Dcoh.idle
  extents      : u.link.extents = []
  sessions     : u.gb.sessions = []
  commit       : u.gb.commit = none
  ctrlVerified : u.stage.ctrlVerified = false
  hsWritten    : u.stage.hsWritten = []
  rails        : u.pw.rails = s.pw.rails
  resets       : u.ras.resets = s.ras.resets + bit count
  rising       : s.Inv → Tbl.risingFrom 0 u.regs = true

theorem State.perstScope_cleared (s : State) (count : Bool) :
    ∃ u, s.perstScope count = u.coreOff.unlatchCore ∧ ResetLeaves s u count := by
  unfold State.perstScope
  extract_lets a b keep epochs c st d e ras link mgmt u
  refine ⟨u, rfl, ?_⟩
  have ha : SamePower s a ∧ Keeps s a :=
    ⟨(SamePower.headDown s 0).trans (SamePower.headDown _ 1), State.headDown_keeps (State.headDown_keeps (.refl s))⟩
  clear_value a
  have hb : SamePower s b ∧ Keeps s b :=
    ⟨ha.1.trans (SamePower.foldl SamePower.fenceOff perstEnds a), ha.2.foldl fun v x hv => State.fenceOff_keeps hv⟩
  clear_value b
  have hc : SamePower s c ∧ Keeps s c := ⟨hb.1.trans (SamePower.dropUpdate b), State.dropUpdate_keeps hb.2⟩
  have hd : SamePower s d ∧ Keeps s d := ⟨hc.1.trans (SamePower.perstRegs c), State.perstRegs_keeps hc.2⟩
  clear_value d
  have he : SamePower s e ∧ Keeps s e := by
    unfold e
    split
    · exact ⟨(hd.1.trans (SamePower.setF d _ _ _ _ _)).trans (SamePower.setReg _ _ _ _),
        State.setReg_keeps (State.setF_keeps hd.2)⟩
    · exact hd
  clear_value e
  obtain ⟨hpower, hkeeps⟩ := he
  exact {
    mem := rfl, poison := rfl, q := rfl, cx := rfl, dcoh := rfl, extents := rfl, sessions := rfl, commit := rfl
    ctrlVerified := rfl, hsWritten := rfl, rails := congrArg Power.rails hpower.pw
    resets := congrArg (· + bit count) hpower.resets, rising := fun hs => (hkeeps.inv hs).2.1 }

/-- Turning VDD_CORE off and clearing its latch touches registers and power alone, and no rail of the card. -/
theorem State.coreOff_frame (u : State) : ∃ regs pw, u.coreOff = { u with regs := regs, pw := pw } ∧ pw.rails = u.pw.rails :=
  ⟨u.coreOff.regs, u.coreOff.pw, rfl, rfl⟩

theorem State.recap_frame (u : State) : ∃ regs, u.recap = { u with regs := regs } := ⟨u.recap.regs, rfl⟩

theorem State.unlatchCore_frame (u : State) : ∃ regs pw, u.unlatchCore = { u with regs := regs, pw := pw } ∧ pw.rails = u.pw.rails := by
  unfold State.unlatchCore
  extract_lets v
  obtain ⟨regs, hrecap⟩ := State.recap_frame (v.updPw fun p => { p with
    latched := false, pgFaultAt := none, retried := false, legFaults := [], phases := [] })
  exact ⟨regs, _, hrecap, rfl⟩

theorem State.powerDown_frame (u : State) :
    ∃ regs pw, u.coreOff.unlatchCore = { u with regs := regs, pw := pw } ∧ pw.rails = u.pw.rails := by
  obtain ⟨regs, pw, hoff, hrails⟩ := State.coreOff_frame u
  obtain ⟨regs', pw', hlatch, hrails'⟩ := State.unlatchCore_frame u.coreOff
  rw [hlatch, hoff]
  rw [hoff] at hrails'
  exact ⟨regs', pw', rfl, hrails'.trans hrails⟩

/-- VDD_CORE's power-good reads 0, and the registers are in canonical form. -/
structure PowerGoodOff (s : State) : Prop where
  rising : Tbl.risingFrom 0 s.regs = true
  off    : s.f .vrStatus 0 20 1 = 0

/-- Writes of other fields of VR_STATUS keep it so. -/
theorem PowerGoodOff.setF {s : State} (h : PowerGoodOff s) {lo n v : Nat} (hfield : 21 ≤ lo ∨ lo + n ≤ 20) :
    PowerGoodOff (s.setF .vrStatus 0 lo n v) :=
  ⟨State.rising_setF h.rising, (State.f_setF_disjoint h.rising (by norm_num) (by omega)).trans h.off⟩

/-- Writes of other registers do. -/
theorem PowerGoodOff.setReg {s : State} (h : PowerGoodOff s) {r : Reg} {i : Nat} (w : Word) (hr : Reg.vrStatus.off 0 ≠ r.off i) :
    PowerGoodOff (s.setReg r i w) :=
  ⟨State.rising_setReg w h.rising, (State.f_setReg_ne w hr).trans h.off⟩

theorem PowerGoodOff.updPw {s : State} (h : PowerGoodOff s) (f : Power → Power) : PowerGoodOff (s.updPw f) := ⟨h.rising, h.off⟩

theorem PowerGoodOff.recap {s : State} (h : PowerGoodOff s) : PowerGoodOff s.recap :=
  ((h.setReg _ (by decide)).setReg _ (by decide)).setF (by norm_num)

/-- With VDD_CORE off its power-good reads 0. -/
theorem State.powerGood_coreOff {u : State} (hu : Tbl.risingFrom 0 u.regs = true) :
    u.coreOff.unlatchCore.f .vrStatus 0 20 1 = 0 := by
  have hset : PowerGoodOff (u.setF .vrStatus 0 20 1 0) :=
    ⟨State.rising_setF hu, State.f_setF_self hu (by norm_num) (by norm_num)⟩
  have hoff : PowerGoodOff u.coreOff := (hset.setF (by norm_num)).updPw _
  exact ((((hoff.setReg _ (by decide)).setF (by norm_num)).updPw _).recap).off

/-! ## Power and PERST# (R42, R128 to R130, R736) -/

section
variable {s : State}

theorem State.fanFull_pw (s : State) : s.fanFull.pw = s.pw := by
  unfold State.fanFull
  split <;> rfl

theorem State.fanFull_stage (s : State) : s.fanFull.stage = s.stage := by
  unfold State.fanFull
  split <;> rfl

/-- The thermal fence, as a trip sets it. -/
def State.tripFence (u : State) : State :=
  { u with stage := { u.stage with fences := KSet.add 1 u.stage.fences }, ras := { u.ras with internalReset := none } }

/-- What a trip does after the reset of the device (R736, R806). -/
def State.trip (u : State) : State :=
  (((u.tripFence.setF .thermStatus 0 57 2 3).advise .fence 6 1).updPw fun p => { p with rails := 3 }).fanFull

theorem State.trip_rails (u : State) : u.trip.pw.rails = 3 := congrArg Power.rails (State.fanFull_pw _)

theorem State.trip_fence (u : State) : u.trip.stage.fences.contains 1 = true := by
  have hrecord := (OnlyRecords.advise (u.tripFence.setF .thermStatus 0 57 2 3) .fence 6 1 0).stage
  have hstage : u.trip.stage = u.tripFence.stage := (State.fanFull_stage _).trans hrecord
  rw [hstage]
  exact KSet.has_add_self 1 _

theorem exec_thermalTrip_trips {k : Nat} (hrails : s.pw.rails ≠ 0) (hk : k < 6) (hon : s.trippedOff = false) :
    ∃ t, exec (.thermalTrip k) s = .next t ∧ t.pw.rails = 3 ∧ t.stage.fences.contains 1 = true := by
  have hguard : (decide (6 ≤ k) || s.trippedOff || decide (s.pw.rails = 0)) = false := by simp [hrails, hk, hon]
  have hexec : exec (.thermalTrip k) s = .next (s.perstScope false).trip :=
    congrArg Host.Outcome.next (if_neg (Bool.eq_false_iff.mp hguard))
  exact ⟨_, hexec, State.trip_rails _, State.trip_fence _⟩

theorem exec_perstAssert_asserts (hrails : s.pw.rails ≠ 0) (hjumper : s.link.jumper2x8 = false) (hperst : s.stage.perst = false) :
    exec (.perstAssert false) s = .next ((s.updStage fun g => { g with perst := true }).perstScope true) := by
  change execPerstAssert false s = _
  have hguard : (s.stage.perst || decide (s.pw.rails = 0)) = false := by simp [hperst, hrails]
  simp only [execPerstAssert, hjumper, Bool.false_eq_true, if_false]
  exact congrArg Host.Outcome.next ((if_neg (Bool.eq_false_iff.mp hguard)).trans (if_pos rfl))

section
variable (hjumper : s.link.jumper2x8 = false) (hperst : s.stage.perst = true)
include hjumper hperst

theorem exec_perstDeassert_starts (hrails : s.pw.rails = 7) :
    exec (.perstDeassert false) s = .next (s.updStage fun g => { g with perst := false }).beginStart := by
  change execPerstDeassert false s = _
  simp only [execPerstDeassert, hjumper, hperst, State.updStage, hrails, Bool.not_false, Bool.and_self, Bool.not_true,
    Bool.false_eq_true, if_false]
  rfl

theorem exec_perstDeassert_tripped (hrails : s.pw.rails = 3) :
    let u := s.updStage fun g => { g with perst := false }
    exec (.perstDeassert false) s = .next (if u.coolEnough then (u.updPw fun p => { p with rails := 7 }).beginStart else u) := by
  intro u
  change execPerstDeassert false s = _
  simp only [execPerstDeassert, hjumper, hperst, State.updStage, hrails, Bool.not_false, Bool.and_self, Bool.not_true,
    Bool.false_eq_true, if_false]
  rfl

end
end

/-- Settles O54: each event past its guard, and what the reset's one pass over the state leaves. -/
theorem powerAndReset : Obligations.PowerAndReset := by
  unfold Obligations.PowerAndReset
  refine ⟨fun s b => ⟨fun hoff => congrArg Host.Outcome.next (if_neg (not_not_intro hoff)),
      fun hrails => ⟨congrArg Host.Outcome.next (if_neg hrails), congrArg Host.Outcome.next (if_neg hrails)⟩,
      fun hon => congrArg Host.Outcome.next (if_pos hon), rfl, exec_perstAssert_asserts,
      fun hrails hjumper hperst => exec_perstDeassert_starts hjumper hperst hrails,
      fun hrails hjumper hperst => ⟨fun hcool => ?cool, fun hwarm => ?warm⟩, fun k => exec_thermalTrip_trips⟩,
    fun s count => ?reset⟩
  case cool =>
    exact (exec_perstDeassert_tripped hjumper hperst hrails).trans (congrArg Host.Outcome.next (if_pos hcool))
  case warm =>
    exact (exec_perstDeassert_tripped hjumper hperst hrails).trans
      (congrArg Host.Outcome.next (if_neg (Bool.eq_false_iff.mp hwarm)))
  case reset =>
    obtain ⟨u, hu, h⟩ := State.perstScope_cleared s count
    obtain ⟨regs, pw, hframe, hrails⟩ := State.powerDown_frame u
    have hpg := fun hs => State.powerGood_coreOff (h.rising hs)
    dsimp only
    rw [hu]
    rw [hframe] at hpg ⊢
    exact ⟨h.mem, h.poison, h.q, h.cx, h.dcoh, h.extents, h.sessions, h.commit, h.ctrlVerified, h.hsWritten,
      hrails.trans h.rails, h.resets, hpg⟩

end Sys2Proof.Machine
end

