-- ==== Sys2Proof/Proofs/StartUpSteps.lean ====
section
/-! PROOFS. From PERST# to Canter (O55). -/

namespace Sys2Proof.Machine

open Sys2Proof

section
variable {s : State}

/-! ## A failing pair (R72, R73) -/

/-- With FALLBACK permitted and not used the other pair starts. -/
theorem State.pairFails_fallsBack (code detail : Nat) (hpermit : s.f .stageCtl 0 2 1 = 1) (hunused : s.f .stageStatus 0 5 1 = 0) :
    s.pairFails code detail = (((s.setAlt code detail s.pairB).setF .stageStatus 0 5 1 1).restartPair (!s.pairB)).updStage
      fun g => { g with fallback := true } := by
  unfold State.pairFails
  simp only [hpermit, hunused, decide_true, Bool.and_self, if_true]

/-- With it not permitted the reason is held. -/
theorem State.pairFails_holds (code detail : Nat) (hforbid : s.f .stageCtl 0 2 1 = 0) (hfirst : s.stage.fallback = false) :
    s.pairFails code detail = s.setReason code detail := by
  have hne : ¬ s.f .stageCtl 0 2 1 = 1 := by rw [hforbid]; decide
  unfold State.pairFails
  simp only [hne, hfirst, decide_false, Bool.false_and, Bool.false_eq_true, if_false]

/-! ## Stages and images (R44 to R83) -/

/-- The state whose images CANTER_ENTRY checks: a reason that an earlier failure held is lifted once the MGMT image runs. -/
def State.reasonLifted (s : State) : State :=
  { s with stage := { s.stage with mgmtReason := if s.stage.heldFailed && s.mgmtUp then none else s.stage.mgmtReason } }

/-- With the images ready no reason of the MGMT image is held, so none is lifted. -/
theorem State.reasonLifted_imagesReady (hready : s.imagesReady = true) : s.reasonLifted.imagesReady = true := by
  have hnone : s.stage.mgmtReason = none := by
    simp only [State.imagesReady, State.mgmtHeld, Bool.and_eq_true, Bool.not_eq_true', Option.isSome_eq_false_iff,
      Option.isNone_iff_eq_none] at hready
    obtain ⟨⟨⟨-, hheld⟩, -⟩, -⟩ := hready
    exact hheld
  have hsame : s.reasonLifted = s := by
    unfold State.reasonLifted
    rw [hnone, ite_self, ← hnone]
  rw [hsame, hready]

section
variable (hreset : s.inReset = false)
include hreset

section
variable (hstage : s.stageNow = 0) (htrain : s.stage.trainFail = none)
include hstage htrain

theorem exec_walkEntry_restored (hvalid : s.stage.trainValid = true) :
    exec (.walkEntry true none) s =
      .next ((s.setF .stageStatus 0 0 2 1).setF .stageTimes 0 0 16 s.stageMs).memActive := by
  have hguard : (s.inReset || decide (s.stageNow ≠ 0) || s.stage.trainFail.isSome
      || (true && (!s.stage.trainValid || (none : Option Nat).isSome))) = false := by simp [hreset, hstage, htrain, hvalid]
  exact congrArg Host.Outcome.next (if_neg (Bool.eq_false_iff.mp hguard))

theorem exec_walkEntry_fails (ch : Nat) :
    exec (.walkEntry false (some ch)) s =
      .next (s.updStage fun g => { g with trainFail := some (ch % 32), trainValid := false }) := by
  have hguard : (s.inReset || decide (s.stageNow ≠ 0) || s.stage.trainFail.isSome
      || (false && (!s.stage.trainValid || (some ch).isSome))) = false := by simp [hreset, hstage, htrain]
  exact congrArg Host.Outcome.next (if_neg (Bool.eq_false_iff.mp hguard))

end

theorem exec_imageVerify_mgmt (hstage : s.stageNow ≠ 0) (hnew : s.stage.mgmtVerified = false) (hostler : s.ras.ostlerHeld = false)
    (hheld : s.mgmtHeld = false) : exec (.imageVerify .mgmt) s = .next s.verifyMgmt := by
  change execImageVerify .mgmt s = _
  simp only [execImageVerify, hreset, hstage, hnew, hostler, hheld, decide_false, Bool.false_and, Bool.or_self,
    Bool.false_eq_true, if_false]

theorem exec_imageVerify_ctrl (hstage : s.stageNow = 2) (hnew : s.stage.ctrlVerified = false) (hup : s.mgmtUp = true)
    (hheld : s.ctrlHeld = false) : exec (.imageVerify .ctrl) s = .next s.verifyCtrl := by
  change execImageVerify .ctrl s = _
  simp only [execImageVerify, hreset, hstage, hnew, hup, hheld, Bool.not_true, Bool.or_self, Bool.false_eq_true, if_false,
    OfNat.ofNat_ne_zero, decide_false, lt_irrefl]

theorem exec_imageReportsRunning_mgmt (hverified : s.stage.mgmtVerified = true) (hdown : s.mgmtUp = false)
    (hstart : s.stage.mgmtStart.isSome = true) (hostler : s.ras.ostlerHeld = false) :
    exec (.imageReportsRunning .mgmt) s = .next s.mgmtRuns := by
  change execImageReportsRunning .mgmt s = _
  simp only [execImageReportsRunning, hreset, hverified, hdown, hstart, hostler, Bool.not_false, Bool.and_self,
    Bool.false_eq_true, if_false, if_true]

theorem exec_imageReportsRunning_ctrl (hverified : s.stage.ctrlVerified = true) (hdown : s.f .stageStatus 0 7 1 = 0)
    (hstart : s.stage.ctrlStart.isSome = true) (hfence : s.stage.fences.contains 8 = false) :
    exec (.imageReportsRunning .ctrl) s = .next s.ctrlRuns := by
  change execImageReportsRunning .ctrl s = _
  simp only [execImageReportsRunning, hreset, hverified, hdown, hstart, hfence, decide_true, Bool.not_false, Bool.and_self,
    Bool.false_eq_true, if_false, if_true]

theorem exec_mgmtStartTimeout_fails {t : Nat} (hstart : s.stage.mgmtStart = some t) (hdown : s.mgmtUp = false)
    (hverified : s.stage.mgmtVerified = true) :
    exec .mgmtStartTimeout s =
      .next (((s.notBefore (t + 1500000000)).updStage fun g => { g with mgmtVerified := false, mgmtStart := none }).pairFails
        rcMgmtTimeout 0) := by
  change execMgmtStartTimeout s = _
  simp only [execMgmtStartTimeout, hstart, hreset, hdown, hverified, Bool.not_true, Bool.or_self, Bool.false_eq_true, if_false]

theorem exec_ctrlStartTimeout_fails {t : Nat} (hstart : s.stage.ctrlStart = some t) (hdown : s.f .stageStatus 0 7 1 = 0)
    (hverified : s.stage.ctrlVerified = true) :
    exec .ctrlStartTimeout s =
      .next (((s.notBefore (t + 2000000000)).updStage fun g => { g with ctrlVerified := false, ctrlStart := none }).pairFails
        rcCtrlTimeout 0) := by
  have hguard : (s.inReset || decide (s.f .stageStatus 0 7 1 = 1) || !s.stage.ctrlVerified) = false := by
    simp [hreset, hdown, hverified]
  change execCtrlStartTimeout s = _
  simp only [execCtrlStartTimeout, hstart, hguard, Bool.false_eq_true, if_false]

theorem exec_vrNotReady_notes (hup : s.mgmtUp = true) (hpg : s.corePg = false) (hstage : s.stageNow = 1 ∨ s.stageNow = 2)
    (hnew : s.stage.vrReason = none) :
    exec .vrNotReady s =
      .next ((s.notBefore (s.stage.mgmtUpAt + 500000000)).updStage fun g => { g with vrReason := some s.faultedPhases }) := by
  have hguard : (s.inReset || !s.mgmtUp || s.corePg || decide (s.stageNow = 0) || decide (s.stageNow = stCanter)
      || s.stage.vrReason.isSome) = false := by
    rcases hstage with hstage | hstage <;> simp [hreset, hup, hpg, hstage, hnew, stCanter]
  exact congrArg Host.Outcome.next (if_neg (Bool.eq_false_iff.mp hguard))

theorem exec_trotEntry_enters (hstage : s.stageNow = 1) (hup : s.mgmtUp = true) (hpg : s.corePg = true) :
    exec .trotEntry s = .next (((s.setF .stageStatus 0 0 2 2).setF .stageTimes 0 16 16 s.stageMs).clearShared.updStage
      fun g => { g with ctrlCopied := true, trainValid := true }) := by
  have hguard : (s.inReset || decide (s.stageNow ≠ 1) || !s.mgmtUp || !(s.corePg || s.stage.vrReason.isSome)) = false := by
    simp [hreset, hstage, hup, hpg]
  exact congrArg Host.Outcome.next (if_neg (Bool.eq_false_iff.mp hguard))

theorem exec_bistComplete_records (mask : Word32) (hstage : 2 ≤ s.stageNow) (hpg : s.corePg = true) (hnew : s.stage.bistDone = false) :
    exec (.bistComplete mask) s =
      .next (((s.setReg .stageBist 0 (mask.setWidth 64)).setF .stageStatus 0 16 6
        ((List.range 32).filter fun c => !mask.toNat.testBit c).length).updStage fun g => { g with bistDone := true }) := by
  have hguard : (s.inReset || decide (s.stageNow < 2) || !s.corePg || s.stage.bistDone) = false := by
    simp [hreset, hpg, hnew, Nat.not_lt.mpr hstage]
  exact congrArg Host.Outcome.next (if_neg (Bool.eq_false_iff.mp hguard))

theorem exec_canterEntry_enters (hstage : s.stageNow = 2) (hready : s.imagesReady = true) (haccepted : s.noneAccepted = false)
    (hfences : s.stage.fences = []) (hpg : s.corePg = true) :
    exec .canterEntry s = .next (((s.setF .stageStatus 0 0 2 3).setF .stageTimes 0 32 16 s.stageMs).updStage fun g => { g with
      mgmtReason := none, ctrlReason := none, drvReason := none, vrReason := none, fallback := false, heldFailed := false }) := by
  have hguard : (s.inReset || decide (s.stageNow ≠ 2) || !s.reasonLifted.imagesReady || s.noneAccepted || !s.stage.fences.isEmpty
      || !s.corePg) = false := by
    rw [State.reasonLifted_imagesReady hready, hreset, haccepted, hfences, hpg, hstage]
    rfl
  exact congrArg Host.Outcome.next (if_neg (Bool.eq_false_iff.mp hguard))

end
end

/-- Settles O55: each command past its guard; a failing pair by what is permitted. -/
theorem startUp : Obligations.StartUp := by
  unfold Obligations.StartUp
  refine ⟨fun s mask ch hreset => ⟨fun hstage htrain => ⟨exec_walkEntry_restored hreset hstage htrain,
      exec_walkEntry_fails hreset hstage htrain ch⟩, exec_imageVerify_mgmt hreset, exec_imageVerify_ctrl hreset,
      exec_imageReportsRunning_mgmt hreset, exec_imageReportsRunning_ctrl hreset, fun t => exec_mgmtStartTimeout_fails hreset,
      fun t => exec_ctrlStartTimeout_fails hreset, exec_vrNotReady_notes hreset, exec_trotEntry_enters hreset,
      exec_bistComplete_records hreset mask, exec_canterEntry_enters hreset⟩,
    fun s code detail => ⟨State.pairFails_fallsBack code detail, State.pairFails_holds code detail⟩⟩

end Sys2Proof.Machine
end

