-- ==== Sys2Proof/Proofs/PowerDelivery.lean ====
section
/-! PROOFS. The VDD_CORE regulator and its limits, operating points, ADAPT and the monitors (O58, O59, O60). -/

namespace Sys2Proof.Machine

open Sys2Proof

/-! ## Pulses and set-points (R712, R724) -/

section
variable {ton toff dead dmax skips : Nat} {carry demand : Int}

/-- A request below TON_MIN after four skips gives TON_MIN. -/
theorem onTime_least (hdemand : 0 < demand) (hsmall : 10 * (demand + carry) < 64 * ton) (hskips : 4 ≤ skips) :
    onTime ton toff dead dmax carry skips demand = ((64 * ton + 5) / 10, 0, 0, false) := by
  have hlate : ¬ (10 * (demand + carry) < 64 * ton ∧ skips < 4) := fun h => Nat.not_lt.mpr hskips h.2
  exact (if_neg (Int.not_le.mpr hdemand)).trans ((if_neg hlate).trans (if_pos hsmall))

/-- One between TON_MIN and what dead time and TOFF_MIN leave gives the demand with what was carried. -/
theorem onTime_between (hdemand : 0 < demand) (hlow : 64 * (ton : Int) ≤ 10 * (demand + carry))
    (hhigh : 64 * (dead : Int) + 64 * toff ≤ 10 * (8000 - (demand + carry))) :
    onTime ton toff dead dmax carry skips demand = ((demand + carry).toNat, 0, 0, false) := by
  have hlarge : ¬ 10 * (demand + carry) < 64 * ton := Int.not_lt.mpr hlow
  have hfits : ¬ 10 * (vrPeriod - (demand + carry)) < 64 * dead + 64 * toff := Int.not_lt.mpr hhigh
  simp only [onTime, Int.not_le.mpr hdemand, hlarge, hfits, false_and, if_false]

end

theorem State.setpointOf_bounds (s : State) (op : Nat) : 500 ≤ s.setpointOf op ∧ s.setpointOf op ≤ 850 := by
  unfold State.setpointOf
  extract_lets v
  omega

theorem foldl_min_le (l : List Nat) : ∀ m, l.foldl min m ≤ m := by
  induction l with
  | nil => exact le_refl
  | cons x l ih => exact fun m => (ih _).trans (min_le_left m x)

/-- Settles O59: the on-time by its branches; set-point, cap and effective OP by their clamps. -/
theorem regulatorLimits : Obligations.RegulatorLimits := by
  unfold Obligations.RegulatorLimits
  refine ⟨fun ton toff dead dmax carry demand skips => ⟨fun hnone => if_pos hnone, fun hdemand hsmall hskips => ?skipped,
      fun hdemand hsmall hskips => ?least, fun hdemand hlow hhigh => ?between⟩,
    fun s op => ⟨(s.setpointOf_bounds op).1, (s.setpointOf_bounds op).2, foldl_min_le _ 3, min_le_right _ _⟩⟩
  case skipped => exact (if_neg (Int.not_le.mpr hdemand)).trans (if_pos ⟨hsmall, hskips⟩)
  case least =>
    rw [onTime_least hdemand hsmall hskips]
    exact ⟨rfl, rfl⟩
  case between =>
    rw [onTime_between hdemand hlow hhigh]
    exact ⟨Int.toNat_of_nonneg (by omega), rfl⟩

/-! ## The regulator (R711 to R722) -/

section
variable {s : State}

theorem exec_powerGoodAssert_good {v : Nat} (hpg : s.corePg = false) (hon : s.f .vrCtl 0 0 1 = 1) (hrails : s.pw.rails = 7)
    (hlatch : s.pw.latched = false) (hvolt : s.pw.undervolt = false) (hfault : s.pw.pgFaultAt = none) (hup : s.mgmtUp = true)
    (hstage : s.stageNow ≠ 0) (hlow : s.setpointOf (s.f .vrCtl 0 3 2) ≤ v + 50)
    (hhigh : v ≤ s.setpointOf (s.f .vrCtl 0 3 2) + 50) :
    let u := (((s.setF .vrStatus 0 20 1 1).setF .vrStatus 0 0 10 v).recap).updPw fun p => { p with
      pgFaultAt := none, retried := false }
    exec (.powerGoodAssert v) s = .next (({ u with stage := { u.stage with vrReason := none } }).fenceOff 7) := by
  intro u
  change execPowerGoodAssert v s = _
  simp only [execPowerGoodAssert, hpg, hon, hrails, hlatch, hvolt, hfault, hup, hstage, Nat.not_lt.mpr hlow, Nat.not_lt.mpr hhigh,
    ne_eq, not_true_eq_false, one_ne_zero, decide_false, Bool.not_true, Bool.false_and, Bool.or_self, Bool.false_eq_true, if_false]
  rfl

theorem exec_powerGoodFault_high {v : Nat} (hon : s.f .vrCtl 0 0 1 = 1) (hpg : s.corePg = true) (hhigh : 900 < v) :
    exec (.powerGoodFault true v) s = .next (s.setF .vrStatus 0 0 10 v).corePgFault := by
  change execPowerGoodFault true v s = _
  simp only [execPowerGoodFault, hon, hpg, hhigh, decide_true, one_ne_zero, decide_false, Bool.not_true, Bool.or_self,
    Bool.false_eq_true, if_false, if_true]

theorem exec_powerGoodRetry_retries {t : Nat} (hfault : s.pw.pgFaultAt = some t) (hfirst : s.pw.retried = false)
    (hlatch : s.pw.latched = false) (hon : s.f .vrCtl 0 0 1 = 1) :
    exec .powerGoodRetry s =
      .next (((s.notBefore (t + 10000000)).setF .vrCtl 0 3 2 1).updPw fun p => { p with retried := true }) := by
  change execPowerGoodRetry s = _
  simp only [execPowerGoodRetry, hfault, hfirst, hlatch, hon, one_ne_zero, decide_false, Bool.or_self, Bool.false_eq_true, if_false]

section
variable {p : Nat} (hswitch : s.switches p = true)
include hswitch

theorem exec_pwmPeriod_switching (demand : Int) (hadc : s.f .vrStatus 0 22 1 = 0) :
    let k := s.phase p
    let w := s.reg .vrPwm 0
    let r := onTime (fld w 8 8) (fld w 16 8) (fld w 0 7) (fld w 24 8) k.carry k.skips demand
    exec (.pwmPeriod p demand) s = .next ((if r.2.2.2 then s.addF .vrStatus 0 48 16 1 else s).setPhase p { k with
      on := r.1, carry := r.2.1, skips := r.2.2.1
      hs := if k.hsNow then k.hs else 0, ls := if k.lsNow then k.ls else 0, hsNow := false, lsNow := false }) := by
  intro k w r
  have hguard : (!s.switches p || decide (s.f .vrStatus 0 22 1 = 1)) = false := by simp [hswitch, hadc]
  exact congrArg Host.Outcome.next (if_neg (Bool.eq_false_iff.mp hguard))

section
variable (hnew : (s.phase p).hsNow = false)
include hnew

/-- A first overcurrent of the high side in a period ends its pulse and counts. -/
theorem exec_overcurrentTrip_high :
    let n := (s.phase p).hs + 1
    let u := s.setPhase p { s.phase p with hs := n, hsNow := true, on := 0 }
    exec (.overcurrentTrip p false) s = .next (if 8 ≤ n then u.legFault p false false else u) := by
  intro n u
  change execOvercurrentTrip p false s = _
  simp only [execOvercurrentTrip, hswitch, hnew, Bool.not_true, Bool.or_self, Bool.false_eq_true, if_false]
  rfl

end
end

theorem exec_remoteSenseLost_probed (remote loc : Nat) (hon : s.f .vrCtl 0 0 1 = 1) (hsense : s.f .vrStatus 0 21 1 = 0)
    (hadc : s.f .vrStatus 0 22 1 = 0) :
    exec (.remoteSenseLost true remote loc) s = .next (((s.setF .vrStatus 0 21 1 1).powerFault .vrSenseLost
      (1 + 2 ^ 16 * (remote % 2 ^ 16) + 2 ^ 32 * (loc % 2 ^ 16)) true).recap) := by
  have hguard : (decide (s.f .vrCtl 0 0 1 = 0) || decide (s.f .vrStatus 0 21 1 = 1) || decide (s.f .vrStatus 0 22 1 = 1)
      || !(true || (decide (remote + 60 < loc) || decide (loc + 60 < remote)))) = false := by simp [hon, hsense, hadc]
  exact congrArg Host.Outcome.next (if_neg (Bool.eq_false_iff.mp hguard))

theorem exec_adcFrozen_latches (counter : Bool) (hon : s.f .vrCtl 0 0 1 = 1) (hadc : s.f .vrStatus 0 22 1 = 0)
    (hpg : s.corePg = true) :
    exec (.adcFrozen counter) s =
      .next (((s.setF .vrStatus 0 22 1 1).powerFault .vrAdcFrozen (bit counter) true).coreLatch 3) := by
  have hguard : (decide (s.f .vrCtl 0 0 1 = 0) || decide (s.f .vrStatus 0 22 1 = 1) || !s.corePg) = false := by
    simp [hon, hadc, hpg]
  exact congrArg Host.Outcome.next (if_neg (Bool.eq_false_iff.mp hguard))

end

/-- Settles O58: each event past its guard; the overcurrents by their count. -/
theorem regulator : Obligations.Regulator := by
  unfold Obligations.Regulator
  refine fun s p v remote loc low counter demand => ⟨exec_powerGoodAssert_good, exec_powerGoodFault_high,
    fun t => exec_powerGoodRetry_retries, fun hswitch => exec_pwmPeriod_switching hswitch demand,
    fun hswitch hnew => ⟨fun hfew => ?few, fun hmany => ?many⟩, fun hswitch => congrArg Host.Outcome.next (if_pos hswitch),
    exec_remoteSenseLost_probed remote loc, exec_adcFrozen_latches counter⟩
  case few => exact (exec_overcurrentTrip_high hswitch hnew).trans (congrArg Host.Outcome.next (if_neg (Nat.not_le.mpr hfew)))
  case many => exact (exec_overcurrentTrip_high hswitch hnew).trans (congrArg Host.Outcome.next (if_pos hmany))

end Sys2Proof.Machine
end

