-- ==== Sys2Proof/Proofs/PowerMonitors.lean ====
section
/-! PROOFS. Operating points, ADAPT and the monitors (O60). -/

namespace Sys2Proof.Machine

open Sys2Proof

/-! ## Operating points and ADAPT (R725 to R727) -/

theorem State.notBefore_zero (s : State) : s.notBefore 0 = s := by
  unfold State.notBefore
  rw [Nat.max_zero]

section
variable {s : State}

theorem exec_opChange_starts (hup : s.mgmtUp = true) (hpg : s.corePg = true) (hidle : s.pw.target = none)
    (hop : s.effOp ≠ s.f .vrCtl 0 3 2) (hfence : s.f .vrCtl 0 3 2 < s.effOp → s.stage.fences.contains 1 = false) :
    exec .opChange s = .next (s.updPw fun p => { p with
      target := some (s.effOp, s.now + s.opTime (s.f .vrCtl 0 3 2) s.effOp) }) := by
  have hfree : (decide (s.f .vrCtl 0 3 2 < s.effOp) && s.stage.fences.contains 1) = false := by
    by_cases h : s.f .vrCtl 0 3 2 < s.effOp
    · rw [hfence h, Bool.and_false]
    · rw [decide_eq_false h, Bool.false_and]
  have hguard : (!s.corePg || s.pw.target.isSome || decide (s.effOp = s.f .vrCtl 0 3 2)
      || (decide (s.f .vrCtl 0 3 2 < s.effOp) && s.stage.fences.contains 1)) = false := by
    rw [hfree, hpg, hidle, decide_eq_false hop]
    rfl
  exact congrArg Host.Outcome.next ((if_pos hup).trans (if_neg (Bool.eq_false_iff.mp hguard)))

theorem exec_opChangeComplete_due {op at_ : Nat} (htarget : s.pw.target = some (op, at_)) :
    let u := s.notBefore at_
    let v := (((u.setF .vrCtl 0 3 2 (min op u.opCap)).setF .vrStatus 0 24 8 0).updPw fun p => { p with target := none }).recap
    exec .opChangeComplete s = .next (if v.mgmtUp then v.beginOp else v) := by
  intro u v
  change execOpChangeComplete s = _
  rw [execOpChangeComplete, htarget]

section
variable {slack : Nat} (hup : s.mgmtUp = true) (hpg : s.corePg = true) (hon : s.f .vrAdapt 0 0 1 = 1)
  (hat : s.pw.adaptAt = none) (hdroop : s.pw.droopAt = none) (hband : s.f .vrAdapt 0 16 8 < s.f .vrAdapt 0 24 8)
include hup hpg hon hat hdroop hband

/-- The first step of ADAPT takes the present time, and moves it by its slack. -/
theorem exec_adaptTick_first :
    let u := s.updPw fun p => { p with adaptAt := some s.now, droopAt := none }
    exec (.adaptTick slack) s = .next (
      if s.f .vrAdapt 0 24 8 ≤ slack then
        u.setAdapt (max (-(min 100 (u.f .vrAdapt 0 8 8) : Int)) (signed 8 (u.f .vrStatus 0 24 8) - 5))
      else if slack < s.f .vrAdapt 0 16 8 then u.setAdapt (min 0 (signed 8 (u.f .vrStatus 0 24 8) + 5))
      else u) := by
  intro u
  have hguard : (!s.mgmtUp || !s.corePg || decide (s.f .vrAdapt 0 0 1 = 0)) = false := by simp [hup, hpg, hon]
  change execAdaptTick slack s = _
  unfold execAdaptTick
  rw [if_neg (Bool.eq_false_iff.mp hguard)]
  simp only [hat, Option.map_none, Option.getD_none, State.notBefore_zero, hdroop]
  have hsame : (if u.f .vrAdapt 0 24 8 ≤ u.f .vrAdapt 0 16 8 then u.f .vrAdapt 0 16 8 + 1 else u.f .vrAdapt 0 24 8) =
      s.f .vrAdapt 0 24 8 := if_neg (Nat.not_le.mpr hband)
  rw [hsame]
  rfl

end

theorem exec_droopAlarm_steps (hpg : s.corePg = true) :
    exec .droopAlarm s = .next ((s.setAdapt 0).updPw fun p => { p with droopAt := some s.now }) :=
  congrArg Host.Outcome.next (if_pos hpg)

end

/-! ## Clocks and references (R728 to R731) -/

section
variable {s : State} (hostler : s.ostlerOn = true)
include hostler

theorem exec_clockRefCheck_near {refXo : Int} (refW xoW : Int)
    (hnear : (refXo + (min 2500 (s.f .refCfg 0 0 12) : Nat)).natAbs ≤ 200) (hfirst : s.pw.clkOkAt = none) :
    let u := (s.setF .refStatus 0 0 16 (lowBits 16 (refXo + (min 2500 (s.f .refCfg 0 0 12) : Nat)))).setF .refStatus 0 16 16
      (lowBits 16 xoW)
    exec (.clockRefCheck refXo refW xoW) s = .next (u.updPw fun p => { p with clkOkAt := some u.now }) := by
  intro u
  have hfar : ¬ 400 < (refXo + (min 2500 (s.f .refCfg 0 0 12) : Nat)).natAbs := by omega
  change execClockRefCheck refXo refW xoW s = _
  simp only [execClockRefCheck, hostler, hnear, hfar, hfirst, State.setF_pw, decide_false, Bool.false_and, Bool.not_true,
    Bool.false_eq_true, if_false, if_true]
  rfl

theorem exec_refclkLoss_switches (hfeeds : s.feeds true = true) :
    exec .refclkLoss s = .next ((s.switchPlls true).clockWarn (signed 16 (s.f .refStatus 0 0 16))
      (signed 16 (s.f .refStatus 0 16 16)) true false true) := by
  change execRefclkLoss s = _
  simp only [execRefclkLoss, hostler, hfeeds, Bool.not_true, Bool.or_self, Bool.false_eq_true, if_false]

/-- A disagreement from 1.00 to 1.50 %, not yet warned of. -/
theorem exec_vrefCheck_warns {diff : Nat} (hs : s.Inv) (hlow : 100 ≤ diff) (hhigh : diff ≤ 150) (hnew : s.f .refStatus 0 51 1 = 0) :
    let u := ((s.setF .refStatus 0 32 16 diff).setF .refStatus 0 51 1 1).setF .vrStatus 0 23 1 1
    exec (.vrefCheck diff) s = .next ((u.powerFault .vrefDriftWarn diff false).updPw fun p => { p with
      vrefWarnOk := none, vrefFenceOk := none }).recap := by
  intro u
  have hmin : min diff 65535 = diff := Nat.min_eq_left (by omega)
  have hmod : diff % 2 ^ 16 = diff := Nat.mod_eq_of_lt (by omega)
  have hrising : Tbl.risingFrom 0 s.regs = true := hs.2.1
  have hunwarned : (s.setF .refStatus 0 32 16 diff).f .refStatus 0 51 1 = 0 :=
    (State.f_setF_disjoint hrising (by norm_num) (by norm_num)).trans hnew
  change execVrefCheck diff s = _
  unfold execVrefCheck
  rw [if_neg (by rw [hostler]; decide), hmin, hmod]
  extract_lets a warned b c d past e
  have hb : b = u.powerFault .vrefDriftWarn diff false := if_pos (by
    have hquiet : warned = false := beq_eq_false_iff_ne.mpr (by rw [hunwarned]; decide)
    rw [hquiet, decide_eq_true (by omega : 60 < diff)]
    rfl)
  have hc : c = b := if_neg (by omega)
  have hd : d = c.updPw fun p => { p with vrefWarnOk := none, vrefFenceOk := none } := by
    have hwarning : ¬ diff < 40 := by omega
    have hfenced : ¬ diff < 100 := by omega
    simp only [d, hwarning, hfenced, if_false]
  have hwarn : past d.pw.vrefWarnOk = false := by rw [hd]; rfl
  have he : e = d := if_neg (by rw [hwarn]; decide)
  have hfence : past e.pw.vrefFenceOk = false := by rw [he, hd]; rfl
  rw [hfence, if_neg (by decide), he, hd, hc, hb]

end

/-! ## Temperatures and power (R732 to R737) -/

section
variable {s : State} {k : Nat} (hostler : s.ostlerOn = true)
include hostler

section
variable (hk : k < 6) (hthawed : s.frozen k = false)
include hk hthawed

theorem exec_thermalTick_live (temp : Int) :
    exec (.thermalTick k temp) s = .next (s.setF .thermStatus 0 (8 * k) 8 (lowBits 8 temp)).thermal := by
  have hguard : (decide (6 ≤ k) || !s.ostlerOn) = false := by simp [hk, hostler]
  exact congrArg Host.Outcome.next ((if_neg (Bool.eq_false_iff.mp hguard)).trans (if_pos (by rw [hthawed]; rfl)))

theorem exec_tempSensorFrozen_marks (counter : Bool) :
    let u := s.updPw fun p => { p with thaw := Tbl.erase k p.thaw }
    exec (.tempSensorFrozen k counter) s =
      .next (((u.setF .thermStatus 0 (48 + k) 1 1).powerFault .tempSensorFrozen (k + 8 * bit counter) false).fanFull).thermal := by
  intro u
  have hguard : (decide (6 ≤ k) || !s.ostlerOn) = false := by simp [hk, hostler]
  have hlive : ¬ u.frozen k = true := Bool.eq_false_iff.mp hthawed
  exact congrArg Host.Outcome.next ((if_neg (Bool.eq_false_iff.mp hguard)).trans (if_neg hlive))

end

/-- A power average above the limit lowers the power cap. -/
theorem exec_powerLimitTick_above {card core iout vout at_ : Nat} (hat : s.pw.powerAt = some at_) :
    let u := (((s.notBefore (at_ + 10000000)).setF .powerStatus 0 0 16 (min card 65535)).setF .powerStatus 0 16 16
      (min core 65535)).setF .vrStatus 0 32 16 (min iout 65535)
    let v := (u.setF .vrStatus 0 0 10 (min vout 1023)).updPw fun p => { p with powerAt := some u.now }
    10 * v.effLimit < card → exec (.powerLimitTick card core iout vout) s =
      .next (v.updPw fun p => { p with capPower := p.capPower - 1, lowAt := none }).recap := by
  intro u v habove
  change execPowerLimitTick card core iout vout s = _
  unfold execPowerLimitTick
  rw [if_neg (by rw [hostler]; decide), hat]
  extract_lets a b c w lim low d e
  have hd : d = v.updPw fun p => { p with capPower := p.capPower - 1, lowAt := none } := if_pos habove
  have hlow : d.pw.lowAt = none := by rw [hd]; rfl
  have he : e = d := by
    unfold e
    rw [hlow]
  rw [he, hd]

end

/-! ## The fan (R738 to R741) -/

section
variable {s : State}

/-- The state in which a tick of the fan's control has read the tach. -/
def State.fanRead (s : State) (rpm : Nat) : State :=
  let u := (s.notBefore (s.pw.fanAt + 10 ^ 9)).setF .fanStatus 0 0 16 (min rpm 65535)
  u.updPw fun p => { p with fanAt := u.now }

/-- Reading the tach leaves the fan's state, when that is not off. -/
theorem State.fanRead_fanState {rpm : Nat} (hstate : s.fanState ≠ 0) : (s.fanRead rpm).fanState = s.fanState :=
  State.f_setF_disjoint_of_ne_zero (s := s.notBefore (s.pw.fanAt + 10 ^ 9)) rfl (by norm_num) (by norm_num) hstate

/-- The duty of a running fan (R738). -/
def State.fanDuty (v : State) (duty : Nat) : Nat :=
  if decide (v.warnC ≤ v.junctionWarm) || v.anyFrozen then 100
  else if v.f .fanCtl 0 1 1 = 1 then v.f .fanCtl 0 8 8 else max (v.f .fanCtl 0 8 8) (min duty 100)

theorem State.fanDuty_full {v : State} (duty : Nat) (hwarm : v.warnC ≤ v.junctionWarm ∨ v.anyFrozen = true) : v.fanDuty duty = 100 :=
  if_pos (by simpa using hwarm)

theorem State.fanDuty_follows {v : State} (duty : Nat) (hcool : v.junctionWarm < v.warnC) (hlive : v.anyFrozen = false)
    (hfree : v.f .fanCtl 0 1 1 = 0) : v.fanDuty duty = max (v.f .fanCtl 0 8 8) (min duty 100) := by
  have hguard : (decide (v.warnC ≤ v.junctionWarm) || v.anyFrozen) = false := by
    rw [hlive, decide_eq_false (Int.not_le.mpr hcool)]; rfl
  exact (if_neg (Bool.eq_false_iff.mp hguard)).trans (if_neg (by rw [hfree]; decide))

section
variable (horder : s.card.order = .a256) (hup : s.mgmtUp = true)
include horder hup

theorem fan_owned : (decide (s.card.order ≠ .a256) || !s.mgmtUp) = false := by simp [horder, hup]

theorem exec_fanStart_retries (hstate : s.fanState = 2) :
    let u := s.notBefore (s.pw.fanAt + 5 * 10 ^ 9)
    exec .fanStart s = .next (((u.setF .fanStatus 0 20 4 (u.f .fanStatus 0 20 4 + 1)).setFan 1).fanFull) :=
  congrArg Host.Outcome.next ((if_neg (Bool.eq_false_iff.mp (fan_owned horder hup))).trans (if_pos hstate))

theorem exec_fanStart_wanted (hstate : s.fanState = 0) (hwant : s.pw.fanWant = true) :
    exec .fanStart s = .next (((s.updPw fun p => { p with fanWant := false }).setFan 1).fanFull) := by
  have hother : ¬ s.fanState = 2 := by rw [hstate]; decide
  exact congrArg Host.Outcome.next ((if_neg (Bool.eq_false_iff.mp (fan_owned horder hup))).trans
    ((if_neg hother).trans (if_pos hwant)))

/-- A running fan takes its duty. -/
theorem exec_fanControlTick_running (duty rpm : Nat) (hstate : s.fanState = 3) :
    exec (.fanControlTick duty rpm) s = .next ((s.fanRead rpm).setF .fanStatus 0 24 8 ((s.fanRead rpm).fanDuty duty)) := by
  have hguard : (decide (s.card.order ≠ .a256) || !s.mgmtUp || (decide (s.fanState ≠ 3) && decide (s.fanState ≠ 5))) = false := by
    rw [fan_owned horder hup, hstate]
    rfl
  have hstays : ¬ (s.fanRead rpm).fanState = 5 := by
    rw [State.fanRead_fanState (by rw [hstate]; decide), hstate]
    decide
  exact congrArg Host.Outcome.next ((if_neg (Bool.eq_false_iff.mp hguard)).trans (if_neg hstays))

/-- While the card is warm or a sensor frozen it runs full. -/
theorem exec_fanControlTick_full (duty : Nat) {rpm : Nat} (hstate : s.fanState = 3)
    (hwarm : (s.fanRead rpm).warnC ≤ (s.fanRead rpm).junctionWarm ∨ (s.fanRead rpm).anyFrozen = true) :
    exec (.fanControlTick duty rpm) s = .next ((s.fanRead rpm).setF .fanStatus 0 24 8 100) := by
  rw [exec_fanControlTick_running horder hup duty rpm hstate, State.fanDuty_full duty hwarm]

theorem exec_fanControlTick_follows (duty : Nat) {rpm : Nat} (hstate : s.fanState = 3)
    (hcool : (s.fanRead rpm).junctionWarm < (s.fanRead rpm).warnC) (hlive : (s.fanRead rpm).anyFrozen = false)
    (hfree : (s.fanRead rpm).f .fanCtl 0 1 1 = 0) :
    exec (.fanControlTick duty rpm) s =
      .next ((s.fanRead rpm).setF .fanStatus 0 24 8 (max ((s.fanRead rpm).f .fanCtl 0 8 8) (min duty 100))) := by
  rw [exec_fanControlTick_running horder hup duty rpm hstate, State.fanDuty_follows duty hcool hlive hfree]

end

theorem exec_fanStartCheck_starting (rpm : Nat) (hstate : s.fanState = 1) :
    let u := (s.notBefore (s.pw.fanAt + 2 * 10 ^ 9)).setF .fanStatus 0 0 16 (min rpm 65535)
    exec (.fanStartCheck rpm) s = .next (
      if 300 < rpm then u.setFan 3
      else if u.f .fanStatus 0 20 4 < 3 then u.setFan 2
      else ((u.setFan 4).fanFull).powerFault .fanStall (min rpm 65535 + 2 ^ 16 * u.f .fanStatus 0 20 4) false) :=
  congrArg Host.Outcome.next (if_neg (not_not_intro hstate))

theorem exec_tachLost_running (hstate : s.fanState = 3) :
    exec .tachLost s = .next (((((((s.setFan 5).setF .fanStatus 0 19 1 1).setF .fanStatus 0 0 16 0).updPw
      fun p => { p with tachBackAt := none }).fanFull).powerFault .tachLost (s.f .fanStatus 0 0 16) false)) :=
  congrArg Host.Outcome.next (if_neg (not_not_intro hstate))

end

/-- Settles O60: each step past its guard, by its branches. -/
theorem powerMonitors : Obligations.PowerMonitors := by
  unfold Obligations.PowerMonitors
  refine ⟨fun s op at_ slack => ⟨exec_opChange_starts, exec_opChangeComplete_due,
      fun hup hpg hon hat hdroop hband => ⟨fun hmuch => ?down, fun hlittle => ?up⟩, exec_droopAlarm_steps⟩,
    fun s k diff card core iout vout duty rpm temp refXo refW xoW counter hostler => ⟨?clock, exec_refclkLoss_switches hostler,
      exec_vrefCheck_warns hostler, fun hk hthawed => exec_thermalTick_live hostler hk hthawed temp,
      fun hk hthawed => exec_tempSensorFrozen_marks hostler hk hthawed counter, fun at_ => exec_powerLimitTick_above hostler,
      fun horder hup => ⟨exec_fanStart_retries horder hup, exec_fanStart_wanted horder hup, fun hstate => ⟨?full, ?follows⟩⟩,
      fun hstate => ⟨?runs, ?fails⟩, exec_tachLost_running⟩⟩
  case down =>
    exact (exec_adaptTick_first hup hpg hon hat hdroop hband).trans (congrArg Host.Outcome.next (if_pos hmuch))
  case up =>
    exact (exec_adaptTick_first hup hpg hon hat hdroop hband).trans
      (congrArg Host.Outcome.next ((if_neg (by omega)).trans (if_pos hlittle)))
  case clock => exact exec_clockRefCheck_near hostler refW xoW
  case full => exact exec_fanControlTick_full horder hup duty hstate
  case follows => exact exec_fanControlTick_follows horder hup duty hstate
  case runs =>
    exact fun hspin => (exec_fanStartCheck_starting rpm hstate).trans (congrArg Host.Outcome.next (if_pos hspin))
  case fails =>
    exact fun hslow hfew => (exec_fanStartCheck_starting rpm hstate).trans
      (congrArg Host.Outcome.next ((if_neg (Nat.not_lt.mpr hslow)).trans (if_pos hfew)))

end Sys2Proof.Machine
end
